-- ==== Sys2Proof/Word.lean ====
section
/-!
DEFINITION. The word types of the H9 (spec/00_scope.md R4: little-endian, bit 0 least significant).
-/

namespace Sys2Proof

/-- An 8-bit field or a byte of memory (R4). -/
abbrev Byte := BitVec 8

/-- A 64-bit word: a scalar register, an instruction word, an address (R17, R25, R43). -/
abbrev W64 := BitVec 64

/-- A lane of a vector register (R17). -/
abbrev W32 := BitVec 32

end Sys2Proof
end

