-- ==== Sys2Proof/Syntax.lean ====
section
/-!
DEFINITION. The instructions and steps of the H9: one constructor of `Instr` per row of
spec/opcode_table.json. The rows that a wave issues carry their operands; the rows that are steps of
the part carry the object they concern.
-/

namespace Sys2Proof

/-- The type codes 0 to 14 of R51; code 15 is accepted by no instruction. -/
inductive Ty where
  | b32 | i32 | n32 | f32 | i64 | n64 | f64 | f16 | bf16 | i16 | n16 | i8 | n8 | h8 | h8w
  deriving DecidableEq, Repr, Inhabited

/-- The rounding modes of MOD[1:0] (R47). -/
inductive Rm where
  | near | zero | up | down
  deriving DecidableEq, Repr, Inhabited

/-- The constant and special codes of R46. -/
inductive Const where
  | zero | one | two | four | eight | sixteen | m1 | m2 | half | mhalf | quarter
  | ln2 | pi | log2e | width | wave | nwaves | block | gx | gy | gz | spbase | stkbase
  deriving DecidableEq, Repr, Inhabited

/-- A source of vector kind: a vector register, or under the broadcast bits or U = 1 a scalar
register or a constant (R46). -/
inductive Src where
  | vec (r : BitVec 8)
  | sca (r : BitVec 7)
  | con (c : Const)
  deriving DecidableEq, Repr, Inhabited

/-- A destination of vector kind: a vector register, or under U = 1 a scalar register (R46). -/
inductive Dst where
  | vec (r : BitVec 8)
  | sca (r : BitVec 7)
  deriving DecidableEq, Repr, Inhabited

/-- A field of scalar-or-constant kind (R45). -/
inductive SC where
  | sca (r : BitVec 7)
  | con (c : Const)
  deriving DecidableEq, Repr, Inhabited

/-- A mask field that may name `exec` (R45). -/
inductive MX where
  | k (n : BitVec 4)
  | exec
  deriving DecidableEq, Repr, Inhabited

/-- The scopes of R9 in the coding of R49. -/
inductive Scope where
  | wave | block | cell | span | device | system
  deriving DecidableEq, Repr, Inhabited

/-- Operands of a base-form instruction with one source. `uni` is R46's U bit. -/
structure Op1 where
  k : BitVec 4
  ty : Ty
  d : Dst
  a : Src
  deriving DecidableEq, Repr, Inhabited

/-- Operands of a base-form instruction with two sources. -/
structure Op2 where
  k : BitVec 4
  ty : Ty
  d : Dst
  a : Src
  b : Src
  deriving DecidableEq, Repr, Inhabited

/-- Operands of a base-form instruction with three sources. -/
structure Op3 where
  k : BitVec 4
  ty : Ty
  d : Dst
  a : Src
  b : Src
  c : Src
  deriving DecidableEq, Repr, Inhabited

/-- Operands of a comparison: a mask destination and two sources (R102, R106). -/
structure OpC where
  k : BitVec 4
  ty : Ty
  d : BitVec 4
  a : Src
  b : Src
  deriving DecidableEq, Repr, Inhabited

/-- The source of `cvt`: a format code of R52 (MOD[3] = 0) or an integer type (MOD[3] = 1), R111. -/
inductive CvtSrc where
  | f32 | f64 | f16 | bf16 | h8 | h8w | h6 | h4 | fi8 | fn8
  | int (t : Ty)
  deriving DecidableEq, Repr, Inhabited

/-- The destination of `cvt`: a type, h6 or h4 (R111). -/
inductive CvtDst where
  | ty (t : Ty)
  | h6
  | h4
  deriving DecidableEq, Repr, Inhabited

/-- Operands of `cvt` (R111). -/
structure OpCvt where
  k : BitVec 4
  d : Dst
  a : Src
  dst : CvtDst
  src : CvtSrc
  deriving DecidableEq, Repr, Inhabited

/-- Operands of `shfl` (R114). -/
structure OpShfl where
  k : BitVec 4
  ty : Ty
  d : BitVec 8
  a : BitVec 8
  b : Src
  deriving DecidableEq, Repr, Inhabited

/-- The lane of `bcast`: a literal or a scalar register (R115). -/
inductive LaneSel where
  | lit (n : BitVec 6)
  | sca (r : BitVec 7)
  deriving DecidableEq, Repr, Inhabited

/-- Operands of `bcast` (R115); a scalar destination is MOD[3] = 1. -/
structure OpBcast where
  k : BitVec 4
  ty : Ty
  d : Dst
  a : BitVec 8
  n : LaneSel
  deriving DecidableEq, Repr, Inhabited

/-- Operands of `scan` (R116). -/
structure OpScan where
  k : BitVec 4
  ty : Ty
  d : BitVec 8
  a : Src
  deriving DecidableEq, Repr, Inhabited

/-- Operands of `red` (R116); a scalar destination is MOD[3] = 1. -/
structure OpRed where
  k : BitVec 4
  ty : Ty
  d : Dst
  a : Src
  deriving DecidableEq, Repr, Inhabited

/-- The operands of `kmov` (R120). -/
inductive KmovOp where
  | mm (d a : MX)
  | ms (d : BitVec 7) (a : MX)
  | sm (d : MX) (a : BitVec 7)
  deriving DecidableEq, Repr, Inhabited

/-- The address of an M-form instruction (R49). `idx` has a vector index (U = 0), `uidx` a scalar
index (U = 1); `scaled` tells AM 11 from AM 10. -/
inductive MAddr where
  | pair (a : BitVec 8)
  | base (a : BitVec 7)
  | idx (a : BitVec 7) (b : BitVec 8) (scaled : Bool)
  | uidx (a : BitVec 7) (b : BitVec 7) (scaled : Bool)
  deriving DecidableEq, Repr, Inhabited

/-- The common fields of an M-form instruction (R49). -/
structure OpM where
  uni : Bool
  addr : MAddr
  off : BitVec 12
  ty : Ty
  k : BitVec 4
  scope : Scope
  strm : Bool
  deriving DecidableEq, Repr, Inhabited

/-- `atom`'s operation (R223). -/
inductive AtomOp where
  | add | fadd | min | max | and | or | xor | xchg | cas | inc
  deriving DecidableEq, Repr, Inhabited

/-- Operands of `atom` (R223); `d` is `none` under NORET, `c` is used by `cas` alone. -/
structure OpAtom where
  m : OpM
  d : Option Dst
  b : Dst
  c : Option Dst
  acq : Bool
  rel : Bool
  deriving DecidableEq, Repr, Inhabited

/-- Operands of `ldlod` (R218). -/
structure OpLdlod where
  k : BitVec 4
  wide : Bool
  strm : Bool
  d : BitVec 8
  sh : BitVec 7
  vc : BitVec 8
  ve0 : BitVec 8
  ve1 : BitVec 8
  au : Bool
  av : Bool
  deriving DecidableEq, Repr, Inhabited

/-- Operands of `cfadd` (R225); the leaf may be broadcast by MOD[6]. -/
structure OpCfadd where
  k : BitVec 4
  wide : Bool
  d : BitVec 4
  a : BitVec 7
  b : Src
  c : BitVec 8
  rel : Bool
  scope : Scope
  deriving DecidableEq, Repr, Inhabited

/-- Operands of `cfread` (R226). -/
structure OpCfread where
  wide : Bool
  d : BitVec 7
  a : BitVec 7
  e : BitVec 7
  acq : Bool
  scope : Scope
  deriving DecidableEq, Repr, Inhabited

/-- Operands of `cp` (R230 to R232). -/
structure OpCp where
  q : BitVec 4
  d : BitVec 7
  a : BitVec 7
  b : BitVec 7
  e3 : Option (BitVec 7)
  lay : Bool
  fo : Option (BitVec 7 × BitVec 7)
  q1 : Bool
  hs : Bool
  hd : Bool
  deriving DecidableEq, Repr, Inhabited

/-- Operands of `cpg` (R233). -/
structure OpCpg where
  q : BitVec 4
  d : BitVec 7
  a : BitVec 7
  b : BitVec 7
  c : BitVec 7
  e3 : BitVec 7
  o : Bool
  q1 : Bool
  hs : Bool
  hd : Bool
  deriving DecidableEq, Repr, Inhabited

/-- Operands of `coll` (R235). -/
structure OpColl where
  q : BitVec 4
  d : BitVec 7
  a : BitVec 7
  b : BitVec 7
  c : BitVec 7
  e2 : BitVec 7
  ty : Ty
  deriving DecidableEq, Repr, Inhabited

/-- Operands of `omld` and `omst` (R147). -/
structure OpOm where
  k : BitVec 4
  ty : Ty
  d : BitVec 8
  a : BitVec 6
  b : BitVec 8
  off : W32
  deriving DecidableEq, Repr, Inhabited

/-- The operand formats of matrix commands (R52, R129, R133). -/
inductive MFmt where
  | f16 | bf16 | h8 | h8w | h6 | h4 | q4 | vq2 | i8 | n8
  deriving DecidableEq, Repr, Inhabited

/-- A scale operand of `wload` or `mmul`: the slot and the offset divided by 512 (R145). -/
structure ScaleOp where
  slot : BitVec 6
  soff : BitVec 5
  deriving DecidableEq, Repr, Inhabited

/-- Operands of `wload` (R148). -/
structure OpWload where
  q : BitVec 4
  a : BitVec 6
  fmt : MFmt
  sp : BitVec 7
  scale : Option ScaleOp
  cont : Bool
  deriving DecidableEq, Repr, Inhabited

/-- Operands of `wmint` (R148); the record offset divided by 64. -/
structure OpWmint where
  q : BitVec 4
  a : BitVec 6
  off : BitVec 8
  sp : BitVec 7
  cont : Bool
  deriving DecidableEq, Repr, Inhabited

/-- Operands of `mmul` (R149); `m` is the row count less one. -/
structure OpMmul where
  q : BitVec 4
  d : BitVec 6
  a : BitVec 6
  fmt : MFmt
  m : BitVec 8
  sp : BitVec 7
  scale : Option ScaleOp
  cont : Bool
  z : Bool
  deriving DecidableEq, Repr, Inhabited

/-- Operands of `mseek` (R145, R150). -/
structure OpMseek where
  q : BitVec 4
  d : BitVec 6
  a : BitVec 6
  b : BitVec 6
  nc : BitVec 6
  sp : BitVec 7
  sb : BitVec 7
  j : BitVec 5
  kd : BitVec 7
  nd : BitVec 6
  roff : BitVec 8
  boff : BitVec 8
  cont : Bool
  deriving DecidableEq, Repr, Inhabited

/-- Operands of a wave-mode macro without a scalar operand (R153). -/
structure OpMac where
  w : BitVec 8
  sp : BitVec 7
  sr : BitVec 7
  cont : Bool
  deriving DecidableEq, Repr, Inhabited

/-- Filter kind of the sampler word (R170). -/
inductive FiltKind where
  | point | bilinear | trilinear
  deriving DecidableEq, Repr, Inhabited

/-- Operands of `filt` (R153, R170). -/
structure OpFilt where
  m : OpMac
  a : BitVec 7
  k : BitVec 4
  filt : FiltKind
  amax : BitVec 2
  au : Bool
  av : Bool
  deriving DecidableEq, Repr, Inhabited

/-- Operands of `trav` (R153). -/
structure OpTrav where
  m : OpMac
  a : BitVec 7
  k : BitVec 4
  deriving DecidableEq, Repr, Inhabited

/-- Operands of `bvrefit` (R153). -/
structure OpBvrefit where
  m : OpMac
  a : BitVec 7
  deriving DecidableEq, Repr, Inhabited

/-- The special registers of R22. -/
inductive SReg where
  | ccyc | laneid | waveid | blockid | gridpos | wdecl | fpctl | fpflag | trapcause | trapaddr
  | skid | laneflt | emudepth | agelim | lcnt | scnt | wsrc | rsdepth | qclass
  | pmc (n : BitVec 3)
  | pmsel (n : BitVec 3)
  deriving DecidableEq, Repr, Inhabited

/-- The register windows `wa` to `wd` (R331). -/
inductive Win where
  | wa | wb | wc | wd
  deriving DecidableEq, Repr, Inhabited

/-- The operands of the window forms of `rdsr` (R339). -/
inductive RdWin where
  | wv (k : BitVec 4) (d : BitVec 8) (w : Win) (o : BitVec 2)
  | ws (d : BitVec 7) (w : Win) (o : BitVec 2)
  | wk (d : MX) (w : Win) (o : BitVec 2)
  | ei0 (d : BitVec 7)
  | ei1 (d : BitVec 7)
  | rpc (d : BitVec 7)
  deriving DecidableEq, Repr, Inhabited

/-- The operands of the window forms of `wrsr` (R339). -/
inductive WrWin where
  | wv (k : BitVec 4) (w : Win) (b : BitVec 8) (o : BitVec 2)
  | ws (w : Win) (b : BitVec 7) (o : BitVec 2)
  | wk (w : Win) (b : MX) (o : BitVec 2)
  | rpc (b : BitVec 7)
  deriving DecidableEq, Repr, Inhabited

/-- The reasons 0 to 5 of R55. -/
inductive Reason where
  | notOp | xBit | field | bound | unit | microcode
  deriving DecidableEq, Repr, Inhabited

/-- A bind record of a slot table, as the Teller writes it (R287). -/
structure BindRec where
  lrec : Nat
  blockid : Nat
  ctxid : Nat
  waves : Nat
  resume : Bool
  task : Bool
  cls : Nat
  bimg : Nat
  slots : W64
  deriving DecidableEq, Repr, Inhabited

/-- One entry of the partition table (R302). -/
structure PartEntry where
  spans : BitVec 8
  links : BitVec 16
  fshare : Nat
  nvf : Nat
  slice : Nat
  deriving DecidableEq, Repr, Inhabited

/-- An access of an application core, of a PCIe device or of a peer module to device memory. -/
inductive ExtOp where
  | read (n : Nat)
  | write (bytes : List Byte)
  | atom (op : AtomOp) (ty : Ty) (b c : W64)
  deriving DecidableEq, Repr, Inhabited

/-- An address that an application core names, with the partition number that its request carries (R303, R353). -/
structure HostAddr where
  part : Nat
  pa : Nat
  deriving DecidableEq, Repr, Inhabited

/-- A replay of a flit that failed its CRC, and whether it gets through (R356). -/
structure FlitReplay where
  link : Nat
  ok : Bool
  deriving DecidableEq, Repr, Inhabited

/-- A firmware image or key installed through the management port (R358, R360). -/
inductive FwItem where
  /-- one of the three signed images (R360): 0 head Teller, 1 die Tellers, 2 host firmware; whether it verifies -/
  | bankA (image : Nat) (ok : Bool)
  | bankB (image : Nat) (ok : Bool)
  | ucodeKey (key : Nat)
  deriving DecidableEq, Repr, Inhabited

/-- Where an error of R350 lies. -/
inductive ErrSite where
  /-- data of a line at home -/
  | line (pa : Nat)
  /-- an L1 line of a core that belongs to a context -/
  | l1 (core ctx line : Nat)
  /-- a register-file line, scratchpad, operand memory or escrow entry of a context on a core -/
  | ctxOwned (core ctx : Nat)
  /-- L2 tag, RDC, shadow store, translation cache, clearing table or Teller of a span -/
  | spanOwned (span : Nat)
  /-- inter-span fabric, I/O die, head Teller -/
  | deviceOwned
  deriving DecidableEq, Repr, Inhabited

/-- Where a corrected error is counted (R350). -/
inductive CountSite where
  | core (c : Nat)
  | span (s : Nat)
  deriving DecidableEq, Repr, Inhabited

/-- The instructions and steps: one constructor per row of spec/opcode_table.json. -/
inductive Instr where
  -- integer (R96 to R104)
  | nop
  | add (sat : Bool) (o : Op2)
  | sub (sat : Bool) (o : Op2)
  | mul (sat : Bool) (o : Op2)
  | mulh (o : Op2)
  | mad (sat : Bool) (o : Op3)
  | min (o : Op2)
  | max (o : Op2)
  | abs (sat : Bool) (o : Op1)
  | and (o : Op2)
  | or (o : Op2)
  | xor (o : Op2)
  | andn (o : Op2)
  | shl (o : Op2)
  | shr (o : Op2)
  | rot (o : Op2)
  | divQuo (o : Op2)
  | divRem (o : Op2)
  | clz (o : Op1)
  | popc (o : Op1)
  | brev (o : Op1)
  | bfe (o : Op2)
  | bfi (o : Op3)
  | sel (kc : BitVec 4) (o : Op2)
  | cmpEq (o : OpC)
  | cmpNe (o : OpC)
  | cmpLt (o : OpC)
  | cmpLe (o : OpC)
  | cmpGt (o : OpC)
  | cmpGe (o : OpC)
  | mov (o : Op1)
  | movi (d : Dst) (wide sx : Bool) (imm : W32)
  | movx (k : BitVec 4) (ty : Ty) (d : Dst) (imm : W64)
  | lea (sh : BitVec 6) (o : Op2)
  | addc (kc : BitVec 4) (o : Op2)
  | subb (kc : BitVec 4) (o : Op2)
  -- floating point (R105 to R110)
  | fadd (rm : Rm) (sat : Bool) (o : Op2)
  | fsub (rm : Rm) (sat : Bool) (o : Op2)
  | fmul (rm : Rm) (sat : Bool) (o : Op2)
  | fma (rm : Rm) (sat : Bool) (o : Op3)
  | fmin (o : Op2)
  | fmax (o : Op2)
  | fscale (rm : Rm) (sat : Bool) (o : Op2)
  | fcmpEq (o : OpC)
  | fcmpNe (o : OpC)
  | fcmpLt (o : OpC)
  | fcmpLe (o : OpC)
  | fcmpGt (o : OpC)
  | fcmpGe (o : OpC)
  | fcmpOrd (o : OpC)
  | fcmpUno (o : OpC)
  | fcls (o : Op1)
  | frnd (rm : Rm) (o : Op1)
  | fdiv (rm : Rm) (sat : Bool) (o : Op2)
  | fsqrt (rm : Rm) (o : Op1)
  | frcp (rm : Rm) (o : Op1)
  | frsq (rm : Rm) (o : Op1)
  | fex2 (rm : Rm) (o : Op1)
  | flg2 (rm : Rm) (o : Op1)
  | ftrigSin (rm : Rm) (o : Op1)
  | ftrigCos (rm : Rm) (o : Op1)
  | fexp (o : Op1)
  -- conversion, packing (R111 to R113)
  | cvt (rm : Rm) (sat : Bool) (o : OpCvt)
  | pack (n : BitVec 2) (o : Op1)
  | unpack (n : BitVec 2) (o : Op1)
  -- lane crossing (R114 to R118)
  | shflIdx (o : OpShfl)
  | shflXor (o : OpShfl)
  | shflUp (o : OpShfl)
  | shflDown (o : OpShfl)
  | bcast (o : OpBcast)
  | scanAdd (rm : Rm) (sat : Bool) (o : OpScan)
  | scanMin (o : OpScan)
  | scanMax (o : OpScan)
  | scanAnd (o : OpScan)
  | scanOr (o : OpScan)
  | scanXor (o : OpScan)
  | redAdd (rm : Rm) (sat : Bool) (o : OpRed)
  | redMin (o : OpRed)
  | redMax (o : OpRed)
  | redAnd (o : OpRed)
  | redOr (o : OpRed)
  | redXor (o : OpRed)
  | matchEq (k : BitVec 4) (wide : Bool) (d a : BitVec 8)
  | lanes (k : BitVec 4) (wide : Bool) (d : BitVec 4) (a : BitVec 8)
  -- masks (R119 to R123)
  | kand (d a b : MX)
  | kor (d a b : MX)
  | kxor (d a b : MX)
  | kandn (d a b : MX)
  | knot (d a : MX)
  | kmov (o : KmovOp)
  | kpop (d : BitVec 7) (a : MX)
  | kfind (d : BitVec 7) (a : MX)
  | krank (k : BitVec 4) (d : BitVec 8) (a : MX)
  | kset (d : MX) (lo hi : BitVec 7)
  -- flow (R249 to R259)
  | br (off : BitVec 40)
  | bany (k : BitVec 4) (off : BitVec 40)
  | ball (k : BitVec 4) (off : BitVec 40)
  | bnone (k : BitVec 4) (off : BitVec 40)
  | brx (a : BitVec 7)
  | split (off : BitVec 40)
  | join
  | call (off : BitVec 40)
  | calli (a : BitVec 8)
  | ret
  | exit
  -- barriers, spawning, allowance (R262 to R274)
  | barArrive (pub : Bool) (a b : SC)
  | barWait (a : SC)
  | barSync (pub : Bool) (a b : SC)
  | spawn (q : BitVec 4) (a : BitVec 7) (b : SC) (entry : W32)
  | spawnL (k q : BitVec 4) (a b : BitVec 8) (entry : W32)
  | childAdmit (ctx : Nat)
  | parkedParentReturn (w : Nat)
  | ralloc (n : BitVec 8)
  | rfree (n : BitVec 8)
  | rallocGrant (w : Nat)
  | wavePark (w : Nat)
  | parkedWaveReturn (w : Nat)
  | yield
  -- memory (R217 to R222)
  | ld (d : Dst) (m : OpM)
  | st (d : Dst) (m : OpM)
  | ldlod (o : OpLdlod)
  | pref (m : OpM)
  | l2pinPin (d : BitVec 4) (m : OpM)
  | l2pinUnpin (d : BitVec 4) (m : OpM)
  | ifence
  | wcntLd (n : BitVec 7)
  | wcntSt (n : BitVec 7)
  -- atomics, coffers, guards (R223 to R229)
  | atomAdd (o : OpAtom)
  | atomFadd (o : OpAtom)
  | atomMin (o : OpAtom)
  | atomMax (o : OpAtom)
  | atomAnd (o : OpAtom)
  | atomOr (o : OpAtom)
  | atomXor (o : OpAtom)
  | atomXchg (o : OpAtom)
  | atomCas (o : OpAtom)
  | atomInc (o : OpAtom)
  | cfadd (o : OpCfadd)
  | cfread (o : OpCfread)
  | gbindBind (d a b c : BitVec 7)
  | gbindUnbind (d a : BitVec 7)
  | gacq (sc : Scope) (d a : BitVec 7)
  | gacqAll (sc : Scope)
  | grel (sc : Scope) (d a : BitVec 7)
  | grelAll (sc : Scope)
  | gwait (a b : BitVec 7)
  -- engines (R230 to R237)
  | cpMm (o : OpCp)
  | cpMs (o : OpCp)
  | cpSm (o : OpCp)
  | cpMo (o : OpCp)
  | cpOm (o : OpCp)
  | cpSo (o : OpCp)
  | cpOs (o : OpCp)
  | cpg (o : OpCpg)
  | engineChunk (op : Nat)
  | followOnAccept (op : Nat)
  | collSum (o : OpColl)
  | collMin (o : OpColl)
  | collMax (o : OpColl)
  | collGather (o : OpColl)
  | collBcast (o : OpColl)
  | collInstanceComplete (desc : Nat)
  -- batches and receipts (R238 to R244)
  | seal (d : Option (BitVec 7))
  | waitb (a : SC) (imm : W32)
  | qwait (d : Option (BitVec 7)) (q : BitVec 4)
  | qtest (d : BitVec 7) (q : BitVec 4)
  | qcan (q : BitVec 4)
  | qdue (d : BitVec 7) (q : BitVec 4)
  | sleep (q : BitVec 4)
  | promiseMiss (w : Nat)
  | qmovSt (a : BitVec 7) (q : BitVec 4)
  | qmovLd (q : BitVec 4) (a : BitVec 7)
  | rmsync
  -- matrix (R145 to R152)
  | omclaim (d : BitVec 7) (a : BitVec 6) (n : BitVec 6)
  | omrel (a : BitVec 6) (n : BitVec 6)
  | omzero (a : BitVec 6) (n : BitVec 6)
  | omld (o : OpOm)
  | omst (o : OpOm)
  | wload (o : OpWload)
  | wmint (o : OpWmint)
  | mmul (o : OpMmul)
  | mseek (o : OpMseek)
  | vqtab (a : BitVec 6) (off : BitVec 5)
  | vqtabClr
  | matrixStep (core : Nat)
  -- macros (R153 to R183)
  | rast (o : OpMac)
  | oblend (o : OpMac)
  | filt (o : OpFilt)
  | travClosest (o : OpTrav)
  | travAny (o : OpTrav)
  | travBox (o : OpTrav)
  | travSphere (o : OpTrav)
  | bvrefit (o : OpBvrefit)
  | macroStep (w : Nat)
  | mapWordRefresh (core ctx addr : Nat)
  -- queues (R184 to R187)
  | gqpushOpen (d a b c : BitVec 7)
  | gqpushVtx (k : BitVec 4) (d : BitVec 8) (a b : BitVec 7) (c : BitVec 8)
  | gqpushPrim (k : BitVec 4) (d : BitVec 8) (a b : BitVec 7) (c : BitVec 8)
  | gqpushClose (a b : BitVec 7)
  | gqpopTake (d a : BitVec 7)
  | gqpopRec (k : BitVec 4) (d : BitVec 8) (a : BitVec 7) (c : BitVec 8)
  | gqpopFree (a b : BitVec 7)
  | psalloc (k : BitVec 4) (d : BitVec 8) (c : BitVec 4)
  | psfree (k : BitVec 4) (a : BitVec 8) (c : BitVec 4)
  | sqpush (k : BitVec 4) (a : BitVec 8) (n : BitVec 3) (c : BitVec 4)
  | sqpop (k : BitVec 4) (d : BitVec 8) (n : BitVec 3) (c : BitVec 4)
  -- traps and system (R311 to R315, R337 to R340)
  | trap (n : BitVec 12)
  | trapFatal (n : BitVec 12)
  | brk (n : W32)
  | svc (n : W32)
  | rdsr (d : Dst) (r : SReg)
  | wrsr (r : SReg) (b : SC)
  | rdsrWindow (o : RdWin)
  | wrsrWindow (o : WrWin)
  | tlbinvRange (retry : Bool) (d a b c : BitVec 7)
  | tlbinvCtx (retry : Bool) (d c : BitVec 7)
  | tlbinvHnd (d a b c : BitVec 7)
  | pmrd (d : BitVec 7)
  | pmctl (a : BitVec 7)
  | qrst (d a b : BitVec 7)
  -- what the decoder makes of other words (R54, R57)
  | zeroWord
  | emulate (r : Reason)
  | microcodeOp (op : BitVec 4)
  -- caches and fault machinery
  | regfileLineFetch (w line : Nat)
  | l1Writeback (core ctx line : Nat)
  | l2Writeback (line : Nat)
  | faultRecordWrite (ctx page : Nat)
  | pageMigration (ctx page frame : Nat)
  -- submission (R277 to R288)
  | doorbell (part vf q : Nat) (widx : W64)
  | pad (q : Nat)
  | launch (q : Nat)
  | taskset (q : Nat)
  | copy (q : Nat)
  | waitguard (q : Nat)
  | waitguardRelease (q : Nat)
  | signal (q : Nat)
  | launchComplete (l : Nat)
  | taskAdmit (ts : Nat)
  | taskStart (ts t : Nat)
  | taskRetire (ts t : Nat)
  | bindRecordValid (core idx : Nat) (r : BindRec)
  | packedWaveStart (core idx : Nat)
  | blockPreempt (b : Nat)
  | timeSliceEnd (part : Nat)
  | worldSwitch (part vf : Nat)
  | qclassIdle (part cls : Nat)
  -- control page (R316)
  | ctlTlbinv (part vf : Nat) (a0 a1 a2 a3 : W64)
  | ctlQrst (part vf : Nat) (a0 a1 : W64)
  | ctlPmctl (part vf : Nat) (a0 a2 : W64)
  | registerContext (part vf : Nat) (a0 : W64)
  | retireContext (part vf : Nat) (a0 : W64)
  | setInterruptRecord (part vf : Nat) (a0 : W64)
  | ctlResetContext (part vf : Nat) (a0 : W64)
  | ctlUndefinedRequest (part vf : Nat) (op a3 : W64)
  -- resets and management (R302, R342 to R361)
  | contextReset (ctx : Nat) (cause : BitVec 16) (addr : W64)
  | vfReset (part vf : Nat)
  | partitionReset (part : Nat)
  | deviceReset
  | powerOn
  | writePartitionTable (t : List PartEntry)
  | writePeerWindow (w : Nat) (word : W64)
  | setErrorThreshold (n : Nat)
  | setPowerCap (watts : Nat)
  | installFirmware (x : FwItem)
  | flitCrcFail (x : FlitReplay)
  | linkdown (link : Nat)
  | correctedError (x : CountSite)
  | uncorrectableError (x : ErrSite)
  | coreRetire (core : Nat)
  | thermalThrottle
  | thermalTrip
  | memoryAccessPerformed (w idx : Nat) (lanes : W64)
  | hostMemoryAccess (a : HostAddr) (x : ExtOp)
  | pcieDma (part : Nat) (pa : Nat) (x : ExtOp)
  | peerAccess (part : Nat) (pa : Nat) (x : ExtOp)
  deriving DecidableEq, Repr

end Sys2Proof
end

