-- ==== Sys2Proof/WellFormed.lean ====
section
/-!
DEFINITION. When an instruction is one that the encoding admits: test 4 of R54 read on the typed
instruction (spec/02_encoding.md R45 to R52, and the field tables of each chapter). Tests 5 and 6 of
R54 depend on the wave and the context and are judged at issue (Machine/Issue.lean).
-/

namespace Sys2Proof

/-- A floating type (R51). -/
def Ty.isFloat : Ty → Bool
  | .f32 | .f64 | .f16 | .bf16 | .h8 | .h8w => true
  | _ => false

/-- The types of 64-bit data, held in a pair or a whole scalar (R90). -/
def Ty.wide : Ty → Bool
  | .i64 | .n64 | .f64 => true
  | _ => false

/-- A constant code is legal under the type of its field (R46). -/
def Const.ok (t : Ty) : Const → Bool
  | .half | .mhalf | .quarter | .ln2 | .pi | .log2e => t.isFloat
  | .width | .wave | .nwaves | .block | .gx | .gy | .gz | .spbase | .stkbase => !t.isFloat
  | _ => true

/-- A source is legal for a field of type `t` when scalar kinds are (`sc`) or are not allowed. -/
def Src.ok (t : Ty) : Src → Bool
  | .con c => c.ok t
  | _ => true

def Src.isVec : Src → Bool
  | .vec _ => true
  | _ => false

def Dst.isVec : Dst → Bool
  | .vec _ => true
  | _ => false

def SC.ok (t : Ty) : SC → Bool
  | .con c => c.ok t
  | _ => true

/-- Under U = 1 every field of vector kind is scalar-or-constant (R46). -/
def Op1.ok (tys : List Ty) (srcTy : Ty → Ty) (bcast : Bool) (o : Op1) : Bool :=
  tys.contains o.ty && o.a.ok (srcTy o.ty)
    && (if o.d.isVec then bcast || o.a.isVec else !o.a.isVec)

def Op2.ok (tys : List Ty) (bTy : Ty → Ty) (o : Op2) : Bool :=
  tys.contains o.ty && o.a.ok o.ty && o.b.ok (bTy o.ty)
    && (o.d.isVec || (!o.a.isVec && !o.b.isVec))

def Op3.ok (tys : List Ty) (bTy : Ty → Ty) (o : Op3) : Bool :=
  tys.contains o.ty && o.a.ok o.ty && o.b.ok (bTy o.ty) && o.c.ok o.ty
    && (if o.d.isVec then o.c.isVec else (!o.a.isVec && !o.b.isVec && !o.c.isVec))

def OpC.ok (tys : List Ty) (o : OpC) : Bool :=
  tys.contains o.ty && o.a.ok o.ty && o.b.ok o.ty

def tysInt : List Ty := [.i32, .n32, .i64, .n64]
def tysBit : List Ty := [.b32, .i32, .n32, .i64, .n64]
def tysAbs : List Ty := [.i32, .i64]
def tysFlt : List Ty := [.f32, .f64, .f16, .bf16]
def tysAll : List Ty :=
  [.b32, .i32, .n32, .f32, .i64, .n64, .f64, .f16, .bf16, .i16, .n16, .i8, .n8, .h8, .h8w]
def tysPack : List Ty := [.f16, .bf16, .i16, .n16, .i8, .n8, .h8, .h8w]
def tysMove : List Ty := [.b32, .i64, .n64, .f64]
def tysLea : List Ty := [.i64, .n64]
def tysMovx : List Ty := [.i64, .n64, .f64]
def tysScanNum : List Ty := [.i32, .n32, .i64, .n64, .f32, .f64]

/-- The access size in bytes of a type in the M-form (R49). -/
def Ty.bytes : Ty → Nat
  | .i8 | .n8 | .h8 | .h8w => 1
  | .f16 | .bf16 | .i16 | .n16 => 2
  | .i64 | .n64 | .f64 => 8
  | _ => 4

def MAddr.ok (uni : Bool) : MAddr → Bool
  | .pair _ => !uni
  | .base _ => true
  | .idx _ _ _ => !uni
  | .uidx _ _ _ => uni

def OpM.ok (o : OpM) : Bool := o.addr.ok o.uni

/-- The integer sources of `cvt` (R111). -/
def CvtSrc.ok : CvtSrc → Bool
  | .int t => [Ty.i32, .n32, .i64, .n64, .i16, .n16, .i8, .n8].contains t
  | _ => true

/-- The type that a constant code in the A field of `cvt` takes (R46, R111). h6 and h4 name no TY
code; their constants are floating, as those of h8. -/
def CvtSrc.ty : CvtSrc → Ty
  | .f32 => .f32 | .f64 => .f64 | .f16 => .f16 | .bf16 => .bf16 | .h8 => .h8 | .h8w => .h8w
  | .h6 => .h8 | .h4 => .h8 | .fi8 => .i8 | .fn8 => .n8 | .int t => t

def CvtSrc.isFloat (s : CvtSrc) : Bool := s.ty.isFloat

def CvtDst.isInt : CvtDst → Bool
  | .ty t => !t.isFloat
  | _ => false

/-- The destinations with a saturated form: IEEE formats, and integers from an integer source (R112). -/
def cvtSatOk (d : CvtDst) (s : CvtSrc) : Bool :=
  match d with
  | .ty t => tysFlt.contains t || (!t.isFloat && !s.isFloat)
  | _ => false

def OpCvt.ok (rm : Rm) (sat : Bool) (o : OpCvt) : Bool :=
  (match o.dst with | .ty t => t != .b32 | _ => true)
    && o.src.ok && o.a.ok o.src.ty
    && (!sat || cvtSatOk o.dst o.src)
    && (rm == .near || !(o.dst.isInt && !o.src.isFloat))
    && (o.d.isVec || !o.a.isVec)

def AtomOp.tys : AtomOp → List Ty
  | .add | .min | .max => tysInt
  | .fadd => [.f32, .f64]
  | .and | .or | .xor => tysBit
  | .xchg | .cas => [.b32, .i32, .n32, .f32, .i64, .n64, .f64]
  | .inc => [.n32, .n64]

def OpAtom.ok (op : AtomOp) (o : OpAtom) : Bool :=
  o.m.ok && op.tys.contains o.m.ty && !o.m.strm
    && (match o.d with | some d => d.isVec == !o.m.uni | none => true)
    && (o.b.isVec == !o.m.uni)
    && (match o.c with | some c => op == .cas && c.isVec == !o.m.uni | none => op != .cas)

/-- The layout register and the follow-on register lie where R231 and R232 allow. -/
def OpCp.ok (dSpad aSpad : Bool) (o : OpCp) : Bool :=
  (!o.lay || ((!dSpad || o.d.toNat ≤ 125) && (!aSpad || o.a.toNat ≤ 125)))
    && (match o.fo with | some (_, e2) => e2.toNat ≤ 126 | none => true)

def slotOk (a : BitVec 6) : Bool := a.toNat < 48

/-- A run of `omclaim`, `omrel` or `omzero`. R145 states the range 1 to 48 beside `omclaim`; a count of 0 is taken as outside it
for all three (DEDUCED, notes/assumptions/41.md). -/
def runOk (a n : BitVec 6) : Bool := 1 ≤ n.toNat && a.toNat + n.toNat ≤ 48

def MFmt.streamed : MFmt → Bool
  | .q4 | .vq2 => false
  | _ => true

def MFmt.scaled : MFmt → Bool
  | .q4 | .i8 | .n8 => false
  | _ => true

/-- The special registers that `wrsr` may write (R22). -/
def SReg.writable : SReg → Bool
  | .fpctl | .fpflag | .trapcause | .trapaddr | .agelim | .pmsel _ => true
  | _ => false

def barTy : Ty := .n32

/-- The instruction passes test 4 of R54. -/
def Instr.wf : Instr → Bool
  | .add _ o | .sub _ o | .mul _ o => o.ok tysInt id
  | .mulh o | .min o | .max o | .divQuo o | .divRem o => o.ok tysInt id
  | .mad _ o => o.ok tysInt id
  | .abs _ o => o.ok tysAbs id true
  | .and o | .or o | .xor o | .andn o | .shl o | .shr o | .rot o => o.ok tysBit id
  | .clz o | .popc o | .brev o => o.ok tysBit id true
  | .bfe o => o.ok tysInt (fun _ => .n32)
  | .bfi o => o.ok tysBit (fun _ => .n32)
  | .sel _ o => o.ok tysAll id
  | .cmpEq o | .cmpNe o => o.ok tysBit
  | .cmpLt o | .cmpLe o | .cmpGt o | .cmpGe o => o.ok tysInt
  | .mov o => o.ok tysAll id true
  | .movi d wide sx _ => if d.isVec then wide || !sx else !wide
  | .movx _ ty _ _ => tysMovx.contains ty
  | .lea _ o => o.ok tysLea (fun _ => .n32)
  | .addc _ o | .subb _ o => o.ok tysInt id
  | .fadd _ _ o | .fsub _ _ o | .fmul _ _ o | .fdiv _ _ o => o.ok tysFlt id
  | .fma _ _ o => o.ok tysFlt id
  | .fmin o | .fmax o => o.ok tysFlt id
  | .fscale _ _ o => o.ok tysFlt (fun _ => .i32)
  | .fcmpEq o | .fcmpNe o | .fcmpLt o | .fcmpLe o | .fcmpGt o | .fcmpGe o | .fcmpOrd o | .fcmpUno o => o.ok tysFlt
  | .fcls o | .fexp o => o.ok tysFlt id false
  | .frnd _ o | .fsqrt _ o | .frcp _ o | .frsq _ o | .fex2 _ o | .flg2 _ o | .ftrigSin _ o | .ftrigCos _ o => o.ok tysFlt id true
  | .cvt rm sat o => o.ok rm sat
  | .pack n o | .unpack n o => o.ok tysPack id false && (o.ty.bytes == 1 || n.toNat < 2)
  | .shflIdx o | .shflXor o | .shflUp o | .shflDown o => tysMove.contains o.ty && o.b.ok .n32
  | .bcast o => tysMove.contains o.ty
  | .scanAdd rm sat o => tysScanNum.contains o.ty && o.a.ok o.ty && (if o.ty.isFloat then !sat else rm == .near)
  | .redAdd rm sat o => tysScanNum.contains o.ty && o.a.ok o.ty && (if o.ty.isFloat then !sat else rm == .near)
  | .scanMin o | .scanMax o => tysScanNum.contains o.ty && o.a.ok o.ty
  | .redMin o | .redMax o => tysScanNum.contains o.ty && o.a.ok o.ty
  | .scanAnd o | .scanOr o | .scanXor o => tysBit.contains o.ty && o.a.ok o.ty
  | .redAnd o | .redOr o | .redXor o => tysBit.contains o.ty && o.a.ok o.ty
  | .kset _ lo hi => lo.toNat ≤ 64 && hi.toNat ≤ 64
  | .barArrive _ a b | .barSync _ a b => a.ok barTy && b.ok barTy
  | .barWait a => a.ok barTy
  | .spawn _ _ b entry => b.ok .n32 && entry != 0
  | .spawnL _ _ _ _ entry => entry != 0
  | .ralloc n | .rfree n => n.toNat % 8 == 0 && 8 ≤ n.toNat
  | .ld d m | .st d m => m.ok && d.isVec == !m.uni
  | .pref m => m.ok
  | .l2pinPin _ m | .l2pinUnpin _ m => m.ok && m.scope == .wave && !m.strm
  | .wcntLd n | .wcntSt n => n.toNat ≤ 64
  | .atomAdd o => o.ok .add
  | .atomFadd o => o.ok .fadd
  | .atomMin o => o.ok .min
  | .atomMax o => o.ok .max
  | .atomAnd o => o.ok .and
  | .atomOr o => o.ok .or
  | .atomXor o => o.ok .xor
  | .atomXchg o => o.ok .xchg
  | .atomCas o => o.ok .cas
  | .atomInc o => o.ok .inc
  | .cfadd o => o.b.ok .n32
  | .cpMm o | .cpMo o | .cpOm o => o.ok false false
  | .cpMs o | .cpOs o => o.ok true false
  | .cpSm o | .cpSo o => o.ok false true
  | .collSum o | .collMin o | .collMax o => [Ty.i32, .n32, .f32, .i64, .n64, .f64, .f16, .bf16].contains o.ty
  | .waitb a _ => a.ok .n32
  | .omclaim _ a n | .omrel a n | .omzero a n => runOk a n
  | .omld o | .omst o => slotOk o.a && o.off.toNat < 786432
  | .wload o => slotOk o.a && (match o.scale with | some x => slotOk x.slot && o.fmt.scaled | none => true)
  | .wmint o => slotOk o.a && o.off.toNat ≤ 253
  | .mmul o => slotOk o.d && slotOk o.a && o.fmt.streamed
      && (match o.scale with | some x => slotOk x.slot | none => true)
  | .mseek o => slotOk o.d && slotOk o.a && slotOk o.b && 1 ≤ o.j.toNat && o.j.toNat ≤ 16 && o.roff.toNat ≤ 253
  | .vqtab a _ => slotOk a
  | .rdsr d r => d.isVec == (r == .laneid)
  | .wrsr r b => r.writable && b.ok .n64
  | _ => true

end Sys2Proof
end

