-- ==== Sys2Proof/Decode.lean ====
section
/-!
DEFINITION. The decoder (spec/02_encoding.md R43 to R57) and, after it, the encoder. A base word is
read into its fields once (R44); every form keeps OP, U, X, FN and D in the same place, and the other
forms (R48, R49) are views of the same fields.
-/

namespace Sys2Proof

/-- The fields of a base word (R44), with the eight MOD bits apart. -/
structure Fld where
  op : BitVec 8
  u : Bool
  x : Bool
  fn : BitVec 6
  d : BitVec 8
  a : BitVec 8
  b : BitVec 8
  c : BitVec 8
  k : BitVec 4
  ty : BitVec 4
  m7 : Bool
  m6 : Bool
  m5 : Bool
  m4 : Bool
  m3 : Bool
  m2 : Bool
  m1 : Bool
  m0 : Bool
  deriving DecidableEq, Repr, Inhabited

/-- The fields of an extension word of layout E (R50). -/
structure Ext where
  e0 : BitVec 8
  e1 : BitVec 8
  e2 : BitVec 8
  e3 : BitVec 8
  imm : W32
  deriving DecidableEq, Repr, Inhabited

/-- The fields of a word, read where R44 places them. -/
def Fld.of (w : W64) : Fld where
  op := w.extractLsb' 56 8
  u := w.getLsbD 55
  x := w.getLsbD 54
  fn := w.extractLsb' 48 6
  d := w.extractLsb' 40 8
  a := w.extractLsb' 32 8
  b := w.extractLsb' 24 8
  c := w.extractLsb' 16 8
  k := w.extractLsb' 12 4
  ty := w.extractLsb' 8 4
  m7 := w.getLsbD 7
  m6 := w.getLsbD 6
  m5 := w.getLsbD 5
  m4 := w.getLsbD 4
  m3 := w.getLsbD 3
  m2 := w.getLsbD 2
  m1 := w.getLsbD 1
  m0 := w.getLsbD 0

/-- MOD as one field (R44). -/
def Fld.md (f : Fld) : BitVec 8 :=
  BitVec.ofBool f.m7 ++ BitVec.ofBool f.m6 ++ BitVec.ofBool f.m5 ++ BitVec.ofBool f.m4
    ++ BitVec.ofBool f.m3 ++ BitVec.ofBool f.m2 ++ BitVec.ofBool f.m1 ++ BitVec.ofBool f.m0

/-- The word with these fields (R44). -/
def Fld.word (f : Fld) : W64 :=
  f.op ++ BitVec.ofBool f.u ++ BitVec.ofBool f.x ++ f.fn ++ f.d ++ f.a ++ f.b ++ f.c ++ f.k ++ f.ty ++ f.md

def Ext.of (w : W64) : Ext where
  e0 := w.extractLsb' 56 8
  e1 := w.extractLsb' 48 8
  e2 := w.extractLsb' 40 8
  e3 := w.extractLsb' 32 8
  imm := w.extractLsb' 0 32

def Ext.word (e : Ext) : W64 := e.e0 ++ e.e1 ++ e.e2 ++ e.e3 ++ e.imm

/-- IMM32 of the I-form (R48). -/
def Fld.imm (f : Fld) : W32 := f.b ++ f.c ++ f.k ++ f.ty ++ f.md

/-- OFF40 of the J-form (R48). -/
def Fld.off40 (f : Fld) : BitVec 40 := f.a ++ f.imm

/-- The condition mask of the J-form, in bits 47:44 (R48). -/
def Fld.jk (f : Fld) : BitVec 4 := f.d.extractLsb' 4 4

/-- OFF12 of the M-form, in bits 23:12 (R49). -/
def Fld.off12 (f : Fld) : BitVec 12 := f.c ++ f.k

/-- The predicate of the M-form, in bits 7:4 (R49). -/
def Fld.mpred (f : Fld) : BitVec 4 := f.md.extractLsb' 4 4

/-- AM and SUB of the M-form (R49). -/
def Fld.am (f : Fld) : BitVec 2 := f.fn.extractLsb' 4 2
def Fld.sub (f : Fld) : BitVec 4 := f.fn.extractLsb' 0 4

def Ty.ofCode (x : BitVec 4) : Option Ty :=
  match x.toNat with
  | 0 => some .b32 | 1 => some .i32 | 2 => some .n32 | 3 => some .f32
  | 4 => some .i64 | 5 => some .n64 | 6 => some .f64 | 7 => some .f16
  | 8 => some .bf16 | 9 => some .i16 | 10 => some .n16 | 11 => some .i8
  | 12 => some .n8 | 13 => some .h8 | 14 => some .h8w | _ => none

def Ty.code : Ty → BitVec 4
  | .b32 => 0 | .i32 => 1 | .n32 => 2 | .f32 => 3 | .i64 => 4 | .n64 => 5 | .f64 => 6 | .f16 => 7
  | .bf16 => 8 | .i16 => 9 | .n16 => 10 | .i8 => 11 | .n8 => 12 | .h8 => 13 | .h8w => 14

def Const.ofCode (x : BitVec 8) : Option Const :=
  match x.toNat with
  | 0x80 => some .zero | 0x81 => some .one | 0x82 => some .two | 0x83 => some .four
  | 0x84 => some .eight | 0x85 => some .sixteen | 0x86 => some .m1 | 0x87 => some .m2
  | 0x88 => some .half | 0x89 => some .mhalf | 0x8A => some .quarter | 0x8B => some .ln2
  | 0x8C => some .pi | 0x8D => some .log2e | 0xC0 => some .width | 0xC1 => some .wave
  | 0xC2 => some .nwaves | 0xC3 => some .block | 0xC4 => some .gx | 0xC5 => some .gy
  | 0xC6 => some .gz | 0xC7 => some .spbase | 0xC8 => some .stkbase | _ => none

def Const.code : Const → BitVec 8
  | .zero => 0x80 | .one => 0x81 | .two => 0x82 | .four => 0x83 | .eight => 0x84 | .sixteen => 0x85
  | .m1 => 0x86 | .m2 => 0x87 | .half => 0x88 | .mhalf => 0x89 | .quarter => 0x8A | .ln2 => 0x8B
  | .pi => 0x8C | .log2e => 0x8D | .width => 0xC0 | .wave => 0xC1 | .nwaves => 0xC2 | .block => 0xC3
  | .gx => 0xC4 | .gy => 0xC5 | .gz => 0xC6 | .spbase => 0xC7 | .stkbase => 0xC8

def Rm.of (m1 m0 : Bool) : Rm :=
  match m1, m0 with
  | false, false => .near | false, true => .zero | true, false => .up | true, true => .down

def Rm.b1 : Rm → Bool
  | .up | .down => true
  | _ => false

def Rm.b0 : Rm → Bool
  | .zero | .down => true
  | _ => false

def Scope.of (s2 s1 s0 : Bool) : Option Scope :=
  match s2, s1, s0 with
  | false, false, false => some .wave | false, false, true => some .block
  | false, true, false => some .cell | false, true, true => some .span
  | true, false, false => some .device | true, false, true => some .system
  | _, _, _ => none

def Scope.b2 : Scope → Bool
  | .device | .system => true
  | _ => false
def Scope.b1 : Scope → Bool
  | .cell | .span => true
  | _ => false
def Scope.b0 : Scope → Bool
  | .block | .span | .system => true
  | _ => false
def Scope.code (s : Scope) : BitVec 3 := BitVec.ofBool s.b2 ++ BitVec.ofBool s.b1 ++ BitVec.ofBool s.b0

/-- A field of scalar kind (R45). -/
def reg7 (x : BitVec 8) : Option (BitVec 7) := if x.toNat < 128 then some (x.setWidth 7) else none

/-- A field of mask kind without `exec`, or of receipt kind (R45). -/
def nib (x : BitVec 8) : Option (BitVec 4) := if x.toNat < 16 then some (x.setWidth 4) else none

/-- A field of mask kind that may name `exec` (R45). -/
def mxOf (x : BitVec 8) : Option MX :=
  if x.toNat < 16 then some (.k (x.setWidth 4)) else if x.toNat = 16 then some .exec else none

def MX.code : MX → BitVec 8
  | .k n => n.setWidth 8
  | .exec => 16

/-- A field of slot kind (R45). -/
def slotOf (x : BitVec 8) : Option (BitVec 6) := if x.toNat < 48 then some (x.setWidth 6) else none

def scOf (t : Ty) (x : BitVec 8) : Option SC :=
  if x.toNat < 128 then some (.sca (x.setWidth 7))
  else match Const.ofCode x with
    | some c => if c.ok t then some (.con c) else none
    | none => none

def SC.code : SC → BitVec 8
  | .sca r => r.setWidth 8
  | .con c => c.code

/-- A source field: of vector kind, or scalar-or-constant when `sc` holds (R46). -/
def srcOf (sc : Bool) (t : Ty) (x : BitVec 8) : Option Src :=
  if sc then
    if x.toNat < 128 then some (.sca (x.setWidth 7))
    else match Const.ofCode x with
      | some c => if c.ok t then some (.con c) else none
      | none => none
  else some (.vec x)

def Src.code : Src → BitVec 8
  | .vec r => r
  | .sca r => r.setWidth 8
  | .con c => c.code

def dstOf (u : Bool) (x : BitVec 8) : Option Dst :=
  if u then (if x.toNat < 128 then some (.sca (x.setWidth 7)) else none) else some (.vec x)

def Dst.code : Dst → BitVec 8
  | .vec r => r
  | .sca r => r.setWidth 8

/-- `some ()` when the condition holds: a test of R54. -/
def need (b : Bool) : Option Unit := if b then some () else none

/-- MOD[5:0] is zero. -/
def Fld.mod50 (f : Fld) : Bool := !f.m5 && !f.m4 && !f.m3 && !f.m2 && !f.m1 && !f.m0
/-- MOD[5:3] is zero. -/
def Fld.mod53 (f : Fld) : Bool := !f.m5 && !f.m4 && !f.m3
/-- MOD[5:3] and MOD[1:0] are zero: a saturated form that does not round. -/
def Fld.modSat (f : Fld) : Bool := f.mod53 && !f.m1 && !f.m0
/-- MOD[5:3] and MOD[2] are zero: an instruction that rounds without a saturated form. -/
def Fld.modRnd (f : Fld) : Bool := f.mod53 && !f.m2
/-- MOD is zero. -/
def Fld.mod0 (f : Fld) : Bool := f.mod50 && !f.m7 && !f.m6
/-- K, TY and MOD are zero. -/
def Fld.low0 (f : Fld) : Bool := f.k == 0 && f.ty == 0 && f.mod0

def Fld.rm (f : Fld) : Rm := Rm.of f.m1 f.m0

/-- D and A of a base-form instruction with one source; `bc` tells whether MOD[7] may broadcast A.
The caller judges B, C and MOD[5:0]. -/
def dOp1 (tys : List Ty) (bc : Bool) (f : Fld) : Option Op1 := do
  let ty ← Ty.ofCode f.ty
  need (tys.contains ty && !f.m6 && !(f.m7 && (f.u || !bc)))
  let d ← dstOf f.u f.d
  let a ← srcOf (f.u || f.m7) ty f.a
  return { k := f.k, ty, d, a }

/-- D, A and B of a base-form instruction with two sources; `bTy` is the type of the B field. -/
def dOp2 (tys : List Ty) (bTy : Ty → Ty) (f : Fld) : Option Op2 := do
  let ty ← Ty.ofCode f.ty
  need (tys.contains ty && !(f.u && (f.m7 || f.m6)))
  let d ← dstOf f.u f.d
  let a ← srcOf (f.u || f.m7) ty f.a
  let b ← srcOf (f.u || f.m6) (bTy ty) f.b
  return { k := f.k, ty, d, a, b }

def dOp3 (tys : List Ty) (bTy : Ty → Ty) (f : Fld) : Option Op3 := do
  let o ← dOp2 tys bTy f
  let c ← srcOf f.u o.ty f.c
  return { k := o.k, ty := o.ty, d := o.d, a := o.a, b := o.b, c }

def dOpC (tys : List Ty) (f : Fld) : Option OpC := do
  let ty ← Ty.ofCode f.ty
  need (tys.contains ty && !f.u && f.c == 0 && f.mod50)
  let d ← nib f.d
  let a ← srcOf f.m7 ty f.a
  let b ← srcOf f.m6 ty f.b
  return { k := f.k, ty, d, a, b }

def dOpShfl (f : Fld) : Option OpShfl := do
  let ty ← Ty.ofCode f.ty
  need (tysMove.contains ty && f.c == 0 && f.mod50 && !f.m7)
  let b ← srcOf f.m6 .n32 f.b
  return { k := f.k, ty, d := f.d, a := f.a, b }

def dScan (tys : List Ty) (f : Fld) : Option OpScan := do
  let ty ← Ty.ofCode f.ty
  need (tys.contains ty && f.b == 0 && f.c == 0 && !f.m6 && !f.m5 && !f.m4 && !f.m3)
  let a ← srcOf f.m7 ty f.a
  return { k := f.k, ty, d := f.d, a }

def dRed (tys : List Ty) (f : Fld) : Option OpRed := do
  let ty ← Ty.ofCode f.ty
  need (tys.contains ty && f.b == 0 && f.c == 0 && !f.m6 && !f.m5 && !f.m4)
  let d ← dstOf f.m3 f.d
  let a ← srcOf f.m7 ty f.a
  return { k := f.k, ty, d, a }

def cvtSrcOf (m3 : Bool) (c : BitVec 8) : Option CvtSrc :=
  if m3 then
    if c.toNat < 16 then
      match Ty.ofCode (c.setWidth 4) with
      | some t => if (CvtSrc.int t).ok then some (.int t) else none
      | none => none
    else none
  else match c.toNat with
    | 0 => some .f32 | 1 => some .f64 | 2 => some .f16 | 3 => some .bf16 | 4 => some .h8
    | 5 => some .h8w | 6 => some .h6 | 7 => some .h4 | 10 => some .fi8 | 11 => some .fn8 | _ => none

def CvtSrc.code : CvtSrc → BitVec 8
  | .f32 => 0 | .f64 => 1 | .f16 => 2 | .bf16 => 3 | .h8 => 4 | .h8w => 5 | .h6 => 6 | .h4 => 7
  | .fi8 => 10 | .fn8 => 11 | .int t => t.code.setWidth 8

def CvtSrc.b3 : CvtSrc → Bool
  | .int _ => true
  | _ => false

def cvtDstOf (m5 m4 : Bool) (ty : Ty) : Option CvtDst :=
  match m5, m4 with
  | false, false => if ty = .b32 then none else some (.ty ty)
  | false, true => if ty = .h8 then some .h6 else none
  | true, false => if ty = .h8 then some .h4 else none
  | true, true => none

def CvtDst.b5 : CvtDst → Bool
  | .h4 => true
  | _ => false
def CvtDst.b4 : CvtDst → Bool
  | .h6 => true
  | _ => false
def CvtDst.tyCode : CvtDst → BitVec 4
  | .ty t => t.code
  | _ => 13

def dCvt (f : Fld) : Option Instr := do
  let ty ← Ty.ofCode f.ty
  need (f.b == 0 && !f.m6 && !(f.u && f.m7))
  let src ← cvtSrcOf f.m3 f.c
  let dst ← cvtDstOf f.m5 f.m4 ty
  let d ← dstOf f.u f.d
  let a ← srcOf (f.u || f.m7) src.ty f.a
  let o : OpCvt := { k := f.k, d, a, dst, src }
  need (o.ok f.rm f.m2)
  return .cvt f.rm f.m2 o

def dAddr (f : Fld) : Option MAddr :=
  match f.am.toNat with
  | 0 => if f.u || f.b != 0 then none else some (.pair f.a)
  | 1 => if f.b != 0 then none else (reg7 f.a).map .base
  | am =>
    match reg7 f.a with
    | none => none
    | some a =>
      if f.u then (reg7 f.b).map (fun b => .uidx a b (am == 3)) else some (.idx a f.b (am == 3))

/-- The common fields of the M-form (R49). -/
def dM (f : Fld) : Option OpM := do
  let ty ← Ty.ofCode f.ty
  let scope ← Scope.of f.m3 f.m2 f.m1
  let addr ← dAddr f
  return { uni := f.u, addr, off := f.off12, ty, k := f.mpred, scope, strm := f.m0 }

def dLd (f : Fld) (mkI : Dst → OpM → Instr) : Option Instr := do
  need (f.sub == 0)
  let m ← dM f
  let d ← dstOf f.u f.d
  return mkI d m

def dPin (f : Fld) : Option Instr := do
  let m ← dM f
  let d ← nib f.d
  need (m.scope == .wave && !m.strm)
  match f.sub.toNat with
  | 0 => return .l2pinPin d m
  | 1 => return .l2pinUnpin d m
  | _ => none

def dLdlod (f : Fld) (e : Ext) : Option Instr := do
  need (!f.u && f.am == 1 && f.sub == 0 && f.off12 == 0 && !f.m3 && !f.m2 && !f.m1)
  need (e.e2 == 0 && e.e3 == 0 && e.imm &&& 0xFFFFFFAF#32 == 0)
  let ty ← Ty.ofCode f.ty
  need (ty == .b32 || ty == .n64)
  let sh ← reg7 f.a
  return .ldlod { k := f.mpred, wide := ty == .n64, strm := f.m0, d := f.d, sh, vc := f.b,
                  ve0 := e.e0, ve1 := e.e1, au := e.imm.getLsbD 4, av := e.imm.getLsbD 6 }

def AtomOp.ofSub (x : BitVec 4) : Option AtomOp :=
  match x.toNat with
  | 0 => some .add | 1 => some .fadd | 2 => some .min | 3 => some .max | 4 => some .and | 5 => some .or
  | 6 => some .xor | 7 => some .xchg | 8 => some .cas | 9 => some .inc | _ => none

def AtomOp.sub : AtomOp → BitVec 4
  | .add => 0 | .fadd => 1 | .min => 2 | .max => 3 | .and => 4 | .or => 5 | .xor => 6 | .xchg => 7
  | .cas => 8 | .inc => 9

def atomInstr (op : AtomOp) (o : OpAtom) : Instr :=
  match op with
  | .add => .atomAdd o | .fadd => .atomFadd o | .min => .atomMin o | .max => .atomMax o
  | .and => .atomAnd o | .or => .atomOr o | .xor => .atomXor o | .xchg => .atomXchg o
  | .cas => .atomCas o | .inc => .atomInc o

def dAtom (f : Fld) (e : Ext) : Option Instr := do
  let op ← AtomOp.ofSub f.sub
  let m ← dM f
  need (e.e2 == 0 && e.e3 == 0 && e.imm &&& 0xFFFFFFF8#32 == 0)
  let b ← dstOf f.u e.e0
  let noret := e.imm.getLsbD 2
  need (!noret || f.d == 0)
  let d ← dstOf f.u f.d
  need (op == .cas || e.e1 == 0)
  let c ← dstOf f.u e.e1
  let o : OpAtom := { m, d := if noret then none else some d, b, c := if op == .cas then some c else none,
                      acq := e.imm.getLsbD 0, rel := e.imm.getLsbD 1 }
  need (o.ok op)
  return atomInstr op o

def immScope (imm : W32) : Option Scope := Scope.of (imm.getLsbD 6) (imm.getLsbD 5) (imm.getLsbD 4)

def fltWide (ty : BitVec 4) : Option Bool :=
  match ty.toNat with
  | 3 => some false
  | 6 => some true
  | _ => none

def dCfadd (f : Fld) (e : Ext) : Option Instr := do
  need (f.mod50 && !f.m7 && e.e0 == 0 && e.e1 == 0 && e.e2 == 0 && e.e3 == 0 && e.imm &&& 0xFFFFFF8E#32 == 0)
  let wide ← fltWide f.ty
  let d ← nib f.d
  let a ← reg7 f.a
  let b ← srcOf f.m6 .n32 f.b
  let scope ← immScope e.imm
  return .cfadd { k := f.k, wide, d, a, b, c := f.c, rel := e.imm.getLsbD 0, scope }

def dCfread (f : Fld) (e : Ext) : Option Instr := do
  need (f.mod0 && f.k == 0 && f.b == 0 && f.c == 0 && e.e1 == 0 && e.e2 == 0 && e.e3 == 0
    && e.imm &&& 0xFFFFFF8E#32 == 0)
  let wide ← fltWide f.ty
  let d ← reg7 f.d
  let a ← reg7 f.a
  let x ← reg7 e.e0
  let scope ← immScope e.imm
  return .cfread { wide, d, a, e := x, acq := e.imm.getLsbD 0, scope }

/-- The operands of `cp`; the layout register bounds are judged by `OpCp.ok`. -/
def dCp (f : Fld) (e : Ext) : Option OpCp := do
  need (f.c == 0 && f.k == 0 && f.ty == 0 && !f.m7 && !f.m6 && !f.m2 && !f.m1 && !f.m0)
  need (e.imm &&& 0xFFFFFFF2#32 == 0)
  let q ← nib e.e0
  let d ← reg7 f.d
  let a ← reg7 f.a
  let b ← reg7 f.b
  let e1 ← reg7 e.e1
  let e2 ← reg7 e.e2
  let e3 ← reg7 e.e3
  need ((f.m3 || e3 == 0) && (f.m5 || (e1 == 0 && e2 == 0)))
  return { q, d, a, b, e3 := if f.m3 then some e3 else none, lay := f.m4,
           fo := if f.m5 then some (e1, e2) else none,
           q1 := e.imm.getLsbD 0, hs := e.imm.getLsbD 2, hd := e.imm.getLsbD 3 }

def dCpI (f : Fld) (e : Ext) : Option Instr := do
  let o ← dCp f e
  match f.fn.toNat with
  | 0 => do need (o.ok false false); return .cpMm o
  | 1 => do need (o.ok true false); return .cpMs o
  | 2 => do need (o.ok false true); return .cpSm o
  | 3 => do need (o.ok false false); return .cpMo o
  | 4 => do need (o.ok false false); return .cpOm o
  | 5 => do need (o.ok false true); return .cpSo o
  | 6 => do need (o.ok true false); return .cpOs o
  | _ => none

def dCpg (f : Fld) (e : Ext) : Option Instr := do
  need (f.k == 0 && f.ty == 0 && !f.m7 && !f.m6 && !f.m5 && !f.m4 && !f.m2 && !f.m1 && !f.m0)
  need (e.imm &&& 0xFFFFFFF2#32 == 0 && e.e1 == 0 && e.e2 == 0)
  let q ← nib e.e0
  let d ← reg7 f.d
  let a ← reg7 f.a
  let b ← reg7 f.b
  let c ← reg7 f.c
  let e3 ← reg7 e.e3
  return .cpg { q, d, a, b, c, e3, o := f.m3, q1 := e.imm.getLsbD 0, hs := e.imm.getLsbD 2, hd := e.imm.getLsbD 3 }

def tysColl : List Ty := [.i32, .n32, .f32, .i64, .n64, .f64, .f16, .bf16]

def dColl (f : Fld) (e : Ext) : Option Instr := do
  need (f.k == 0 && f.mod0 && e.e1 == 0 && e.e3 == 0 && e.imm == 0)
  let ty ← Ty.ofCode f.ty
  let q ← nib e.e0
  let d ← reg7 f.d
  let a ← reg7 f.a
  let b ← reg7 f.b
  let c ← reg7 f.c
  let e2 ← reg7 e.e2
  let o : OpColl := { q, d, a, b, c, e2, ty }
  match f.fn.toNat with
  | 0 => do need (tysColl.contains ty); return .collSum o
  | 1 => do need (tysColl.contains ty); return .collMin o
  | 2 => do need (tysColl.contains ty); return .collMax o
  | 3 => return .collGather o
  | 4 => return .collBcast o
  | _ => none

def mfmtOf (x : BitVec 8) : Option MFmt :=
  match x.toNat with
  | 2 => some .f16 | 3 => some .bf16 | 4 => some .h8 | 5 => some .h8w | 6 => some .h6 | 7 => some .h4
  | 8 => some .q4 | 9 => some .vq2 | 10 => some .i8 | 11 => some .n8 | _ => none

def MFmt.code : MFmt → BitVec 8
  | .f16 => 2 | .bf16 => 3 | .h8 => 4 | .h8w => 5 | .h6 => 6 | .h4 => 7 | .q4 => 8 | .vq2 => 9
  | .i8 => 10 | .n8 => 11

/-- MOD of a matrix command apart from MOD[5:3] is zero (R145), with U, FN, TY and K. -/
def Fld.mat0 (f : Fld) : Bool :=
  f.k == 0 && f.ty == 0 && !f.m7 && !f.m6 && !f.m2 && !f.m1 && !f.m0

def dScale (m4 : Bool) (b : BitVec 8) (soff : BitVec 5) : Option (Option ScaleOp) :=
  if m4 then (slotOf b).map (fun s => some { slot := s, soff })
  else if b == 0 && soff == 0 then some none else none

def dWload (f : Fld) (e : Ext) : Option Instr := do
  need (f.mat0 && !f.m3 && f.d == 0 && e.e2 == 0 && e.e3 == 0 && e.imm &&& 0xFFFFFFE0#32 == 0)
  let a ← slotOf f.a
  let fmt ← mfmtOf f.c
  let scale ← dScale f.m4 f.b (e.imm.setWidth 5)
  need (!f.m4 || fmt.scaled)
  let q ← nib e.e0
  let sp ← reg7 e.e1
  return .wload { q, a, fmt, sp, scale, cont := f.m5 }

def dWmint (f : Fld) (e : Ext) : Option Instr := do
  need (f.mat0 && !f.m3 && !f.m4 && f.d == 0 && f.b == 0 && f.c == 0 && e.e2 == 0 && e.e3 == 0)
  let a ← slotOf f.a
  let q ← nib e.e0
  let sp ← reg7 e.e1
  need (e.imm &&& 0xFFFFC03F#32 == 0 && (e.imm.extractLsb' 6 8).toNat ≤ 253)
  return .wmint { q, a, off := e.imm.extractLsb' 6 8, sp, cont := f.m5 }

def dMmul (f : Fld) (e : Ext) : Option Instr := do
  need (f.mat0 && e.e2 == 0 && e.e3 == 0 && e.imm &&& 0xFFFFE000#32 == 0)
  let d ← slotOf f.d
  let a ← slotOf f.a
  let fmt ← mfmtOf f.c
  need fmt.streamed
  let scale ← dScale f.m4 f.b (e.imm.extractLsb' 8 5)
  let q ← nib e.e0
  let sp ← reg7 e.e1
  return .mmul { q, d, a, fmt, m := e.imm.setWidth 8, sp, scale, cont := f.m5, z := f.m3 }

def dMseek (f : Fld) (e : Ext) : Option Instr := do
  need (f.mat0 && !f.m3 && !f.m4 && e.imm &&& 0xE0000000#32 == 0 && f.c.toNat < 64)
  let d ← slotOf f.d
  let a ← slotOf f.a
  let b ← slotOf f.b
  let q ← nib e.e0
  let sp ← reg7 e.e1
  let sb ← reg7 e.e2
  need (1 ≤ e.e3.toNat && e.e3.toNat ≤ 16 && (e.imm.extractLsb' 13 8).toNat ≤ 253)
  return .mseek { q, d, a, b, nc := f.c.setWidth 6, sp, sb, j := e.e3.setWidth 5,
                  kd := e.imm.setWidth 7, nd := e.imm.extractLsb' 7 6,
                  roff := e.imm.extractLsb' 13 8, boff := e.imm.extractLsb' 21 8, cont := f.m5 }

def dVqtab (f : Fld) (e : Ext) : Option Instr := do
  need (f.mat0 && !f.m5 && !f.m4 && f.d == 0 && f.b == 0 && f.c == 0
    && e.e0 == 0 && e.e1 == 0 && e.e2 == 0 && e.e3 == 0 && e.imm &&& 0xFFFFFFE0#32 == 0)
  if f.m3 then
    need (f.a == 0 && e.imm == 0)
    return .vqtabClr
  else
    let a ← slotOf f.a
    return .vqtab a (e.imm.setWidth 5)

/-- A slot and a literal count of slots (R145). -/
def dRun (f : Fld) : Option (BitVec 6 × BitVec 6) := do
  need (f.low0 && f.c == 0)
  let a ← slotOf f.a
  need (f.b.toNat < 64)
  let n := f.b.setWidth 6
  need (runOk a n)
  return (a, n)

def dOm (f : Fld) (e : Ext) : Option OpOm := do
  need (f.mod0 && f.c == 0 && e.e0 == 0 && e.e1 == 0 && e.e2 == 0 && e.e3 == 0 && e.imm.toNat < 786432)
  let ty ← Ty.ofCode f.ty
  let a ← slotOf f.a
  return { k := f.k, ty, d := f.d, a, b := f.b, off := e.imm }

/-- The common fields of a macro (R153). -/
def dMac (f : Fld) (e : Ext) : Option OpMac := do
  need (f.ty == 0 && f.b == 0 && f.c == 0 && f.d == 0 && !f.m7 && !f.m6 && !f.m4 && !f.m3 && !f.m2 && !f.m1
    && !f.m0 && e.e3 == 0)
  let sp ← reg7 e.e1
  let sr ← reg7 e.e2
  return { w := e.e0, sp, sr, cont := f.m5 }

def dFilt (f : Fld) (e : Ext) : Option Instr := do
  let m ← dMac f e
  let a ← reg7 f.a
  need (e.imm &&& 0xFFFFFFA0#32 == 0)
  let filt ← match e.imm.getLsbD 1, e.imm.getLsbD 0 with
    | false, false => some FiltKind.point
    | false, true => some .bilinear
    | true, false => some .trilinear
    | true, true => none
  return .filt { m, a, k := f.k, filt, amax := e.imm.extractLsb' 2 2, au := e.imm.getLsbD 4, av := e.imm.getLsbD 6 }

def dTrav (f : Fld) (e : Ext) : Option Instr := do
  let m ← dMac f e
  let a ← reg7 f.a
  need (e.imm == 0)
  let o : OpTrav := { m, a, k := f.k }
  match f.fn.toNat with
  | 0 => return .travClosest o
  | 1 => return .travAny o
  | 2 => return .travBox o
  | 3 => return .travSphere o
  | _ => none

def SReg.ofNum (x : BitVec 8) : Option SReg :=
  match x.toNat with
  | 0x00 => some .ccyc | 0x01 => some .laneid | 0x02 => some .waveid | 0x03 => some .blockid
  | 0x04 => some .gridpos | 0x05 => some .wdecl | 0x06 => some .fpctl | 0x07 => some .fpflag
  | 0x08 => some .trapcause | 0x09 => some .trapaddr | 0x0A => some .skid | 0x0B => some .laneflt
  | 0x0C => some .emudepth | 0x0D => some .agelim | 0x0E => some .lcnt | 0x0F => some .scnt
  | 0x10 => some .wsrc | 0x11 => some .rsdepth | 0x12 => some .qclass
  | n => if 0x18 ≤ n ∧ n < 0x20 then some (.pmc (x.setWidth 3))
         else if 0x20 ≤ n ∧ n < 0x28 then some (.pmsel (x.setWidth 3)) else none

def SReg.num : SReg → BitVec 8
  | .ccyc => 0x00 | .laneid => 0x01 | .waveid => 0x02 | .blockid => 0x03 | .gridpos => 0x04
  | .wdecl => 0x05 | .fpctl => 0x06 | .fpflag => 0x07 | .trapcause => 0x08 | .trapaddr => 0x09
  | .skid => 0x0A | .laneflt => 0x0B | .emudepth => 0x0C | .agelim => 0x0D | .lcnt => 0x0E
  | .scnt => 0x0F | .wsrc => 0x10 | .rsdepth => 0x11 | .qclass => 0x12
  | .pmc n => 0x18 + n.setWidth 8 | .pmsel n => 0x20 + n.setWidth 8

def winOf (x : BitVec 8) : Option Win :=
  match x.toNat with
  | 0 => some .wa | 1 => some .wb | 2 => some .wc | 3 => some .wd | _ => none

def Win.code : Win → BitVec 8
  | .wa => 0 | .wb => 1 | .wc => 2 | .wd => 3

def two (x : BitVec 8) : Option (BitVec 2) := if x.toNat < 4 then some (x.setWidth 2) else none

/-- `rdsr` in its four kinds (R339). -/
def dRdsr (f : Fld) : Option Instr := do
  need (f.c == 0 && f.ty == 0 && !f.m7 && !f.m6 && !f.m3 && !f.m2 && !f.m1 && !f.m0)
  match f.m5, f.m4 with
  | false, false => do
    need (f.k == 0 && f.b == 0)
    let r ← SReg.ofNum f.a
    let d ← dstOf (r != .laneid) f.d
    return .rdsr d r
  | false, true => do
    let w ← winOf f.a
    let o ← two f.b
    return .rdsrWindow (.wv f.k f.d w o)
  | true, false => do
    need (f.k == 0)
    let d ← reg7 f.d
    match f.a.toNat with
    | 4 => do need (f.b == 0); return .rdsrWindow (.ei0 d)
    | 5 => do need (f.b == 0); return .rdsrWindow (.ei1 d)
    | 6 => do need (f.b == 0); return .rdsrWindow (.rpc d)
    | _ => do
      let w ← winOf f.a
      let o ← two f.b
      return .rdsrWindow (.ws d w o)
  | true, true => do
    need (f.k == 0)
    let d ← mxOf f.d
    let w ← winOf f.a
    let o ← two f.b
    return .rdsrWindow (.wk d w o)

/-- `wrsr` in its four kinds; the literal o stands in C (R339). -/
def dWrsr (f : Fld) : Option Instr := do
  need (f.d == 0 && f.ty == 0 && !f.m7 && !f.m6 && !f.m3 && !f.m2 && !f.m1 && !f.m0)
  match f.m5, f.m4 with
  | false, false => do
    need (f.k == 0 && f.c == 0)
    let r ← SReg.ofNum f.a
    need r.writable
    let b ← scOf .n64 f.b
    return .wrsr r b
  | false, true => do
    let w ← winOf f.a
    let o ← two f.c
    return .wrsrWindow (.wv f.k w f.b o)
  | true, false => do
    need (f.k == 0)
    let b ← reg7 f.b
    if f.a.toNat = 6 then do
      need (f.c == 0)
      return .wrsrWindow (.rpc b)
    else do
      let w ← winOf f.a
      let o ← two f.c
      return .wrsrWindow (.ws w b o)
  | true, true => do
    need (f.k == 0)
    let w ← winOf f.a
    let b ← mxOf f.b
    let o ← two f.c
    return .wrsrWindow (.wk w b o)

/-- Every field but OP, FN, U and X is zero. -/
def Fld.bare (f : Fld) : Bool := f.d == 0 && f.a == 0 && f.b == 0 && f.c == 0 && f.low0

/-- The scope in MOD[5:3] of `gacq` and `grel` (R228). -/
def dGuard (f : Fld) (one : Scope → BitVec 7 → BitVec 7 → Instr) (all : Scope → Instr) : Option Instr := do
  need (f.b == 0 && f.c == 0 && f.k == 0 && f.ty == 0 && !f.m7 && !f.m6 && !f.m2 && !f.m1 && !f.m0)
  let sc ← Scope.of f.m5 f.m4 f.m3
  match f.fn.toNat with
  | 0 => do
    let d ← reg7 f.d
    let a ← reg7 f.a
    return one sc d a
  | 1 => do
    need (f.d == 0 && f.a == 0)
    return all sc
  | _ => none

/-- A geometry-queue instruction; MOD[4:3] selects the operation (R187). -/
def dGqpush (f : Fld) : Option Instr := do
  need (f.ty == 0 && !f.m7 && !f.m6 && !f.m5 && !f.m2 && !f.m1 && !f.m0)
  let a ← reg7 f.a
  let b ← reg7 f.b
  match f.m4, f.m3 with
  | true, false => do
    need (f.k == 0)
    let d ← reg7 f.d
    let c ← reg7 f.c
    return .gqpushOpen d a b c
  | false, false => return .gqpushVtx f.k f.d a b f.c
  | false, true => return .gqpushPrim f.k f.d a b f.c
  | true, true => do
    need (f.k == 0 && f.d == 0 && f.c == 0)
    return .gqpushClose a b

def dGqpop (f : Fld) : Option Instr := do
  need (f.ty == 0 && !f.m7 && !f.m6 && !f.m5 && !f.m2 && !f.m1 && !f.m0)
  let a ← reg7 f.a
  match f.m4, f.m3 with
  | false, false => do
    need (f.k == 0 && f.b == 0 && f.c == 0)
    let d ← reg7 f.d
    return .gqpopTake d a
  | false, true => do
    need (f.b == 0)
    return .gqpopRec f.k f.d a f.c
  | true, false => do
    need (f.k == 0 && f.d == 0 && f.c == 0)
    let b ← reg7 f.b
    return .gqpopFree a b
  | true, true => none

def three (x : BitVec 8) : Option (BitVec 3) := if x.toNat < 8 then some (x.setWidth 3) else none

def dTlbinv (f : Fld) : Option Instr := do
  need (f.k == 0 && f.ty == 0 && !f.m7 && !f.m6 && !f.m2 && !f.m1 && !f.m0)
  let d ← reg7 f.d
  let a ← reg7 f.a
  let b ← reg7 f.b
  let c ← reg7 f.c
  match f.m4, f.m3 with
  | false, false => return .tlbinvRange f.m5 d a b c
  | false, true => do
    need (a == 0 && b == 0)
    return .tlbinvCtx f.m5 d c
  | true, false => do
    need (!f.m5)
    return .tlbinvHnd d a b c
  | true, true => none

/-- The seven-bit register of an optional scalar destination under MOD[3] (R238, R239). -/
def optD (f : Fld) : Option (Option (BitVec 7)) :=
  if f.m3 then (reg7 f.d).map some else if f.d == 0 then some none else none

/-- A base-form instruction whose only MOD bit in use is MOD[3]. -/
def Fld.modP (f : Fld) : Bool :=
  f.k == 0 && f.ty == 0 && !f.m7 && !f.m6 && !f.m5 && !f.m4 && !f.m2 && !f.m1 && !f.m0

/-- FN must be 0 and U must be 0. -/
def Fld.fnu (f : Fld) : Bool := f.fn == 0 && !f.u

/-- The integer and logic instructions, OP 0x01 and 0x10 to 0x2C (R96 to R104). -/
def dInt (f : Fld) (ext : W64) : Option Instr :=
  let b1 (tys : List Ty) : Option Op1 := do
    need (f.fn == 0 && f.b == 0 && f.c == 0)
    dOp1 tys true f
  let b2 (tys : List Ty) (bt : Ty → Ty) : Option Op2 := do
    need (f.fn == 0 && f.c == 0)
    dOp2 tys bt f
  match f.op.toNat with
  | 0x01 => do need (f.fnu && f.bare); return .nop
  | 0x10 => do need f.modSat; return .add f.m2 (← b2 tysInt id)
  | 0x11 => do need f.modSat; return .sub f.m2 (← b2 tysInt id)
  | 0x12 => do need f.modSat; return .mul f.m2 (← b2 tysInt id)
  | 0x13 => do need f.mod50; return .mulh (← b2 tysInt id)
  | 0x14 => do need (f.fn == 0 && f.modSat); return .mad f.m2 (← dOp3 tysInt id f)
  | 0x15 => do need f.mod50; return .min (← b2 tysInt id)
  | 0x16 => do need f.mod50; return .max (← b2 tysInt id)
  | 0x17 => do need f.modSat; return .abs f.m2 (← b1 tysAbs)
  | 0x18 => do need f.mod50; return .and (← b2 tysBit id)
  | 0x19 => do need f.mod50; return .or (← b2 tysBit id)
  | 0x1A => do need f.mod50; return .xor (← b2 tysBit id)
  | 0x1B => do need f.mod50; return .andn (← b2 tysBit id)
  | 0x1C => do need f.mod50; return .shl (← b2 tysBit id)
  | 0x1D => do need f.mod50; return .shr (← b2 tysBit id)
  | 0x1E => do need f.mod50; return .rot (← b2 tysBit id)
  | 0x1F => do
    need (f.mod50 && f.c == 0)
    match f.fn.toNat with
    | 0 => return .divQuo (← dOp2 tysInt id f)
    | 1 => return .divRem (← dOp2 tysInt id f)
    | _ => none
  | 0x20 => do need f.mod50; return .clz (← b1 tysBit)
  | 0x21 => do need f.mod50; return .popc (← b1 tysBit)
  | 0x22 => do need f.mod50; return .brev (← b1 tysBit)
  | 0x23 => do need f.mod50; return .bfe (← b2 tysInt (fun _ => .n32))
  | 0x24 => do need (f.fn == 0 && f.mod50); return .bfi (← dOp3 tysBit (fun _ => .n32) f)
  | 0x25 => do need (f.fn == 0 && f.mod50); return .sel (← nib f.c) (← dOp2 tysAll id f)
  | 0x26 =>
    match f.fn.toNat with
    | 0 => do return .cmpEq (← dOpC tysBit f)
    | 1 => do return .cmpNe (← dOpC tysBit f)
    | 2 => do return .cmpLt (← dOpC tysInt f)
    | 3 => do return .cmpLe (← dOpC tysInt f)
    | 4 => do return .cmpGt (← dOpC tysInt f)
    | 5 => do return .cmpGe (← dOpC tysInt f)
    | _ => none
  | 0x27 => do need f.mod50; return .mov (← b1 tysAll)
  | 0x28 => do
    need (f.a.toNat < 2 && f.fn.toNat < 2)
    let d ← dstOf f.u f.d
    let wide := f.a == 1
    let sx := f.fn == 1
    need (if f.u then !wide else wide || !sx)
    return .movi d wide sx f.imm
  | 0x29 => do
    let ty ← Ty.ofCode f.ty
    need (f.fn == 0 && f.a == 0 && f.b == 0 && f.c == 0 && f.mod0 && tysMovx.contains ty)
    let d ← dstOf f.u f.d
    return .movx f.k ty d ext
  | 0x2A => do
    need (f.fn == 0 && f.mod50 && f.c.toNat < 64)
    return .lea (f.c.setWidth 6) (← dOp2 tysLea (fun _ => .n32) f)
  | 0x2B => do need (f.fn == 0 && f.mod50); return .addc (← nib f.c) (← dOp2 tysInt id f)
  | 0x2C => do need (f.fn == 0 && f.mod50); return .subb (← nib f.c) (← dOp2 tysInt id f)
  | _ => none

/-- The floating, conversion and packing instructions, OP 0x30 to 0x44 (R105 to R113). -/
def dFlt (f : Fld) : Option Instr :=
  let b1 (bc : Bool) : Option Op1 := do
    need (f.fn == 0 && f.b == 0 && f.c == 0)
    dOp1 tysFlt bc f
  let b2 (bt : Ty → Ty) : Option Op2 := do
    need (f.fn == 0 && f.c == 0)
    dOp2 tysFlt bt f
  match f.op.toNat with
  | 0x30 => do need f.mod53; return .fadd f.rm f.m2 (← b2 id)
  | 0x31 => do need f.mod53; return .fsub f.rm f.m2 (← b2 id)
  | 0x32 => do need f.mod53; return .fmul f.rm f.m2 (← b2 id)
  | 0x33 => do need (f.fn == 0 && f.mod53); return .fma f.rm f.m2 (← dOp3 tysFlt id f)
  | 0x34 => do need f.mod50; return .fmin (← b2 id)
  | 0x35 => do need f.mod50; return .fmax (← b2 id)
  | 0x36 =>
    match f.fn.toNat with
    | 0 => do return .fcmpEq (← dOpC tysFlt f)
    | 1 => do return .fcmpNe (← dOpC tysFlt f)
    | 2 => do return .fcmpLt (← dOpC tysFlt f)
    | 3 => do return .fcmpLe (← dOpC tysFlt f)
    | 4 => do return .fcmpGt (← dOpC tysFlt f)
    | 5 => do return .fcmpGe (← dOpC tysFlt f)
    | 6 => do return .fcmpOrd (← dOpC tysFlt f)
    | 7 => do return .fcmpUno (← dOpC tysFlt f)
    | _ => none
  | 0x37 => do need f.mod0; return .fcls (← b1 false)
  | 0x38 => do need f.modRnd; return .frnd f.rm (← b1 true)
  | 0x39 => do need f.mod53; return .fdiv f.rm f.m2 (← b2 id)
  | 0x3A => do need f.modRnd; return .fsqrt f.rm (← b1 true)
  | 0x3B => do need f.modRnd; return .frcp f.rm (← b1 true)
  | 0x3C => do need f.modRnd; return .frsq f.rm (← b1 true)
  | 0x3D => do need f.modRnd; return .fex2 f.rm (← b1 true)
  | 0x3E => do need f.modRnd; return .flg2 f.rm (← b1 true)
  | 0x3F => do
    need (f.modRnd && f.b == 0 && f.c == 0)
    match f.fn.toNat with
    | 0 => return .ftrigSin f.rm (← dOp1 tysFlt true f)
    | 1 => return .ftrigCos f.rm (← dOp1 tysFlt true f)
    | _ => none
  | 0x40 => do need (f.fn == 0); dCvt f
  | 0x41 => do
    need (f.fn == 0 && f.c == 0 && f.mod0)
    let n ← two f.b
    let o ← dOp1 tysPack false f
    need (o.ty.bytes == 1 || n.toNat < 2)
    return .pack n o
  | 0x42 => do
    need (f.fn == 0 && f.c == 0 && f.mod0)
    let n ← two f.b
    let o ← dOp1 tysPack false f
    need (o.ty.bytes == 1 || n.toNat < 2)
    return .unpack n o
  | 0x43 => do need f.mod53; return .fscale f.rm f.m2 (← b2 (fun _ => .i32))
  | 0x44 => do need f.mod0; return .fexp (← b1 false)
  | _ => none

/-- The lane-crossing and mask instructions, OP 0x50 to 0x5F (R114 to R123). -/
def dLane (f : Fld) : Option Instr :=
  let km : Option Unit := need (f.fnu && f.c == 0 && f.low0)
  match f.op.toNat with
  | 0x50 => do
    need (!f.u)
    match f.fn.toNat with
    | 0 => return .shflIdx (← dOpShfl f)
    | 1 => return .shflXor (← dOpShfl f)
    | 2 => return .shflUp (← dOpShfl f)
    | 3 => return .shflDown (← dOpShfl f)
    | _ => none
  | 0x51 => do
    let ty ← Ty.ofCode f.ty
    need (f.fnu && tysMove.contains ty && f.c == 0 && !f.m7 && !f.m6 && !f.m5 && !f.m2 && !f.m1 && !f.m0)
    let d ← dstOf f.m3 f.d
    if f.m4 then do
      let r ← reg7 f.b
      return .bcast { k := f.k, ty, d, a := f.a, n := .sca r }
    else do
      need (f.b.toNat < 64)
      return .bcast { k := f.k, ty, d, a := f.a, n := .lit (f.b.setWidth 6) }
  | 0x52 => do
    need (!f.u)
    match f.fn.toNat with
    | 0 => do
      let o ← dScan tysScanNum f
      need (if o.ty.isFloat then !f.m2 else !f.m1 && !f.m0)
      return .scanAdd f.rm f.m2 o
    | 1 => do need f.mod50; return .scanMin (← dScan tysScanNum f)
    | 2 => do need f.mod50; return .scanMax (← dScan tysScanNum f)
    | 3 => do need f.mod50; return .scanAnd (← dScan tysBit f)
    | 4 => do need f.mod50; return .scanOr (← dScan tysBit f)
    | 5 => do need f.mod50; return .scanXor (← dScan tysBit f)
    | _ => none
  | 0x53 => do
    need (!f.u)
    let plain := !f.m2 && !f.m1 && !f.m0
    match f.fn.toNat with
    | 0 => do
      let o ← dRed tysScanNum f
      need (if o.ty.isFloat then !f.m2 else !f.m1 && !f.m0)
      return .redAdd f.rm f.m2 o
    | 1 => do need plain; return .redMin (← dRed tysScanNum f)
    | 2 => do need plain; return .redMax (← dRed tysScanNum f)
    | 3 => do need plain; return .redAnd (← dRed tysBit f)
    | 4 => do need plain; return .redOr (← dRed tysBit f)
    | 5 => do need plain; return .redXor (← dRed tysBit f)
    | _ => none
  | 0x54 => do
    need (f.fnu && f.b == 0 && f.c == 0 && f.mod0 && (f.ty == 0 || f.ty == 5))
    return .matchEq f.k (f.ty == 5) f.d f.a
  | 0x55 => do
    need (f.fnu && f.b == 0 && f.c == 0 && f.mod0 && (f.ty == 0 || f.ty == 5))
    let d ← nib f.d
    return .lanes f.k (f.ty == 5) d f.a
  | 0x56 => do km; return .kand (← mxOf f.d) (← mxOf f.a) (← mxOf f.b)
  | 0x57 => do km; return .kor (← mxOf f.d) (← mxOf f.a) (← mxOf f.b)
  | 0x58 => do km; return .kxor (← mxOf f.d) (← mxOf f.a) (← mxOf f.b)
  | 0x59 => do km; return .kandn (← mxOf f.d) (← mxOf f.a) (← mxOf f.b)
  | 0x5A => do km; need (f.b == 0); return .knot (← mxOf f.d) (← mxOf f.a)
  | 0x5B => do
    need (f.fnu && f.b == 0 && f.c == 0 && f.k == 0 && f.ty == 0 && !f.m7 && !f.m6 && !f.m5 && !f.m2 && !f.m1 && !f.m0)
    match f.m4, f.m3 with
    | false, false => do return .kmov (.mm (← mxOf f.d) (← mxOf f.a))
    | false, true => do return .kmov (.ms (← reg7 f.d) (← mxOf f.a))
    | true, false => do return .kmov (.sm (← mxOf f.d) (← reg7 f.a))
    | true, true => none
  | 0x5C => do km; need (f.b == 0); return .kpop (← reg7 f.d) (← mxOf f.a)
  | 0x5D => do km; need (f.b == 0); return .kfind (← reg7 f.d) (← mxOf f.a)
  | 0x5E => do
    need (f.fnu && f.b == 0 && f.c == 0 && f.ty == 2 && f.mod0)
    return .krank f.k f.d (← mxOf f.a)
  | 0x5F => do
    km
    need (f.a.toNat ≤ 64 && f.b.toNat ≤ 64)
    return .kset (← mxOf f.d) (f.a.setWidth 7) (f.b.setWidth 7)
  | _ => none

/-- Branches, barriers, spawning and the allowance, OP 0x60 to 0x6A and 0xB0 to 0xB4 (R249 to R274). -/
def dFlow (f : Fld) (e : Ext) : Option Instr :=
  let j0 : Option Unit := need (f.fnu && f.d == 0)
  let jc : Option Unit := need (f.fnu && f.d.extractLsb' 0 4 == 0)
  match f.op.toNat with
  | 0x60 => do j0; return .br f.off40
  | 0x61 => do jc; return .bany f.jk f.off40
  | 0x62 => do jc; return .ball f.jk f.off40
  | 0x63 => do jc; return .bnone f.jk f.off40
  | 0x64 => do j0; return .split f.off40
  | 0x65 => do need (f.fnu && f.bare); return .join
  | 0x66 => do j0; return .call f.off40
  | 0x67 => do need (f.fnu && f.d == 0 && f.b == 0 && f.c == 0 && f.low0); return .calli f.a
  | 0x68 => do need (f.fnu && f.bare); return .ret
  | 0x69 => do need (f.fnu && f.bare); return .exit
  | 0x6A => do need (f.fnu && f.d == 0 && f.b == 0 && f.c == 0 && f.low0); return .brx (← reg7 f.a)
  | 0xB0 => do
    need (!f.u && f.d == 0 && f.c == 0 && f.modP)
    let a ← scOf barTy f.a
    match f.fn.toNat with
    | 0 => return .barArrive f.m3 a (← scOf barTy f.b)
    | 1 => do need (f.b == 0 && !f.m3); return .barWait a
    | 2 => return .barSync f.m3 a (← scOf barTy f.b)
    | _ => none
  | 0xB1 => do
    need (!f.u && f.d == 0 && f.c == 0 && f.ty == 0 && f.mod0 && e.e1 == 0 && e.e2 == 0 && e.e3 == 0 && e.imm != 0)
    let q ← nib e.e0
    match f.fn.toNat with
    | 0 => do need (f.k == 0); return .spawn q (← reg7 f.a) (← scOf .n32 f.b) e.imm
    | 1 => return .spawnL f.k q f.a f.b e.imm
    | _ => none
  | 0xB2 => do
    need (f.fnu && f.d == 0 && f.a == 0 && f.imm.toNat < 256)
    let n : BitVec 8 := f.imm.setWidth 8
    need (n.toNat % 8 == 0 && 8 ≤ n.toNat)
    return .ralloc n
  | 0xB3 => do
    need (f.fnu && f.d == 0 && f.a == 0 && f.imm.toNat < 256)
    let n : BitVec 8 := f.imm.setWidth 8
    need (n.toNat % 8 == 0 && 8 ≤ n.toNat)
    return .rfree n
  | 0xB4 => do need (f.fnu && f.bare); return .yield
  | _ => none

/-- Memory, atomic, guard, coffer and engine instructions, OP 0x70 to 0x8A and 0xC6 (R217 to R244). -/
def dMem (f : Fld) (e : Ext) : Option Instr :=
  match f.op.toNat with
  | 0x70 => dLd f .ld
  | 0x71 => dLd f .st
  | 0x72 => dLdlod f e
  | 0x73 => do need (f.sub == 0 && f.d == 0); return .pref (← dM f)
  | 0x74 => dPin f
  | 0x76 => do need (f.fnu && f.bare); return .ifence
  | 0x77 => do
    need (!f.u && f.d == 0 && f.a == 0 && f.imm.toNat ≤ 64)
    match f.fn.toNat with
    | 0 => return .wcntLd (f.imm.setWidth 7)
    | 1 => return .wcntSt (f.imm.setWidth 7)
    | _ => none
  | 0x78 => dAtom f e
  | 0x79 => do need f.fnu; dCfadd f e
  | 0x7A => do need f.fnu; dCfread f e
  | 0x7C => do
    need (!f.u && f.low0)
    let d ← reg7 f.d
    let a ← reg7 f.a
    match f.fn.toNat with
    | 0 => return .gbindBind d a (← reg7 f.b) (← reg7 f.c)
    | 1 => do need (f.b == 0 && f.c == 0); return .gbindUnbind d a
    | _ => none
  | 0x7D => do need (!f.u); dGuard f .gacq .gacqAll
  | 0x7E => do need (!f.u); dGuard f .grel .grelAll
  | 0x7F => do
    need (f.fnu && f.d == 0 && f.c == 0 && f.low0)
    return .gwait (← reg7 f.a) (← reg7 f.b)
  | 0x80 => do need (!f.u); dCpI f e
  | 0x81 => do need f.fnu; dCpg f e
  | 0x82 => do need (!f.u); dColl f e
  | 0x83 => do
    need (f.fnu && f.a == 0 && f.b == 0 && f.c == 0 && f.modP)
    return .seal (← optD f)
  | 0x84 => do
    need (f.fnu && f.d == 0)
    return .waitb (← scOf .n32 f.a) f.imm
  | 0x85 => do
    need (f.fnu && f.b == 0 && f.c == 0 && f.modP)
    return .qwait (← optD f) (← nib f.a)
  | 0x86 => do need (f.fnu && f.b == 0 && f.c == 0 && f.low0); return .qtest (← reg7 f.d) (← nib f.a)
  | 0x87 => do need (f.fnu && f.d == 0 && f.b == 0 && f.c == 0 && f.low0); return .qcan (← nib f.a)
  | 0x88 => do need (f.fnu && f.b == 0 && f.c == 0 && f.low0); return .qdue (← reg7 f.d) (← nib f.a)
  | 0x89 => do need (f.fnu && f.d == 0 && f.b == 0 && f.c == 0 && f.low0); return .sleep (← nib f.a)
  | 0x8A => do
    need (!f.u && f.b == 0 && f.c == 0 && f.low0)
    let a ← reg7 f.a
    let q ← nib f.d
    match f.fn.toNat with
    | 0 => return .qmovSt a q
    | 1 => return .qmovLd q a
    | _ => none
  | 0xC6 => do need (f.fnu && f.bare); return .rmsync
  | _ => none

/-- Matrix and macro instructions and the queues, OP 0x90 to 0xAA (R145 to R187). -/
def dMacro (f : Fld) (e : Ext) : Option Instr :=
  match f.op.toNat with
  | 0x90 => do
    need f.fnu
    let d ← reg7 f.d
    let (a, n) ← dRun f
    return .omclaim d a n
  | 0x91 => do
    need (f.fnu && f.d == 0)
    let (a, n) ← dRun f
    return .omrel a n
  | 0x92 => do need f.fnu; dWload f e
  | 0x93 => do need f.fnu; dWmint f e
  | 0x94 => do need f.fnu; dMmul f e
  | 0x95 => do need f.fnu; return .omld (← dOm f e)
  | 0x96 => do need f.fnu; return .omst (← dOm f e)
  | 0x97 => do need f.fnu; dMseek f e
  | 0x98 => do
    need (f.fnu && f.d == 0)
    let (a, n) ← dRun f
    return .omzero a n
  | 0x99 => do need f.fnu; dVqtab f e
  | 0xA0 => do need (f.fnu && f.a == 0 && f.k == 0 && e.imm == 0); return .rast (← dMac f e)
  | 0xA1 => do need (f.fnu && f.a == 0 && f.k == 0 && e.imm == 0); return .oblend (← dMac f e)
  | 0xA2 => do need f.fnu; dFilt f e
  | 0xA3 => do need (!f.u); dTrav f e
  | 0xA4 => do
    need (f.fnu && f.k == 0 && e.imm == 0)
    return .bvrefit { m := (← dMac f e), a := (← reg7 f.a) }
  | 0xA5 => do need f.fnu; dGqpush f
  | 0xA6 => do need f.fnu; dGqpop f
  | 0xA7 => do need (f.fnu && f.a == 0 && f.b == 0 && f.ty == 2 && f.mod0); return .psalloc f.k f.d (← nib f.c)
  | 0xA8 => do need (f.fnu && f.d == 0 && f.b == 0 && f.ty == 2 && f.mod0); return .psfree f.k f.a (← nib f.c)
  | 0xA9 => do
    need (f.fnu && f.d == 0 && f.ty == 2 && f.mod0)
    return .sqpush f.k f.a (← three f.b) (← nib f.c)
  | 0xAA => do
    need (f.fnu && f.a == 0 && f.ty == 2 && f.mod0)
    return .sqpop f.k f.d (← three f.b) (← nib f.c)
  | _ => none

/-- Traps and system instructions, OP 0xC0 to 0xC9 (R311, R337 to R339). -/
def dSys (f : Fld) : Option Instr :=
  match f.op.toNat with
  | 0xC0 => do
    need (f.fnu && f.d == 0 && f.a == 0 && f.imm &&& 0x7FFFF000#32 == 0)
    if f.imm.getLsbD 31 then return .trapFatal (f.imm.setWidth 12) else return .trap (f.imm.setWidth 12)
  | 0xC1 => do need f.fnu; dRdsr f
  | 0xC2 => do need f.fnu; dWrsr f
  | 0xC3 => do need (f.fnu && f.d == 0 && f.a == 0); return .brk f.imm
  | 0xC4 => do need (f.fnu && f.d == 0 && f.a == 0); return .svc f.imm
  | 0xC5 => do need f.fnu; dTlbinv f
  | 0xC7 => do need (f.fnu && f.a == 0 && f.b == 0 && f.c == 0 && f.low0); return .pmrd (← reg7 f.d)
  | 0xC8 => do need (f.fnu && f.d == 0 && f.b == 0 && f.c == 0 && f.low0); return .pmctl (← reg7 f.a)
  | 0xC9 => do need (f.fnu && f.c == 0 && f.low0); return .qrst (← reg7 f.d) (← reg7 f.a) (← reg7 f.b)
  | _ => none

/-- Test 4 of R54: the instruction that the fields make, when each field value is one that the
instruction's description gives a meaning. -/
def decodeFields (f : Fld) (e : Ext) (ext : W64) : Option Instr :=
  if f.op.toNat < 0x30 then dInt f ext
  else if f.op.toNat < 0x50 then dFlt f
  else if f.op.toNat < 0x60 then dLane f
  else if f.op.toNat < 0x70 then dFlow f e
  else if f.op.toNat < 0x90 then dMem f e
  else if f.op.toNat < 0xB0 then dMacro f e
  else if f.op.toNat < 0xC0 then dFlow f e
  else if f.op.toNat = 0xC6 then dMem f e
  else dSys f

/-- The form of an opcode, as far as the X bit goes: X-form and M+X opcodes require X = 1, every other
opcode X = 0; `none` when OP is not an instruction (R53). -/
def opX (op : BitVec 8) : Option Bool :=
  let n := op.toNat
  if n = 0x01 ∨ (0x10 ≤ n ∧ n ≤ 0x28) ∨ (0x2A ≤ n ∧ n ≤ 0x2C) ∨ (0x30 ≤ n ∧ n ≤ 0x44)
      ∨ (0x50 ≤ n ∧ n ≤ 0x6A) ∨ (n = 0x70 ∨ n = 0x71 ∨ n = 0x73 ∨ n = 0x74 ∨ n = 0x76 ∨ n = 0x77)
      ∨ (0x7C ≤ n ∧ n ≤ 0x7F) ∨ (0x83 ≤ n ∧ n ≤ 0x8A) ∨ (n = 0x90 ∨ n = 0x91 ∨ n = 0x98)
      ∨ (0xA5 ≤ n ∧ n ≤ 0xAA) ∨ n = 0xB0 ∨ (0xB2 ≤ n ∧ n ≤ 0xB4) ∨ (0xC0 ≤ n ∧ n ≤ 0xC9) then some false
  else if n = 0x29 ∨ n = 0x72 ∨ n = 0x78 ∨ n = 0x79 ∨ n = 0x7A ∨ (0x80 ≤ n ∧ n ≤ 0x82)
      ∨ (0x92 ≤ n ∧ n ≤ 0x97) ∨ n = 0x99 ∨ (0xA0 ≤ n ∧ n ≤ 0xA4) ∨ n = 0xB1 then some true
  else none

/-- Why a word is not an instruction of the map: the names of R54's first four tests. -/
inductive Reject where
  /-- test 1: the all-zero word -/
  | zeroWord
  /-- test 2: OP 0xE0 to 0xEF, which a microcode set may provide (R57) -/
  | microcode (op : BitVec 4)
  /-- tests 2, 3 and 4 with the reason of R55 -/
  | undef (r : Reason)
  deriving DecidableEq, Repr

/-- Tests 1 to 4 of R54, in their order, on a base word and the word after it. -/
def decode (w ext : W64) : Except Reject Instr :=
  if w = 0 then .error .zeroWord
  else
    let f := Fld.of w
    match opX f.op with
    | none => if f.op.extractLsb' 4 4 = 0xE then .error (.microcode (f.op.extractLsb' 0 4)) else .error (.undef .notOp)
    | some x =>
      if f.x != x then .error (.undef .xBit)
      else match decodeFields f (Ext.of ext) ext with
        | some i => .ok i
        | none => .error (.undef .field)

/-- Every word pair stands for a step: an instruction of the map, or what R54 makes of it otherwise. -/
def decodeTotal (w ext : W64) : Instr :=
  match decode w ext with
  | .ok i => i
  | .error .zeroWord => .zeroWord
  | .error (.microcode op) => .microcodeOp op
  | .error (.undef r) => .emulate r

/-- The instruction that the decoder reads from the table's bits: bits 63:0 are the base word and bits
127:64 the extension word, and bits from `nbits` on are zero; `none` where the decoder refuses. -/
def decodeTableWord (nbits w : Nat) : Option Instr :=
  match decode (BitVec.ofNat 64 (w % 2 ^ nbits)) (BitVec.ofNat 64 (w % 2 ^ nbits / 2 ^ 64)) with
  | .ok i => some i
  | .error _ => none

/-! ### The encoder -/

/-- An instruction's fields and, in an X-form, its extension word. -/
structure Enc where
  f : Fld
  ext : Option W64
  deriving DecidableEq, Repr

def eF (op : BitVec 8) : Fld :=
  { op, u := false, x := false, fn := 0, d := 0, a := 0, b := 0, c := 0, k := 0, ty := 0, m7 := false, m6 := false,
    m5 := false, m4 := false, m3 := false, m2 := false, m1 := false, m0 := false }

def Fld.withRm (f : Fld) (r : Rm) : Fld := { f with m1 := r.b1, m0 := r.b0 }
def Fld.withSat (f : Fld) (s : Bool) : Fld := { f with m2 := s }
def Fld.withC (f : Fld) (c : BitVec 8) : Fld := { f with c }
def Fld.withB (f : Fld) (b : BitVec 8) : Fld := { f with b }

/-- The fields B, C, K, TY and MOD carrying an IMM32 (R48). -/
def Fld.withImm (f : Fld) (i : W32) : Fld :=
  { f with b := i.extractLsb' 24 8, c := i.extractLsb' 16 8, k := i.extractLsb' 12 4, ty := i.extractLsb' 8 4,
           m7 := i.getLsbD 7, m6 := i.getLsbD 6, m5 := i.getLsbD 5, m4 := i.getLsbD 4,
           m3 := i.getLsbD 3, m2 := i.getLsbD 2, m1 := i.getLsbD 1, m0 := i.getLsbD 0 }

/-- A J-form word (R48). -/
def eJ (op : BitVec 8) (k : BitVec 4) (off : BitVec 40) : Enc :=
  ⟨{ eF op with d := k ++ 0#4, a := off.extractLsb' 32 8 }.withImm (off.setWidth 32), none⟩

/-- The MOD broadcast bit of a source: set for a scalar or constant under U = 0 (R46). -/
def bcBit (u : Bool) (s : Src) : Bool := !u && !s.isVec

def eOp1 (op : BitVec 8) (fn : BitVec 6) (o : Op1) : Fld :=
  { eF op with u := !o.d.isVec, fn, d := o.d.code, a := o.a.code, k := o.k, ty := o.ty.code, m7 := bcBit (!o.d.isVec) o.a }

def eOp2 (op : BitVec 8) (fn : BitVec 6) (o : Op2) : Fld :=
  { eF op with u := !o.d.isVec, fn, d := o.d.code, a := o.a.code, b := o.b.code, k := o.k, ty := o.ty.code,
               m7 := bcBit (!o.d.isVec) o.a, m6 := bcBit (!o.d.isVec) o.b }

def eOp3 (op : BitVec 8) (o : Op3) : Fld :=
  { eF op with u := !o.d.isVec, d := o.d.code, a := o.a.code, b := o.b.code, c := o.c.code, k := o.k, ty := o.ty.code,
               m7 := bcBit (!o.d.isVec) o.a, m6 := bcBit (!o.d.isVec) o.b }

def eOpC (op : BitVec 8) (fn : BitVec 6) (o : OpC) : Enc :=
  ⟨{ eF op with fn, d := o.d.setWidth 8, a := o.a.code, b := o.b.code, k := o.k, ty := o.ty.code,
                m7 := bcBit false o.a, m6 := bcBit false o.b }, none⟩

def eShfl (fn : BitVec 6) (o : OpShfl) : Enc :=
  ⟨{ eF 0x50 with fn, d := o.d, a := o.a, b := o.b.code, k := o.k, ty := o.ty.code, m6 := bcBit false o.b }, none⟩

def eScan (fn : BitVec 6) (o : OpScan) : Fld :=
  { eF 0x52 with fn, d := o.d, a := o.a.code, k := o.k, ty := o.ty.code, m7 := bcBit false o.a }

def eRed (fn : BitVec 6) (o : OpRed) : Fld :=
  { eF 0x53 with fn, d := o.d.code, a := o.a.code, k := o.k, ty := o.ty.code, m7 := bcBit false o.a, m3 := !o.d.isVec }

def eK (op : BitVec 8) (d a b : BitVec 8) : Enc := ⟨{ eF op with d, a, b }, none⟩

def MAddr.am : MAddr → BitVec 2
  | .pair _ => 0
  | .base _ => 1
  | .idx _ _ s | .uidx _ _ s => if s then 3 else 2
def MAddr.aCode : MAddr → BitVec 8
  | .pair a => a
  | .base a => a.setWidth 8
  | .idx a _ _ => a.setWidth 8
  | .uidx a _ _ => a.setWidth 8
def MAddr.bCode : MAddr → BitVec 8
  | .pair _ | .base _ => 0
  | .idx _ b _ => b
  | .uidx _ b _ => b.setWidth 8

def eM (op : BitVec 8) (sub : BitVec 4) (d : BitVec 8) (o : OpM) : Fld :=
  { op, u := o.uni, x := false, fn := o.addr.am ++ sub, d, a := o.addr.aCode, b := o.addr.bCode,
    c := o.off.extractLsb' 4 8, k := o.off.extractLsb' 0 4, ty := o.ty.code,
    m7 := o.k.getLsbD 3, m6 := o.k.getLsbD 2, m5 := o.k.getLsbD 1, m4 := o.k.getLsbD 0,
    m3 := o.scope.b2, m2 := o.scope.b1, m1 := o.scope.b0, m0 := o.strm }

/-- An X-form instruction with layout E. -/
def eX (f : Fld) (e0 e1 e2 e3 : BitVec 8) (imm : W32) : Enc := ⟨{ f with x := true }, some (Ext.word ⟨e0, e1, e2, e3, imm⟩)⟩

def b1 (x : Bool) : BitVec 1 := BitVec.ofBool x

def eAtom (op : AtomOp) (o : OpAtom) : Enc :=
  eX (eM 0x78 op.sub (match o.d with | some d => d.code | none => 0) o.m) o.b.code
    (match o.c with | some c => c.code | none => 0) 0 0 (0#29 ++ b1 o.d.isNone ++ b1 o.rel ++ b1 o.acq)

def eCp (fn : BitVec 6) (o : OpCp) : Enc :=
  eX { eF 0x80 with fn, d := o.d.setWidth 8, a := o.a.setWidth 8, b := o.b.setWidth 8, m3 := o.e3.isSome, m4 := o.lay,
                    m5 := o.fo.isSome }
    (o.q.setWidth 8) (match o.fo with | some (x, _) => x.setWidth 8 | none => 0)
    (match o.fo with | some (_, x) => x.setWidth 8 | none => 0)
    (match o.e3 with | some x => x.setWidth 8 | none => 0) (0#28 ++ b1 o.hd ++ b1 o.hs ++ b1 false ++ b1 o.q1)

def eColl (fn : BitVec 6) (o : OpColl) : Enc :=
  eX { eF 0x82 with fn, d := o.d.setWidth 8, a := o.a.setWidth 8, b := o.b.setWidth 8, c := o.c.setWidth 8, ty := o.ty.code }
    (o.q.setWidth 8) 0 (o.e2.setWidth 8) 0 0

def scaleB (s : Option ScaleOp) : BitVec 8 := match s with | some x => x.slot.setWidth 8 | none => 0
def scaleO (s : Option ScaleOp) : BitVec 5 := match s with | some x => x.soff | none => 0

def eOm (op : BitVec 8) (o : OpOm) : Enc :=
  eX { eF op with d := o.d, a := o.a.setWidth 8, b := o.b, k := o.k, ty := o.ty.code } 0 0 0 0 o.off

def eMac (op : BitVec 8) (fn : BitVec 6) (a : BitVec 8) (k : BitVec 4) (o : OpMac) (imm : W32) : Enc :=
  eX { eF op with fn, a, k, m5 := o.cont } o.w (o.sp.setWidth 8) (o.sr.setWidth 8) 0 imm

def FiltKind.b1 : FiltKind → Bool
  | .trilinear => true
  | _ => false
def FiltKind.b0 : FiltKind → Bool
  | .bilinear => true
  | _ => false

/-- Base-form fields D, A, B, C as scalar registers. -/
def eS (op : BitVec 8) (fn : BitVec 6) (d a b c : BitVec 7) : Fld :=
  { eF op with fn, d := d.setWidth 8, a := a.setWidth 8, b := b.setWidth 8, c := c.setWidth 8 }

def Fld.withGs (f : Fld) (s : Scope) : Fld := { f with m5 := s.b2, m4 := s.b1, m3 := s.b0 }
def Fld.withK (f : Fld) (k : BitVec 4) : Fld := { f with k }
def Fld.with43 (f : Fld) (m4 m3 : Bool) : Fld := { f with m4, m3 }

/-- The encoding of each instruction that has one (R44 to R53 and the field tables of the chapters);
`none` for the steps of the part, which no word names. -/
def Instr.enc : Instr → Option Enc
  | .nop => some ⟨eF 0x01, none⟩
  | .add s o => some ⟨(eOp2 0x10 0 o).withSat s, none⟩
  | .sub s o => some ⟨(eOp2 0x11 0 o).withSat s, none⟩
  | .mul s o => some ⟨(eOp2 0x12 0 o).withSat s, none⟩
  | .mulh o => some ⟨eOp2 0x13 0 o, none⟩
  | .mad s o => some ⟨(eOp3 0x14 o).withSat s, none⟩
  | .min o => some ⟨eOp2 0x15 0 o, none⟩
  | .max o => some ⟨eOp2 0x16 0 o, none⟩
  | .abs s o => some ⟨(eOp1 0x17 0 o).withSat s, none⟩
  | .and o => some ⟨eOp2 0x18 0 o, none⟩
  | .or o => some ⟨eOp2 0x19 0 o, none⟩
  | .xor o => some ⟨eOp2 0x1A 0 o, none⟩
  | .andn o => some ⟨eOp2 0x1B 0 o, none⟩
  | .shl o => some ⟨eOp2 0x1C 0 o, none⟩
  | .shr o => some ⟨eOp2 0x1D 0 o, none⟩
  | .rot o => some ⟨eOp2 0x1E 0 o, none⟩
  | .divQuo o => some ⟨eOp2 0x1F 0 o, none⟩
  | .divRem o => some ⟨eOp2 0x1F 1 o, none⟩
  | .clz o => some ⟨eOp1 0x20 0 o, none⟩
  | .popc o => some ⟨eOp1 0x21 0 o, none⟩
  | .brev o => some ⟨eOp1 0x22 0 o, none⟩
  | .bfe o => some ⟨eOp2 0x23 0 o, none⟩
  | .bfi o => some ⟨eOp3 0x24 o, none⟩
  | .sel kc o => some ⟨(eOp2 0x25 0 o).withC (kc.setWidth 8), none⟩
  | .cmpEq o => some (eOpC 0x26 0 o)
  | .cmpNe o => some (eOpC 0x26 1 o)
  | .cmpLt o => some (eOpC 0x26 2 o)
  | .cmpLe o => some (eOpC 0x26 3 o)
  | .cmpGt o => some (eOpC 0x26 4 o)
  | .cmpGe o => some (eOpC 0x26 5 o)
  | .mov o => some ⟨eOp1 0x27 0 o, none⟩
  | .movi d wide sx imm =>
    some ⟨{ eF 0x28 with u := !d.isVec, fn := if sx then 1 else 0, d := d.code, a := if wide then 1 else 0 }.withImm imm, none⟩
  | .movx k ty d imm => some ⟨{ eF 0x29 with u := !d.isVec, x := true, d := d.code, k, ty := ty.code }, some imm⟩
  | .lea sh o => some ⟨(eOp2 0x2A 0 o).withC (sh.setWidth 8), none⟩
  | .addc kc o => some ⟨(eOp2 0x2B 0 o).withC (kc.setWidth 8), none⟩
  | .subb kc o => some ⟨(eOp2 0x2C 0 o).withC (kc.setWidth 8), none⟩
  | .fadd r s o => some ⟨((eOp2 0x30 0 o).withRm r).withSat s, none⟩
  | .fsub r s o => some ⟨((eOp2 0x31 0 o).withRm r).withSat s, none⟩
  | .fmul r s o => some ⟨((eOp2 0x32 0 o).withRm r).withSat s, none⟩
  | .fma r s o => some ⟨((eOp3 0x33 o).withRm r).withSat s, none⟩
  | .fmin o => some ⟨eOp2 0x34 0 o, none⟩
  | .fmax o => some ⟨eOp2 0x35 0 o, none⟩
  | .fscale r s o => some ⟨((eOp2 0x43 0 o).withRm r).withSat s, none⟩
  | .fcmpEq o => some (eOpC 0x36 0 o)
  | .fcmpNe o => some (eOpC 0x36 1 o)
  | .fcmpLt o => some (eOpC 0x36 2 o)
  | .fcmpLe o => some (eOpC 0x36 3 o)
  | .fcmpGt o => some (eOpC 0x36 4 o)
  | .fcmpGe o => some (eOpC 0x36 5 o)
  | .fcmpOrd o => some (eOpC 0x36 6 o)
  | .fcmpUno o => some (eOpC 0x36 7 o)
  | .fcls o => some ⟨eOp1 0x37 0 o, none⟩
  | .frnd r o => some ⟨(eOp1 0x38 0 o).withRm r, none⟩
  | .fdiv r s o => some ⟨((eOp2 0x39 0 o).withRm r).withSat s, none⟩
  | .fsqrt r o => some ⟨(eOp1 0x3A 0 o).withRm r, none⟩
  | .frcp r o => some ⟨(eOp1 0x3B 0 o).withRm r, none⟩
  | .frsq r o => some ⟨(eOp1 0x3C 0 o).withRm r, none⟩
  | .fex2 r o => some ⟨(eOp1 0x3D 0 o).withRm r, none⟩
  | .flg2 r o => some ⟨(eOp1 0x3E 0 o).withRm r, none⟩
  | .ftrigSin r o => some ⟨(eOp1 0x3F 0 o).withRm r, none⟩
  | .ftrigCos r o => some ⟨(eOp1 0x3F 1 o).withRm r, none⟩
  | .fexp o => some ⟨eOp1 0x44 0 o, none⟩
  | .cvt r s o =>
    some ⟨{ eF 0x40 with u := !o.d.isVec, d := o.d.code, a := o.a.code, c := o.src.code, k := o.k, ty := o.dst.tyCode,
                         m7 := bcBit (!o.d.isVec) o.a, m5 := o.dst.b5, m4 := o.dst.b4, m3 := o.src.b3, m2 := s,
                         m1 := r.b1, m0 := r.b0 }, none⟩
  | .pack n o => some ⟨(eOp1 0x41 0 o).withB (n.setWidth 8), none⟩
  | .unpack n o => some ⟨(eOp1 0x42 0 o).withB (n.setWidth 8), none⟩
  | .shflIdx o => some (eShfl 0 o)
  | .shflXor o => some (eShfl 1 o)
  | .shflUp o => some (eShfl 2 o)
  | .shflDown o => some (eShfl 3 o)
  | .bcast o =>
    some ⟨{ eF 0x51 with d := o.d.code, a := o.a, k := o.k, ty := o.ty.code, m3 := !o.d.isVec,
                         b := (match o.n with | .lit n => n.setWidth 8 | .sca r => r.setWidth 8),
                         m4 := (match o.n with | .lit _ => false | .sca _ => true) }, none⟩
  | .scanAdd r s o => some ⟨((eScan 0 o).withRm r).withSat s, none⟩
  | .scanMin o => some ⟨eScan 1 o, none⟩
  | .scanMax o => some ⟨eScan 2 o, none⟩
  | .scanAnd o => some ⟨eScan 3 o, none⟩
  | .scanOr o => some ⟨eScan 4 o, none⟩
  | .scanXor o => some ⟨eScan 5 o, none⟩
  | .redAdd r s o => some ⟨((eRed 0 o).withRm r).withSat s, none⟩
  | .redMin o => some ⟨eRed 1 o, none⟩
  | .redMax o => some ⟨eRed 2 o, none⟩
  | .redAnd o => some ⟨eRed 3 o, none⟩
  | .redOr o => some ⟨eRed 4 o, none⟩
  | .redXor o => some ⟨eRed 5 o, none⟩
  | .matchEq k wide d a => some ⟨{ eF 0x54 with d, a, k, ty := if wide then 5 else 0 }, none⟩
  | .lanes k wide d a => some ⟨{ eF 0x55 with d := d.setWidth 8, a, k, ty := if wide then 5 else 0 }, none⟩
  | .kand d a b => some (eK 0x56 d.code a.code b.code)
  | .kor d a b => some (eK 0x57 d.code a.code b.code)
  | .kxor d a b => some (eK 0x58 d.code a.code b.code)
  | .kandn d a b => some (eK 0x59 d.code a.code b.code)
  | .knot d a => some (eK 0x5A d.code a.code 0)
  | .kmov (.mm d a) => some (eK 0x5B d.code a.code 0)
  | .kmov (.ms d a) => some ⟨{ eF 0x5B with d := d.setWidth 8, a := a.code, m3 := true }, none⟩
  | .kmov (.sm d a) => some ⟨{ eF 0x5B with d := d.code, a := a.setWidth 8, m4 := true }, none⟩
  | .kpop d a => some (eK 0x5C (d.setWidth 8) a.code 0)
  | .kfind d a => some (eK 0x5D (d.setWidth 8) a.code 0)
  | .krank k d a => some ⟨{ eF 0x5E with d, a := a.code, k, ty := 2 }, none⟩
  | .kset d lo hi => some (eK 0x5F d.code (lo.setWidth 8) (hi.setWidth 8))
  | .br o => some (eJ 0x60 0 o)
  | .bany k o => some (eJ 0x61 k o)
  | .ball k o => some (eJ 0x62 k o)
  | .bnone k o => some (eJ 0x63 k o)
  | .split o => some (eJ 0x64 0 o)
  | .join => some ⟨eF 0x65, none⟩
  | .call o => some (eJ 0x66 0 o)
  | .calli a => some (eK 0x67 0 a 0)
  | .ret => some ⟨eF 0x68, none⟩
  | .exit => some ⟨eF 0x69, none⟩
  | .brx a => some (eK 0x6A 0 (a.setWidth 8) 0)
  | .barArrive p a b => some ⟨{ eF 0xB0 with a := a.code, b := b.code, m3 := p }, none⟩
  | .barWait a => some ⟨{ eF 0xB0 with fn := 1, a := a.code }, none⟩
  | .barSync p a b => some ⟨{ eF 0xB0 with fn := 2, a := a.code, b := b.code, m3 := p }, none⟩
  | .spawn q a b n => some (eX { eF 0xB1 with a := a.setWidth 8, b := b.code } (q.setWidth 8) 0 0 0 n)
  | .spawnL k q a b n => some (eX { eF 0xB1 with fn := 1, a, b, k } (q.setWidth 8) 0 0 0 n)
  | .ralloc n => some ⟨(eF 0xB2).withImm (n.setWidth 32), none⟩
  | .rfree n => some ⟨(eF 0xB3).withImm (n.setWidth 32), none⟩
  | .yield => some ⟨eF 0xB4, none⟩
  | .ld d m => some ⟨eM 0x70 0 d.code m, none⟩
  | .st d m => some ⟨eM 0x71 0 d.code m, none⟩
  | .ldlod o =>
    some (eX (eM 0x72 0 o.d { uni := false, addr := .idx o.sh o.vc false, off := 0, ty := if o.wide then .n64 else .b32,
                              k := o.k, scope := .wave, strm := o.strm } |> fun f => { f with fn := 16 })
      o.ve0 o.ve1 0 0 (0#25 ++ b1 o.av ++ 0#1 ++ b1 o.au ++ 0#4))
  | .pref m => some ⟨eM 0x73 0 0 m, none⟩
  | .l2pinPin d m => some ⟨eM 0x74 0 (d.setWidth 8) m, none⟩
  | .l2pinUnpin d m => some ⟨eM 0x74 1 (d.setWidth 8) m, none⟩
  | .ifence => some ⟨eF 0x76, none⟩
  | .wcntLd n => some ⟨(eF 0x77).withImm (n.setWidth 32), none⟩
  | .wcntSt n => some ⟨{ eF 0x77 with fn := 1 }.withImm (n.setWidth 32), none⟩
  | .atomAdd o => some (eAtom .add o)
  | .atomFadd o => some (eAtom .fadd o)
  | .atomMin o => some (eAtom .min o)
  | .atomMax o => some (eAtom .max o)
  | .atomAnd o => some (eAtom .and o)
  | .atomOr o => some (eAtom .or o)
  | .atomXor o => some (eAtom .xor o)
  | .atomXchg o => some (eAtom .xchg o)
  | .atomCas o => some (eAtom .cas o)
  | .atomInc o => some (eAtom .inc o)
  | .cfadd o =>
    some (eX { eF 0x79 with d := o.d.setWidth 8, a := o.a.setWidth 8, b := o.b.code, c := o.c, k := o.k,
                            ty := if o.wide then 6 else 3, m6 := bcBit false o.b }
      0 0 0 0 (0#25 ++ o.scope.code ++ 0#3 ++ b1 o.rel))
  | .cfread o =>
    some (eX { eF 0x7A with d := o.d.setWidth 8, a := o.a.setWidth 8, ty := if o.wide then 6 else 3 }
      (o.e.setWidth 8) 0 0 0 (0#25 ++ o.scope.code ++ 0#3 ++ b1 o.acq))
  | .gbindBind d a b c => some ⟨eS 0x7C 0 d a b c, none⟩
  | .gbindUnbind d a => some ⟨eS 0x7C 1 d a 0 0, none⟩
  | .gacq s d a => some ⟨(eS 0x7D 0 d a 0 0).withGs s, none⟩
  | .gacqAll s => some ⟨(eS 0x7D 1 0 0 0 0).withGs s, none⟩
  | .grel s d a => some ⟨(eS 0x7E 0 d a 0 0).withGs s, none⟩
  | .grelAll s => some ⟨(eS 0x7E 1 0 0 0 0).withGs s, none⟩
  | .gwait a b => some ⟨eS 0x7F 0 0 a b 0, none⟩
  | .cpMm o => some (eCp 0 o)
  | .cpMs o => some (eCp 1 o)
  | .cpSm o => some (eCp 2 o)
  | .cpMo o => some (eCp 3 o)
  | .cpOm o => some (eCp 4 o)
  | .cpSo o => some (eCp 5 o)
  | .cpOs o => some (eCp 6 o)
  | .cpg o =>
    some (eX { eS 0x81 0 o.d o.a o.b o.c with m3 := o.o } (o.q.setWidth 8) 0 0 (o.e3.setWidth 8)
      (0#28 ++ b1 o.hd ++ b1 o.hs ++ b1 false ++ b1 o.q1))
  | .collSum o => some (eColl 0 o)
  | .collMin o => some (eColl 1 o)
  | .collMax o => some (eColl 2 o)
  | .collGather o => some (eColl 3 o)
  | .collBcast o => some (eColl 4 o)
  | .seal d => some ⟨{ eF 0x83 with d := (match d with | some x => x.setWidth 8 | none => 0), m3 := d.isSome }, none⟩
  | .waitb a i => some ⟨{ eF 0x84 with a := a.code }.withImm i, none⟩
  | .qwait d q =>
    some ⟨{ eF 0x85 with d := (match d with | some x => x.setWidth 8 | none => 0), a := q.setWidth 8, m3 := d.isSome }, none⟩
  | .qtest d q => some ⟨{ eF 0x86 with d := d.setWidth 8, a := q.setWidth 8 }, none⟩
  | .qcan q => some ⟨{ eF 0x87 with a := q.setWidth 8 }, none⟩
  | .qdue d q => some ⟨{ eF 0x88 with d := d.setWidth 8, a := q.setWidth 8 }, none⟩
  | .sleep q => some ⟨{ eF 0x89 with a := q.setWidth 8 }, none⟩
  | .qmovSt a q => some ⟨{ eF 0x8A with d := q.setWidth 8, a := a.setWidth 8 }, none⟩
  | .qmovLd q a => some ⟨{ eF 0x8A with fn := 1, d := q.setWidth 8, a := a.setWidth 8 }, none⟩
  | .rmsync => some ⟨eF 0xC6, none⟩
  | .omclaim d a n => some ⟨{ eF 0x90 with d := d.setWidth 8, a := a.setWidth 8, b := n.setWidth 8 }, none⟩
  | .omrel a n => some ⟨{ eF 0x91 with a := a.setWidth 8, b := n.setWidth 8 }, none⟩
  | .omzero a n => some ⟨{ eF 0x98 with a := a.setWidth 8, b := n.setWidth 8 }, none⟩
  | .omld o => some (eOm 0x95 o)
  | .omst o => some (eOm 0x96 o)
  | .wload o =>
    some (eX { eF 0x92 with a := o.a.setWidth 8, b := scaleB o.scale, c := o.fmt.code, m5 := o.cont, m4 := o.scale.isSome }
      (o.q.setWidth 8) (o.sp.setWidth 8) 0 0 ((scaleO o.scale).setWidth 32))
  | .wmint o =>
    some (eX { eF 0x93 with a := o.a.setWidth 8, m5 := o.cont } (o.q.setWidth 8) (o.sp.setWidth 8) 0 0 (0#18 ++ o.off ++ 0#6))
  | .mmul o =>
    some (eX { eF 0x94 with d := o.d.setWidth 8, a := o.a.setWidth 8, b := scaleB o.scale, c := o.fmt.code, m5 := o.cont,
                            m4 := o.scale.isSome, m3 := o.z }
      (o.q.setWidth 8) (o.sp.setWidth 8) 0 0 (0#19 ++ scaleO o.scale ++ o.m))
  | .mseek o =>
    some (eX { eF 0x97 with d := o.d.setWidth 8, a := o.a.setWidth 8, b := o.b.setWidth 8, c := o.nc.setWidth 8, m5 := o.cont }
      (o.q.setWidth 8) (o.sp.setWidth 8) (o.sb.setWidth 8) (o.j.setWidth 8) (0#3 ++ o.boff ++ o.roff ++ o.nd ++ o.kd))
  | .vqtab a off => some (eX { eF 0x99 with a := a.setWidth 8 } 0 0 0 0 (off.setWidth 32))
  | .vqtabClr => some (eX { eF 0x99 with m3 := true } 0 0 0 0 0)
  | .rast o => some (eMac 0xA0 0 0 0 o 0)
  | .oblend o => some (eMac 0xA1 0 0 0 o 0)
  | .filt o =>
    some (eMac 0xA2 0 (o.a.setWidth 8) o.k o.m
      (0#25 ++ b1 o.av ++ 0#1 ++ b1 o.au ++ o.amax ++ b1 o.filt.b1 ++ b1 o.filt.b0))
  | .travClosest o => some (eMac 0xA3 0 (o.a.setWidth 8) o.k o.m 0)
  | .travAny o => some (eMac 0xA3 1 (o.a.setWidth 8) o.k o.m 0)
  | .travBox o => some (eMac 0xA3 2 (o.a.setWidth 8) o.k o.m 0)
  | .travSphere o => some (eMac 0xA3 3 (o.a.setWidth 8) o.k o.m 0)
  | .bvrefit o => some (eMac 0xA4 0 (o.a.setWidth 8) 0 o.m 0)
  | .gqpushOpen d a b c => some ⟨(eS 0xA5 0 d a b c).with43 true false, none⟩
  | .gqpushVtx k d a b c => some ⟨{ eS 0xA5 0 0 a b 0 with d, c, k }, none⟩
  | .gqpushPrim k d a b c => some ⟨{ eS 0xA5 0 0 a b 0 with d, c, k, m3 := true }, none⟩
  | .gqpushClose a b => some ⟨(eS 0xA5 0 0 a b 0).with43 true true, none⟩
  | .gqpopTake d a => some ⟨eS 0xA6 0 d a 0 0, none⟩
  | .gqpopRec k d a c => some ⟨{ eS 0xA6 0 0 a 0 0 with d, c, k, m3 := true }, none⟩
  | .gqpopFree a b => some ⟨(eS 0xA6 0 0 a b 0).with43 true false, none⟩
  | .psalloc k d c => some ⟨{ eF 0xA7 with d, c := c.setWidth 8, k, ty := 2 }, none⟩
  | .psfree k a c => some ⟨{ eF 0xA8 with a, c := c.setWidth 8, k, ty := 2 }, none⟩
  | .sqpush k a n c => some ⟨{ eF 0xA9 with a, b := n.setWidth 8, c := c.setWidth 8, k, ty := 2 }, none⟩
  | .sqpop k d n c => some ⟨{ eF 0xAA with d, b := n.setWidth 8, c := c.setWidth 8, k, ty := 2 }, none⟩
  | .trap n => some ⟨(eF 0xC0).withImm (n.setWidth 32), none⟩
  | .trapFatal n => some ⟨(eF 0xC0).withImm (1#1 ++ 0#19 ++ n), none⟩
  | .brk n => some ⟨(eF 0xC3).withImm n, none⟩
  | .svc n => some ⟨(eF 0xC4).withImm n, none⟩
  | .rdsr d r => some ⟨{ eF 0xC1 with d := d.code, a := r.num }, none⟩
  | .wrsr r b => some ⟨{ eF 0xC2 with a := r.num, b := b.code }, none⟩
  | .rdsrWindow (.wv k d w o) => some ⟨{ eF 0xC1 with d, a := w.code, b := o.setWidth 8, k, m4 := true }, none⟩
  | .rdsrWindow (.ws d w o) => some ⟨{ eF 0xC1 with d := d.setWidth 8, a := w.code, b := o.setWidth 8, m5 := true }, none⟩
  | .rdsrWindow (.wk d w o) => some ⟨{ eF 0xC1 with d := d.code, a := w.code, b := o.setWidth 8, m5 := true, m4 := true }, none⟩
  | .rdsrWindow (.ei0 d) => some ⟨{ eF 0xC1 with d := d.setWidth 8, a := 4, m5 := true }, none⟩
  | .rdsrWindow (.ei1 d) => some ⟨{ eF 0xC1 with d := d.setWidth 8, a := 5, m5 := true }, none⟩
  | .rdsrWindow (.rpc d) => some ⟨{ eF 0xC1 with d := d.setWidth 8, a := 6, m5 := true }, none⟩
  | .wrsrWindow (.wv k w b o) => some ⟨{ eF 0xC2 with a := w.code, b, c := o.setWidth 8, k, m4 := true }, none⟩
  | .wrsrWindow (.ws w b o) => some ⟨{ eF 0xC2 with a := w.code, b := b.setWidth 8, c := o.setWidth 8, m5 := true }, none⟩
  | .wrsrWindow (.wk w b o) => some ⟨{ eF 0xC2 with a := w.code, b := b.code, c := o.setWidth 8, m5 := true, m4 := true }, none⟩
  | .wrsrWindow (.rpc b) => some ⟨{ eF 0xC2 with a := 6, b := b.setWidth 8, m5 := true }, none⟩
  | .tlbinvRange r d a b c => some ⟨{ eS 0xC5 0 d a b c with m5 := r }, none⟩
  | .tlbinvCtx r d c => some ⟨{ eS 0xC5 0 d 0 0 c with m5 := r, m3 := true }, none⟩
  | .tlbinvHnd d a b c => some ⟨{ eS 0xC5 0 d a b c with m4 := true }, none⟩
  | .pmrd d => some ⟨eS 0xC7 0 d 0 0 0, none⟩
  | .pmctl a => some ⟨eS 0xC8 0 0 a 0 0, none⟩
  | .qrst d a b => some ⟨eS 0xC9 0 d a b 0, none⟩
  | _ => none

/-- The words of an instruction, base word first (R43). -/
def Instr.words (i : Instr) : List W64 :=
  match i.enc with
  | none => []
  | some e => e.f.word :: e.ext.toList

/-- How many bytes an instruction takes: 8, or 16 for an X-form (R43). -/
def Instr.size (i : Instr) : Nat :=
  match i.enc with
  | some ⟨_, some _⟩ => 16
  | _ => 8

end Sys2Proof
end

