-- ==== Sys2Proof/Machine/Map.lean ====
section
/-!
DEFINITION. Sparse maps in one canonical form (keys strictly rising, no entry equal to the default) and
tables of records keyed by a name. Memory, register files and operand memory are sparse maps.
-/

namespace Sys2Proof.Machine

/-- The value at a key; an unlisted key reads as `d`. -/
def mget {β : Type} (d : β) : List (Nat × β) → Nat → β
  | [], _ => d
  | (a, x) :: r, k => if a = k then x else mget d r k

/-- Lists a value at a key, before every greater key. -/
def mins {β : Type} : List (Nat × β) → Nat → β → List (Nat × β)
  | [], k, v => [(k, v)]
  | (a, x) :: r, k, v =>
    if k < a then (k, v) :: (a, x) :: r else if k = a then (k, v) :: r else (a, x) :: mins r k v

/-- Writes a value at a key, keeping the canonical form: a default is not listed. -/
def mset {β : Type} [DecidableEq β] (d : β) (l : List (Nat × β)) (k : Nat) (v : β) : List (Nat × β) :=
  if v = d then l.filter (fun p => p.1 != k) else mins l k v

/-- The canonical form: keys strictly rising, no default listed. -/
def mwf {β : Type} [DecidableEq β] (d : β) : List (Nat × β) → Bool
  | [] => true
  | (a, x) :: r => decide (x ≠ d) && r.all (fun p => decide (a < p.1)) && mwf d r

/-- The value listed at a key of a map whose unlisted keys read as something that depends on the key. -/
def lookup {β : Type} : List (Nat × β) → Nat → Option β
  | [], _ => none
  | (a, x) :: r, k => if a = k then some x else lookup r k

/-- Replaces the record named `k`, or adds it at the end. -/
def put {β : Type} : List (Nat × β) → Nat → β → List (Nat × β)
  | [], k, v => [(k, v)]
  | (a, x) :: r, k, v => if a = k then (k, v) :: r else (a, x) :: put r k v

/-- Drops the record named `k`. -/
def del {β : Type} (l : List (Nat × β)) (k : Nat) : List (Nat × β) := l.filter (fun p => p.1 != k)

/-- Applies `f` to the record named `k`, if there is one. -/
def upd {β : Type} : List (Nat × β) → Nat → (β → β) → List (Nat × β)
  | [], _, _ => []
  | (a, x) :: r, k, f => if a = k then (a, f x) :: r else (a, x) :: upd r k f

/-- Writes consecutive keys. -/
def msetN {β : Type} [DecidableEq β] (d : β) (m : List (Nat × β)) (k : Nat) : List β → List (Nat × β)
  | [] => m
  | x :: r => msetN d (mset d m k x) (k + 1) r

/-- Reads `n` consecutive keys. -/
def mgetN {β : Type} (d : β) (m : List (Nat × β)) (k : Nat) : Nat → List β
  | 0 => []
  | n + 1 => mget d m k :: mgetN d m (k + 1) n

/-- The first element that satisfies `p`, and the others in order. -/
def takeFirst {β : Type} (p : β → Bool) : List β → Option (β × List β)
  | [] => none
  | x :: r => if p x then some (x, r) else (takeFirst p r).map (fun y => (y.1, x :: y.2))

/-- Applies `f` to the first element that satisfies `p`. -/
def updFirst {β : Type} (p : β → Bool) (f : β → β) : List β → List β
  | [] => []
  | x :: r => if p x then f x :: r else x :: updFirst p f r

/-- Folds a function over the numbers `0 … n − 1`. -/
def forN {β : Type} (f : Nat → β → β) : Nat → β → β
  | 0, b => b
  | n + 1, b => f n (forN f n b)

end Sys2Proof.Machine
end

