-- ==== Sys2Proof/Machine/Bits.lean ====
section
/-!
DEFINITION. Bit fields, byte order (spec/00_scope.md R4), sign extension (R7) and rounding addresses.
-/

namespace Sys2Proof.Machine

/-- `x[lo + n - 1 : lo]` as a number. -/
def fld (x lo n : Nat) : Nat := (x >>> lo) % 2 ^ n

/-- `sext(x, n)` (R7). -/
def sext (x n : Nat) : Int :=
  let y := x % 2 ^ n
  if n = 0 then 0 else if 2 ^ (n - 1) ≤ y then (y : Int) - 2 ^ n else y

/-- An integer modulo `2 ^ n`. -/
def wrapI (x : Int) (n : Nat) : Nat := (x % (2 ^ n : Nat)).toNat

/-- A word from a number, modulo 2^64. -/
def w64 (n : Nat) : W64 := BitVec.ofNat 64 n

/-- A 64-bit address from an integer, modulo 2^64. -/
def addr64 (x : Int) : Nat := wrapI x 64

/-- Little-endian (R4). -/
def bytesNat : List Byte → Nat
  | [] => 0
  | b :: r => b.toNat + 256 * bytesNat r

def natBytes (x : Nat) : Nat → List Byte
  | 0 => []
  | n + 1 => BitVec.ofNat 8 x :: natBytes (x / 256) n

def zeros (n : Nat) : List Byte := List.replicate n 0

/-- `n` bytes of a list at an offset, zero beyond its end. -/
def bytesAt (l : List Byte) (o n : Nat) : List Byte :=
  let r := (l.drop o).take n
  r ++ zeros (n - r.length)

def natAt (l : List Byte) (o n : Nat) : Nat := bytesNat (bytesAt l o n)

/-- A mask with ones in bits `0 … n − 1`. -/
def ones (n : Nat) : W64 := w64 (2 ^ n - 1)

def bit (w : W64) (n : Nat) : Bool := w.getLsbD n

def setBit (w : W64) (n : Nat) (b : Bool) : W64 :=
  if b then w ||| (1#64 <<< n) else w &&& ~~~(1#64 <<< n)

/-- The bits of a mask in ascending order. -/
def bitsOf (w : W64) (n : Nat) : List Nat := (List.range n).filter (fun l => w.getLsbD l)

def maskOf (l : List Nat) : W64 := l.foldl (fun w n => setBit w n true) 0

def popcount (w : W64) : Nat := (bitsOf w 64).length

def ceilDiv (a b : Nat) : Nat := (a + b - 1) / b

/-- The 128-byte line and the 64 KiB page of an address. -/
def lineOf (a : Nat) : Nat := a / 128
def pageOf (a : Nat) : Nat := a / 65536

/-- Ascending list of the lines that `n` bytes at `a` touch. -/
def linesOf (a n : Nat) : List Nat :=
  if n = 0 then [] else (List.range (lineOf (a + n - 1) - lineOf a + 1)).map (· + lineOf a)

/-- Canonical in 57 bits (R25). -/
def canonical (a : Nat) : Bool :=
  let h := fld a 56 8
  h == 0 || h == 255

/-- Two byte ranges meet. -/
def meets (a n b m : Nat) : Bool := decide (a < b + m) && decide (b < a + n)

end Sys2Proof.Machine
end

