-- ==== Sys2Proof/Machine/Float.lean ====
section
/-!
DEFINITION. IEEE binary formats, rounding, NaNs and flags (spec/03_numbers.md R66 to R71) and the exact
arithmetic that is rounded once (R69). Patterns are numbers; flags are in `FPFLAG` order (R70).
-/

namespace Sys2Proof.Machine

/-- Exception flags: 0 INVALID, 1 DIVZERO, 2 OVERFLOW, 3 UNDERFLOW, 4 INEXACT, 5 SUBST (R70). -/
abbrev Flags := BitVec 6

def fInvalid : Flags := 1
def fDivzero : Flags := 2
def fOverflow : Flags := 4
def fUnderflow : Flags := 8
def fInexact : Flags := 16
def fSubst : Flags := 32

/-- An IEEE format (R66): mantissa field bits, exponent field bits. -/
structure Fmt where
  mb : Nat
  eb : Nat
  deriving DecidableEq, Repr

def Fmt.f32 : Fmt := ⟨23, 8⟩
def Fmt.f64 : Fmt := ⟨52, 11⟩
def Fmt.f16 : Fmt := ⟨10, 5⟩
def Fmt.bf16 : Fmt := ⟨7, 8⟩

def Fmt.bias (f : Fmt) : Nat := 2 ^ (f.eb - 1) - 1
/-- Exponent of the least subnormal's unit. -/
def Fmt.qmin (f : Fmt) : Int := 1 - (f.bias : Int) - f.mb
def Fmt.width (f : Fmt) : Nat := 1 + f.eb + f.mb
def Fmt.signBit (f : Fmt) : Nat := 2 ^ (f.eb + f.mb)
def Fmt.infPat (f : Fmt) : Nat := (2 ^ f.eb - 1) * 2 ^ f.mb
def Fmt.maxPat (f : Fmt) : Nat := f.infPat - 1
def Fmt.quiet (f : Fmt) : Nat := 2 ^ (f.mb - 1)
/-- The default NaN (R66). -/
def Fmt.nan (f : Fmt) : Nat := f.infPat + f.quiet

def Fmt.signed (f : Fmt) (neg : Bool) (p : Nat) : Nat := if neg then f.signBit + p else p

/-- What a pattern stands for: an exact finite value is `± m × 2^e`. -/
inductive FV where
  | nan
  | inf (neg : Bool)
  | fin (neg : Bool) (m : Nat) (e : Int)
  deriving DecidableEq, Repr, Inhabited

def Fmt.neg? (f : Fmt) (x : Nat) : Bool := x / f.signBit % 2 == 1
def Fmt.mag (f : Fmt) (x : Nat) : Nat := x % f.signBit
def Fmt.isNaN (f : Fmt) (x : Nat) : Bool := decide (f.infPat < f.mag x)
def Fmt.isSNaN (f : Fmt) (x : Nat) : Bool := f.isNaN x && decide (f.mag x < f.nan)
def Fmt.quieted (f : Fmt) (x : Nat) : Nat := if f.mag x < f.nan then x + f.quiet else x

def Fmt.val (f : Fmt) (x : Nat) : FV :=
  let m := f.mag x
  let e := m / 2 ^ f.mb
  let r := m % 2 ^ f.mb
  if f.infPat < m then .nan
  else if m = f.infPat then .inf (f.neg? x)
  else if e = 0 then .fin (f.neg? x) r f.qmin
  else .fin (f.neg? x) (2 ^ f.mb + r) (f.qmin + e - 1)

def bitLen (n : Nat) : Nat := if n = 0 then 0 else n.log2 + 1

/-- Whether the magnitude is rounded up, from the quotient's low bit and the rest compared with half. -/
def roundUp (rm : Rm) (neg odd : Bool) (half : Ordering) (exact : Bool) : Bool :=
  if exact then false else
  match rm with
  | .near => half == .gt || (half == .eq && odd)
  | .zero => false
  | .up => !neg
  | .down => neg

/-- `(m + θ) × 2^-s` rounded to an integer, `0 ≤ θ < 1` and `θ > 0` exactly when `sticky`;
the second value says whether it was inexact. -/
def roundShift (rm : Rm) (neg : Bool) (m s : Nat) (sticky : Bool) : Nat × Bool :=
  let q := m >>> s
  let r := m % 2 ^ s
  let half :=
    if s = 0 then Ordering.lt
    else if 2 * r < 2 ^ s then .lt else if 2 * r = 2 ^ s then (if sticky then .gt else .eq) else .gt
  let exact := r == 0 && !sticky
  (q + (if roundUp rm neg (q % 2 == 1) half exact then 1 else 0), !exact)

/-- `rnd(± (m + θ) × 2^e, f, rm)` (R68); `sat` is the saturated form. A sticky value must carry at least
`mb + 3` bits in `m`. -/
def Fmt.rnd (f : Fmt) (rm : Rm) (sat neg : Bool) (m : Nat) (e : Int) (sticky : Bool := false) : Nat × Flags :=
  if m = 0 && !sticky then (f.signed neg 0, 0) else
  let top : Int := e + bitLen m - 1
  let qe : Int := max (top - f.mb) f.qmin
  let (q, inx) :=
    if qe ≤ e then (m <<< (e - qe).toNat, sticky) else roundShift rm neg m (qe - e).toNat sticky
  let pat := (qe - f.qmin).toNat * 2 ^ f.mb + q
  let overflow :=
    match rm with
    | .near => f.signed neg (if sat then f.maxPat else f.infPat)
    | .zero => f.signed neg f.maxPat
    | .up => f.signed neg (if sat || neg then f.maxPat else f.infPat)
    | .down => f.signed neg (if sat || !neg then f.maxPat else f.infPat)
  if f.infPat ≤ pat then (overflow, fOverflow ||| fInexact) else
  let emin : Int := f.qmin + f.mb
  -- tininess after rounding: round to the full precision with an unbounded exponent
  let tiny : Bool :=
    decide (top < emin) &&
      (let ue : Int := top - f.mb
       let u := if ue ≤ e then m <<< (e - ue).toNat else (roundShift rm neg m (ue - e).toNat sticky).1
       decide (top + 1 < emin) || decide (u < 2 ^ (f.mb + 1)))
  (f.signed neg pat,
    (if inx then fInexact else 0) ||| (if tiny && inx then fUnderflow else 0))

/-- `rnd` of an exact integer multiple of a power of two. -/
def Fmt.rndI (f : Fmt) (rm : Rm) (sat : Bool) (x : Int) (e : Int) : Nat × Flags :=
  f.rnd rm sat (decide (x < 0)) x.natAbs e

/-- `rnd` of the exact quotient `± a / b × 2^e`, `b > 0`. -/
def Fmt.rndQ (f : Fmt) (rm : Rm) (sat neg : Bool) (a b : Nat) (e : Int) : Nat × Flags :=
  let k := f.mb + 4 + bitLen b
  let n := a <<< k
  f.rnd rm sat neg (n / b) (e - k) (n % b != 0)

/-- The first NaN of a list, quieted, with INVALID when any is signalling (R67). -/
def Fmt.propNaN (f : Fmt) (l : List Nat) : Option (Nat × Flags) :=
  match l.find? f.isNaN with
  | none => none
  | some x => some (f.quieted x, if l.any f.isSNaN then fInvalid else 0)

def Fmt.invalid (f : Fmt) : Nat × Flags := (f.nan, fInvalid)

/-- The exact sum of two values `± m × 2^e`, as an integer times a power of two. -/
def addExact (n1 : Bool) (m1 : Nat) (e1 : Int) (n2 : Bool) (m2 : Nat) (e2 : Int) : Int × Int :=
  let e := min e1 e2
  let a : Int := (m1 <<< (e1 - e).toNat : Nat)
  let b : Int := (m2 <<< (e2 - e).toNat : Nat)
  ((if n1 then -a else a) + (if n2 then -b else b), e)

/-- Rounds a sum, with the sign of an exact zero sum (R68). -/
def Fmt.rndSum (f : Fmt) (rm : Rm) (sat : Bool) (n1 : Bool) (m1 : Nat) (e1 : Int) (n2 : Bool) (m2 : Nat) (e2 : Int) :
    Nat × Flags :=
  let (x, e) := addExact n1 m1 e1 n2 m2 e2
  if x = 0 then (f.signed (if n1 == n2 then n1 else rm == .down) 0, 0) else f.rndI rm sat x e

/-- `fadd` (R105). -/
def Fmt.add (f : Fmt) (rm : Rm) (sat : Bool) (a b : Nat) : Nat × Flags :=
  match f.propNaN [a, b] with
  | some r => r
  | none =>
    match f.val a, f.val b with
    | .inf n, .inf n' => if n == n' then (f.signed n f.infPat, 0) else f.invalid
    | .inf n, _ => (f.signed n f.infPat, 0)
    | _, .inf n => (f.signed n f.infPat, 0)
    | .fin n m e, .fin n' m' e' => f.rndSum rm sat n m e n' m' e'
    | _, _ => f.invalid

/-- The pattern with its sign turned; a NaN stays as it is. -/
def Fmt.negate (f : Fmt) (x : Nat) : Nat :=
  if f.isNaN x then x else if f.neg? x then x - f.signBit else x + f.signBit

/-- `fsub` (R105). -/
def Fmt.sub (f : Fmt) (rm : Rm) (sat : Bool) (a b : Nat) : Nat × Flags := f.add rm sat a (f.negate b)

/-- `fmul` (R105). -/
def Fmt.mul (f : Fmt) (rm : Rm) (sat : Bool) (a b : Nat) : Nat × Flags :=
  match f.propNaN [a, b] with
  | some r => r
  | none =>
    match f.val a, f.val b with
    | .inf n, .inf n' => (f.signed (n != n') f.infPat, 0)
    | .inf n, .fin n' m _ | .fin n m _, .inf n' => if m = 0 then f.invalid else (f.signed (n != n') f.infPat, 0)
    | .fin n m e, .fin n' m' e' => f.rnd rm sat (n != n') (m * m') (e + e')
    | _, _ => f.invalid

/-- `fma`, one rounding (R105). A NaN among the operands goes before an invalid product of a zero by an infinity,
which then raises nothing (notes/assumptions/61.md). -/
def Fmt.fma (f : Fmt) (rm : Rm) (sat : Bool) (a b c : Nat) : Nat × Flags :=
  match f.propNaN [a, b, c] with
  | some r => r
  | none =>
    match f.val a, f.val b, f.val c with
    | .fin n m e, .fin n' m' e', .fin n2 m2 e2 => f.rndSum rm sat (n != n') (m * m') (e + e') n2 m2 e2
    | .fin _ _ _, .fin _ _ _, .inf n => (f.signed n f.infPat, 0)
    | x, y, z =>
      let zero : FV → Bool := fun v => match v with | .fin _ 0 _ => true | _ => false
      if zero x || zero y then f.invalid
      else
        let n := f.neg? a != f.neg? b
        match z with
        | .inf n2 => if n == n2 then (f.signed n f.infPat, 0) else f.invalid
        | _ => (f.signed n f.infPat, 0)

/-- `a × 2^b` (R105); NaN, infinity and zero pass through. -/
def Fmt.scale (f : Fmt) (rm : Rm) (sat : Bool) (a : Nat) (b : Int) : Nat × Flags :=
  match f.propNaN [a] with
  | some r => r
  | none =>
    match f.val a with
    | .fin n m e =>
      if m = 0 then (a, 0)
      -- beyond any exponent of the format the result no longer depends on b
      else f.rnd rm sat n m (e + max (-8192) (min 8192 b))
    | _ => (a, 0)

/-- Order of two values; `none` when either is a NaN (R106). -/
def Fmt.cmp (f : Fmt) (a b : Nat) : Option Ordering :=
  match f.val a, f.val b with
  | .nan, _ | _, .nan => none
  | .inf n, .inf n' => some (if n == n' then .eq else if n then .lt else .gt)
  | .inf n, _ => some (if n then .lt else .gt)
  | _, .inf n => some (if n then .gt else .lt)
  | .fin n m e, .fin n' m' e' =>
    let d := (addExact n m e (!n') m' e').1
    some (if d < 0 then .lt else if d = 0 then .eq else .gt)

def Fmt.lt (f : Fmt) (a b : Nat) : Bool := f.cmp a b == some .lt
def Fmt.le (f : Fmt) (a b : Nat) : Bool := f.cmp a b == some .lt || f.cmp a b == some .eq
def Fmt.eq (f : Fmt) (a b : Nat) : Bool := f.cmp a b == some .eq

/-- minimumNumber (`max = false`) and maximumNumber (R67): −0.0 lies below +0.0. -/
def Fmt.minmax (f : Fmt) (mx : Bool) (a b : Nat) : Nat × Flags :=
  let fl : Flags := if f.isSNaN a || f.isSNaN b then fInvalid else 0
  if f.isNaN a && f.isNaN b then (f.quieted a, fl)
  else if f.isNaN a then (b, fl)
  else if f.isNaN b then (a, fl)
  else
    let less := f.lt a b || (f.eq a b && f.neg? a && !f.neg? b)
    (if less != mx then a else b, fl)

/-- `fdiv` (R110). -/
def Fmt.div (f : Fmt) (rm : Rm) (sat : Bool) (a b : Nat) : Nat × Flags :=
  match f.propNaN [a, b] with
  | some r => r
  | none =>
    let s := f.neg? a != f.neg? b
    match f.val a, f.val b with
    | .inf _, .inf _ => f.invalid
    | .inf _, _ => (f.signed s f.infPat, 0)
    | _, .inf _ => (f.signed s 0, 0)
    | .fin _ m e, .fin _ m' e' =>
      if m' = 0 then (if m = 0 then f.invalid else (f.signed s f.infPat, fDivzero))
      else if m = 0 then (f.signed s 0, 0)
      else f.rndQ rm sat s m m' (e - e')
    | _, _ => f.invalid

/-- The pattern of 1. -/
def Fmt.one (f : Fmt) : Nat := f.bias * 2 ^ f.mb

/-- `frcp` (R110). -/
def Fmt.rcp (f : Fmt) (rm : Rm) (a : Nat) : Nat × Flags := f.div rm false f.one a

/-- Integer square root by bisection on the bits. -/
def isqrtGo (n : Nat) : Nat → Nat → Nat
  | 0, r => r
  | k + 1, r =>
    let t := r + 2 ^ k
    isqrtGo n k (if t * t ≤ n then t else r)

def isqrt (n : Nat) : Nat := isqrtGo n (bitLen n / 2 + 1) 0

/-- `fsqrt` (R110). -/
def Fmt.sqrt (f : Fmt) (rm : Rm) (a : Nat) : Nat × Flags :=
  match f.propNaN [a] with
  | some r => r
  | none =>
    match f.val a with
    | .inf n => if n then f.invalid else (f.infPat, 0)
    | .fin n m e =>
      if m = 0 then (a, 0) else if n then f.invalid else
      let k := 2 * (f.mb + 4) + (e % 2).toNat
      let x := m <<< k
      let r := isqrt x
      f.rnd rm false false r ((e - k) / 2) (r * r != x)
    | .nan => f.invalid

/-- `frsq` (R110). -/
def Fmt.rsq (f : Fmt) (rm : Rm) (a : Nat) : Nat × Flags :=
  match f.propNaN [a] with
  | some r => r
  | none =>
    match f.val a with
    | .inf n => if n then f.invalid else (0, 0)
    | .fin n m e =>
      if m = 0 then (f.signed n f.infPat, fDivzero) else if n then f.invalid else
      -- 1/√(m 2^e) = √(2^(2j - e) / m) 2^-j with 2j - e even and large
      let j := 2 * f.mb + 8 + bitLen m + (e % 2).toNat
      let x := 2 ^ (2 * j - (e % 2).toNat) / m
      let r := isqrt x
      f.rnd rm false false r (-((e + (e % 2)) / 2) - j + (if e % 2 = 0 then 0 else 1)) (r * r * m != 2 ^ (2 * j - (e % 2).toNat))
    | .nan => f.invalid

/-- The value rounded to an integer, with whether it was exact. -/
def roundInt (rm : Rm) (neg : Bool) (m : Nat) (e : Int) : Nat × Bool :=
  if 0 ≤ e then (m <<< e.toNat, false) else roundShift rm neg m (-e).toNat false

/-- `frnd` (R108). -/
def Fmt.round (f : Fmt) (rm : Rm) (a : Nat) : Nat × Flags :=
  match f.propNaN [a] with
  | some r => r
  | none =>
    match f.val a with
    | .fin n m e => if m = 0 then (a, 0) else ((f.rnd .near false n (roundInt rm n m e).1 0).1, 0)
    | _ => (a, 0)

/-- `fcls` (R107). -/
def Fmt.cls (f : Fmt) (a : Nat) : Nat :=
  let n := f.neg? a
  if f.isNaN a then (if f.isSNaN a then 256 else 512)
  else if f.mag a = f.infPat then (if n then 1 else 128)
  else if f.mag a = 0 then (if n then 8 else 16)
  else if f.mag a < 2 ^ f.mb then (if n then 4 else 32)
  else (if n then 2 else 64)

/-- `fexp`: floor(log2 |a|) as an i32 pattern (R109). -/
def Fmt.exponent (f : Fmt) (a : Nat) : Nat × Flags :=
  match f.val a with
  | .fin _ m e => if m = 0 then (0x80000000, fInvalid) else (wrapI (e + m.log2) 32, 0)
  | _ => (0x7FFFFFFF, fInvalid)

/-- A NaN carried into another format: the payload's top bits are kept (R67). -/
def Fmt.nanTo (f g : Fmt) (a : Nat) : Nat :=
  let p := f.quieted a % 2 ^ f.mb
  let q := if f.mb ≤ g.mb then p * 2 ^ (g.mb - f.mb) else p / 2 ^ (f.mb - g.mb)
  g.signed (f.neg? a) (g.infPat + (if q / g.quiet % 2 = 1 then q else q + g.quiet))

/-- Conversion between IEEE formats (R112). -/
def Fmt.convert (f g : Fmt) (rm : Rm) (sat : Bool) (a : Nat) : Nat × Flags :=
  match f.val a with
  | .nan => (f.nanTo g a, if f.isSNaN a then fInvalid else 0)
  | .inf n => (g.signed n g.infPat, 0)
  | .fin n m e => g.rnd rm sat n m e

/-- f32 shorthands, round to nearest even (`rne_f32` of R7). -/
def add32 (a b : Nat) : Nat := (Fmt.f32.add .near false a b).1
def sub32 (a b : Nat) : Nat := (Fmt.f32.sub .near false a b).1
def mul32 (a b : Nat) : Nat := (Fmt.f32.mul .near false a b).1

end Sys2Proof.Machine
end

