-- ==== Sys2Proof/Machine/Narrow.lean ====
section
/-!
DEFINITION. The narrow formats h8, h8w, h6 and h4 (spec/03_numbers.md R73 to R76), block scales (R77),
q4 and vq2 weights (R78 to R80), and the Mint (R81 to R83).
-/

namespace Sys2Proof.Machine

/-- A narrow format: mantissa bits, exponent bits and bias (R73). -/
structure NFmt where
  mb : Nat
  eb : Nat
  bias : Nat
  deriving DecidableEq, Repr

def NFmt.h8 : NFmt := ⟨3, 4, 7⟩
def NFmt.h8w : NFmt := ⟨2, 5, 15⟩
def NFmt.h6 : NFmt := ⟨2, 3, 3⟩
def NFmt.h4 : NFmt := ⟨1, 2, 1⟩

def NFmt.signBit (f : NFmt) : Nat := 2 ^ (f.eb + f.mb)
def NFmt.largest (f : NFmt) : Nat := f.signBit - 1
def NFmt.signed (f : NFmt) (neg : Bool) (c : Nat) : Nat := if neg then f.signBit + c else c

/-- The value of a code (R73): the hidden one stands for every exponent; all zeros is +0. -/
def NFmt.val (f : NFmt) (x : Nat) : FV :=
  let c := x % (2 * f.signBit)
  if c = 0 then .fin false 0 0
  else .fin (decide (f.signBit ≤ c)) (2 ^ f.mb + c % 2 ^ f.mb) (((c / 2 ^ f.mb % 2 ^ f.eb : Nat) : Int) - f.bias - f.mb)

/-- `a × 2^ea < b × 2^eb`. -/
def magLt (a : Nat) (ea : Int) (b : Nat) (eb : Int) : Ordering :=
  let e := min ea eb
  compare (a <<< (ea - e).toNat) (b <<< (eb - e).toNat)

/-- `rnd(x, f, m)` into a narrow format (R74). -/
def NFmt.rnd (f : NFmt) (rm : Rm) (x : FV) : Nat × Flags :=
  match x with
  | .nan => (f.largest, fInvalid)
  | .inf n => (f.signed n f.largest, fOverflow)
  | .fin n m e =>
    if m = 0 then (0, 0) else
    -- least magnitude of x's sign: code 1, or the sign bit alone
    let sm := if n then 2 ^ f.mb else 2 ^ f.mb + 1
    let se : Int := -(f.bias : Int) - f.mb
    let least := if n then f.signBit else 1
    if magLt m e sm se == .lt then
      let code :=
        match rm with
        | .near => if magLt (2 * m) e sm se == .gt then least else 0
        | .zero => 0
        | .up => if n then 0 else least
        | .down => if n then least else 0
      (code, fUnderflow ||| fInexact)
    else
      let qe : Int := e + m.log2 - f.mb
      let (q, inx) := if qe ≤ e then (m <<< (e - qe).toNat, false) else roundShift rm n m (qe - e).toNat false
      let pat := ((qe - se) * (2 ^ f.mb : Nat) + q - (2 ^ f.mb : Nat)).toNat
      if f.largest < pat then (f.signed n f.largest, fOverflow ||| fInexact)
      else (f.signed n pat, if inx then fInexact else 0)

/-- h6 and h4 codes widened to h8 (R76). -/
def widenH6 (x : Nat) : Nat :=
  let c := x % 64
  if c = 0 then 0 else c / 32 * 128 + (c / 4 % 8 + 4) * 8 + c % 4 * 2

def widenH4 (x : Nat) : Nat :=
  let c := x % 16
  if c = 0 then 0 else c / 8 * 128 + (c / 2 % 4 + 6) * 8 + c % 2 * 4

/-- q4: `rnd(SCALE × (q − z), bf16, 00)` (R78). -/
def q4Weight (scale q z : Nat) : Nat × Flags :=
  let f := Fmt.bf16
  let d : Int := (q : Int) - z
  match f.val scale with
  | .nan => (f.quieted scale, if f.isSNaN scale then fInvalid else 0)
  | .inf n => if d = 0 then f.invalid else (f.signed (n != decide (d < 0)) f.infPat, 0)
  | .fin n m e => f.rnd .near false (n != decide (d < 0)) (m * d.natAbs) e

/-- vq2: weight k of an index as twice its exact value (R79, R80). -/
def vq2Twice (row idx k : Nat) : Int :=
  let sgn := fld idx 1 7
  let odd := (List.range 7).foldl (fun a i => a + fld sgn i 1) 0 % 2 == 1
  let neg := if k < 7 then fld sgn k 1 == 1 else odd
  let mag : Int := (2 * fld row (2 * k) 2 + fld idx 0 1 : Nat)
  if neg then -mag else mag

/-- One step of the Mint's generator (R82). -/
def mintStep (st : Nat) : Nat × Nat :=
  let out := st / 2 ^ 63 % 2
  let st' := 2 * st % 2 ^ 64
  (out, if out = 1 then st' ^^^ 0x1B else st')

/-- The state after `n` steps. -/
def mintSkip : Nat → Nat → Nat
  | 0, st => st
  | n + 1, st => mintSkip n (mintStep st).2

/-- The start state of basis j (R82), after its 64 warm-up steps. -/
def mintStart (seed j : Nat) : Nat :=
  let st := (seed ^^^ (j * 0x9E3779B97F4A7C15 % 2 ^ 64)) % 2 ^ 64
  mintSkip 64 (if st = 0 then 1 else st)

/-- The next `n` output bits. -/
def mintBits : Nat → Nat → List Bool
  | 0, _ => []
  | n + 1, st => let r := mintStep st; (r.1 == 1) :: mintBits n r.2

/-- The signs of basis j over `kd × nd` elements, row-major; `true` is −1. -/
def mintBasis (seed j kd nd : Nat) : List Bool := mintBits (kd * nd) (mintStart seed j)

/-- One weight of a minted tile (R83): the coefficients, the signs of the element in each basis, and the
column scale; the mode of the instruction has no effect. -/
def mintWeight (coef : List Nat) (signs : List Bool) (scale : Nat) : Nat × Flags :=
  let f := Fmt.f32
  let widen (x : Nat) : Nat × Flags := Fmt.bf16.convert f .near false x
  let step := fun (acc : Nat × Flags) (p : Nat × Bool) =>
    let c := widen p.1
    -- c × ±1 is exact; a NaN keeps its bits
    let t := if p.2 then f.negate c.1 else c.1
    let r := f.add .near false acc.1 t
    (r.1, acc.2 ||| c.2 ||| r.2)
  let acc := (coef.zip signs).foldl step (0, 0)
  let s := widen scale
  let p := f.mul .near false s.1 acc.1
  let r := f.convert Fmt.bf16 .near false p.1
  (r.1, acc.2 ||| s.2 ||| p.2 ||| r.2)

end Sys2Proof.Machine
end

