-- ==== Sys2Proof/Machine/Chunk.lean ====
section
/-!
DEFINITION. The chunk codec of compressed pages (spec/05_matrix.md R139 to R142): exponent tables, their
canonical codes, when a chunk is coded, its coded form, and the expansion of a coded chunk.
-/

namespace Sys2Proof.Machine

/-- Exponent bits and mantissa bits of an element format EF (R139). -/
def efExp (ef : Nat) : Nat := if ef = 0 then 8 else if ef = 1 then 4 else 5
def efMan (ef : Nat) : Nat := if ef = 0 then 7 else if ef = 1 then 3 else 2

/-- Bytes of an element, elements of a chunk, and bytes of its signs and mantissas (R142). -/
def efSize (ef : Nat) : Nat := if ef = 0 then 2 else 1
def efCount (ef : Nat) : Nat := 2048 / efSize ef
def efSm (ef : Nat) : Nat := if ef = 2 then 768 else 1024

/-- Exponent field of an element's pattern. -/
def efExpOf (ef x : Nat) : Nat := fld x (efMan ef) (efExp ef)

/-- Code length of a symbol in a table (R141). -/
def codeLen (tables : List Host.Cell) (tab sym : Nat) : Nat :=
  fld (mget (0 : Byte) tables (128 * tab + sym / 2)).toNat (4 * (sym % 2)) 4

def codeLens (tables : List Host.Cell) (tab ef : Nat) : List Nat := (List.range (2 ^ efExp ef)).map (codeLen tables tab)

/-- A table is valid for a format (R141). -/
def tableOk (lens : List Nat) : Bool :=
  lens.all (fun n => decide (n ≤ 12)) && decide (((lens.filter (· != 0)).map (fun n => 2 ^ (12 - n))).sum ≤ 4096)

/-- The canonical codes as (length, code, symbol), in order (R141). -/
def codesFrom : List (Nat × Nat) → Nat → Nat → List (Nat × Nat × Nat)
  | [], _, _ => []
  | (len, sym) :: r, prev, code =>
    let c := code * 2 ^ (len - prev)
    (len, c, sym) :: codesFrom r len (c + 1)

def codes (lens : List Nat) : List (Nat × Nat × Nat) :=
  let ordered := (List.range 12).flatMap (fun n =>
    (((List.range lens.length).zip lens).filter (fun (x : Nat × Nat) => x.2 == n + 1)).map (fun (x : Nat × Nat) => (n + 1, x.1)))
  codesFrom ordered ((ordered.head?.map (·.1)).getD 0) 0

/-- Whether the rule of R142 codes a chunk of these bytes. -/
def chunkCodes (tables : List Host.Cell) (ef tab : Nat) (bytes : List Byte) : Bool :=
  let lens := (codeLens tables tab ef).toArray
  let used := (List.range (efCount ef)).map (fun i => (lens[efExpOf ef (natAt bytes (i * efSize ef) (efSize ef))]?).getD 0)
  tableOk lens.toList && used.all (· != 0) && decide (4 + efSm ef + ceilDiv used.sum 8 ≤ 2048)

/-- The tag of a chunk stored under an attribute (R139). -/
def chunkTag (ef tab : Nat) (coded : Bool) : Byte := if coded then BitVec.ofNat 8 (128 + ef * 32 + tab) else 0

/-! ## The coded form (R142) -/

/-- Sign and mantissa of a pattern: the sign above the mantissa. -/
def smOfPattern (ef x : Nat) : Nat := x / 2 ^ (efMan ef + efExp ef) * 2 ^ efMan ef + x % 2 ^ efMan ef

/-- The bytes that hold the signs and mantissas of a chunk's elements. -/
def smBytes (ef : Nat) (elts : List Nat) : List Byte :=
  let a := (elts.map (smOfPattern ef)).toArray
  let g := fun (i : Nat) => (a[i]?).getD 0
  if ef = 0 then (List.range 1024).map (fun i => BitVec.ofNat 8 (g i))
  else if ef = 1 then (List.range 1024).map (fun i => BitVec.ofNat 8 (g (2 * i) + 16 * g (2 * i + 1)))
  else (List.range 256).flatMap (fun k => natBytes ((List.range 8).foldl (fun v j => v + g (8 * k + j) * 8 ^ j) 0) 3)

/-- The exponent stream as a number, most significant bit first, and its length in bits. -/
def expStream (table : List (Nat × Nat × Nat)) (syms : List Nat) : Nat × Nat :=
  syms.foldl (fun (r : Nat × Nat) s =>
    match table.find? (fun (x : Nat × Nat × Nat) => x.2.2 == s) with
    | some (len, code, _) => (r.1 * 2 ^ len + code, r.2 + len)
    | none => r) (0, 0)

/-- A chunk's coded form: LINES, a zero byte, NBITS, SM and EXP; none when the rule stores it raw. -/
def codeChunk (tables : List Host.Cell) (ef tab : Nat) (bytes : List Byte) : Option (List Byte) :=
  if !chunkCodes tables ef tab bytes then none else
  let elts := (List.range (efCount ef)).map (fun i => natAt bytes (i * efSize ef) (efSize ef))
  let (v, nbits) := expStream (codes (codeLens tables tab ef)) (elts.map (efExpOf ef))
  let n := ceilDiv nbits 8
  let stream := v * 2 ^ (8 * n - nbits)
  let lines := ceilDiv (4 + efSm ef + n) 128
  some (BitVec.ofNat 8 lines :: 0 :: (natBytes nbits 2 ++ smBytes ef elts ++ (natBytes stream n).reverse))

/-- The bytes of a coded chunk that are fetched: header, SM, and the stream that NBITS counts. -/
def codedBytes (ef : Nat) (header : List Byte) : Nat := 4 + efSm ef + ceilDiv (natAt header 2 2) 8

/-! ## Expansion -/

/-- Bit i of the exponent stream: most significant bit first (R142). -/
def streamBit (a : Array Byte) (i : Nat) : Nat := if ((a[i / 8]?).getD 0).getLsbD (7 - i % 8) then 1 else 0

def streamBits (a : Array Byte) (pos : Nat) : Nat → Nat
  | 0 => 0
  | n + 1 => 2 * streamBits a pos n + streamBit a (pos + n)

/-- The next symbol, and its length. -/
def nextSym (table : List (Nat × Nat × Nat)) (a : Array Byte) (pos : Nat) : Option (Nat × Nat) :=
  (table.find? (fun (x : Nat × Nat × Nat) => streamBits a pos x.1 == x.2.1)).map (fun x => (x.2.2, x.1))

def nextSyms (table : List (Nat × Nat × Nat)) (a : Array Byte) : Nat → Nat → Option (List Nat)
  | 0, _ => some []
  | n + 1, pos =>
    match nextSym table a pos with
    | none => none
    | some (sym, len) => (nextSyms table a n (pos + len)).map (sym :: ·)

/-- Sign and mantissa of element i (R142): the sign above the mantissa. -/
def smOf (ef : Nat) (a : Array Byte) (i : Nat) : Nat :=
  let b := fun (n : Nat) => ((a[n]?).getD 0).toNat
  if ef = 0 then b (4 + i)
  else if ef = 1 then fld (b (4 + i / 2)) (4 * (i % 2)) 4
  else fld (b (4 + i / 8 * 3) + 256 * b (5 + i / 8 * 3) + 65536 * b (6 + i / 8 * 3)) (3 * (i % 8)) 3

/-- The first `n` elements of a coded chunk; none when the table is invalid or a code is missing (R286). -/
def expand (tables : List Host.Cell) (ef tab n : Nat) (bytes : List Byte) : Option (List Nat) :=
  let lens := codeLens tables tab ef
  if !tableOk lens then none else
  let a := bytes.toArray
  let s := (bytes.drop (4 + efSm ef)).toArray
  (nextSyms (codes lens) s n 0).map (fun l =>
    ((List.range n).zip l).map (fun (x : Nat × Nat) =>
      let sm := smOf ef a x.1
      sm / 2 ^ efMan ef * 2 ^ (efMan ef + efExp ef) + x.2 * 2 ^ efMan ef + sm % 2 ^ efMan ef))

end Sys2Proof.Machine
end

