-- ==== Sys2Proof/Config.lean ====
section
/-!
DEFINITION. What the spec leaves open as a value: opaque constants without a body, so that no proof can
rest on one of them (notes/assumptions/4.md and 5.md), and the module's constants (spec/00_scope.md R1,
spec/01_machine.md R9 to R12).
-/

namespace Sys2Proof.Config

/-- Periods of a core's arithmetic clock that one step of the model takes (R24). -/
opaque clocks : Nat → Nat → Nat

/-- The low 24 bits of an engine's promised completion (R214: "chooses its own estimate"). -/
opaque due : Nat → BitVec 24

/-- Where a context's operation numbers start (R19: unique, otherwise open). -/
opaque seqBase : Nat → Nat

/-- A byte of a block's scratchpad that nothing has written since the block started. -/
opaque spadByte : Nat → Nat → BitVec 8

/-- A byte of an image that the spec calls unspecified (R5, R29, R30). -/
opaque imageByte : Nat → BitVec 8

/-- Whether an access begun before `tlbinv` completes uses the old entry (R208: it may). -/
opaque tlbOld : Nat → Bool

/-- Whether a fetch uses the older word that the instruction cache holds (R207: any mixture). -/
opaque fetchOld : Nat → Bool

/-- Whether a handle check uses the cached entry (R300: it may until `tlbinv.hnd` completes). -/
opaque handleOld : Nat → Bool

/-- The L2 set of a line in its slice (R188 gives the ways, not the index). -/
opaque l2set : Nat → Nat

/-- The counts of events 0x0100 and 0x0101 (R307) that one step adds. -/
opaque fabricBytes : Nat → Nat → Nat
opaque linkFlits : Nat → Nat → Nat

/-- A byte that a peer module answers to a read through a peer window (R357). -/
opaque peerByte : Nat → Nat → BitVec 8

/-- A quantised bound of `bvrefit` that does not fit its byte (R183 gives 256 when a child lies on the far
face). -/
opaque refitByte : Nat → BitVec 8

/-- Whether a page migration still finds 64 dirty lines after its eighth round (R210). -/
opaque migrationAbandoned : Nat → Bool

/-- A byte that a host read of a doorbell page or of a PCIe window returns. -/
opaque ioByte : Nat → Nat → BitVec 8

/-- Whether a lowering of the clocks is due to the power cap, or to a die's temperature (R359). -/
opaque throttledByPower : Nat → Bool

/-- Whether an installed key verifies the signature of a microcode set's image (R361). -/
opaque ucodeSigned : Nat → List (BitVec 8) → Bool

/-- What tests 3 to 6 of R54 come to under a set's own definitions (R57): the reason of the first that fails, 1 to 4, or 0.
From the set's image, the two words, the allowance, the declared scalars and UNITDIS. -/
opaque ucodeTest : List (BitVec 8) → BitVec 64 → BitVec 64 → Nat → Nat → BitVec 16 → Nat

/-- Lines of an L1, of one way of a span's L2 slices, of an RDC and of an instruction cache (R188). -/
def l1Lines : Nat := 1024
def l2WayLines : Nat := 24576
def rdcLines : Nat := 131072
def icacheLines : Nat := 512

def cores : Nat := 192
def coresPerSpan : Nat := 24
def spans : Nat := 8
def budgetLines : Nat := 4096
def escrowEntries : Nat := 64
def clearingEntries : Nat := 4096

end Sys2Proof.Config
end

