-- ==== Sys2Proof/Machine/State.lean ====
section
/-!
DEFINITION. The state of the H9 as plain data (INVENTORY.md lists each piece with the rule that names
it), the reasons a step can stop, and the state after device reset (spec/14_system.md R360).
-/

namespace Sys2Proof.Machine

/-- The declared width of a kernel (R13 to R15, R37). -/
inductive Width where
  | w16 | w32 | w64
  deriving DecidableEq, Repr, Inhabited

/-- KIND of a reconvergence-stack entry (R20). -/
inductive EKind where
  | path | call | trap
  deriving DecidableEq, Repr, Inhabited

/-- A reconvergence-stack entry (R20); `mask` is in hardware lane order for a W = 16 pair (R13). -/
structure Entry where
  rpc : W64
  mask : W64
  jpc : W64 := 0
  sk : BitVec 4 := 0
  cause : BitVec 16 := 0
  bar : BitVec 11 := 0
  age : BitVec 8 := 0
  kind : EKind := .path
  /-- a path entry with RPC = JPC + 8 whose JPC is the PC of a `bar`, not of a `join` (R246); a trap entry
  whose RPC is a `bar.sync` that has made its arrival -/
  bw : Bool := false
  /-- a trap entry of a macro that stopped: it issues itself again without debug causes (R42, R336) -/
  quiet : Bool := false
  deriving DecidableEq, Repr, Inhabited

/-- Why a wave holds (R255, R326, R327, R320 and the instructions that wait). -/
inductive Why where
  /-- `resume_path` waits for an eligible entry; the `n` topmost entries are the ones just pushed (R247) -/
  | paths (n : Nat)
  /-- the barriers and logical waves whose bits hold it -/
  | bar (l : List (Nat × Nat))
  /-- the guard words, and the versions that they have still to reach (R229); `again` after a stop -/
  | gwait (l : List (Nat × Nat)) (again : Bool)
  | rcpt (half : Bool) (q : Nat)
  | sleep (half : Bool) (q : Nat)
  | wcnt (ld : Bool) (n : Nat)
  | waitb (l : List (Bool × W32))
  | ralloc (n : Nat)
  /-- what the instruction needs is busy or full: an engine queue, a unit, the escrow log, operand memory -/
  | room
  /-- an absent page that a macro's step met (R334) -/
  | page (p : Nat)
  /-- a `qrst` that waits for the started packets of a queue, from which nothing is consumed meanwhile (R315) -/
  | qrst (q : Nat)
  | access | score | skid | fault | fetch | unit | frozen
  deriving DecidableEq, Repr, Inhabited

/-- A wave's hold: `wait n` was last tried when the machine had made `n` changes. -/
inductive Hold where
  | none
  | wait (since : Nat) (why : Why)
  deriving DecidableEq, Repr, Inhabited

/-- The registers and special state that each logical wave holds (R15, R17, R19, R23, R203, R259). -/
structure Half where
  s : List (Nat × W64) := []
  k : List (Nat × W64) := []
  exec : W64 := 0
  q : List (Nat × W64) := []
  /-- flags that completed, unread receipts carry (R72) -/
  qflags : List (Nat × BitVec 6) := []
  ended : W64 := 0
  /-- logical lanes this half started with room for; false for an absent half (R15) -/
  present : Bool := true
  waveid : Nat := 0
  fpctl : W64 := 0
  fpflag : W64 := 0
  trapcause : W64 := 0
  trapaddr : W64 := 0
  skid : W64 := 0
  laneflt : W64 := 0
  emudepth : W64 := 0
  agelim : W64 := 64
  /-- number of the last sealed batch (R203, R238) -/
  batch : W32 := 0
  /-- the spawn operation that created this logical wave (R270) -/
  parent : Option Nat := none
  /-- flags of the macro or matrix command that has stopped at the PC (R42, R72) -/
  mflags : BitVec 6 := 0
  deriving DecidableEq, Repr, Inhabited

/-- Where a lane's access goes (R25). -/
inductive Space where
  | spad | stack | global
  deriving DecidableEq, Repr, Inhabited

/-- One lane of an outstanding access: the address (an offset in an aperture), the frame address once
translated, the operands, and the value once it is fixed. -/
structure LaneAcc where
  half : Bool
  lane : Nat
  space : Space
  va : Nat
  pa : Nat := 0
  /-- compression attribute of the page: context, format and table (R139) -/
  comp : Option (Nat × Nat × Nat) := none
  b : W64 := 0
  c : W64 := 0
  val : W64 := 0
  done : Bool := false
  deriving DecidableEq, Repr, Inhabited

/-- What an outstanding access does (R192, R217, R223). -/
inductive AccKind where
  | load (d : Dst)
  | store
  | atom (op : AtomOp) (d : Option Dst)
  deriving DecidableEq, Repr, Inhabited

/-- An outstanding access of a wave (R192, R320, R326, R327). -/
structure Access where
  kind : AccKind
  ty : Ty
  scope : Scope
  /-- its lanes, half 0 first, ascending -/
  lanes : List LaneAcc
  /-- lanes that met a permission outcome: `PERMIT` is delivered when the others are complete (R326) -/
  bad : List LaneAcc := []
  /-- instructions retired since it issued, itself included (R320) -/
  younger : Nat := 0
  /-- every lane's translation outcome is known -/
  known : Bool := false
  /-- held on an absent page (R326), or waiting for escrow room (R327) -/
  held : Bool := false
  /-- the wave issues nothing until this access is complete, and then acquires (R197) -/
  acq : Bool := false
  deriving DecidableEq, Repr, Inhabited

/-- A hardware wave (R9 to R23). -/
structure Wave where
  ctx : Nat
  launch : Nat
  block : Nat
  core : Nat
  /-- wave slots taken: bit 16p + i (R287) -/
  slots : W64
  width : Width
  /-- allowance V (R18) -/
  allow : Nat
  /-- declared scalar registers (R37) -/
  sregs : Nat
  pc : W64
  /-- vector registers, key 64 × register + hardware lane (R14, R15, R17) -/
  v : List (Nat × W32) := []
  lo : Half := {}
  hi : Half := { present := false }
  /-- reconvergence stack, top first (R20, R21) -/
  stack : List Entry := []
  acc : List Access := []
  hold : Hold := .none
  parked : Bool := false
  /-- physical address of the wave image (R28) -/
  image : Nat := 0
  /-- lines of the image that the register file of `core` does not hold (R31) -/
  missing : List Nat := []
  /-- `CCYC` of its core when it was pre-empted or parked (R35) -/
  saved : W64 := 0
  /-- when its lines became evictable (R32) -/
  left : Nat := 0
  /-- start order: age for the allowance rule (R271) -/
  born : Nat := 0
  /-- when it became resident: age for issue (R289) -/
  resident : Nat := 0
  /-- times passed over while ready (R289), and the mark of `yield` (R274) -/
  passed : Nat := 0
  yielded : Bool := false
  /-- debug causes suppressed for the next issue (R336) -/
  quiet : Bool := false
  /-- held-load escrow entries outstanding: status bit 0 (R330) -/
  heldLoad : Bool := false
  /-- a macro or matrix command in flight stopped on the PC (R42) -/
  inFlight : Bool := false
  /-- the `bar.sync` at the PC has made its arrival and is in its wait part (R265, R266); at a macro or matrix
  command of a pair, half 0 has completed its own (R15, R135) -/
  inBar : Bool := false
  deriving DecidableEq, Repr, Inhabited

/-- A named barrier (R30, R262). -/
structure Bar where
  expected : Nat := 0
  arrived : Nat := 0
  phase : Bool := false
  bitmap : BitVec 128 := 0
  deriving DecidableEq, Repr, Inhabited

/-- A detached operation's record (R243). -/
structure Detached where
  /-- the token that `qmov.st` stored (R242) -/
  tok : W64
  rcpt : W64
  flags : BitVec 6 := 0
  deriving DecidableEq, Repr, Inhabited

/-- State of a block's record in a slot table (R287). -/
inductive BState where
  | running | ended | reset | preempted
  deriving DecidableEq, Repr, Inhabited

/-- A block (R10, R11, R30, R125, R126, R130, R262, R335). -/
structure Block where
  ctx : Nat
  launch : Nat
  core : Nat
  /-- index of its bind record in the core's slot table -/
  idx : Nat
  blockid : Nat
  serial : Nat
  state : BState := .running
  image : Nat := 0
  spad : List Host.Cell := []
  bars : List (Nat × Bar) := []
  /-- claimed operand-memory slots and their bytes, key 16384 × slot + offset (R126) -/
  claimed : BitVec 48 := 0
  om : List Host.Cell := []
  /-- tags of the coded chunks that copies brought into its slots, by chunk number (R140) -/
  omTags : List (Nat × Byte) := []
  wsrc : W64 := 0
  /-- debug record as read (R335): offset and byte -/
  debug : List Host.Cell := []
  /-- the launches of the other tasks of its packed wave (R288) -/
  packed : List Nat := []
  detached : List Detached := []
  deriving DecidableEq, Repr, Inhabited

/-- A launch: its record (R38), its kernel's header (R37) and its progress (R198). -/
structure Launch where
  ctx : Nat
  /-- queue and packet index that asked for it, or the taskset and task -/
  queue : Nat
  pkt : Nat
  task : Option (Nat × Nat) := none
  lrec : Nat
  code : Nat
  entry : Nat
  gx : Nat
  gy : Nat
  gz : Nat
  waves : Nat
  stk : Nat
  args : W64
  xform : Nat
  nxf : Nat
  cls : Nat
  width : Width
  vregs : Nat
  sregs : Nat
  spad : Nat
  bars : Nat
  oms : Nat
  ucode : Nat
  begun : List Nat := []
  ended : Nat := 0
  doneg : Nat := 0
  /-- flags of its prologue transforms (R286) -/
  flags : BitVec 6 := 0
  /-- the launch whose number the escrow entries of its packed wave carry (R288, R328) -/
  lead : Option Nat := none
  deriving DecidableEq, Repr, Inhabited

/-- A binding of a byte range to a guard (R193, R227). -/
structure Binding where
  base : Nat
  len : Nat
  guard : Nat
  deriving DecidableEq, Repr, Inhabited

/-- An entry of the pending-fault table (R296, R297). -/
structure Pend where
  page : Nat
  level : Nat
  kinds : BitVec 5
  waiting : Nat
  written : Bool := false
  deriving DecidableEq, Repr, Inhabited

/-- A microcode set as registration copied it: SETID, OPS and the whole image (R361). -/
structure Ucode where
  id : Nat
  ops : BitVec 16
  image : List Byte
  deriving DecidableEq, Repr, Inhabited

/-- A registered context (R298) and what is held per context. -/
structure Ctx where
  part : Nat
  vf : Nat
  ctxid : Nat
  desc : Nat
  ptroot : Nat := 0
  spbase : Nat := 0
  stkbase : Nat := 0
  imgbase : Nat := 0
  arrbase : Nat := 0
  pbase : Nat := 0
  pguard : Nat := 0
  psize : Nat := 0
  pcount : Nat := 0
  tcbbase : Nat := 0
  rpbase : Nat := 0
  rpsize : Nat := 0
  htab : Nat := 0
  hcount : Nat := 0
  pinlim : Nat := 0
  huff : Nat := 0
  fltring : Nat := 0
  unitdis : BitVec 16 := 0
  priv : Bool := false
  debug : Nat := 0
  ucset : Nat := 0
  /-- the 16 exponent tables as read at registration (R141) -/
  tables : List Host.Cell := []
  /-- the microcode set in the protected store (R361) -/
  ucode : Option Ucode := none
  pmc : List (Nat × BitVec 48) := []
  pmsel : List (Nat × W64) := []
  binds : List Binding := []
  /-- purse: freed slots, most recent first, and the first never handed out (R184) -/
  freed : List Nat := []
  fresh : Nat := 0
  stages : List (Nat × List Nat) := []
  pending : List Pend := []
  /-- rename-pool tiles in use: address and bytes (R283) -/
  pool : List (Nat × Nat) := []
  /-- operations numbered so far (R19) -/
  seq : Nat := 0
  deriving DecidableEq, Repr, Inhabited

/-- A virtual function: interrupt record (R309), control page (R316), reset report (R347). -/
structure Vf where
  irq : Option Nat := none
  kept : W64 := 0
  op : W64 := 0
  arg0 : W64 := 0
  arg1 : W64 := 0
  arg2 : W64 := 0
  arg3 : W64 := 0
  status : W64 := 0
  result : W64 := 0
  rstcnt : W64 := 0
  rstinfo : W64 := 0
  rstaddr : W64 := 0
  deriving DecidableEq, Repr, Inhabited

/-- What a partition holds besides its table entry (R290, R302, R305). -/
structure Part where
  running : Nat := 0
  halted : Bool := false
  errcnt : W32 := 0
  qccfg : List (Nat × W64) := []
  idle : BitVec 8 := 0
  deriving DecidableEq, Repr, Inhabited

/-- A packet that has started and is not complete (R279). -/
inductive PktKind where
  | launch (l : Nat) | taskset (t : Nat) | copy (op : Nat)
  deriving DecidableEq, Repr, Inhabited

structure Pkt where
  idx : Nat
  kind : PktKind
  doneg : Nat
  deriving DecidableEq, Repr, Inhabited

/-- A registered submission queue (R277 to R281). -/
structure Queue where
  part : Nat
  vf : Nat
  q : Nat
  ctx : Nat
  desc : Nat
  rung : Nat := 0
  ridx : Nat := 0
  halted : Bool := false
  /-- held by a WAITGUARD: guard and version (R279) -/
  wait : Option (Nat × Nat) := none
  started : List Pkt := []
  deriving DecidableEq, Repr, Inhabited

/-- A surface of a TASKSET (R282). -/
structure Surf where
  base : Nat
  ntx : Nat
  nty : Nat
  tb : Nat
  deriving DecidableEq, Repr, Inhabited

/-- A tile rectangle (R282). -/
structure Rect where
  surf : Nat
  x0 : Nat
  y0 : Nat
  x1 : Nat
  y1 : Nat
  deriving DecidableEq, Repr, Inhabited

inductive TState where
  | waiting | admitted | started | retired
  deriving DecidableEq, Repr, Inhabited

/-- A task of a TASKSET (R282 to R285). -/
structure Task where
  lrec : Nat
  /-- the launch that it runs as, as the packet was read -/
  proto : Launch
  rects : List Rect
  pack : Bool
  lanes : Nat
  state : TState := .waiting
  entry : Nat := 0
  /-- tasks, of this or another taskset, that it depends on, and that depend on it -/
  preds : List (Nat × Nat) := []
  succs : List (Nat × Nat) := []
  maps : List (Nat × List Nat) := []
  copies : List (Nat × Nat × Nat) := []
  launch : Option Nat := none
  deriving DecidableEq, Repr, Inhabited

/-- What the clearing table of a span keeps for one tile of a context, named by its surface address (R283): the
address of its current version, its last writer and its readers, as taskset and task. -/
structure Tile where
  span : Nat
  ctx : Nat
  home : Nat
  cur : Nat
  pooled : Bool := false
  writer : Option (Nat × Nat) := none
  readers : List (Nat × Nat) := []
  deriving DecidableEq, Repr, Inhabited

structure TaskSet where
  ctx : Nat
  queue : Nat
  pkt : Nat
  span : Nat
  surfs : List Surf
  tasks : List Task
  /-- a task met a permission outcome: no other task of the packet starts, and it does not complete (R298) -/
  dead : Bool := false
  /-- its tiles are copied back, and its pool tiles and entries freed (R284) -/
  freed : Bool := false
  deriving DecidableEq, Repr, Inhabited

/-- Where an operation's receipt goes (R34, R214, R243). -/
inductive Target where
  | reg (w : Nat) (half : Bool) (q : Nat)
  | detached (block : Nat)
  | none
  deriving DecidableEq, Repr, Inhabited

/-- An operand of a copy: a global address, a global address under a handle, scratchpad, scratchpad under a
layout word, or operand memory. -/
inductive CpArg where
  | mem (a : Nat)
  | hnd (h a : Nat)
  | spad (o : Nat)
  | lay (base s1 m : Nat)
  | om (o : Nat)
  deriving DecidableEq, Repr, Inhabited

/-- The work of an engine operation (R230, R233, R235, R268, R279). -/
inductive EngKind where
  | copy (src dst : CpArg) (len nrow : Nat) (ss ds : Int)
  | gather (src dst : CpArg) (len nrow : Nat) (str : Int) (idx : List Nat)
  | coll (fn : Nat) (ty : Ty) (dst src n desc slot : Nat)
  | spawn (left : Nat)
  | packet (queue pkt : Nat) (src dst len : Nat)
  deriving DecidableEq, Repr, Inhabited

/-- An engine operation (R214 to R216, R230 to R243). -/
structure EngOp where
  ctx : Nat
  block : Nat
  wave : Nat
  half : Bool
  core : Nat
  queue : Bool
  kind : EngKind
  target : Target
  seq : W32
  due : BitVec 24
  /-- the sealed batch that it belongs to (R203) -/
  batch : Option W32 := none
  chunk : Nat := 0
  started : Bool := false
  cancel : Bool := false
  /-- follow-on matrix command: its words (R232) -/
  fo : Option (W64 × W64) := none
  /-- the copy is DONE and the follow-on waits for the array, or runs there (R138) -/
  copied : Bool := false
  /-- the absent page that it waits for (R215) -/
  held : Option Nat := none
  /-- what it has written of poisoned lines, in physical runs (R350) -/
  wrote : List (Nat × Nat) := []
  /-- the step of the model that accepted it -/
  born : Nat := 0
  flags : BitVec 6 := 0
  deriving DecidableEq, Repr, Inhabited

/-- What the collective engine keeps of a descriptor (R236, R346): the contexts that take part in it. -/
structure CollSt where
  desc : Nat
  ctxs : List Nat := []
  deriving DecidableEq, Repr, Inhabited

/-- A matrix command accepted or waiting at the array of a core (R135, R138). -/
structure MCmd where
  core : Nat
  wave : Nat
  half : Bool
  block : Nat
  instr : Instr
  op : Option Nat := none
  /-- accepted at the array: its checks are made (R127, R135) -/
  accepted : Bool := false
  /-- its place in the acceptance order of operand-memory slots (R128) -/
  seq : Nat := 0
  /-- it has been accepted before, and stopped (R137, R138) -/
  begun : Bool := false
  /-- the step that it makes next (R137) -/
  count : Nat := 0
  /-- `WSRC` and the operand memory that name the latched weights, as they stood at acceptance (R131, R149) -/
  ws : W64 := 0
  om : List Host.Cell := []
  flags : BitVec 6 := 0
  deriving DecidableEq, Repr

/-- Who last used the array of a core (R132, R152). -/
structure Latch where
  owner : Option Nat := none
  source : W64 := 0
  table : Option Nat := none
  deriving DecidableEq, Repr, Inhabited

/-- A macro in flight at a unit of its core (R155). -/
structure UnitOp where
  wave : Nat
  half : Bool
  core : Nat
  ctx : Nat
  instr : Instr
  /-- steps written, as the progress register counts them (R41) -/
  count : Nat := 0
  /-- it starts from its stated inputs, and no step is written yet (R41) -/
  fresh : Bool := true
  /-- the first step of this issue has been taken (R166, R176) -/
  begun : Bool := false
  /-- address of the descriptor or tree header, and its bytes as the first step read them -/
  addr : Nat := 0
  desc : List Byte := []
  /-- the handle's kind suits the macro (R300) -/
  suits : Bool := true
  /-- flags of the steps written since it was issued (R334) -/
  flags : BitVec 6 := 0
  deriving DecidableEq, Repr

/-- A queued spawn request's child: its lanes and argument for each half (R268, R269). -/
structure Child where
  ctx : Nat
  block : Nat
  op : Nat
  entry : W64
  lanes0 : Nat
  arg0 : W64
  lanes1 : Nat := 0
  arg1 : W64 := 0
  /-- a parked parent that waits for its turn to return (R269) -/
  parent : Option Nat := none
  deriving DecidableEq, Repr, Inhabited

/-- An L1 line (R188, R189), tagged by context; `vpages` are the 64 KiB pages it was reached through. -/
structure L1Line where
  core : Nat
  ctx : Nat
  line : Nat
  vpages : List Nat
  data : BitVec 1024
  valid : BitVec 128
  dirty : BitVec 128
  comp : Option (Nat × Nat × Nat) := none
  deriving DecidableEq, Repr, Inhabited

/-- A line of a span's remote-data cache (R188). -/
structure RdcLine where
  span : Nat
  ctx : Nat
  line : Nat
  vpages : List Nat
  data : BitVec 1024
  deriving DecidableEq, Repr, Inhabited

/-- A line of a core's instruction cache, by virtual line (R188, R207). -/
structure ILine where
  core : Nat
  ctx : Nat
  vline : Nat
  data : BitVec 1024
  deriving DecidableEq, Repr, Inhabited

/-- The unit whose request the part serves: its core, and the class of its launch (R290, R296). -/
structure Asker where
  core : Option Nat := none
  cls : Nat := 0
  deriving DecidableEq, Repr, Inhabited

/-- A line present in its home L2 slice, with the owner tag of the request that brought it (R188, R308). -/
structure L2Line where
  line : Nat
  dirty : Bool
  owner : Nat
  /-- element format and table of a compressed page that this line was last reached through (R139) -/
  comp : Option (Nat × Nat × Nat) := none
  /-- the way that it was allocated in (R188, R290) -/
  way : Nat := 0
  deriving DecidableEq, Repr, Inhabited

/-- An entry of a translation cache (R296): core `place`, or the shared cache of span `place - 192`. `leaf` is
the entry word of its level; a table pointer is kept under the first page that it covers. -/
structure TlbEnt where
  place : Nat := 0
  ctx : Nat
  vpage : Nat
  level : Nat
  leaf : W64
  deriving DecidableEq, Repr, Inhabited

/-- A handle-table entry (R299). -/
structure HEntry where
  addr : Nat
  len : Nat
  gen : Nat
  kind : Nat
  perm : Nat
  deriving DecidableEq, Repr, Inhabited

structure HCache where
  core : Nat
  ctx : Nat
  idx : Nat
  e : HEntry
  deriving DecidableEq, Repr, Inhabited

/-- A map word cached by a filter unit (R175). -/
structure MapWord where
  core : Nat
  ctx : Nat
  addr : Nat
  word : W64
  deriving DecidableEq, Repr, Inhabited

/-- The last entries that a filter unit has logged or dropped for a context (R174), newest first. -/
structure Recent where
  core : Nat
  ctx : Nat
  ents : List (Nat × Nat × Nat × Nat)
  deriving DecidableEq, Repr, Inhabited

/-- One lane record of a reduction's escrow entry (R328). -/
structure LaneRec where
  lane : Nat
  off : Nat
  b : W64
  c : W64
  deriving DecidableEq, Repr, Inhabited

/-- What an escrow entry holds (R328). -/
inductive EscKind where
  | store (bytes : List (Nat × Byte))
  | red (op : AtomOp) (ty : Ty) (recs : List LaneRec)
  | held (d : Dst) (ty : Ty) (uni : Bool) (lanes : List (Nat × Nat))
  deriving DecidableEq, Repr, Inhabited

/-- An entry of a core's escrow log (R328). -/
structure Escrow where
  core : Nat
  ctx : Nat
  wave : Nat
  half : Bool
  launch : Nat
  vline : Nat
  seq : Nat
  scope : Scope
  kind : EscKind
  deriving DecidableEq, Repr, Inhabited

/-- A pin (R209, R220). -/
structure Pin where
  ctx : Nat
  line : Nat
  vpage : Nat
  deriving DecidableEq, Repr, Inhabited

/-- A slot-table record as the Teller last wrote it (R287). -/
structure SlotRec where
  core : Nat
  idx : Nat
  /-- the partition and function whose slot table it stands in (R306) -/
  part : Nat
  vf : Nat
  br : BindRec
  valid : Bool
  state : BitVec 2
  block : Option Nat
  deriving DecidableEq, Repr, Inhabited

/-- A small task placed in a partly formed wave (R288): the taskset and task, its first lane, its lanes. -/
structure Placed where
  ts : Nat
  t : Nat
  at_ : Nat
  lanes : Nat
  deriving DecidableEq, Repr, Inhabited

/-- A partly formed wave of small tasks (R288): the slot-table place it will start in. -/
structure Forming where
  core : Nat
  idx : Nat
  ctx : Nat
  tasks : List Placed
  deriving DecidableEq, Repr, Inhabited

/-- A microcode key's verdict and the flash banks (R358, R360, R361); alerts of R358. -/
inductive Alert where
  | replaceRequest | linkdown | thermal | powercap | resetdone | bootfail
  deriving DecidableEq, Repr, Inhabited

/-- The management plane: what the port writes and the status block shows (R302, R350 to R361). -/
structure Mgmt where
  powered : Bool := true
  booted : Bool := true
  recovery : Bool := false
  throttled : Bool := false
  replaceRequest : Bool := false
  tripped : Bool := false
  retmask : BitVec 192 := 0
  mgmtPage : W64 := 0
  mgmtEiid : W64 := 0
  table : List PartEntry
  windows : List (Nat × W64) := []
  linkDown : BitVec 16 := 0
  /-- consecutive failed replays of a link (R356) -/
  replays : List (Nat × Nat) := []
  threshold : Nat := 64
  coreErrs : List (Nat × Nat) := []
  spanErrs : List (Nat × Nat) := []
  powerCap : Nat := 1900
  clock : Nat := 1900
  /-- the images of each bank of the flash that verify: head Teller, die Tellers, host firmware (R360) -/
  bankA : BitVec 3 := 7
  bankB : BitVec 3 := 7
  keys : List Nat := []
  alerts : List Alert := []
  deriving DecidableEq, Repr

/-- Everything that the cores, caches, engines and Tellers hold. -/
structure Mach where
  mem : List Host.Cell := []
  poison : List Nat := []
  /-- contexts that consumed poison where the reset has still to act (R350) -/
  eaten : List Nat := []
  /-- chunk tags of compressed pages, by chunk number (R139) -/
  ctags : List (Nat × Byte) := []
  /-- coded chunks in the form of R142, by chunk number -/
  coded : List (Nat × List Byte) := []
  /-- context, format and table under which a 64 KiB frame was last translated (R139, R140) -/
  attrs : List (Nat × (Nat × Nat × Nat)) := []
  l1 : List L1Line := []
  rdc : List RdcLine := []
  icache : List ILine := []
  l2 : List L2Line := []
  pins : List Pin := []
  tlb : List TlbEnt := []
  hcache : List HCache := []
  maps : List MapWord := []
  recent : List Recent := []
  ctxs : List (Nat × Ctx) := []
  vfs : List (Nat × Vf) := []
  parts : List (Nat × Part) := []
  queues : List (Nat × Queue) := []
  launches : List (Nat × Launch) := []
  tsets : List (Nat × TaskSet) := []
  /-- the clearing tables of the spans (R283) -/
  tiles : List Tile := []
  slotTab : List SlotRec := []
  forming : List Forming := []
  blocks : List (Nat × Block) := []
  waves : List (Nat × Wave) := []
  ops : List (Nat × EngOp) := []
  colls : List CollSt := []
  array : List MCmd := []
  latch : List (Nat × Latch) := []
  units : List UnitOp := []
  spawnq : List Child := []
  escrow : List Escrow := []
  /-- bytes sent to peers through peer windows, oldest first (R357) -/
  peerOut : List Host.Cell := []
  /-- last value read back by an outside master: PCIe device, application core or peer -/
  outside : List Byte := []
  /-- page migrations abandoned, as reported to system software: context and page, oldest first (R210) -/
  abandoned : List (Nat × Nat) := []
  /-- messages sent to application cores: address and identity (R309), oldest first -/
  msis : List (Nat × Nat) := []
  asker : Asker := {}
  /-- the wave that issues, and the base word of its instruction -/
  cur : Option Nat := none
  word : W64 := 0
  /-- the model's own counters: names handed out, changes made, steps, free values -/
  nextId : Nat := 1
  changes : Nat := 0
  tick : Nat := 0
  free : Nat := 0
  /-- the step of the last device reset, from which `CCYC` counts (R24) -/
  boot : Nat := 0
  deriving DecidableEq, Repr

/-- What the agenda asks for next: an event of the opcode table, the issue of a wave, or an input for
which the spec gives no step of the table (notes/assumptions/6.md). -/
inductive Action where
  | event (i : Instr)
  | issue (w : Nat)
  | registerQueue (id : Nat) (q : Queue)
  | writeQccfg (part n : Nat) (x : W64)
  /-- system software gives a collective descriptor to its participants (R234) -/
  | participants (desc : Nat) (ctxs : List Nat)
  deriving DecidableEq, Repr

structure State where
  mgmt : Mgmt
  m : Mach
  agenda : List Action := []
  deriving DecidableEq, Repr

/-- Why the machine stops with a fault. -/
inductive Fault where
  /-- The issuing wave names a context, block or launch that the state does not hold. Raised by the
  meanings through `withCur`; no run from reset reaches such a state. Safe: nothing is claimed there. -/
  | brokenState
  deriving DecidableEq, Repr

/-- Why a step has no meaning. -/
inductive Refusal where
  /-- An instruction whose meaning is not written. Raised by exec's arms alone. Safe. -/
  | notModelled (mnemonic : String)
  /-- OP 0xE0 to 0xEF that a loaded set provides: its definition is in the set (R57), not in the spec.
  Raised by the meaning of MICROCODE_OP. Safe. -/
  | microcode
  /-- A wave's instruction is executed with no issuing wave. Raised by `withCur`. Safe. -/
  | noIssuingWave
  /-- The agenda names, as an event, an instruction that only a wave issues. Raised by `step`. Safe. -/
  | notAnEvent
  deriving DecidableEq, Repr

/-- The partition table at device reset (R302). -/
def resetTable : List PartEntry :=
  { spans := 0xFF, links := 0xFFFF, fshare := 256, nvf := 1, slice := 10000 }
    :: List.replicate 7 { spans := 0, links := 0, fshare := 0, nvf := 1, slice := 10000 }

/-- Function 0 of a partition after a device reset: the report of R347, with scope 3 and its cause, kept (R309). -/
def bootVf (cause : Nat) (v : Vf) : Vf :=
  { kept := v.kept ||| 0x10000, rstcnt := v.rstcnt + 1, rstinfo := 0x30000FFFF ||| (BitVec.ofNat 64 cause <<< 16) }

/-- The machine right after device reset: bring-up is done (R360), memory is zero, partition 0 holds
every span and link (R302), and nothing is registered. -/
def State.reset : State where
  mgmt := { table := resetTable, alerts := [.resetdone] }
  m := { vfs := (List.range 8).map (fun p => (16 * p, bootVf 0 {})), msis := [(0, 0)] }

end Sys2Proof.Machine
end

