-- ==== Sys2Proof/Machine/Memory.lean ====
section
/-!
DEFINITION. Physical memory and its owners (spec/11_isolation.md R292, R303), interrupts (R309), counters
(R307, R380), page tables and translation (R293 to R297), the caches and the point of coherence
(spec/07_ordering.md R188, R189). Everything here acts on `Mach`, reading the management plane.
-/

namespace Sys2Proof.Machine

/-- A context's name: its partition and its CTXID, unique in the partition (R298). -/
def ctxKey (part ctxid : Nat) : Nat := part * 65536 + ctxid
def ctxPart (c : Nat) : Nat := c / 65536

def Mach.ctx? (m : Mach) (c : Nat) : Option Ctx := lookup m.ctxs c
def Mach.wave? (m : Mach) (w : Nat) : Option Wave := lookup m.waves w
def Mach.block? (m : Mach) (b : Nat) : Option Block := lookup m.blocks b
def Mach.launch? (m : Mach) (l : Nat) : Option Launch := lookup m.launches l

def Mach.putWave (m : Mach) (w : Nat) (x : Wave) : Mach := { m with waves := put m.waves w x }
def Mach.updCtx (m : Mach) (c : Nat) (f : Ctx → Ctx) : Mach := { m with ctxs := upd m.ctxs c f }
def Mach.updBlock (m : Mach) (b : Nat) (f : Block → Block) : Mach := { m with blocks := upd m.blocks b f }
def Mach.updWave (m : Mach) (w : Nat) (f : Wave → Wave) : Mach := { m with waves := upd m.waves w f }
def Mach.updLaunch (m : Mach) (l : Nat) (f : Launch → Launch) : Mach := { m with launches := upd m.launches l f }
def Mach.updOp (m : Mach) (o : Nat) (f : EngOp → EngOp) : Mach := { m with ops := upd m.ops o f }

/-! ## Physical addresses -/

/-- The span that homes a physical address (R292). -/
def homeSpan (pa : Nat) : Nat := fld pa 36 3

/-- A byte of memory exists at this physical address (R292). -/
def isMem (pa : Nat) : Bool := decide (pa < 2 ^ 39) && decide (pa % 2 ^ 36 < 48 * 2 ^ 30)

def spanOfCore (core : Nat) : Nat := core / 24
def cellOfCore (core : Nat) : Nat := core / 4

def Mgmt.entry (g : Mgmt) (part : Nat) : PartEntry :=
  (g.table[part]?).getD { spans := 0, links := 0, fshare := 0, nvf := 1, slice := 10000 }

def Mgmt.ownsSpan (g : Mgmt) (part span : Nat) : Bool := (g.entry part).spans.getLsbD span

/-- The frame checker of R303: memory of a span that the partition owns. -/
def Mgmt.owns (g : Mgmt) (part pa : Nat) : Bool := isMem pa && g.ownsSpan part (homeSpan pa)

/-- Bytes `[pa, pa + n)` all lie in frames of the partition: in one span, since a hole follows each (R292). -/
def Mgmt.ownsRange (g : Mgmt) (part pa n : Nat) : Bool :=
  g.owns part pa && g.owns part (pa + n - 1) && homeSpan pa == homeSpan (pa + n - 1)

def Mgmt.coresOf (g : Mgmt) (part : Nat) : List Nat := (List.range Config.cores).filter (fun c => g.ownsSpan part (spanOfCore c))

def memDefault : Byte := 0

/-- The canonical form of memory: addresses strictly rising, and no byte listed that reads as an unlisted one does. -/
def Memory.wf (l : List Host.Cell) : Bool := mwf memDefault l

def Mach.rd (m : Mach) (pa n : Nat) : List Byte := mgetN memDefault m.mem pa n
def Mach.rdN (m : Mach) (pa n : Nat) : Nat := bytesNat (m.rd pa n)

/-- Bytes at a physical address, or what the peer answers behind a peer window (R357). -/
def Mach.rdAny (m : Mach) (pa n : Nat) : List Byte :=
  if isMem pa then m.rd pa n else (List.range n).map (fun i => Config.peerByte m.tick (pa + i))

/-- Writes bytes at home; a write of a whole line clears its poison (R350). -/
def Mach.wr (m : Mach) (pa : Nat) (l : List Byte) : Mach :=
  { m with
    mem := msetN memDefault m.mem pa l
    poison := m.poison.filter (fun x => !(decide (pa ≤ x * 128) && decide (x * 128 + 128 ≤ pa + l.length))) }

/-- Writes at a physical address, or sends to the peer behind a peer window (R357). -/
def Mach.wrAny (m : Mach) (pa : Nat) (l : List Byte) : Mach :=
  if isMem pa then m.wr pa l
  else { m with peerOut := m.peerOut ++ ((List.range l.length).map (· + pa)).zip l }

def Mach.wrN (m : Mach) (pa n x : Nat) : Mach := m.wr pa (natBytes x n)

/-- The request that the part serves comes from a core, for a launch (R290, R296). -/
def Mach.serve (m : Mach) (core launch : Nat) : Mach :=
  { m with asker := { core := some core, cls := (m.launch? launch).elim 0 (fun l => l.cls) } }

/-- The same for a wave, and for an operation of a block. -/
def Mach.askWave (m : Mach) (w : Wave) : Mach := m.serve w.core w.launch
def Mach.askOp (m : Mach) (o : EngOp) : Mach := m.serve o.core ((m.block? o.block).elim 0 (fun b => b.launch))

/-- Copies `n` bytes between frames: bytes and poison. -/
def Mach.moveBytes (m : Mach) (old new n : Nat) : Mach :=
  let inFrame := fun (f a : Nat) => decide (f ≤ a) && decide (a < f + n)
  let moved := m.mem.filter (fun (x : Host.Cell) => inFrame old x.1)
  { m with
    mem := moved.foldl (fun (l : List Host.Cell) x => mset memDefault l (x.1 - old + new) x.2) (m.mem.filter (fun (x : Host.Cell) => !inFrame new x.1))
    poison := (m.poison.filter (fun x => !inFrame new (128 * x)))
                ++ ((m.poison.filter (fun x => inFrame old (128 * x))).map (fun x => x + new / 128 - old / 128)) }

/-- Whether any byte of a range is poisoned at home (R350). -/
def Mach.poisoned (m : Mach) (pa n : Nat) : Bool := (linesOf pa n).any (fun x => m.poison.contains x)

/-- Bytes of a run lie in a poisoned line. -/
def Mach.poisonedRun (m : Mach) (r : Nat × Nat) : Bool := !m.poison.isEmpty && m.poisoned r.1 r.2

/-- Runs that one store or copy wrote together clear the poison of the lines that they cover whole (R350). -/
def Mach.clearPoison (m : Mach) (runs : List (Nat × Nat)) : Mach :=
  { m with poison := m.poison.filter (fun x =>
      !(List.range 128).all (fun i => runs.any (fun r => decide (r.1 ≤ 128 * x + i) && decide (128 * x + i < r.1 + r.2)))) }

/-- A context uses bytes at home: poison among them starts its reset (R350). -/
def Mach.eat (m : Mach) (c pa n : Nat) : Mach :=
  if m.poison.isEmpty || !m.poisoned pa n then m else { m with eaten := if m.eaten.contains c then m.eaten else m.eaten ++ [c] }

/-! ## Interrupts and counters -/

def vfKey (part vf : Nat) : Nat := part * 16 + vf
def Mach.vf (m : Mach) (part vf : Nat) : Vf := (lookup m.vfs (vfKey part vf)).getD {}
def Mach.putVf (m : Mach) (part vf : Nat) (x : Vf) : Mach := { m with vfs := put m.vfs (vfKey part vf) x }
def Mach.part (m : Mach) (p : Nat) : Part := (lookup m.parts p).getD {}
def Mach.putPart (m : Mach) (p : Nat) (x : Part) : Mach := { m with parts := put m.parts p x }

/-- The slice in which a context's function holds the cores of its partition (R305). -/
def Mach.duty (m : Mach) (c : Nat) : Bool := match m.ctx? c with | some x => (m.part x.part).running == x.vf | none => false

/-- ORs causes into PEND and sends the message when enabled; keeps them while no record is set (R309). -/
def Mach.interrupt (m : Mach) (part vf : Nat) (bits : W64) : Mach :=
  let v := m.vf part vf
  match v.irq with
  | none => m.putVf part vf { v with kept := v.kept ||| bits }
  | some r =>
    let m := m.wrN (r + 0x10) 8 ((w64 (m.rdN (r + 0x10) 8)) ||| bits).toNat
    if m.rdN (r + 0x0C) 1 % 2 = 1 then
      { m with msis := m.msis ++ [(m.rdN r 8, m.rdN (r + 8) 4)] }
    else m

def irqQueue : W64 := 1
def irqFault : W64 := 2
def irqReset : W64 := w64 (2 ^ 16)
def irqWrap (i : Nat) : W64 := w64 (4 + 2 ^ (8 + i))

/-- Adds `n` events `ev` to counter `i` of a context (R307, R308). -/
def Mach.countOne (m : Mach) (c ev n i : Nat) : Mach :=
  match m.ctx? c with
  | none => m
  | some x =>
    let sel := mget 0 x.pmsel i
    if !m.duty c || !bit sel 63 || fld sel.toNat 0 16 != ev || ev = 0 || n = 0 then m
    else if 0x100 ≤ ev && !x.priv then m
    else
      let v := (mget 0 x.pmc i).toNat + n
      let m := m.updCtx c (fun x => { x with pmc := mset 0 x.pmc i (BitVec.ofNat 48 v) })
      if 2 ^ 48 ≤ v && bit sel 62 then m.interrupt x.part x.vf (irqWrap i) else m

def Mach.count (m : Mach) (c ev n : Nat) : Mach := forN (fun i m => m.countOne c ev n i) 8 m

/-! ## Compressed pages (R139, R140) -/

/-- The attribute under which a line's frame was last translated. -/
def Mach.attrOf (m : Mach) (line : Nat) : Option (Nat × Nat × Nat) := lookup m.attrs (line / 512)

/-- Re-codes the chunk of a line under a page's attribute (R140, R142): the coded form stands in the stack, and `mem`
keeps the expanded bytes that every access sees. -/
def Mach.recode (m : Mach) (line c ef tab : Nat) : Mach :=
  let chunk := line / 16
  let tables := match m.ctx? c with | some x => x.tables | none => []
  match codeChunk tables ef tab (m.rd (2048 * chunk) 2048) with
  | some l => { m with ctags := mset 0 m.ctags chunk (chunkTag ef tab true), coded := put m.coded chunk l }
  | none => { m with ctags := mset 0 m.ctags chunk (chunkTag ef tab false), coded := del m.coded chunk }

/-- A dirty line is written back from its slice: a chunk of a compressed page is coded again. -/
def Mach.l2WriteBack (m : Mach) (x : L2Line) : Mach :=
  if !x.dirty then m else
  match x.comp <|> m.attrOf x.line with
  | some (c, ef, tab) => m.recode x.line c ef tab
  | none => m

/-! ## The home L2 -/

/-- A class register of a partition; at creation a class has all ways, SHARE 32 and LEND 1 (R290). -/
def Part.qc (p : Part) (n : Nat) : W64 := (lookup p.qccfg n).getD 0x120FFFF

/-- The ways in which the request that the part serves may allocate for an owner (R290). -/
def Mach.ways (m : Mach) (owner : Nat) : List Nat :=
  match m.ctx? owner with
  | some x => (List.range 16).filter (fun i => bit ((m.part x.part).qc m.asker.cls) i)
  | none => List.range 16

/-- Whether a line is pinned (R209). -/
def Mach.pinned (m : Mach) (line : Nat) : Bool := m.pins.any (fun p => p.line == line)

/-- The way that a new line takes in its span's slices: one with room, else that of the oldest line there without a
pin, which leaves. The index of a slice is open (R188), so the lines of a way are counted, not their sets
(notes/assumptions/53.md). -/
def Mach.l2Room (m : Mach) (line : Nat) (ways : List Nat) : Option Nat × Mach :=
  let mine := m.l2.filter (fun y => homeSpan (128 * y.line) == homeSpan (128 * line))
  match ways.find? (fun w => decide ((mine.filter (fun y => y.way == w)).length < Config.l2WayLines)) with
  | some w => (some w, m)
  | none =>
    match mine.find? (fun y => ways.contains y.way && !m.pinned y.line) with
    | some y => (some y.way, { m.l2WriteBack y with l2 := m.l2.filter (fun z => z.line != y.line) })
    | none => (none, m)

/-- A line becomes present in its slice, with the tag of the request that brought it (R188, R308). A class without ways
allocates none, and its write leaves the chunk raw. -/
def Mach.l2Touch (m : Mach) (owner line : Nat) (dirty : Bool) (comp : Option (Nat × Nat × Nat)) : Mach :=
  if m.l2.any (fun x => x.line == line) then
    { m with l2 := updFirst (fun x => x.line == line)
                     (fun x => { x with dirty := x.dirty || dirty, comp := if comp.isSome then comp else x.comp }) m.l2 }
  else
    let ways := m.ways owner
    let (way, m) := if decide (m.l2.length < Config.l2WayLines) then (ways.head?, m) else m.l2Room line ways
    match way with
    | some way => { m with l2 := m.l2 ++ [{ line, dirty, owner, comp, way }] }
    | none => if dirty then { m with ctags := mset 0 m.ctags (line / 16) 0, coded := del m.coded (line / 16) } else m

/-- A request of a context for a line at its home: counts events 4 and 5 (R380), unless the request has named the line
before. -/
def Mach.l2Req (m : Mach) (c line : Nat) (dirty : Bool) (comp : Option (Nat × Nat × Nat) := none) (again : Bool := false) : Mach :=
  let miss := !m.l2.any (fun x => x.line == line)
  let m := m.l2Touch c line dirty comp
  if again then m else
  let m := m.count c 4 1
  if miss then m.count c 5 1 else m

def Mach.l2Reqs (m : Mach) (c pa n : Nat) (dirty : Bool) (comp : Option (Nat × Nat × Nat) := none) : Mach :=
  (linesOf pa n).foldl (fun m l => m.l2Req c l dirty comp) m

/-- The 128 bytes of a line as it stands at home. -/
def Mach.homeLine (m : Mach) (line : Nat) : BitVec 1024 := BitVec.ofNat 1024 (m.rdN (line * 128) 128)

def lineByte (d : BitVec 1024) (o : Nat) : Byte := d.extractLsb' (8 * o) 8

def setLineByte (d : BitVec 1024) (o : Nat) (b : Byte) : BitVec 1024 :=
  (d &&& ~~~((255#1024) <<< (8 * o))) ||| (b.setWidth 1024 <<< (8 * o))

/-! ## L1 and the remote-data cache -/

def L1Line.is (x : L1Line) (core c line : Nat) : Bool := x.core == core && x.ctx == c && x.line == line

/-- Sends a line's dirty bytes to its home; the line stays, clean (R189). A remote line leaves the writing
span's RDC in the same step. -/
def Mach.l1Flush (m : Mach) (x : L1Line) : Mach :=
  if x.dirty = 0 then m else
  let mem := (List.range 128).foldl
    (fun mem o => if x.dirty.getLsbD o then mset memDefault mem (x.line * 128 + o) (lineByte x.data o) else mem) m.mem
  let m := { m with mem, poison := if x.dirty = BitVec.allOnes 128 then m.poison.filter (· != x.line) else m.poison }
  let m := m.l2Touch x.ctx x.line true x.comp
  { m with
    rdc := m.rdc.filter (fun r => !(r.span == spanOfCore x.core && r.line == x.line))
    l1 := m.l1.map (fun (y : L1Line) => if y.is x.core x.ctx x.line then { y with dirty := 0 } else y) }

/-- Writes back the dirty bytes of every L1 line that `p` selects. -/
def Mach.l1FlushAll (m : Mach) (p : L1Line → Bool) : Mach := (m.l1.filter p).foldl (fun m x => m.l1Flush x) m

/-- Writes back and then drops every L1 line that `p` selects. -/
def Mach.l1Drop (m : Mach) (p : L1Line → Bool) : Mach :=
  let m := m.l1FlushAll p
  { m with l1 := m.l1.filter (fun x => !p x) }

def Mach.rdcDrop (m : Mach) (p : RdcLine → Bool) : Mach := { m with rdc := m.rdc.filter (fun x => !p x) }

/-- Room for one more line in a core's L1: the oldest leaves a full one (R188). -/
def Mach.l1Room (m : Mach) (core : Nat) : Mach :=
  if decide (m.l1.length < Config.l1Lines) then m else
  let mine := m.l1.filter (fun x => x.core == core)
  if mine.length < Config.l1Lines then m else
  match mine.head? with
  | some y => m.l1Drop (fun x => x.is y.core y.ctx y.line)
  | none => m

/-- Room for one more line in a span's RDC. -/
def Mach.rdcRoom (m : Mach) (span : Nat) : Mach :=
  if decide (m.rdc.length < Config.rdcLines) then m else
  let mine := m.rdc.filter (fun x => x.span == span)
  if mine.length < Config.rdcLines then m else
  match mine.head? with
  | some y => m.rdcDrop (fun x => x.span == y.span && x.ctx == y.ctx && x.line == y.line)
  | none => m

def addPage (l : List Nat) (p : Nat) : List Nat := if l.contains p then l else l ++ [p]

/-- The line as the fabric gives it to a core: from home, or through the span's RDC (R188). A line that the RDC holds
through other pages of the frame is read again, since what ended its copies for this page passed it by (R195, R208). -/
def Mach.fetchLine (m : Mach) (core c line vpage : Nat) (comp : Option (Nat × Nat × Nat)) : BitVec 1024 × Mach :=
  let span := spanOfCore core
  if homeSpan (line * 128) = span then (m.homeLine line, m.l2Req c line false comp)
  else
    match m.rdc.find? (fun r => r.span == span && r.ctx == c && r.line == line) with
    | some r =>
      let d := if r.vpages.contains vpage then r.data else m.homeLine line
      let new : RdcLine → RdcLine := fun r => { r with data := d, vpages := addPage r.vpages vpage }
      (d, { m.count c 6 1 with rdc := updFirst (fun r => r.span == span && r.ctx == c && r.line == line) new (m.count c 6 1).rdc })
    | none =>
      let d := m.homeLine line
      let m := (m.l2Req c line false comp).rdcRoom span
      (d, { m with rdc := m.rdc ++ [{ span, ctx := c, line, vpages := [vpage], data := d }] })

def spreadMask (v : BitVec 128) : BitVec 1024 :=
  (List.range 128).foldl (fun (a : BitVec 1024) o => if v.getLsbD o then a ||| ((255#1024) <<< (8 * o)) else a) 0

/-- A line that L1 holds through other pages of its frame is met through this one: its clean bytes are read again
(R195, R208). -/
def Mach.meetLine (m : Mach) (core c line vpage : Nat) : Mach :=
  let fresh : L1Line → L1Line := fun x =>
    if x.vpages.contains vpage then x else
    let k := spreadMask x.dirty
    { x with data := (x.data &&& k) ||| (m.homeLine line &&& ~~~k), vpages := addPage x.vpages vpage }
  { m with l1 := updFirst (fun y => y.is core c line) fresh m.l1 }

/-- Makes a whole line valid in a core's L1 and returns its bytes. -/
def Mach.l1Load (m : Mach) (core c line vpage : Nat) (comp : Option (Nat × Nat × Nat)) : BitVec 1024 × Mach :=
  let m := m.meetLine core c line vpage
  match m.l1.find? (fun x => x.is core c line) with
  | some x =>
    if x.valid = BitVec.allOnes 128 then (x.data, m)
    else
      let (d, m) := (m.count c 3 1).fetchLine core c line vpage comp
      let k := spreadMask x.valid
      let d := (x.data &&& k) ||| (d &&& ~~~k)
      (d, { m with l1 := updFirst (fun y => y.is core c line)
                          (fun y => { y with data := d, valid := BitVec.allOnes 128 }) m.l1 })
  | none =>
    let (d, m) := ((m.count c 3 1).l1Room core).fetchLine core c line vpage comp
    (d, { m with l1 := m.l1 ++ [{ core, ctx := c, line, vpages := [vpage], data := d, valid := BitVec.allOnes 128, dirty := 0, comp }] })

/-- Performs a store of bytes within one line in L1 (R189). -/
def Mach.l1Store (m : Mach) (core c line vpage off : Nat) (comp : Option (Nat × Nat × Nat)) (l : List Byte) : Mach :=
  let ib := (List.range l.length).zip l
  let mask : BitVec 128 := ib.foldl (fun k p => k ||| (1#128 <<< (off + p.1))) 0
  let put : BitVec 1024 → BitVec 1024 := fun d => ib.foldl (fun d p => setLineByte d (off + p.1) p.2) d
  let m := m.meetLine core c line vpage
  if m.l1.any (fun x => x.is core c line) then
    { m with l1 := updFirst (fun x => x.is core c line)
                     (fun x => { x with data := put x.data, valid := x.valid ||| mask, dirty := x.dirty ||| mask }) m.l1 }
  else
    let m := (m.count c 3 1).l1Room core
    { m with l1 := m.l1 ++ [{ core, ctx := c, line, vpages := [vpage], data := put 0, valid := mask, dirty := mask, comp }] }

/-! ## Page tables -/

/-- What a walk, or a cached leaf, gives (R295). `perm true` adds 1 to the partition's error count. -/
inductive XRes where
  | ok (pa : Nat) (leaf : W64) (level : Nat)
  | absent (level : Nat)
  | perm (counted : Bool)
  deriving DecidableEq, Repr, Inhabited

/-- The permissions an access needs (R294). -/
structure Need where
  r : Bool := false
  w : Bool := false
  x : Bool := false
  deriving DecidableEq, Repr, Inhabited

def needR : Need := { r := true }
def needW : Need := { w := true }
def needRW : Need := { r := true, w := true }
def needX : Need := { x := true }

/-- Lowest address bit that a level indexes, its index bits, and the size of the table (R293). -/
def levelShift : Nat → Nat
  | 0 => 43 | 1 => 29 | 2 => 21 | _ => 16
def levelBits : Nat → Nat
  | 0 => 14 | 1 => 14 | 2 => 8 | _ => 5

def peerWindowOf (pa : Nat) : Nat := fld pa 42 4

/-- Whether a leaf may name this frame: memory of the partition, or a peer window whose word is valid and
whose links are the partition's (R303, R354). -/
def Mgmt.frameOk (g : Mgmt) (part pa : Nat) : Bool :=
  if isMem pa then g.ownsSpan part (homeSpan pa)
  else if fld pa 46 6 = 48 then
    let w := mget 0 g.windows (peerWindowOf pa)
    bit w 63 && ((w.extractLsb' 32 16) &&& ~~~(g.entry part).links) == 0
  else false

/-- Every link of the window is down (R357). -/
def Mgmt.windowDown (g : Mgmt) (pa : Nat) : Bool :=
  if isMem pa then false
  else ((mget 0 g.windows (peerWindowOf pa)).extractLsb' 32 16 &&& ~~~g.linkDown) == 0

/-- The checks that a leaf meets at a level, in the order of R295. -/
def leafRes (g : Mgmt) (part va : Nat) (need : Need) (level : Nat) (e : W64) : XRes :=
  let x := e.toNat
  let sh := levelShift level
  let frame := fld x 16 36 * 65536
  if fld x 52 12 != 0 || fld x 13 3 != 0 || bit e 5 || level = 0 || frame % 2 ^ sh != 0 || (bit e 6 && fld x 7 2 == 3) then .perm true
  else
    let pa := frame + va % 2 ^ sh
    if !g.frameOk part pa then .perm true
    else if (need.r && !bit e 2) || (need.w && !bit e 3) || (need.x && !bit e 4) then .perm true
    else if g.windowDown pa then .perm false
    else .ok pa e level

/-- The walk from a table at a level (R293 to R295); `fuel` is the number of levels left. -/
def walkGo (g : Mgmt) (m : Mach) (part va : Nat) (need : Need) : Nat → Nat → Nat → XRes
  | 0, _, _ => .perm true
  | fuel + 1, level, table =>
    let ea := table + 16 * fld va (levelShift level) (levelBits level)
    if !g.owns part ea then .perm true else
    let e := w64 (m.rdN ea 8)
    if !bit e 0 then .absent level
    else if bit e 1 then leafRes g part va need level e
    else
      let x := e.toNat
      let next := fld x 9 43 * 512
      let size := if level = 0 then 2 ^ 18 else if level = 1 then 4096 else 512
      if level = 3 || fld x 52 12 != 0 || fld x 2 7 != 0 || next % size != 0 then .perm true
      else walkGo g m part va need fuel (level + 1) next

def walk (g : Mgmt) (m : Mach) (x : Ctx) (va : Nat) (need : Need) : XRes := walkGo g m x.part va need 4 0 x.ptroot

/-- Adds 1 to a partition's error count, saturating (R302). -/
def Mach.errcnt (m : Mach) (part : Nat) : Mach :=
  let p := m.part part
  m.putPart part { p with errcnt := if p.errcnt = BitVec.allOnes 32 then p.errcnt else p.errcnt + 1 }

/-- The entries that a walk reads on its way: level, address and word. -/
def walkPath (g : Mgmt) (m : Mach) (part va : Nat) : Nat → Nat → Nat → List (Nat × Nat × W64)
  | 0, _, _ => []
  | fuel + 1, level, table =>
    let ea := table + 16 * fld va (levelShift level) (levelBits level)
    if !g.owns part ea then [] else
    let e := w64 (m.rdN ea 8)
    (level, ea, e) :: (if !bit e 0 || bit e 1 then [] else walkPath g m part va fuel (level + 1) (fld e.toNat 9 43 * 512))

/-! ## Translation caches (R296) -/

/-- The first page that an entry of a level covers, around a page. -/
def levelPage (page level : Nat) : Nat := page - page % 2 ^ (levelShift level - 16)

/-- The caches that a request uses: its core's, then the shared one of the core's span. A request of no core walks. -/
def Mach.tlbPlaces (m : Mach) : List Nat :=
  match m.asker.core with
  | some n => [n, Config.cores + spanOfCore n]
  | none => []

/-- The leaf that the caches hold for a page. -/
def Mach.cachedLeaf (m : Mach) (c page : Nat) : Option TlbEnt :=
  m.tlbPlaces.findSome? (fun p => m.tlb.find? (fun t => t.place == p && t.ctx == c && t.vpage == page && bit t.leaf 1))

/-- The deepest table pointer that the caches hold for a page. -/
def Mach.cachedPtr (m : Mach) (c page : Nat) : Option TlbEnt :=
  [2, 1, 0].findSome? (fun lv => m.tlbPlaces.findSome? (fun p =>
    m.tlb.find? (fun t => t.place == p && t.ctx == c && t.level == lv && t.vpage == levelPage page lv && !bit t.leaf 1)))

/-- Enters a leaf into the caches of the request. -/
def Mach.tlbFill (m : Mach) (c page level : Nat) (leaf : W64) : Mach :=
  m.tlbPlaces.foldl (fun (m : Mach) p =>
    let ent : TlbEnt := { place := p, ctx := c, vpage := page, level, leaf }
    if m.tlb.contains ent then m
    else { m with tlb := m.tlb.filter (fun t => !(t.place == p && t.ctx == c && t.vpage == page && bit t.leaf 1)) ++ [ent] }) m

/-- Enters the table pointers of a walk into the shared cache of the span. -/
def Mach.ptrFill (m : Mach) (c page : Nat) (path : List (Nat × Nat × W64)) : Mach :=
  match m.asker.core with
  | none => m
  | some n =>
    let p := Config.cores + spanOfCore n
    path.foldl (fun (m : Mach) (y : Nat × Nat × W64) =>
      if bit y.2.2 1 then m else
      let ent : TlbEnt := { place := p, ctx := c, vpage := levelPage page y.1, level := y.1, leaf := y.2.2 }
      if m.tlb.contains ent then m
      else { m with tlb := m.tlb.filter (fun t => !(t.place == p && t.ctx == c && t.level == y.1 && t.vpage == ent.vpage && !bit t.leaf 1)) ++ [ent] }) m

/-- The compression attribute of a leaf: chunk tag format and table (R139, R294). -/
def compOf (c : Nat) (leaf : W64) : Option (Nat × Nat × Nat) :=
  if bit leaf 6 then some (c, fld leaf.toNat 7 2, fld leaf.toNat 9 4) else none

/-- The attribute under which a frame is now reached (R139). -/
def Mach.noteAttr (m : Mach) (pa : Nat) (comp : Option (Nat × Nat × Nat)) : Mach :=
  let frame := pa / 65536
  if !isMem pa || lookup m.attrs frame = comp then m
  else match comp with
  | some y => { m with attrs := put m.attrs frame y }
  | none => { m with attrs := del m.attrs frame }

/-- What a request may translate to without a walk from the root: through a cached leaf, or through a cached table
pointer. Entries that have changed count until `tlbinv` completes (R208). -/
def cachedRes (g : Mgmt) (m : Mach) (x : Ctx) (c va : Nat) (need : Need) : Option XRes :=
  match m.cachedLeaf c (pageOf va) with
  | some t => some (leafRes g x.part va need t.level t.leaf)
  | none => (m.cachedPtr c (pageOf va)).map (fun t => walkGo g m x.part va need (3 - t.level) (t.level + 1) (fld t.leaf.toNat 9 43 * 512))

/-- Translates a global address for a context. A cached entry gives the same answer as a walk, or, while a
changed entry awaits `tlbinv`, either (R208, R296). A page of the pending-fault table stays absent until its
entry clears (R296, R329). A walk that reads a poisoned entry consumes it (R350). -/
def xlate (g : Mgmt) (m : Mach) (c va : Nat) (need : Need) : XRes × Mach :=
  match m.ctx? c with
  | none => (.perm false, m)
  | some x =>
    let va := va % 2 ^ 57
    let page := pageOf va
    let walked := walk g m x va need
    let fresh := match x.pending.find? (fun p => p.page == page) with
      | some p => .absent p.level
      | none => walked
    let res := match cachedRes g m x c va need with
      | none => fresh
      | some old => if old = fresh then old else if Config.tlbOld m.tick then old else fresh
    let path := walkPath g m x.part va 4 0 x.ptroot
    let m := if m.poison.isEmpty then m else path.foldl (fun (m : Mach) y => m.eat c y.2.1 16) m
    match res with
    | .ok pa leaf level =>
      let m := (m.noteAttr pa (compOf c leaf)).tlbFill c page level leaf
      (res, if res = walked then m.ptrFill c page path else m)
    | .perm true => (res, m.errcnt x.part)
    | _ => (res, m)

/-- The same for one of the requests of an access whose walks of a page are coalesced (R296): a page that was refused before
is not counted again. -/
def xlateSeen (g : Mgmt) (m : Mach) (seen : List Nat) (c va : Nat) (need : Need) : XRes × Mach × List Nat :=
  let page := pageOf (va % 2 ^ 57)
  match xlate g m c va need with
  | (.perm true, n) => (.perm true, if seen.contains page then m else n, page :: seen)
  | (r, n) => (r, n, seen)

/-! ## Faults on absent pages -/

def kindRead : BitVec 5 := 1
def kindWrite : BitVec 5 := 2
def kindExec : BitVec 5 := 4
def kindAtomic : BitVec 5 := 8
def kindEngine : BitVec 5 := 16

/-- The canonical address whose low 57 bits are given (R25). -/
def canonOf (a : Nat) : Nat := ((BitVec.ofNat 57 a).signExtend 64).toNat

/-- Writes the waiting record of a page when the ring has room (R297). -/
def Mach.faultWrite (m : Mach) (c page : Nat) : Mach :=
  match m.ctx? c with
  | none => m
  | some x =>
    match x.pending.find? (fun p => p.page == page && !p.written) with
    | none => m
    | some p =>
      let r := x.fltring
      let logn := m.rdN (r + 0xC) 1
      let widx := m.rdN r 4
      let ridx := m.rdN (r + 4) 4
      if logn < 6 || 16 < logn || 2 ^ logn ≤ wrapI ((widx : Int) - ridx) 32 then m
      else
        let a := r + 64 + 32 * (widx % 2 ^ logn)
        let m := m.wrN a 8 (canonOf (page * 65536))
        let m := m.wrN (a + 8) 8 (p.kinds.toNat + p.level * 256 + (min p.waiting 0xFFFFFFFF) * 2 ^ 32)
        let m := m.wrN (a + 16) 16 0
        let m := m.wrN r 4 (widx + 1)
        let m := m.updCtx c (fun x => { x with pending := updFirst (fun q => q.page == page) (fun q => { q with written := true }) x.pending })
        (m.count c 8 1).interrupt x.part x.vf irqFault

/-- An absent outcome: the first of a page makes an entry and one record; later ones join it; a full table
holds its requester (R296). -/
def Mach.absent (m : Mach) (c va level : Nat) (kind : BitVec 5) : Mach :=
  let page := pageOf (va % 2 ^ 57)
  match m.ctx? c with
  | none => m
  | some x =>
    if x.pending.any (fun p => p.page == page) then
      let join : Pend → Pend := fun p => { p with kinds := p.kinds ||| kind, waiting := p.waiting + 1 }
      m.updCtx c (fun x => { x with pending := updFirst (fun p => p.page == page) join x.pending })
    else if x.pending.length < 256 then
      let m := m.updCtx c (fun x => { x with pending := x.pending ++ [{ page, level, kinds := kind, waiting := 1 }] })
      { m.faultWrite c page with changes := m.changes + 1 }
    else m

/-! ## Whole accesses by the part itself -/

/-- Translates every page that `[va, va + n)` touches, as a list of physical runs `(pa, bytes)`. -/
def runs (g : Mgmt) (c : Nat) (need : Need) : Nat → Mach → Nat → Nat → Except (Nat × XRes) (List (Nat × Nat)) × Mach
  | 0, m, _, _ => (.ok [], m)
  | fuel + 1, m, va, n =>
    if n = 0 then (.ok [], m) else
    let k := min n (65536 - va % 65536)
    match xlate g m c va need with
    | (.ok pa _ _, m) =>
      match runs g c need fuel m (va + k) (n - k) with
      | (.ok l, m) => (.ok ((pa, k) :: l), m)
      | r => r
    | (e, m) => (.error (va, e), m)

def runFuel (n : Nat) : Nat := n / 65536 + 2

def Mach.rdRuns (m : Mach) (l : List (Nat × Nat)) : List Byte := l.flatMap (fun p => m.rdAny p.1 p.2)

def Mach.wrRuns (m : Mach) : List (Nat × Nat) → List Byte → Mach
  | [], _ => m
  | (pa, n) :: r, l => (m.wrAny pa (l.take n)).wrRuns r (l.drop n)

def Mach.poisonedRuns (m : Mach) (l : List (Nat × Nat)) : Bool := l.any (fun p => m.poisoned p.1 p.2)

/-- A read of a number through a context's tables, at home. -/
def vreadN (g : Mgmt) (m : Mach) (c va n : Nat) (need : Need := needR) : Except (Nat × XRes) Nat × Mach :=
  match runs g c need (runFuel n) m va n with
  | (.ok l, m) => (.ok (bytesNat (m.rdRuns l)), m)
  | (.error e, m) => (.error e, m)

/-- A write of bytes through a context's tables, performed at home. -/
def vwrite (g : Mgmt) (m : Mach) (c va : Nat) (l : List Byte) : Except (Nat × XRes) Unit × Mach :=
  match runs g c needW (runFuel l.length) m va l.length with
  | (.ok r, m) => (.ok (), m.wrRuns r l)
  | (.error e, m) => (.error e, m)

/-! ## Dropping what is cached of a context -/

/-- `gacq.all` at cell or span scope, and at device and system scope (R191, R195). -/
def Mach.invalidateAll (m : Mach) (core c : Nat) (sc : Scope) : Mach :=
  match sc with
  | .wave | .block => m
  | .cell | .span => m.l1Drop (fun x => x.core == core && x.ctx == c)
  | .device | .system =>
    (m.l1Drop (fun x => x.core == core && x.ctx == c)).rdcDrop (fun x => x.span == spanOfCore core && x.ctx == c)

/-- Drops a context's lines from every L1 and RDC (R198, R279, R343). -/
def Mach.dropData (m : Mach) (c : Nat) : Mach :=
  (m.l1Drop (fun x => x.ctx == c)).rdcDrop (fun x => x.ctx == c)

def Mach.dropCode (m : Mach) (c : Nat) : Mach := { m with icache := m.icache.filter (fun x => x.ctx != c) }

end Sys2Proof.Machine
end

