-- ==== Sys2Proof/Machine/Regs.lean ====
section
/-!
DEFINITION. Registers of a wave as instructions name them (spec/01_machine.md R13 to R21): lanes and
halves, the hard-wired `k0`, writes to `exec`, the reconvergence stack's masks, and the wave image.
-/

namespace Sys2Proof.Machine

def Width.lanes : Width → Nat
  | .w16 => 16 | .w32 => 32 | .w64 => 64

/-- log2 W. -/
def Width.log : Width → Nat
  | .w16 => 4 | .w32 => 5 | .w64 => 6

/-- The width class of the header word and of `WDECL` (R22, R37). -/
def Width.code : Width → Nat
  | .w32 => 0 | .w16 => 1 | .w64 => 2

/-- Lines per vector register and per-half groups of the wave image (R29). -/
def Width.g : Width → Nat
  | .w64 => 2 | _ => 1
def Width.c : Width → Nat
  | .w16 => 2 | _ => 1

def Wave.half (w : Wave) (p : Bool) : Half := if p then w.hi else w.lo

def Wave.updHalf (w : Wave) (p : Bool) (f : Half → Half) : Wave :=
  if p then { w with hi := f w.hi } else { w with lo := f w.lo }

/-- The halves of a wave, half 0 first (R15). -/
def Wave.groups (w : Wave) : List Bool :=
  match w.width with
  | .w16 => [false, true]
  | _ => [false]

/-- The hardware lane of logical lane `l` of half `p` (R15). -/
def Wave.hw (w : Wave) (p : Bool) (l : Nat) : Nat :=
  match w.width with
  | .w16 => (if p then 16 + l else l)
  | _ => l

def Wave.W (w : Wave) : Nat := w.width.lanes

def Wave.getV (w : Wave) (p : Bool) (r l : Nat) : W32 := mget 0 w.v (64 * r + w.hw p l)

def Wave.setV (w : Wave) (p : Bool) (r l : Nat) (x : W32) : Wave :=
  { w with v := mset 0 w.v (64 * r + w.hw p l) x }

def Half.getS (h : Half) (n : Nat) : W64 := mget 0 h.s n
def Half.setS (h : Half) (n : Nat) (x : W64) : Half := { h with s := mset 0 h.s n x }

def Wave.getS (w : Wave) (p : Bool) (n : Nat) : W64 := (w.half p).getS n
def Wave.setS (w : Wave) (p : Bool) (n : Nat) (x : W64) : Wave := w.updHalf p (fun h => h.setS n x)

/-- A mask register: `k0` reads as ones; bits W to 63 read as zero (R13, R17). -/
def Wave.getK (w : Wave) (p : Bool) (n : Nat) : W64 :=
  if n = 0 then ones w.W else mget 0 (w.half p).k n &&& ones w.W

/-- A write to `k0` is ignored, and so are bits W to 63 (R13, R17). -/
def Wave.setK (w : Wave) (p : Bool) (n : Nat) (x : W64) : Wave :=
  if n = 0 then w else w.updHalf p (fun h => { h with k := mset 0 h.k n (x &&& ones w.W) })

/-- A write to `exec` leaves zero the bits of lanes that have ended (R13, R259). -/
def Wave.setExec (w : Wave) (p : Bool) (x : W64) : Wave :=
  w.updHalf p (fun h => { h with exec := x &&& ones w.W &&& ~~~h.ended })

def Wave.getMX (w : Wave) (p : Bool) : MX → W64
  | .k n => w.getK p n.toNat
  | .exec => (w.half p).exec

def Wave.setMX (w : Wave) (p : Bool) (m : MX) (x : W64) : Wave :=
  match m with
  | .k n => w.setK p n.toNat x
  | .exec => w.setExec p x

/-- `active(W)` of a half (R7). -/
def Wave.active (w : Wave) (p : Bool) (k : Nat) : List Nat :=
  let e := (w.half p).exec
  bitsOf (if k = 0 then e else e &&& w.getK p k) w.W

def Wave.execs (w : Wave) (p : Bool) : Bool := (w.half p).exec != 0

/-- The passes of a group-scoped instruction: a half whose `exec` is zero does nothing (R15). Instructions
that are not predicated and not group-scoped, the mask-logic ones, also run in each half with lanes. -/
def Wave.passes (w : Wave) : List Bool :=
  match w.width with
  | .w16 => [false, true].filter w.execs
  | _ => [false]

/-- Lanes of a half that have not ended (R259). -/
def Wave.liveMask (w : Wave) (p : Bool) : W64 :=
  if (w.half p).present then ones w.W &&& ~~~(w.half p).ended else 0

def Wave.liveLanes (w : Wave) : Nat := w.groups.foldl (fun n p => n + popcount (w.liveMask p)) 0

/-- The lanes of `exec` in hardware lane order, as a stack entry holds them (R13, R15). -/
def Wave.hwMask (w : Wave) : W64 :=
  match w.width with
  | .w16 => w.lo.exec ||| (w.hi.exec <<< 16)
  | _ => w.lo.exec

/-- The hardware-order mask of the lanes of one half. -/
def Wave.hwHalf (w : Wave) (p : Bool) (x : W64) : W64 :=
  match w.width with
  | .w16 => if p then (x &&& 0xFFFF) <<< 16 else x &&& 0xFFFF
  | _ => x

/-- Resumes the lanes of an entry's MASK (R13). -/
def Wave.resumeMask (w : Wave) (x : W64) : Wave :=
  match w.width with
  | .w16 => (w.setExec false (x &&& 0xFFFF)).setExec true (x >>> 16)
  | _ => w.setExec false x

def Half.getQ (h : Half) (n : Nat) : W64 := mget 0 h.q n
def Wave.getQ (w : Wave) (p : Bool) (n : Nat) : W64 := (w.half p).getQ n

/-- Fields of a receipt (R19). -/
def rSeq (r : W64) : W32 := r.extractLsb' 0 32
def rEng (r : W64) : Nat := fld r.toNat 32 4
def rStat (r : W64) : Nat := fld r.toNat 36 4
def rDue (r : W64) : BitVec 24 := r.extractLsb' 40 24
def mkRcpt (due : BitVec 24) (stat eng : Nat) (seq : W32) : W64 :=
  due ++ BitVec.ofNat 4 stat ++ BitVec.ofNat 4 eng ++ seq
def rPending (r : W64) : Bool := rEng r != 0 && rStat r == 0

/-- Writes a receipt register; flags that the old receipt still carried go to `FPFLAG` first, since
overwriting counts as its first read (R72, R135, R214). -/
def Half.setQ (h : Half) (n : Nat) (x : W64) (fl : BitVec 6 := 0) : Half :=
  { h with
    fpflag := h.fpflag ||| (mget 0 h.qflags n).setWidth 64
    q := mset 0 h.q n x
    qflags := mset 0 h.qflags n fl }

/-- A receipt read delivers the flags once (R72). -/
def Half.readQ (h : Half) (n : Nat) : Half := h.setQ n (h.getQ n)

/-- `CCYC` of a core (R24): a sum of periods that nothing fixes. -/
def ccycGo (core : Nat) : Nat → Nat
  | 0 => 0
  | n + 1 => ccycGo core n + Config.clocks core n

def Mach.ccyc (m : Mach) (core : Nat) : W64 := w64 (ccycGo core m.tick) - w64 (ccycGo core m.boot)

/-! ## The wave image (R29) -/

/-- First line of each group of the image: masks, receipts, stack base, scalars, vectors, spill, stack. -/
def Wave.lnMasks (w : Wave) : Nat := w.width.c
def Wave.lnRcpts (w : Wave) : Nat := 2 * w.width.c
def Wave.lnStack (w : Wave) : Nat := 3 * w.width.c
def Wave.lnScal (w : Wave) : Nat := 3 * w.width.c + 4
def Wave.scalLines (w : Wave) : Nat := ceilDiv w.sregs 16
def Wave.lnVec (w : Wave) : Nat := w.lnScal + w.width.c * w.scalLines
def Wave.lnSpill (w : Wave) : Nat := w.lnVec + w.width.g * w.allow
def Wave.lnRegion (w : Wave) : Nat := w.lnSpill + 60

/-- The lines a wave counts against its core's budget (R271). -/
def Wave.lines (w : Wave) : Nat := w.width.g * w.allow + w.width.c * (3 + w.scalLines) + 4

def b8 (x : W64) : List Byte := natBytes x.toNat 8
def b4 (x : W32) : List Byte := natBytes x.toNat 4

def EKind.code : EKind → Nat
  | .path => 0 | .call => 1 | .trap => 2

/-- Word 3 of a stack entry (R20). -/
def Entry.word3 (e : Entry) : Nat :=
  e.sk.toNat * 2 ^ 48 + e.cause.toNat * 2 ^ 32 + e.bar.toNat * 2 ^ 16 + e.age.toNat * 2 ^ 8 + e.kind.code

def Entry.bytes (e : Entry) : List Byte := b8 e.rpc ++ b8 e.mask ++ b8 e.jpc ++ natBytes e.word3 8

def Entry.ofBytes (l : List Byte) : Entry where
  rpc := w64 (natAt l 0 8)
  mask := w64 (natAt l 8 8)
  jpc := w64 (natAt l 16 8)
  sk := BitVec.ofNat 4 (fld (natAt l 24 8) 48 4)
  cause := BitVec.ofNat 16 (fld (natAt l 24 8) 32 16)
  bar := BitVec.ofNat 11 (fld (natAt l 24 8) 16 11)
  age := BitVec.ofNat 8 (fld (natAt l 24 8) 8 8)
  kind := match fld (natAt l 24 8) 0 2 with | 0 => .path | 1 => .call | _ => .trap

/-- Bits of `FPCTL`, `FPFLAG` and `WSRC` that are not reserved (R22, R130). -/
def fpctlBits : W64 := 0x1F
def fpflagBits : W64 := 0x3F
def wsrcBits : W64 := 0xF8FFFFFFFFFFFC00

/-- The control line of a half; unspecified bytes are free, and so are the reserved bytes 22, 23 and 53 to 55, which a
restore ignores (R5, R29; notes/assumptions/5.md). -/
def Wave.controlLine (w : Wave) (p : Bool) (free : Nat) : List Byte :=
  let h := w.half p
  let u := fun (o n : Nat) => (List.range n).map (fun i => Config.imageByte (free + o + i))
  let status := (if w.heldLoad || w.acc.any (fun a => a.held) then 1 else 0) + (if w.inFlight then 2 else 0) + (if h.exec == 0 && w.liveMask p == 0 then 4 else 0)
  b8 w.pc ++ b8 h.exec ++ natBytes w.allow 2 ++ natBytes w.stack.length 2
    ++ natBytes (w.width.code + (if p then 4 else 0)) 1 ++ natBytes status 1 ++ u 22 2
    ++ b8 h.ended ++ b8 h.trapaddr ++ b8 h.laneflt ++ natBytes h.trapcause.toNat 2
    ++ natBytes h.skid.toNat 1 ++ natBytes h.emudepth.toNat 1 ++ natBytes h.agelim.toNat 1 ++ u 53 3
    ++ b8 h.fpctl ++ b8 h.fpflag ++ u 72 56

/-- The bytes of image line `n` as the register file holds it. -/
def Wave.lineBytes (w : Wave) (n free : Nat) : List Byte :=
  let entries := w.stack.reverse
  let ent : Nat → List Byte := fun i => match entries[i]? with | some e => e.bytes | none => zeros 32
  if n < w.lnMasks then w.controlLine (n == 1) free
  else if n < w.lnRcpts then
    let h := w.half (n - w.lnMasks == 1)
    (List.range 16).flatMap (fun i => if i = 0 then (List.range 8).map (fun j => Config.imageByte (free + j)) else b8 (mget 0 h.k i))
  else if n < w.lnStack then
    let h := w.half (n - w.lnRcpts == 1)
    (List.range 16).flatMap (fun i => b8 (h.getQ i))
  else if n < w.lnScal then (List.range 4).flatMap (fun i => ent (4 * (n - w.lnStack) + i))
  else if n < w.lnVec then
    let j := n - w.lnScal
    let h := w.half (decide (w.scalLines ≤ j))
    (List.range 16).flatMap (fun i => b8 (h.getS (16 * (j % max 1 w.scalLines) + i)))
  else if n < w.lnSpill then
    let j := n - w.lnVec
    let r := j / w.width.g
    let base := 32 * (j % w.width.g)
    (List.range 32).flatMap (fun i => b4 (mget 0 w.v (64 * r + base + i)))
  else (List.range 4).flatMap (fun i => ent (16 + 4 * (n - w.lnSpill) + i))

/-- Takes one image line's bytes into the wave (R31, R35). The stack's lines are taken together, once the
control line has given the number of entries. -/
def Wave.takeLine (w : Wave) (n : Nat) (l : List Byte) : Wave :=
  if n < w.lnMasks then
    let w := w.updHalf (n == 1) (fun h =>
      let ended := w64 (natAt l 24 8) &&& ones w.W
      { h with
        exec := w64 (natAt l 8 8) &&& ones w.W &&& ~~~ended, ended, trapaddr := w64 (natAt l 32 8)
        laneflt := w64 (natAt l 40 8), trapcause := w64 (natAt l 48 2), skid := w64 (natAt l 50 1 % 16)
        emudepth := w64 (natAt l 51 1 % 4), agelim := w64 (max 1 (natAt l 52 1))
        fpctl := w64 (natAt l 56 8) &&& fpctlBits, fpflag := w64 (natAt l 64 8) &&& fpflagBits })
    if n = 0 then
      { w with pc := w64 (natAt l 0 8), allow := natAt l 16 2, heldLoad := natAt l 21 1 % 2 == 1,
               inFlight := natAt l 21 1 / 2 % 2 == 1 }
    else w
  else if n < w.lnRcpts then
    (List.range 15).foldl (fun w i => w.setK (n - w.lnMasks == 1) (i + 1) (w64 (natAt l (8 * (i + 1)) 8))) w
  else if n < w.lnStack then
    w.updHalf (n - w.lnRcpts == 1) (fun h =>
      { h with q := (List.range 16).foldl (fun q i => mset 0 q i (w64 (natAt l (8 * i) 8))) h.q })
  else if n < w.lnScal then w
  else if n < w.lnVec then
    let j := n - w.lnScal
    w.updHalf (decide (w.scalLines ≤ j)) (fun h =>
      (List.range 16).foldl (fun h i => h.setS (16 * (j % max 1 w.scalLines) + i) (w64 (natAt l (8 * i) 8))) h)
  else if n < w.lnSpill then
    let j := n - w.lnVec
    let put := fun v i => mset 0 v (64 * (j / w.width.g) + 32 * (j % w.width.g) + i) (BitVec.ofNat 32 (natAt l (4 * i) 4))
    { w with v := (List.range 32).foldl put w.v }
  else w

/-- Address of the k-th stack entry, counted from the bottom, in the image (R21, R29). -/
def Wave.entryAddr (w : Wave) (k : Nat) : Nat :=
  if k < 16 then w.image + 128 * w.lnStack + 32 * k else w.image + 128 * w.lnSpill + 32 * (k - 16)

/-- Lines of a wave that its core's register file holds: each core's file is the lines that its waves do not miss,
tagged by wave and line of the image (R31). -/
def Wave.heldLines (w : Wave) : Nat := ((List.range w.lnSpill).filter (fun n => !w.missing.contains n)).length

/-- Writes lines that the register file holds to a wave's image (R31, R32). -/
def Mach.writeLines (m : Mach) (w : Wave) (ns : List Nat) : Mach :=
  let m := ns.foldl (fun m n => if w.missing.contains n then m else m.wr (w.image + 128 * n) (w.lineBytes n m.free)) m
  { m with free := m.free + 128 }

/-- Lines of the control, receipt and stack groups: they leave the register file and return to it together
(notes/assumptions/43.md). -/
def Wave.isHead (w : Wave) (n : Nat) : Bool :=
  decide (n < w.lnMasks) || (decide (w.lnRcpts ≤ n) && decide (n < w.lnScal)) || decide (w.lnSpill ≤ n)

def Wave.headLines (w : Wave) : List Nat :=
  (List.range (if w.stack.length ≤ 16 then w.lnSpill else w.lnRegion)).filter w.isHead

/-- Image lines that are fetched when an instruction names them. -/
def Wave.lateLines (w : Wave) : List Nat := (List.range w.lnSpill).filter (fun n => !w.isHead n)

/-- Evicts one line of a wave, or its head lines after all the others (R32). -/
def Mach.evictOne (m : Mach) (id : Nat) (w : Wave) : Mach :=
  match w.lateLines.find? (fun n => !w.missing.contains n) with
  | some n => (m.writeLines w [n]).putWave id { w with missing := n :: w.missing }
  | none => (m.writeLines w w.headLines).putWave id { w with missing := List.range w.lnSpill }

/-- Every line of a wave goes to its image (R269, R273, R35). -/
def Mach.evictWave (m : Mach) (id : Nat) (w : Wave) : Mach :=
  (m.writeLines w (w.lateLines ++ w.headLines)).putWave id { w with missing := List.range w.lnSpill }

/-- Takes lines of its image that a wave misses into the register file (R31). -/
def Mach.takeLines (m : Mach) (w : Wave) (ns : List Nat) : Wave :=
  ns.foldl (fun w n =>
    if w.missing.contains n then
      { w.takeLine n (m.rd (w.image + 128 * n) 128) with missing := w.missing.filter (fun k => k != n) }
    else w) w

def Wave.maskLines (w : Wave) : List Nat := (List.range w.width.c).map (fun p => w.lnMasks + p)

/-- Reads the stack back from the image (R29). -/
def Mach.imageStack (m : Mach) (w : Wave) (n : Nat) : List Entry :=
  ((List.range (min n 256)).map (fun k => Entry.ofBytes (m.rd (w.entryAddr k) 32))).reverse

/-- Takes the head lines of a wave whose image holds them; an entry that waited in a `bar` still does. -/
def Mach.takeHead (m : Mach) (w : Wave) : Wave :=
  if !w.missing.contains 0 then w else
  let v := m.takeLines w ((List.range w.lnScal).filter w.isHead)
  let was := fun (f : Entry → Bool) (e : Entry) => w.stack.any (fun o => f o && o.kind == e.kind && o.jpc == e.jpc && o.rpc == e.rpc)
  { v with stack := (m.imageStack v (m.rdN (v.image + 18) 2)).map (fun (e : Entry) =>
      { e with bw := was Entry.bw e, quiet := was Entry.quiet e }) }

/-- Clears status bit 0 of the control lines that the image holds (R330). -/
def Mach.clearHeld (m : Mach) (w : Wave) : Mach :=
  if !w.missing.contains 0 then m else
  (List.range w.lnMasks).foldl (fun (m : Mach) n =>
    let a := w.image + 128 * n + 21
    m.wrN a 1 (m.rdN a 1 / 2 * 2)) m

/-- Address of a receipt in the image (R34). -/
def Wave.rcptAddr (w : Wave) (p : Bool) (q : Nat) : Nat :=
  w.image + 128 * (w.lnRcpts + (if p then 1 else 0)) + 8 * q

end Sys2Proof.Machine
end

