-- ==== Sys2Proof/Machine/Reset.lean ====
section
/-!
DEFINITION. Completing an engine operation into its receipt (spec/01_machine.md R34, R72, R243) and the
context reset (spec/13_containment.md R343 to R347), which every fatal cause starts (R318).
-/

namespace Sys2Proof.Machine

/-- A wave is resident: its block runs on a core and its lines are in the register file (R32, R269). -/
def Mach.resident (m : Mach) (w : Wave) : Bool :=
  !w.parked && (match m.block? w.block with | some b => b.state == .running | none => false)

/-! ## The register file (R31, R32) -/

/-- Lines that a core's register file holds. -/
def Mach.fileLines (m : Mach) (core : Nat) : Nat :=
  m.waves.foldl (fun n (x : Nat × Wave) => if x.2.core == core && m.duty x.2.ctx then n + x.2.heldLines else n) 0

/-- The wave of a core whose lines are evictable and have been so for longest. -/
def Mach.evictable (m : Mach) (core : Nat) : Option (Nat × Wave) :=
  (m.waves.filter (fun (x : Nat × Wave) => x.2.core == core && m.duty x.2.ctx && !m.resident x.2 && x.2.heldLines != 0)).foldl
    (fun (best : Option (Nat × Wave)) x => match best with
      | some y => if x.2.left < y.2.left then some x else best
      | none => some x) none

/-- Newcomers' lines push evictable lines out of the 4096 of a core, oldest first (R31, R32). -/
def Mach.makeRoom (m : Mach) (core : Nat) : Mach :=
  (List.range (m.fileLines core - Config.budgetLines)).foldl (fun (m : Mach) _ =>
    if m.fileLines core ≤ Config.budgetLines then m else
    match m.evictable core with
    | some (id, w) => m.evictOne id w
    | none => m) m

/-! ## Receipts -/

/-- Writes a receipt where the operation's target stands: the register when its line is resident, the
image line otherwise (R34), or the detached record (R243). -/
def Mach.deliver (m : Mach) (t : Target) (x : W64) (fl : BitVec 6) : Mach :=
  match t with
  | .none => m
  | .reg w p q =>
    match m.wave? w with
    | none => m
    | some v =>
      let away := v.missing.contains (v.lnRcpts + (if p then 1 else 0))
      let m := m.putWave w (v.updHalf p (fun h => h.setQ q x fl))
      if away then m.wrN (v.rcptAddr p q) 8 x.toNat else m
  | .detached b =>
    m.updBlock b (fun b => { b with detached := updFirst (fun d => rSeq d.tok == rSeq x) (fun d => { d with rcpt := x, flags := fl }) b.detached })

/-- Completes an operation: its receipt gets the engine, the status and DUE, and it leaves the engine. -/
def Mach.completeOp (m : Mach) (id eng stat : Nat) (due : Option (BitVec 24)) (fl : BitVec 6) : Mach :=
  match lookup m.ops id with
  | none => m
  | some o =>
    let m := m.deliver o.target (mkRcpt (due.getD o.due) stat eng o.seq) fl
    { m with ops := del m.ops id }

/-- Writes a field of a queue's descriptor (R277). -/
def qWrite (g : Mgmt) (m : Mach) (q : Queue) (off n x : Nat) : Mach :=
  (vwrite g m q.ctx (q.desc + off) (natBytes x n)).2

/-- Halts a queue with an error code (R281); `idx` goes to ERRIDX. What has started runs on, a WAITGUARD too. -/
def haltQueue (g : Mgmt) (m : Mach) (id code idx : Nat) (tell : Bool) : Mach :=
  match lookup m.queues id with
  | none => m
  | some q =>
    let m := qWrite g m q 0x20 4 (1 + code * 256)
    let m := qWrite g m q 0x28 8 idx
    let m := { m with queues := upd m.queues id (fun q => { q with halted := true }) }
    if tell then m.interrupt q.part q.vf irqQueue else m

/-- The `coll` operations of the open instance of a descriptor: the first outstanding one of each logical
wave (R236). -/
def Mach.collHeads (m : Mach) (desc : Nat) : List (Nat × EngOp) :=
  let mine := m.ops.filter (fun (o : Nat × EngOp) => match o.2.kind with | .coll _ _ _ _ _ d _ => d == desc | _ => false)
  mine.foldl (fun (l : List (Nat × EngOp)) o => if l.any (fun y => y.2.wave == o.2.wave && y.2.half == o.2.half) then l else l ++ [o]) []

/-- Ends the open instance of a descriptor for every participant with a status, or with FAULT for the
operations in `bad`, and increments DONE (R216, R237, R346). -/
def collEnd (m : Mach) (desc stat : Nat) (bad : List Nat) : Mach :=
  let heads := m.collHeads desc
  if heads.isEmpty then m else
  let m := heads.foldl (fun (m : Mach) (o : Nat × EngOp) => m.completeOp o.1 3 (if bad.contains o.1 then 3 else stat) (some 0) 0) m
  m.wrAny (desc + 8) (natBytes (bytesNat (m.rdAny (desc + 8) 8) + 1) 8)

/-- The reset report (R347): RSTINFO, RSTADDR, then RSTCNT, and bit 16 of the interrupt record. -/
def Mach.report (m : Mach) (part vf ctxid cause scope : Nat) (addr : W64) : Mach :=
  let v := m.vf part vf
  let m := m.putVf part vf
    { v with rstinfo := w64 (ctxid + cause * 2 ^ 16 + scope * 2 ^ 32), rstaddr := addr, rstcnt := v.rstcnt + 1 }
  m.interrupt part vf irqReset

/-- Steps 1 to 6 of a context reset (R343), for any scope. -/
def resetBody (g : Mgmt) (m : Mach) (c : Nat) : Mach :=
  -- step 1
  let m := (m.queues.filter (fun (q : Nat × Queue) => q.2.ctx == c)).foldl (fun (m : Mach) (q : Nat × Queue) => haltQueue g m q.1 9 q.2.ridx false) m
  let m := { m with queues := m.queues.map (fun (q : Nat × Queue) => if q.2.ctx == c then (q.1, { q.2 with started := [], wait := none }) else q) }
  -- step 2
  let mine : Nat → Bool := fun b => match m.block? b with | some x => x.ctx == c | none => false
  let forms : Forming → Bool := fun f => f.ctx == c
  let formed : SlotRec → Bool := fun s => s.part == ctxPart c && s.br.ctxid == c % 65536 && m.forming.any (fun f => f.core == s.core && f.idx == s.idx && forms f)
  let m := { m with
    forming := m.forming.filter (fun (f : Forming) => !forms f)
    slotTab := m.slotTab.map (fun (s : SlotRec) => if formed s then { s with state := 3 } else if s.valid && s.br.ctxid == c % 65536 && (match s.block with | some b => mine b | none => false)
      then { s with state := 3, block := none } else s)
    spawnq := m.spawnq.filter (fun (x : Child) => x.ctx != c)
    waves := m.waves.filter (fun (w : Nat × Wave) => w.2.ctx != c)
    cur := match m.cur with | some w => (match m.wave? w with | some v => if v.ctx == c then none else some w | none => none) | none => none
    -- step 3
    units := m.units.filter (fun (u : UnitOp) => u.ctx != c) }
  -- step 4: the other participants of a collective get LINK (R346)
  let m := (m.colls.filter (fun (x : CollSt) => x.ctxs.contains c)).foldl (fun (m : Mach) (x : CollSt) => collEnd m x.desc 6 []) m
  let m := { m with
    ops := m.ops.filter (fun (o : Nat × EngOp) => o.2.ctx != c)
    array := m.array.filter (fun (a : MCmd) => !(mine a.block))
    -- step 5
    blocks := m.blocks.filter (fun (b : Nat × Block) => b.2.ctx != c)
    launches := m.launches.filter (fun (l : Nat × Launch) => l.2.ctx != c)
    tsets := m.tsets.filter (fun (t : Nat × TaskSet) => t.2.ctx != c)
    tiles := m.tiles.filter (fun (t : Tile) => t.ctx != c)
    escrow := m.escrow.filter (fun (e : Escrow) => e.ctx != c)
    pins := m.pins.filter (fun (p : Pin) => p.ctx != c) }
  let m := m.updCtx c (fun x => { x with pending := [], freed := [], fresh := 0, stages := [], pool := [] })
  -- step 6
  let m := (m.dropData c).dropCode c
  { m with
    eaten := m.eaten.filter (· != c)
    tlb := m.tlb.filter (fun (t : TlbEnt) => t.ctx != c)
    hcache := m.hcache.filter (fun (t : HCache) => t.ctx != c)
    maps := m.maps.filter (fun (t : MapWord) => t.ctx != c) }

/-- A context reset (R343) with the cause code of R318 (0 when requested) and its TRAPADDR. -/
def contextReset (g : Mgmt) (m : Mach) (c cause : Nat) (addr : W64) : Mach :=
  match m.ctx? c with
  | none => m
  | some x => (resetBody g m c).report x.part x.vf x.ctxid cause 0 addr

end Sys2Proof.Machine
end

