-- ==== Sys2Proof/Machine/Ops.lean ====
section
/-!
DEFINITION. What every meaning shares: the issuing wave and what it belongs to, the ends an instruction
can come to, the reconvergence stack (spec/09_progress.md R246, R247), taking a trap (spec/12_recovery.md
R318, R321, R324) and returning from one (R252, R323), and the end of lanes, waves and blocks (R259).
-/

namespace Sys2Proof.Machine

/-- The issuing wave, with the context, block and launch that it belongs to. -/
structure Env where
  g : Mgmt
  m : Mach
  id : Nat
  w : Wave
  x : Ctx
  b : Block
  l : Launch
  deriving DecidableEq, Repr

def State.env? (s : State) : Option Env :=
  match s.m.cur with
  | none => none
  | some id =>
    match s.m.wave? id with
    | none => none
    | some w =>
      match s.m.ctx? w.ctx, s.m.block? w.block, s.m.launch? w.launch with
      | some x, some b, some l => some { g := s.mgmt, m := s.m, id, w, x, b, l }
      | _, _, _ => none

/-- A trap to be taken: RPC, TRAPADDR and LANEFLT for each half (R318 to R321, R324). -/
structure Req where
  code : Nat
  rpc : W64
  addr : W64
  addr1 : W64
  lanes0 : W64
  lanes1 : W64
  skid : Nat := 0
  /-- a macro stopped here, and issues itself again without debug causes (R42, R336) -/
  quiet : Bool := false
  deriving DecidableEq, Repr

/-- How an instruction ends. -/
inductive WOut where
  /-- it is complete: `w` stands where it goes on -/
  | next (m : Mach) (w : Wave)
  /-- it is complete and its wave has ended; `m` no longer holds it -/
  | gone (m : Mach)
  /-- it raises a cause (R318) -/
  | trap (m : Mach) (w : Wave) (q : Req)
  /-- it resets its context (R318, class fatal; R338) -/
  | fatal (m : Mach) (w : Wave) (code : Nat) (addr : W64)
  /-- it waits, and issues again -/
  | hold (m : Mach) (w : Wave) (why : Why)
  deriving DecidableEq, Repr

/-! ## The reconvergence stack -/

/-- The frame: the entries above the topmost trap entry (R246). -/
def frameOf (l : List Entry) : List Entry := l.takeWhile (fun e => e.kind != .trap)
def belowFrame (l : List Entry) : List Entry := l.dropWhile (fun e => e.kind != .trap)

def Entry.isPath (e : Entry) : Bool := e.kind == .path
def Entry.deferred (e : Entry) : Bool := e.isPath && e.jpc == 0

/-- Pushes an entry; none when it would be the 257th (R21). -/
def Wave.push (w : Wave) (e : Entry) : Option Wave :=
  if 256 ≤ w.stack.length then none else some { w with stack := e :: w.stack }

/-- The half whose lanes a hardware-order mask holds. -/
def Wave.halfOfMask (w : Wave) (x : W64) : Bool :=
  match w.width with
  | .w16 => (x &&& 0xFFFF) == 0
  | _ => false

/-- A barrier at block start (R262). -/
def Bar.zero : Bar := { }

def Block.bar (b : Block) (n : Nat) : Bar := mget Bar.zero b.bars n

/-- A path entry is eligible unless it waits at a barrier that has its wave's bit set (R247, R391). -/
def Block.eligible (b : Block) (w : Wave) (e : Entry) : Bool :=
  e.isPath && !(e.bw && (b.bar e.bar.toNat).bitmap.getLsbD (w.half (w.halfOfMask e.mask)).waveid)

/-- Removes the n-th entry. -/
def dropAt : List Entry → Nat → List Entry
  | [], _ => []
  | _ :: r, 0 => r
  | e :: r, n + 1 => e :: dropAt r n

/-- Index of the first entry from index `from` on that satisfies `p`. -/
def indexFrom (p : Entry → Bool) : List Entry → Nat → Nat → Option Nat
  | [], _, _ => none
  | e :: r, lo, i => if decide (lo ≤ i) && p e then some i else indexFrom p r lo (i + 1)

/-- How `resume_path` ends. -/
inductive Resumed where
  | path (w : Wave)
  | hold (w : Wave) (n : Nat)
  | none (w : Wave)
  deriving DecidableEq, Repr

/-- The wave runs the n-th entry. -/
def Wave.runEntry (w : Wave) (n : Nat) (e : Entry) : Wave :=
  ({ w with stack := dropAt w.stack n, pc := e.rpc }).resumeMask e.mask

/-- `resume_path(x)` of R247, where x is the `nx` entries that the instruction has just pushed. -/
def Wave.resumePath (w : Wave) (b : Block) (nx : Nat) : Resumed :=
  let kept := fun (e : Entry) => !(e.isPath && e.mask == 0)
  let nx := (((frameOf w.stack).take nx).filter kept).length
  let fr := (frameOf w.stack).filter kept
  let w := { w with stack := fr ++ belowFrame w.stack }
  let first := indexFrom (fun e => b.eligible w e && (e.deferred || e.bw)) fr nx 0
  let second := indexFrom (fun e => b.eligible w e) fr nx 0
  let last := indexFrom (fun e => b.eligible w e) (fr.take nx) 0 0
  match first <|> second <|> last with
  | some n =>
    match w.stack[n]? with
    | some e => .path (w.runEntry n e)
    | none => .none w
  | none => if fr.any Entry.isPath then .hold ((w.setExec false 0).setExec true 0) nx else .none w

/-- The eligible entry of the frame with the greatest AGE, ties to the deepest (R253, R274). -/
def Wave.oldest (w : Wave) (b : Block) : Option (Nat × Entry) :=
  let fr := frameOf w.stack
  ((List.range fr.length).zip fr).foldl
    (fun best p =>
      if !b.eligible w p.2 then best else
      match best with
      | some q => if q.2.age.toNat ≤ p.2.age.toNat then some p else best
      | none => some p) none

/-! ## Taking a trap -/

/-- One instruction more has retired past each access whose outcome is not known (R320). -/
def Wave.retired (w : Wave) : Wave :=
  { w with
    acc := w.acc.map (fun a => if a.known then a else { a with younger := a.younger + 1 })
    hold := .none }

def isEmulate (code : Nat) : Bool := decide (0x100 ≤ code) && decide (code ≤ 0x105)

/-- Whether a half receives the code (R324). -/
def Req.hits (q : Req) (p : Bool) : Bool :=
  isEmulate q.code || (if p then q.lanes1 else q.lanes0) != 0 || (q.lanes0 == 0 && q.lanes1 == 0)

/-- The wave state of one half at a trap (R321, R324). -/
def Half.trapped (h : Half) (q : Req) (p : Bool) : Half :=
  { h with
    trapcause := if q.hits p then w64 q.code else 0
    trapaddr := if p then q.addr1 else q.addr
    skid := w64 q.skid
    laneflt := if q.hits p then (if p then q.lanes1 else q.lanes0) else 0
    emudepth := if isEmulate q.code then h.emudepth + 1 else h.emudepth
    k := mset 0 h.k 15 h.exec }

/-- The wave runs the handler with every lane that has not ended (R321). -/
def Wave.enterHandler (w : Wave) (q : Req) (entry : W64) : Wave :=
  let w := w.groups.foldl (fun w p => (w.updHalf p (fun h => h.trapped q p)).setExec p (ones w.W)) w
  { w with pc := entry, hold := .none, inBar := false, quiet := false }

/-- The trap entry of R321; it remembers that the wave was in the wait part of a `bar.sync`. -/
def Wave.trapEntry (w : Wave) (q : Req) : Entry :=
  { rpc := q.rpc, mask := w.hwMask, sk := BitVec.ofNat 4 q.skid, cause := BitVec.ofNat 16 q.code, kind := .trap,
    bw := w.inBar, quiet := q.quiet }

/-- EMUENTRY of a context, read when used (R298). -/
def Mach.emuentry (m : Mach) (x : Ctx) : Nat := m.rdN (x.desc + 0x20) 8

/-- Takes a trap, or the cause's default action (R318, R321). -/
def takeTrap (g : Mgmt) (m : Mach) (id : Nat) (w : Wave) (x : Ctx) (q : Req) : Mach :=
  let reset : Mach → Nat → W64 → Mach := fun m code addr => contextReset g (m.putWave id w) w.ctx code addr
  let w := m.takeLines w w.maskLines
  let m := m.eat w.ctx (x.desc + 0x20) 8
  let entry := m.emuentry x
  if isEmulate q.code && w.groups.any (fun p => decide (2 ≤ (w.half p).emudepth.toNat)) then reset m 0x51 0
  else if entry = 0 then
    if q.code = 0x40 then m.putWave id { w with pc := q.rpc, quiet := false }
    else reset m q.code q.addr
  else
    match xlate g m w.ctx entry needX with
    | (.perm _, m) => reset m q.code q.addr
    | (_, m) =>
      match w.push (w.trapEntry q) with
      | none => reset m 0x50 0
      | some v => m.putWave id (v.enterHandler q (w64 entry))

/-- Returns from a trap through its entry, which is on top (R252, R323). -/
def Wave.trapReturn (w : Wave) (t : Entry) : Wave :=
  let lower : Half → Half := fun h => { h with emudepth := if h.emudepth = 0 then 0 else h.emudepth - 1 }
  let w := { w with stack := w.stack.drop 1, pc := t.rpc, inBar := t.bw, quiet := t.quiet }
  let w := if isEmulate t.cause.toNat then w.groups.foldl (fun w p => w.updHalf p lower) w else w
  w.resumeMask t.mask

/-! ## How an instruction ends -/

/-- The next state from the end that an instruction came to. -/
def Env.finish (e : Env) (s : State) (o : WOut) : State :=
  let m : Mach :=
    match o with
    | .next m w => { m.putWave e.id { w.retired with quiet := w.quiet && !e.w.quiet } with changes := m.changes + 1 }
    | .gone m => { m with changes := m.changes + 1 }
    | .trap m w q => { takeTrap e.g m e.id w e.x q with changes := m.changes + 1 }
    | .fatal m w code addr => { contextReset e.g (m.putWave e.id w) w.ctx code addr with changes := m.changes + 1 }
    | .hold m w why => m.putWave e.id { w with hold := .wait m.changes why }
  { s with m }

/-- A meaning of the issuing wave. -/
def withCur (f : Env → WOut) (s : State) : Host.Outcome State Fault Refusal :=
  match s.m.cur with
  | none => .refused .noIssuingWave
  | some _ =>
    match s.env? with
    | none => .fault .brokenState
    | some e => .next (e.finish s (f e))

/-- The instruction is complete and the next in sequence follows; `n` is its bytes. -/
def Env.ok (e : Env) (w : Wave) (n : Nat := 8) : WOut := .next e.m { w with pc := w.pc + w64 n }

/-- `active(W)` of a half as a mask. -/
def Wave.activeMask (w : Wave) (p : Bool) (k : Nat) : W64 :=
  if k = 0 then (w.half p).exec else (w.half p).exec &&& w.getK p k

/-- A cause of class fault-before (R318). -/
def Env.before (e : Env) (code : Nat) (lanes0 lanes1 : W64) : WOut :=
  .trap e.m e.w { code, rpc := e.w.pc, addr := e.w.pc, addr1 := e.w.pc, lanes0, lanes1 }

/-- A cause of class fault-before that belongs to the instruction as a whole (R319). -/
def Env.beforeAll (e : Env) (code k : Nat) : WOut := e.before code (e.w.activeMask false k) (e.w.activeMask true k)

/-- A cause of class trap-after, of an instruction of `n` bytes that leaves `m` and `w` (R318). -/
def Env.after (e : Env) (m : Mach) (w : Wave) (code : Nat) (lanes0 lanes1 : W64) (n : Nat := 8) : WOut :=
  .trap m w.retired { code, rpc := e.w.pc + w64 n, addr := e.w.pc, addr1 := e.w.pc, lanes0, lanes1 }

/-- RS_OVERFLOW (R21, R318). -/
def Env.overflow (e : Env) : WOut := .fatal e.m e.w 0x50 0

def Env.halt (e : Env) (why : Why) : WOut := .hold e.m e.w why

/-! ## Lanes, waves and blocks that end -/

/-- Lanes of a block that have not ended, children included (R262). -/
def Mach.liveLanes (m : Mach) (b : Nat) : Nat :=
  m.waves.foldl (fun n (x : Nat × Wave) => if x.2.block = b then n + x.2.liveLanes else n) 0

/-- Logical waves of a block that have not ended. -/
def Mach.logicalWaves (m : Mach) (b : Nat) : Nat :=
  m.waves.foldl (fun n (x : Nat × Wave) => if x.2.block = b then n + (x.2.groups.filter (fun p => (x.2.half p).present)).length else n) 0

/-- The phase of a barrier completes (R263). -/
def Bar.complete (x : Bar) : Bar := { phase := !x.phase }

/-- The test of R262 and R263 on open phases with expected 0, after lanes have ended. -/
def Mach.retest (m : Mach) (b : Nat) : Mach :=
  let live := m.liveLanes b
  let step : Nat × Bar → Nat × Bar := fun x =>
    if x.2.expected = 0 && x.2.arrived != 0 && decide (live ≤ x.2.arrived) then (x.1, x.2.complete) else x
  m.updBlock b (fun x => { x with bars := x.bars.map step |>.filter (fun y => y.2 != Bar.zero) })

/-- A child of a spawn operation has ended (R270). -/
def Mach.childEnd (m : Mach) (o : Option Nat) : Mach :=
  match o with
  | none => m
  | some o =>
    match lookup m.ops o with
    | some op =>
      match op.kind with
      | .spawn n => if n ≤ 1 then m.completeOp o 5 1 none 0 else m.updOp o (fun y => { y with kind := .spawn (n - 1) })
      | _ => m
    | none => m

/-- A block ends when its last wave has ended and no child of it waits in the spawn queue (R259); its
record goes to state 10 (R287). -/
def Mach.endBlock (m : Mach) (b : Nat) : Mach :=
  if m.waves.any (fun x => x.2.block == b) || m.spawnq.any (fun c => c.block == b && c.parent.isNone) then m else
  match m.block? b with
  | none => m
  | some x =>
    let m := (x.launch :: x.packed).foldl (fun (m : Mach) l => m.updLaunch l (fun l => { l with ended := l.ended + 1 })) m
    let seen : SlotRec → SlotRec := fun r => if r.block == some b then { r with state := 2, block := none } else r
    { m with blocks := del m.blocks b, slotTab := m.slotTab.map seen }

/-- A wave has ended: its control line says so (R29), its index leaves every barrier's bitmap, and its slots and lines
are free (R259). -/
def Mach.endWave (m : Mach) (id : Nat) (w : Wave) : Mach :=
  let m := m.writeLines w (List.range w.lnMasks)
  let m := { m with waves := del m.waves id }
  let bits : BitVec 128 :=
    w.groups.foldl (fun k p => if (w.half p).present then k ||| (1#128 <<< (w.half p).waveid) else k) 0
  let clear : Nat × Bar → Nat × Bar := fun x => (x.1, { x.2 with bitmap := x.2.bitmap &&& ~~~bits })
  let m := m.updBlock w.block (fun x => { x with bars := x.bars.map clear |>.filter (fun y => y.2 != Bar.zero) })
  let m := w.groups.foldl (fun m p => m.childEnd (w.half p).parent) m
  (m.retest w.block).endBlock w.block

end Sys2Proof.Machine
end

