-- ==== Sys2Proof/Machine/Operands.lean ====
section
/-!
DEFINITION. Operands: how values are held and read (spec/04_vector_isa.md R90 to R92), the constant codes
(spec/02_encoding.md R46), addresses of the M-form (R49), and one result for each lane of `active(W)`.
-/

namespace Sys2Proof.Machine

/-- The bit width w of a type (R51, R90). -/
def Ty.bits : Ty → Nat
  | .b32 | .i32 | .n32 | .f32 => 32
  | .i64 | .n64 | .f64 => 64
  | .f16 | .bf16 | .i16 | .n16 => 16
  | .i8 | .n8 | .h8 | .h8w => 8

/-- The i types. -/
def Ty.sgn : Ty → Bool
  | .i32 | .i64 | .i16 | .i8 => true
  | _ => false

/-- The IEEE format of a type (R66). -/
def Ty.fmt? : Ty → Option Fmt
  | .f32 => some .f32 | .f64 => some .f64 | .f16 => some .f16 | .bf16 => some .bf16
  | _ => none

/-- The narrow format of a type (R73). -/
def Ty.nfmt? : Ty → Option NFmt
  | .h8 => some .h8 | .h8w => some .h8w
  | _ => none

/-- The value of a pattern under an integer type (R90). -/
def Ty.int (t : Ty) (x : Nat) : Int := if Ty.sgn t then sext x (Ty.bits t) else (x % 2 ^ Ty.bits t : Nat)

/-- `x mod 2^w`. -/
def Ty.wrap (t : Ty) (x : Int) : Nat := wrapI x (Ty.bits t)

/-- `sat(x, t)` of R7, as a pattern. -/
def Ty.sat (t : Ty) (x : Int) : Nat :=
  let n := Ty.bits t
  let lo : Int := if Ty.sgn t then -(2 ^ (n - 1) : Nat) else 0
  let hi : Int := if Ty.sgn t then (2 ^ (n - 1) : Nat) - 1 else (2 ^ n : Nat) - 1
  wrapI (max lo (min hi x)) n

/-! ## Constants -/

/-- ln 2, π and log2 e, rounded once to nearest even in each format (R46). -/
def constPattern (t : Ty) : Const → Nat
  | .ln2 => match t with
    | .f64 => 0x3FE62E42FEFA39EF | .f32 => 0x3F317218 | .f16 => 0x398C | .bf16 => 0x3F31
    | .h8 => 0x33 | .h8w => 0x3A | _ => 0
  | .pi => match t with
    | .f64 => 0x400921FB54442D18 | .f32 => 0x40490FDB | .f16 => 0x4248 | .bf16 => 0x4049
    | .h8 => 0x45 | .h8w => 0x42 | _ => 0
  | .log2e => match t with
    | .f64 => 0x3FF71547652B82FE | .f32 => 0x3FB8AA3B | .f16 => 0x3DC5 | .bf16 => 0x3FB9
    | .h8 => 0x3C | .h8w => 0x3E | _ => 0
  | _ => 0

/-- The exact codes 0x80 to 0x8A as an integer multiple of a quarter. -/
def constQuarters : Const → Option Int
  | .zero => some 0 | .one => some 4 | .two => some 8 | .four => some 16 | .eight => some 32 | .sixteen => some 64
  | .m1 => some (-4) | .m2 => some (-8) | .half => some 2 | .mhalf => some (-2) | .quarter => some 1
  | _ => none

/-- The integers that the codes 0xC0 to 0xC8 name (R46). -/
def Env.special (e : Env) (p : Bool) : Const → Nat
  | .width => e.w.W
  | .wave => (e.w.half p).waveid
  | .nwaves => e.l.waves
  | .block => e.b.blockid
  | .gx => e.l.gx
  | .gy => e.l.gy
  | .gz => e.l.gz
  | .spbase => e.x.spbase
  | .stkbase => e.x.stkbase
  | _ => 0

/-- The pattern of a constant code under a type (R46). -/
def Env.const (e : Env) (p : Bool) (t : Ty) (c : Const) : Nat :=
  match constQuarters c with
  | some q =>
    match Ty.fmt? t, Ty.nfmt? t with
    | some f, _ => (f.rndI .near false q (-2)).1
    | none, some f => (f.rnd .near (.fin (decide (q < 0)) q.natAbs (-2))).1
    | none, none => Ty.wrap t (q / 4)
  | none => if Ty.isFloat t then constPattern t c else Ty.wrap t (e.special p c)

/-! ## Reading and writing values -/

/-- The pattern of a vector source in lane l, in the type's width (R90). -/
def Wave.vec (w : Wave) (p : Bool) (l : Nat) (t : Ty) (r : Nat) : Nat :=
  if Ty.wide t then (w.getV p r l).toNat + (w.getV p (r + 1) l).toNat * 2 ^ 32
  else (w.getV p r l).toNat % 2 ^ Ty.bits t

/-- The pattern of a scalar source (R90). -/
def Wave.sca (w : Wave) (p : Bool) (t : Ty) (r : Nat) : Nat := (w.getS p r).toNat % 2 ^ Ty.bits t

/-- The pattern of a source of lane l of half p under type t (R46, R90). -/
def Env.src (e : Env) (p : Bool) (l : Nat) (t : Ty) : Src → Nat
  | .vec r => e.w.vec p l t r.toNat
  | .sca r => e.w.sca p t r.toNat
  | .con c => e.const p t c

def Env.sc (e : Env) (p : Bool) (t : Ty) : SC → Nat
  | .sca r => e.w.sca p t r.toNat
  | .con c => e.const p t c

/-- The data register of a load or store as a source. -/
def Dst.src : Dst → Src
  | .vec r => .vec r
  | .sca r => .sca r

/-- A value narrower than its container: the sign above i8 and i16, and above i32 in a scalar, else zeros (R90). -/
def vecFill (t : Ty) (x : Nat) : Nat :=
  match t with
  | .i8 | .i16 => wrapI (sext x (Ty.bits t)) 32
  | _ => x

def scaFill (t : Ty) (x : Nat) : Nat :=
  match t with
  | .i8 | .i16 | .i32 => wrapI (sext x (Ty.bits t)) 64
  | _ => x

/-- Writes a pattern of type t to vector register r of lane l (R90). -/
def Wave.putVec (w : Wave) (p : Bool) (l : Nat) (t : Ty) (r x : Nat) : Wave :=
  if Ty.wide t then (w.setV p r l (BitVec.ofNat 32 x)).setV p (r + 1) l (BitVec.ofNat 32 (x / 2 ^ 32))
  else w.setV p r l (BitVec.ofNat 32 (vecFill t x))

def Wave.putSca (w : Wave) (p : Bool) (t : Ty) (r x : Nat) : Wave := w.setS p r (w64 (scaFill t x))

/-- `d := x` of lane l (R90). -/
def Wave.put (w : Wave) (p : Bool) (l : Nat) (t : Ty) (d : Dst) (x : Nat) : Wave :=
  match d with
  | .vec r => w.putVec p l t r.toNat x
  | .sca r => w.putSca p t r.toNat x

/-- A bit of a mask register; `k0` reads as ones. -/
def Wave.kbit (w : Wave) (p : Bool) (k l : Nat) : Bool := bit (w.getK p k) l

/-! ## One result for each lane -/

/-- What one lane produced: its value and the flags it raised. -/
structure LaneRes where
  half : Bool
  lane : Nat
  val : Nat
  flags : Flags
  deriving DecidableEq, Repr

/-- The lanes that an instruction produces a result for: `active(W)` of each half, or under U = 1 the first
of them (R6, R15, R92). -/
def Wave.work (w : Wave) (k : Nat) (uni : Bool) : List (Bool × Nat) :=
  w.groups.flatMap (fun p => (if uni then (w.active p k).take 1 else w.active p k).map (fun l => (p, l)))

def Dst.uni (d : Dst) : Bool := !d.isVec

/-- Every lane's result, from the registers as they stood (R6). -/
def Env.each (e : Env) (k : Nat) (uni : Bool) (f : Bool → Nat → Nat × Flags) : List LaneRes :=
  (e.w.work k uni).map (fun x => let r := f x.1 x.2; { half := x.1, lane := x.2, val := r.1, flags := r.2 })

def Wave.putAll (w : Wave) (t : Ty) (d : Dst) (l : List LaneRes) : Wave :=
  l.foldl (fun w r => w.put r.half r.lane t d r.val) w

/-- Writes one mask bit for each result; `k0` ignores it (R102). -/
def Wave.putBits (w : Wave) (d : Nat) (l : List LaneRes) : Wave :=
  l.foldl (fun w r => w.setK r.half d (setBit (w.getK r.half d) r.lane (r.val != 0))) w

end Sys2Proof.Machine
end

