-- ==== Sys2Proof/Machine/Flags.lean ====
section
/-!
DEFINITION. The sticky flags and the precise IEEE traps of an instruction (spec/03_numbers.md R70, R71;
spec/12_recovery.md R319, R324): flags first, then the lowest enabled exception over both halves.
-/

namespace Sys2Proof.Machine

/-- The sticky flags of every result, in the half whose lanes raised them (R71, R15). -/
def Wave.sticky (w : Wave) (l : List LaneRes) : Wave :=
  l.foldl (fun w r => w.updHalf r.half (fun h => { h with fpflag := h.fpflag ||| r.flags.setWidth 64 })) w

/-- Lanes of a half that raised exception n with its enable set (R71). -/
def Wave.marked (w : Wave) (l : List LaneRes) (p : Bool) (n : Nat) : W64 :=
  if bit (w.half p).fpctl n then
    maskOf ((l.filter (fun r => r.half == p && r.flags.getLsbD n)).map LaneRes.lane)
  else 0

/-- The lowest-numbered enabled exception, with its lanes in each half (R71, R324). -/
def Wave.ieee (w : Wave) (l : List LaneRes) : Option (Nat × W64 × W64) :=
  (List.range 5).findSome? (fun n =>
    let a := w.marked l false n
    let b := w.marked l true n
    if a = 0 && b = 0 then none else some (n, a, b))

/-- The instruction is complete with these results written to `w`: its flags become sticky and an enabled
exception is taken after it (R8, R71). -/
def Env.flagged (e : Env) (w : Wave) (l : List LaneRes) (n : Nat := 8) : WOut :=
  let w := w.sticky l
  match w.ieee l with
  | none => e.ok w n
  | some (x, a, b) => e.after e.m { w with pc := w.pc + w64 n } (0x10 + x) a b n

end Sys2Proof.Machine
end

