-- ==== Sys2Proof/Machine/Uses.lean ====
section
/-!
DEFINITION. The registers that an instruction names: what test 5 of R54 judges (spec/02_encoding.md; R17,
R18, R40), what the scoreboard waits for (spec/12_recovery.md R320), and which image lines must be
resident (spec/01_machine.md R31).
-/

namespace Sys2Proof.Machine

/-- One register of an instruction. `run` is a window of consecutive vector registers. -/
inductive Use where
  | v (r : Nat)
  | pair (r : Nat)
  | run (r n : Nat)
  | s (r : Nat)
  | k (n : Nat)
  | q (n : Nat)
  deriving DecidableEq, Repr

def useV (t : Ty) (r : BitVec 8) : Use := if Ty.wide t then .pair r.toNat else .v r.toNat

def Src.use (t : Ty) : Src → List Use
  | .vec r => [useV t r]
  | .sca r => [.s r.toNat]
  | .con _ => []

def Dst.use (t : Ty) : Dst → List Use
  | .vec r => [useV t r]
  | .sca r => [.s r.toNat]

def SC.use : SC → List Use
  | .sca r => [.s r.toNat]
  | .con _ => []

def MX.use : MX → List Use
  | .k n => [.k n.toNat]
  | .exec => []

def kUse (k : BitVec 4) : List Use := if k = 0 then [] else [.k k.toNat]
def sUse (r : BitVec 7) : List Use := [.s r.toNat]
def qUse (q : BitVec 4) : List Use := [.q q.toNat]

def Op1.use (tyD tyA : Ty → Ty) (o : Op1) : List Use := kUse o.k ++ Dst.use (tyD o.ty) o.d ++ Src.use (tyA o.ty) o.a
def Op2.use (tyB : Ty → Ty) (o : Op2) : List Use :=
  kUse o.k ++ Dst.use o.ty o.d ++ Src.use o.ty o.a ++ Src.use (tyB o.ty) o.b
def Op3.use (tyB : Ty → Ty) (o : Op3) : List Use :=
  kUse o.k ++ Dst.use o.ty o.d ++ Src.use o.ty o.a ++ Src.use (tyB o.ty) o.b ++ Src.use o.ty o.c
def OpC.use (o : OpC) : List Use := kUse o.k ++ [.k o.d.toNat] ++ Src.use o.ty o.a ++ Src.use o.ty o.b

def CvtDst.type : CvtDst → Ty
  | .ty t => t
  | _ => .h8

def OpCvt.use (o : OpCvt) : List Use := kUse o.k ++ Dst.use (CvtDst.type o.dst) o.d ++ Src.use o.src.ty o.a
def OpShfl.use (o : OpShfl) : List Use := kUse o.k ++ [useV o.ty o.d, useV o.ty o.a] ++ Src.use .n32 o.b

def LaneSel.use : LaneSel → List Use
  | .lit _ => []
  | .sca r => [.s r.toNat]

def MAddr.use : MAddr → List Use
  | .pair a => [.pair a.toNat]
  | .base a => [.s a.toNat]
  | .idx a b _ => [.s a.toNat, .v b.toNat]
  | .uidx a b _ => [.s a.toNat, .s b.toNat]

def OpM.use (o : OpM) : List Use := kUse o.k ++ MAddr.use o.addr

def OpAtom.use (o : OpAtom) : List Use :=
  OpM.use o.m ++ (match o.d with | some d => Dst.use o.m.ty d | none => []) ++ Dst.use o.m.ty o.b
    ++ (match o.c with | some d => Dst.use o.m.ty d | none => [])

/-- Consecutive scalar registers. -/
def sRun (r : BitVec 7) (n : Nat) : List Use := (List.range n).map (fun i => .s (r.toNat + i))

def OpCp.use (dSpad aSpad : Bool) (o : OpCp) : List Use :=
  qUse o.q ++ (if o.lay && dSpad then sRun o.d 3 else sUse o.d) ++ (if o.lay && aSpad then sRun o.a 3 else sUse o.a)
    ++ sUse o.b ++ (match o.e3 with | some r => sUse r | none => [])
    ++ (match o.fo with | some (p, f) => sUse p ++ sRun f 2 | none => [])

/-- Registers of a macro's window (R40, R156, R163, R170, R177, R183). -/
def macWindow (w : BitVec 8) (n : Nat) : Use := .run w.toNat n

def OpMac.use (n : Nat) (o : OpMac) : List Use := [macWindow o.w n] ++ sUse o.sp ++ sUse o.sr

/-- The registers that an instruction names. -/
def usesOf : Instr → List Use
  | .add _ o | .sub _ o | .mul _ o | .mulh o | .min o | .max o | .and o | .or o | .xor o | .andn o
  | .shl o | .shr o | .rot o | .divQuo o | .divRem o => Op2.use id o
  | .mad _ o => Op3.use id o
  | .abs _ o | .brev o | .mov o => Op1.use id id o
  | .clz o | .popc o => Op1.use (fun _ => .n32) id o
  | .bfe o => Op2.use (fun _ => .n32) o
  | .bfi o => Op3.use (fun _ => .n32) o
  | .sel kc o | .addc kc o | .subb kc o => kUse kc ++ Op2.use id o
  | .cmpEq o | .cmpNe o | .cmpLt o | .cmpLe o | .cmpGt o | .cmpGe o => OpC.use o
  | .movi d wide _ _ => Dst.use (if wide then .n64 else .n32) d
  | .movx k ty d _ => kUse k ++ Dst.use ty d
  | .lea _ o => Op2.use (fun _ => .n32) o
  | .fadd _ _ o | .fsub _ _ o | .fmul _ _ o | .fdiv _ _ o | .fmin o | .fmax o => Op2.use id o
  | .fma _ _ o => Op3.use id o
  | .fscale _ _ o => Op2.use (fun _ => .i32) o
  | .fcmpEq o | .fcmpNe o | .fcmpLt o | .fcmpLe o | .fcmpGt o | .fcmpGe o | .fcmpOrd o | .fcmpUno o => OpC.use o
  | .fcls o | .fexp o => Op1.use (fun _ => .n32) id o
  | .frnd _ o | .fsqrt _ o | .frcp _ o | .frsq _ o | .fex2 _ o | .flg2 _ o | .ftrigSin _ o | .ftrigCos _ o => Op1.use id id o
  | .cvt _ _ o => OpCvt.use o
  | .pack _ o => Op1.use (fun _ => .b32) id o
  | .unpack _ o => Op1.use id (fun _ => .b32) o
  | .shflIdx o | .shflXor o | .shflUp o | .shflDown o => OpShfl.use o
  | .bcast o => kUse o.k ++ Dst.use o.ty o.d ++ [useV o.ty o.a] ++ LaneSel.use o.n
  | .scanAdd _ _ o => kUse o.k ++ [useV o.ty o.d] ++ Src.use o.ty o.a
  | .scanMin o | .scanMax o | .scanAnd o | .scanOr o | .scanXor o => kUse o.k ++ [useV o.ty o.d] ++ Src.use o.ty o.a
  | .redAdd _ _ o => kUse o.k ++ Dst.use o.ty o.d ++ Src.use o.ty o.a
  | .redMin o | .redMax o | .redAnd o | .redOr o | .redXor o => kUse o.k ++ Dst.use o.ty o.d ++ Src.use o.ty o.a
  | .matchEq k wide d a => kUse k ++ [.pair d.toNat] ++ [useV (if wide then .n64 else .b32) a]
  | .lanes k wide d a => kUse k ++ [.k d.toNat] ++ [useV (if wide then .n64 else .b32) a]
  | .kand d a b | .kor d a b | .kxor d a b | .kandn d a b => MX.use d ++ MX.use a ++ MX.use b
  | .knot d a => MX.use d ++ MX.use a
  | .kmov o => match o with
    | .mm d a => MX.use d ++ MX.use a
    | .ms d a => sUse d ++ MX.use a
    | .sm d a => MX.use d ++ sUse a
  | .kpop d a | .kfind d a => sUse d ++ MX.use a
  | .krank k d a => kUse k ++ [.v d.toNat] ++ MX.use a
  | .kset d _ _ => MX.use d
  | .bany k _ | .ball k _ | .bnone k _ => kUse k
  | .brx a => sUse a
  | .calli a => [.pair a.toNat]
  | .barArrive _ a b | .barSync _ a b => SC.use a ++ SC.use b
  | .barWait a => SC.use a
  | .spawn q a b _ => qUse q ++ sUse a ++ SC.use b
  | .spawnL k q a b _ => kUse k ++ qUse q ++ [.pair a.toNat, .v b.toNat]
  | .ld d m | .st d m => OpM.use m ++ Dst.use m.ty d
  | .pref m => OpM.use m
  | .l2pinPin d m | .l2pinUnpin d m => OpM.use m ++ [.k d.toNat]
  | .ldlod o => kUse o.k ++ [if o.wide then .pair o.d.toNat else .v o.d.toNat]
      ++ sUse o.sh ++ [.v o.vc.toNat, .v o.ve0.toNat, .v o.ve1.toNat]
  | .atomAdd o | .atomFadd o | .atomMin o | .atomMax o | .atomAnd o | .atomOr o | .atomXor o | .atomXchg o
  | .atomCas o | .atomInc o => OpAtom.use o
  | .cfadd o => kUse o.k ++ [.k o.d.toNat] ++ sUse o.a ++ Src.use .n32 o.b ++ [if o.wide then .pair o.c.toNat else .v o.c.toNat]
  | .cfread o => sUse o.d ++ sUse o.a ++ sUse o.e
  | .gbindBind d a b c => sUse d ++ sUse a ++ sUse b ++ sUse c
  | .gbindUnbind d a | .gacq _ d a | .grel _ d a | .gwait d a => sUse d ++ sUse a
  | .cpMm o | .cpMo o | .cpOm o => OpCp.use false false o
  | .cpMs o | .cpOs o => OpCp.use true false o
  | .cpSm o | .cpSo o => OpCp.use false true o
  | .cpg o => qUse o.q ++ sUse o.d ++ sUse o.a ++ sUse o.b ++ sUse o.c ++ sUse o.e3
  | .collSum o | .collMin o | .collMax o | .collGather o | .collBcast o =>
      qUse o.q ++ sUse o.d ++ sUse o.a ++ sUse o.b ++ sUse o.c ++ sUse o.e2
  | .seal d => match d with | some r => sUse r | none => []
  | .waitb a _ => SC.use a
  | .qwait d q => (match d with | some r => sUse r | none => []) ++ qUse q
  | .qtest d q | .qdue d q => sUse d ++ qUse q
  | .qcan q | .sleep q => qUse q
  | .qmovSt a q | .qmovLd q a => sUse a ++ qUse q
  | .omclaim d _ _ => sUse d
  | .omld o | .omst o => kUse o.k ++ [useV o.ty o.d, .v o.b.toNat]
  | .wload o => qUse o.q ++ sUse o.sp
  | .wmint o => qUse o.q ++ sUse o.sp
  | .mmul o => qUse o.q ++ sUse o.sp
  | .mseek o => qUse o.q ++ sUse o.sp ++ sUse o.sb
  | .rast o => OpMac.use 12 o
  | .oblend o => OpMac.use 5 o
  | .filt o => OpMac.use 16 o.m ++ sUse o.a ++ kUse o.k
  | .travClosest o | .travAny o => OpMac.use 24 o.m ++ sUse o.a ++ kUse o.k
  | .travBox o | .travSphere o => OpMac.use 24 o.m ++ sUse o.a ++ kUse o.k
  | .bvrefit o => OpMac.use 1 o.m ++ sUse o.a
  | .gqpushOpen d a b c => sUse d ++ sUse a ++ sUse b ++ sUse c
  | .gqpushVtx k d a b c | .gqpushPrim k d a b c => kUse k ++ [.run d.toNat 4] ++ sUse a ++ sUse b ++ [.v c.toNat]
  | .gqpushClose a b | .gqpopFree a b | .gqpopTake a b => sUse a ++ sUse b
  | .gqpopRec k d a c => kUse k ++ [.run d.toNat 4] ++ sUse a ++ [.v c.toNat]
  | .psalloc k d c => kUse k ++ [.v d.toNat] ++ [.k c.toNat]
  | .psfree k a c => kUse k ++ [.v a.toNat] ++ [.k c.toNat]
  | .sqpush k a _ c => kUse k ++ [.v a.toNat] ++ [.k c.toNat]
  | .sqpop k d _ c => kUse k ++ [.v d.toNat] ++ [.k c.toNat]
  | .exit => [.k 1]
  | .rdsr d _ => Dst.use .n32 d
  | .wrsr _ b => SC.use b
  | .rdsrWindow o => match o with
    | .wv k d _ _ => kUse k ++ [.v d.toNat]
    | .ws d _ _ => sUse d
    | .wk d _ _ => MX.use d
    | .ei0 d | .ei1 d | .rpc d => sUse d
  | .wrsrWindow o => match o with
    | .wv k _ b _ => kUse k ++ [.v b.toNat]
    | .ws _ b _ => sUse b
    | .wk _ b _ => MX.use b
    | .rpc b => sUse b
  | .tlbinvRange _ d a b c => sUse d ++ sUse a ++ sUse b ++ sUse c
  | .tlbinvCtx _ d c => sUse d ++ sUse c
  | .tlbinvHnd d a b c => sUse d ++ sUse a ++ sUse b ++ sUse c
  | .pmrd d => sRun d 8
  | .pmctl a => sUse a
  | .qrst d a b => sUse d ++ sUse a ++ sUse b
  | _ => []

/-- A register lies within the allowance and the declared scalars, and a pair starts even (test 5 of R54). -/
def Wave.admits (w : Wave) : Use → Bool
  | .v r => decide (r < w.allow)
  | .pair r => r % 2 == 0 && decide (r + 1 < w.allow)
  | .run r n => decide (r + n ≤ 256) && decide (r + n ≤ w.allow)
  | .s r => decide (r < w.sregs)
  | _ => true

/-- Test 5 of R54, with the bounds of `ralloc` and `rfree` (R272). -/
def Wave.boundsOk (w : Wave) (i : Instr) : Bool :=
  (usesOf i).all w.admits &&
  (match i with
   | .ralloc n => decide (w.allow + n.toNat ≤ 256)
   | .rfree n => decide (n.toNat + 8 ≤ w.allow)
   | _ => true)

/-- The unit that an instruction needs, as its bit of UNITDIS (R298, test 6 of R54). -/
def unitOf : Instr → Option Nat
  | .wload _ | .wmint _ | .mmul _ | .mseek _ | .vqtab _ _ | .vqtabClr => some 0
  | .rast _ => some 1
  | .oblend _ => some 2
  | .filt _ => some 3
  | .travClosest _ | .travAny _ | .travBox _ | .travSphere _ | .bvrefit _ => some 4
  | .cpMm _ | .cpMs _ | .cpSm _ | .cpMo _ | .cpOm _ | .cpSo _ | .cpOs _ | .cpg _ => some 5
  | .collSum _ | .collMin _ | .collMax _ | .collGather _ | .collBcast _ => some 6
  | _ => none

/-- The base-form instructions whose operands lie in vector registers: event 2 of R307 counts their lanes. -/
def isVector (i : Instr) : Bool := (usesOf i).any (fun u => match u with | .v _ | .pair _ => true | _ => false)

/-- The K field of an instruction, for `active(W)` (R7). -/
def predOf (i : Instr) : Nat :=
  match i with
  | .add _ o | .sub _ o | .mul _ o => o.k.toNat
  | .mulh o | .min o | .max o | .and o | .or o | .xor o | .andn o | .shl o | .shr o | .rot o | .divQuo o | .divRem o
  | .bfe o | .fmin o | .fmax o | .sel _ o | .addc _ o | .subb _ o | .lea _ o => o.k.toNat
  | .mad _ o => o.k.toNat
  | .abs _ o => o.k.toNat
  | .brev o | .mov o | .clz o | .popc o | .fcls o | .fexp o => o.k.toNat
  | .bfi o => o.k.toNat
  | .cmpEq o | .cmpNe o | .cmpLt o | .cmpLe o | .cmpGt o | .cmpGe o
  | .fcmpEq o | .fcmpNe o | .fcmpLt o | .fcmpLe o | .fcmpGt o | .fcmpGe o | .fcmpOrd o | .fcmpUno o => o.k.toNat
  | .movx k _ _ _ => k.toNat
  | .fadd _ _ o | .fsub _ _ o | .fmul _ _ o | .fdiv _ _ o | .fscale _ _ o => o.k.toNat
  | .fma _ _ o => o.k.toNat
  | .frnd _ o | .fsqrt _ o | .frcp _ o | .frsq _ o | .fex2 _ o | .flg2 _ o | .ftrigSin _ o | .ftrigCos _ o => o.k.toNat
  | .cvt _ _ o => o.k.toNat
  | .pack _ o | .unpack _ o => o.k.toNat
  | .shflIdx o | .shflXor o | .shflUp o | .shflDown o => o.k.toNat
  | .bcast o => o.k.toNat
  | .scanAdd _ _ o => o.k.toNat
  | .scanMin o | .scanMax o | .scanAnd o | .scanOr o | .scanXor o => o.k.toNat
  | .redAdd _ _ o => o.k.toNat
  | .redMin o | .redMax o | .redAnd o | .redOr o | .redXor o => o.k.toNat
  | .matchEq k _ _ _ | .lanes k _ _ _ | .krank k _ _ => k.toNat
  | .ld _ m | .st _ m | .pref m | .l2pinPin _ m | .l2pinUnpin _ m => m.k.toNat
  | .ldlod o => o.k.toNat
  | .atomAdd o | .atomFadd o | .atomMin o | .atomMax o | .atomAnd o | .atomOr o | .atomXor o | .atomXchg o
  | .atomCas o | .atomInc o => o.m.k.toNat
  | .cfadd o => o.k.toNat
  | .spawnL k _ _ _ _ | .gqpushVtx k _ _ _ _ | .gqpushPrim k _ _ _ _ | .gqpopRec k _ _ _
  | .psalloc k _ _ | .psfree k _ _ | .sqpush k _ _ _ | .sqpop k _ _ _ => k.toNat
  | .omld o | .omst o => o.k.toNat
  | .filt o => o.k.toNat
  | .travClosest o | .travAny o | .travBox o | .travSphere o => o.k.toNat
  | .rdsrWindow (.wv k _ _ _) | .wrsrWindow (.wv k _ _ _) => k.toNat
  | _ => 0

/-- Image lines that hold a register (R29). -/
def Wave.linesFor (w : Wave) : Use → List Nat
  | .v r => (List.range w.width.g).map (fun i => w.lnVec + r * w.width.g + i)
  | .pair r => (List.range (2 * w.width.g)).map (fun i => w.lnVec + r * w.width.g + i)
  | .run r n => (List.range (n * w.width.g)).map (fun i => w.lnVec + r * w.width.g + i)
  | .s r => (List.range w.width.c).map (fun p => w.lnScal + p * w.scalLines + r / 16)
  | .k _ => (List.range w.width.c).map (fun p => w.lnMasks + p)
  | .q _ => (List.range w.width.c).map (fun p => w.lnRcpts + p)

/-- A register is the destination of an outstanding access (R320). -/
def Access.busy (a : Access) (u : Use) : Bool :=
  let dst : Option Dst := match a.kind with | .load d => some d | .atom _ d => d | .store => none
  match dst with
  | some (.vec r) =>
    let lo := r.toNat
    let hi := if Ty.wide a.ty then lo + 1 else lo
    match u with
    | .v n => decide (lo ≤ n) && decide (n ≤ hi)
    | .pair n => decide (lo ≤ n + 1) && decide (n ≤ hi)
    | .run n c => decide (lo < n + c) && decide (n ≤ hi)
    | _ => false
  | some (.sca r) => u == .s r.toNat
  | none => false

end Sys2Proof.Machine
end

