-- ==== Sys2Proof/Machine/Issue.lean ====
section
/-!
DEFINITION. Fetch, decode and what comes before an instruction has its effect (spec/02_encoding.md R54;
spec/07_ordering.md R207; spec/12_recovery.md R318 to R320, R335, R336; spec/01_machine.md R31).
-/

namespace Sys2Proof.Machine

/-! ## Fetch -/

inductive Fetched where
  | word (x : W64) (m : Mach)
  | absent (level : Nat) (m : Mach)
  | perm (m : Mach)
  | poison (m : Mach)
  deriving DecidableEq, Repr

def lineWord (d : BitVec 1024) (o : Nat) : W64 := d.extractLsb' (8 * o) 64

/-- Room for one more line in a core's instruction cache: the oldest leaves a full one (R188). -/
def roomIn (core : Nat) (l : List ILine) : List ILine :=
  if decide (l.length < Config.icacheLines) then l else
  if (l.filter (fun x => x.core == core)).length < Config.icacheLines then l
  else match l.find? (fun x => x.core == core) with
    | some y => l.filter (fun x => !(x.core == core && x.ctx == y.ctx && x.vline == y.vline))
    | none => l

/-- The word at an address through the core's instruction cache (R207), with the permission of R294. A word
that the cache holds and home no longer does may be read either way until `ifence`. -/
def fetchWord (g : Mgmt) (m : Mach) (core c va : Nat) : Fetched :=
  if !canonical va then .perm m else
  match xlate g m c va needX with
  | (.absent level, m) => .absent level m
  | (.perm _, m) => .perm m
  | (.ok pa _ _, m) =>
    let vline := lineOf (va % 2 ^ 57)
    let o := va % 128
    let line := BitVec.ofNat 1024 (bytesNat (m.rdAny (pa - pa % 128) 128))
    match m.icache.find? (fun x => x.core == core && x.ctx == c && x.vline == vline) with
    | some x =>
      let old := lineWord x.data o
      let new := lineWord line o
      .word (if old = new then new else if Config.fetchOld m.tick then old else new) m
    | none =>
      if m.poisoned pa 8 then .poison m else
      let m := if isMem pa then m.l2Req c (lineOf pa) false else m
      .word (lineWord line o) { m with icache := roomIn core m.icache ++ [{ core, ctx := c, vline, data := line }] }

/-! ## Whether a wave may be tried -/

/-- The debug record of a block, as read (R335): its 512 bytes, or mode none when a reserved byte is set. -/
def debugReserved : List (Nat × Nat) :=
  [(1, 8), (0xC, 0x10), (0x120, 0x200)] ++ (List.range 4).flatMap (fun i => [(0xA0 + 32 * i + 13, 0xA0 + 32 * i + 16), (0xA0 + 32 * i + 24, 0xC0 + 32 * i)])

def debugOk (l : List Host.Cell) : Bool :=
  fld (mget memDefault l 0).toNat 1 7 == 0 && l.all (fun x => !(debugReserved.any (fun r => decide (r.1 ≤ x.1) && decide (x.1 < r.2))))
    && (List.range 4).all (fun i => fld (mget memDefault l (0xA0 + 32 * i + 12)).toNat 2 6 == 0)

def isDebug (code : Nat) : Bool := decide (0x42 ≤ code) && decide (code ≤ 0x44)

/-- A wave has a debug trap entry on its stack (R336). -/
def Wave.debugging (w : Wave) : Bool := w.stack.any (fun e => e.kind == .trap && isDebug e.cause.toNat)

/-- FREEZE: another wave of the block has a debug trap entry on its stack (R336). -/
def Mach.frozen (m : Mach) (id : Nat) (w : Wave) (x : Ctx) (b : Block) : Bool :=
  x.debug != 0 && debugOk b.debug && (mget memDefault b.debug 0).getLsbD 0 &&
    m.waves.any (fun v => v.1 != id && v.2.block == w.block && v.2.debugging)

/-- The partition runs the context's function, and its cores are not halted (R305). -/
def Mach.running (m : Mach) (x : Ctx) : Bool := (m.part x.part).running == x.vf && !(m.part x.part).halted

/-- What keeps a wave from issuing whatever its instruction is (R31, R197, R326, R327, R330, R336). -/
def Mach.blocked (m : Mach) (id : Nat) (w : Wave) (x : Ctx) (b : Block) : Option Why :=
  if m.frozen id w x b then some .frozen
  else if w.heldLoad || w.acc.any (fun a => a.held || !a.bad.isEmpty) then some .fault
  else if w.acc.any (fun a => a.acq) then some .access
  else if w.acc.any (fun a => !a.known && decide (16 ≤ a.younger)) then some .skid
  else if m.units.any (fun u => u.wave == id) || m.array.any (fun a => a.wave == id && a.op.isNone) then some .unit
  else none

/-! ## Debug causes before issue -/

def dbgN (l : List Host.Cell) (o n : Nat) : Nat := bytesNat (mgetN memDefault l o n)

/-- DEBUG_STEP and DEBUG_PC (R336): the code and its lanes; not raised when EMUENTRY is zero (R318). -/
def debugBefore (m : Mach) (x : Ctx) (b : Block) (w : Wave) (i : Instr) : Option (Nat × W64 × W64) :=
  let all := fun p => w.activeMask p (predOf i)
  if w.quiet || w.inBar || m.emuentry x = 0 || w.stack.any (fun e => e.kind == .trap) || !debugOk b.debug then none
  else if x.debug = 1 then
    let sb := dbgN b.debug 8 4
    let stepped := fun (p : Bool) =>
      (w.half p).present && (sb == 2 ^ 32 - 1 || sb == b.blockid) && fld (dbgN b.debug 0x10 16) (w.half p).waveid 1 == 1
    if w.groups.any stepped then
      some (0x42, if stepped false then all false else 0, if w.groups.contains true && stepped true then all true else 0)
    else none
  else if x.debug = 2 then
    let hit := fun (p : Bool) =>
      (List.range 8).foldl (fun (k : W64) n =>
        let a := dbgN b.debug (0x20 + 16 * n) 8
        if a % 2 == 1 && a - 1 == w.pc.toNat then k ||| (all p &&& w64 (dbgN b.debug (0x28 + 16 * n) 8)) else k) 0
    let h0 := hit false
    let h1 := if w.groups.contains true then hit true else 0
    if h0 = 0 && h1 = 0 then none else some (0x43, h0, h1)
  else none

/-- `resume_path` goes on for a wave that it holds (R247). -/
def Mach.resumeHeld (m : Mach) (id : Nat) (w : Wave) (b : Block) (n : Nat) : Mach :=
  match w.resumePath b n with
  | .path v => { m.putWave id { v.retired with quiet := false } with changes := m.changes + 1 }
  | .hold v k => m.putWave id { v with hold := .wait m.changes (.paths k) }
  | .none v => m.putWave id { v with hold := .none }

/-! ## Issue -/

/-- What one attempt to issue comes to: an instruction to run, or a state in which none did. -/
inductive Prep where
  | run (i : Instr) (m : Mach)
  | stop (m : Mach)
  deriving DecidableEq, Repr

/-- Tests 5 and 6 of R54. -/
def judged (x : Ctx) (w : Wave) (i : Instr) : Instr :=
  if !w.boundsOk i then .emulate .bound
  else match unitOf i with
    | some u => if x.unitdis.getLsbD u then .emulate .unit else i
    | none => i

/-- OP 0xE0 to 0xEF (R57, R361): a loaded set that the kernel names provides the opcode. -/
def Ctx.provides (x : Ctx) (ucode : Nat) (op : BitVec 4) : Bool :=
  match x.ucode with | some u => u.id == ucode && u.ops.getLsbD op.toNat | none => false

/-- The decoder gives the word a cause, which comes before the debug causes (R54, R319). -/
def Mach.decodeCause (m : Mach) (x : Ctx) (w : Wave) (i : Instr) : Bool :=
  match i with
  | .zeroWord | .emulate _ => true
  | .microcodeOp op => (m.launch? w.launch).elim true (fun l => !x.provides l.ucode op)
  | _ => false

/-- The wave waits; the machine as it stands now has been tried. -/
def Mach.holdWave (m : Mach) (id : Nat) (w : Wave) (why : Why) : Mach :=
  m.putWave id { w with hold := .wait m.changes why }

/-- The fetch or decode of the instruction at the PC, for a wave that may issue. -/
def Mach.fetchInstr (g : Mgmt) (m : Mach) (id : Nat) (w : Wave) (x : Ctx) : Prep :=
  let holdFetch : Nat → Nat → Mach → Prep := fun va level m =>
    let joined := (match w.hold with | .wait _ .fetch => true | _ => false) &&
      (match m.ctx? w.ctx with | some x => x.pending.any (fun p => p.page == pageOf (va % 2 ^ 57)) | none => false)
    let m := if joined then m else m.absent w.ctx va level kindExec
    .stop (m.holdWave id w .fetch)
  let perm : Mach → Prep := fun m =>
    .stop { takeTrap g m id w x { code := 3, rpc := w.pc, addr := w.pc, addr1 := w.pc, lanes0 := w.lo.exec, lanes1 := w.hi.exec }
            with changes := m.changes + 1 }
  let poison : Mach → Prep := fun m => .stop { contextReset g m w.ctx 0x52 0 with changes := m.changes + 1 }
  let run : W64 → W64 → Mach → Prep := fun b e m => .run (judged x w (decodeTotal b e)) { m with cur := some id, word := b }
  match fetchWord g m w.core w.ctx w.pc.toNat with
  | .absent level m => holdFetch w.pc.toNat level m
  | .perm m => perm m
  | .poison m => poison m
  | .word b m =>
    if bit b 54 then
      match fetchWord g m w.core w.ctx (w.pc + 8).toNat with
      | .absent level m => holdFetch (w.pc + 8).toNat level m
      | .perm m => perm m
      | .poison m => poison m
      | .word e m => run b e m
    else run b 0 m

/-- Nothing has issued yet at the wave's PC: it does not wait, or it waits before issue. -/
def Hold.early : Hold → Bool
  | .none => true
  | .wait _ (.page _) | .wait _ (.gwait _ true) => true
  | .wait _ why => [Why.frozen, .fault, .access, .skid, .unit, .fetch, .score].contains why

/-- What becomes of a hold at a stop (R334): the waits are reissued on resumption; a wait in `gwait` goes on meanwhile
(R229). -/
def Hold.stopped : Hold → Hold
  | .wait k (.gwait l _) => .wait k (.gwait l true)
  | .wait _ (.bar _) | .wait _ (.rcpt ..) | .wait _ (.sleep ..) | .wait _ (.wcnt ..) | .wait _ (.waitb _) => .none
  | h => h

/-- Counts the issue and its active lanes (R307, R380): a W = 64 wave counts 2, a wait that tries again counts
nothing, and neither does the second half of a pair's command. -/
def Mach.countIssue (m : Mach) (w : Wave) (i : Instr) : Mach :=
  if w.hold.early && (!w.inBar || (match i with | .barSync .. => true | _ => false)) then
    let m := m.count w.ctx 1 w.width.g
    if isVector i then m.count w.ctx 2 (w.groups.foldl (fun n p => n + (w.active p (predOf i)).length) 0) else m
  else m

/-- A register that an outstanding follow-on of the wave writes (R138). -/
def Mach.followBusy (m : Mach) (id : Nat) (u : Use) : Bool :=
  m.ops.any (fun (o : Nat × EngOp) => o.2.wave == id && (match o.2.fo with
    | none => false
    | some (b, x) => match decodeTotal b x with
      | .wload o => u == .s o.sp.toNat
      | .wmint o => u == .s o.sp.toNat
      | .mmul o => u == .s o.sp.toNat
      | .mseek o => u == .s o.sp.toNat || u == .s o.sb.toNat
      | _ => false))

/-- One attempt of a wave to issue its next instruction. -/
def State.prepare (s : State) (id : Nat) : Prep :=
  match s.m.wave? id with
  | none => .stop s.m
  | some w =>
    match s.m.ctx? w.ctx, s.m.block? w.block with
    | some x, some b =>
      if !s.m.resident w || !s.m.running x then .stop s.m
      else match s.m.blocked id w x b with
      | some why => .stop (s.m.holdWave id w why)
      | none =>
        match w.hold with
        | .wait _ (.paths n) => .stop (s.m.resumeHeld id w b n)
        | _ =>
        match (s.m.askWave w).fetchInstr s.mgmt id w x with
        | .stop m => .stop m
        | .run i m =>
          match (if m.decodeCause x w i then none else debugBefore m x b w i), w.hold.early with
          | some (code, l0, l1), true =>
            .stop { takeTrap s.mgmt m id w x { code, rpc := w.pc, addr := w.pc, addr1 := w.pc, lanes0 := l0, lanes1 := l1 }
                    with changes := m.changes + 1 }
          | _, _ =>
            let uses := usesOf i
            if w.acc.any (fun a => uses.any a.busy) || uses.any (m.followBusy id) then .stop (m.holdWave id w .score)
            else if uses.any (fun u => (w.linesFor u).any w.missing.contains) then .stop (m.holdWave id w .fetch)
            else
              let m := m.countIssue w i
              .run i (m.putWave id { w with passed := 0, yielded := false })
    | _, _ => .stop s.m

end Sys2Proof.Machine
end

