-- ==== Sys2Proof/Machine/MaskOps.lean ====
section
/-!
DEFINITION. Mask instructions (spec/04_vector_isa.md R119 to R123).
-/

namespace Sys2Proof.Machine

/-- A mask result for each pass, from the masks as they stood. -/
def Env.maskWrite (e : Env) (d : MX) (f : Bool → W64) : WOut :=
  e.ok (e.w.passes.foldl (fun w p => w.setMX p d (f p)) e.w)

def Env.maskScalar (e : Env) (d : BitVec 7) (f : Bool → W64) : WOut :=
  e.ok (e.w.passes.foldl (fun w p => w.setS p d.toNat (f p)) e.w)

def execKand (d a b : MX) (s : State) : Host.Outcome State Fault Refusal :=
  withCur (fun e => e.maskWrite d (fun p => e.w.getMX p a &&& e.w.getMX p b)) s
def execKor (d a b : MX) (s : State) : Host.Outcome State Fault Refusal :=
  withCur (fun e => e.maskWrite d (fun p => e.w.getMX p a ||| e.w.getMX p b)) s
def execKxor (d a b : MX) (s : State) : Host.Outcome State Fault Refusal :=
  withCur (fun e => e.maskWrite d (fun p => e.w.getMX p a ^^^ e.w.getMX p b)) s
def execKandn (d a b : MX) (s : State) : Host.Outcome State Fault Refusal :=
  withCur (fun e => e.maskWrite d (fun p => e.w.getMX p a &&& ~~~(e.w.getMX p b))) s
def execKnot (d a : MX) (s : State) : Host.Outcome State Fault Refusal :=
  withCur (fun e => e.maskWrite d (fun p => ~~~(e.w.getMX p a))) s

/-- `kmov` (R120). -/
def execKmov (o : KmovOp) (s : State) : Host.Outcome State Fault Refusal :=
  withCur (fun e =>
    match o with
    | .mm d a => e.maskWrite d (fun p => e.w.getMX p a)
    | .ms d a => e.maskScalar d (fun p => e.w.getMX p a)
    | .sm d a => e.maskWrite d (fun p => e.w.getS p a.toNat)) s

def execKpop (d : BitVec 7) (a : MX) (s : State) : Host.Outcome State Fault Refusal :=
  withCur (fun e => e.maskScalar d (fun p => w64 (bitsOf (e.w.getMX p a) e.w.W).length)) s

/-- The lowest one bit, or all ones when there is none (R121). -/
def execKfind (d : BitVec 7) (a : MX) (s : State) : Host.Outcome State Fault Refusal :=
  withCur (fun e => e.maskScalar d (fun p =>
    match bitsOf (e.w.getMX p a) e.w.W with
    | l :: _ => w64 l
    | [] => BitVec.allOnes 64)) s

def execKrank (k : BitVec 4) (d : BitVec 8) (a : MX) (s : State) : Host.Outcome State Fault Refusal :=
  withCur (fun e => e.ok (e.w.putAll .n32 (.vec d)
    (e.each k.toNat false (fun p l => ((bitsOf (e.w.getMX p a) l).length, 0))))) s

/-- Ones in positions lo to hi − 1, clipped to W (R123). -/
def ksetMask (w lo hi : Nat) : W64 := maskOf ((List.range (min hi w)).filter (fun i => lo ≤ i))

def execKset (d : MX) (lo hi : BitVec 7) (s : State) : Host.Outcome State Fault Refusal :=
  withCur (fun e => e.maskWrite d (fun _ => ksetMask e.w.W lo.toNat hi.toNat)) s

end Sys2Proof.Machine
end

