-- ==== Sys2Proof/Machine/Flow.lean ====
section
/-!
DEFINITION. Branches, paths, calls and the end of lanes (spec/09_progress.md R249 to R259, R274).
-/

namespace Sys2Proof.Machine

/-- A J-form target (R48). -/
def Wave.target (w : Wave) (off : BitVec 40) : W64 := w.pc + w64 (wrapI (8 * sext off.toNat 40) 64)

/-- The ageing limit: the lower one of the halves that have lanes left (R23, R253). -/
def Wave.ageLimit (w : Wave) : Nat :=
  let ps := w.groups.filter (fun p => w.liveMask p != 0)
  ps.foldl (fun n p => min n (w.half p).agelim.toNat) 255

def Entry.aged (e : Entry) : Entry :=
  if e.isPath then { e with age := if e.age = 255 then 255 else e.age + 1 } else e

/-- A taken transfer to `t`, with the ageing rule when it is backward (R249, R253). -/
def Env.goto (e : Env) (w : Wave) (t : W64) : WOut :=
  if w.pc.toNat < t.toNat then .next e.m { w with pc := t } else
  let fr := frameOf w.stack
  if !fr.any Entry.isPath then .next e.m { w with pc := t }
  else if fr.any (fun x => e.b.eligible w x && decide (w.ageLimit ≤ x.age.toNat)) then
    match w.oldest e.b, w.push { rpc := t, mask := w.hwMask } with
    | some (n, x), some v => .next e.m (v.runEntry (n + 1) x)
    | _, _ => e.overflow
  else .next e.m { w with pc := t, stack := fr.map Entry.aged ++ belowFrame w.stack }

/-- The halves that take part in a branch: those with lanes in `exec`, or half 0 when none has (R250). -/
def Wave.judges (w : Wave) : List Bool :=
  match w.groups.filter w.execs with
  | [] => [false]
  | l => l

/-- Lanes of one half leave `exec`, pushed as a deferred path (R250). -/
def Env.defer (e : Env) (p : Bool) (t : W64) (k : Wave → WOut) : WOut :=
  match e.w.push { rpc := t, mask := e.w.hwHalf p (e.w.half p).exec } with
  | none => e.overflow
  | some w => k (w.setExec p 0)

/-- A conditional branch, judged for the pair as R250 states. -/
def Env.branch (e : Env) (off : BitVec 40) (taken : Bool → Bool) : WOut :=
  let t := e.w.target off
  match e.w.judges with
  | [p, q] =>
    if taken p == taken q then (if taken p then e.goto e.w t else e.ok e.w)
    else e.defer (if taken p then p else q) t (fun w => e.ok w)
  | l => if l.all taken then e.goto e.w t else e.ok e.w

/-- The condition mask of a half; `k0` means `exec` (R48). -/
def Wave.cond (w : Wave) (p : Bool) (k : BitVec 4) : W64 := if k = 0 then (w.half p).exec else w.getK p k.toNat

def execBr (off : BitVec 40) (s : State) : Host.Outcome State Fault Refusal :=
  withCur (fun e => e.goto e.w (e.w.target off)) s

def execBany (k : BitVec 4) (off : BitVec 40) (s : State) : Host.Outcome State Fault Refusal :=
  withCur (fun e => e.branch off (fun p => ((e.w.half p).exec &&& e.w.cond p k) != 0)) s

def execBall (k : BitVec 4) (off : BitVec 40) (s : State) : Host.Outcome State Fault Refusal :=
  withCur (fun e => e.branch off (fun p => ((e.w.half p).exec &&& ~~~(e.w.cond p k)) == 0)) s

def execBnone (k : BitVec 4) (off : BitVec 40) (s : State) : Host.Outcome State Fault Refusal :=
  withCur (fun e => e.branch off (fun p => ((e.w.half p).exec &&& e.w.cond p k) == 0)) s

def misaligned (t : W64) : Bool := t.toNat % 8 != 0

/-- `brx` (R249, R250). -/
def execBrx (a : BitVec 7) (s : State) : Host.Outcome State Fault Refusal :=
  withCur (fun e =>
    let t := fun p => e.w.getS p a.toNat
    let js := e.w.judges
    let bad := fun p => if js.contains p && misaligned (t p) then (e.w.half p).exec else 0
    if js.any (fun p => misaligned (t p)) then e.before 2 (bad false) (bad true)
    else match js with
    | [p, q] => if t p = t q then e.goto e.w (t p) else e.defer q (t q) (fun w => .next e.m { w with pc := t p })
    | p :: _ => e.goto e.w (t p)
    | [] => e.ok e.w) s

/-! ## Split, join, calls -/

def execSplit (off : BitVec 40) (s : State) : Host.Outcome State Fault Refusal :=
  withCur (fun e =>
    if e.w.hwMask = 0 then e.ok e.w else
    match e.w.push { rpc := e.w.target off, mask := e.w.hwMask } with
    | none => e.overflow
    | some w => e.ok w) s

/-- The 512 bytes of the debug record, as read from the context's image region (R335). -/
def Mach.debugRecord (m : Mach) (x : Ctx) : List Host.Cell := msetN memDefault [] 0 (m.rd x.imgbase 512)

/-- The end of an instruction that ran `resume_path` (R247). -/
def Resumed.out (m : Mach) : Resumed → (Wave → WOut) → WOut
  | .path w, _ => .next m w
  | .hold w n, _ => .hold m w (.paths n)
  | .none w, k => k w

/-- `join` (R252, R323, R336). -/
def execJoin (s : State) : Host.Outcome State Fault Refusal :=
  withCur (fun e =>
    let w := e.w
    match w.stack with
    | [] => e.ok w
    | t :: r =>
      match t.kind with
      | .call => e.ok w
      | .trap =>
        let v := w.trapReturn t
        if isDebug t.cause.toNat then
          .next (e.m.updBlock w.block (fun b => { b with debug := e.m.debugRecord e.x })) { v with quiet := true }
        else .next e.m v
      | .path =>
        if t.jpc = w.pc && t.rpc = w.pc + 8 && !t.bw then
          .next e.m { ({ w with stack := r }).resumeMask (w.hwMask ||| t.mask) with pc := w.pc + 8 }
        else if w.hwMask = 0 then (w.resumePath e.b 0).out e.m (fun w => e.ok w)
        else match w.push { rpc := w.pc + 8, mask := w.hwMask, jpc := w.pc } with
          | none => e.overflow
          | some w => (w.resumePath e.b 1).out e.m (fun w => e.ok w)) s

def execCall (off : BitVec 40) (s : State) : Host.Outcome State Fault Refusal :=
  withCur (fun e =>
    match e.w.push { rpc := e.w.pc + 8, mask := e.w.hwMask, kind := .call } with
    | none => e.overflow
    | some w => .next e.m { w with pc := e.w.target off }) s

/-- The lanes of `exec` as hardware lanes, ascending, with each lane's target (R257). -/
def Wave.laneTargets (w : Wave) (a : Nat) : List (Nat × W64) :=
  w.groups.flatMap (fun p => (w.active p 0).map (fun l => (w.hw p l, w64 (w.vec p l .n64 a))))

/-- Groups of lanes with one target, ordered by their lowest lane. -/
def targetGroups : List (Nat × W64) → List (W64 × W64)
  | l => l.foldl (fun gs x =>
      if gs.any (fun g => g.1 == x.2) then updFirst (fun g => g.1 == x.2) (fun g => (g.1, setBit g.2 x.1 true)) gs
      else gs ++ [(x.2, setBit 0 x.1 true)]) []

def Wave.pushAll (w : Wave) : List Entry → Option Wave
  | [] => some w
  | e :: r => match w.push e with | none => none | some w => w.pushAll r

def execCalli (a : BitVec 8) (s : State) : Host.Outcome State Fault Refusal :=
  withCur (fun e =>
    let w := e.w
    let ts := w.laneTargets a.toNat
    let bad := fun p => maskOf ((w.active p 0).filter (fun l => misaligned (w64 (w.vec p l .n64 a.toNat))))
    if ts.any (fun x => misaligned x.2) then e.before 2 (bad false) (if w.groups.contains true then bad true else 0) else
    match targetGroups ts with
    | [] => e.ok w
    | g :: gs =>
      let entries : List Entry := gs.reverse.map (fun g => { rpc := g.1, mask := g.2 })
      match w.pushAll ({ rpc := w.pc + 8, mask := w.hwMask, kind := .call } :: entries) with
      | none => e.overflow
      | some v => .next e.m { v.resumeMask g.2 with pc := g.1 }) s

/-- The return waiter directly below a call entry, with the entries under it (R246, R258). -/
def Entry.returnWaiter (c : Entry) : List Entry → Option (Entry × List Entry)
  | x :: r => if x.isPath && x.jpc == x.rpc && x.rpc == c.rpc then some (x, r) else none
  | [] => none

/-- `ret` (R258). -/
def execRet (s : State) : Host.Outcome State Fault Refusal :=
  withCur (fun e =>
    let w := e.w
    let fr := frameOf w.stack
    match indexFrom (fun x => x.kind == .call) fr 0 0 with
    | none => e.beforeAll 0x80 0
    | some ci =>
      match w.stack[ci]? with
      | none => e.beforeAll 0x80 0
      | some c =>
        let above := w.stack.take ci
        let below := w.stack.drop (ci + 1)
        let h := above.foldl (fun (k : W64) x => if x.isPath then k ||| x.mask else k) 0
        let back := c.mask &&& ~~~h
        let waiter := c.returnWaiter below
        if c.mask &&& h = 0 then
          let (mask, below) := match waiter with | some (x, r) => (back ||| x.mask, r) | none => (back, below)
          .next e.m { ({ w with stack := above ++ below }).resumeMask mask with pc := c.rpc }
        else
          let c' := { c with mask := c.mask &&& h }
          match waiter with
          | some (x, r) =>
            ({ w with stack := above ++ c' :: { x with mask := x.mask ||| back } :: r }).resumePath e.b 0
              |>.out e.m (fun w => e.ok w)
          | none =>
            if 256 ≤ w.stack.length then e.overflow else
            ({ w with stack := above ++ c' :: { rpc := c.rpc, mask := back, jpc := c.rpc } :: below }).resumePath e.b 0
              |>.out e.m (fun w => e.ok w)) s

/-! ## exit and yield -/

/-- The lanes of `exec` end in one half (R259). -/
def Half.endLanes (h : Half) : Half :=
  { h with
    ended := h.ended ||| h.exec
    k := (h.k.map (fun x => (x.1, x.2 &&& ~~~h.exec))).filter (fun x => x.2 != 0)
    exec := 0 }

def Wave.endLanes (w : Wave) : Wave :=
  let gone := w.hwMask
  let w := { w with stack := w.stack.map (fun (x : Entry) => { x with mask := x.mask &&& ~~~gone }) }
  w.groups.foldl (fun w p => w.updHalf p Half.endLanes) w

/-- Children whose lanes have all ended (R270). -/
def Mach.endHalves (m : Mach) (w : Wave) : Mach × Wave :=
  w.groups.foldl (fun (x : Mach × Wave) p =>
    if (x.2.half p).present && x.2.liveMask p == 0 && (x.2.half p).parent.isSome then
      (x.1.childEnd (x.2.half p).parent, x.2.updHalf p (fun h => { h with parent := none }))
    else x) (m, w)

/-- `exit` (R259). It waits until the wave's accesses are complete. -/
def execExit (s : State) : Host.Outcome State Fault Refusal :=
  withCur (fun e =>
    if !e.w.acc.isEmpty then e.halt .access else
    let ends := e.w.hwMask != 0
    let ended : Mach × Wave := e.m.endHalves e.w.endLanes
    let w := ended.2
    let tested : Mach := (ended.1.putWave e.id w).retest w.block
    let m : Mach := if ends then { tested with changes := tested.changes + 1 } else ended.1
    match m.block? w.block with
    | none => .next m w
    | some b => (w.resumePath b 0).out m (fun w => .gone (m.endWave e.id w))) s

def execYield (s : State) : Host.Outcome State Fault Refusal :=
  withCur (fun e =>
    match e.w.oldest e.b with
    | none => e.ok { e.w with yielded := true }
    | some (n, x) =>
      match e.w.push { rpc := e.w.pc + 8, mask := e.w.hwMask } with
      | none => e.overflow
      | some w => .next e.m { w.runEntry (n + 1) x with yielded := true }) s

end Sys2Proof.Machine
end

