-- ==== Sys2Proof/Machine/Local.lean ====
section
/-!
DEFINITION. A block's own memories: its scratchpad (spec/01_machine.md R25, R26; spec/07_ordering.md R199,
R202) and its operand-memory slots (spec/05_matrix.md R126, R127).
-/

namespace Sys2Proof.Machine

/-- Lists a byte at a key, keeping the keys rising. -/
def insByte : List Host.Cell → Nat → Byte → List Host.Cell
  | [], k, v => [(k, v)]
  | (a, x) :: r, k, v => if k < a then (k, v) :: (a, x) :: r else if k = a then (k, v) :: r else (a, x) :: insByte r k v

/-- A scratchpad byte; one that nothing has written since the block started is free (notes/assumptions/5.md). -/
def Block.spadByte (b : Block) (o : Nat) : Byte := (lookup b.spad o).getD (Config.spadByte b.serial o)

def Block.rdSpad (b : Block) (o n : Nat) : List Byte := (List.range n).map (fun i => b.spadByte (o + i))

def Block.spadN (b : Block) (o n : Nat) : Nat := bytesNat (b.rdSpad o n)

def Block.wrSpad (b : Block) (o : Nat) (l : List Byte) : Block :=
  { b with spad := ((List.range l.length).zip l).foldl (fun s x => insByte s (o + x.1) x.2) b.spad }

def Block.rdOm (b : Block) (o n : Nat) : List Byte := mgetN memDefault b.om o n
def Block.omN (b : Block) (o n : Nat) : Nat := bytesNat (b.rdOm o n)
def Block.wrOm (b : Block) (o : Nat) (l : List Byte) : Block := { b with om := msetN memDefault b.om o l }

/-- Slots `[a, a + n)` are within the quota and claimed (R127). -/
def Block.slotsOk (b : Block) (quota a n : Nat) : Bool :=
  (List.range n).all (fun i => decide (a + i < quota) && b.claimed.getLsbD (a + i))

/-- Fields of `WSRC` (R130). -/
def wsV (x : W64) : Bool := bit x 63
def wsSV (x : W64) : Bool := bit x 60
def wsTV (x : W64) : Bool := bit x 59
def wsFmt (x : W64) : Nat := fld x.toNat 48 8
def wsWsl (x : W64) : Nat := fld x.toNat 42 6
def wsWoff (x : W64) : Nat := fld x.toNat 34 8
def wsSsl (x : W64) : Nat := fld x.toNat 28 6
def wsSoff (x : W64) : Nat := fld x.toNat 23 5
def wsTsl (x : W64) : Nat := fld x.toNat 17 6
def wsToff (x : W64) : Nat := fld x.toNat 12 5
def wsDep (x : W64) : Nat := 128 * 2 ^ fld x.toNat 10 2

/-- What `WSRC` becomes when a writer is accepted at a slot (R131). -/
def wsWritten (x : W64) (slot : Nat) : W64 :=
  let lost := wsWsl x == slot || (wsSV x && wsSsl x == slot)
  let table := wsTV x && wsTsl x == slot
  let x := if lost || (table && wsFmt x == 9) then setBit x 63 false else x
  if table then setBit x 59 false else x

/-- A writer is accepted at these slots: `WSRC` follows (R131), and their coded chunks are expanded (R140). -/
def Block.omWriter (b : Block) (slots : List Nat) : Block :=
  { b with wsrc := slots.foldl wsWritten b.wsrc, omTags := b.omTags.filter (fun x => !slots.contains (x.1 / 8)) }

/-- The bank permutation of R202. -/
def permBank (b lam mode : Nat) : Nat :=
  if mode = 0 then b
  else if mode ≤ 5 then b ^^^ (lam % 2 ^ mode)
  else if mode ≤ 9 then b ^^^ (2 * (lam % 2 ^ (mode - 5)))
  else if mode ≤ 12 then b ^^^ (4 * (lam % 2 ^ (mode - 9)))
  else if mode = 13 then b ^^^ (lam / 2 % 32)
  else if mode = 14 then (b + lam) % 32
  else (b + 4 * lam) % 32

/-- The physical offset of a logical scratchpad offset under a layout word (R202). -/
def layPhys (base mode o : Nat) : Nat :=
  let rel := o - base
  base + 128 * (rel / 128) + 4 * permBank (rel / 4 % 32) (rel / 128) mode + rel % 4

end Sys2Proof.Machine
end

