-- ==== Sys2Proof/Machine/Access.lean ====
section
/-!
DEFINITION. Accesses of a wave: address generation (spec/01_machine.md R25 to R27; spec/02_encoding.md R49;
spec/12_recovery.md R319, R336), how lanes are performed (spec/07_ordering.md R189, R190, R217, R223), and
what absent and forbidden pages do (spec/12_recovery.md R326 to R328).
-/

namespace Sys2Proof.Machine

/-! ## Addresses -/

/-- Access size in bytes (R49). -/
def Ty.size (t : Ty) : Nat := Ty.bits t / 8

/-- The address of a lane (R49). -/
def Env.ea (e : Env) (p : Bool) (l : Nat) (a : MAddr) (off : BitVec 12) (n : Nat) : Nat :=
  let o : Int := sext off.toNat 12 * n
  let k := fun (scaled : Bool) => if scaled then n else 1
  match a with
  | .pair r => addr64 (e.w.vec p l .n64 r.toNat + o)
  | .base r => addr64 ((e.w.getS p r.toNat).toNat + o)
  | .idx r i sc => addr64 ((e.w.getS p r.toNat).toNat + sext (e.w.getV p i.toNat l).toNat 32 * k sc + o)
  | .uidx r i sc => addr64 ((e.w.getS p r.toNat).toNat + (e.w.getS p i.toNat).toNat * k sc + o)

/-- Aperture steering (R25): the space, and the offset or global address. -/
def Ctx.steer (x : Ctx) (a : Nat) : Space × Nat :=
  if x.spbase ≤ a && decide (a < x.spbase + 2 ^ 32) then (.spad, a - x.spbase)
  else if x.stkbase ≤ a && decide (a < x.stkbase + 2 ^ 34) then (.stack, a - x.stkbase)
  else (.global, a)

/-- Per-lane stack bytes of a launch (R38). -/
def Launch.stackBytes (l : Launch) : Nat := 16 * l.stk

/-- Every address-generation cause that an address of `n` bytes meets (R25, R26, R213, R217); `al` is the
alignment it needs. -/
def Env.causes (e : Env) (a n al : Nat) (noStack noSpad : Bool) : List Nat :=
  let (sp, o) := e.x.steer a
  let own : List Nat := match sp with
    | .global => if canonical a then [] else [0x20]
    | .spad => (if e.l.spad < o + n then [0x22] else []) ++ (if noSpad then [0x70] else [])
    | .stack => (if e.l.stackBytes < o + n then [0x23] else []) ++ (if noStack then [0x70] else [])
  own ++ (if a % al = 0 then [] else [0x21])

/-- The winning cause of a stage, with its lanes in each half (R319). -/
def winning (l : List (Bool × Nat × List Nat)) : Option (Nat × W64 × W64) :=
  match l.flatMap (fun x => x.2.2) with
  | [] => none
  | c :: cs =>
    let code := cs.foldl min c
    let lanes := fun (p : Bool) => maskOf ((l.filter (fun x => x.1 == p && x.2.2.contains code)).map (fun x => x.2.1))
    some (code, lanes false, lanes true)

/-- The part of the range `[a, a + n)` that data comparator `i` matches, for a lane and a kind of access (R336). -/
def dacHit (rec : List Host.Cell) (rd wr : Bool) (l a n i : Nat) : Bool :=
  let o := 0xA0 + 32 * i
  let kind := dbgN rec (o + 12) 1
  (rd && kind % 2 == 1 || wr && kind / 2 % 2 == 1) && fld (dbgN rec (o + 16) 8) l 1 == 1
    && meets a n (dbgN rec o 8) (dbgN rec (o + 8) 4)

/-- DEBUG_DATA (R336): the lowest matching lane address and the lanes. -/
def Env.debugData (e : Env) (rd wr : Bool) (ls : List (Bool × Nat × Nat)) (n : Nat) : Option Req :=
  if e.x.debug != 2 || e.w.quiet || !debugOk e.b.debug || e.m.emuentry e.x == 0 || e.w.stack.any (fun y => y.kind == .trap) then none
  else
    let hits := ls.filter (fun x => (List.range 4).any (dacHit e.b.debug rd wr x.2.1 x.2.2 n))
    match hits with
    | [] => none
    | h :: t =>
      let a := w64 (t.foldl (fun b x => min b x.2.2) h.2.2)
      let lanes := fun (p : Bool) => maskOf ((hits.filter (fun x => x.1 == p)).map (fun x => x.2.1))
      some { code := 0x44, rpc := e.w.pc, addr := a, addr1 := a, lanes0 := lanes false, lanes1 := lanes true }

/-- The cause that the addresses of an instruction raise, if any (R319). -/
def Env.agen (e : Env) (rd wr : Bool) (ls : List (Bool × Nat × Nat)) (n al : Nat) (noStack noSpad : Bool) : Option WOut :=
  match e.debugData rd wr ls n with
  | some q => some (.trap e.m e.w q)
  | none =>
    match winning (ls.map (fun x => (x.1, x.2.1, e.causes x.2.2 n al noStack noSpad))) with
    | some (c, a, b) => some (e.before c a b)
    | none => none

/-! ## Pieces of memory -/

/-- Consecutive bytes within one line that a lane's access touches. -/
structure Piece where
  pa : Nat
  vpage : Nat
  n : Nat
  comp : Option (Nat × Nat × Nat)
  deriving DecidableEq, Repr

/-- `STKREG` and `stkline` of R27. -/
def Wave.stackAddr (w : Wave) (p : Bool) (o l : Nat) : Nat :=
  let row := match w.width with | .w64 => (o / 4) * 2 + l / 32 | _ => o / 4
  w.image + 128 * w.lnRegion + row * 128 + 4 * (w.hw p l % 32) + o % 4

/-- No virtual page has this number: stack lines are not reached through one. -/
def noPage : Nat := 2 ^ 60

/-- The pieces of one lane's access of `n` bytes (R27). -/
def Wave.pieces (w : Wave) (x : LaneAcc) (n : Nat) : List Piece :=
  match x.space with
  | .stack => (List.range (ceilDiv n 4)).map (fun i =>
      { pa := w.stackAddr x.half (x.va + 4 * i) x.lane, vpage := noPage, n := min 4 n, comp := none })
  | _ => [{ pa := x.pa, vpage := pageOf (x.va % 2 ^ 57), n, comp := x.comp }]

def scopeWide : Scope → Bool
  | .wave | .block => false
  | _ => true

/-- The core's L1 holds these bytes of a line, so no read of them goes to home. -/
def Mach.l1Hit (m : Mach) (core c line o n : Nat) : Option (BitVec 1024) :=
  (m.l1.find? (fun x => x.is core c line && x.valid.extractLsb' o n == BitVec.allOnes n)).map (fun x => x.data)

/-- What a load at a wider scope does to each line that it names (R217): the dirty bytes go home, the line is
read at home, a kept copy is replaced, and the span's RDC gives up its older one (R190). -/
def Mach.wideLine (m : Mach) (core c line : Nat) (comp : Option (Nat × Nat × Nat)) (again : Bool := false) : Mach :=
  let m := m.l1FlushAll (fun x => x.is core c line)
  let m := (m.l2Req c line false comp again).rdcDrop (fun r => r.span == spanOfCore core && r.ctx == c && r.line == line)
  let fresh := m.homeLine line
  { m with l1 := m.l1.map (fun (x : L1Line) => if x.is core c line then { x with data := fresh, valid := BitVec.allOnes 128 } else x) }

/-- What an atomic, or a store at a wider scope, does to each line that it names. An atomic's line leaves L1
(R189); a store's stays. The line leaves the span's RDC. -/
def Mach.homeTouch (m : Mach) (core c line : Nat) (atomic : Bool) (comp : Option (Nat × Nat × Nat)) (again : Bool := false) : Mach :=
  let m := if atomic then m.l1Drop (fun x => x.is core c line) else m
  (m.l2Req c line true comp again).rdcDrop (fun r => r.span == spanOfCore core && r.line == line)

/-- Reads a piece: its value, and whether poisoned bytes were read at home. -/
def Mach.readPiece (m : Mach) (core c : Nat) (wide : Bool) (p : Piece) : Nat × Bool × Mach :=
  if !isMem p.pa then (bytesNat (m.rdAny p.pa p.n), false, m)
  else if wide then (m.rdN p.pa p.n, m.poisoned p.pa p.n, m)
  else
    let field : BitVec 1024 → Nat := fun d => (d.extractLsb' (8 * (p.pa % 128)) (8 * p.n)).toNat
    let m := m.meetLine core c (lineOf p.pa) p.vpage
    match m.l1Hit core c (lineOf p.pa) (p.pa % 128) p.n with
    | some d => (field d, false, m)
    | none =>
      let (d, m') := m.l1Load core c (lineOf p.pa) p.vpage p.comp
      (field d, m.poisoned p.pa 1, m')

/-- Writes a piece in L1, or at home with the kept L1 copy updated (R217). -/
def Mach.writePiece (m : Mach) (core c : Nat) (wide : Bool) (p : Piece) (x : Nat) : Mach :=
  if !isMem p.pa then m.wrAny p.pa (natBytes x p.n)
  else if wide then
    let m := m.wr p.pa (natBytes x p.n)
    let bytes : BitVec 128 := BitVec.ofNat 128 ((2 ^ p.n - 1) * 2 ^ (p.pa % 128))
    let put : BitVec 1024 → BitVec 1024 := fun d =>
      ((List.range p.n).zip (natBytes x p.n)).foldl (fun d y => setLineByte d (p.pa % 128 + y.1) y.2) d
    { m with l1 := m.l1.map (fun (y : L1Line) =>
        if y.is core c (lineOf p.pa) then { y with data := put y.data, valid := y.valid ||| bytes, dirty := y.dirty &&& ~~~bytes } else y) }
  else m.l1Store core c (lineOf p.pa) p.vpage (p.pa % 128) p.comp (natBytes x p.n)

/-! ## Atomic operations -/

/-- The new value of an atomic (R223). -/
def atomFn (op : AtomOp) (t : Ty) (old b c : Nat) : Nat :=
  let w := 2 ^ Ty.bits t
  match op with
  | .add => (old + b) % w
  | .fadd => match Ty.fmt? t with | some f => (f.add .near false old b).1 | none => old
  | .min => if Ty.int t old ≤ Ty.int t b then old else b
  | .max => if Ty.int t old ≥ Ty.int t b then old else b
  | .and => old &&& b
  | .or => old ||| b
  | .xor => old ^^^ b
  | .xchg => b
  | .cas => if old = c then b else old
  | .inc => if old ≥ b then 0 else old + 1

/-! ## Outstanding accesses -/

def AccKind.isLoad : AccKind → Bool
  | .load _ | .atom _ (some _) => true
  | _ => false

/-- `LCNT` and `SCNT` (R192, R223). -/
def Wave.lcnt (w : Wave) : Nat := (w.acc.filter (fun a => a.kind.isLoad)).length
def Wave.scnt (w : Wave) : Nat := (w.acc.filter (fun a => !a.kind.isLoad)).length

def AccKind.need : AccKind → Need
  | .load _ => needR
  | .store => needW
  | .atom _ (some _) => needRW
  | .atom _ none => needW

def AccKind.fault : AccKind → BitVec 5
  | .load _ => kindRead
  | .store => kindWrite
  | .atom _ _ => kindAtomic

/-- Two lanes touch a common byte, as far as their addresses are known (R190). -/
def LaneAcc.meets (x y : LaneAcc) (n k : Nat) (known : Bool) : Bool :=
  x.space == y.space && (x.space != .stack || (x.half == y.half && x.lane == y.lane))
    && (Machine.meets x.va n y.va k || (known && x.space == .global && Machine.meets x.pa n y.pa k))

/-- A lane waits for an older access of the wave to a common byte (R190). -/
def Wave.waits (w : Wave) (idx n : Nat) (known : Bool) (x : LaneAcc) : Bool :=
  (w.acc.take idx).any (fun a => a.lanes.any (fun y => !y.done && x.meets y n (Ty.size a.ty) (known && a.known)))

/-- An older access among these must be performed before an operation on these bytes that takes place at once: for a read a
store or atomic, for a write any (R190). -/
def olderMeets (acc : List Access) (write : Bool) (va pa n : Nat) : Bool :=
  acc.any (fun a => (write || (match a.kind with | .load _ => false | _ => true)) && a.lanes.any (fun y =>
    !y.done && y.space == .global && (meets y.va (Ty.size a.ty) va n || (a.known && meets y.pa (Ty.size a.ty) pa n))))

/-! ## The escrow log (R327, R328) -/

def chunksOf {β : Type} (n : Nat) : Nat → List β → List (List β)
  | 0, _ => []
  | fuel + 1, l => if l.isEmpty then [] else l.take n :: chunksOf n fuel (l.drop n)

def lineBytesOf (l : List LaneAcc) (n : Nat) : List (Nat × Byte) :=
  l.foldl (fun bs x => (List.range n).foldl (fun bs i => put bs (x.va % 128 + i) (BitVec.ofNat 8 (x.b.toNat / 2 ^ (8 * i)))) bs) []

/-- The entries of one half's escrowed lanes on one line. -/
def Access.entries (a : Access) (ls : List LaneAcc) : List EscKind :=
  match a.kind with
  | .atom op _ =>
    let per := if op = .cas then 4 else 8
    (chunksOf per ls.length ls).map (fun g => .red op a.ty (g.map (fun x => { lane := x.lane, off := x.va % 128, b := x.b, c := x.c })))
  | .store => [.store (lineBytesOf ls (Ty.size a.ty))]
  | .load d => [.held d a.ty (!d.isVec) (ls.map (fun x => (x.lane, x.va % 128)))]

/-- All entries of the escrowed lanes of an access. -/
def Access.escrow (a : Access) (w : Wave) (id : Nat) (ls : List LaneAcc) : List Escrow :=
  [false, true].flatMap (fun p =>
    let mine := ls.filter (fun x => x.half == p)
    let lines := (mine.map (fun x => lineOf (x.va % 2 ^ 57))).eraseDups
    lines.flatMap (fun ln =>
      (a.entries (mine.filter (fun x => lineOf (x.va % 2 ^ 57) == ln))).map (fun k =>
        { core := w.core, ctx := w.ctx, wave := id, half := p, launch := w.launch, vline := ln, seq := 0, scope := a.scope, kind := k })))

def Mach.escrowRoom (m : Mach) (core n : Nat) : Bool :=
  decide ((m.escrow.filter (fun e => e.core == core && m.duty e.ctx)).length + n ≤ Config.escrowEntries)

/-- Takes entries into the log, in consecutive SEQ order (R328), and counts event 7. -/
def Mach.takeEscrow (m : Mach) (c : Nat) (l : List Escrow) : Mach :=
  let m := l.foldl (fun (m : Mach) (e : Escrow) => { m with escrow := m.escrow ++ [{ e with seq := m.nextId }], nextId := m.nextId + 1 }) m
  m.count c 7 l.length

/-! ## Performing -/

/-- What the translation of an access's lanes gives. -/
structure Found where
  ok : List LaneAcc := []
  absent : List (LaneAcc × Nat) := []
  bad : List LaneAcc := []
  deriving DecidableEq, Repr

/-- Translates every lane that is not yet complete; the walks of a page are one (R296). -/
def translateLanes (g : Mgmt) (m : Mach) (c : Nat) (need : Need) (l : List LaneAcc) : Found × Mach :=
  let r := l.foldl (fun (f : Found × Mach × List Nat) x =>
    if x.done || x.space != .global then ({ f.1 with ok := f.1.ok ++ [x] }, f.2) else
    match xlateSeen g f.2.1 f.2.2 c x.va need with
    | (.ok pa leaf _, m) => ({ f.1 with ok := f.1.ok ++ [{ x with pa, comp := compOf c leaf }] }, m)
    | (.absent lv, m) => ({ f.1 with absent := f.1.absent ++ [(x, lv)] }, m)
    | (.perm _, m) => ({ f.1 with bad := f.1.bad ++ [x] }, m)) ({}, m, [])
  (r.1, r.2.1)

/-- One fault record for each page that lanes found absent (R296, R326). -/
def Mach.absentLanes (m : Mach) (c : Nat) (kind : BitVec 5) (l : List (LaneAcc × Nat)) : Mach :=
  let pages := (l.map (fun x => pageOf (x.1.va % 2 ^ 57))).eraseDups
  pages.foldl (fun m p =>
    match l.find? (fun x => pageOf (x.1.va % 2 ^ 57) == p) with
    | some (x, lv) => m.absent c x.va lv kind
    | none => m) m

/-- The progress of one batch of lanes. -/
structure Doing where
  m : Mach
  lanes : List LaneAcc
  poison : Bool := false

/-- Performs one lane. -/
def Doing.lane (s : Doing) (w : Wave) (a : Access) (x : LaneAcc) : Doing :=
  let ps := w.pieces x (Ty.size a.ty)
  let wide := scopeWide a.scope && x.space == .global
  let rd : Mach → Bool → Nat × Bool × Mach := fun m wide => (ps.foldl (fun (r : Nat × Bool × Mach × Nat) p =>
      let (v, bad, m) := r.2.2.1.readPiece w.core w.ctx wide p
      (r.1 + v * 2 ^ r.2.2.2, r.2.1 || bad, m, r.2.2.2 + 8 * p.n)) (0, false, m, 0)) |> fun r => (r.1, r.2.1, r.2.2.1)
  let wr : Mach → Bool → Nat → Mach := fun m wide v => (ps.foldl (fun (r : Mach × Nat) p =>
      (r.1.writePiece w.core w.ctx wide p (v / 2 ^ r.2), r.2 + 8 * p.n)) (m, 0)).1
  match a.kind with
  | .load _ =>
    let (v, bad, m) := rd s.m wide
    { m, lanes := s.lanes ++ [{ x with val := w64 v, done := true }], poison := s.poison || bad }
  | .store => { s with m := wr s.m wide x.b.toNat, lanes := s.lanes ++ [{ x with done := true }] }
  | .atom op _ =>
    let (v, bad, m) := rd s.m true
    { m := wr m true (atomFn op a.ty v x.b.toNat x.c.toNat), poison := s.poison || bad
      lanes := s.lanes ++ [{ x with val := w64 v, done := true }] }

/-- Prepares each line that a batch names at home; an earlier batch of the access may have named it (R380). -/
def Mach.prepareLines (m : Mach) (w : Wave) (a : Access) (ls : List LaneAcc) : Mach :=
  let ps := (ls.filter (fun x => x.space == .global && isMem x.pa)).map (fun x => (lineOf x.pa, x.comp))
  let lines := (ps.map (·.1)).eraseDups
  lines.foldl (fun m ln =>
    let comp := (ps.find? (fun y => y.1 == ln)).elim none (·.2)
    let again := a.lanes.any (fun x => x.done && x.space == .global && lineOf x.pa == ln)
    match a.kind with
    | .load _ => if scopeWide a.scope then m.wideLine w.core w.ctx ln comp again else m
    | .store => if scopeWide a.scope then m.homeTouch w.core w.ctx ln false comp again else m
    | .atom _ _ => m.homeTouch w.core w.ctx ln true comp again) m

/-- Performs the lanes of an access that `pick` selects, in lane order: a lane that shares a byte with an
earlier one of the same store or atomic that is left behind waits too (R217, R223). -/
def Mach.performLanes (m : Mach) (w : Wave) (a : Access) (pick : LaneAcc → Bool) : Doing :=
  let n := Ty.size a.ty
  let load := match a.kind with | .load _ => true | _ => false
  let chosen := a.lanes.foldl (fun (l : List (LaneAcc × Bool)) x =>
    let stuck := !load && l.any (fun y => !y.1.done && !y.2 && x.meets y.1 n n true)
    l ++ [(x, !x.done && pick x && !stuck)]) []
  let go := (chosen.filter (·.2)).map (·.1)
  let m := m.prepareLines w a go
  let r := chosen.foldl (fun (s : Doing) y => if y.2 then s.lane w a y.1 else { s with lanes := s.lanes ++ [y.1] }) { m, lanes := [] }
  if load || !scopeWide a.scope then r
  else { r with m := r.m.clearPoison ((go.flatMap (fun x => w.pieces x n)).map (fun p => (p.pa, p.n))) }

/-- Writes the results of a complete access (R217, R223). -/
def Wave.writeBack (w : Wave) (a : Access) : Wave :=
  let d : Option Dst := match a.kind with | .load d => some d | .atom _ d => d | .store => none
  match d with
  | none => w
  | some d => a.lanes.foldl (fun w x => w.put x.half x.lane a.ty d x.val.toNat) w

/-- The `PERMIT` of an access (R318, R326): skid as counted, resume at the next instruction to issue. -/
def Wave.permit (w : Wave) (a : Access) : Req :=
  let mine := fun (p : Bool) => a.bad.filter (fun x => x.half == p)
  let first := fun (p : Bool) => match mine p, a.bad with
    | x :: _, _ => w64 x.va
    | [], x :: _ => w64 x.va
    | [], [] => 0
  { code := 0x25, rpc := w.pc, addr := first false, addr1 := first true, lanes0 := maskOf ((mine false).map (·.lane)),
    lanes1 := maskOf ((mine true).map (·.lane)), skid := a.younger - 1 }

/-- An access whose lanes are all complete leaves the wave: results, acquire, `PERMIT`. -/
def settle (g : Mgmt) (m : Mach) (id : Nat) (w : Wave) (x : Ctx) (idx : Nat) (a : Access) : Mach :=
  if !a.lanes.all (fun y => y.done) then m.putWave id { w with acc := w.acc.set idx a } else
  let w := { w.writeBack a with acc := w.acc.eraseIdx idx }
  let m := if a.acq then m.invalidateAll w.core w.ctx a.scope else m
  if a.bad.isEmpty then m.putWave id w else takeTrap g m id w x (w.permit a)

/-- One step of an outstanding access: its translation outcome, then the chosen lanes. A translated lane is refused at a peer
window that has closed meanwhile (R354, R357). A store whose page found no place in the pending-fault table is held (R296). -/
def stepAccess (g : Mgmt) (m : Mach) (id : Nat) (w : Wave) (x : Ctx) (idx : Nat) (a : Access) (lanes : W64) : Option Mach :=
  let n := Ty.size a.ty
  let pick := fun (m : Mach) (w : Wave) (a : Access) (all : Bool) =>
    let r := m.performLanes w a (fun y => (all || bit lanes (w.hw y.half y.lane)) && !w.waits idx n true y)
    if r.poison then contextReset g r.m w.ctx 0x52 0
    else settle g r.m id w x idx { a with lanes := r.lanes }
  let gone := fun (y : LaneAcc) => !y.done && y.space == .global && !isMem y.pa && (!g.frameOk x.part y.pa || g.windowDown y.pa)
  if a.known then
    let shut := a.lanes.filter gone
    let m := if shut.any (fun y => !g.frameOk x.part y.pa) then m.errcnt x.part else m
    some (pick m w { a with lanes := a.lanes.filter (fun y => !gone y), bad := a.bad ++ shut } false)
  else if a.held && a.kind.isLoad then none
  else
    let (f, m') := translateLanes g m w.ctx a.kind.need a.lanes
    if f.absent.isEmpty then some (pick m' w { a with lanes := f.ok, bad := a.bad ++ f.bad, known := true, held := false } false)
    else
      let entered := fun (m : Mach) (y : LaneAcc × Nat) => (m.ctx? w.ctx).elim true (fun x => x.pending.any (fun p => p.page == pageOf (y.1.va % 2 ^ 57)))
      let noted : Mach := m'.absentLanes w.ctx a.kind.fault (f.absent.filter (fun y => !a.held || !entered m' y))
      if a.kind.isLoad then some (noted.putWave id { w with acc := w.acc.set idx { a with held := true } })
      else if f.absent.any (fun y => w.waits idx n false y.1) then none
      else
        let es := a.escrow w id (f.absent.map (·.1))
        if f.absent.all (entered noted) && m'.escrowRoom w.core es.length then
          some (pick (noted.takeEscrow w.ctx es) w { a with lanes := f.ok, bad := a.bad ++ f.bad, known := true, held := false } true)
        else if a.held then none
        else some (noted.putWave id { w with acc := w.acc.set idx { a with held := true } })

/-- A step that reaches the registers of a wave which is not resident: its lines are read from the image for it, and
go back there. -/
def Mach.withLines (m : Mach) (id : Nat) (f : Mach → Option Mach) : Option Mach :=
  match m.wave? id with
  | none => f m
  | some w =>
    if m.resident w then f m else
    let v := m.takeLines (m.takeHead w) w.lateLines
    (f (m.putWave id { v with missing := [] })).map (fun m =>
      match m.wave? id with
      | none => m
      | some y =>
        if m.resident y then m else
        let ns := y.lateLines.filter w.missing.contains ++ (if w.missing.contains 0 then y.headLines else [])
        (m.writeLines y ns).putWave id { y with missing := w.missing })

/-- An outstanding access of a wave moves on: the lanes whose bits (hardware lanes) are set, as far as order
allows, are performed. -/
def execMemoryAccessPerformed (w idx : Nat) (lanes : W64) (s : State) : Host.Outcome State Fault Refusal :=
  match s.m.wave? w with
  | none => .next s
  | some x =>
    match s.m.ctx? x.ctx, x.acc[idx]? with
    | some c, some a =>
      if !s.m.running c then .next s else
      match (s.m.askWave x).withLines w (fun m => stepAccess s.mgmt m w ((m.wave? w).getD x) c idx a lanes) with
      | none => .next s
      | some m => .next { s with m := { m with changes := m.changes + 1 } }
    | _, _ => .next s

end Sys2Proof.Machine
end

