-- ==== Sys2Proof/Machine/Mem.lean ====
section
/-!
DEFINITION. Loads, stores, prefetch, pins, `ifence` and the counter waits (spec/08_memory_isa.md R217, R219 to
R222; spec/07_ordering.md R192, R207, R209), and the issue that atomics share with them (R197, R223).
-/

namespace Sys2Proof.Machine

/-- The lanes of a memory instruction with their addresses (R49). -/
def Env.memLanes (e : Env) (o : OpM) : List (Bool × Nat × Nat) :=
  (e.w.work o.k.toNat o.uni).map (fun x => (x.1, x.2, e.ea x.1 x.2 o.addr o.off (Ty.size o.ty)))

/-! ## What a release waits for (R194, R197) -/

/-- A store of the wave to a global byte that `inS` selects is not performed: outstanding, or in escrow.
`half` limits it to one logical wave. -/
def Env.owed (e : Env) (half : Option Bool) (inS : Nat → Nat → Bool) : Bool × Bool :=
  let mine := fun p => half.elim true (fun h => h == p)
  let out := e.w.acc.any (fun a => !a.kind.isLoad && a.lanes.any (fun x => !x.done && x.space == .global && mine x.half && inS x.va (Ty.size a.ty)))
  let esc := e.m.escrow.any (fun y => y.wave == e.id && mine y.half &&
    (match y.kind with
     | .store bs => bs.any (fun b => inS (canonOf (y.vline * 128 + b.1)) 1)
     | .red _ t rs => rs.any (fun r => inS (canonOf (y.vline * 128 + r.off)) (Ty.size t))
     | .held .. => false))
  (out, esc)

/-- Every store of the wave to the selected bytes is performed at the scope, but for the write-back that
`flush` makes. `strict` is a `grel`, which waits for its stores and their replay at every scope (R191, R194). -/
def Env.released (e : Env) (half : Option Bool) (sc : Scope) (strict : Bool) (inS : Nat → Nat → Bool) : Bool :=
  let (out, esc) := e.owed half inS
  match sc with
  | .wave => !strict || (!out && !esc)
  | _ => !out && !esc

/-- The context's dirty bytes go home, from every L1: a wave that has moved may have stores in its old core's, and a
release may make more visible than it must (R191, R329). -/
def Mach.releaseTo (m : Mach) (c : Nat) (sc : Scope) : Mach :=
  if scopeWide sc then m.l1FlushAll (fun x => x.ctx == c) else m

/-! ## Issue of an access -/

/-- The scratchpad lanes are performed at issue, in the one order of R199; the others become outstanding. -/
def Env.localLane (e : Env) (o : OpM) (kind : AccKind) (s : Block × List LaneAcc) (x : Bool × Nat × Nat) (b c : W64) :
    Block × List LaneAcc :=
  let (sp, a) := e.x.steer x.2.2
  let lane : LaneAcc := { half := x.1, lane := x.2.1, space := sp, va := a, b, c }
  match sp with
  | .spad =>
    let n := Ty.size o.ty
    let old := s.1.spadN a n
    let blk := match kind with
      | .load _ => s.1
      | .store => s.1.wrSpad a (natBytes b.toNat n)
      | .atom op _ => s.1.wrSpad a (natBytes (atomFn op o.ty old b.toNat c.toNat) n)
    (blk, s.2 ++ [{ lane with val := w64 old, done := true }])
  | _ => (s.1, s.2 ++ [lane])

/-- The issue of `ld`, `st` and `atom`. -/
def Env.issueAccess (e : Env) (o : OpM) (kind : AccKind) (b c : Bool → Nat → Nat) (acq rel : Bool) (bytes : Nat) : WOut :=
  let ls := e.memLanes o
  let n := Ty.size o.ty
  let atom := match kind with | .atom _ _ => true | _ => false
  let load := match kind with | .load _ => true | _ => false
  match e.agen (load || atom) (!load) ls n n atom false with
  | some t => t
  | none =>
    if rel && !e.released none o.scope false (fun _ _ => true) then e.halt .room
    else if (if kind.isLoad then e.w.lcnt else e.w.scnt) ≥ 64 then e.halt (.wcnt kind.isLoad 63)
    else
      let m := if rel then e.m.releaseTo e.w.ctx o.scope else e.m
      let (blk, lanes) := ls.foldl (fun s x => e.localLane o kind s x (w64 (b x.1 x.2.1)) (w64 (c x.1 x.2.1))) (e.b, [])
      let m := m.updBlock e.w.block (fun _ => blk)
      let a : Access := { kind, ty := o.ty, scope := o.scope, lanes, acq }
      let w : Wave := { e.w with pc := e.w.pc + w64 bytes }
      if lanes.all (fun x => x.done) then
        .next (if acq then m.invalidateAll w.core w.ctx o.scope else m) (w.writeBack a)
      else .next m { w with acc := w.acc ++ [a] }

def noOperand : Bool → Nat → Nat := fun _ _ => 0

/-- `ld` (R217). -/
def execLd (d : Dst) (m : OpM) (s : State) : Host.Outcome State Fault Refusal :=
  withCur (fun e => e.issueAccess m (.load d) noOperand noOperand false false 8) s

/-- `st` (R217). -/
def execSt (d : Dst) (m : OpM) (s : State) : Host.Outcome State Fault Refusal :=
  withCur (fun e => e.issueAccess m .store (fun p l => e.src p l m.ty (Dst.src d)) noOperand false false 8) s

/-! ## pref, l2pin -/

/-- One lane of `pref` (R219), after lanes that have named the lines `seen` at home (R380). -/
def Env.prefLane (e : Env) (o : OpM) (r : Mach × List Nat) (a : Nat) : Mach × List Nat :=
  if e.x.steer a != (.global, a) || !canonical a || a % Ty.size o.ty != 0 then r else
  match xlate e.g r.1 e.w.ctx a needR with
  | (.ok pa leaf _, m) =>
    if !isMem pa || m.poisoned pa 1 then (m, r.2)
    else if scopeWide o.scope then (m.l2Req e.w.ctx (lineOf pa) false (compOf e.w.ctx leaf) (r.2.contains (lineOf pa)), lineOf pa :: r.2)
    else ((m.l1Load e.w.core e.w.ctx (lineOf pa) (pageOf (a % 2 ^ 57)) (compOf e.w.ctx leaf)).2, r.2)
  | (_, m) => (m, r.2)

def execPref (o : OpM) (s : State) : Host.Outcome State Fault Refusal :=
  withCur (fun e => .next ((e.memLanes o).foldl (fun r x => e.prefLane o r x.2.2) (e.m, [])).1 { e.w with pc := e.w.pc + 8 }) s

/-- Pins a line of a context, when R220 lets it: whether it is pinned. -/
def Mach.pin (m : Mach) (c : Nat) (x : Ctx) (line vpage : Nat) : Bool × Mach :=
  if m.pins.any (fun p => p.ctx == c && p.line == line) then (true, m)
  else if x.pinlim ≤ (m.pins.filter (fun p => p.ctx == c)).length then (false, m)
  else
    let others := (m.pins.map (fun p => p.line)).eraseDups.filter (fun l => l != line && homeSpan (l * 128) == homeSpan (line * 128))
    if !m.pins.any (fun p => p.line == line) && decide (8 ≤ (others.filter (fun l => Config.l2set l == Config.l2set line)).length) then (false, m)
    else (true, { m.l2Req c line false with pins := m.pins ++ [{ ctx := c, line, vpage }] })

/-- `l2pin` over its lanes, in lane order (R220). -/
def Env.pinLanes (e : Env) (d : BitVec 4) (o : OpM) (f : Mach → Nat → Nat → Bool × Mach) : WOut :=
  let ls := e.memLanes o
  let noncanon := ls.map (fun x => (x.1, x.2.1, if (e.x.steer x.2.2).1 == .global && !canonical x.2.2 then [0x20] else []))
  match winning noncanon with
  | some (c, l0, l1) => e.before c l0 l1
  | none =>
    let r := ls.foldl (fun (r : Mach × Wave) x =>
      let (hit, m) : Bool × Mach :=
        if (e.x.steer x.2.2).1 != .global then (false, r.1) else
        match xlate e.g r.1 e.w.ctx x.2.2 {} with
        | (.ok pa _ _, m) => if isMem pa then f m (lineOf pa) (pageOf (x.2.2 % 2 ^ 57)) else (false, m)
        | (_, m) => (false, m)
      (m, r.2.setK x.1 d.toNat (setBit (r.2.getK x.1 d.toNat) x.2.1 hit))) (e.m, e.w)
    .next r.1 { r.2 with pc := e.w.pc + 8 }

def execL2pinPin (d : BitVec 4) (o : OpM) (s : State) : Host.Outcome State Fault Refusal :=
  withCur (fun e => e.pinLanes d o (fun m line vp => m.pin e.w.ctx e.x line vp)) s

def execL2pinUnpin (d : BitVec 4) (o : OpM) (s : State) : Host.Outcome State Fault Refusal :=
  withCur (fun e => e.pinLanes d o (fun m line _ =>
    let is : Pin → Bool := fun p => p.ctx == e.w.ctx && p.line == line
    (m.pins.any is, { m with pins := m.pins.filter (fun p => !is p) }))) s

/-! ## ifence and wcnt -/

/-- `ifence` (R207, R221). -/
def execIfence (s : State) : Host.Outcome State Fault Refusal :=
  withCur (fun e =>
    .next { e.m with icache := e.m.icache.filter (fun x => !(x.core == e.w.core && x.ctx == e.w.ctx)) }
      { e.w with pc := e.w.pc + 8 }) s

/-- `wcnt` (R192, R222). -/
def execWcntLd (n : BitVec 7) (s : State) : Host.Outcome State Fault Refusal :=
  withCur (fun e => if e.w.lcnt ≤ n.toNat then e.ok e.w else e.halt (.wcnt true n.toNat)) s

def execWcntSt (n : BitVec 7) (s : State) : Host.Outcome State Fault Refusal :=
  withCur (fun e => if e.w.scnt ≤ n.toNat then e.ok e.w else e.halt (.wcnt false n.toNat)) s

end Sys2Proof.Machine
end

