-- ==== Sys2Proof/Machine/Atomics.lean ====
section
/-!
DEFINITION. Atomics (spec/08_memory_isa.md R223; spec/07_ordering.md R197).
-/

namespace Sys2Proof.Machine

/-- The issue of an atomic: its operands b and c, and the orders it asks for (R197). -/
def Env.atomic (e : Env) (op : AtomOp) (o : OpAtom) : WOut :=
  let c : Bool → Nat → Nat := match o.c with
    | some d => fun p l => e.src p l o.m.ty (Dst.src d)
    | none => noOperand
  e.issueAccess o.m (.atom op o.d) (fun p l => e.src p l o.m.ty (Dst.src o.b)) c o.acq o.rel 16

def execAtomAdd (o : OpAtom) (s : State) : Host.Outcome State Fault Refusal := withCur (fun e => e.atomic .add o) s
def execAtomFadd (o : OpAtom) (s : State) : Host.Outcome State Fault Refusal := withCur (fun e => e.atomic .fadd o) s
def execAtomMin (o : OpAtom) (s : State) : Host.Outcome State Fault Refusal := withCur (fun e => e.atomic .min o) s
def execAtomMax (o : OpAtom) (s : State) : Host.Outcome State Fault Refusal := withCur (fun e => e.atomic .max o) s
def execAtomAnd (o : OpAtom) (s : State) : Host.Outcome State Fault Refusal := withCur (fun e => e.atomic .and o) s
def execAtomOr (o : OpAtom) (s : State) : Host.Outcome State Fault Refusal := withCur (fun e => e.atomic .or o) s
def execAtomXor (o : OpAtom) (s : State) : Host.Outcome State Fault Refusal := withCur (fun e => e.atomic .xor o) s
def execAtomXchg (o : OpAtom) (s : State) : Host.Outcome State Fault Refusal := withCur (fun e => e.atomic .xchg o) s
def execAtomCas (o : OpAtom) (s : State) : Host.Outcome State Fault Refusal := withCur (fun e => e.atomic .cas o) s
def execAtomInc (o : OpAtom) (s : State) : Host.Outcome State Fault Refusal := withCur (fun e => e.atomic .inc o) s

end Sys2Proof.Machine
end

