-- ==== Sys2Proof/Machine/Barrier.lean ====
section
/-!
DEFINITION. Named barriers (spec/09_progress.md R262 to R266, R391, R255; spec/07_ordering.md R204).
-/

namespace Sys2Proof.Machine

/-- One arrival of `cnt` lanes of logical wave `wave`, with count operand `b` (R262). -/
def Bar.arrive (x : Bar) (b cnt wave live : Nat) : Bar :=
  let expected := if x.arrived = 0 then b else x.expected
  let arrived := x.arrived + cnt
  if (expected != 0 && decide (expected ≤ arrived)) || (expected == 0 && decide (live ≤ arrived)) then x.complete
  else { expected, arrived, phase := x.phase, bitmap := x.bitmap ||| (1#128 <<< wave) }

def Block.setBar (b : Block) (n : Nat) (x : Bar) : Block := { b with bars := mset Bar.zero b.bars n x }

/-- The barrier number and count that each pass names. -/
structure BarArg where
  half : Bool
  n : Nat
  b : Nat
  deriving DecidableEq, Repr

def Env.barArgs (e : Env) (a : SC) (b : Option SC) : List BarArg :=
  e.w.passes.map (fun p =>
    { half := p, n := e.sc p .n32 a, b := match b with | some b => e.sc p .n32 b | none => 0 })

/-- The halves that the wait part judges: each that has lanes left, whatever its `exec` (R15, R391;
notes/assumptions/63.md). -/
def Env.waitArgs (e : Env) (a : SC) : List BarArg :=
  let ps := match e.w.width with
    | .w16 => [false, true].filter (fun p => e.w.liveMask p != 0)
    | _ => [false]
  ps.map (fun p => { half := p, n := e.sc p .n32 a, b := 0 })

def BarArg.bad (e : Env) (x : BarArg) : Bool := decide (e.l.bars ≤ x.n) || decide (65535 < x.b)

/-- BAR_RANGE (R265), with the lanes of the halves that raise it. -/
def Env.barRange (e : Env) (l : List BarArg) : Option WOut :=
  if l.any (BarArg.bad e) then
    let lanes := fun p => if l.any (fun x => x.half == p && BarArg.bad e x) then (e.w.half p).exec else 0
    some (e.before 0x81 (lanes false) (lanes true))
  else none

/-- Commands of sealed batches of a half that are not complete (R203, R204). -/
def Mach.sealedPending (m : Mach) (id : Nat) (p : Bool) (upTo : W32 → Bool) : Bool :=
  m.ops.any (fun o => o.2.wave == id && o.2.half == p && !o.2.copied &&
    (match o.2.batch with | some n => upTo n | none => false))

/-- The arrivals of every half with lanes (R262, R391). -/
def Env.arrivals (e : Env) (l : List BarArg) : Mach :=
  let live := e.m.liveLanes e.w.block
  l.foldl (fun m x =>
    let cnt := popcount (e.w.half x.half).exec
    if cnt = 0 then m else
    let m := m.updBlock e.w.block (fun b => b.setBar x.n ((b.bar x.n).arrive x.b cnt (e.w.half x.half).waveid live))
    { m with changes := m.changes + 1 }) e.m

/-- A batch number is at most the target, as signed 32-bit differences (R238). -/
def batchUpTo (target n : W32) : Bool := !(target - n).getLsbD 31

/-- The barrier waiter of one half (R255, R391). -/
def Wave.waiter (w : Wave) (x : BarArg) : Entry :=
  { rpc := w.pc + 8, mask := w.hwHalf x.half (w.half x.half).exec, jpc := w.pc, bar := BitVec.ofNat 11 x.n, bw := true }

/-- The wait part (R264, R391, R255). -/
def Env.barWait (e : Env) (m : Mach) (l : List BarArg) : WOut :=
  match m.block? e.w.block with
  | none => e.halt .room
  | some b =>
    let w := e.w
    let held := l.filter (fun x => (b.bar x.n).bitmap.getLsbD (w.half x.half).waveid)
    let waiters := (held.map w.waiter).filter (fun x => x.mask != 0)
    let done : Wave := { w with pc := w.pc + 8, inBar := false }
    if held.isEmpty then .next m done
    else if held.length < l.length then
      match w.pushAll waiters with
      | none => e.overflow
      | some v => .next m (held.foldl (fun v x => v.setExec x.half 0) { v with pc := w.pc + 8, inBar := false })
    else if (frameOf w.stack).any (b.eligible w) then
      match w.pushAll waiters with
      | none => e.overflow
      | some v => ({ v with inBar := false }.resumePath b waiters.length).out m (fun _ => .next m done)
    else .hold m { w with inBar := true } (.bar (held.map (fun x => (x.n, (w.half x.half).waveid))))

def execBarArrive (pub : Bool) (a b : SC) (s : State) : Host.Outcome State Fault Refusal :=
  withCur (fun e =>
    let l := e.barArgs a (some b)
    match e.barRange l with
    | some o => o
    | none =>
      if pub && l.any (fun x => e.m.sealedPending e.id x.half (fun _ => true)) then e.halt (.waitb (l.map (fun x => (x.half, (e.w.half x.half).batch))))
      else .next (e.arrivals l) { e.w with pc := e.w.pc + 8 }) s

def execBarWait (a : SC) (s : State) : Host.Outcome State Fault Refusal :=
  withCur (fun e =>
    match e.barRange (e.barArgs a none) with
    | some o => o
    | none => e.barWait e.m (e.waitArgs a)) s

/-- `bar.sync`: the arrival is made once, then the wait part (R265, R266). -/
def execBarSync (pub : Bool) (a b : SC) (s : State) : Host.Outcome State Fault Refusal :=
  withCur (fun e =>
    let l := e.barArgs a (some b)
    if e.w.inBar then e.barWait e.m (e.waitArgs a)
    else match e.barRange l with
    | some o => o
    | none =>
      if pub && l.any (fun x => e.m.sealedPending e.id x.half (fun _ => true)) then e.halt (.waitb (l.map (fun x => (x.half, (e.w.half x.half).batch))))
      else e.barWait (e.arrivals l) (e.waitArgs a)) s

end Sys2Proof.Machine
end

