-- ==== Sys2Proof/Machine/Cache.lean ====
section
/-!
DEFINITION. Steps of the caches and of the fault machinery: line fetches (spec/01_machine.md R31), writebacks
(spec/07_ordering.md R188, R189; spec/05_matrix.md R140), waiting fault records (spec/11_isolation.md R297) and
page migration (spec/07_ordering.md R210).
-/

namespace Sys2Proof.Machine

/-- A step of the part that changes the machine. -/
def changed (s : State) (m : Mach) : Host.Outcome State Fault Refusal := .next { s with m := { m with changes := m.changes + 1 } }

/-- Fetches a missing line of a wave's image (R31). -/
def execRegfileLineFetch (w line : Nat) (s : State) : Host.Outcome State Fault Refusal :=
  match s.m.wave? w with
  | none => .next s
  | some v =>
    if !s.m.resident v || !v.missing.contains line then .next s
    else if s.m.poisonedRun (v.image + 128 * line, 128) then changed s (contextReset s.mgmt s.m v.ctx 0x52 0)
    else changed s ((s.m.putWave w (s.m.takeLines v [line])).makeRoom v.core)

/-- Evicts an L1 line at any moment: its dirty bytes go home (R188, R189). -/
def execL1Writeback (core ctx line : Nat) (s : State) : Host.Outcome State Fault Refusal :=
  if s.m.l1.any (fun x => x.is core ctx line) then changed s (s.m.l1Drop (fun x => x.is core ctx line)) else .next s

/-- The home slice writes back a dirty line, or gives a clean one up; the line leaves it unless it is pinned (R140,
R209). -/
def execL2Writeback (line : Nat) (s : State) : Host.Outcome State Fault Refusal :=
  match s.m.l2.find? (fun (x : L2Line) => x.line == line) with
  | none => .next s
  | some x =>
    let m := s.m.l2WriteBack x
    changed s { m with l2 := if m.pinned line then updFirst (fun (y : L2Line) => y.line == line) (fun (y : L2Line) => { y with dirty := false }) m.l2
                             else m.l2.filter (fun (y : L2Line) => y.line != line) }

def Mach.pendingOf (m : Mach) (c : Nat) : List Pend := (m.ctx? c).elim [] (fun x => x.pending)

/-- Writes the waiting record of a page once the ring has room (R297). -/
def execFaultRecordWrite (ctx page : Nat) (s : State) : Host.Outcome State Fault Refusal :=
  let m := s.m.faultWrite ctx page
  if m.pendingOf ctx = s.m.pendingOf ctx then .next s else changed s m

/-! ## Page migration (R210) -/

/-- The address of the leaf entry that a walk ends at. -/
def leafEntry (m : Mach) (va : Nat) : Nat → Nat → Nat → Nat
  | 0, _, table => table
  | fuel + 1, level, table =>
    let ea := table + 16 * fld va (levelShift level) (levelBits level)
    let e := m.rdN ea 8
    if fld e 1 1 = 1 then ea else leafEntry m va fuel (level + 1) (fld e 9 43 * 512)

/-- Copies a page of `n` bytes between frames: bytes, chunk tags and poison. -/
def Mach.movePage (m : Mach) (old new n : Nat) : Mach :=
  let inFrame := fun (f a : Nat) => decide (f ≤ a) && decide (a < f + n)
  let tags := m.ctags.filter (fun (x : Nat × Byte) => inFrame old (2048 * x.1))
  let shift := fun (k : Nat) => k + new / 2048 - old / 2048
  { m.moveBytes old new n with
    coded := (m.coded.filter (fun x => inFrame old (2048 * x.1))).foldl (fun (l : List (Nat × List Byte)) x => put l (shift x.1) x.2)
      (m.coded.filter (fun x => !inFrame new (2048 * x.1) && !inFrame old (2048 * x.1)))
    ctags := tags.foldl (fun (l : List (Nat × Byte)) x => mset 0 l (shift x.1) x.2) (m.ctags.filter (fun (x : Nat × Byte) => !inFrame new (2048 * x.1))) }

/-- What the freeze moves besides: the pins of the page with their lines, the collectives on descriptors in it, the waves
held in `gwait` on guards in it, and the accesses that wait for it. -/
def Mach.moveWaits (m : Mach) (c old new n : Nat) : Mach :=
  let mv := fun (a : Nat) => if old ≤ a && decide (a < old + n) then a - old + new else a
  let lane : LaneAcc → LaneAcc := fun x => if x.space == .global then { x with pa := mv x.pa } else x
  let wave : Wave → Wave := fun w =>
    if w.ctx != c then w else
    { w with
      acc := w.acc.map (fun (a : Access) => { a with lanes := a.lanes.map lane })
      hold := match w.hold with | .wait k (.gwait l b) => .wait k (.gwait (l.map (fun x => (mv x.1, x.2))) b) | h => h }
  let line := fun (l : Nat) => mv (128 * l) / 128
  let op : EngOp → EngOp := fun o =>
    match o.kind with
    | .coll fn t d s k desc sl => { o with kind := .coll fn t d s k (mv desc) sl }
    | _ => o
  { m with
    pins := m.pins.map (fun (p : Pin) => if p.ctx == c then { p with line := line p.line } else p)
    -- a pinned line is resident in its new slice, and the others leave the old one
    l2 := (m.l2.filter (fun (x : L2Line) => line x.line == x.line || m.pins.any (fun p => p.ctx == c && p.line == x.line))).map
            (fun (x : L2Line) => { x with line := line x.line })
    ops := m.ops.map (fun (o : Nat × EngOp) => (o.1, op o.2))
    colls := m.colls.map (fun (x : CollSt) => { x with desc := mv x.desc })
    waves := m.waves.map (fun (w : Nat × Wave) => (w.1, wave w.2)) }

/-- Migrates the page that holds a 64 KiB page of a context to a frame of its partition, or abandons it. -/
def execPageMigration (ctx page frame : Nat) (s : State) : Host.Outcome State Fault Refusal :=
  match s.m.ctx? ctx with
  | none => .next s
  | some x =>
    let va := page * 65536
    match walk s.mgmt s.m x va {} with
    | .ok pa leaf level =>
      let n := 2 ^ levelShift level
      let old := pa - pa % n
      if !(isMem old) || frame % n != 0 || !s.mgmt.owns x.part frame || meets old n frame n then .next s
      else if Config.migrationAbandoned s.m.tick then changed s { s.m with abandoned := s.m.abandoned ++ [(ctx, page)] }
      else
        let inPage := fun (p : Nat) => p / (n / 65536) == page / (n / 65536)
        let m := s.m.l1Drop (fun (l : L1Line) => l.ctx == ctx && l.vpages.any inPage)
        let m := m.rdcDrop (fun (l : RdcLine) => l.ctx == ctx && l.vpages.any inPage)
        let m := (m.movePage old frame n).moveWaits ctx old frame n
        let m := m.wrN (leafEntry m va 4 0 x.ptroot) 8 (leaf.toNat % 2 ^ 16 + frame)
        changed s { m with tlb := m.tlb.filter (fun (t : TlbEnt) => !(t.ctx == ctx && inPage t.vpage)) }
    | _ => .next s

end Sys2Proof.Machine
end

