-- ==== Sys2Proof/Machine/Home.lean ====
section
/-!
DEFINITION. Instructions performed at once at the home of one address for each logical wave: the checks that
they share (spec/08_memory_isa.md R213, R228; spec/12_recovery.md R319, R326) and the steps at home
(spec/07_ordering.md R189).
-/

namespace Sys2Proof.Machine

/-! ## Steps at home -/

/-- A number at a physical address, at its home or at the peer's (R357). -/
def Mach.homeN (m : Mach) (pa n : Nat) : Nat := bytesNat (m.rdAny pa n)
def Mach.homeWr (m : Mach) (pa n x : Nat) : Mach := m.wrAny pa (natBytes x n)

/-- A request of a core for a line at home: its own L1 copy is written back and dropped (R189). -/
def Mach.homeReq (m : Mach) (core c pa : Nat) : Mach :=
  if isMem pa then m.homeTouch core c (lineOf pa) true none else m

/-- The wave waits on an absent page: one fault record, when it does not wait for that page already (R326). -/
def Env.stall (e : Env) (m : Mach) (va level : Nat) (kind : BitVec 5) : WOut :=
  let waiting := match e.w.hold with | .wait _ _ => true | .none => false
  let joined := waiting && e.x.pending.any (fun p => p.page == pageOf (va % 2 ^ 57))
  .hold (if joined then m else m.absent e.w.ctx va level kind) e.w .room

/-- The `PERMIT` of an instruction that is complete but for the lanes that met a permission outcome (R326). -/
def permitAfter (pc : W64) (m : Mach) (w : Wave) (n : Nat) (va0 va1 : Nat) (lanes0 lanes1 : W64) : WOut :=
  let a := if lanes0 != 0 then va0 else va1
  let b := if lanes1 != 0 then va1 else va0
  .trap m { w.retired with pc := pc + w64 n }
    { code := 0x25, rpc := pc + w64 n, addr := w64 a, addr1 := w64 b, lanes0, lanes1 }

/-- Where one logical wave's operand lies. -/
inductive HomeAt where
  | at (pa : Nat)
  | perm
  | absent (va level : Nat)
  deriving DecidableEq, Repr

/-- Translates one address for each half. -/
def Env.homes (e : Env) (m : Mach) (need : Need) (addr : Bool → Nat) (ps : List Bool) : List (Bool × HomeAt) × Mach :=
  ps.foldl (fun (r : List (Bool × HomeAt) × Mach) p =>
    match xlate e.g r.2 e.w.ctx (addr p) need with
    | (.ok pa _ _, m) => (r.1 ++ [(p, .at pa)], m)
    | (.absent lv, m) => (r.1 ++ [(p, .absent (addr p) lv)], m)
    | (.perm _, m) => (r.1 ++ [(p, .perm)], m)) ([], m)

/-- The address causes of an instruction that names one global address for each half (R213, R228). -/
def Env.homeCauses (e : Env) (k n al : Nat) (addr : Bool → Nat) (ps : List Bool) : Option WOut :=
  let per := fun (p : Bool) => if ps.contains p then e.causes (addr p) n al true true else []
  match per false ++ per true with
  | [] => none
  | c :: cs =>
    let code := cs.foldl min c
    let lanes := fun (p : Bool) => if (per p).contains code then e.w.activeMask p k else 0
    some (e.before code (lanes false) (lanes true))

/-- An instruction of `bytes` bytes that is performed at home, once for each half in `ps`. -/
def Env.homeOp (e : Env) (bytes n al : Nat) (need : Need) (kind : BitVec 5) (addr : Bool → Nat) (ps : List Bool)
    (ready : Option Why) (f : Mach → Wave → Bool → Nat → Mach × Wave) : WOut :=
  match e.homeCauses 0 n al addr ps with
  | some t => t
  | none =>
    match ready with
    | some why => e.halt why
    | none =>
      let (l, m) := e.homes e.m need addr ps
      match l.findSome? (fun x => match x.2 with | .absent va lv => some (va, lv) | _ => none) with
      | some (va, lv) => e.stall m va lv kind
      | none =>
        if l.any (fun x => match x.2 with | .at pa => olderMeets e.w.acc need.w (addr x.1) pa n | _ => false) then e.halt .room
        else if l.any (fun x => match x.2 with | .at pa => m.poisoned pa n | _ => false) then .fatal m e.w 0x52 0 else
        let r := l.foldl (fun (r : Mach × Wave) x =>
          match x.2 with
          | .at pa => f (r.1.homeReq e.w.core e.w.ctx pa) r.2 x.1 pa
          | _ => r) (m, e.w)
        let bad := fun (p : Bool) => if l.any (fun x => x.1 == p && x.2 == .perm) then (e.w.half p).exec else 0
        if l.any (fun x => x.2 == .perm) then permitAfter e.w.pc r.1 r.2 bytes (addr false) (addr true) (bad false) (bad true)
        else .next r.1 { r.2 with pc := e.w.pc + w64 bytes }

end Sys2Proof.Machine
end

