-- ==== Sys2Proof/Machine/Coffer.lean ====
section
/-!
DEFINITION. Coffers (spec/08_memory_isa.md R224 to R226; spec/03_numbers.md R87).
-/

namespace Sys2Proof.Machine

/-- The header of a coffer (R224): FMT and LOGN. -/
structure CofferHead where
  fmt : Nat
  logn : Nat
  deriving DecidableEq, Repr

/-- What one lane of `cfadd` does, once the header is known. -/
structure Deposit where
  half : Bool
  lane : Nat
  base : Nat
  x : Nat
  val : Nat
  head : CofferHead
  refuse : Bool
  deriving DecidableEq, Repr

def Deposit.leaf (d : Deposit) : Nat := 2 ^ d.head.logn + d.x

/-- The node and its ancestors, up to the root. -/
def upFrom : Nat → Nat → List Nat
  | 0, _ => []
  | fuel + 1, i => if i = 0 then [] else i :: upFrom fuel (i / 2)

/-- Addresses whose translations a lane needs (R225): the header, then the pairs on the way to the root. -/
def Deposit.path (d : Deposit) : List Nat :=
  d.base :: (if d.refuse then [] else (upFrom 26 d.leaf).map (fun i => d.base + 16 * i))

def cofferFmt (fmt : Nat) : Fmt := if fmt = 0 then .f32 else .f64

/-- The frame address of an entry, whose translation is known to be good. -/
def entryPa (g : Mgmt) (m : Mach) (c va : Nat) : Nat :=
  match (xlate g m c va needRW).1 with | .ok pa _ _ => pa | _ => 0

/-- A request at the home of an entry. -/
def Env.cofferReq (e : Env) (m : Mach) (va : Nat) : Mach := m.homeReq e.w.core e.w.ctx (entryPa e.g m e.w.ctx va)

def Env.nodePresent (e : Env) (m : Mach) (base i : Nat) : Bool := m.homeN (entryPa e.g m e.w.ctx (base + 16 * i) + 8) 1 == 1

/-- Writes a node: value, PRESENT 1, zeros. -/
def Env.putNode (e : Env) (m : Mach) (base i v : Nat) : Mach :=
  let m := e.cofferReq m (base + 16 * i)
  let pa := entryPa e.g m e.w.ctx (base + 16 * i)
  (m.homeWr pa 8 v).homeWr (pa + 8) 8 1

def Env.status (e : Env) (m : Mach) (base : Nat) (f : Nat → Nat) : Mach :=
  let m := e.cofferReq m base
  let pa := entryPa e.g m e.w.ctx base + 8
  m.homeWr pa 8 (f (m.homeN pa 8))

def completeBit : Nat := 2 ^ 31

/-- Forms the ancestors whose children are both present (R225). -/
def Env.formUp (e : Env) (head : CofferHead) (base : Nat) : Nat → Mach → Nat → Mach
  | 0, m, _ => m
  | fuel + 1, m, i =>
    if i ≤ 1 || !e.nodePresent m base (i ^^^ 1) then m else
    let p := i / 2
    let size := if head.fmt = 0 then 4 else 8
    let v := fun j => m.homeN (entryPa e.g m e.w.ctx (base + 16 * j)) size
    let (r, fl) := (cofferFmt head.fmt).add .near false (v (2 * p)) (v (2 * p + 1))
    let m := e.putNode m base p r
    let m := e.status m base (fun st => st ||| (fl.toNat * 2 ^ 32) ||| (if p = 1 then completeBit else 0))
    e.formUp head base fuel m p

/-- One lane's deposit: the machine, and whether it was refused. -/
def Env.deposit (e : Env) (m : Mach) (d : Deposit) : Mach × Bool :=
  let refuse := d.refuse || e.nodePresent m d.base d.leaf
  if refuse then
    (e.status m d.base (fun st => st % 2 ^ 40 + (min (st / 2 ^ 40 + 1) (2 ^ 24 - 1)) * 2 ^ 40), true)
  else
    let m := e.putNode m d.base d.leaf d.val
    let m := if d.leaf = 1 then e.status m d.base (fun st => st ||| completeBit) else m
    (e.formUp d.head d.base 25 m d.leaf, false)

/-- The deposits that a `cfadd` makes, from headers as they stand. -/
def Env.deposits (e : Env) (o : OpCfadd) (m : Mach) : List Deposit :=
  e.w.groups.flatMap (fun p => (e.w.active p o.k.toNat).map (fun l =>
    let base := (e.w.getS p o.a.toNat).toNat
    let h := m.homeN (entryPa e.g m e.w.ctx base) 2
    let head : CofferHead := { fmt := h % 256, logn := h / 256 % 256 }
    let x := e.src p l .n32 o.b
    let val := e.w.vec p l (if o.wide then .f64 else .f32) o.c.toNat
    let misfit := decide (1 < head.fmt) || decide (24 < head.logn) || (o.wide != (head.fmt == 1))
    { half := p, lane := l, base, x, val, head, refuse := misfit || decide (2 ^ head.logn ≤ x) }))

/-- The outcomes of a list of translations. -/
def Env.tryAll (e : Env) (m : Mach) (l : List Nat) : List (Nat × XRes) × Mach :=
  l.foldl (fun (r : List (Nat × XRes) × Mach) va => let (x, m) := xlate e.g r.2 e.w.ctx va needRW; (r.1 ++ [(va, x)], m)) ([], m)

def firstAbsent (l : List (Nat × XRes)) : Option (Nat × Nat) :=
  l.findSome? (fun x => match x.2 with | .absent lv => some (x.1, lv) | _ => none)
def firstPerm (l : List (Nat × XRes)) : Option Nat :=
  l.findSome? (fun x => match x.2 with | .perm _ => some x.1 | _ => none)

/-- The data comparators see the leaf of each lane that names one (R336). -/
def Env.cofferLanes (e : Env) (o : OpCfadd) : List (Bool × Nat × Nat) :=
  (e.deposits o e.m).filterMap (fun d => if d.refuse then none else some (d.half, d.lane, d.base + 16 * d.leaf))

/-- `cfadd` (R225). -/
def execCfadd (o : OpCfadd) (s : State) : Host.Outcome State Fault Refusal :=
  withCur (fun e =>
    let base := fun (p : Bool) => (e.w.getS p o.a.toNat).toNat
    let ps := e.w.groups.filter (fun p => !(e.w.active p o.k.toNat).isEmpty)
    match e.debugData true true (e.cofferLanes o) 16 with
    | some q => .trap e.m e.w q
    | none =>
    match e.homeCauses o.k.toNat 32 32 base ps with
    | some t => t
    | none =>
      if o.rel && !e.released none o.scope false (fun _ _ => true) then e.halt .room else
      let m := if o.rel then e.m.releaseTo e.w.ctx o.scope else e.m
      let lanes := e.w.work o.k.toNat false
      let heads := ((lanes.map (fun x => base x.1)).eraseDups)
      let (hs, m) := e.tryAll m heads
      match firstAbsent hs with
      | some (va, lv) => e.stall m va lv kindAtomic
      | none =>
        if hs.any (fun x => match x.2 with | .ok pa _ _ => m.poisoned pa 16 | _ => false) then .fatal m e.w 0x52 0 else
        let m := heads.foldl (fun m va => e.cofferReq m va) m
        let ds := e.deposits o m
        let (ts, m) := ds.foldl (fun (r : List (Deposit × List (Nat × XRes)) × Mach) d =>
          let (x, m) := e.tryAll r.2 d.path; (r.1 ++ [(d, x)], m)) ([], m)
        match ts.findSome? (fun t => firstAbsent t.2) with
        | some (va, lv) => e.stall m va lv kindAtomic
        | none =>
          if ts.any (fun t => t.2.any (fun x => match x.2 with | .ok pa _ _ => olderMeets e.w.acc true x.1 pa 16 | _ => false)) then e.halt .room
          else if ts.any (fun t => (firstPerm t.2).isNone && t.2.any (fun x => match x.2 with | .ok pa _ _ => m.poisoned pa 16 | _ => false))
          then .fatal m e.w 0x52 0 else
          let r := ts.foldl (fun (r : Mach × Wave) t =>
            if (firstPerm t.2).isSome then r else
            let (m, no) := e.deposit r.1 t.1
            (m, r.2.setK t.1.half o.d.toNat (setBit (r.2.getK t.1.half o.d.toNat) t.1.lane no))) (m, e.w)
          let bad := ts.filterMap (fun t => (firstPerm t.2).map (fun va => (t.1.half, t.1.lane, va)))
          let lanesOf := fun (p : Bool) => maskOf ((bad.filter (fun x => x.1 == p)).map (fun x => x.2.1))
          let addrOf := fun (p : Bool) => ((bad.find? (fun x => x.1 == p)).map (fun x => x.2.2)).getD 0
          if bad.isEmpty then .next r.1 { r.2 with pc := e.w.pc + 16 }
          else permitAfter e.w.pc r.1 r.2 16 (addrOf false) (addrOf true) (lanesOf false) (lanesOf true)) s

/-- `cfread` (R226). -/
def execCfread (o : OpCfread) (s : State) : Host.Outcome State Fault Refusal :=
  withCur (fun e =>
    let base := fun (p : Bool) => (e.w.getS p o.a.toNat).toNat
    e.homeOp 16 32 32 needR kindRead base e.w.passes none (fun m w p pa =>
      let fmt := m.homeN pa 1
      let st := m.homeN (pa + 8) 8
      let root := m.homeN (pa + 16) (if o.wide then 8 else 4)
      let fits := decide (fmt ≤ 1) && (o.wide == (fmt == 1))
      let v := if fits && st / completeBit % 2 = 1 then root else 0
      let w := (w.setS p o.d.toNat (w64 v)).setS p o.e.toNat (w64 st)
      (if o.acq then m.invalidateAll w.core w.ctx o.scope else m, w))) s

end Sys2Proof.Machine
end

