-- ==== Sys2Proof/Machine/Transc.lean ====
section
/-!
DEFINITION. `fex2`, `flg2` and `ftrig` (spec/04_vector_isa.md R110): the exact value of the function,
rounded once (R69). A value is enclosed between two integers at a scale 2^K; when both lie in one cell of
the format's grid with four bits to spare, the cell and a sticky bit decide the rounding, since none of
these values is rational outside the cases treated first. The search doubles K up to 2^12 times the first,
which no input needs (notes/assumptions/9.md).
-/

namespace Sys2Proof.Machine

/-- Lower and upper bounds of a nonnegative real at a scale. -/
abbrev Enc := Nat × Nat

/-- Σ p/9^i/(2i+1) downwards, with the number of terms added twice as the upper bound. -/
def atanhSum : Nat → Nat → Nat → Nat → Nat → Nat
  | 0, _, _, _, acc => acc
  | n + 1, q, p, i, acc => atanhSum n q (p / q) (i + 1) (acc + p / (2 * i + 1))

/-- ln 2 = 2 atanh(1/3). -/
def encLn2 (k : Nat) : Enc :=
  let n := k / 3 + 4
  let lo := atanhSum n 9 (2 * 2 ^ k / 3) 0 0
  (lo, lo + 2 * n + 2)

/-- atan(1/q) as a positive and a negative sum. -/
def atanSum : Nat → Nat → Nat → Nat → Nat → Nat → Nat × Nat
  | 0, _, _, _, p, m => (p, m)
  | n + 1, q2, t, i, p, m =>
    let x := t / (2 * i + 1)
    if i % 2 = 0 then atanSum n q2 (t / q2) (i + 1) (p + x) m else atanSum n q2 (t / q2) (i + 1) p (m + x)

/-- π/2 by Machin's formula. -/
def encHalfPi (k : Nat) : Enc :=
  let n := k / 4 + 4
  let (p, m) := atanSum n 25 (2 ^ k / 5) 0 0 0
  let (p', m') := atanSum n 57121 (2 ^ k / 239) 0 0 0
  let c := 8 * p + 2 * m' - 8 * m - 2 * p'
  let err := 20 * n + 20
  (c - err, c + err)

/-- Taylor terms of exp on an enclosure of y in [0, 1). -/
def expSum : Nat → Nat → Nat → Nat → Nat → Nat → Nat → Nat → Nat → Enc
  | 0, _, _, _, _, tl, th, sl, sh => (sl, sh + th + 1 + (if tl = 0 then 1 else 1))
  | n + 1, k, yl, yh, i, tl, th, sl, sh =>
    let tl' := ((tl * yl) >>> k) / (i + 1)
    let th' := ((th * yh) >>> k) / (i + 1) + 1
    expSum n k yl yh (i + 1) tl' th' (sl + tl') (sh + th')

def encExp (k : Nat) (y : Enc) : Enc :=
  expSum (k / 4 + 12) k y.1 y.2 0 (2 ^ k) (2 ^ k) (2 ^ k) (2 ^ k)

/-- Odd powers of z over odd numbers, for ln t = 2 atanh z. -/
def lnSum : Nat → Nat → Nat → Nat → Nat → Nat → Nat → Nat → Nat → Enc
  | 0, _, _, _, _, _, th, sl, sh => (2 * sl, 2 * (sh + 2 * th + 2))
  | n + 1, k, zl, zh, i, tl, th, sl, sh =>
    let sl' := sl + tl / (2 * i + 1)
    let sh' := sh + th / (2 * i + 1) + 1
    lnSum n k zl zh (i + 1) ((tl * zl) >>> k) (((th * zh) >>> k) + 1) sl' sh'

/-- log2 t for t = a / 2^q in (1, 2). -/
def encLog2 (k a q : Nat) : Enc :=
  let zl := ((a - 2 ^ q) <<< k) / (a + 2 ^ q)
  let zh := zl + 1
  let z2l := (zl * zl) >>> k
  let z2h := ((zh * zh) >>> k) + 1
  let ln := lnSum (k / 3 + 4) k z2l z2h 0 zl zh 0 0
  let l2 := encLn2 k
  ((ln.1 <<< k) / l2.2, (ln.2 <<< k) / l2.1 + 1)

/-- Alternating Taylor sums of sin (from r) and cos (from 1) on an enclosure of r in [0, 1.6). -/
def trigSum : Nat → Nat → Nat → Nat → Nat → Nat → Nat → Bool → Enc → Enc → Enc × Enc
  | 0, _, _, _, _, _, th, _, p, m => ((p.1, p.2 + th + 1), (m.1, m.2 + th + 1))
  | n + 1, k, r2l, r2h, i, tl, th, pos, p, m =>
    let p' := if pos then (p.1 + tl, p.2 + th) else p
    let m' := if pos then m else (m.1 + tl, m.2 + th)
    trigSum n k r2l r2h (i + 2) (((tl * r2l) >>> k) / (i * (i + 1)))
      (((th * r2h) >>> k) / (i * (i + 1)) + 1) (!pos) p' m'

def encTrig (k : Nat) (cosine : Bool) (r : Enc) : Enc :=
  let r2l := (r.1 * r.1) >>> k
  let r2h := ((r.2 * r.2) >>> k) + 1
  let (p, m) :=
    if cosine then trigSum (k / 4 + 12) k r2l r2h 1 (2 ^ k) (2 ^ k) true (0, 0) (0, 0)
    else trigSum (k / 4 + 12) k r2l r2h 2 r.1 r.2 true (0, 0) (0, 0)
  (p.1 - m.2, p.2 - m.1)

/-- The enclosed magnitude rounded, when one cell with enough bits holds the enclosure. -/
def Fmt.cell (f : Fmt) (rm : Rm) (neg : Bool) (k : Nat) (x : Enc) : Option (Nat × Flags) :=
  let l := bitLen x.1
  if l < f.mb + 6 then none else
  let g := l - (f.mb + 6)
  if x.1 >>> g = x.2 >>> g then some (f.rnd rm false neg (x.1 >>> g) ((g : Int) - k) true) else none

/-- The last step of a search: the lower bound's cell (notes/assumptions/9.md: no input comes here). -/
def Fmt.lastCell (f : Fmt) (rm : Rm) (neg : Bool) (k : Nat) (x : Enc) : Nat × Flags :=
  let g := bitLen x.1 - (f.mb + 6)
  f.rnd rm false neg (x.1 >>> g) ((g : Int) - k) true

/-- Doublings of the precision that a search may make. -/
def searchFuel : Nat := 12

/-- Tries precisions K, 2K, 4K … until one cell holds the enclosure. -/
def Fmt.search (f : Fmt) (rm : Rm) (neg : Bool) (enc : Nat → Enc) : Nat → Nat → Nat × Flags
  | 0, k => f.lastCell rm neg k (enc k)
  | n + 1, k =>
    match f.cell rm neg k (enc k) with
    | some r => r
    | none => f.search rm neg enc n (2 * k)

def Fmt.baseK (f : Fmt) : Nat := 2 * f.mb + 40

/-- `fex2` (R110). -/
def Fmt.ex2 (f : Fmt) (rm : Rm) (a : Nat) : Nat × Flags :=
  match f.propNaN [a] with
  | some r => r
  | none =>
    match f.val a with
    | .inf n => (if n then 0 else f.infPat, 0)
    | .nan => f.invalid
    | .fin n m e =>
      if m = 0 then (f.one, 0) else
      let top : Int := e + m.log2
      if 12 ≤ top then f.rnd rm false false 1 (if n then -8192 else 8192)
      else if top < -(f.mb + 6 : Int) then
        -- 2^a lies just above or just below 1
        if n then f.rnd rm false false (2 ^ (f.mb + 8) - 1) (-(f.mb + 8 : Int)) true
        else f.rnd rm false false (2 ^ (f.mb + 8)) (-(f.mb + 8 : Int)) true
      else
        let d := (-e).toNat
        let x : Int := if 0 ≤ e then (m <<< e.toNat : Nat) else m
        let x := if n then -x else x
        let ip := x / (2 ^ d : Nat)
        let fr := (x % (2 ^ d : Nat)).toNat
        if fr = 0 then f.rnd rm false false 1 ip
        else
          let enc : Nat → Enc := fun k =>
            let l2 := encLn2 k
            encExp k ((fr * l2.1) >>> d, ((fr * l2.2) >>> d) + 1)
          -- 2^ip × 2^fr: the exponent moves with the cell
          let shifted : Nat → Nat → Nat × Flags := fun n0 k0 =>
            let rec go : Nat → Nat → Nat × Flags
              | 0, k =>
                let y := enc k
                let g := bitLen y.1 - (f.mb + 6)
                f.rnd rm false false (y.1 >>> g) ((g : Int) - k + ip) true
              | n + 1, k =>
                let y := enc k
                let g := bitLen y.1 - (f.mb + 6)
                if y.1 >>> g = y.2 >>> g then f.rnd rm false false (y.1 >>> g) ((g : Int) - k + ip) true
                else go n (2 * k)
            go n0 k0
          shifted searchFuel f.baseK

/-- `flg2` (R110). -/
def Fmt.lg2 (f : Fmt) (rm : Rm) (a : Nat) : Nat × Flags :=
  match f.propNaN [a] with
  | some r => r
  | none =>
    match f.val a with
    | .inf n => if n then f.invalid else (f.infPat, 0)
    | .nan => f.invalid
    | .fin n m e =>
      if m = 0 then (f.signed true f.infPat, fDivzero) else if n then f.invalid else
      let q := m.log2
      let ip : Int := e + q
      if m = 2 ^ q then f.rnd rm false (decide (ip < 0)) ip.natAbs 0
      else if 0 ≤ ip then
        f.search rm false (fun k => let l := encLog2 k m q; (l.1 + (ip.toNat <<< k), l.2 + (ip.toNat <<< k))) searchFuel f.baseK
      else
        let j := ip.natAbs
        f.search rm true (fun k => let l := encLog2 k m q; ((j <<< k) - l.2, (j <<< k) - l.1)) searchFuel f.baseK

/-- `ftrig` (R110): the sine or cosine of any finite argument. -/
def Fmt.trig (f : Fmt) (cosine : Bool) (rm : Rm) (a : Nat) : Nat × Flags :=
  match f.propNaN [a] with
  | some r => r
  | none =>
    match f.val a with
    | .inf _ => f.invalid
    | .nan => f.invalid
    | .fin n m e =>
      if m = 0 then (if cosine then f.one else a, 0) else
      let top : Int := e + m.log2
      if 2 * top < -(f.mb + 8 : Int) then
        -- x − x³/6 + … and 1 − x²/2 + … lie just below x and 1
        let j := f.mb + 8
        if cosine then f.rnd rm false false (2 ^ j - 1) (-(j : Int)) true
        else f.rnd rm false n ((m <<< j) - 1) (e - j) true
      else
        let enc : Nat → Nat × Enc := fun k =>
          let k' := k + (-e).toNat + (max top 0).toNat + 16
          let x := if 0 ≤ e then m <<< (e.toNat + k') else m <<< (k' - (-e).toNat)
          let hp := encHalfPi k'
          let q := x / hp.2
          let rl := x - q * hp.2
          let rh := x - q * hp.1
          (q, (rl >>> (k' - k), (rh >>> (k' - k)) + 1))
        let rec go : Nat → Nat → Nat × Flags
          | 0, k =>
            let (q, r) := enc k
            let useCos := cosine != (q % 2 == 1)
            let neg := if cosine then (q % 4 == 1 || q % 4 == 2) else ((q % 4 == 2 || q % 4 == 3) != n)
            f.lastCell rm neg k (encTrig k useCos r)
          | fuel + 1, k =>
            let (q, r) := enc k
            let useCos := cosine != (q % 2 == 1)
            let neg := if cosine then (q % 4 == 1 || q % 4 == 2) else ((q % 4 == 2 || q % 4 == 3) != n)
            match f.cell rm neg k (encTrig k useCos r) with
            | some z => z
            | none => go fuel (2 * k)
        go searchFuel f.baseK

end Sys2Proof.Machine
end

