-- ==== Sys2Proof/Machine/FloatAlu.lean ====
section
/-!
DEFINITION. Floating-point arithmetic, comparison and the microcoded functions (spec/04_vector_isa.md R105
to R110), each rounded once (R69), with the flags of R70 and the precise traps of R71.
-/

namespace Sys2Proof.Machine

/-- The IEEE format of a type that test 4 of R54 has admitted. -/
def Ty.ieee (t : Ty) : Fmt := (Ty.fmt? t).getD .f32

/-- Writes one result of type `t` per lane, with flags. -/
def Env.flanes (e : Env) (k : BitVec 4) (t : Ty) (d : Dst) (f : Bool → Nat → Nat × Flags) : WOut :=
  let rs := e.each k.toNat (Dst.uni d) f
  e.flagged (e.w.putAll t d rs) rs

def Env.flt1 (e : Env) (o : Op1) (t : Ty) (f : Nat → Nat × Flags) : WOut :=
  e.flanes o.k t o.d (fun p l => f (e.src p l o.ty o.a))

def Env.flt2 (e : Env) (o : Op2) (f : Nat → Nat → Nat × Flags) : WOut :=
  e.flanes o.k o.ty o.d (fun p l => f (e.src p l o.ty o.a) (e.src p l o.ty o.b))

def Env.flt3 (e : Env) (o : Op3) (f : Nat → Nat → Nat → Nat × Flags) : WOut :=
  e.flanes o.k o.ty o.d (fun p l => f (e.src p l o.ty o.a) (e.src p l o.ty o.b) (e.src p l o.ty o.c))

def execFadd (rm : Rm) (sat : Bool) (o : Op2) (s : State) : Host.Outcome State Fault Refusal :=
  withCur (fun e => e.flt2 o ((Ty.ieee o.ty).add rm sat)) s

def execFsub (rm : Rm) (sat : Bool) (o : Op2) (s : State) : Host.Outcome State Fault Refusal :=
  withCur (fun e => e.flt2 o ((Ty.ieee o.ty).sub rm sat)) s

def execFmul (rm : Rm) (sat : Bool) (o : Op2) (s : State) : Host.Outcome State Fault Refusal :=
  withCur (fun e => e.flt2 o ((Ty.ieee o.ty).mul rm sat)) s

def execFma (rm : Rm) (sat : Bool) (o : Op3) (s : State) : Host.Outcome State Fault Refusal :=
  withCur (fun e => e.flt3 o ((Ty.ieee o.ty).fma rm sat)) s

def execFmin (o : Op2) (s : State) : Host.Outcome State Fault Refusal :=
  withCur (fun e => e.flt2 o ((Ty.ieee o.ty).minmax false)) s

def execFmax (o : Op2) (s : State) : Host.Outcome State Fault Refusal :=
  withCur (fun e => e.flt2 o ((Ty.ieee o.ty).minmax true)) s

/-- B is an i32 operand whatever the type (R105). -/
def execFscale (rm : Rm) (sat : Bool) (o : Op2) (s : State) : Host.Outcome State Fault Refusal :=
  withCur (fun e => e.flanes o.k o.ty o.d
    (fun p l => (Ty.ieee o.ty).scale rm sat (e.src p l o.ty o.a) (sext (e.src p l .i32 o.b) 32))) s

/-! ## Comparison and classification (R106, R107) -/

/-- `quiet` comparisons raise INVALID for a signalling NaN alone, the others for any NaN (R106). -/
def Env.fcompare (e : Env) (o : OpC) (quiet : Bool) (f : Option Ordering → Bool) : WOut :=
  let fm := Ty.ieee o.ty
  let one := fun (p : Bool) (l : Nat) =>
    let a := e.src p l o.ty o.a
    let b := e.src p l o.ty o.b
    let bad := fm.isSNaN a || fm.isSNaN b || (!quiet && (fm.isNaN a || fm.isNaN b))
    (if f (fm.cmp a b) then 1 else 0, if bad then fInvalid else 0)
  let rs := e.each o.k.toNat false one
  e.flagged (e.w.putBits o.d.toNat rs) rs

def execFcmpEq (o : OpC) (s : State) : Host.Outcome State Fault Refusal :=
  withCur (fun e => e.fcompare o true (fun r => r == some .eq)) s
def execFcmpNe (o : OpC) (s : State) : Host.Outcome State Fault Refusal :=
  withCur (fun e => e.fcompare o true (fun r => r != some .eq)) s
def execFcmpLt (o : OpC) (s : State) : Host.Outcome State Fault Refusal :=
  withCur (fun e => e.fcompare o false (fun r => r == some .lt)) s
def execFcmpLe (o : OpC) (s : State) : Host.Outcome State Fault Refusal :=
  withCur (fun e => e.fcompare o false (fun r => r == some .lt || r == some .eq)) s
def execFcmpGt (o : OpC) (s : State) : Host.Outcome State Fault Refusal :=
  withCur (fun e => e.fcompare o false (fun r => r == some .gt)) s
def execFcmpGe (o : OpC) (s : State) : Host.Outcome State Fault Refusal :=
  withCur (fun e => e.fcompare o false (fun r => r == some .gt || r == some .eq)) s
def execFcmpOrd (o : OpC) (s : State) : Host.Outcome State Fault Refusal :=
  withCur (fun e => e.fcompare o true (fun r => r.isSome)) s
def execFcmpUno (o : OpC) (s : State) : Host.Outcome State Fault Refusal :=
  withCur (fun e => e.fcompare o true (fun r => r.isNone)) s

def execFcls (o : Op1) (s : State) : Host.Outcome State Fault Refusal :=
  withCur (fun e => e.flt1 o .n32 (fun a => ((Ty.ieee o.ty).cls a, 0))) s

def execFrnd (rm : Rm) (o : Op1) (s : State) : Host.Outcome State Fault Refusal :=
  withCur (fun e => e.flt1 o o.ty ((Ty.ieee o.ty).round rm)) s

def execFexp (o : Op1) (s : State) : Host.Outcome State Fault Refusal :=
  withCur (fun e => e.flt1 o .i32 (Ty.ieee o.ty).exponent) s

/-! ## The microcoded functions (R110) -/

def execFdiv (rm : Rm) (sat : Bool) (o : Op2) (s : State) : Host.Outcome State Fault Refusal :=
  withCur (fun e => e.flt2 o ((Ty.ieee o.ty).div rm sat)) s
def execFsqrt (rm : Rm) (o : Op1) (s : State) : Host.Outcome State Fault Refusal :=
  withCur (fun e => e.flt1 o o.ty ((Ty.ieee o.ty).sqrt rm)) s
def execFrcp (rm : Rm) (o : Op1) (s : State) : Host.Outcome State Fault Refusal :=
  withCur (fun e => e.flt1 o o.ty ((Ty.ieee o.ty).rcp rm)) s
def execFrsq (rm : Rm) (o : Op1) (s : State) : Host.Outcome State Fault Refusal :=
  withCur (fun e => e.flt1 o o.ty ((Ty.ieee o.ty).rsq rm)) s
def execFex2 (rm : Rm) (o : Op1) (s : State) : Host.Outcome State Fault Refusal :=
  withCur (fun e => e.flt1 o o.ty ((Ty.ieee o.ty).ex2 rm)) s
def execFlg2 (rm : Rm) (o : Op1) (s : State) : Host.Outcome State Fault Refusal :=
  withCur (fun e => e.flt1 o o.ty ((Ty.ieee o.ty).lg2 rm)) s
def execFtrigSin (rm : Rm) (o : Op1) (s : State) : Host.Outcome State Fault Refusal :=
  withCur (fun e => e.flt1 o o.ty ((Ty.ieee o.ty).trig false rm)) s
def execFtrigCos (rm : Rm) (o : Op1) (s : State) : Host.Outcome State Fault Refusal :=
  withCur (fun e => e.flt1 o o.ty ((Ty.ieee o.ty).trig true rm)) s

end Sys2Proof.Machine
end

