-- ==== Sys2Proof/Machine/IntAlu.lean ====
section
/-!
DEFINITION. Integer arithmetic, logic, shifts, bit fields, comparison, moves, address and carry
instructions (spec/04_vector_isa.md R96 to R104). None raises a flag (R70).
-/

namespace Sys2Proof.Machine

/-- Writes one result of type `t` per lane of `active(W)` (R6, R92). -/
def Env.lanes (e : Env) (k : BitVec 4) (t : Ty) (d : Dst) (f : Bool → Nat → Nat) (n : Nat := 8) : WOut :=
  e.ok (e.w.putAll t d (e.each k.toNat (Dst.uni d) (fun p l => (f p l, 0)))) n

/-- One source, a result of type `t`. -/
def Env.int1 (e : Env) (o : Op1) (t : Ty) (f : Nat → Nat) : WOut :=
  e.lanes o.k t o.d (fun p l => f (e.src p l o.ty o.a))

/-- Two sources, B of type `tb`. -/
def Env.int2 (e : Env) (o : Op2) (tb : Ty) (f : Nat → Nat → Nat) : WOut :=
  e.lanes o.k o.ty o.d (fun p l => f (e.src p l o.ty o.a) (e.src p l tb o.b))

/-- Three sources, B of type `tb`. -/
def Env.int3 (e : Env) (o : Op3) (tb : Ty) (f : Nat → Nat → Nat → Nat) : WOut :=
  e.lanes o.k o.ty o.d (fun p l => f (e.src p l o.ty o.a) (e.src p l tb o.b) (e.src p l o.ty o.c))

/-- The write rule of R97: saturation under MOD[2], then `x mod 2^w`. -/
def narrowInt (sat : Bool) (t : Ty) (x : Int) : Nat := if sat then Ty.sat t x else Ty.wrap t x

/-- `nop` (R96). -/
def execNop (s : State) : Host.Outcome State Fault Refusal := withCur (fun e => e.ok e.w) s

def execAdd (sat : Bool) (o : Op2) (s : State) : Host.Outcome State Fault Refusal :=
  withCur (fun e => e.int2 o o.ty (fun a b => narrowInt sat o.ty (Ty.int o.ty a + Ty.int o.ty b))) s

def execSub (sat : Bool) (o : Op2) (s : State) : Host.Outcome State Fault Refusal :=
  withCur (fun e => e.int2 o o.ty (fun a b => narrowInt sat o.ty (Ty.int o.ty a - Ty.int o.ty b))) s

def execMul (sat : Bool) (o : Op2) (s : State) : Host.Outcome State Fault Refusal :=
  withCur (fun e => e.int2 o o.ty (fun a b => narrowInt sat o.ty (Ty.int o.ty a * Ty.int o.ty b))) s

/-- `floor(a × b / 2^w)` (R97). -/
def execMulh (o : Op2) (s : State) : Host.Outcome State Fault Refusal :=
  withCur (fun e => e.int2 o o.ty (fun a b => Ty.wrap o.ty (Ty.int o.ty a * Ty.int o.ty b / (2 ^ Ty.bits o.ty : Nat)))) s

def execMad (sat : Bool) (o : Op3) (s : State) : Host.Outcome State Fault Refusal :=
  withCur (fun e => e.int3 o o.ty (fun a b c => narrowInt sat o.ty (Ty.int o.ty a * Ty.int o.ty b + Ty.int o.ty c))) s

/-- The lesser or the greater of two patterns under an integer type. -/
def intMin (t : Ty) (a b : Nat) : Nat := if Ty.int t b < Ty.int t a then b else a
def intMax (t : Ty) (a b : Nat) : Nat := if Ty.int t a < Ty.int t b then b else a

def execMin (o : Op2) (s : State) : Host.Outcome State Fault Refusal := withCur (fun e => e.int2 o o.ty (intMin o.ty)) s
def execMax (o : Op2) (s : State) : Host.Outcome State Fault Refusal := withCur (fun e => e.int2 o o.ty (intMax o.ty)) s

def execAbs (sat : Bool) (o : Op1) (s : State) : Host.Outcome State Fault Refusal :=
  withCur (fun e => e.int1 o o.ty (fun a => narrowInt sat o.ty (Ty.int o.ty a).natAbs)) s

def execAnd (o : Op2) (s : State) : Host.Outcome State Fault Refusal := withCur (fun e => e.int2 o o.ty (· &&& ·)) s
def execOr (o : Op2) (s : State) : Host.Outcome State Fault Refusal := withCur (fun e => e.int2 o o.ty (· ||| ·)) s
def execXor (o : Op2) (s : State) : Host.Outcome State Fault Refusal := withCur (fun e => e.int2 o o.ty (· ^^^ ·)) s

/-- `a and not b`. -/
def execAndn (o : Op2) (s : State) : Host.Outcome State Fault Refusal :=
  withCur (fun e => e.int2 o o.ty (fun a b => a &&& (2 ^ Ty.bits o.ty - 1 - b))) s

/-! ## Shifts (R98) -/

def shiftLeft (t : Ty) (a n : Nat) : Nat := if Ty.bits t ≤ n then 0 else a * 2 ^ n % 2 ^ Ty.bits t

/-- Arithmetic under i types, logical under the others. -/
def shiftRight (t : Ty) (a n : Nat) : Nat :=
  if Ty.sgn t then Ty.wrap t (Ty.int t a / (2 ^ min n (Ty.bits t - 1) : Nat))
  else if Ty.bits t ≤ n then 0 else a / 2 ^ n

def rotateLeft (t : Ty) (a n : Nat) : Nat :=
  let w := Ty.bits t
  let r := n % w
  a * 2 ^ r % 2 ^ w + a / 2 ^ (w - r)

def execShl (o : Op2) (s : State) : Host.Outcome State Fault Refusal := withCur (fun e => e.int2 o o.ty (shiftLeft o.ty)) s
def execShr (o : Op2) (s : State) : Host.Outcome State Fault Refusal := withCur (fun e => e.int2 o o.ty (shiftRight o.ty)) s
def execRot (o : Op2) (s : State) : Host.Outcome State Fault Refusal := withCur (fun e => e.int2 o o.ty (rotateLeft o.ty)) s

/-! ## Division (R99) -/

def divQuotient (t : Ty) (a b : Nat) : Nat :=
  if Ty.int t b = 0 then 2 ^ Ty.bits t - 1 else Ty.wrap t ((Ty.int t a).tdiv (Ty.int t b))

def divRemainder (t : Ty) (a b : Nat) : Nat :=
  if Ty.int t b = 0 then a else Ty.wrap t ((Ty.int t a).tmod (Ty.int t b))

def execDivQuo (o : Op2) (s : State) : Host.Outcome State Fault Refusal := withCur (fun e => e.int2 o o.ty (divQuotient o.ty)) s
def execDivRem (o : Op2) (s : State) : Host.Outcome State Fault Refusal := withCur (fun e => e.int2 o o.ty (divRemainder o.ty)) s

/-! ## Bit fields (R100) -/

/-- Number of one bits among the low `n`. -/
def ones? (a n : Nat) : Nat := ((List.range n).filter (fun i => a.testBit i)).length

def reverseBits (a w : Nat) : Nat := (List.range w).foldl (fun r i => if a.testBit i then r + 2 ^ (w - 1 - i) else r) 0

def execClz (o : Op1) (s : State) : Host.Outcome State Fault Refusal :=
  withCur (fun e => e.int1 o .n32 (fun a => Ty.bits o.ty - bitLen a)) s

def execPopc (o : Op1) (s : State) : Host.Outcome State Fault Refusal :=
  withCur (fun e => e.int1 o .n32 (fun a => ones? a (Ty.bits o.ty))) s

def execBrev (o : Op1) (s : State) : Host.Outcome State Fault Refusal :=
  withCur (fun e => e.int1 o o.ty (fun a => reverseBits a (Ty.bits o.ty))) s

/-- The length that the packed operand gives, clipped to the width. -/
def fieldLen (w b : Nat) : Nat := if w ≤ fld b 0 8 then 0 else min (fld b 8 8) (w - fld b 0 8)

def bitExtract (t : Ty) (a b : Nat) : Nat :=
  let n := fieldLen (Ty.bits t) b
  let f := a / 2 ^ fld b 0 8 % 2 ^ n
  if Ty.sgn t then Ty.wrap t (sext f n) else f

def bitInsert (t : Ty) (a b c : Nat) : Nat :=
  let n := fieldLen (Ty.bits t) b
  let p := fld b 0 8
  if n = 0 then c else c % 2 ^ p + a % 2 ^ n * 2 ^ p + c / 2 ^ (p + n) * 2 ^ (p + n)

def execBfe (o : Op2) (s : State) : Host.Outcome State Fault Refusal := withCur (fun e => e.int2 o .n32 (bitExtract o.ty)) s
def execBfi (o : Op3) (s : State) : Host.Outcome State Fault Refusal := withCur (fun e => e.int3 o .n32 (bitInsert o.ty)) s

/-! ## Selection and comparison (R101, R102) -/

def execSel (kc : BitVec 4) (o : Op2) (s : State) : Host.Outcome State Fault Refusal :=
  withCur (fun e => e.lanes o.k o.ty o.d (fun p l => e.src p l o.ty (if e.w.kbit p kc.toNat l then o.a else o.b))) s

/-- One mask bit for each active lane; the others keep theirs (R102, R106). -/
def Env.compare (e : Env) (o : OpC) (f : Int → Int → Bool) : WOut :=
  let one := fun (p : Bool) (l : Nat) =>
    if f (Ty.int o.ty (e.src p l o.ty o.a)) (Ty.int o.ty (e.src p l o.ty o.b)) then 1 else 0
  e.ok (e.w.putBits o.d.toNat (e.each o.k.toNat false (fun p l => (one p l, 0))))

def execCmpEq (o : OpC) (s : State) : Host.Outcome State Fault Refusal := withCur (fun e => e.compare o (fun a b => a == b)) s
def execCmpNe (o : OpC) (s : State) : Host.Outcome State Fault Refusal := withCur (fun e => e.compare o (fun a b => a != b)) s
def execCmpLt (o : OpC) (s : State) : Host.Outcome State Fault Refusal := withCur (fun e => e.compare o (fun a b => decide (a < b))) s
def execCmpLe (o : OpC) (s : State) : Host.Outcome State Fault Refusal := withCur (fun e => e.compare o (fun a b => decide (a ≤ b))) s
def execCmpGt (o : OpC) (s : State) : Host.Outcome State Fault Refusal := withCur (fun e => e.compare o (fun a b => decide (b < a))) s
def execCmpGe (o : OpC) (s : State) : Host.Outcome State Fault Refusal := withCur (fun e => e.compare o (fun a b => decide (b ≤ a))) s

/-! ## Moves (R103) -/

def execMov (o : Op1) (s : State) : Host.Outcome State Fault Refusal := withCur (fun e => e.int1 o o.ty id) s

/-- The 64-bit value that FN selects (R103). -/
def moviValue (sx : Bool) (imm : W32) : Nat := if sx then wrapI (sext imm.toNat 32) 64 else imm.toNat

def moviTy (wide : Bool) (d : Dst) : Ty := if wide || Dst.uni d then .n64 else .n32

def execMovi (d : Dst) (wide sx : Bool) (imm : W32) (s : State) : Host.Outcome State Fault Refusal :=
  withCur (fun e => e.lanes 0 (moviTy wide d) d (fun _ _ => moviValue sx imm)) s

def execMovx (k : BitVec 4) (ty : Ty) (d : Dst) (imm : W64) (s : State) : Host.Outcome State Fault Refusal :=
  withCur (fun e => e.lanes k ty d (fun _ _ => imm.toNat) 16) s

/-! ## Address and carry (R104) -/

/-- `(a + ext(b) × 2^sh) mod 2^64`: TY 4 sign-extends b, TY 5 zero-extends it. -/
def leaValue (t : Ty) (sh a b : Nat) : Nat :=
  wrapI (a + (if Ty.sgn t then sext b 32 else (b : Int)) * (2 ^ sh : Nat)) 64

def execLea (sh : BitVec 6) (o : Op2) (s : State) : Host.Outcome State Fault Refusal :=
  withCur (fun e => e.int2 o .n32 (leaValue o.ty sh.toNat)) s

/-- Carry-in of a lane: 0 when C is 0. -/
def Wave.carry (w : Wave) (p : Bool) (kc l : Nat) : Nat := if kc != 0 && w.kbit p kc l then 1 else 0

/-- Writes the sums modulo 2^w and, when C is not 0, the carries. -/
def Env.carried (e : Env) (kc : Nat) (o : Op2) (x : Bool → Nat → Int) (out : Int → Bool) : WOut :=
  let uni := Dst.uni o.d
  let sums := e.each o.k.toNat uni (fun p l => (Ty.wrap o.ty (x p l), 0))
  let bits := e.each o.k.toNat uni (fun p l => (if out (x p l) then 1 else 0, 0))
  let w := e.w.putAll o.ty o.d sums
  e.ok (if kc = 0 then w else w.putBits kc bits)

def execAddc (kc : BitVec 4) (o : Op2) (s : State) : Host.Outcome State Fault Refusal :=
  withCur (fun e => e.carried kc.toNat o
    (fun p l => (e.src p l o.ty o.a : Int) + e.src p l o.ty o.b + e.w.carry p kc.toNat l)
    (fun x => decide ((2 ^ Ty.bits o.ty : Nat) ≤ x))) s

def execSubb (kc : BitVec 4) (o : Op2) (s : State) : Host.Outcome State Fault Refusal :=
  withCur (fun e => e.carried kc.toNat o
    (fun p l => (e.src p l o.ty o.a : Int) - e.src p l o.ty o.b - e.w.carry p kc.toNat l)
    (fun x => decide (x < 0))) s

end Sys2Proof.Machine
end

