-- ==== Sys2Proof/Machine/Convert.lean ====
section
/-!
DEFINITION. Conversion, packing and unpacking (spec/04_vector_isa.md R111 to R113; spec/03_numbers.md R67,
R73 to R76).
-/

namespace Sys2Proof.Machine

/-- What a source format is. -/
inductive SrcKind where
  | ieee (f : Fmt)
  | narrow (f : NFmt) (subst : Bool)
  | int (t : Ty)
  deriving DecidableEq, Repr

def srcKind : CvtSrc → SrcKind
  | .f32 => .ieee .f32 | .f64 => .ieee .f64 | .f16 => .ieee .f16 | .bf16 => .ieee .bf16
  | .h8 => .narrow .h8 false | .h8w => .narrow .h8w false
  | .h6 => .narrow .h6 true | .h4 => .narrow .h4 true
  | .fi8 => .int .i8 | .fn8 => .int .n8 | .int t => .int t

/-- A constant code rounded into a narrow format that no TY code names (R46, R111). -/
def narrowConst (f : NFmt) (c : Const) : Nat :=
  match constQuarters c with
  | some q => (f.rnd .near (.fin (decide (q < 0)) q.natAbs (-2))).1
  | none => (f.rnd .near (Fmt.f64.val (constPattern .f64 c))).1

/-- The source pattern of `cvt`. -/
def Env.cvtSrc (e : Env) (p : Bool) (l : Nat) (o : OpCvt) : Nat :=
  match o.src, o.a with
  | .h6, .con c => narrowConst .h6 c
  | .h4, .con c => narrowConst .h4 c
  | s, a => e.src p l s.ty a

/-- A value rounded to an integer type: NaN gives 0, out of range the nearer limit (R112). -/
def toInt (t : Ty) (rm : Rm) (x : FV) : Nat × Flags :=
  match x with
  | .nan => (0, fInvalid)
  | .inf n => (Ty.sat t (if n then -(2 ^ 65 : Nat) else (2 ^ 65 : Nat)), fInvalid)
  | .fin n m e =>
    let (r, inexact) := roundInt rm n m e
    let v : Int := if n then -(r : Int) else r
    if Ty.int t (Ty.wrap t v) = v then (Ty.wrap t v, if inexact then fInexact else 0) else (Ty.sat t v, fInvalid)

/-- One element of `cvt` (R112). A narrow source into a wider format takes the saturated form of R68: R75 says
both that h8w into f16 rounds by R68 and that no such conversion gives an infinity (notes/assumptions/61.md). -/
def convertOne (rm : Rm) (sat : Bool) (dst : CvtDst) (src : CvtSrc) (a : Nat) : Nat × Flags :=
  let sub : Flags := match srcKind src with | .narrow _ true => fSubst | _ => 0
  let value : FV :=
    match srcKind src with
    | .ieee f => f.val a
    | .narrow f _ => f.val a
    | .int t => let v := Ty.int t a; .fin (decide (v < 0)) v.natAbs 0
  let r : Nat × Flags :=
    match dst with
    | .h6 => let r := NFmt.h6.rnd rm value; (r.1, r.2 ||| fSubst)
    | .h4 => let r := NFmt.h4.rnd rm value; (r.1, r.2 ||| fSubst)
    | .ty t =>
      match Ty.fmt? t, Ty.nfmt? t, srcKind src with
      | some g, _, .ieee f => f.convert g rm sat a
      | some g, _, .narrow _ _ => match value with | .fin n m e => g.rnd rm true n m e | _ => (0, 0)
      | some g, _, .int _ => match value with | .fin n m e => g.rnd rm sat n m e | _ => (0, 0)
      | none, some g, _ => g.rnd rm value
      | none, none, .int u => (if sat then Ty.sat t (Ty.int u a) else Ty.wrap t (Ty.int u a), 0)
      | none, none, _ => toInt t rm value
  (r.1, r.2 ||| sub)

/-- The type under which the result is written; h6 and h4 fill their low bits (R90). -/
def CvtDst.ty' : CvtDst → Ty
  | .ty t => t
  | _ => .n8

def execCvt (rm : Rm) (sat : Bool) (o : OpCvt) (s : State) : Host.Outcome State Fault Refusal :=
  withCur (fun e => e.flanes o.k (CvtDst.ty' o.dst) o.d (fun p l => convertOne rm sat o.dst o.src (e.cvtSrc p l o))) s

/-! ## pack and unpack (R113) -/

/-- Bits `n·e + e − 1` to `n·e` of `d` replaced by the low bits of `a`. -/
def packInto (w n d a : Nat) : Nat := d % 2 ^ (n * w) + a % 2 ^ w * 2 ^ (n * w) + d / 2 ^ (n * w + w) * 2 ^ (n * w + w)

def execPack (n : BitVec 2) (o : Op1) (s : State) : Host.Outcome State Fault Refusal :=
  withCur (fun e => e.lanes o.k .b32 o.d
    (fun p l => packInto (Ty.bits o.ty) n.toNat (e.src p l .b32 (Dst.src o.d)) (e.src p l o.ty o.a))) s

/-- The 32 bits that `unpack` takes an element from; a constant code has the type's width alone. -/
def Env.unpackSrc (e : Env) (p : Bool) (l : Nat) (o : Op1) : Nat :=
  match o.a with
  | .con c => e.const p o.ty c
  | a => e.src p l .b32 a

def execUnpack (n : BitVec 2) (o : Op1) (s : State) : Host.Outcome State Fault Refusal :=
  withCur (fun e => e.lanes o.k o.ty o.d
    (fun p l => e.unpackSrc p l o / 2 ^ (n.toNat * Ty.bits o.ty) % 2 ^ Ty.bits o.ty)) s

end Sys2Proof.Machine
end

