-- ==== Sys2Proof/Machine/Image.lean ====
section
/-!
DEFINITION. Block images (spec/01_machine.md R28, R30) and the parts of a block that pre-emption saves and
resumption restores (R32, R35).
-/

namespace Sys2Proof.Machine

/-- Lines of a block image for its declared barriers, scratchpad and slot quota. -/
def Launch.imageLines (l : Launch) : Nat := 1 + ceilDiv l.bars 4 + ceilDiv l.spad 128 + 128 * l.oms

def Bar.bytes (x : Bar) : List Byte :=
  natBytes x.expected 2 ++ natBytes x.arrived 2 ++ natBytes (if x.phase then 1 else 0) 1 ++ zeros 11 ++ natBytes x.bitmap.toNat 16

def Bar.ofBytes (l : List Byte) : Bar where
  expected := natAt l 0 2
  arrived := natAt l 2 2
  phase := natAt l 4 1 % 2 == 1
  bitmap := BitVec.ofNat 128 (natAt l 16 16)

/-- `GRIDPOS` of a linear block number (R22, R39). -/
def Launch.gridpos (l : Launch) (i : Nat) : Nat :=
  i % l.gx + (i / l.gx % l.gy) * 2 ^ 21 + (i / (l.gx * l.gy)) * 2 ^ 42

def claimedSlots (b : Block) : List Nat := (List.range 48).filter (fun i => b.claimed.getLsbD i)

/-- The bytes of a block image (R30); the others of its header line are free (R5). -/
def Mach.blockBytes (m : Mach) (id : Nat) (b : Block) (l : Launch) : List Byte :=
  let u := fun (o n : Nat) => (List.range n).map (fun i => Config.imageByte (m.free + o + i))
  natBytes b.blockid 8 ++ natBytes (l.gridpos b.blockid) 8 ++ natBytes (m.logicalWaves id) 2 ++ u 18 6
    ++ natBytes b.claimed.toNat 8 ++ natBytes b.wsrc.toNat 8 ++ natBytes l.spad 4 ++ natBytes l.bars 2 ++ u 46 82
    ++ (List.range l.bars).flatMap (fun i => (b.bar i).bytes) ++ zeros (128 * ceilDiv l.bars 4 - 32 * l.bars)
    ++ b.rdSpad 0 l.spad ++ (claimedSlots b).flatMap (fun i => b.rdOm (16384 * i) 16384)

/-- Copies a block's state into its image (R32 step 3). -/
def Mach.saveBlock (m : Mach) (id : Nat) : Mach :=
  match m.block? id with
  | none => m
  | some b =>
    match m.launch? b.launch with
    | none => m
    | some l => { m.wr b.image (m.blockBytes id b l) with free := m.free + 128 }

/-- Takes a block's state from its image. -/
def Mach.loadBlock (m : Mach) (b : Block) (l : Launch) : Block :=
  let at_ := b.image + 128
  let sp := at_ + 128 * ceilDiv l.bars 4
  let om := sp + 128 * ceilDiv l.spad 128
  let claimed : BitVec 48 := BitVec.ofNat 48 (m.rdN (b.image + 24) 8)
  let b := { b with claimed, wsrc := w64 (m.rdN (b.image + 32) 8) &&& wsrcBits, bars := [], spad := [], om := [] }
  let b := (List.range l.bars).foldl (fun (b : Block) i => b.setBar i (Bar.ofBytes (m.rd (at_ + 32 * i) 32))) b
  let b := b.wrSpad 0 (m.rd sp l.spad)
  let slots := claimedSlots b
  ((List.range slots.length).zip slots).foldl (fun (b : Block) x => b.wrOm (16384 * x.2) (m.rd (om + 16384 * x.1) 16384)) b

/-- An engine uses the block: what the image of one that is away now holds (R34, R36). -/
def Mach.reload (m : Mach) (id : Nat) : Mach :=
  match m.block? id with
  | none => m
  | some b =>
    match m.launch? b.launch with
    | some l => if b.state == .preempted then m.updBlock id (fun b => m.loadBlock b l) else m
    | none => m

/-- An engine has written to a block that is away: its image follows (R34, R214). -/
def Mach.refresh (m : Mach) (id : Nat) : Mach :=
  match m.block? id with
  | some b => if b.state == .preempted then m.saveBlock id else m
  | none => m

end Sys2Proof.Machine
end

