-- ==== Sys2Proof/Machine/Lane.lean ====
section
/-!
DEFINITION. Lane-crossing instructions (spec/04_vector_isa.md R114 to R118) and the fixed trees of
spec/03_numbers.md R84, R85.
-/

namespace Sys2Proof.Machine

/-- Lane index of `shfl` modulo W (R114). -/
def shflLane (w : Nat) (f : Nat → Nat → Int) (l b : Nat) : Nat := (f l b % (w : Int)).toNat

/-- Each active lane reads the register of another lane of its half, active or not (R114). -/
def Env.shuffle (e : Env) (o : OpShfl) (f : Nat → Nat → Int) : WOut :=
  e.lanes o.k o.ty (.vec o.d) (fun p l => e.w.vec p (shflLane e.w.W f l (e.src p l .n32 o.b)) o.ty o.a.toNat)

def execShflIdx (o : OpShfl) (s : State) : Host.Outcome State Fault Refusal :=
  withCur (fun e => e.shuffle o (fun _ b => b)) s
def execShflXor (o : OpShfl) (s : State) : Host.Outcome State Fault Refusal :=
  withCur (fun e => e.shuffle o (fun l b => (l ^^^ b : Nat))) s
def execShflUp (o : OpShfl) (s : State) : Host.Outcome State Fault Refusal :=
  withCur (fun e => e.shuffle o (fun l b => (l : Int) - b)) s
def execShflDown (o : OpShfl) (s : State) : Host.Outcome State Fault Refusal :=
  withCur (fun e => e.shuffle o (fun l b => (l : Int) + b)) s

/-- `bcast` (R115). -/
def execBcast (o : OpBcast) (s : State) : Host.Outcome State Fault Refusal :=
  withCur (fun e => e.lanes o.k o.ty o.d (fun p _ =>
    let j := match o.n with
      | .lit n => n.toNat % e.w.W
      | .sca r => (e.w.getS p r.toNat).toNat % e.w.W
    e.w.vec p j o.ty o.a.toNat)) s

/-! ## scan and red (R116, R84, R85) -/

/-- `tree(op, x, lo, 2^i)` over positions that may be absent; flags are collected from every node. -/
def treeOp (op : Nat → Nat → Nat × Flags) (x : Nat → Option Nat) (lo : Nat) : Nat → Option (Nat × Flags)
  | 0 => (x lo).map (fun v => (v, 0))
  | i + 1 =>
    match treeOp op x lo i, treeOp op x (lo + 2 ^ i) i with
    | none, b => b
    | a, none => a
    | some a, some b => let r := op a.1 b.1; some (r.1, a.2 ||| b.2 ||| r.2)

/-- `prefix(op, x, l)`: the trees of the bits of l + 1, from bit `i − 1` down. -/
def prefixOp (op : Nat → Nat → Nat × Flags) (x : Nat → Option Nat) (l : Nat) :
    Nat → Option (Nat × Flags) → Nat → Option (Nat × Flags)
  | 0, acc, _ => acc
  | i + 1, acc, base =>
    if (l + 1).testBit i then
      let t := treeOp op x base i
      let acc := match acc, t with
        | none, t => t
        | acc, none => acc
        | some a, some b => let r := op a.1 b.1; some (r.1, a.2 ||| b.2 ||| r.2)
      prefixOp op x l i acc (base + 2 ^ i)
    else prefixOp op x l i acc base

/-- The source of lane l, absent when the lane is not active. -/
def Env.contrib (e : Env) (k : Nat) (t : Ty) (a : Src) (p : Bool) (l : Nat) : Option Nat :=
  if (e.w.active p k).contains l then some (e.src p l t a) else none

def Env.scan (e : Env) (o : OpScan) (op : Nat → Nat → Nat × Flags) : WOut :=
  e.flanes o.k o.ty (.vec o.d) (fun p l =>
    (prefixOp op (e.contrib o.k.toNat o.ty o.a p) l (e.w.width.log + 1) none 0).getD (0, 0))

def Env.reduce (e : Env) (o : OpRed) (op : Nat → Nat → Nat × Flags) : WOut :=
  e.flanes o.k o.ty o.d (fun p _ => (treeOp op (e.contrib o.k.toNat o.ty o.a p) 0 e.w.width.log).getD (0, 0))

/-- The combining operation of `add` (R116): rounded, or modulo 2^w, or saturating, at every node. -/
def addNode (t : Ty) (rm : Rm) (sat : Bool) (a b : Nat) : Nat × Flags :=
  match Ty.fmt? t with
  | some f => f.add rm false a b
  | none => (narrowInt sat t (Ty.int t a + Ty.int t b), 0)

def minmaxNode (t : Ty) (mx : Bool) (a b : Nat) : Nat × Flags :=
  match Ty.fmt? t with
  | some f => f.minmax mx a b
  | none => (if mx then intMax t a b else intMin t a b, 0)

def andNode (a b : Nat) : Nat × Flags := (a &&& b, 0)
def orNode (a b : Nat) : Nat × Flags := (a ||| b, 0)
def xorNode (a b : Nat) : Nat × Flags := (a ^^^ b, 0)

def execScanAdd (rm : Rm) (sat : Bool) (o : OpScan) (s : State) : Host.Outcome State Fault Refusal :=
  withCur (fun e => e.scan o (addNode o.ty rm sat)) s
def execScanMin (o : OpScan) (s : State) : Host.Outcome State Fault Refusal := withCur (fun e => e.scan o (minmaxNode o.ty false)) s
def execScanMax (o : OpScan) (s : State) : Host.Outcome State Fault Refusal := withCur (fun e => e.scan o (minmaxNode o.ty true)) s
def execScanAnd (o : OpScan) (s : State) : Host.Outcome State Fault Refusal := withCur (fun e => e.scan o andNode) s
def execScanOr (o : OpScan) (s : State) : Host.Outcome State Fault Refusal := withCur (fun e => e.scan o orNode) s
def execScanXor (o : OpScan) (s : State) : Host.Outcome State Fault Refusal := withCur (fun e => e.scan o xorNode) s
def execRedAdd (rm : Rm) (sat : Bool) (o : OpRed) (s : State) : Host.Outcome State Fault Refusal :=
  withCur (fun e => e.reduce o (addNode o.ty rm sat)) s
def execRedMin (o : OpRed) (s : State) : Host.Outcome State Fault Refusal := withCur (fun e => e.reduce o (minmaxNode o.ty false)) s
def execRedMax (o : OpRed) (s : State) : Host.Outcome State Fault Refusal := withCur (fun e => e.reduce o (minmaxNode o.ty true)) s
def execRedAnd (o : OpRed) (s : State) : Host.Outcome State Fault Refusal := withCur (fun e => e.reduce o andNode) s
def execRedOr (o : OpRed) (s : State) : Host.Outcome State Fault Refusal := withCur (fun e => e.reduce o orNode) s
def execRedXor (o : OpRed) (s : State) : Host.Outcome State Fault Refusal := withCur (fun e => e.reduce o xorNode) s

/-! ## match and lanes (R117, R118) -/

def wideTy (wide : Bool) : Ty := if wide then .n64 else .b32

/-- The mask of active lanes of the half whose pattern is that of lane l (R117). -/
def Env.sameAs (e : Env) (k : Nat) (t : Ty) (a : Nat) (p : Bool) (l : Nat) : W64 :=
  maskOf ((e.w.active p k).filter (fun j => e.w.vec p j t a == e.w.vec p l t a))

def execMatchEq (k : BitVec 4) (wide : Bool) (d a : BitVec 8) (s : State) : Host.Outcome State Fault Refusal :=
  withCur (fun e => e.lanes k .n64 (.vec d) (fun p l => (e.sameAs k.toNat (wideTy wide) a.toNat p l).toNat)) s

def execLanes (k : BitVec 4) (wide : Bool) (d : BitVec 4) (a : BitVec 8) (s : State) : Host.Outcome State Fault Refusal :=
  withCur (fun e => e.ok (e.w.putBits d.toNat
    (e.each k.toNat false (fun p l => (e.w.vec p l (wideTy wide) a.toNat, 0))))) s

end Sys2Proof.Machine
end

