-- ==== Sys2Proof/Machine/Spawn.lean ====
section
/-!
DEFINITION. Engine operations and their receipts as instructions make them (spec/08_memory_isa.md R214;
spec/01_machine.md R19), spawning (spec/09_progress.md R267 to R270), wave slots and the register
allowance (R271 to R273; spec/01_machine.md R11, R12).
-/

namespace Sys2Proof.Machine

/-! ## New operations -/

/-- The next operation number of a context (R19), and the estimate of its DUE (R214). -/
def Mach.newSeq (m : Mach) (c : Nat) : W32 × BitVec 24 × Mach :=
  let n := match m.ctx? c with | some x => x.seq | none => 0
  (BitVec.ofNat 32 (Config.seqBase c + n), Config.due m.free,
    { m.updCtx c (fun x => { x with seq := n + 1 }) with free := m.free + 1 })

/-- Accepts an engine operation and writes its pending receipt into a register of `w` (R214). -/
def Mach.accept (m : Mach) (id : Nat) (w : Wave) (p : Bool) (q : Nat) (eng : Nat) (kind : EngKind) (queue : Bool)
    (fo : Option (W64 × W64)) : Mach × Wave :=
  let (seq, due, m) := m.newSeq w.ctx
  let op : EngOp := { ctx := w.ctx, block := w.block, wave := id, half := p, core := w.core, queue, kind,
                      target := .reg id p q, seq, due, fo, born := m.tick }
  ({ m with ops := put m.ops m.nextId op, nextId := m.nextId + 1, changes := m.changes + 1 },
    w.updHalf p (fun h => h.setQ q (mkRcpt due 0 eng seq)))

/-! ## Slots and lines of a core -/

def Mach.running? (m : Mach) (w : Wave) : Bool :=
  match m.block? w.block with | some b => b.state == .running | none => false

/-- Wave slots taken on a core (R12). -/
def Mach.usedSlots (m : Mach) (core : Nat) : W64 :=
  m.waves.foldl (fun (k : W64) (x : Nat × Wave) => if x.2.core = core && m.running? x.2 && m.duty x.2.ctx then k ||| x.2.slots else k) 0

/-- Lines counted against the core's budget (R271). -/
def Mach.usedLines (m : Mach) (core : Nat) : Nat :=
  m.waves.foldl (fun n (x : Nat × Wave) => if x.2.core = core && m.resident x.2 && m.duty x.2.ctx then n + x.2.lines else n) 0

/-- The lowest free slot, or free even and odd pair, of a core (R12). -/
def freeSlot (used : W64) (width : Width) : Option W64 :=
  match width with
  | .w64 => ((List.range 32).find? (fun i => !bit used (2 * i) && !bit used (2 * i + 1))).map (fun i => w64 (3 * 2 ^ (2 * i)))
  | _ => ((List.range 64).find? (fun i => !bit used i)).map (fun i => w64 (2 ^ i))

/-- `CCYC` has reached the DUE of a pending receipt (R206, R241). -/
def Mach.overdue (m : Mach) (w : Wave) (p : Bool) (q : Nat) : Bool :=
  let r := w.getQ p q
  rPending r && ((m.ccyc w.core).extractLsb' 0 24 - rDue r).toNat < 2 ^ 23

/-- The sleep of every half with lanes has ended: its operation is complete, or due (R15, R241). -/
def Mach.sleepOver (m : Mach) (w : Wave) (q : Nat) : Bool :=
  w.passes.all (fun p => !rPending (w.getQ p q) || m.overdue w p q)

/-- Whether the reason that a wave waits for has gone, or may have. A `ralloc` is complete with its grant (R271). -/
def Mach.holdOver (m : Mach) (id : Nat) (w : Wave) : Bool :=
  match w.hold with
  | .none => true
  | .wait since why =>
    match why with
    | .bar l => match m.block? w.block with
      | some b => l.any (fun x => !(b.bar x.1).bitmap.getLsbD x.2) || (frameOf w.stack).any (b.eligible w)
      | none => true
    | .paths _ => match m.block? w.block with
      | some b => (frameOf w.stack).any (b.eligible w)
      | none => true
    | .gwait l _ => l.all (fun x => decide (x.2 ≤ m.rdN x.1 8)) || (match m.block? w.block with | some b => (frameOf w.stack).any (b.eligible w) | none => true)
    | .rcpt p q => !rPending (w.getQ p q)
    | .sleep _ q => m.sleepOver w q
    | .wcnt ld n => decide ((w.acc.filter (fun a => (match a.kind with | .load _ => true | .atom _ (some _) => true | _ => false) == ld)).length ≤ n)
    | .waitb l => l.all (fun x => !m.sealedPending id x.1 (batchUpTo x.2))
    | .ralloc _ => false
    | .access => w.acc.isEmpty
    | .page p => match m.ctx? w.ctx with | some x => !x.pending.any (fun y => y.page == p) | none => true
    | .fault => !w.heldLoad && !w.acc.any (fun a => a.held || !a.bad.isEmpty)
    | _ => m.changes != since

/-- Waves of a core that wait for lines: on `ralloc`, or parked and ready to return (R273). A parked parent
waits in the spawn queue. -/
def Mach.lineWaiters (m : Mach) (core : Nat) : List (Nat × Wave) :=
  m.waves.filter (fun x => x.2.core == core && m.running? x.2 && m.duty x.2.ctx &&
    ((match x.2.hold with | .wait _ (.ralloc _) => true | _ => false) ||
      (x.2.parked && m.holdOver x.1 x.2)) && !m.spawnq.any (fun c => c.parent == some x.1))

/-- No older wave of the core waits for lines (R271). -/
def Mach.firstInLine (m : Mach) (core id born : Nat) : Bool :=
  !(m.lineWaiters core).any (fun x => x.1 != id && decide (x.2.born < born))

/-! ## Waves that become resident (R31, R32, R35) -/

/-- Adds to DUE of each pending receipt of a half. -/
def Half.rebase (h : Half) (d : BitVec 24) : Half :=
  { h with q := h.q.map (fun x => if rPending x.2 then (x.1, mkRcpt (rDue x.2 + d) (rStat x.2) (rEng x.2) (rSeq x.2)) else x) }

/-- A wave becomes resident on a core: what its image holds of its head lines is read at once, the other lines are
fetched when an instruction names them; on another core everything comes from the image, and DUE of its pending
receipts is rebased (R31, R32, R35). -/
def Mach.returnWave (m : Mach) (id : Nat) (w : Wave) (core : Nat) (slots : W64) (hold : Hold) : Mach :=
  let d : BitVec 24 := if core = w.core then 0 else (m.ccyc core - w.saved).setWidth 24
  let m := if core = w.core then m else m.evictWave id w
  let w := (m.wave? id).getD w
  let v := m.takeHead w
  let held := m.escrow.any (fun y => y.wave == id && (match y.kind with | .held .. => true | _ => false))
  let v : Wave :=
    { v with
      core, slots, resident := m.nextId, hold, missing := v.missing.filter (fun n => !v.isHead n), parked := false
      heldLoad := v.heldLoad && held
      lo := if d = 0 then v.lo else v.lo.rebase d, hi := if d = 0 then v.hi else v.hi.rebase d }
  let mine := fun (o : EngOp) => match o.target with | .reg k _ _ => k == id | _ => false
  { m.putWave id v with
    nextId := m.nextId + 1
    ops := if d = 0 then m.ops else m.ops.map (fun (o : Nat × EngOp) => if mine o.2 then (o.1, { o.2 with due := o.2.due + d }) else o) }

/-! ## ralloc and rfree (R272) -/

/-- Whether a request for `n` more registers can be granted now (R271). -/
def Mach.grantable (m : Mach) (id : Nat) (w : Wave) (n : Nat) : Bool :=
  m.firstInLine w.core id w.born && decide (m.usedLines w.core + w.width.g * n ≤ Config.budgetLines)

/-- The registers from the old allowance on read as zero: no line of the image stands for them (R272). -/
def Wave.grow (w : Wave) (n : Nat) : Wave :=
  { w with
    allow := w.allow + n, v := w.v.filter (fun x => decide (x.1 < 64 * w.allow))
    missing := w.missing.filter (fun k => decide (k < w.lnSpill)) }

/-- The registers from the new allowance on are dropped without writeback (R272). -/
def Wave.shrink (w : Wave) (n : Nat) : Wave :=
  let v := { w with allow := w.allow - n }
  { v with v := w.v.filter (fun x => decide (x.1 < 64 * v.allow)), missing := w.missing.filter (fun k => decide (k < v.lnSpill)) }

/-- The stack region lies above the vector lines of the image (R29): a wave keeps its stack when its allowance
changes. -/
def Mach.moveStack (m : Mach) (w v : Wave) : Mach :=
  match m.launch? w.launch with
  | none => m
  | some l =>
    let n := 128 * (4 * l.stk * w.width.g)
    let a := w.image + 128 * w.lnRegion
    let b := v.image + 128 * v.lnRegion
    let touched := fun (x : L1Line) => meets (128 * x.line) 128 a n || meets (128 * x.line) 128 b n
    (m.l1Drop (fun x => x.core == w.core && x.ctx == w.ctx && touched x)).moveBytes a b n

def execRalloc (n : BitVec 8) (s : State) : Host.Outcome State Fault Refusal :=
  withCur (fun e =>
    if e.m.grantable e.id e.w n.toNat then
      let v := e.w.grow n.toNat
      .next (((e.m.moveStack e.w v).putWave e.id v).makeRoom e.w.core) { v with pc := e.w.pc + 8 }
    else e.halt (.ralloc n.toNat)) s

def execRfree (n : BitVec 8) (s : State) : Host.Outcome State Fault Refusal :=
  withCur (fun e =>
    let v := e.w.shrink n.toNat
    .next (e.m.moveStack e.w v) { v with pc := e.w.pc + 8 }) s

/-- A step of the part that acts on one wave, when its condition holds; otherwise nothing happens. -/
def onWave (s : State) (id : Nat) (cond : Mach → Wave → Bool) (f : Mach → Wave → Mach) : Host.Outcome State Fault Refusal :=
  match s.m.wave? id with
  | none => .next s
  | some w => if cond s.m w then let m := f s.m w; .next { s with m := { m with changes := m.changes + 1 } } else .next s

/-- Grants the oldest waiting request once its lines fit (R271). -/
def execRallocGrant (id : Nat) (s : State) : Host.Outcome State Fault Refusal :=
  let want : Wave → Option Nat := fun w => match w.hold with | .wait _ (.ralloc n) => some n | _ => none
  onWave s id
    (fun m w => m.resident w && (match want w with | some n => m.grantable id w n | none => false))
    (fun m w =>
      let v := w.grow ((want w).getD 0)
      ((m.moveStack w v).putWave id ({ v with pc := w.pc + 8 }).retired).makeRoom w.core)

/-! ## spawn (R267 to R270) -/

/-- Groups the children of one request into hardware waves (R268). -/
def pairUp (width : Width) : List (W64 × Nat) → List ((W64 × Nat) × Option (W64 × Nat))
  | [] => []
  | [a] => [(a, none)]
  | a :: b :: r => match width with
    | .w16 => (a, some b) :: pairUp width r
    | _ => (a, none) :: pairUp width (b :: r)

/-- The pending spawn operation of this logical wave that a receipt register holds (R270). -/
def Mach.spawnIn (m : Mach) (id : Nat) (w : Wave) (p : Bool) (q : Nat) : Option Nat :=
  let r := w.getQ p q
  if !rPending r || rEng r != 5 then none else
  (m.ops.find? (fun o => o.2.target == .reg id p q && o.2.wave == id && o.2.half == p && o.2.seq == rSeq r)).map (·.1)

/-- One half's request: its children join the operation in E0, or make a new one. -/
def Mach.request (m : Mach) (id : Nat) (w : Wave) (p : Bool) (q : Nat) (entry : W64) (kids : List (W64 × Nat)) : Mach × Wave :=
  let r : Nat × Mach × Wave :=
    match m.spawnIn id w p q with
    | some o => (o, m.updOp o (fun x => { x with kind := match x.kind with | .spawn n => .spawn (n + kids.length) | k => k }), w)
    | none =>
      let r := m.accept id w p q 5 (.spawn kids.length) false none
      (m.nextId, r.1, r.2)
  let children : List Child := (pairUp w.width kids).map (fun x =>
    { ctx := w.ctx, block := w.block, op := r.1, entry, lanes0 := x.1.2, arg0 := x.1.1,
      lanes1 := match x.2 with | some y => y.2 | none => 0, arg1 := match x.2 with | some y => y.1 | none => 0 })
  ({ r.2.1 with spawnq := r.2.1.spawnq ++ children }, r.2.2)

/-- The requests of every half that makes a child. -/
def Env.spawnAll (e : Env) (q : Nat) (entry : W32) (kids : Bool → List (Nat × W64 × Nat)) (n : Nat) : WOut :=
  let ps := e.w.groups.filter (fun p => e.w.execs p && !(kids p).isEmpty)
  let bad : Bool → W64 := fun p =>
    if ps.contains p then maskOf (((kids p).filter (fun x => !(decide (1 ≤ x.2.2) && decide (x.2.2 ≤ e.w.W)))).map (·.1)) else 0
  if bad false != 0 || bad true != 0 then e.before 0x71 (bad false) (bad true)
  else match ps.find? (fun p => rPending (e.w.getQ p q) && (e.m.spawnIn e.id e.w p q).isNone) with
  | some p => e.halt (.rcpt p q)
  | none =>
    let r := ps.foldl (fun (x : Mach × Wave) p =>
      x.1.request e.id x.2 p q (w64 (e.l.code + 8 * entry.toNat)) ((kids p).map (fun y => (y.2.1, y.2.2)))) (e.m, e.w)
    .next r.1 { r.2 with pc := r.2.pc + w64 n }

/-- FN 0: one child for the logical wave. A count out of range is raised by every lane of `exec`. -/
def execSpawn (q : BitVec 4) (a : BitVec 7) (b : SC) (entry : W32) (s : State) : Host.Outcome State Fault Refusal :=
  withCur (fun e =>
    let n := fun p => e.sc p .n32 b
    let ps := e.w.groups.filter (fun p => e.w.execs p)
    let bad : Bool → W64 := fun p =>
      if ps.contains p && !(decide (1 ≤ n p) && decide (n p ≤ e.w.W)) then (e.w.half p).exec else 0
    if bad false != 0 || bad true != 0 then e.before 0x71 (bad false) (bad true)
    else e.spawnAll q.toNat entry (fun p => [(0, e.w.getS p a.toNat, n p)]) 16) s

/-- FN 1: one child for each lane of `active(W)`, in lane order. -/
def execSpawnL (k q : BitVec 4) (a b : BitVec 8) (entry : W32) (s : State) : Host.Outcome State Fault Refusal :=
  withCur (fun e =>
    e.spawnAll q.toNat entry (fun p => (e.w.active p k.toNat).map (fun l =>
      (l, w64 (e.w.vec p l .n64 a.toNat), e.w.vec p l .n32 b.toNat))) 16) s

/-! ## Admission (R268, R269) -/

/-- Lines that a wave image and its stack region take (R27, R29). -/
def Launch.waveLines (l : Launch) (allow : Nat) : Nat :=
  let w : Wave := { ctx := 0, launch := 0, block := 0, core := 0, slots := 0, width := l.width, allow, sregs := l.sregs, pc := 0 }
  w.lnRegion + 4 * l.stk * (if l.width = .w64 then 2 else 1)

/-- An allowance at start: the declared count rounded up to a multiple of 8 (R18). -/
def Launch.allowance (l : Launch) : Nat := 8 * ceilDiv l.vregs 8

/-- Lines that a wave of a launch counts when it starts (R271). -/
def Launch.startLines (l : Launch) : Nat :=
  l.width.g * l.allowance + l.width.c * (3 + ceilDiv l.sregs 16) + 4

/-- The first 128-byte boundary of a context's image region above every image that it holds: where the model
places the image of an admitted child (notes/assumptions/12.md). -/
def Mach.imageTop (m : Mach) (c : Nat) (x : Ctx) : Nat :=
  m.waves.foldl (fun n (y : Nat × Wave) =>
    if y.2.ctx != c then n else
    match m.launch? y.2.launch with
    | some l => max n (y.2.image + 128 * (l.waveLines 256))
    | none => n) (x.imgbase + 1024)

/-- Logical wave indices free in a block, ascending (R268). -/
def Mach.freeIndices (m : Mach) (b : Nat) : List Nat :=
  let used := m.waves.flatMap (fun (x : Nat × Wave) =>
    if x.2.block = b then (x.2.groups.filter (fun p => (x.2.half p).present)).map (fun p => (x.2.half p).waveid) else [])
  (List.range 128).filter (fun i => !used.contains i)

/-- A half that starts with `n` lanes (R17, R268); the lanes above count as ended. -/
def freshHalf (width : Width) (n waveid : Nat) (s0 s1 : W64) (parent : Option Nat) : Half :=
  let h : Half := { exec := ones n, ended := ones width.lanes &&& ~~~ones n, waveid, parent }
  (h.setS 0 s0).setS 1 s1

/-- A half that is not there counts as having ended (R15). -/
def absentHalf (width : Width) : Half := { present := false, ended := ones width.lanes }

/-- The limits of R10 for a block that takes one hardware wave and `n` logical waves more: a parked parent stays a
logical wave of its block, and holds no slot (R269; notes/assumptions/64.md). -/
def Mach.waveRoom (m : Mach) (b : Nat) (width : Width) (n : Nat) : Bool :=
  let hw := (m.waves.filter (fun x => x.2.block == b && !(x.2.parked && x.2.slots == 0))).length
  let logical := m.logicalWaves b + n
  match width with
  | .w16 => decide (hw < 64) && decide (logical ≤ 128)
  | .w32 => decide (hw < 64) && decide (logical ≤ 64)
  | .w64 => decide (hw < 32) && decide (logical ≤ 32)

/-- Logical waves that an entry of the spawn queue adds to its block: none for a parent that returns. -/
def Child.adds (x : Child) : Nat := if x.parent.isSome then 0 else if x.lanes1 = 0 then 1 else 2

/-- Whether the head of a context's spawn queue can be admitted, and the slot that it takes. -/
def Mach.admitSlot (m : Mach) (x : Child) (b : Block) (l : Launch) (lines : Nat) : Option W64 :=
  if b.state != .running || !m.waveRoom x.block l.width x.adds || !(m.lineWaiters b.core).isEmpty
      || decide (Config.budgetLines < m.usedLines b.core + lines) then none
  else freeSlot (m.usedSlots b.core) l.width

/-- The slot that the head of a spawn queue takes: a child's, or a parent's that returns. -/
def Mach.headSlot (m : Mach) (x : Child) : Option W64 :=
  match m.block? x.block with
  | none => none
  | some b => match m.launch? b.launch with
    | none => none
    | some l => m.admitSlot x b l (match x.parent.bind m.wave? with | some w => w.lines | none => l.startLines)

/-- The wave that a queued child starts as (R268). -/
def childWave (x : Child) (b : Block) (l : Launch) (slots : W64) (image born : Nat) (i0 i1 : Nat) : Wave :=
  let s1 := w64 l.lrec
  { ctx := x.ctx, launch := b.launch, block := x.block, core := b.core, slots, width := l.width,
    allow := l.allowance, sregs := l.sregs, pc := x.entry, image, born, resident := born
    lo := freshHalf l.width x.lanes0 i0 x.arg0 s1 (some x.op)
    hi := if x.lanes1 = 0 then absentHalf l.width else freshHalf l.width x.lanes1 i1 x.arg1 s1 (some x.op) }

/-- A child of a block is queued: it stands in its context's spawn queue, whose head lacks a slot, lines or room in its
block (R269). -/
def Mach.childQueued (m : Mach) (block : Nat) : Bool :=
  m.spawnq.any (fun (c : Child) => c.block == block && c.parent.isNone &&
    (match m.spawnq.find? (fun (y : Child) => y.ctx == c.ctx) with
     | some x => (m.headSlot x).isNone
     | none => false))

/-- A parent that waits on a pending spawn receipt while a child of its block is queued is parked (R269). -/
def Mach.parkParent (m : Mach) (id : Nat) (w : Wave) (p : Bool) (q : Nat) : Option (Mach × Wave) :=
  if (m.spawnIn id w p q).isSome && m.childQueued w.block then
    let m := m.writeLines w (w.lateLines ++ w.headLines)
    some ({ m with spawnq := m.spawnq ++ [{ ctx := w.ctx, block := w.block, op := 0, entry := 0, lanes0 := 0, arg0 := 0, parent := some id }] },
      { w with parked := true, slots := 0, missing := List.range w.lnSpill, saved := m.ccyc w.core })
  else none

/-- Parents of a context that wait already are parked when a child of their block is queued (R269). -/
def Mach.parkWaiting (m : Mach) (ctx : Nat) : Mach :=
  m.waves.foldl (fun (m : Mach) (x : Nat × Wave) =>
    if x.2.ctx != ctx || !m.resident x.2 then m else
    let park := fun (p : Bool) (q : Nat) =>
      match m.parkParent x.1 x.2 p q with
      | some (n, w) => { n.putWave x.1 w with changes := m.changes + 1 }
      | none => m
    match x.2.hold with
    | .wait _ (.rcpt p q) => park p q
    | .wait _ (.sleep p q) => park p q
    | _ => m) m

/-- The head of a context's spawn queue is admitted; while it is not, parents that wait give up their lines (R268,
R269). -/
def execChildAdmit (ctx : Nat) (s : State) : Host.Outcome State Fault Refusal :=
  match takeFirst (fun (c : Child) => c.ctx == ctx) s.m.spawnq with
  | none => .next s
  | some (x, rest) =>
    match s.m.headSlot x, s.m.block? x.block, s.m.ctx? x.ctx with
    | none, _, _ => .next { s with m := s.m.parkWaiting ctx }
    | some slots, some b, some cx =>
      match s.m.launch? b.launch, s.m.freeIndices x.block with
      | some l, i0 :: is =>
        if x.parent.isSome || (x.lanes1 != 0 && is.isEmpty) then .next s else
        let w := childWave x b l slots (s.m.imageTop x.ctx cx) s.m.nextId i0 (is.headD 0)
        .next { s with m := Mach.makeRoom { s.m with
          waves := put s.m.waves s.m.nextId w
          spawnq := rest, nextId := s.m.nextId + 1, changes := s.m.changes + 1 } b.core }
      | _, _ => .next s
    | _, _, _ => .next s

/-- A parked parent returns when it heads its context's queue, or when its receipt is complete (R269). -/
def execParkedParentReturn (id : Nat) (s : State) : Host.Outcome State Fault Refusal :=
  match s.m.wave? id, takeFirst (fun (c : Child) => c.parent == some id) s.m.spawnq with
  | some w, some (x, rest) =>
    match s.m.block? w.block, s.m.launch? w.launch with
    | some b, some l =>
      let head := (s.m.spawnq.find? (fun c => c.ctx == w.ctx)).elim false (fun c => c.parent == some id)
      if !(head || s.m.holdOver id w) then .next s else
      match s.m.admitSlot x b l w.lines with
      | none => .next s
      | some slots =>
        let m := { s.m with spawnq := rest, changes := s.m.changes + 1 }
        .next { s with m := (m.returnWave id w b.core slots w.hold).makeRoom b.core }
    | _, _ => .next s
  | _, _ => .next s

/-! ## Parking (R273) -/

/-- Parks a wave: its lines go to its image and it stops counting. -/
def Mach.park (m : Mach) (id : Nat) (w : Wave) : Mach :=
  (m.evictWave id w).updWave id (fun w => { w with parked := true, saved := m.ccyc w.core })

/-- Lines that a waiting wave asks for: its full count when it is parked, else those of its `ralloc`. -/
def Wave.lineNeed (w : Wave) : Nat :=
  if w.parked then w.lines else match w.hold with | .wait _ (.ralloc n) => w.width.g * n | _ => 0

/-- Lines that the head of a context's spawn queue lacks on a core where it has a slot and may join its block. -/
def Mach.childNeed (m : Mach) (core : Nat) (x : Child) : Option Nat :=
  match m.block? x.block with
  | none => none
  | some b =>
    match m.launch? b.launch with
    | none => none
    | some l =>
      let n := match x.parent.bind m.wave? with | some w => w.lines | none => l.startLines
      if b.core == core && b.state == .running && m.duty x.ctx && m.waveRoom x.block l.width x.adds
          && (freeSlot (m.usedSlots core) l.width).isSome && decide (Config.budgetLines < m.usedLines core + n) then some n else none

/-- The oldest request of a core that waits for lines: its wave's age, none for one that the spawn queue holds, and its
lines (R271, R273). -/
def Mach.oldestRequest (m : Mach) (core : Nat) : Option (Option Nat × Nat) :=
  match (m.lineWaiters core).foldl (fun (best : Option Wave) x => match best with
      | some y => if x.2.born < y.born then some x.2 else best
      | none => some x.2) none with
  | some w => some (some w.born, w.lineNeed)
  | none =>
    let heads := m.spawnq.filter (fun (x : Child) => (m.spawnq.find? (fun (y : Child) => y.ctx == x.ctx)) == some x)
    (heads.findSome? (m.childNeed core)).map (fun n => (none, n))

/-- The youngest held counted wave of a core other than the oldest waiter, while the oldest request does not fit and no
counted wave can issue (R273). A wave whose macro or matrix command runs is not held. -/
def Mach.parkable (m : Mach) (id : Nat) (w : Wave) : Bool :=
  let counted := m.waves.filter (fun x => x.2.core == w.core && m.resident x.2 && m.duty x.2.ctx)
  let atUnit := fun (w : Wave) => match w.hold with | .wait _ .unit => true | _ => false
  match m.oldestRequest w.core with
  | none => false
  | some (oldest, lines) =>
    let may := fun (w : Wave) => some w.born != oldest && !atUnit w
    m.resident w && decide (Config.budgetLines < m.usedLines w.core + lines) && !counted.any (fun x => m.holdOver x.1 x.2)
      && may w && !counted.any (fun x => x.1 != id && decide (w.born < x.2.born) && may x.2)

def execWavePark (id : Nat) (s : State) : Host.Outcome State Fault Refusal :=
  onWave s id (fun m w => m.parkable id w) (fun m w => m.park id w)

/-- A parked wave whose own hold has ended returns when its count fits, oldest first (R273). -/
def execParkedWaveReturn (id : Nat) (s : State) : Host.Outcome State Fault Refusal :=
  onWave s id
    (fun m w => w.parked && (m.lineWaiters w.core).any (fun x => x.1 == id) && m.firstInLine w.core id w.born
      && decide (m.usedLines w.core + w.lines ≤ Config.budgetLines))
    (fun m w =>
      (m.returnWave id w w.core w.slots w.hold).makeRoom w.core)

end Sys2Proof.Machine
end

