-- ==== Sys2Proof/Machine/Engines.lean ====
section
/-!
DEFINITION. Copy, gather and collective commands (spec/08_memory_isa.md R214 to R216, R230 to R237;
spec/07_ordering.md R201 to R203), the handles that they name (spec/11_isolation.md R299 to R301), and the
order of accesses to operand-memory slots (spec/05_matrix.md R128, R131, R138).
-/

namespace Sys2Proof.Machine

/-! ## Handles (R299, R300) -/

/-- An entry of the handle table as it stands at home. -/
def Mach.handleHome (m : Mach) (x : Ctx) (idx : Nat) : HEntry :=
  let l := m.rd (x.htab + 32 * idx) 32
  { addr := natAt l 0 8, len := natAt l 8 8, gen := natAt l 16 2 % 4096, kind := natAt l 18 1, perm := natAt l 19 1 }

/-- The entry that a check at issue uses: the core's cache of 64 handles may answer; the oldest leaves a full one
(R300). -/
def Mach.handleAt (m : Mach) (core c : Nat) (x : Ctx) (idx : Nat) : HEntry × Mach :=
  let new := m.handleHome x idx
  let m := m.eat c (x.htab + 32 * idx) 32
  match m.hcache.find? (fun y => y.core == core && y.ctx == c && y.idx == idx) with
  | some y => (if y.e = new then new else if Config.handleOld m.tick then y.e else new, m)
  | none =>
    let mine := m.hcache.filter (fun y => y.core == core)
    let old := if mine.length < 64 then m.hcache else match mine.head? with
      | some z => m.hcache.filter (fun y => !(y.core == core && y.ctx == z.ctx && y.idx == z.idx))
      | none => m.hcache
    (new, { m with hcache := old ++ [{ core, ctx := c, idx, e := new }] })

/-- R300 step 1: the entry, or none when the handle is stale. -/
def Mach.checkHandle (m : Mach) (core c : Nat) (x : Ctx) (h : Nat) : Option HEntry × Mach :=
  let idx := fld h 0 20
  if x.hcount ≤ idx then (none, m) else
  let (y, m) := m.handleAt core c x idx
  (if y.kind = 0 || y.gen != fld h 20 12 then none else some y, m)

/-! ## Operand-memory slots in acceptance order (R128) -/

def omBytes : Nat := 48 * 16384

/-- Slots that `n` bytes at byte `o` of operand memory touch. -/
def omSlots (o n : Nat) : List Nat :=
  if n = 0 || omBytes < o + n then [] else (List.range ((o + n - 1) / 16384 - o / 16384 + 1)).map (· + o / 16384)

/-- Every slot of `n` bytes at byte `o`, as far as there are slots, is within the quota and claimed (R127). -/
def Block.claimedRun (b : Block) (quota o n : Nat) : Bool :=
  (omSlots o (min n (omBytes - o))).all (fun k => b.slotsOk quota k 1)

def rowStart (base : Nat) (stride : Int) (r : Nat) : Int := (base : Int) + stride * r

/-- Slots that the rows of an operand touch. -/
def omRows (a : CpArg) (ln nrow : Nat) (stride : Int) : List Nat :=
  match a with
  | .om o => ((List.range nrow).flatMap (fun r => omSlots (rowStart o stride r).toNat ln)).eraseDups
  | _ => []

/-- What an operation reads and writes of its block's slots: the slot, and whether it is a writer. -/
def EngKind.omUse : EngKind → List (Nat × Bool)
  | .copy src dst ln nrow ss ds => (omRows src ln nrow ss).map (·, false) ++ (omRows dst ln nrow ds).map (·, true)
  | .gather _ dst ln nrow _ _ => (omRows dst ln nrow ln).map (·, true)
  | _ => []

def scaleUse (x : Option ScaleOp) : List (Nat × Bool) := match x with | some y => [(y.slot.toNat, false)] | none => []

/-- Bytes of an activation row (R133). -/
def rowBytes (f : MFmt) (k : Nat) : Nat :=
  match f with
  | .f16 | .bf16 => 2 * k
  | .h6 => 3 * k / 4
  | .h4 => k / 2
  | _ => k

/-- What a matrix command reads and writes of its block's slots, the latched sources included (R149). -/
def matrixUse (i : Instr) (ws : W64) : List (Nat × Bool) :=
  let latched : List (Nat × Bool) := if wsV ws then
      (wsWsl ws, false) :: ((if wsSV ws then [(wsSsl ws, false)] else []) ++ (if wsTV ws then [(wsTsl ws, false)] else []))
    else []
  match i with
  | .wload o => (o.a.toNat, false) :: scaleUse o.scale ++ (if o.fmt == .vq2 && wsTV ws then [(wsTsl ws, false)] else [])
  | .wmint o => [(o.a.toNat, false)]
  | .mmul o =>
    let rows := o.m.toNat + 1
    (omSlots (16384 * o.a.toNat) (rows * rowBytes o.fmt (wsDep ws))).map (·, false) ++ (omSlots (16384 * o.d.toNat) (256 * rows)).map (·, true)
      ++ scaleUse o.scale ++ latched
  | .mseek o => [(o.a.toNat, false), (o.b.toNat, false), (o.d.toNat, true)]
  | _ => []

def conflicts (a b : List (Nat × Bool)) : Bool := a.any (fun x => b.any (fun y => x.1 == y.1 && (x.2 || y.2)))

/-- An access to slots of a block must wait for one accepted before `seq` (R128). -/
def Mach.omWaits (m : Mach) (b seq : Nat) (use : List (Nat × Bool)) : Bool :=
  m.ops.any (fun (o : Nat × EngOp) => o.2.block == b && decide (o.1 < seq) && !o.2.copied && conflicts use o.2.kind.omUse)
    || m.array.any (fun (c : MCmd) => c.block == b && c.accepted && decide (c.seq < seq) &&
        conflicts use (matrixUse c.instr c.ws))

/-- The slots of latched weights keep a matrix command waiting only while a copy has begun to write them: a copy
that is still to begin finds the command before it (R131, R388; notes/assumptions/62.md). -/
def Mach.cmdWaits (m : Mach) (c : MCmd) : Bool :=
  let ws := match m.block? c.block with | some b => b.wsrc | none => 0
  m.omWaits c.block m.nextId (matrixUse c.instr (setBit ws 63 false))
    || m.ops.any (fun (o : Nat × EngOp) => o.2.block == c.block && o.2.started && !o.2.copied && conflicts (matrixUse c.instr ws) o.2.kind.omUse)

/-- What a wave waits for is another wave, an engine, or nothing that its own next commands could change. -/
def Hold.waitsOthers : Hold → Bool
  | .wait _ (.bar _) | .wait _ (.gwait ..) | .wait _ (.rcpt ..) | .wait _ (.sleep ..) | .wait _ (.waitb _) | .wait _ .room => true
  | _ => false

/-- A copy onto latched weights is accepted at its slots after the product that its wave issues on them (R131,
R388): it begins once the wave waits for others, is away, or 4096 steps have passed (notes/assumptions/62.md). -/
def Mach.keepsWeights (m : Mach) (b : Block) (o : EngOp) : Bool :=
  let writes := (o.kind.omUse.filter (·.2)).map (·.1)
  wsV b.wsrc && !wsV (b.omWriter writes).wsrc && decide (m.tick < o.born + 4096)
    && (match m.wave? o.wave with
        | some w => b.state == .running && !w.hold.waitsOthers
            && (w.hold == .none || !m.array.any (fun (c : MCmd) => c.wave == o.wave && c.op.isNone) || m.array.any (fun (c : MCmd) => c.wave == o.wave && c.op.isNone && !m.cmdWaits c))
        | none => false)

/-- A copy that has not begun waits for the earlier accesses to its slots, and for every command that runs on
them (R128). -/
def Mach.startWaits (m : Mach) (id : Nat) (o : EngOp) : Bool :=
  m.omWaits o.block id o.kind.omUse
    || m.array.any (fun (c : MCmd) => c.block == o.block && c.accepted && conflicts o.kind.omUse (matrixUse c.instr c.ws))
    || (match m.block? o.block with | some b => m.keepsWeights b o | none => false)

/-- A copy begins: it is accepted at the slots that it writes (R131). -/
def Mach.begin (m : Mach) (o : EngOp) : Mach :=
  if o.started then m else m.updBlock o.block (fun b => b.omWriter ((o.kind.omUse.filter (·.2)).map (·.1)))

/-! ## Operands of `cp` and `cpg` -/

inductive CpSpace where
  | m | s | o
  deriving DecidableEq, Repr

/-- An aperture holds the address (R25). -/
def Ctx.inAperture (x : Ctx) (a : Nat) : Bool := (x.steer a).1 != .global

/-- The address-generation causes of `n` bytes of global memory at `a` (R214). -/
def Ctx.memCauses (x : Ctx) (a n : Nat) : List Nat :=
  let last := (a + n - 1) % 2 ^ 64
  (if meets a n x.spbase (2 ^ 32) || meets a n x.stkbase (2 ^ 34) then [0x70] else [])
    ++ (if (!x.inAperture a && !canonical a) || (!x.inAperture last && !canonical last) then [0x20] else [])

/-- The layout word in three consecutive scalars (R201): BASE, S1 and M. -/
def Wave.layWord (w : Wave) (p : Bool) (r : Nat) : Nat × Nat × Nat :=
  let part := fun i => (w.getS p (r + i)).toNat % 2 ^ 32
  let x := part 0 + part 1 * 2 ^ 32 + part 2 * 2 ^ 64
  (fld x 0 24, fld x 24 20, fld x 84 4)

/-- Where the rows of a command lie, with the causes that they meet (R214, R230). -/
def Env.sideRows (e : Env) (space : CpSpace) (val ln nrow : Nat) (stride : Int) : CpArg × List Nat :=
  match space with
  | .m => (.mem val, ((List.range nrow).flatMap (fun r => e.x.memCauses (addr64 (rowStart val stride r)) ln)).eraseDups)
  | .s =>
    let bad := fun r => decide (rowStart val stride r < 0) || decide ((e.l.spad : Int) < rowStart val stride r + ln)
    (.spad val, if bad 0 || bad (nrow - 1) then [0x22] else [])
  | .o =>
    let lowest : Int := 16384 * (val / 16384 : Nat)
    let out := fun r => decide (rowStart val stride r < lowest) || decide ((omBytes : Int) < rowStart val stride r + ln)
    let slot := fun r => decide (rowStart val stride r < lowest) == false && !e.b.claimedRun e.l.oms (rowStart val stride r).toNat ln
    (.om val, (if decide (omBytes ≤ val) || (List.range nrow).any slot then [0x60] else []) ++ (if (List.range nrow).any out then [0x61] else []))

/-- One side of a command: the operand, its causes, and the machine (the handle cache is read). -/
def Env.side (e : Env) (m : Mach) (space : CpSpace) (val : Nat) (handle write : Bool) (ln nrow : Nat) (stride : Int) :
    CpArg × List Nat × Mach :=
  if !handle then let r := e.sideRows space val ln nrow stride; (r.1, r.2, m)
  else if space != .m then let r := e.sideRows space val ln nrow stride; (r.1, 0x71 :: r.2, m)
  else
    let h := val % 2 ^ 32
    match m.checkHandle e.w.core e.w.ctx e.x h with
    | (none, m) => (.hnd h 0, [0x90], m)
    | (some y, m) =>
      let off := val / 2 ^ 32
      let refused := y.kind != 1 || !(y.perm.testBit (if write then 1 else 0)) || decide (y.len < off + ln * nrow)
      let r := e.sideRows .m (addr64 (y.addr + off)) ln nrow stride
      (.hnd h (addr64 (y.addr + off)), (if refused then [0x71] else []) ++ r.2, m)

/-- The scratchpad side of `.lay` (R201, R202, R231). -/
def Env.laySide (e : Env) (p : Bool) (r ln nrow : Nat) : CpArg × List Nat :=
  let (base, s1, mode) := e.w.layWord p r
  let top := base + (nrow - 1) * s1 + ln
  let last := if mode = 0 then top else base + 128 * ceilDiv (top - base) 128
  (.lay base s1 mode, (if mode != 0 && base % 128 != 0 then [0x71] else []) ++ (if e.l.spad < last then [0x22] else []))

/-! ## Issue of engine commands (R214) -/

/-- A command ready to be accepted, with the causes that it meets. -/
structure Cmd where
  half : Bool
  kind : EngKind
  causes : List Nat
  fo : Option (W64 × W64) := none
  deriving DecidableEq, Repr

def issueStage (c : Nat) : Bool := c == 0x60 || c == 0x61 || c == 0x71 || c == 0x90

/-- The winning cause of commands: the earliest stage, then the lowest code (R214, R319). -/
def Env.cmdCause (e : Env) (l : List Cmd) : Option WOut :=
  let all := l.flatMap (fun c => c.causes)
  let early := all.filter issueStage
  match (if early.isEmpty then all else early) with
  | [] => none
  | c :: cs =>
    let code := cs.foldl min c
    let lanes := fun (p : Bool) => if l.any (fun x => x.half == p && x.causes.contains code) then (e.w.half p).exec else 0
    some (e.before code (lanes false) (lanes true))

/-- The wave waits for the operation that a receipt register holds, as a receipt read (R214); a parent of
queued children is parked (R269). -/
def Env.awaitAs (e : Env) (p : Bool) (q : Nat) (why : Why) : WOut :=
  match e.m.parkParent e.id e.w p q with
  | some (m, w) => .hold m w why
  | none => e.halt why

def Env.awaitReceipt (e : Env) (p : Bool) (q : Nat) : WOut := e.awaitAs p q (.rcpt p q)

/-- Commands of a core's copy queue (R214). -/
def Mach.queued (m : Mach) (core : Nat) (queue : Bool) : List (Nat × EngOp) :=
  m.ops.filter (fun (o : Nat × EngOp) => o.2.core == core && m.duty o.2.ctx && o.2.queue == queue && !o.2.copied &&
    (match o.2.kind with | .copy .. | .gather .. => true | _ => false))

/-- Accepts the commands of every half, half 0 first (R214). -/
def Env.issueCmds (e : Env) (q eng : Nat) (queue : Option Bool) (ps : List Bool) (mk : Mach → Bool → Cmd × Mach) : WOut :=
  match ps.find? (fun p => rPending (e.w.getQ p q)) with
  | some p => e.awaitReceipt p q
  | none =>
    let (l, m) := ps.foldl (fun (r : List Cmd × Mach) p => let (c, m) := mk r.2 p; (r.1 ++ [c], m)) ([], e.m)
    match e.cmdCause l with
    | some t => t
    | none =>
      if queue.elim false (fun b => decide (32 < (m.queued e.w.core b).length + l.length)) then e.halt .room else
      let r := l.foldl (fun (r : Mach × Wave) c =>
        r.1.accept e.id r.2 c.half q eng c.kind (queue.getD false) c.fo) (m, e.w)
      .next r.1 { r.2 with pc := e.w.pc + 16 }

/-- The follow-on that two scalars hold passes R232. -/
def Env.followOk (e : Env) (q : BitVec 4) (sp : BitVec 7) (b x : W64) : Bool :=
  let i := decodeTotal b x
  let same := match i with
    | .wload o => o.q == q && o.sp == sp
    | .wmint o => o.q == q && o.sp == sp
    | .mmul o => o.q == q && o.sp == sp
    | .mseek o => o.q == q && o.sp == sp
    | _ => false
  same && e.w.boundsOk i

/-- One half's `cp` (R230 to R232). -/
def Env.copyCmd (e : Env) (o : OpCp) (ks kd : CpSpace) (m : Mach) (p : Bool) : Cmd × Mach :=
  let s := fun (r : BitVec 7) => (e.w.getS p r.toNat).toNat
  let shape := s o.b
  let ln := fld shape 0 32
  let nrow := fld shape 32 16 + 1
  let stride := match o.e3 with | some r => s r | none => 0
  let ss : Int := sext stride 32
  let ds : Int := sext (stride / 2 ^ 32) 32
  let badShape := ln = 0 || decide (2 ^ 36 < ln * nrow) || fld shape 48 16 != 0 || (nrow != 1 && o.e3.isNone)
    || (o.lay && ks != .s && kd != .s)
  let follow := match o.fo with | some (_, f) => some (e.w.getS p f.toNat, e.w.getS p (f.toNat + 1)) | none => none
  let badFollow := match o.fo, follow with | some (sp, _), some (b, x) => !e.followOk o.q sp b x | _, _ => false
  let early := if badShape || badFollow then [0x71] else []
  -- a shape of no bytes names none of either side
  if ln = 0 then ({ half := p, kind := .copy (.mem 0) (.mem 0) 0 0 0 0, causes := early }, m) else
  let src := if o.lay && ks == .s then let r := e.laySide p o.a.toNat ln nrow; (r.1, (if o.hs then [0x71] else []) ++ r.2, m)
    else e.side m ks (s o.a) o.hs false ln nrow ss
  let dst := if o.lay && kd == .s then let r := e.laySide p o.d.toNat ln nrow; (r.1, (if o.hd then [0x71] else []) ++ r.2, src.2.2)
    else e.side src.2.2 kd (s o.d) o.hd true ln nrow ds
  ({ half := p, kind := .copy src.1 dst.1 ln nrow ss ds, causes := early ++ src.2.1 ++ dst.2.1, fo := follow }, dst.2.2)

def Env.copy (e : Env) (o : OpCp) (ks kd : CpSpace) : WOut :=
  e.issueCmds o.q.toNat 1 (some o.q1) (e.w.groups.filter e.w.execs) (fun m p => e.copyCmd o ks kd m p)

def execCpMm (o : OpCp) (s : State) : Host.Outcome State Fault Refusal := withCur (fun e => e.copy o .m .m) s
def execCpMs (o : OpCp) (s : State) : Host.Outcome State Fault Refusal := withCur (fun e => e.copy o .m .s) s
def execCpSm (o : OpCp) (s : State) : Host.Outcome State Fault Refusal := withCur (fun e => e.copy o .s .m) s
def execCpMo (o : OpCp) (s : State) : Host.Outcome State Fault Refusal := withCur (fun e => e.copy o .m .o) s
def execCpOm (o : OpCp) (s : State) : Host.Outcome State Fault Refusal := withCur (fun e => e.copy o .o .m) s
def execCpSo (o : OpCp) (s : State) : Host.Outcome State Fault Refusal := withCur (fun e => e.copy o .s .o) s
def execCpOs (o : OpCp) (s : State) : Host.Outcome State Fault Refusal := withCur (fun e => e.copy o .o .s) s

/-- One half's `cpg` (R233): the index list is read now. -/
def Env.gatherCmd (e : Env) (o : OpCpg) (m : Mach) (p : Bool) : Cmd × Mach :=
  let s := fun (r : BitVec 7) => (e.w.getS p r.toNat).toNat
  let shape := s o.b
  let ln := fld shape 0 32
  let nrow := fld shape 32 16 + 1
  let str : Int := sext (s o.e3) 64
  let list := s o.c
  let early := if ln = 0 || decide (2 ^ 36 < ln * nrow) || fld shape 48 16 != 0 || o.hd then [0x71] else []
  if ln = 0 then ({ half := p, kind := .gather (.mem 0) (.mem 0) 0 0 0 [], causes := early }, m) else
  let listBad := (if list % 4 != 0 then [0x21] else []) ++ (if e.l.spad < list + 4 * nrow then [0x22] else [])
  let idx := if listBad.isEmpty then (List.range nrow).map (fun r => e.b.spadN (list + 4 * r) 4) else []
  let dst := e.sideRows (if o.o then .o else .s) (s o.d) ln nrow ln
  let src : CpArg × List Nat × Mach := e.side m .m (s o.a) o.hs false ln (if o.hs then nrow else 1) 0
  let base := match src.1 with | .mem a => a | .hnd _ a => a | _ => 0
  let rows := (idx.flatMap (fun (i : Nat) => e.x.memCauses (addr64 (base + str * i)) ln)).eraseDups
  let srcBad := src.2.1.filter issueStage ++ (if src.2.1.contains 0x90 then [] else rows)
  ({ half := p, kind := .gather src.1 dst.1 ln nrow str idx, causes := early ++ listBad ++ srcBad ++ dst.2 }, src.2.2)

def execCpg (o : OpCpg) (s : State) : Host.Outcome State Fault Refusal :=
  withCur (fun e => e.issueCmds o.q.toNat 2 (some o.q1) (e.w.groups.filter e.w.execs) (fun m p => e.gatherCmd o m p)) s

/-! ## Moving chunks (R215) -/

/-- A run of transfer bytes in one row: row, byte of the row, bytes. -/
def segments (ln total c : Nat) : List (Nat × Nat × Nat) :=
  let t0 := 4096 * c
  let t1 := min (t0 + 4096) total
  if ln = 0 || t1 ≤ t0 then [] else
  (List.range ((t1 - 1) / ln - t0 / ln + 1)).map (fun k =>
    let r := t0 / ln + k
    let i := if k = 0 then t0 % ln else 0
    (r, i, min (t1 - r * ln) ln - i))

/-- Where a row of an operand begins. -/
def CpArg.row (a : CpArg) (stride : Int) (idx : List Nat) (r : Nat) : Nat :=
  let off : Int := match idx with | [] => stride * r | _ => stride * (idx[r]?).getD 0
  match a with
  | .mem b | .hnd _ b => addr64 (b + off)
  | .spad o | .om o => ((o : Int) + off).toNat
  | .lay base s1 _ => base + r * s1

def CpArg.global : CpArg → Bool
  | .mem _ | .hnd _ _ => true
  | _ => false

/-- Bytes of an operand that is not global. -/
def CpArg.readLocal (a : CpArg) (b : Option Block) (serial o n : Nat) : List Byte :=
  match b with
  | none => (List.range n).map (fun i => Config.spadByte serial (o + i))
  | some b => match a with
    | .lay base _ mode => (List.range n).flatMap (fun i => b.rdSpad (layPhys base mode (o + i)) 1)
    | .om _ => b.rdOm o n
    | _ => b.rdSpad o n

def CpArg.writeLocal (a : CpArg) (b : Block) (o : Nat) (l : List Byte) : Block :=
  match a with
  | .lay base _ mode => ((List.range l.length).zip l).foldl (fun b x => b.wrSpad (layPhys base mode (o + x.1)) [x.2]) b
  | .om _ => b.wrOm o l
  | _ => b.wrSpad o l

/-- The physical runs of a chunk's segments on a global side, or the first outcome that stops it. -/
def segRuns (g : Mgmt) (m : Mach) (c : Nat) (need : Need) (l : List (Nat × Nat)) : Except (Nat × XRes) (List (List (Nat × Nat))) × Mach :=
  l.foldl (fun (r : Except (Nat × XRes) (List (List (Nat × Nat))) × Mach) x =>
    match r with
    | (.error e, m) => (.error e, m)
    | (.ok ls, m) => match runs g c need (runFuel x.2) m x.1 x.2 with
      | (.ok k, m) => (.ok (ls ++ [k]), m)
      | (.error e, m) => (.error e, m)) (.ok [], m)

/-- A read by an engine at home: the issuing core's L1 first writes back its dirty bytes of those lines. -/
def Mach.engineRead (m : Mach) (core c : Nat) (l : List (Nat × Nat)) : List Byte × Mach :=
  let m := m.l1FlushAll (fun x => x.core == core && x.ctx == c && l.any (fun p => meets (x.line * 128) 128 p.1 p.2))
  let m := l.foldl (fun m p => if isMem p.1 then m.l2Reqs c p.1 p.2 false else m) m
  (l.flatMap (fun p => m.rdAny p.1 p.2), m)

/-- A write by an engine at home: the lines leave the issuing core's L1, and its span's RDC (R203, R215). -/
def Mach.engineWrite (m : Mach) (core c : Nat) : List (Nat × Nat) → List Byte → Mach
  | [], _ => m
  | (pa, n) :: r, l =>
    let m := m.l1Drop (fun x => x.core == core && x.ctx == c && meets (x.line * 128) 128 pa n)
    let m := m.rdcDrop (fun x => x.span == spanOfCore core && meets (x.line * 128) 128 pa n)
    let m := if isMem pa then m.l2Reqs c pa n true else m
    (m.wrAny pa (l.take n)).engineWrite core c r (l.drop n)

/-- The parts of a copy or gather. -/
structure Move where
  src : CpArg
  dst : CpArg
  ln : Nat
  nrow : Nat
  ss : Int
  ds : Int
  idx : List Nat
  eng : Nat

def EngKind.move? : EngKind → Option Move
  | .copy src dst ln nrow ss ds => some { src, dst, ln, nrow, ss, ds, idx := [], eng := 1 }
  | .gather src dst ln nrow str idx => some { src, dst, ln, nrow, ss := str, ds := ln, idx, eng := 2 }
  | _ => none

/-- A handle that an operand names still stands (R301). -/
def Mach.stillGood (m : Mach) (x : Ctx) (a : CpArg) : Bool :=
  match a with
  | .hnd h _ => let y := m.handleHome x (fld h 0 20); y.kind == 1 && y.gen == fld h 20 12
  | _ => true

/-- What one chunk comes to. -/
inductive Chunk where
  | wait (m : Mach) (page : Option Nat)
  | stop (m : Mach) (stat : Nat)
  | poison (m : Mach)
  | moved (m : Mach)

/-- The physical address of byte `t` of some runs. -/
def runAt : List (Nat × Nat) → Nat → Option Nat
  | [], _ => none
  | (pa, n) :: r, t => if t < n then some (pa + t) else runAt r (t - n)

/-- The coded chunks that `n` bytes at offset `o` of operand memory take over whole from these runs (R140). -/
def Mach.copiedTags (m : Mach) (o n : Nat) (l : List (Nat × Nat)) : List (Nat × Byte) :=
  if m.ctags.isEmpty then [] else
  (List.range (n / 2048 + 1)).filterMap (fun i =>
    let k := ceilDiv o 2048 + i
    if o + n < 2048 * k + 2048 then none else
    match runAt l (2048 * k - o) with
    | none => none
    | some pa =>
      let tag := mget 0 m.ctags (pa / 2048)
      if pa % 2048 != 0 || tag = 0 || m.l2.any (fun x => x.dirty && x.line / 16 == pa / 2048) then none else some (k, tag))

def CpArg.takeTags (a : CpArg) (b : Block) (l : List (Nat × Byte)) : Block :=
  match a with
  | .om _ => { b with omTags := l.foldl (fun t x => put t x.1 x.2) b.omTags }
  | _ => b

/-- What a chunk wrote of poisoned lines joins what the command wrote before: a line covered whole is poisoned no
longer (R350). -/
def Mach.wroteMore (m : Mach) (o : EngOp) (l : List (Nat × Nat)) : Mach :=
  if m.poison.isEmpty then m else
  let all := o.wrote ++ l.filter m.poisonedRun
  { m.clearPoison all with
    ops := m.ops.map (fun (y : Nat × EngOp) => if y.2.ctx == o.ctx && y.2.seq == o.seq then (y.1, { y.2 with wrote := all }) else y) }

/-- Moves chunk `o.chunk` of an operation (R215). A block that is away has its scratchpad and operand memory in its image:
they are read from it, and go back there. -/
def moveChunk (g : Mgmt) (m : Mach) (o : EngOp) (v : Move) : Chunk :=
  let segs := segments v.ln (v.ln * v.nrow) o.chunk
  let at_ := fun (a : CpArg) (st : Int) (idx : List Nat) => segs.map (fun x => (addr64 (a.row st idx x.1 + x.2.1), x.2.2))
  let rd := segRuns g m o.ctx needR (if v.src.global then at_ v.src v.ss v.idx else [])
  let wr := segRuns g rd.2 o.ctx needW (if v.dst.global then at_ v.dst v.ds [] else [])
  let m := wr.2
  let absent : Except (Nat × XRes) (List (List (Nat × Nat))) → Option (Nat × Nat) := fun r =>
    match r with | .error (va, .absent lv) => some (va, lv) | _ => none
  match absent rd.1 <|> absent wr.1 with
  | some (va, lv) => .wait (m.absent o.ctx va lv kindEngine) (some (pageOf (va % 2 ^ 57)))
  | none =>
    match rd.1, wr.1 with
    | .ok rs, .ok ws =>
      if rs.any (fun l => m.poisonedRuns l) then .poison m else
      let m := if v.src.global && v.dst.global then m else m.reload o.block
      let b := m.block? o.block
      let (data, m) : List (List Byte) × Mach :=
        if v.src.global then rs.foldl (fun (r : List (List Byte) × Mach) l => let (d, m) := r.2.engineRead o.core o.ctx l; (r.1 ++ [d], m)) ([], m)
        else (segs.map (fun (x : Nat × Nat × Nat) => v.src.readLocal b o.block (v.src.row v.ss v.idx x.1 + x.2.1) x.2.2), m)
      if v.dst.global then
        .moved (((ws.zip data).foldl (fun (m : Mach) (x : List (Nat × Nat) × List Byte) => m.engineWrite o.core o.ctx x.1 x.2) m).wroteMore o ws.flatten)
      else
        let at_ := fun (x : Nat × Nat × Nat) => v.dst.row v.ds [] x.1 + x.2.1
        let tags := (segs.zip rs).flatMap (fun (x : (Nat × Nat × Nat) × List (Nat × Nat)) => m.copiedTags (at_ x.1) x.1.2.2 x.2)
        .moved (m.updBlock o.block (fun b =>
          v.dst.takeTags ((segs.zip data).foldl (fun (b : Block) (x : (Nat × Nat × Nat) × List Byte) => v.dst.writeLocal b (at_ x.1) x.2) b) tags)
            |>.refresh o.block)
    | _, _ => .stop m 3

/-- The operation may move now: it heads its queue, its function runs, and no earlier access holds its slots. -/
def Mach.mayMove (m : Mach) (id : Nat) (o : EngOp) (x : Ctx) : Bool :=
  (m.part x.part).running == x.vf && !(m.part x.part).halted
    && !(m.queued o.core o.queue).any (fun y => decide (y.1 < id))
    && !(match o.held with | some p => x.pending.any (fun y => y.page == p) | none => false)
    && (o.started || !m.startWaits id o)

/-- One chunk of an engine command (R215, R230, R240). -/
def engineChunk (id : Nat) (s : State) : Host.Outcome State Fault Refusal :=
  let m := s.m
  let done := fun (m : Mach) => Host.Outcome.next { s with m := { m with changes := m.changes + 1 } }
  match lookup m.ops id with
  | none => .next s
  | some o =>
    match o.kind.move?, m.ctx? o.ctx with
    | some v, some x =>
      if o.copied || !m.mayMove id o x then .next s
      else if o.cancel then done (m.completeOp id v.eng 4 (some (BitVec.ofNat 24 o.chunk)) 0)
      else if !m.stillGood x v.src || !m.stillGood x v.dst then done (m.completeOp id v.eng 2 (some (BitVec.ofNat 24 o.chunk)) 0)
      else match moveChunk s.mgmt ((m.begin o).askOp o) o v with
      | .wait m p => done (m.updOp id (fun o => { o with started := true, held := p }))
      | .stop m st => done (m.completeOp id v.eng st (some (BitVec.ofNat 24 o.chunk)) 0)
      | .poison m => done (contextReset s.mgmt m o.ctx 0x52 0)
      | .moved m =>
        if 4096 * (o.chunk + 1) < v.ln * v.nrow then done (m.updOp id (fun o => { o with started := true, held := none, chunk := o.chunk + 1 }))
        else match o.fo with
        | none => done (m.completeOp id v.eng 1 none 0)
        | some (b, y) =>
          let cmd : MCmd := { core := (m.block? o.block).elim o.core (fun b => b.core), wave := o.wave, half := o.half, block := o.block, instr := decodeTotal b y, op := some id }
          done { m.updOp id (fun o => { o with started := true, held := none, chunk := o.chunk + 1, copied := true }) with array := m.array ++ [cmd] }
    | _, _ => .next s

/-! ## Collectives (R234 to R237) -/

/-- One half's `coll`: the descriptor's frame address, or the outcome of its translation. -/
def Env.collAt (e : Env) (m : Mach) (o : OpColl) (p : Bool) : XRes × Mach :=
  xlate e.g m e.w.ctx (e.w.getS p o.c.toNat).toNat needR

def Env.collCmd (e : Env) (fn : Nat) (o : OpColl) (m : Mach) (p : Bool) : Cmd × Mach :=
  let s := fun (r : BitVec 7) => (e.w.getS p r.toNat).toNat
  let n := s o.b
  let size := n * Ty.size o.ty
  let desc := s o.c
  let (at_, m) := e.collAt m o p
  let m := match at_ with | .ok pa _ _ => m.eat e.w.ctx pa 64 | _ => m
  let npart := match at_ with | .ok pa _ _ => m.homeN pa 4 | _ => 1
  let early := if n = 0 || decide (2 ^ 32 ≤ n) || decide (4096 ≤ s o.e2) || desc % 64 != 0 || npart = 0 || decide (4096 < npart) then [0x71] else []
  -- a gather's own slot lies at D + slot × n
  let dst := if fn = 3 then addr64 (s o.d + s o.e2 * size) else s o.d
  let addrs := e.x.memCauses desc 64 ++ e.x.memCauses (s o.a) size ++ e.x.memCauses dst size
  let pa := match at_ with | .ok pa _ _ => pa | _ => 0
  ({ half := p, kind := .coll fn o.ty (s o.d) (s o.a) n pa (s o.e2), causes := early ++ (if n = 0 then [] else addrs) }, m)

/-- A context takes part in a descriptor's collectives (R346). -/
def Mach.joinColl (m : Mach) (desc c : Nat) : Mach :=
  if m.colls.any (fun y => y.desc == desc) then
    { m with colls := updFirst (fun (y : CollSt) => y.desc == desc) (fun y => { y with ctxs := addPage y.ctxs c }) m.colls }
  else { m with colls := m.colls ++ [{ desc, ctxs := [c] }] }

/-- The STAT of a collective that may not use an address: LINK when every link of its window is down, else FAULT (R216,
R357). -/
def XRes.lostStat : XRes → Nat
  | .perm false => 6
  | _ => 3

/-- `coll` (R235): an absent descriptor holds the wave, and one that may not be used ends the command with
FAULT, or with LINK behind a window that is down. -/
def Env.coll (e : Env) (fn : Nat) (o : OpColl) : WOut :=
  let ps := e.w.groups.filter e.w.execs
  let q := o.q.toNat
  if ps.any (fun p => rPending (e.w.getQ p q)) then e.issueCmds q 3 none ps (fun m p => e.collCmd fn o m p) else
  let canon := ps.filter (fun p => (e.x.memCauses (e.w.getS p o.c.toNat).toNat 64).isEmpty)
  let res := canon.map (fun p => (p, (e.collAt e.m o p).1))
  match res.findSome? (fun x => match x.2 with | .absent lv => some ((e.w.getS x.1 o.c.toNat).toNat, lv) | _ => none) with
  | some (va, lv) =>
    -- what the registers alone show comes first (R214)
    match e.cmdCause (ps.map (fun p => (e.collCmd fn o e.m p).1)) with
    | some t => t
    | none => e.stall e.m va lv kindEngine
  | none =>
    let faulted := (res.filter (fun x => match x.2 with | .ok _ _ _ => false | _ => true)).map (fun x => (x.1, x.2.lostStat))
    match e.issueCmds q 3 none ps (fun m p => e.collCmd fn o m p) with
    | .next m w =>
      let new : Nat × EngOp → Bool := fun y => y.2.wave == e.id && decide (e.m.nextId ≤ y.1)
      let m := { m with ops := m.ops.filter (fun (y : Nat × EngOp) => !(new y && faulted.any (fun (z : Bool × Nat) => z.1 == y.2.half))) }
      let m := (m.ops.filter new).foldl (fun (m : Mach) (y : Nat × EngOp) =>
        match y.2.kind with
        | .coll _ _ _ _ _ desc _ => m.joinColl desc e.w.ctx
        | _ => m) m
      .next m (faulted.foldl (fun w y => w.updHalf y.1 (fun h => h.setQ q (mkRcpt 0 y.2 3 (rSeq (h.getQ q))))) w)
    | t => t

def execCollSum (o : OpColl) (s : State) : Host.Outcome State Fault Refusal := withCur (fun e => e.coll 0 o) s
def execCollMin (o : OpColl) (s : State) : Host.Outcome State Fault Refusal := withCur (fun e => e.coll 1 o) s
def execCollMax (o : OpColl) (s : State) : Host.Outcome State Fault Refusal := withCur (fun e => e.coll 2 o) s
def execCollGather (o : OpColl) (s : State) : Host.Outcome State Fault Refusal := withCur (fun e => e.coll 3 o) s
def execCollBcast (o : OpColl) (s : State) : Host.Outcome State Fault Refusal := withCur (fun e => e.coll 4 o) s

/-- A participant of an instance: its operation, and the bytes of its source. -/
structure Contrib where
  id : Nat
  o : EngOp
  dst : Nat
  slot : Nat
  data : List Byte

/-- Element `i` of the contribution of a slot. -/
def contribAt (l : List Contrib) (size i s : Nat) : Option Nat :=
  (l.find? (fun c => c.slot == s)).map (fun c => natAt c.data (i * size) size)

/-- Element `i` of a sum over the 4096 slots (R88, R236). -/
def collSumAt (t : Ty) (x : Nat → Option Nat) : Nat × Flags :=
  match Ty.fmt? t with
  | none => ((treeOp (fun a b => ((a + b) % 2 ^ Ty.bits t, 0)) (fun s => some ((x s).getD 0)) 0 12).getD (0, 0))
  | some f =>
    let wide := if t = .f16 || t = .bf16 then Fmt.f32 else f
    let into := fun (v : Nat) => if wide = f then (v, (0 : Flags)) else f.convert wide .near false v
    let fl := (List.range 4096).foldl (fun (k : Flags) s => match x s with | some v => k ||| (into v).2 | none => k) 0
    let r := (treeOp (wide.add .near false) (fun s => some (match x s with | some v => (into v).1 | none => 0)) 0 12).getD (0, 0)
    if wide = f then (r.1, r.2) else let y := wide.convert f .near false r.1; (y.1, fl ||| r.2 ||| y.2)

/-- Element `i` of a minimum or maximum: empty slots are absent (R88). -/
def collMinMaxAt (t : Ty) (mx : Bool) (x : Nat → Option Nat) : Nat × Flags := (treeOp (minmaxNode t mx) x 0 12).getD (0, 0)

/-- What an instance writes: a list of byte offsets in each destination and their bytes, and the flags that the
nodes of a sum, minimum or maximum raised (R72, R236). -/
def collResult (fn : Nat) (t : Ty) (n root : Nat) (l : List Contrib) : List (Nat × List Byte) × Flags :=
  let size := Ty.size t
  let all : (Nat → Nat × Flags) → List (Nat × List Byte) × Flags := fun f =>
    let r := (List.range n).map f
    ([(0, r.flatMap (fun y => natBytes y.1 size))], r.foldl (fun k y => k ||| y.2) 0)
  match fn with
  | 0 => all (fun i => collSumAt t (contribAt l size i))
  | 1 => all (fun i => collMinMaxAt t false (contribAt l size i))
  | 2 => all (fun i => collMinMaxAt t true (contribAt l size i))
  | 3 => (l.map (fun c => (c.slot * n * size, c.data)), 0)
  | _ => ([(0, (l.find? (fun c => c.slot == root)).elim [] (fun c => c.data))], 0)

/-- An outcome of a participant's translation. -/
inductive CollTry where
  | ready (m : Mach) (l : List Contrib)
  | wait (m : Mach)
  | end_ (m : Mach) (fault : List Nat)
  | poison (m : Mach) (c : Nat)

/-- Reads the sources of an instance (R215). -/
def collSources (g : Mgmt) (m : Mach) (l : List (Nat × EngOp)) : CollTry :=
  l.foldl (fun (r : CollTry) (y : Nat × EngOp) =>
    match r, y.2.kind with
    | .ready m cs, .coll _ t dst src n _ slot =>
      (match runs g y.2.ctx needR (runFuel (n * Ty.size t)) (m.askOp y.2) src (n * Ty.size t) with
       | (.ok rs, m) =>
         if m.poisonedRuns rs then .poison m y.2.ctx else
         let d := m.engineRead y.2.core y.2.ctx rs
         .ready d.2 (cs ++ [{ id := y.1, o := y.2, dst, slot, data := d.1 }])
       | (.error (va, .absent lv), m) => .wait ((m.absent y.2.ctx va lv kindEngine).updOp y.1 (fun o => { o with held := some (pageOf (va % 2 ^ 57)) }))
       | (.error (_, .perm true), m) => .end_ m [y.1]
       | (.error _, m) => .end_ m [])
    | r, _ => r) (.ready m [])

/-- Translates a participant's destination pieces: the runs, or what stops them. -/
def collDest (g : Mgmt) (m : Mach) (c : Contrib) (pieces : List (Nat × List Byte)) : Except (Nat × XRes) (List (List (Nat × Nat))) × Mach :=
  segRuns g (m.askOp c.o) c.o.ctx needW (pieces.map (fun p => (addr64 (c.dst + p.1), p.2.length)))

/-- A collective instance completes (R236, R237). -/
def execCollInstanceComplete (desc : Nat) (s : State) : Host.Outcome State Fault Refusal :=
  let m := s.m
  let npart := m.homeN desc 4
  let root := m.homeN (desc + 4) 2
  let heads := (m.collHeads desc).take npart
  let done := fun (m : Mach) => Host.Outcome.next { s with m := { m with changes := m.changes + 1 } }
  let free : Nat × EngOp → Bool := fun o => match m.ctx? o.2.ctx with
    | some x => m.running x && (match o.2.held with | some p => !x.pending.any (fun y => y.page == p) | none => true)
    | none => false
  if npart = 0 || heads.length < npart || !heads.all free then .next s
  else if m.poisonedRun (desc, 64) then done (contextReset s.mgmt m ((heads.head?.map (·.2.ctx)).getD 0) 0x52 0) else
  let shape := heads.map (fun o => match o.2.kind with | .coll fn t _ _ n _ _ => (fn, t, n) | _ => (0, Ty.b32, 0))
  let slots := heads.map (fun o => match o.2.kind with | .coll _ _ _ _ _ _ sl => sl | _ => 0)
  match shape with
  | [] => .next s
  | (fn, t, n) :: _ =>
    if !shape.all (· == (fn, t, n)) || decide (slots.eraseDups.length < slots.length) || (fn == 4 && !slots.contains root) then
      done (collEnd m desc 5 [])
    else match collSources s.mgmt m heads with
    | .wait m => done m
    | .poison m c => done (contextReset s.mgmt m c 0x52 0)
    | .end_ m bad => done (collEnd m desc 6 bad)
    | .ready m l =>
      let (pieces, fl) := collResult fn t n root l
      let tries := l.foldl (fun (r : List (Contrib × Except (Nat × XRes) (List (List (Nat × Nat)))) × Mach) c =>
        let d := collDest s.mgmt r.2 c pieces; (r.1 ++ [(c, d.1)], d.2)) ([], m)
      let waiting := tries.1.findSome? (fun y => match y.2 with | .error (va, .absent lv) => some (y.1, va, lv) | _ => none)
      match waiting with
      | some (c, va, lv) => done ((tries.2.absent c.o.ctx va lv kindEngine).updOp c.id (fun o => { o with held := some (pageOf (va % 2 ^ 57)) }))
      | none =>
        let down := tries.1.any (fun y => match y.2 with | .error (_, .perm false) => true | _ => false)
        if down then done (collEnd tries.2 desc 6 []) else
        let m := tries.1.foldl (fun (m : Mach) y => match y.2 with
          | .ok ws => ((ws.zip (pieces.map (·.2))).foldl (fun m x => m.engineWrite y.1.o.core y.1.o.ctx x.1 x.2) m).completeOp y.1.id 3 1 none fl
          | .error _ => m.completeOp y.1.id 3 3 (some 0) 0) tries.2
        done (m.homeWr (desc + 8) 8 (m.homeN (desc + 8) 8 + 1))

end Sys2Proof.Machine
end

