-- ==== Sys2Proof/Machine/Packet.lean ====
section
/-!
DEFINITION. What the Teller shares when it reads packets and records (spec/10_scheduling.md R277 to R281,
spec/11_isolation.md R298): reads and writes through the owning context's tables, the parse of launch records
(spec/01_machine.md R37, R38), guards that packets increment, and the completion of packets.
-/

namespace Sys2Proof.Machine

/-- Why reading a packet stops: it is not the one asked for, it waits, or its queue halts with a code of R281. -/
inductive PStop where
  | idle
  | wait
  | err (code : Nat)
  | poison
  deriving DecidableEq, Repr

abbrev PkM := EStateM PStop Mach

/-- For whom packets are read. -/
structure PkEnv where
  g : Mgmt
  c : Nat
  x : Ctx

/-- An absent page makes one record, and the reader waits (R278, R296). -/
def PkEnv.absent (e : PkEnv) (va level : Nat) (kind : BitVec 5) (m : Mach) : Mach :=
  let waiting := match m.ctx? e.c with | some x => x.pending.any (fun p => p.page == pageOf (va % 2 ^ 57)) | none => true
  if waiting then m else m.absent e.c va level kind

/-- The physical runs of a range; a permission outcome gives `code`. -/
def PkEnv.runs (e : PkEnv) (need : Need) (kind : BitVec 5) (a n code : Nat) : PkM (List (Nat × Nat)) := fun m =>
  match Machine.runs e.g e.c need (runFuel n) m (a % 2 ^ 64) n with
  | (.ok l, m) => .ok l m
  | (.error (va, .absent lv), m) => .error .wait (e.absent va lv kind m)
  | (.error _, m) => .error (.err code) m

/-- Bytes at their home. -/
def PkEnv.readAs (e : PkEnv) (need : Need) (kind : BitVec 5) (a n code : Nat) : PkM (List Byte) := do
  let l ← e.runs need kind a n code
  let m ← get
  if m.poisonedRuns l then throw PStop.poison
  pure (m.rdRuns l)

def PkEnv.read (e : PkEnv) (need : Need) (a n code : Nat) : PkM (List Byte) := e.readAs need kindRead a n code

def PkEnv.write (e : PkEnv) (a : Nat) (l : List Byte) (code : Nat) : PkM Unit := do
  let r ← e.runs needW kindWrite a l.length code
  modify (fun m => m.wrRuns r l)

def PkEnv.check (_ : PkEnv) (bad : Bool) (code : Nat) : PkM Unit := if bad then throw (PStop.err code) else pure ()

def zeroFrom (l : List Byte) (a b : Nat) : Bool := (bytesAt l a (b - a)).all (· == 0)

/-! ## Guards that packets increment (R279) -/

/-- Increments a guard at home with the effect of `grel.system`: what came before is at home already. -/
def PkEnv.bump (e : PkEnv) (a : Nat) : PkM Unit := do
  let l ← e.runs needRW kindAtomic a 8 8
  modify (fun m =>
    let v := bytesNat (l.flatMap (fun (p : Nat × Nat) => m.rdAny p.1 p.2))
    ((l.foldl (fun (r : Mach × List Byte) p => (r.1.wrAny p.1 (r.2.take p.2), r.2.drop p.2)) (m, natBytes ((v + 1) % 2 ^ 64) 8)).1))

/-- A packet runs no longer: a `qrst` of its queue does not wait for it (R315). -/
def Mach.dropPkt (m : Mach) (qid idx : Nat) : Mach :=
  { m with queues := upd m.queues qid (fun (q : Queue) => { q with started := q.started.filter (fun (p : Pkt) => p.idx != idx) }) }

/-- DONEG of a packet that has started. -/
def Mach.donegOf (m : Mach) (qid idx : Nat) : Nat :=
  match lookup m.queues qid with
  | some q => ((q.started.find? (fun (p : Pkt) => p.idx == idx)).map (fun (p : Pkt) => p.doneg)).getD 0
  | none => 0

/-- A packet is complete: the context's data is at home, then its guard is incremented, and it leaves its queue (R198,
R279). -/
def PkEnv.finish (e : PkEnv) (qid idx doneg : Nat) : PkM Unit := do
  modify (fun m => m.dropData e.c)
  if doneg != 0 then e.bump doneg
  modify (fun m => m.dropPkt qid idx)

/-- How far index `b` lies ahead of `a`: indices count units modulo 2^64 (R277, R278), so half of them lie ahead
(notes/assumptions/66.md). -/
def ahead (a b : Nat) : Nat :=
  let n := (b + (2 ^ 64 - a % 2 ^ 64)) % 2 ^ 64
  if n < 2 ^ 63 then n else 0

/-- Units of a queue that are rung and not consumed. -/
def Queue.waiting (q : Queue) : Nat := ahead q.ridx q.rung

/-- Runs a reader for a context; what it does when a queue must halt is given. -/
def runPk (g : Mgmt) (m : Mach) (c : Nat) (halt : Nat → Mach → Mach) (f : PkEnv → PkM Unit) : Mach :=
  match m.ctx? c with
  | none => m
  | some x =>
    match f { g, c, x } m with
    | .ok _ m => { m with changes := m.changes + 1 }
    | .error .idle _ => m
    | .error .wait m => m
    | .error (.err code) m => { halt code m with changes := m.changes + 1 }
    | .error .poison m => { contextReset g m c 0x52 0 with changes := m.changes + 1 }

/-! ## Launch records (R37, R38) -/

def widthOf (wc : Nat) : Option Width :=
  match wc with | 0 => some .w32 | 1 => some .w16 | 2 => some .w64 | _ => none

/-- Logical waves per block that a width allows. -/
def waveLimit : Width → Nat
  | .w32 => 64 | .w16 => 128 | .w64 => 32

/-- A header word that a loader takes: its width class is not 11 and its fields are in range (R37). -/
def headerOk (h : Nat) : Bool :=
  fld h 0 2 != 3 && fld h 2 1 == 0 && fld h 46 2 == 0 && decide (fld h 18 10 ≤ 768) && decide (fld h 28 12 ≤ 2048)
    && decide (fld h 40 6 ≤ 48) && (fld h 56 8 == 8 || fld h 56 8 == 9)

def recordOk (r : List Byte) : Bool :=
  let g := fun (o : Nat) => natAt r o 4
  let inRange := fun (o : Nat) => decide (1 ≤ g o) && decide (g o < 2 ^ 21)
  zeroFrom r 0x0C 0x10 && zeroFrom r 0x31 0x40 && natAt r 0 8 % 8 == 0 && canonical (natAt r 0 8) && g 8 != 0
    && inRange 0x10 && inRange 0x14 && inRange 0x18 && decide (g 0x10 * g 0x14 * g 0x18 < 2 ^ 32)
    && decide (natAt r 0x30 1 ≤ 8) && (natAt r 0x30 1 == 0 || (natAt r 0x28 8 % 64 == 0 && canonical (natAt r 0x28 8)))

/-- The launch that a record and its kernel's header word describe. -/
def mkLaunch (ctx lrec queue pkt doneg cls : Nat) (r : List Byte) (h : Nat) (width : Width) : Launch :=
  { ctx, queue, pkt, lrec, doneg, cls, width
    code := natAt r 0 8, entry := natAt r 8 4, gx := natAt r 0x10 4, gy := natAt r 0x14 4, gz := natAt r 0x18 4
    waves := natAt r 0x1C 2, stk := natAt r 0x1E 2, args := w64 (natAt r 0x20 8), xform := natAt r 0x28 8, nxf := natAt r 0x30 1
    vregs := fld h 3 8 + 1, sregs := fld h 11 7 + 1, spad := 512 * fld h 18 10, bars := fld h 28 12, oms := fld h 40 6
    ucode := fld h 48 8 }

/-- Reads a launch record and the header word at its CODE; faults are error 5, and an address whose translation
is a permission outcome error 8 (R281). -/
def PkEnv.launch (e : PkEnv) (lrec queue pkt doneg cls : Nat) : PkM Launch := do
  let r ← e.read needR lrec 64 8
  e.check (!recordOk r) 5
  let h := bytesNat (← e.read {} (natAt r 0 8) 8 5)
  e.check (!headerOk h) 5
  match widthOf (fld h 0 2) with
  | none => throw (PStop.err 5)
  | some w =>
    let l := mkLaunch e.c lrec queue pkt doneg cls r h w
    e.check (l.waves = 0 || decide (waveLimit w < l.waves)) 5
    pure l

/-- Number of blocks of a launch. -/
def Launch.blocks (l : Launch) : Nat := l.gx * l.gy * l.gz

end Sys2Proof.Machine
end

