-- ==== Sys2Proof/Machine/Prologue.lean ====
section
/-!
DEFINITION. The prologue engine (spec/10_scheduling.md R286): transform records, their checks, and the elements
that they place in a block's scratchpad before its waves start.
-/

namespace Sys2Proof.Machine

structure Xform where
  kind : Nat
  sfmt : Nat
  dfmt : Nat
  handle : Bool
  tab : Nat
  src : Nat
  base : Nat
  s1 : Nat
  mode : Nat
  rows : Nat
  cols : Nat
  sstr : Int
  bstr : Int
  idx : Nat
  /-- no reserved field is set -/
  plain : Bool
  deriving DecidableEq, Repr

def Xform.parse (r : List Byte) : Xform :=
  let lay := natAt r 0x10 12
  let kind := natAt r 0 1
  let flg := natAt r 3 1
  { kind, sfmt := natAt r 1 1, dfmt := natAt r 2 1, handle := flg % 2 == 1, tab := flg / 16, src := natAt r 8 8
    base := fld lay 0 24, s1 := fld lay 24 20, mode := fld lay 84 4, rows := natAt r 0x20 4, cols := natAt r 0x24 4
    sstr := sext (natAt r 0x28 8) 64, bstr := sext (natAt r 0x30 8) 64, idx := natAt r 0x38 8
    plain := zeroFrom r 4 8 && zeroFrom r 0x1C 0x20 && flg / 2 % 8 == 0 && (kind == 4 || flg / 16 == 0) }

/-- Bytes of an element of a format that a transform moves or converts; none for the others. -/
def xfSize (f : Nat) : Option Nat :=
  match f with
  | 0 => some 4 | 1 => some 8 | 2 | 3 => some 2 | 4 | 5 | 0xA | 0xB => some 1 | _ => none

def Xform.esize (x : Xform) : Nat := (xfSize x.dfmt).getD 1

/-- The kinds and formats that R286 lists. -/
def Xform.listed (x : Xform) : Bool :=
  (xfSize x.dfmt).isSome &&
    (match x.kind with
     | 0 | 3 | 5 => x.sfmt == x.dfmt
     | 1 => (xfSize x.sfmt).isSome
     | 2 => x.sfmt == 8 && x.dfmt == 3
     | 4 => x.sfmt == x.dfmt && (x.sfmt == 3 || x.sfmt == 4 || x.sfmt == 5)
     | _ => false)

/-- One past the last destination byte, and the lines that the bank permutation reaches. -/
def Xform.top (x : Xform) : Nat :=
  let e := x.esize
  let t := if x.kind = 3 then x.base + (x.cols - 1) * x.s1 + x.rows * e else x.base + (x.rows - 1) * x.s1 + x.cols * e
  if x.mode = 0 then t else x.base + 128 * ceilDiv (t - x.base) 128

/-- A record stands (R286), as far as it can be told before its source is read. -/
def Xform.ok (x : Xform) (spad : Nat) (tables : List Host.Cell) : Bool :=
  x.plain && x.listed && decide (1 ≤ x.rows) && decide (x.rows ≤ 65535) && decide (1 ≤ x.cols) && decide (x.cols ≤ 65535)
    && (x.mode == 0 || x.base % 128 == 0) && decide (x.top ≤ spad)
    && (x.kind != 4 || tableOk (codeLens tables x.tab (x.sfmt - 3))) && (x.kind != 5 || x.idx % 4 == 0)

/-- Reads and checks the table of a launch; a fault is error 6. -/
def PkEnv.xforms (e : PkEnv) (l : Launch) : PkM (List Xform) := do
  let bytes ← e.read needR l.xform (64 * l.nxf) 8
  let xs := (List.range l.nxf).map (fun i => Xform.parse (bytesAt bytes (64 * i) 64))
  e.check (!xs.all (fun x => x.ok l.spad e.x.tables)) 6
  pure xs

/-! ## Elements -/

/-- Source bytes of a row of `n` elements. -/
def Xform.rowBytes (x : Xform) : Nat :=
  match x.kind with
  | 2 => 20 * ceilDiv x.cols 32
  | 4 => 2048 * ceilDiv x.cols (efCount (x.sfmt - 3))
  | _ => x.cols * (xfSize x.sfmt).getD 1

def cvtSrcOf (f : Nat) : CvtSrc :=
  match f with
  | 0 => .f32 | 1 => .f64 | 2 => .f16 | 3 => .bf16 | 4 => .h8 | 5 => .h8w | 0xA => .fi8 | _ => .fn8
def cvtDstOf (f : Nat) : CvtDst :=
  match f with
  | 0 => .ty .f32 | 1 => .ty .f64 | 2 => .ty .f16 | 3 => .ty .bf16 | 4 => .ty .h8 | 5 => .ty .h8w | 0xA => .ty .i8 | _ => .ty .n8

/-- The elements of a row from its bytes, with the flags that forming them raises; none when a code is missing. -/
def Xform.elements (x : Xform) (tables : List Host.Cell) (row : List Byte) : Option (List Nat × Flags) :=
  let a := row.toArray
  let byte := fun (i : Nat) => ((a[i]?).getD 0).toNat
  let at_ := fun (i n : Nat) => (List.range n).foldl (fun (v : Nat) j => v + byte (i * n + j) * 256 ^ j) 0
  match x.kind with
  | 1 =>
    let l := (List.range x.cols).map (fun c => convertOne .near false (cvtDstOf x.dfmt) (cvtSrcOf x.sfmt) (at_ c ((xfSize x.sfmt).getD 1)))
    some (l.map (·.1), l.foldl (fun (f : Flags) y => f ||| y.2) 0)
  | 2 =>
    let l := (List.range x.cols).map (fun c =>
      let g := 20 * (c / 32)
      q4Weight (byte (g + 16) + 256 * byte (g + 17)) (fld (byte (g + c % 32 / 2)) (4 * (c % 2)) 4) (byte (g + 18) % 16))
    some (l.map (·.1), l.foldl (fun (f : Flags) y => f ||| y.2) 0)
  | 4 =>
    let ef := x.sfmt - 3
    let n := efCount ef
    let chunks := (List.range (ceilDiv x.cols n)).map (fun i => expand tables ef x.tab (min n (x.cols - i * n)) (bytesAt row (2048 * i) 2048))
    if chunks.any Option.isNone then none else some (chunks.flatMap (fun y => y.getD []), 0)
  | _ => some ((List.range x.cols).map (fun c => at_ c x.esize), 0)

/-- The address of SRC, through its handle (R230, R300); a handle that does not stand fails the record. -/
def PkEnv.source (e : PkEnv) (x : Xform) (bytes : Nat) : PkM Nat := do
  if !x.handle then return x.src
  let m ← get
  let h := x.src % 2 ^ 32
  let i := fld h 0 20
  let y := m.handleHome e.x i
  let off := x.src / 2 ^ 32
  e.check (e.x.hcount ≤ i || y.kind != 1 || y.gen != fld h 20 12 || y.perm % 2 == 0 || decide (y.len < off + bytes)) 6
  pure (y.addr + off)

/-- Source bytes, read as an engine reads them: the dirty bytes of the block's core go home first (R215). -/
def PkEnv.readSource (e : PkEnv) (core a n : Nat) : PkM (List Byte) := do
  let l ← e.runs needR kindEngine a n 6
  let m ← get
  if m.poisonedRuns l then throw PStop.poison
  let (d, m) := m.engineRead core e.c l
  set m
  pure d

/-- The bytes of one source row; of a coded chunk, those that its header says are in use (R142). -/
def PkEnv.readRow (e : PkEnv) (x : Xform) (core start : Nat) : PkM (List Byte) := do
  if x.kind != 4 then e.readSource core start x.rowBytes
  else
    let ef := x.sfmt - 3
    (List.range (ceilDiv x.cols (efCount ef))).foldlM (fun (l : List Byte) (i : Nat) => do
      let at_ := addr64 ((start : Int) + 2048 * (i : Int))
      let head ← e.readSource core at_ 4
      let n := min 2048 (codedBytes ef head)
      let body ← e.readSource core at_ n
      pure (l ++ body ++ List.replicate (2048 - n) 0)) []

/-- Runs one record for a block: its writes to the scratchpad, and its flags. -/
def PkEnv.runXform (e : PkEnv) (x : Xform) (blockid : Nat) (b : Block) : PkM (Block × Flags) := do
  let n := x.rowBytes
  let src ← e.source x (n * x.rows)
  let idx ← if x.kind = 5 then e.readSource b.core x.idx (4 * x.rows) else pure []
  (List.range x.rows).foldlM (fun (r : Block × Flags) row => do
    let k : Nat := if x.kind = 5 then natAt idx (4 * row) 4 else row
    let start := addr64 ((src : Int) + (blockid : Int) * x.bstr + (k : Int) * x.sstr)
    let bytes ← e.readRow x b.core start
    match x.elements e.x.tables bytes with
    | none => throw (PStop.err 6)
    | some (els, fl) =>
      let at_ := fun (c : Nat) => if x.kind = 3 then x.base + c * x.s1 + row * x.esize else x.base + row * x.s1 + c * x.esize
      let b := ((List.range els.length).zip els).foldl (fun (b : Block) (y : Nat × Nat) =>
        ((List.range x.esize).zip (natBytes y.2 x.esize)).foldl (fun (b : Block) (z : Nat × Byte) =>
          b.wrSpad (layPhys x.base x.mode (at_ y.1 + z.1)) [z.2]) b) r.1
      pure (b, r.2 ||| fl)) (b, 0)

/-- Runs the table of a launch for a block, in order. -/
def PkEnv.prologue (e : PkEnv) (l : Launch) (blockid : Nat) (b : Block) : PkM (Block × Flags) := do
  if l.nxf = 0 then return (b, 0)
  let xs ← e.xforms l
  xs.foldlM (fun (r : Block × Flags) x => do
    let y ← e.runXform x blockid r.1
    pure (y.1, r.2 ||| y.2)) (b, 0)

end Sys2Proof.Machine
end

