-- ==== Sys2Proof/Machine/Submit.lean ====
section
/-!
DEFINITION. Submission queues (spec/10_scheduling.md R277 to R281): doorbells, the packets but for tasksets, and
the completion of launches (spec/07_ordering.md R198).
-/

namespace Sys2Proof.Machine

/-- A `qrst` waits for the queue, from which nothing is consumed meanwhile (R315): an instruction, or a busy
request of the control page (R316). -/
def Mach.qrstWaits (m : Mach) (id : Nat) (q : Queue) : Bool :=
  m.waves.any (fun (w : Nat × Wave) => match w.2.hold with | .wait _ (.qrst n) => n == id | _ => false)
    || (let v := m.vf q.part q.vf; bit v.status 63 && v.op == 2 && v.arg0.toNat == q.desc)

/-- The queue's ring and LOGSZ from its descriptor, checked (R278). -/
def PkEnv.ring (e : PkEnv) (q : Queue) : PkM (Nat × Nat × Nat) := do
  let d ← e.read needR q.desc 64 8
  e.check (natAt d 9 1 / 8 != 0 || !zeroFrom d 0x0C 0x10 || !zeroFrom d 0x24 0x28 || !zeroFrom d 0x30 0x40) 4
  let logsz := natAt d 8 1
  e.check (decide (logsz < 12) || decide (24 < logsz) || natAt d 0 8 % 2 ^ logsz != 0) 8
  pure (natAt d 0 8, logsz, natAt d 9 1 % 8)

/-- Records a doorbell, and checks the descriptor of a queue that is not halted (R278). -/
def execDoorbell (part vf q : Nat) (widx : W64) (s : State) : Host.Outcome State Fault Refusal :=
  match s.m.queues.find? (fun (x : Nat × Queue) => x.2.part == part && x.2.vf == vf && x.2.q == q) with
  | none => .next s
  | some (id, x) =>
    if ahead x.rung widx.toNat = 0 then .next s else
    let m := { s.m with queues := upd s.m.queues id (fun (y : Queue) => { y with rung := widx.toNat }), changes := s.m.changes + 1 }
    let m := if x.halted then m else
      runPk s.mgmt m x.ctx (fun code m => haltQueue s.mgmt m id code x.ridx true) (fun e => do let _ ← e.ring x; pure ())
    .next { s with m }

/-! ## Packets -/

/-- What accepting a packet leaves in its queue. -/
structure Accepted where
  start : Option (PktKind × Nat) := none
  wait : Option (Nat × Nat) := none

/-- A packet as its handler sees it. -/
structure PkIn where
  id : Nat
  q : Queue
  cls : Nat
  /-- the ring's base, and the address of its first unit -/
  ring : Nat
  at_ : Nat
  bytes : List Byte
  units : Nat

/-- The faults of a header (R279 to R281). -/
def PkEnv.header (e : PkEnv) (q : Queue) (b : List Byte) (size : Nat) : PkM Unit := do
  let typ := natAt b 0 1
  let units := natAt b 2 2
  let ntask := natAt b 8 2
  e.check (decide (5 < typ)) 1
  e.check (units != 0 && decide (size < q.ridx % size + units)) 2
  e.check (units = 0 || decide (64 < units) || ([1, 3, 4, 5].contains typ && units != 1)
    || (typ == 2 && (units != 1 + ntask || ntask == 0 || decide (63 < ntask)))) 3
  e.check (natAt b 1 1 / 2 != 0) 4

/-- Consumes the next packet of a queue when it is of this type and may start (R278, R279, R281). -/
def consume (s : State) (id typ : Nat) (f : PkEnv → PkIn → PkM Accepted) : Host.Outcome State Fault Refusal :=
  match lookup s.m.queues id with
  | none => .next s
  | some q =>
    match s.m.ctx? q.ctx with
    | none => .next s
    | some x =>
      if q.halted || q.wait.isSome || q.waiting == 0 || !s.m.running x || s.m.qrstWaits id q then .next s else
      let m := runPk s.mgmt s.m q.ctx (fun code m => haltQueue s.mgmt m id code q.ridx true) (fun e => do
        let (ring, logsz, cls) ← e.ring q
        let size := 2 ^ (logsz - 6)
        let at_ := ring + 64 * (q.ridx % size)
        let b ← e.read needR at_ 64 8
        let t := natAt b 0 1
        if t ≤ 5 && t != typ then throw PStop.idle
        e.header q b size
        let units := natAt b 2 2
        if q.waiting < units then throw PStop.wait
        if (natAt b 1 1 % 2 == 1 || typ == 5) && !q.started.isEmpty then throw PStop.wait
        let _ ← e.runs needW kindWrite (q.desc + 0x18) 8 8
        let r ← f e { id, q, cls, ring, at_, bytes := b, units }
        let started : List Pkt := match r.start with | some (kind, doneg) => [{ idx := q.ridx, kind, doneg }] | none => []
        modify (fun m => { m with queues := upd m.queues id (fun (y : Queue) =>
          { y with ridx := (q.ridx + units) % 2 ^ 64, wait := r.wait, started := y.started ++ started }) })
        e.write (q.desc + 0x18) (natBytes ((q.ridx + units) % 2 ^ 64) 8) 8)
      .next { s with m }

/-- Error 8 of an address, with its alignment (R281). -/
def PkEnv.addr (e : PkEnv) (a al : Nat) : PkM Unit := e.check (!canonical a || a % al != 0) 8

/-- A guard address that a packet will need translates (R281). -/
def PkEnv.guard (e : PkEnv) (a : Nat) (need : Need) : PkM Unit := do let _ ← e.runs need kindAtomic a 8 8; pure ()
def PkEnv.doneg (e : PkEnv) (a : Nat) : PkM Unit := if a = 0 then pure () else e.guard a needRW

def execPad (q : Nat) (s : State) : Host.Outcome State Fault Refusal := consume s q 0 (fun _ _ => pure {})

def execLaunch (q : Nat) (s : State) : Host.Outcome State Fault Refusal :=
  consume s q 1 (fun e p => do
    let lrec := natAt p.bytes 8 8
    let doneg := natAt p.bytes 0x10 8
    e.check (!zeroFrom p.bytes 0x18 0x40) 4
    e.addr lrec 64
    e.addr doneg 8
    e.doneg doneg
    let l ← e.launch lrec p.id p.q.ridx doneg p.cls
    if l.nxf != 0 then let _ ← e.xforms l
    let m ← get
    -- a launch's fetches and loads follow what came before it (R207, R279)
    set { (m.dropData e.c).dropCode e.c with launches := put m.launches m.nextId l, nextId := m.nextId + 1 }
    pure { start := some (.launch m.nextId, doneg) })

def execCopy (q : Nat) (s : State) : Host.Outcome State Fault Refusal :=
  consume s q 3 (fun e p => do
    let w := fun (o : Nat) => natAt p.bytes o 8
    e.check (w 0x18 = 0 || decide (2 ^ 40 < w 0x18)) 3
    e.check (!zeroFrom p.bytes 0x28 0x40) 4
    e.addr (w 8) 1
    e.addr (w 0x10) 1
    e.addr (w 0x20) 8
    e.doneg (w 0x20)
    let m ← get
    let op : EngOp := { ctx := e.c, block := 0, wave := 0, half := false, core := Config.cores, queue := false
                        kind := .packet p.id p.q.ridx (w 8) (w 0x10) (w 0x18), target := .none, seq := 0, due := 0 }
    set { m with ops := put m.ops m.nextId op, nextId := m.nextId + 1 }
    pure { start := some (.copy m.nextId, w 0x20) })

def execWaitguard (q : Nat) (s : State) : Host.Outcome State Fault Refusal :=
  consume s q 4 (fun e p => do
    let a := natAt p.bytes 8 8
    e.check (!zeroFrom p.bytes 0x18 0x40) 4
    e.addr a 8
    e.guard a needR
    pure { wait := some (a, natAt p.bytes 0x10 8) })

def execSignal (q : Nat) (s : State) : Host.Outcome State Fault Refusal :=
  consume s q 5 (fun e p => do
    let a := natAt p.bytes 8 8
    e.check (!zeroFrom p.bytes 0x10 0x40) 4
    e.addr a 8
    e.bump a
    pure {})

/-- The guard has reached its version: the context's caches are dropped and the queue goes on (R279, R207). -/
def execWaitguardRelease (q : Nat) (s : State) : Host.Outcome State Fault Refusal :=
  match lookup s.m.queues q with
  | none => .next s
  | some x =>
    match x.wait with
    | none => .next s
    | some (a, v) =>
      .next { s with m := runPk s.mgmt s.m x.ctx (fun code m =>
          haltQueue s.mgmt { m with queues := upd m.queues q (fun (y : Queue) => { y with wait := none }) } q code ((x.ridx + (2 ^ 64 - 1)) % 2 ^ 64) true) (fun e => do
        let n ← e.readAs needR kindAtomic a 8 8
        if bytesNat n < v then throw PStop.idle
        modify (fun m => { (m.dropData e.c).dropCode e.c with
          queues := upd m.queues q (fun (y : Queue) => { y with wait := none }) })) }

/-! ## The COPY packet (R215, R279) -/

/-- One chunk of a COPY, or its completion once every chunk has moved. -/
def packetChunk (g : Mgmt) (m : Mach) (id : Nat) (o : EngOp) (qid pkt src dst len : Nat) : Mach :=
  let drop : Mach → Mach := fun m => { m with ops := del m.ops id }
  runPk g m o.ctx (fun _ m => haltQueue g ((drop m).dropPkt qid pkt) qid 10 pkt true)
    (fun e => do
      let off := 4096 * o.chunk
      if off < len then
        let n := min 4096 (len - off)
        let rd ← e.runs needR kindEngine (src + off) n 10
        let wr ← e.runs needW kindEngine (dst + off) n 10
        let m ← get
        if m.poisonedRuns rd then throw PStop.poison
        let (data, m) := m.engineRead o.core e.c rd
        set ((m.engineWrite o.core e.c wr data).updOp id (fun (o : EngOp) => { o with started := true, chunk := o.chunk + 1 }))
      if len ≤ off + 4096 then
        let m ← get
        e.finish qid pkt (m.donegOf qid pkt)
        modify drop)

/-- Moves one chunk of a copy or gather (R215, R279). -/
def execEngineChunk (op : Nat) (s : State) : Host.Outcome State Fault Refusal :=
  match lookup s.m.ops op with
  | none => .next s
  | some o =>
    match o.kind, s.m.ctx? o.ctx with
    | .packet q pkt src dst len, some x =>
      if s.m.running x then .next { s with m := packetChunk s.mgmt s.m op o q pkt src dst len } else .next s
    | _, _ => engineChunk op s

/-! ## Completion of launches (R198) -/

/-- The last block has ended and no escrow entry names the launch. -/
def Mach.launchDone (m : Mach) (l : Nat) (x : Launch) : Bool :=
  x.ended == x.blocks && !m.escrow.any (fun e => e.launch == l || some e.launch == x.lead)

def execLaunchComplete (l : Nat) (s : State) : Host.Outcome State Fault Refusal :=
  match s.m.launch? l with
  | none => .next s
  | some x =>
    if !s.m.launchDone l x then .next s else
    .next { s with m := runPk s.mgmt s.m x.ctx (fun code m => haltQueue s.mgmt (Mach.dropPkt { m with launches := del m.launches l } x.queue x.pkt) x.queue code x.pkt true) (fun e => do
      match x.task with
      | none => e.finish x.queue x.pkt x.doneg
      | some (ts, t) => modify (fun m => { m.dropData e.c with
          tsets := upd m.tsets ts (fun (y : TaskSet) =>
            { y with tasks := y.tasks.modify t (fun (k : Task) => { k with launch := none }) }) })
      modify (fun m => { m with launches := del m.launches l })) }

end Sys2Proof.Machine
end

