-- ==== Sys2Proof/Machine/Guards.lean ====
section
/-!
DEFINITION. Guards and bindings (spec/08_memory_isa.md R227 to R229; spec/07_ordering.md R191, R193 to R196;
spec/09_progress.md R255).
-/

namespace Sys2Proof.Machine

/-- The purse region, which the H9 binds to PGUARD (R184). -/
def Ctx.purse (x : Ctx) : List Binding :=
  if x.pcount = 0 then [] else [{ base := x.pbase, len := x.pcount * 2 ^ x.psize, guard := x.pguard }]

/-- The regions bound to a guard (R193). -/
def Ctx.regions (x : Ctx) (guard : Nat) : List Binding := (x.binds ++ x.purse).filter (fun b => b.guard == guard)

def inRegions (l : List Binding) (a n : Nat) : Bool := l.any (fun b => meets a n b.base b.len)

/-- A range lies in global memory: canonical, and in no aperture (R25). -/
def Ctx.globalRange (x : Ctx) (a n : Nat) : Bool :=
  decide (a + n ≤ 2 ^ 64) && canonical a && canonical (a + n - 1) && (decide (a < 2 ^ 63) == decide (a + n - 1 < 2 ^ 63))
    && !meets a n x.spbase (2 ^ 32) && !meets a n x.stkbase (2 ^ 34)

/-- The status of `gbind.bind` (R227). -/
def Ctx.bindStatus (x : Ctx) (base len guard : Nat) : Nat :=
  if base % 128 != 0 || len % 128 != 0 || len = 0 || decide (2 ^ 40 < len) || !x.globalRange base len || !x.globalRange guard 8
      || guard % 8 != 0 || inRegions (x.binds ++ x.purse ++ [({ base := base, len := len, guard := guard } : Binding)]) guard 8 then 3
  else if 256 ≤ x.binds.length then 1
  else if inRegions (x.binds ++ x.purse) base len then 2
  else 0

/-- The halves with lanes: `gbind` and the engine commands execute once for each (R214, R227). -/
def Wave.busyHalves (w : Wave) : List Bool := w.groups.filter w.execs

/-- A register of each half that receives a status. -/
def execGbindBind (d a b c : BitVec 7) (s : State) : Host.Outcome State Fault Refusal :=
  withCur (fun e =>
    let reg := fun (p : Bool) (r : BitVec 7) => (e.w.getS p r.toNat).toNat
    let r := e.w.busyHalves.foldl (fun (r : Mach × Wave) p =>
      let x := (r.1.ctx? e.w.ctx).getD e.x
      let st := x.bindStatus (reg p a) (reg p b) (reg p c)
      let m := if st = 0 then r.1.updCtx e.w.ctx (fun x =>
          { x with binds := x.binds ++ [{ base := reg p a, len := reg p b, guard := reg p c }] }) else r.1
      (m, r.2.setS p d.toNat (w64 st))) (e.m, e.w)
    .next r.1 { r.2 with pc := e.w.pc + 8 }) s

/-- `gbind.unbind`: the wave's stores to the region are performed at home first (R227). -/
def execGbindUnbind (d a : BitVec 7) (s : State) : Host.Outcome State Fault Refusal :=
  withCur (fun e =>
    let base := fun (p : Bool) => (e.w.getS p a.toNat).toNat
    let mine := fun (p : Bool) => e.x.binds.filter (fun b => b.base == base p)
    let ps := e.w.busyHalves
    if ps.any (fun p => !e.released (some p) .device true (inRegions (mine p))) then e.halt .room else
    let r := ps.foldl (fun (r : Mach × Wave) p =>
      let x := (r.1.ctx? e.w.ctx).getD e.x
      if x.binds.any (fun b => b.base == base p) then
        ((r.1.releaseTo e.w.ctx .device).updCtx e.w.ctx (fun x => { x with binds := x.binds.filter (fun b => b.base != base p) }),
          r.2.setS p d.toNat 0)
      else (r.1, r.2.setS p d.toNat 4)) (e.m, e.w)
    .next r.1 { r.2 with pc := e.w.pc + 8 }) s

/-! ## gacq and grel -/

def inPages (l : List Binding) (pages : List Nat) (line : Nat) : Bool :=
  let o := line * 128 % 65536
  pages.any (fun p => l.any (fun b => meets (p * 65536 + o) 128 (b.base % 2 ^ 57) b.len))

/-- Invalidates the lines of some regions at a scope (R191, R195). -/
def Mach.invalidateIn (m : Mach) (core c : Nat) (sc : Scope) (l : List Binding) : Mach :=
  let l1 : L1Line → Bool := fun x => x.core == core && x.ctx == c && inPages l x.vpages x.line
  let rdc : RdcLine → Bool := fun x => x.span == spanOfCore core && x.ctx == c && inPages l x.vpages x.line
  match sc with
  | .wave | .block => m
  | .cell | .span => m.l1Drop l1
  | .device | .system => (m.l1Drop l1).rdcDrop rdc

def execGacq (sc : Scope) (d a : BitVec 7) (s : State) : Host.Outcome State Fault Refusal :=
  withCur (fun e =>
    let g := fun (p : Bool) => (e.w.getS p a.toNat).toNat
    e.homeOp 8 8 8 needRW kindAtomic g e.w.passes none (fun m w p pa =>
      (m.invalidateIn w.core w.ctx sc (e.x.regions (g p)), w.setS p d.toNat (w64 (m.homeN pa 8))))) s

def execGacqAll (sc : Scope) (s : State) : Host.Outcome State Fault Refusal :=
  withCur (fun e => .next (e.m.invalidateAll e.w.core e.w.ctx sc) { e.w with pc := e.w.pc + 8 }) s

/-- `grel` (R194): it waits, performs, and then increments. -/
def execGrel (sc : Scope) (d a : BitVec 7) (s : State) : Host.Outcome State Fault Refusal :=
  withCur (fun e =>
    let g := fun (p : Bool) => (e.w.getS p a.toNat).toNat
    let ps := e.w.passes
    let ready := if ps.all (fun p => e.released (some p) sc true (inRegions (e.x.regions (g p)))) then none else some .room
    e.homeOp 8 8 8 needRW kindAtomic g ps ready (fun m w p pa =>
      let m := m.releaseTo w.ctx sc
      let v := (m.homeN pa 8 + 1) % 2 ^ 64
      (m.homeWr pa 8 v, w.setS p d.toNat (w64 v)))) s

def execGrelAll (sc : Scope) (s : State) : Host.Outcome State Fault Refusal :=
  withCur (fun e =>
    if e.w.passes.any (fun p => !e.released (some p) sc true (fun _ _ => true)) then e.halt .room
    else .next (e.m.releaseTo e.w.ctx sc) { e.w with pc := e.w.pc + 8 }) s

/-! ## gwait -/

/-- The versions that a wave still waits for: a word that met its comparison while the wave was held is met for good
(R193, R229; `State.ticked` takes it out). -/
def Wave.owedVersions (w : Wave) (m : Mach) (l : List (Nat × Nat)) : List (Nat × Nat) :=
  l.filter (fun x => decide (m.homeN x.1 8 < x.2) && (match w.hold with | .wait _ (.gwait k _) => k.contains x | _ => true))

/-- `gwait` (R229, R255). -/
def execGwait (a b : BitVec 7) (s : State) : Host.Outcome State Fault Refusal :=
  withCur (fun e =>
    let w := e.w
    let g := fun (p : Bool) => (w.getS p a.toNat).toNat
    let v := fun (p : Bool) => (w.getS p b.toNat).toNat
    let ps := w.passes
    match e.homeCauses 0 8 8 g ps with
    | some t => t
    | none =>
      let (l, m) := e.homes e.m needRW g ps
      match l.findSome? (fun x => match x.2 with | .absent va lv => some (va, lv) | _ => none) with
      | some (va, lv) => e.stall m va lv kindAtomic
      | none =>
        if l.any (fun x => match x.2 with | .at pa => olderMeets w.acc false (g x.1) pa 8 | _ => false) then e.halt .room
        else if l.any (fun x => match x.2 with | .at pa => m.poisoned pa 8 | _ => false) then .fatal m w 0x52 0 else
        let owes := w.owedVersions m (l.filterMap (fun x => match x.2 with | .at pa => some (pa, v x.1) | _ => none))
        let bad := fun (p : Bool) => if l.any (fun x => x.1 == p && x.2 == .perm) then (w.half p).exec else 0
        if !owes.isEmpty then
          if (frameOf w.stack).any (e.b.eligible w) then
            match w.push { rpc := w.pc, mask := w.hwMask } with
            | none => e.overflow
            | some y => (y.resumePath e.b 1).out m (fun _ => .hold m w (.gwait owes false))
          else .hold m w (.gwait owes false)
        else if l.any (fun x => x.2 == .perm) then permitAfter w.pc m w 8 (g false) (g true) (bad false) (bad true)
        else .next m { w with pc := w.pc + 8 }) s

end Sys2Proof.Machine
end

