-- ==== Sys2Proof/Machine/Tlb.lean ====
section
/-!
DEFINITION. `tlbinv` (spec/11_isolation.md R312; spec/07_ordering.md R208, R209; R301) and the replay of the
escrow log (spec/12_recovery.md R329, R330).
-/

namespace Sys2Proof.Machine

/-- The 64 KiB pages that a `tlbinv` covers: a run of them, or all. -/
inductive Cover where
  | run (page n : Nat)
  | all
  deriving DecidableEq, Repr

def Cover.has (v : Cover) (page : Nat) : Bool :=
  match v with
  | .all => true
  | .run p n => decide ((page + 2 ^ 41 - p) % 2 ^ 41 < n)

/-- It covers one of the `n` pages from `page`. -/
def Cover.meets (v : Cover) (page n : Nat) : Bool :=
  match v with
  | .all => true
  | .run p k => decide (0 < k) && (decide ((page + 2 ^ 41 - p) % 2 ^ 41 < k) || decide ((p + 2 ^ 41 - page) % 2 ^ 41 < n))

/-! ## Replay (R329, R330) -/

/-- Writes a lane of a destination where its line stands: the register file, or the image (R330). -/
def Mach.setLane (m : Mach) (id : Nat) (p : Bool) (l : Nat) (t : Ty) (d : Dst) (x : Nat) : Mach :=
  match m.wave? id with
  | none => m
  | some w =>
    let lines := match d with | .vec r => w.linesFor (useV t r) | .sca r => w.linesFor (.s r.toNat)
    let v := (m.takeLines w lines).put p l t d x
    -- the lines that the image holds stay there
    (m.writeLines v (lines.filter w.missing.contains)).putWave id { v with missing := w.missing }

/-- The hold of a wave ends when no held-load entry of it is left (R330). -/
def Mach.heldOver (m : Mach) (id : Nat) : Mach :=
  let held := m.escrow.any (fun e => e.wave == id && (match e.kind with | .held .. => true | _ => false))
  if held then m else
  match m.wave? id with
  | none => m
  | some w =>
    if !w.heldLoad then m else
    (m.clearHeld w).putWave id { w with heldLoad := false }

/-- Performs an entry of the log whose line translates: the machine, and whether poisoned bytes were read. -/
def Mach.replay (m : Mach) (y : Escrow) (pa : Nat) (comp : Option (Nat × Nat × Nat)) : Mach × Bool :=
  let line := pa - pa % 128
  let page := y.vline / 512
  let piece := fun (o n : Nat) => ({ pa := line + o, vpage := page, n, comp } : Piece)
  let wide := scopeWide y.scope
  match y.kind with
  | .store bs =>
    let m := if wide && isMem line then m.homeTouch y.core y.ctx (lineOf line) false comp else m
    let m := bs.foldl (fun (m : Mach) (b : Nat × Byte) => m.writePiece y.core y.ctx wide (piece b.1 1) b.2.toNat) m
    (if wide then m.clearPoison (bs.map (fun b => (line + b.1, 1))) else m, false)
  | .red op t rs =>
    let m := if isMem line then m.homeTouch y.core y.ctx (lineOf line) true comp else m
    rs.foldl (fun (r : Mach × Bool) (x : LaneRec) =>
      let p := piece x.off (Ty.size t)
      let (v, bad, m) := r.1.readPiece y.core y.ctx true p
      (m.writePiece y.core y.ctx true p (atomFn op t v x.b.toNat x.c.toNat), r.2 || bad)) (m, false)
  | .held d t _ ls =>
    let m := if wide && isMem line then m.wideLine y.core y.ctx (lineOf line) comp else m
    ls.foldl (fun (r : Mach × Bool) (x : Nat × Nat) =>
      let (v, bad, m) := r.1.readPiece y.core y.ctx wide (piece x.2 (Ty.size t))
      (m.setLane y.wave y.half x.1 t d v, r.2 || bad)) (m, false)

def EscKind.need : EscKind → Need
  | .store _ => needW
  | .red .. => needW
  | .held .. => needR

def EscKind.fault : EscKind → BitVec 5
  | .store _ => kindWrite
  | .red .. => kindAtomic
  | .held .. => kindRead

def Escrow.same (a b : Escrow) : Bool := a.core == b.core && a.seq == b.seq

/-- Replays one entry. A page that is still absent makes a new record; a permission outcome resets the context
(R329). -/
def replayOne (g : Mgmt) (m : Mach) (y : Escrow) : Mach :=
  if !m.escrow.any (fun z => z.same y) then m else
  match xlate g (m.serve y.core y.launch) y.ctx (y.vline * 128) y.kind.need with
  | (.absent lv, m) => m.absent y.ctx (y.vline * 128) lv y.kind.fault
  | (.perm _, m) => contextReset g m y.ctx 0x53 0
  | (.ok pa leaf _, m) =>
    let (m, bad) := m.replay y pa (compOf y.ctx leaf)
    let m := { m with escrow := m.escrow.filter (fun z => !z.same y) }
    if bad then contextReset g m y.ctx 0x52 0 else m.heldOver y.wave

/-- Replays the entries of the covered pages, in SEQ order (R312, R329). -/
def replayAll (g : Mgmt) (m : Mach) (c : Nat) (v : Cover) : Mach :=
  (m.escrow.filter (fun y => y.ctx == c && v.has (y.vline / 512))).foldl (replayOne g) m

/-! ## tlbinv -/

/-- An access begun under a dropped entry has not been performed (R312). -/
def Mach.begun (m : Mach) (c : Nat) (v : Cover) : Bool :=
  m.waves.any (fun (x : Nat × Wave) => x.2.ctx == c && x.2.acc.any (fun a => a.known && !a.held &&
    a.lanes.any (fun y => !y.done && y.space == .global && v.has (pageOf (y.va % 2 ^ 57)))))

/-- Entries of the covered pages lie in a log that is saved: their replay resumes with the function's slice (R306, R329). -/
def Mach.owes (m : Mach) (c : Nat) (v : Cover) : Bool := !m.duty c && m.escrow.any (fun y => y.ctx == c && v.has (y.vline / 512))

def Mach.dropTlb (m : Mach) (c : Nat) (v : Cover) : Mach :=
  { m with tlb := m.tlb.filter (fun (t : TlbEnt) =>
      !(t.ctx == c && (v.has t.vpage || (!bit t.leaf 1 && v.meets t.vpage (2 ^ (levelShift t.level - 16)))))) }

/-- The translation of a pinned line still leads to it. -/
def pinHolds (g : Mgmt) (m : Mach) (x : Ctx) (p : Pin) : Bool :=
  match walk g m x (p.vpage * 65536) {} with
  | .ok pa _ _ => pageOf pa == p.line / 512
  | _ => false

/-- Held accesses whose pages are no longer pending walk again. -/
def Mach.unhold (m : Mach) (c : Nat) : Mach :=
  match m.ctx? c with
  | none => m
  | some x =>
    let free : Access → Bool := fun a => !a.lanes.any (fun y => y.space == .global && !y.done && x.pending.any (fun p => p.page == pageOf (y.va % 2 ^ 57)))
    let wave : Wave → Wave := fun w => if w.ctx != c then w else { w with acc := w.acc.map (fun a => if a.held && free a then { a with held := false } else a) }
    { m with waves := m.waves.map (fun (w : Nat × Wave) => (w.1, wave w.2)) }

/-- What holds when a `tlbinv` of pages completes (R312). -/
def tlbinvDone (g : Mgmt) (m : Mach) (c : Nat) (v : Cover) (retry : Bool) : Mach :=
  let m := m.dropTlb c v
  let m := m.l1Drop (fun (l : L1Line) => l.ctx == c && l.vpages.any v.has)
  let m := m.rdcDrop (fun (l : RdcLine) => l.ctx == c && l.vpages.any v.has)
  let m := match m.ctx? c with
    | some x => { m with pins := m.pins.filter (fun (p : Pin) => !(p.ctx == c && v.has p.vpage) || pinHolds g m x p) }
    | none => m
  if !retry then m else
  let m := m.updCtx c (fun x => { x with pending := x.pending.filter (fun p => !v.has p.page) })
  (replayAll g m c v).unhold c

/-- The page operands of `tlbinv.range`: what they cover, none when status 2 (R312). -/
def rangeCover (addr n : Nat) : Option Cover :=
  if addr % 65536 != 0 || !canonical addr || n = 0 || decide (2 ^ 32 < n) then none else some (.run (pageOf (addr % 2 ^ 57)) n)

/-- One request: its target context, and what it does. -/
inductive InvReq where
  | pages (v : Option Cover) (retry : Bool)
  | handles (idx : Option Nat)
  deriving DecidableEq, Repr

/-- Performs a request: none while it waits, else its status. -/
def tlbinv (g : Mgmt) (m : Mach) (part ctxid : Nat) (q : InvReq) : Option Nat × Mach :=
  let c := ctxKey part ctxid
  if 65536 ≤ ctxid || (m.ctx? c).isNone then (some 1, m) else
  match q with
  | .pages none _ => (some 2, m)
  | .pages (some v) retry =>
    let m := m.dropTlb c v
    if m.begun c v || (retry && m.owes c v) then (none, m) else (some 0, tlbinvDone g m c v retry)
  | .handles i => (some 0, { m with hcache := m.hcache.filter (fun (h : HCache) => !(h.ctx == c && (match i with | some n => h.idx == n | none => true))) })

/-- The instruction, once for each half with lanes (R310, R311). -/
def Env.tlbinv (e : Env) (d c : BitVec 7) (retry : Bool) (q : Bool → InvReq) : WOut :=
  let ps := e.w.busyHalves
  let target := fun (p : Bool) => (e.w.getS p c.toNat).toNat
  let denied := fun (p : Bool) => ps.contains p && !e.x.priv && (retry || target p != e.x.ctxid)
  if denied false || denied true then
    e.before 0x91 (if denied false then e.w.lo.exec else 0) (if denied true then e.w.hi.exec else 0)
  else
    let r := ps.foldl (fun (r : Bool × Mach × List (Bool × Nat)) p =>
      if r.1 then r else
      match Machine.tlbinv e.g r.2.1 e.x.part (target p) (q p) with
      | (none, m) => (true, m, r.2.2)
      | (some st, m) => (false, m, r.2.2 ++ [(p, st)])) (false, e.m, [])
    if r.1 then .hold r.2.1 e.w .room
    else match r.2.1.wave? e.id with
      | none => .gone r.2.1
      | some _ => .next r.2.1 { r.2.2.foldl (fun (w : Wave) x => w.setS x.1 d.toNat (w64 x.2)) e.w with pc := e.w.pc + 8 }

def execTlbinvRange (retry : Bool) (d a b c : BitVec 7) (s : State) : Host.Outcome State Fault Refusal :=
  withCur (fun e => e.tlbinv d c retry (fun p => .pages (rangeCover (e.w.getS p a.toNat).toNat (e.w.getS p b.toNat).toNat) retry)) s

def execTlbinvCtx (retry : Bool) (d c : BitVec 7) (s : State) : Host.Outcome State Fault Refusal :=
  withCur (fun e => e.tlbinv d c retry (fun _ => .pages (some .all) retry)) s

def execTlbinvHnd (d a b c : BitVec 7) (s : State) : Host.Outcome State Fault Refusal :=
  withCur (fun e => e.tlbinv d c false (fun p =>
    .handles (if e.w.getS p b.toNat = 0 then some ((e.w.getS p a.toNat).toNat % 2 ^ 20) else none))) s

end Sys2Proof.Machine
end

