-- ==== Sys2Proof/Machine/System.lean ====
section
/-!
DEFINITION. Traps that a program takes, special registers and their windows (spec/12_recovery.md R331, R337 to
R340; spec/01_machine.md R22, R23), counters and `qrst` as instructions (spec/11_isolation.md R311 to R315),
and what the decoder makes of words that are no instruction (spec/02_encoding.md R54, R55, R57).
-/

namespace Sys2Proof.Machine

/-! ## trap, brk, svc -/

/-- Lanes of `exec` in each half. -/
def Wave.execOf (w : Wave) (p : Bool) : W64 := if w.groups.contains p then (w.half p).exec else 0

/-- A trap-after cause of the whole instruction. -/
def Env.raise (e : Env) (code : Nat) (n : Nat := 8) : WOut :=
  e.after e.m { e.w with pc := e.w.pc + w64 n } code (e.w.execOf false) (e.w.execOf true) n

def execTrap (n : BitVec 12) (s : State) : Host.Outcome State Fault Refusal :=
  withCur (fun e => if e.w.hwMask = 0 then e.ok e.w else e.raise (0x1000 + n.toNat)) s

/-- Like `trap`, it does nothing when `exec` is zero: of this group `brk` alone acts then (R15, R338; notes/assumptions/13.md). -/
def execTrapFatal (n : BitVec 12) (s : State) : Host.Outcome State Fault Refusal :=
  withCur (fun e => if e.w.hwMask = 0 then e.ok e.w else .fatal e.m e.w (0x1000 + n.toNat) e.w.pc) s

/-- `brk` raises even when `exec` is zero; with EMUENTRY zero it is a `nop` (R318, R338). -/
def execBrk (_n : W32) (s : State) : Host.Outcome State Fault Refusal := withCur (fun e => e.raise 0x40) s

def execSvc (_n : W32) (s : State) : Host.Outcome State Fault Refusal :=
  withCur (fun e => if e.w.hwMask = 0 then e.ok e.w else e.raise 0x41) s

/-! ## Special registers (R22) -/

/-- A counter as it is read (R307, R308): the events of the fabric and the links read zero without PRIV. -/
def Ctx.pmcRead (x : Ctx) (i : Nat) : W64 :=
  if decide (0x100 ≤ fld (mget 0 x.pmsel i).toNat 0 16) && decide (fld (mget 0 x.pmsel i).toNat 0 16 ≤ 0x101) && !x.priv then 0
  else (mget 0 x.pmc i).setWidth 64

/-- The value that `rdsr` reads; `LANEID` is read in lane l. -/
def Env.special64 (e : Env) (p : Bool) (l : Nat) (r : SReg) : W64 :=
  let h := e.w.half p
  match r with
  | .ccyc => e.m.ccyc e.w.core
  | .laneid => w64 l
  | .waveid => w64 h.waveid
  | .blockid => w64 e.b.blockid
  | .gridpos => w64 (e.l.gridpos e.b.blockid)
  | .wdecl => w64 (e.w.width.code + (if p then 4 else 0))
  | .fpctl => h.fpctl
  | .fpflag => h.fpflag
  | .trapcause => h.trapcause
  | .trapaddr => h.trapaddr
  | .skid => h.skid
  | .laneflt => h.laneflt
  | .emudepth => h.emudepth
  | .agelim => h.agelim
  | .lcnt => w64 e.w.lcnt
  | .scnt => w64 e.w.scnt
  | .wsrc => e.b.wsrc
  | .rsdepth => w64 e.w.stack.length
  | .qclass => w64 e.l.cls
  | .pmc n => e.x.pmcRead n.toNat
  | .pmsel n => mget 0 e.x.pmsel n.toNat

def execRdsr (d : Dst) (r : SReg) (s : State) : Host.Outcome State Fault Refusal :=
  withCur (fun e =>
    e.ok (e.w.passes.foldl (fun (w : Wave) p =>
      match d with
      | .sca n => w.setS p n.toNat (e.special64 p 0 r)
      | .vec n => (e.w.active p 0).foldl (fun (w : Wave) l => w.setV p n.toNat l ((e.special64 p l r).setWidth 32)) w) e.w)) s

/-- Bits of a selection register that are not reserved (R307). -/
def pmselBits : W64 := 0xC00000000000FFFF

/-- What `wrsr` leaves in the wave state of one half; reserved bits are ignored (R5, R22, R340). -/
def Half.wrsr (h : Half) (r : SReg) (x : W64) : Half :=
  match r with
  | .fpctl => { h with fpctl := x &&& 0x1F }
  | .fpflag => { h with fpflag := x &&& 0x3F }
  | .trapcause => { h with trapcause := x &&& 0xFFFF }
  | .trapaddr => { h with trapaddr := x }
  | .agelim => { h with agelim := if x &&& 0xFF = 0 then 1 else x &&& 0xFF }
  | _ => h

def execWrsr (r : SReg) (b : SC) (s : State) : Host.Outcome State Fault Refusal :=
  withCur (fun e =>
    let val := fun (p : Bool) => match b with | .sca n => e.w.getS p n.toNat | .con c => w64 (e.const p .b32 c)
    let w := e.w.passes.foldl (fun (w : Wave) p => w.updHalf p (fun h => h.wrsr r (val p))) e.w
    match r with
    | .pmsel n =>
      let m := e.w.passes.foldl (fun (m : Mach) p => m.updCtx e.w.ctx (fun x => { x with pmsel := mset 0 x.pmsel n.toNat (val p &&& pmselBits) })) e.m
      .next m { w with pc := w.pc + 8 }
    | _ => e.ok w) s

/-! ## Windows (R331, R340) -/

/-- The 8 bytes at any address through the fetch path: an unaligned address takes two words. -/
def Env.fetch8 (e : Env) (m : Mach) (a : W64) : Fetched :=
  let o := a.toNat % 8
  match fetchWord e.g m e.w.core e.w.ctx (a.toNat - o) with
  | .word x m =>
    if o = 0 then .word x m else
    match fetchWord e.g m e.w.core e.w.ctx ((a.toNat - o + 8) % 2 ^ 64) with
    | .word y m => .word ((x >>> (8 * o)) ||| (y <<< (64 - 8 * o))) m
    | r => r
  | r => r

/-- `ei0`, or `ei1`, of one half: `ei1` reads zero when X is 0 or the reason is 0. -/
def Env.ei (e : Env) (m : Mach) (p second : Bool) : Fetched :=
  let h := e.w.half p
  match e.fetch8 m h.trapaddr with
  | .word x m =>
    if !second then .word x m
    else if !bit x 54 || h.trapcause = 0x100 then .word 0 m
    else e.fetch8 m (h.trapaddr + 8)
  | r => r

/-- The windows of every pass, read together; an absent page holds the wave, and a permission outcome raises
`FETCH_PERM`. -/
def Env.eis (e : Env) (second : Bool) (k : Nat) (f : Env → List (Bool × W64) → WOut) : WOut :=
  let r := e.w.passes.foldl (fun (r : Mach × List (Bool × Fetched)) p =>
    let x := e.ei r.1 p second
    let m := match x with | .word _ m => m | .absent _ m => m | .perm m => m | .poison m => m
    (m, r.2 ++ [(p, x)])) (e.m, [])
  match r.2.findSome? (fun x => match x.2 with | .absent lv _ => some ((e.w.half x.1).trapaddr, lv) | _ => none) with
  | some (a, lv) => e.stall r.1 a.toNat lv kindExec
  | none =>
    if r.2.any (fun x => match x.2 with | .poison _ => true | _ => false) then .fatal r.1 e.w 0x52 0 else
    let bad := fun (p : Bool) => if r.2.any (fun x => x.1 == p && (match x.2 with | .perm _ => true | _ => false)) then e.w.activeMask p k else 0
    if r.2.any (fun x => match x.2 with | .perm _ => true | _ => false) then { e with m := r.1 }.before 3 (bad false) (bad true)
    else f { e with m := r.1 } (r.2.map (fun x => (x.1, match x.2 with | .word y _ => y | _ => 0)))

def Win.lo : Win → Nat
  | .wa => 32 | .wb => 24 | .wc => 16 | .wd => 40

/-- The register number n := f + o that a window names in one half. -/
def winReg (w : Win) (o : BitVec 2) (x : W64) : Nat := fld x.toNat (Win.lo w) 8 + o.toNat

/-- The registers that windows name must be readable: no outstanding access writes them, and their lines are
resident (R31, R320). -/
def Env.windowed (e : Env) (w : Win) (o : BitVec 2) (k : Nat) (use : Nat → Option Use) (f : Env → List (Bool × Nat) → WOut) : WOut :=
  e.eis false k (fun e l =>
    let regs := l.map (fun x => (x.1, winReg w o x.2))
    let us := regs.filterMap (fun x => use x.2)
    if us.any (fun u => e.w.acc.any (fun a => a.busy u) || e.m.followBusy e.id u) then e.halt .score
    else if us.any (fun u => (e.w.linesFor u).any e.w.missing.contains) then e.halt .fetch
    else f e regs)

def Wave.winV (w : Wave) (n : Nat) : Option Use := if n < 256 && n < w.allow then some (.v n) else none
def Wave.winS (w : Wave) (n : Nat) : Option Use := if n < 128 && n < w.sregs then some (.s n) else none
def winK (n : Nat) : Option Use := if 1 ≤ n && n < 16 then some (.k n) else none

/-- The mask that a window's number names; none beyond 0x10. -/
def winMask (n : Nat) : Option MX :=
  if n = 16 then some .exec else if n < 16 then some (.k (BitVec.ofNat 4 n)) else none

/-- RPC of the topmost trap entry, zero if none. -/
def Wave.trapRpc (w : Wave) : W64 := (w.stack.find? (fun (t : Entry) => t.kind == .trap)).elim 0 (fun t => t.rpc)

/-- Writes RPC of the topmost trap entry; another resume PC is not that of the wait part of a `bar.sync`. -/
def Wave.setTrapRpc (w : Wave) (x : W64) : Wave :=
  let x := x &&& ~~~7#64
  { w with stack := updFirst (fun (t : Entry) => t.kind == .trap) (fun t => { t with rpc := x, bw := t.bw && t.rpc == x }) w.stack }

/-- `rdsr` of a window (R340). -/
def execRdsrWindow (o : RdWin) (s : State) : Host.Outcome State Fault Refusal :=
  withCur (fun e =>
    match o with
    | .wv k d w o =>
      e.windowed w o k.toNat e.w.winV (fun e l =>
        e.ok (l.foldl (fun (w : Wave) x =>
          (e.w.active x.1 k.toNat).foldl (fun (w : Wave) l =>
            w.setV x.1 d.toNat l (if (e.w.winV x.2).isSome then e.w.getV x.1 x.2 l else 0)) w) e.w))
    | .ws d w o =>
      e.windowed w o 0 e.w.winS (fun e l =>
        e.ok (l.foldl (fun (w : Wave) x => w.setS x.1 d.toNat (if (e.w.winS x.2).isSome then e.w.getS x.1 x.2 else 0)) e.w))
    | .wk d w o =>
      e.windowed w o 0 winK (fun e l =>
        e.ok (l.foldl (fun (w : Wave) x => w.setMX x.1 d (match winMask x.2 with | some n => e.w.getMX x.1 n | none => 0)) e.w))
    | .ei0 d => e.eis false 0 (fun e l => e.ok (l.foldl (fun (w : Wave) x => w.setS x.1 d.toNat x.2) e.w))
    | .ei1 d => e.eis true 0 (fun e l => e.ok (l.foldl (fun (w : Wave) x => w.setS x.1 d.toNat x.2) e.w))
    | .rpc d => e.ok (e.w.passes.foldl (fun (w : Wave) p => w.setS p d.toNat e.w.trapRpc) e.w)) s

/-- `wrsr` to a window (R340). -/
def execWrsrWindow (o : WrWin) (s : State) : Host.Outcome State Fault Refusal :=
  withCur (fun e =>
    match o with
    | .wv k w b o =>
      e.windowed w o k.toNat e.w.winV (fun e l =>
        e.ok (l.foldl (fun (w : Wave) x =>
          if (e.w.winV x.2).isNone then w else
          (e.w.active x.1 k.toNat).foldl (fun (w : Wave) l => w.setV x.1 x.2 l (e.w.getV x.1 b.toNat l)) w) e.w))
    | .ws w b o =>
      e.windowed w o 0 e.w.winS (fun e l =>
        e.ok (l.foldl (fun (w : Wave) x => if (e.w.winS x.2).isNone then w else w.setS x.1 x.2 (e.w.getS x.1 b.toNat)) e.w))
    | .wk w b o =>
      e.windowed w o 0 winK (fun e l =>
        e.ok (l.foldl (fun (w : Wave) x => match winMask x.2 with | some n => w.setMX x.1 n (e.w.getMX x.1 b) | none => w) e.w))
    | .rpc b => e.ok (e.w.passes.foldl (fun (w : Wave) p => w.setTrapRpc (e.w.getS p b.toNat)) e.w)) s

/-! ## Counters and queues -/

/-- `pmrd`, once for each half with lanes (R311, R313). -/
def execPmrd (d : BitVec 7) (s : State) : Host.Outcome State Fault Refusal :=
  withCur (fun e =>
    e.ok (e.w.busyHalves.foldl (fun (w : Wave) p =>
      (List.range 8).foldl (fun (w : Wave) i => w.setS p (d.toNat + i) (e.x.pmcRead i)) w) e.w)) s

/-- CLR, STOP and START of a control word, in that order (R314). -/
def Ctx.pmctl (x : Ctx) (c : W64) : Ctx :=
  (List.range 8).foldl (fun (x : Ctx) i =>
    let x := if bit c i then { x with pmc := mset 0 x.pmc i 0 } else x
    let x := if bit c (8 + i) then { x with pmsel := mset 0 x.pmsel i (setBit (mget 0 x.pmsel i) 63 false) } else x
    if bit c (16 + i) then { x with pmsel := mset 0 x.pmsel i (setBit (mget 0 x.pmsel i) 63 true) } else x) x

def execPmctl (a : BitVec 7) (s : State) : Host.Outcome State Fault Refusal :=
  withCur (fun e =>
    .next (e.w.busyHalves.foldl (fun (m : Mach) p => m.updCtx e.w.ctx (fun x => x.pmctl (e.w.getS p a.toNat))) e.m)
      { e.w with pc := e.w.pc + 8 }) s

/-- The registered queue of the partition whose descriptor is at an address: the own context's first. -/
def Mach.queueAt (m : Mach) (part c desc : Nat) (only : Option Nat) : Option (Nat × Queue) :=
  let here : Nat × Queue → Bool := fun q => q.2.part == part && q.2.desc == desc && (match only with | some vf => q.2.vf == vf | none => true)
  (m.queues.find? (fun q => here q && q.2.ctx == c)) <|> (m.queues.find? here)

/-- Performs a `qrst` whose queue has nothing started (R315). -/
def qrstNow (g : Mgmt) (m : Mach) (id : Nat) (q : Queue) (ridx : Nat) : Mach :=
  let m := qWrite g m q 0x18 8 ridx
  let m := qWrite g m q 0x20 4 0
  let m := qWrite g m q 0x28 8 0
  { m with queues := upd m.queues id (fun (q : Queue) => { q with ridx, halted := false }) }

/-- `qrst` (R310, R315); it waits until every started packet of the queue is complete. -/
def execQrst (d a b : BitVec 7) (s : State) : Host.Outcome State Fault Refusal :=
  withCur (fun e =>
    let ps := e.w.busyHalves
    if !ps.isEmpty && !e.x.priv then e.beforeAll 0x91 0 else
    let at_ := fun (p : Bool) => e.m.queueAt e.x.part e.w.ctx (e.w.getS p a.toNat).toNat none
    match ps.findSome? (fun p => match at_ p with | some (id, q) => if !q.started.isEmpty || q.wait.isSome then some id else none | none => none) with
    | some id => e.halt (.qrst id)
    | none =>
      let r := ps.foldl (fun (r : Mach × Wave) p =>
        match at_ p with
        | none => (r.1, r.2.setS p d.toNat 1)
        | some (id, q) => (qrstNow e.g r.1 id q (e.w.getS p b.toNat).toNat, r.2.setS p d.toNat 0)) (e.m, e.w)
      .next r.1 { r.2 with pc := e.w.pc + 8 }) s

/-! ## Words that are no instruction (R54, R55, R57) -/

def execZeroWord (s : State) : Host.Outcome State Fault Refusal := withCur (fun e => e.beforeAll 1 0) s

/-- The K field of a word: that of the base form and the X-form, or of the M-form (R44, R49). The I-form and the
J-form have none (R48), and for an OP that is no instruction, or that a set would define, it is 0
(notes/assumptions/41.md). -/
def predField (x : W64) : Nat :=
  let op := fld x.toNat 56 8
  if (0x70 ≤ op && op ≤ 0x74) || op == 0x78 then fld x.toNat 4 4
  else if (opX (BitVec.ofNat 8 op)).isNone || (0x60 ≤ op && op ≤ 0x64) || op == 0x66 || op == 0x28
      || [0x77, 0x84, 0xB2, 0xB3, 0xC0, 0xC3, 0xC4].contains op then 0
  else fld x.toNat 12 4

/-- An undefined instruction calls `emulate()` (R54, R331). -/
def Env.emulated (e : Env) (r : Nat) : WOut :=
  let n := if bit e.m.word 54 then 16 else 8
  let k := predField e.m.word
  e.after e.m { e.w with pc := e.w.pc + w64 n } (0x100 + r) (e.w.activeMask false k) (if e.w.groups.contains true then e.w.activeMask true k else 0) n

def Reason.num : Reason → Nat
  | .notOp => 0 | .xBit => 1 | .field => 2 | .bound => 3 | .unit => 4 | .microcode => 5

def execEmulate (r : Reason) (s : State) : Host.Outcome State Fault Refusal := withCur (fun e => e.emulated (Reason.num r)) s

/-- The reason that tests 3 to 6 give a microcoded instruction, or 0 (R54, R57). -/
def Env.ucodeReason (e : Env) (u : Ucode) : Nat :=
  let ext := if !bit e.m.word 54 then 0 else match e.fetch8 e.m (e.w.pc + 8) with | .word x _ => x | _ => 0
  Config.ucodeTest u.image e.m.word ext e.w.allow e.w.sregs e.x.unitdis

/-- OP 0xE0 to 0xEF (R57, R361): reason 5 when no loaded set provides it, reasons 1 to 4 by the set's definitions; what one
that passes does is in the set alone. -/
def execMicrocodeOp (op : BitVec 4) (s : State) : Host.Outcome State Fault Refusal :=
  match s.env? with
  | some e =>
    match e.x.ucode with
    | some u =>
      if !e.x.provides e.l.ucode op then withCur (fun e => e.emulated 5) s
      else if 1 ≤ e.ucodeReason u && e.ucodeReason u ≤ 4 then withCur (fun e => e.emulated (e.ucodeReason u)) s
      else .refused .microcode
    | none => withCur (fun e => e.emulated 5) s
  | none => withCur (fun e => e.emulated 5) s

end Sys2Proof.Machine
end

