-- ==== Sys2Proof/Machine/Control.lean ====
section
/-!
DEFINITION. The control page of a virtual function (spec/11_isolation.md R316) and the registration of contexts
(R298, R309; spec/14_system.md R361; spec/05_matrix.md R141). A request that must wait leaves STATUS busy and is tried
again by the same event.
-/

namespace Sys2Proof.Machine

/-! ## Requests -/

/-- The function is one of the NVF that a partition has, an unused one too (R302), so it has a control page. -/
def Mgmt.hasVf (g : Mgmt) (part vf : Nat) : Bool :=
  g.booted && decide (part < 8) && decide (vf < (g.entry part).nvf)

/-- Writes OP and the arguments of a request; those that a request does not read keep their values. -/
def Mach.ask (m : Mach) (part vf : Nat) (op a0 a1 a2 a3 : W64) : Mach :=
  m.putVf part vf { m.vf part vf with op, arg0 := a0, arg1 := a1, arg2 := a2, arg3 := a3 }

/-- STATUS of a request that is done. -/
def Mach.answer (m : Mach) (part vf st : Nat) : Mach :=
  { m.putVf part vf { m.vf part vf with status := w64 st } with changes := m.changes + 1 }

/-- STATUS of a request that waits. -/
def Mach.busy (m : Mach) (part vf : Nat) : Mach := m.putVf part vf { m.vf part vf with status := w64 (2 ^ 63) }

/-- An OP or an ARG3 that no instruction defines. -/
def undefinedReq (op a3 : W64) : Bool :=
  op = 0 || decide (7 < op.toNat) ||
    (if op = 1 then
      a3 &&& ~~~0x38#64 != 0 || fld a3.toNat 3 2 == 3 || (fld a3.toNat 3 2 == 2 && bit a3 5)
    else a3 != 0)

/-- The function's context with this CTXID. -/
def Mach.own (m : Mach) (part vf : Nat) (id : W64) : Option Nat :=
  if 65536 ≤ id.toNat then none else
  match m.ctx? (ctxKey part id.toNat) with
  | some x => if x.vf = vf then some (ctxKey part id.toNat) else none
  | none => none

/-- A request of a function's driver. -/
def control (s : State) (part vf : Nat) (op a0 a1 a2 a3 : W64) (f : Mach → Mach) : Host.Outcome State Fault Refusal :=
  if !s.mgmt.hasVf part vf then .next s
  else if undefinedReq op a3 then .next { s with m := (s.m.ask part vf op a0 a1 a2 a3).answer part vf 0xFF }
  else .next { s with m := f (s.m.ask part vf op a0 a1 a2 a3) }

def execCtlTlbinv (part vf : Nat) (a0 a1 a2 a3 : W64) (s : State) : Host.Outcome State Fault Refusal :=
  control s part vf 1 a0 a1 a2 a3 (fun m =>
    match m.own part vf a2 with
    | none => m.answer part vf 1
    | some _ =>
      let req : InvReq :=
        match fld a3.toNat 3 2 with
        | 0 => .pages (rangeCover a0.toNat a1.toNat) (bit a3 5)
        | 1 => .pages (some .all) (bit a3 5)
        | _ => .handles (if a1 = 0 then some (a0.toNat % 2 ^ 20) else none)
      match tlbinv s.mgmt m part a2.toNat req with
      | (none, m) => m.busy part vf
      | (some st, m) => m.answer part vf st)

def execCtlQrst (part vf : Nat) (a0 a1 : W64) (s : State) : Host.Outcome State Fault Refusal :=
  control s part vf 2 a0 a1 (s.m.vf part vf).arg2 0 (fun m =>
    match m.queues.find? (fun (q : Nat × Queue) => q.2.part == part && q.2.vf == vf && q.2.desc == a0.toNat) with
    | none => m.answer part vf 1
    | some (id, q) =>
      if !q.started.isEmpty || q.wait.isSome then m.busy part vf
      else (qrstNow s.mgmt m id q a1.toNat).answer part vf 0)

def execCtlPmctl (part vf : Nat) (a0 a2 : W64) (s : State) : Host.Outcome State Fault Refusal :=
  control s part vf 3 a0 (s.m.vf part vf).arg1 a2 0 (fun m =>
    match m.own part vf a2 with
    | none => m.answer part vf 1
    | some c => (m.updCtx c (fun x => x.pmctl a0)).answer part vf 0)

/-! ## Registration (R298) -/

/-- A context as its descriptor gives it. -/
def Ctx.parse (part vf desc : Nat) (d : List Byte) : Ctx where
  part := part
  vf := vf
  ctxid := natAt d 0x84 2
  desc := desc
  ptroot := natAt d 0 8
  spbase := natAt d 8 8
  stkbase := natAt d 0x10 8
  imgbase := natAt d 0x18 8
  arrbase := natAt d 0x28 8
  pbase := natAt d 0x30 8
  pguard := natAt d 0x38 8
  psize := natAt d 0x40 1
  pcount := natAt d 0x44 4
  tcbbase := natAt d 0x48 8
  rpbase := natAt d 0x50 8
  rpsize := natAt d 0x58 8
  htab := natAt d 0x60 8
  hcount := natAt d 0x68 4
  pinlim := natAt d 0x6C 4
  huff := natAt d 0x70 8
  fltring := natAt d 0x78 8
  unitdis := BitVec.ofNat 16 (natAt d 0x80 2)
  priv := fld (natAt d 0x82 1) 0 1 == 1
  debug := fld (natAt d 0x82 1) 1 2
  ucset := natAt d 0x88 8

/-- Alignments and ranges of the fields (R25, R174, R184, R293, R297, R298, R335). -/
def Ctx.ranges (x : Ctx) : Bool :=
  x.spbase % 2 ^ 32 == 0 && x.stkbase % 2 ^ 34 == 0 && x.ptroot % 2 ^ 18 == 0 && x.arrbase % 64 == 0 && x.fltring % 64 == 0
    && x.htab % 32 == 0 && x.rpbase % 128 == 0 && decide (x.hcount ≤ 2 ^ 20) && decide (x.pcount ≤ 2 ^ 20) && x.pbase % 64 == 0
    && (x.pcount == 0 || (decide (6 ≤ x.psize) && decide (x.psize ≤ 12))) && x.debug != 3

/-- The physical fields lie in the partition's frames; a UCSET of 0 names nothing. -/
def Ctx.inFrames (g : Mgmt) (x : Ctx) (logn : Nat) : Bool :=
  g.ownsRange x.part x.ptroot (2 ^ 18) && g.owns x.part x.imgbase && g.ownsRange x.part x.arrbase 64
    && g.ownsRange x.part x.htab (max 1 (32 * x.hcount)) && g.ownsRange x.part x.huff 2048
    && g.ownsRange x.part x.fltring (64 + 32 * 2 ^ logn) && (x.ucset == 0 || g.ownsRange x.part x.ucset 0x70)

/-- A microcode set whose image an installed key verifies, copied to the protected store (R361). -/
def loadUcode (g : Mgmt) (m : Mach) (x : Ctx) : Option Ucode :=
  let h := m.rd x.ucset 0x70
  let len := natAt h 8 8
  if natAt h 0 4 = 0x53435541 && natAt h 4 1 != 0 && natAt h 5 1 == 9 && g.ownsRange x.part x.ucset (max 0x70 len)
      && g.keys.any (fun k => Config.ucodeSigned k (m.rd x.ucset len)) then some { id := natAt h 4 1, ops := BitVec.ofNat 16 (natAt h 6 2), image := m.rd x.ucset len }
  else none

/-- The status of a registration, and the context when it is 0. -/
def register (g : Mgmt) (m : Mach) (part vf desc : Nat) : Nat × Option Ctx :=
  if desc % 256 != 0 || !g.ownsRange part desc 256 then (2, none) else
  let d := m.rd desc 256
  let x := Ctx.parse part vf desc d
  let logn := m.rdN (x.fltring + 0xC) 1
  if !x.ranges || natAt d 0x86 1 != vf || natAt d 0x87 1 != part || logn < 6 || 16 < logn || !x.inFrames g logn
      || (m.ctx? (ctxKey part x.ctxid)).isSome then (2, none)
  else
    let x := { x with tables := msetN memDefault [] 0 (m.rd x.huff 2048) }
    if x.ucset = 0 then (0, some x) else
    match loadUcode g m x with
    | none => (3, none)
    | some u => (0, some { x with ucode := some u })

def execRegisterContext (part vf : Nat) (a0 : W64) (s : State) : Host.Outcome State Fault Refusal :=
  control s part vf 4 a0 (s.m.vf part vf).arg1 (s.m.vf part vf).arg2 0 (fun m =>
    match register s.mgmt m part vf a0.toNat with
    | (_, some x) =>
      let m := { m with ctxs := put m.ctxs (ctxKey part x.ctxid) x }
      (m.putVf part vf { m.vf part vf with result := w64 x.ctxid }).answer part vf 0
    | (st, none) => m.answer part vf st)

/-- Unregisters a context: its queues go with it (R316). -/
def Mach.unregister (m : Mach) (c : Nat) : Mach :=
  { m with
    ctxs := del m.ctxs c, queues := m.queues.filter (fun (q : Nat × Queue) => q.2.ctx != c)
    colls := m.colls.map (fun (x : CollSt) => { x with ctxs := x.ctxs.filter (· != c) }) }

def execRetireContext (part vf : Nat) (a0 : W64) (s : State) : Host.Outcome State Fault Refusal :=
  control s part vf 5 a0 (s.m.vf part vf).arg1 (s.m.vf part vf).arg2 0 (fun m =>
    match m.own part vf a0 with
    | none => m.answer part vf 1
    | some c => ((Machine.contextReset s.mgmt m c 0 0).unregister c).answer part vf 0)

def execCtlResetContext (part vf : Nat) (a0 : W64) (s : State) : Host.Outcome State Fault Refusal :=
  control s part vf 7 a0 (s.m.vf part vf).arg1 (s.m.vf part vf).arg2 0 (fun m =>
    match m.own part vf a0 with
    | none => m.answer part vf 1
    | some c => (Machine.contextReset s.mgmt m c 0 0).answer part vf 0)

/-- Sets the interrupt record; causes kept until now are delivered (R309). -/
def execSetInterruptRecord (part vf : Nat) (a0 : W64) (s : State) : Host.Outcome State Fault Refusal :=
  control s part vf 6 a0 (s.m.vf part vf).arg1 (s.m.vf part vf).arg2 0 (fun m =>
    if a0.toNat % 64 != 0 || !s.mgmt.ownsRange part a0.toNat 64 then m.answer part vf 2 else
    let kept := (m.vf part vf).kept
    let m := m.putVf part vf { m.vf part vf with irq := some a0.toNat, kept := 0 }
    (if kept = 0 then m else m.interrupt part vf kept).answer part vf 0)

/-- A request that nothing defines does nothing (R316). -/
def execCtlUndefinedRequest (part vf : Nat) (op a3 : W64) (s : State) : Host.Outcome State Fault Refusal :=
  if undefinedReq op a3 then control s part vf op (s.m.vf part vf).arg0 (s.m.vf part vf).arg1 (s.m.vf part vf).arg2 a3 id else .next s

end Sys2Proof.Machine
end

