-- ==== Sys2Proof/Machine/Tile.lean ====
section
/-!
DEFINITION. What the matrix array computes: formats of latched weights and activations
(spec/05_matrix.md R124, R129, R133), the exact group sum (spec/03_numbers.md R86), minted tiles (R143) and
one candidate of a seed search (R144).
-/

namespace Sys2Proof.Machine

/-- Depth of the tile, and elements of a K-group, of a latched format code (R124). -/
def depthOf (code : Nat) : Nat := if code = 9 then 512 else if code ≤ 3 || code = 8 || code = 0xC then 128 else 256
def groupOf (code : Nat) : Nat := if code = 9 then 8 else if code ≤ 3 || code = 8 || code = 0xC then 2 else 4
def depCode (k : Nat) : Nat := if k = 512 then 2 else if k = 256 then 1 else 0

/-- An operand of a product: its value, and for a NaN its f32 pattern. -/
structure MElt where
  val : FV
  nan : Nat := 0
  signalling : Bool := false
  deriving DecidableEq, Repr

def MElt.zero : MElt := { val := .fin false 0 0 }

def MElt.ieee (f : Fmt) (x : Nat) : MElt := { val := f.val x, nan := f.nanTo .f32 x, signalling := f.isSNaN x }
def MElt.ofInt (x : Int) : MElt := { val := .fin (decide (x < 0)) x.natAbs 0 }

/-- Element `i` of a row of packed elements at byte `o` of operand memory, as its format reads it (R76, R129,
R133). -/
def packedElt (code : Nat) (om : List Host.Cell) (o i : Nat) : MElt :=
  let n := fun (at_ c : Nat) => bytesNat (mgetN memDefault om at_ c)
  match code with
  | 2 => .ieee .f16 (n (o + 2 * i) 2)
  | 3 => .ieee .bf16 (n (o + 2 * i) 2)
  | 4 => { val := NFmt.h8.val (n (o + i) 1) }
  | 5 => { val := NFmt.h8w.val (n (o + i) 1) }
  | 6 => { val := NFmt.h8.val (widenH6 (fld (n (o + 3 * (i / 4)) 3) (6 * (i % 4)) 6)) }
  | 7 => { val := NFmt.h8.val (widenH4 (fld (n (o + i / 2) 1) (4 * (i % 2)) 4)) }
  | 0xA => .ofInt (sext (n (o + i) 1) 8)
  | _ => .ofInt (n (o + i) 1 : Nat)

/-! ## Minted tiles (R81, R143) -/

/-- A mint record (R81). -/
structure MintRec where
  seed : Nat
  j : Nat
  kd : Nat
  nd : Nat
  coef : List Nat
  scales : List Nat
  deriving DecidableEq, Repr

def mintRec (om : List Host.Cell) (o : Nat) : MintRec :=
  let n := fun (at_ c : Nat) => bytesNat (mgetN memDefault om (o + at_) c)
  { seed := n 0 8, j := n 8 1, kd := n 0xA 2, nd := n 0xC 2,
    coef := (List.range 16).map (fun i => n (0x10 + 2 * i) 2), scales := (List.range 64).map (fun i => n (0x30 + 2 * i) 2) }

def MintRec.ok (r : MintRec) : Bool :=
  decide (1 ≤ r.j) && decide (r.j ≤ 16) && decide (1 ≤ r.kd) && decide (r.kd ≤ 128) && decide (1 ≤ r.nd) && decide (r.nd ≤ 64)

/-- The weights over KD × ND, row-major, with their flags (R83). -/
def MintRec.weights (r : MintRec) : List (Nat × Flags) :=
  let bases := (List.range r.j).map (fun j => (mintBasis r.seed j r.kd r.nd).toArray)
  (List.range (r.kd * r.nd)).map (fun i =>
    mintWeight (r.coef.take r.j) (bases.map (fun b => (b[i]?).getD false)) ((r.scales[i % r.nd]?).getD 0))

def MintRec.cost (r : MintRec) : Nat := 80 + r.j * ceilDiv (r.kd * r.nd) 512

/-! ## Latched weights (R129, R131) -/

/-- The 16 bits of a row of the lattice table that `WSRC` names (R80, R152). -/
def tableRow (ws : W64) (om : List Host.Cell) (b : Nat) : Nat :=
  if wsTV ws then bytesNat (mgetN memDefault om (16384 * wsTsl ws + 512 * wsToff ws + 2 * b) 2) else 0

/-- Element (k, n) of the tile that `WSRC` names: what a fresh load gives (R131). -/
def latched (ws : W64) (om : List Host.Cell) : Nat → Nat → MElt :=
  let base := 16384 * wsWsl ws
  let num := fun (at_ c : Nat) => bytesNat (mgetN memDefault om at_ c)
  match wsFmt ws with
  | 8 => fun k n =>
    let g := base + 20 * (k / 32 * 64 + n)
    .ieee .bf16 (q4Weight (num (g + 16) 2) (fld (num (g + k % 32 / 2) 1) (4 * (k % 2)) 4) (num (g + 18) 1 % 16)).1
  | 9 => fun k n =>
    let idx := num (base + 2 * (k / 8 * 64 + n)) 2
    let x := vq2Twice (tableRow ws om (idx / 256)) idx (k % 8)
    { val := .fin (decide (x < 0)) x.natAbs (-1) }
  | 0xC =>
    let r := mintRec om (base + 64 * wsWoff ws)
    let tile := r.weights.toArray
    fun k n => if k < r.kd && n < r.nd then .ieee .bf16 ((tile[k * r.nd + n]?).getD (0, 0)).1 else .zero
  | code => fun k n => packedElt code om base (k * 64 + n)

/-- The flags of a load's expansion (R76 to R78, R83, R148). -/
def loadFlags (code : Nat) (om : List Host.Cell) (slot off : Nat) (scale : Option ScaleOp) : Flags :=
  let base := 16384 * slot
  let num := fun (at_ c : Nat) => bytesNat (mgetN memDefault om at_ c)
  let scales : Flags := match scale with
    | some y => if (List.range (depthOf code / 32 * 64)).any (fun i => num (16384 * y.slot.toNat + 512 * y.soff.toNat + i) 1 == 0xFF) then fInvalid else 0
    | none => 0
  scales ||| (match code with
    | 6 | 7 => fSubst
    | 8 => (List.range 8192).foldl (fun (f : Flags) i =>
        let g := base + 20 * (i / 32 / 64 * 64 + i / 32 % 64)
        f ||| (q4Weight (num (g + 16) 2) (fld (num (g + i % 32 / 2) 1) (4 * (i % 2)) 4) (num (g + 18) 1 % 16)).2) 0
    | 0xC => (mintRec om (base + off)).weights.foldl (fun (f : Flags) x => f ||| x.2) 0
    | _ => 0)

/-- The exponent of a block scale byte (R77). -/
def scaleExp (x : Nat) : Int := (min x 254 : Nat) - 127

/-! ## One output (R86, R134) -/

/-- A group sum as it forms. -/
structure GSum where
  nan : Option Nat := none
  bad : Bool := false
  pos : Bool := false
  neg : Bool := false
  sum : Int := 0
  exp : Int := 0
  flags : Flags := 0
  deriving DecidableEq, Repr

/-- Adds the exact product of `a` and `w` times 2^e. -/
def GSum.addProduct (s : GSum) (a w : MElt) (e : Int) : GSum :=
  let inf := fun (n : Bool) => { s with pos := s.pos || !n, neg := s.neg || n }
  match a.val, w.val with
  | .fin n m x, .fin n' m' x' =>
    if m = 0 || m' = 0 then s else
    let t := addExact (decide (s.sum < 0)) s.sum.natAbs s.exp (n != n') (m * m') (x + x' + e)
    { s with sum := t.1, exp := t.2 }
  | .nan, y =>
    { s with nan := some (s.nan.getD a.nan),
             flags := s.flags ||| (if a.signalling || (y == .nan && w.signalling) then fInvalid else 0) }
  | _, .nan => { s with nan := some (s.nan.getD w.nan), flags := s.flags ||| (if w.signalling then fInvalid else 0) }
  | .inf n, .inf n' => inf (n != n')
  | .inf n, .fin n' m _ => if m = 0 then { s with bad := true, flags := s.flags ||| fInvalid } else inf (n != n')
  | .fin n m _, .inf n' => if m = 0 then { s with bad := true, flags := s.flags ||| fInvalid } else inf (n != n')

/-- `rne_f32(p)` (R86). A NaN product goes before infinities of both signs, which then raise nothing
(notes/assumptions/61.md). -/
def GSum.round (s : GSum) : Nat × Flags :=
  match s.nan with
  | some x => (x, s.flags)
  | none =>
    if s.bad || (s.pos && s.neg) then (Fmt.f32.nan, s.flags ||| fInvalid)
    else if s.pos || s.neg then (Fmt.f32.signed s.neg Fmt.f32.infPat, s.flags)
    else let r := Fmt.f32.rndI .near false s.sum s.exp; (r.1, s.flags ||| r.2)

/-- `C[m][n]` after the K-groups of one row have been added (R86). -/
def accumulate (depth g : Nat) (a w : Nat → MElt) (se : Nat → Int) (c : Nat) : Nat × Flags :=
  (List.range (ceilDiv depth g)).foldl (fun (r : Nat × Flags) i =>
    let p := ((List.range g).foldl (fun (s : GSum) j =>
      let k := g * i + j
      if k < depth then s.addProduct (a k) (w k) (se k) else s) {}).round
    let y := Fmt.f32.add .near false r.1 p.1
    (y.1, r.2 ||| p.2 ||| y.2)) (c, 0)

/-- The value of an 8-bit integer operand (R134). -/
def MElt.int (x : MElt) : Int := match x.val with | .fin n m _ => if n then -(m : Int) else m | _ => 0

/-- Integer mode: exact products, summed modulo 2^32 (R134). -/
def accumulateInt (depth : Nat) (a w : Nat → MElt) (c : Nat) : Nat :=
  wrapI ((List.range depth).foldl (fun (s : Int) k => s + (a k).int * (w k).int) (c : Int)) 32

/-! ## One candidate of a seed search (R144) -/

/-- What a candidate gives: its coefficients, its residual, and the flags that it raised. -/
structure Fit where
  coef : List Nat
  e : Nat
  flags : Flags

/-- A tree over the 8192 positions of a tile, from the KD × ND values that take part. -/
def tileTree (kd nd : Nat) (x : Array Nat) : Nat × Flags :=
  (treeOp (Fmt.f32.add .near false) (fun i =>
    if i / 64 < kd && i % 64 < nd then x[i / 64 * nd + i % 64]? else none) 0 13).getD (0, 0)

/-- The quotient of an f32 pattern by a whole number, rounded once to bf16 (R144). -/
def quotBf16 (x d : Nat) : Nat × Flags :=
  match Fmt.f32.val x with
  | .fin n m e => if m = 0 then (Fmt.bf16.signed n 0, 0) else Fmt.bf16.rndQ .near false n m d e
  | _ => Fmt.f32.convert .bf16 .near false x

def signedBy (neg : Bool) (x : Nat) : Nat := if neg then Fmt.f32.negate x else x

/-- Fits one basis: the residual tile after it. -/
def fitBasis (kd nd : Nat) (r : Array Nat) (signs : List Bool) : Nat × Array Nat × Flags :=
  let b := signs.toArray
  let pairs := (List.range (kd * nd)).map (fun i => ((r[i]?).getD 0, (b[i]?).getD false))
  let dot := tileTree kd nd ((pairs.map (fun p => signedBy p.2 p.1)).toArray)
  let c := quotBf16 dot.1 (kd * nd)
  let wide := Fmt.bf16.convert .f32 .near false c.1
  let next := pairs.map (fun p => Fmt.f32.sub .near false p.1 (signedBy p.2 wide.1))
  (c.1, (next.map (·.1)).toArray, next.foldl (fun (f : Flags) y => f ||| y.2) (dot.2 ||| c.2 ||| wide.2))

/-- One candidate seed against a target tile (R144). -/
def fit (kd nd j seed : Nat) (target : List Nat) : Fit :=
  let t := target.map (fun x => Fmt.bf16.convert .f32 .near false x)
  let start : List Nat × Array Nat × Flags := ([], (t.map (·.1)).toArray, t.foldl (fun (f : Flags) y => f ||| y.2) 0)
  let (cs, r, fl) := (List.range j).foldl (fun (s : List Nat × Array Nat × Flags) i =>
    let y := fitBasis kd nd s.2.1 (mintBasis seed i kd nd)
    (s.1 ++ [y.1], y.2.1, s.2.2 ||| y.2.2)) start
  let sq := r.toList.map (fun x => Fmt.f32.mul .near false x x)
  let e := tileTree kd nd ((sq.map (·.1)).toArray)
  { coef := cs, e := e.1, flags := sq.foldl (fun (f : Flags) y => f ||| y.2) (fl ||| e.2) }

/-- A residual beats the best so far (R144). -/
def beats (e best : Nat) : Bool := (Fmt.f32.isNaN best && !Fmt.f32.isNaN e) || Fmt.f32.lt e best

/-- The 192 bytes of a mint record (R81, R144). -/
def recordBytes (seed j kd nd : Nat) (coef : List Nat) : List Byte :=
  natBytes seed 8 ++ natBytes j 1 ++ zeros 1 ++ natBytes kd 2 ++ natBytes nd 2 ++ zeros 2
    ++ (List.range 16).flatMap (fun i => natBytes ((coef[i]?).getD 0) 2)
    ++ (List.range 64).flatMap (fun _ => natBytes 0x3F80 2) ++ zeros 16

end Sys2Proof.Machine
end

