-- ==== Sys2Proof/Machine/Matrix.lean ====
section
/-!
DEFINITION. Operand-memory instructions and matrix commands (spec/05_matrix.md R125 to R138, R143 to R152),
and the array's steps.
-/

namespace Sys2Proof.Machine

/-! ## Checks of R127 -/

/-- The cause of `n` bytes at offset `o` of a run that starts at a slot. -/
def Block.runCause (b : Block) (quota slot o n : Nat) : Option Nat :=
  let at_ := 16384 * slot + o
  if !b.claimedRun quota at_ n then some 0x60 else if omBytes < at_ + n then some 0x61 else none

/-- The same within one slot. -/
def Block.slotCause (b : Block) (quota slot o n : Nat) : Option Nat :=
  if !b.slotsOk quota slot 1 then some 0x60 else if 16384 < o + n then some 0x61 else none

def firstCause (l : List (Option Nat)) : Option Nat :=
  l.foldl (fun b c => match b, c with | some x, some y => some (min x y) | none, y => y | x, none => x) none

/-! ## Instructions that act at once -/

def slotList (a n : Nat) : List Nat := (List.range n).map (· + a)

def Block.dropSlots (b : Block) (l : List Nat) : Block := { b with om := b.om.filter (fun (x : Host.Cell) => !l.contains (x.1 / 16384)) }

/-- The wave waits until every earlier access to these slots is complete (R128). -/
def Env.omBusy (e : Env) (use : List (Nat × Bool)) : Bool := e.m.omWaits e.w.block e.m.nextId use

/-- A claim by one half: status, and the block (R146). -/
def Block.claim (b : Block) (quota a n : Nat) : Nat × Block :=
  let l := slotList a n
  let b := b.omWriter l
  if quota < a + n then (2, b)
  else if l.any (fun i => b.claimed.getLsbD i) then (1, b)
  else (0, { b.dropSlots l with claimed := l.foldl (fun (k : BitVec 48) i => k ||| (1#48 <<< i)) b.claimed })

/-- `omclaim` (R146). -/
def execOmclaim (d : BitVec 7) (a n : BitVec 6) (s : State) : Host.Outcome State Fault Refusal :=
  withCur (fun e =>
    let ps := e.w.groups.filter e.w.execs
    if !ps.isEmpty && e.omBusy ((slotList a.toNat n.toNat).map (·, true)) then e.halt .room else
    let r := ps.foldl (fun (r : Block × Wave) p =>
      let x := r.1.claim e.l.oms a.toNat n.toNat
      (x.2, r.2.setS p d.toNat (w64 x.1))) (e.b, e.w)
    .next (e.m.updBlock e.w.block (fun _ => r.1)) { r.2 with pc := e.w.pc + 8 }) s

/-- `omrel` (R146). -/
def execOmrel (a n : BitVec 6) (s : State) : Host.Outcome State Fault Refusal :=
  withCur (fun e =>
    let l := slotList a.toNat n.toNat
    if !(e.w.groups.any e.w.execs) then e.ok e.w
    else if e.omBusy (l.map (·, true)) then e.halt .room
    else
      let free : Block → Block := fun b =>
        { (b.omWriter l).dropSlots l with claimed := l.foldl (fun (k : BitVec 48) i => k &&& ~~~(1#48 <<< i)) b.claimed }
      .next (e.m.updBlock e.w.block free) { e.w with pc := e.w.pc + 8 }) s

/-- `omzero` (R146). -/
def execOmzero (a n : BitVec 6) (s : State) : Host.Outcome State Fault Refusal :=
  withCur (fun e =>
    let l := slotList a.toNat n.toNat
    if !(e.w.groups.any e.w.execs) then e.ok e.w
    else if !e.b.slotsOk e.l.oms a.toNat n.toNat then e.beforeAll 0x60 0
    else if e.omBusy (l.map (·, true)) then e.halt .room
    else .next (e.m.updBlock e.w.block (fun b => (b.omWriter l).dropSlots l)) { e.w with pc := e.w.pc + 8 }) s

/-- The lanes of `omld` and `omst` with their byte addresses in operand memory, or the trap that they raise
(R127, R147). -/
def Env.omLanes (e : Env) (o : OpOm) : Except WOut (List (Bool × Nat × Nat)) :=
  let size := Ty.size o.ty
  let at_ := fun (p : Bool) (l : Nat) => e.w.vec p l .n32 o.b.toNat + o.off.toNat
  let ls := e.w.work o.k.toNat false
  let cause := fun (p : Bool) (l : Nat) =>
    (e.b.runCause e.l.oms o.a.toNat (at_ p l) size).toList ++ (if at_ p l % size != 0 then [0x61] else [])
  match winning (ls.map (fun x => (x.1, x.2, cause x.1 x.2))) with
  | some (c, l0, l1) => .error (e.before c l0 l1)
  | none => .ok (ls.map (fun x => (x.1, x.2, 16384 * o.a.toNat + at_ x.1 x.2)))

def lanesUse (l : List (Bool × Nat × Nat)) (n : Nat) (write : Bool) : List (Nat × Bool) :=
  ((l.flatMap (fun x => omSlots x.2.2 n)).eraseDups).map (·, write)

/-- `omld` (R147). -/
def execOmld (o : OpOm) (s : State) : Host.Outcome State Fault Refusal :=
  withCur (fun e =>
    let size := Ty.size o.ty
    match e.omLanes o with
    | .error t => t
    | .ok ls =>
      if e.omBusy (lanesUse ls size false) then e.halt .room
      else e.ok (ls.foldl (fun (w : Wave) x => w.put x.1 x.2.1 o.ty (.vec o.d) (e.b.omN x.2.2 size)) e.w) 16) s

/-- `omst` (R147). -/
def execOmst (o : OpOm) (s : State) : Host.Outcome State Fault Refusal :=
  withCur (fun e =>
    let size := Ty.size o.ty
    match e.omLanes o with
    | .error t => t
    | .ok ls =>
      let use := lanesUse ls size true
      if e.omBusy use then e.halt .room else
      let store : Block → Block := fun b =>
        ls.foldl (fun (b : Block) x => b.wrOm x.2.2 (natBytes (e.src x.1 x.2.1 o.ty (.vec o.d)) size)) (b.omWriter (use.map (·.1)))
      .next (e.m.updBlock e.w.block store) { e.w with pc := e.w.pc + 16 }) s

def Mach.latchOf (m : Mach) (core : Nat) : Latch := (lookup m.latch core).getD {}
def Mach.setLatch (m : Mach) (core : Nat) (x : Latch) : Mach := { m with latch := put m.latch core x }

/-- What `vqtab` makes of `WSRC` (R151). -/
def wsTable (x : W64) (slot : Option (Nat × Nat)) : W64 :=
  let x := if wsFmt x = 9 then setBit x 63 false else x
  match slot with
  | none => setBit x 59 false
  | some (a, off) => setBit (w64 (x.toNat - fld x.toNat 12 11 * 2 ^ 12 + a * 2 ^ 17 + off * 2 ^ 12)) 59 true

/-- The array's table is filled for a block. -/
def Mach.fillTable (m : Mach) (core b : Nat) : Mach := m.setLatch core { m.latchOf core with table := some b }

/-- `vqtab` (R151). -/
def execVqtab (a : BitVec 6) (off : BitVec 5) (s : State) : Host.Outcome State Fault Refusal :=
  withCur (fun e =>
    if !(e.w.groups.any e.w.execs) then e.ok e.w 16
    else if !e.b.slotsOk e.l.oms a.toNat 1 then e.beforeAll 0x60 0
    else if e.omBusy [(a.toNat, false)] then e.halt .room
    else
      let m := e.m.updBlock e.w.block (fun b => { b with wsrc := wsTable b.wsrc (some (a.toNat, off.toNat)) })
      .next ((m.fillTable e.w.core e.w.block).count e.w.ctx 9 16) { e.w with pc := e.w.pc + 16 }) s

def execVqtabClr (s : State) : Host.Outcome State Fault Refusal :=
  withCur (fun e =>
    if !(e.w.groups.any e.w.execs) then e.ok e.w 16
    else
      let m := e.m.updBlock e.w.block (fun b => { b with wsrc := wsTable b.wsrc none })
      .next ((m.fillTable e.w.core e.w.block).count e.w.ctx 9 16) { e.w with pc := e.w.pc + 16 }) s

/-- Receipt register, progress register and MOD[5] of a matrix command. -/
def mparts : Instr → Nat × Nat × Bool
  | .wload o => (o.q.toNat, o.sp.toNat, o.cont)
  | .wmint o => (o.q.toNat, o.sp.toNat, o.cont)
  | .mmul o => (o.q.toNat, o.sp.toNat, o.cont)
  | .mseek o => (o.q.toNat, o.sp.toNat, o.cont)
  | _ => (0, 0, false)

/-! ## Matrix commands: issue (R135) -/

/-- Each half with lanes sends its command to the array, and the wave is held on it. A half that has completed
its command (`inBar`) sends none. A command that stopped takes the flags of its completed steps with it (R72, R137).
A pending receipt in E0 is waited for first, as R214 says for engine commands (DEDUCED: R135 names only a completed
one; notes/assumptions/31.md). -/
def Env.issueMatrix (e : Env) (i : Instr) (q : Nat) : WOut :=
  let ps := (e.w.groups.filter e.w.execs).filter (fun p => p || !e.w.inBar)
  match ps.find? (fun p => rPending (e.w.getQ p q)) with
  | some p => e.awaitReceipt p q
  | none =>
    if ps.isEmpty then .next e.m { e.w with pc := e.w.pc + 16, inBar := false }
    else if e.w.acc.any (fun a => !a.known) then e.halt .room
    else
      let again := fun p => bit (e.w.getS p (mparts i).2.1) 63
      let cmds : List MCmd := ps.map (fun p =>
        { core := e.w.core, wave := e.id, half := p, block := e.w.block, instr := i, flags := if again p then (e.w.half p).mflags else 0 })
      let w := ps.foldl (fun (w : Wave) p => if again p then w.updHalf p (fun h => { h with mflags := 0 }) else w) e.w
      .hold { e.m with array := e.m.array ++ cmds, changes := e.m.changes + 1 } { w with inFlight := false } .unit

def execWload (o : OpWload) (s : State) : Host.Outcome State Fault Refusal := withCur (fun e => e.issueMatrix (.wload o) o.q.toNat) s
def execWmint (o : OpWmint) (s : State) : Host.Outcome State Fault Refusal := withCur (fun e => e.issueMatrix (.wmint o) o.q.toNat) s
def execMmul (o : OpMmul) (s : State) : Host.Outcome State Fault Refusal := withCur (fun e => e.issueMatrix (.mmul o) o.q.toNat) s
def execMseek (o : OpMseek) (s : State) : Host.Outcome State Fault Refusal := withCur (fun e => e.issueMatrix (.mseek o) o.q.toNat) s

/-! ## Acceptance (R127, R135, R138) -/

/-- A progress register (R41). -/
def progress (inFlight : Bool) (count : Nat) : W64 := w64 ((if inFlight then 2 ^ 63 else 0) + count % 2 ^ 48)

/-- The step that a command starts at (R137): a load starts again from the beginning. -/
def startStep (i : Instr) (prog : W64) : Nat :=
  match i with
  | .wload _ | .wmint _ => 0
  | _ => if bit prog 63 || (mparts i).2.2 then fld prog.toNat 0 48 else 0

/-- What a command comes to when the array judges it. -/
inductive Judged where
  | fault (code : Nat)
  | ends (stat : Nat)
  | runs
  deriving DecidableEq, Repr

def intCode (c : Nat) : Bool := c == 0xA || c == 0xB

/-- The checks of a command, in the order of R148 to R150. -/
def Block.judge (b : Block) (quota : Nat) (i : Instr) : Judged :=
  let scale := fun (y : Option ScaleOp) (n : Nat) =>
    match y with | some y => b.slotCause quota y.slot.toNat (512 * y.soff.toNat) n | none => none
  let orRuns := fun (c : Option Nat) => match c with | some x => Judged.fault x | none => .runs
  match i with
  | .wload o => orRuns (firstCause [b.slotCause quota o.a.toNat 0 1, scale o.scale (depthOf o.fmt.code.toNat / 32 * 64)])
  | .wmint o => orRuns (b.slotCause quota o.a.toNat (64 * o.off.toNat) 192)
  | .mseek o => orRuns (firstCause [b.slotCause quota o.a.toNat 0 16384, b.slotCause quota o.d.toNat (64 * o.roff.toNat) 192,
      b.slotCause quota o.b.toNat (64 * o.boff.toNat) (8 * (o.nc.toNat + 1))])
  | .mmul o =>
    let k := wsDep b.wsrc
    let rows := o.m.toNat + 1
    if !b.slotsOk quota o.a.toNat 1 || !b.slotsOk quota o.d.toNat 1 || !(match o.scale with | some y => b.slotsOk quota y.slot.toNat 1 | none => true)
    then .fault 0x60
    else if !wsV b.wsrc then .ends 2
    else match firstCause [b.runCause quota o.a.toNat 0 (rows * rowBytes o.fmt k), b.runCause quota o.d.toNat 0 (256 * rows),
        scale o.scale (rows * (k / 32))] with
      | some c => .fault c
      | none => if o.scale.isSome && intCode (wsFmt b.wsrc) && intCode o.fmt.code.toNat then .ends 3 else .runs
  | _ => .runs

/-- Names one command of the array. -/
def MCmd.same (a b : MCmd) : Bool := a.core == b.core && a.wave == b.wave && a.half == b.half && a.op == b.op

def Mach.updCmd (m : Mach) (c : MCmd) (f : MCmd → MCmd) : Mach := { m with array := updFirst c.same f m.array }

/-- Writes a scalar register of a wave wherever its line stands. -/
def Mach.putScalar (m : Mach) (id : Nat) (p : Bool) (r : Nat) (x : W64) : Mach :=
  match m.wave? id with
  | none => m
  | some w =>
    let line := w.lnScal + (if p then w.scalLines else 0) + r / 16
    let m := m.putWave id (w.setS p r x)
    if w.missing.contains line then m.wrN (w.image + 128 * line + 8 * (r % 16)) 8 x.toNat else m

def Mach.scalarOf (m : Mach) (id : Nat) (p : Bool) (r : Nat) : W64 :=
  match m.wave? id with | some w => w.getS p r | none => 0

/-- Frees the wave of a command that has left the array: it goes on past the command when no half waits. -/
def Mach.freeWave (m : Mach) (c : MCmd) : Mach :=
  if m.array.any (fun (y : MCmd) => y.wave == c.wave && y.op.isNone) then m.updWave c.wave (fun w => { w with inBar := true })
  else m.updWave c.wave (fun w => { w.retired with pc := w.pc + 16, inBar := false, quiet := false })

/-- A command is complete: progress, receipt, and its wave (R135, R136, R138). -/
def Mach.endCmd (m : Mach) (c : MCmd) (ctx stat count : Nat) : Mach :=
  let (q, sp, _) := mparts c.instr
  let m := m.putScalar c.wave c.half sp (progress false count)
  let m := { m with array := m.array.filter (fun (y : MCmd) => !y.same c) }
  match c.op with
  | some o => m.completeOp o 4 stat none c.flags
  | none =>
    let (seq, due, m) := m.newSeq ctx
    (m.deliver (.reg c.wave c.half q) (mkRcpt due stat 4 seq) c.flags).freeWave c

/-- The clocks of the re-latch that a command makes first (R132, R152). -/
def Mach.relatchCost (m : Mach) (core block : Nat) (b : Block) : Nat :=
  let x := m.latchOf core
  if !wsV b.wsrc || x.owner = some block then 0
  else (if wsFmt b.wsrc = 0xC then (mintRec b.om (16384 * wsWsl b.wsrc + 64 * wsWoff b.wsrc)).cost else 72)
    + (if wsFmt b.wsrc = 9 && x.table != some block then 16 else 0)

/-- Latches the weights that `WSRC` names. -/
def Mach.relatch (m : Mach) (core block : Nat) (b : Block) : Mach :=
  let x := m.latchOf core
  if !wsV b.wsrc || x.owner = some block then m
  else m.setLatch core { owner := some block, source := b.wsrc, table := if wsFmt b.wsrc = 9 then some block else x.table }

/-- The flags of a command that leaves the array to be issued again wait in its half (R72). -/
def Wave.keepFlags (w : Wave) (c : MCmd) : Wave := w.updHalf c.half (fun h => { h with mflags := h.mflags ||| c.flags })

/-- The wave's command faults: precise, with the PC on the command and nothing written (R127). -/
def cmdFault (g : Mgmt) (m : Mach) (c : MCmd) (code : Nat) : Mach :=
  match m.wave? c.wave with
  | none => m
  | some w =>
    let mine := m.array.filter (fun (y : MCmd) => y.wave == c.wave && y.op.isNone)
    let w := mine.foldl (fun (w : Wave) (y : MCmd) => w.keepFlags y) w
    let m := { m with array := m.array.filter (fun (y : MCmd) => !(y.wave == c.wave && y.op.isNone)) }
    match m.ctx? w.ctx with
    | none => m
    | some x =>
      takeTrap g m c.wave w x
        { code, rpc := w.pc, addr := w.pc, addr1 := w.pc, lanes0 := if c.half then 0 else w.lo.exec, lanes1 := if c.half then w.hi.exec else 0 }

/-- The array accepts a command. -/
def acceptCmd (g : Mgmt) (m : Mach) (c : MCmd) (b : Block) (l : Launch) : Mach :=
  let (_, sp, _) := mparts c.instr
  let start := startStep c.instr (m.scalarOf c.wave c.half sp)
  match b.judge l.oms c.instr with
  | .fault code => if c.op.isSome then m.endCmd c b.ctx 6 start else cmdFault g m c code
  | .ends stat => m.endCmd c b.ctx stat start
  | .runs =>
    let fl : Flags := match c.instr with
      | .mmul o => if o.fmt == .h6 || o.fmt == .h4 then fSubst else 0
      | _ => 0
    let seq := m.nextId
    let m := { m with nextId := m.nextId + 1 }
    let m := m.updCmd c (fun y => { y with accepted := true, begun := true, seq, count := start, ws := b.wsrc, om := b.om, flags := y.flags ||| fl })
    let writes := ((matrixUse c.instr b.wsrc).filter (·.2)).map (·.1)
    match c.instr with
    | .wload o =>
      let cost := 72 + (if o.fmt == .vq2 && (m.latchOf c.core).table != some c.block then 16 else 0)
      let m := m.setLatch c.core { m.latchOf c.core with owner := none, table := if o.fmt == .vq2 then some c.block else (m.latchOf c.core).table }
      (m.updBlock c.block (fun b => { b with wsrc := setBit b.wsrc 63 false })).count b.ctx 9 cost
    | .wmint _ =>
      (m.setLatch c.core { m.latchOf c.core with owner := none }).updBlock c.block (fun b => { b with wsrc := setBit b.wsrc 63 false })
    | _ =>
      let cost := m.relatchCost c.core c.block b + (match c.instr with | .mmul _ => 72 | _ => 40)
      ((m.relatch c.core c.block b).updBlock c.block (fun b => b.omWriter writes)).count b.ctx 9 cost

/-! ## Steps (R137) -/

/-- `WSRC` after a load (R148). -/
def wsLoaded (old : W64) (kind fmt slot off : Nat) (scale : Option ScaleOp) : W64 :=
  let keep := old &&& w64 (2 ^ 59 + (2 ^ 11 - 1) * 2 ^ 12)
  let sc := match scale with | some y => 2 ^ 60 + y.slot.toNat * 2 ^ 28 + y.soff.toNat * 2 ^ 23 | none => 0
  keep ||| w64 (2 ^ 63 + kind * 2 ^ 61 + sc + fmt * 2 ^ 48 + slot * 2 ^ 42 + off * 2 ^ 34 + depCode (depthOf fmt) * 2 ^ 10)

/-- A load latches its tile and is complete (R148). -/
def Mach.latchTile (m : Mach) (c : MCmd) (b : Block) (kind fmt slot off : Nat) (scale : Option ScaleOp) : Mach :=
  let ws := wsLoaded b.wsrc kind fmt slot (off / 64) scale
  let m := m.updBlock c.block (fun b => { b with wsrc := ws })
  let m := m.setLatch c.core { m.latchOf c.core with owner := some c.block, source := ws }
  m.endCmd { c with flags := c.flags ||| loadFlags fmt b.om slot off scale } b.ctx 1 (depthOf fmt)

/-- The scale exponents of element k of row m, column n (R77, R129). -/
def mmulScale (o : OpMmul) (ws : W64) (om : List Host.Cell) (row : Nat) (act : List Host.Cell) : Nat → Nat → Int :=
  let depth := wsDep ws
  fun k n =>
    (match o.scale with
     | some y => scaleExp (mget memDefault act (16384 * y.slot.toNat + 512 * y.soff.toNat + row * (depth / 32) + k / 32)).toNat
     | none => 0)
    + (if wsSV ws then scaleExp (mget memDefault om (16384 * wsSsl ws + 512 * wsSoff ws + k / 32 * 64 + n)).toNat else 0)

/-- One row of `mmul`: its 64 accumulators, and its flags (R149). -/
def mmulRow (o : OpMmul) (ws : W64) (latchOm om : List Host.Cell) (row : Nat) : List Nat × Flags :=
  let depth := wsDep ws
  let tile := latched ws latchOm
  let acts := ((List.range depth).map (fun k => packedElt o.fmt.code.toNat om (16384 * o.a.toNat + row * rowBytes o.fmt depth) k)).toArray
  let a := fun (k : Nat) => (acts[k]?).getD .zero
  let old := fun (n : Nat) => if o.z then 0 else bytesNat (mgetN memDefault om (16384 * o.d.toNat + 4 * (row * 64 + n)) 4)
  if intCode (wsFmt ws) && intCode o.fmt.code.toNat then
    ((List.range 64).map (fun n => accumulateInt depth a (fun k => tile k n) (old n)), 0)
  else
    let sc := mmulScale o ws latchOm row om
    let bad : Flags := match o.scale with
      | some y => if (List.range (depth / 32)).any (fun g =>
          mget memDefault om (16384 * y.slot.toNat + 512 * y.soff.toNat + row * (depth / 32) + g) == 0xFF) then fInvalid else 0
      | none => 0
    let r := (List.range 64).map (fun n => accumulate depth (groupOf (wsFmt ws)) a (fun k => tile k n) (fun k => sc k n) (old n))
    (r.map (·.1), r.foldl (fun (f : Flags) x => f ||| x.2) bad)

/-- A step of an accepted command. `mseek` reads its target and its seeds at each candidate, so a record that lies over them
is seen by later candidates (DEDUCED: R150 gives the slots, not the moment; notes/assumptions/31.md). -/
def stepCmd (m : Mach) (c : MCmd) (b : Block) : Mach :=
  let (_, sp, _) := mparts c.instr
  match c.instr with
  | .wload o => m.latchTile c b 1 o.fmt.code.toNat o.a.toNat 0 o.scale
  | .wmint o =>
    let r := mintRec b.om (16384 * o.a.toNat + 64 * o.off.toNat)
    if !r.ok then (m.endCmd c b.ctx 4 0).count b.ctx 9 80
    else (m.latchTile c b 2 0xC o.a.toNat (64 * o.off.toNat) none).count b.ctx 9 r.cost
  | .mmul o =>
    let rows := o.m.toNat + 1
    if rows ≤ c.count then m.endCmd c b.ctx 1 rows else
    let (out, fl) := mmulRow o c.ws c.om b.om c.count
    let m := m.updBlock c.block (fun b => b.wrOm (16384 * o.d.toNat + 256 * c.count) (out.flatMap (fun x => natBytes x 4)))
    let m := (m.putScalar c.wave c.half sp (progress true (c.count + 1))).count b.ctx 9 1
    let c' := { c with count := c.count + 1, flags := c.flags ||| fl }
    if rows ≤ c.count + 1 then m.endCmd c' b.ctx 1 rows else m.updCmd c (fun _ => c')
  | .mseek o =>
    let n := o.nc.toNat + 1
    if n ≤ c.count then m.endCmd c b.ctx 1 n else
    let kd := o.kd.toNat + 1
    let nd := o.nd.toNat + 1
    let seed := b.omN (16384 * o.b.toNat + 64 * o.boff.toNat + 8 * c.count) 8
    let target := (List.range (kd * nd)).map (fun i => b.omN (16384 * o.a.toNat + 2 * (i / nd * 64 + i % nd)) 2)
    let f := fit kd nd o.j.toNat seed target
    let best := (m.scalarOf c.wave c.half o.sb.toNat).toNat % 2 ^ 32
    let m :=
      if c.count = 0 || beats f.e best then
        (m.updBlock c.block (fun b => b.wrOm (16384 * o.d.toNat + 64 * o.roff.toNat) (recordBytes seed o.j.toNat kd nd f.coef))).putScalar
          c.wave c.half o.sb.toNat (w64 (f.e + c.count % 256 * 2 ^ 32))
      else m
    let m := (m.putScalar c.wave c.half sp (progress true (c.count + 1))).count b.ctx 9 (48 * o.j.toNat)
    let c' := { c with count := c.count + 1, flags := c.flags ||| f.flags }
    if n ≤ c.count + 1 then m.endCmd c' b.ctx 1 n else m.updCmd c (fun _ => c')
  | _ => m

/-- Commands stop at a step boundary (R42, R137, R138): a wave issues its own again, and the copy engine keeps a
follow-on. The issue again of a stopped command raises no debug cause, as a macro's (R42, R336). -/
def Mach.stopCmds (m : Mach) (sel : MCmd → Bool) : Mach :=
  let mine := m.array.filter sel
  let m := mine.foldl (fun (m : Mach) (c : MCmd) =>
    let m := if c.accepted then m.putScalar c.wave c.half (mparts c.instr).2.1 (progress true c.count) else m
    if c.op.isSome then m else
    m.updWave c.wave (fun w => { w.keepFlags c with hold := .none, quiet := w.quiet || c.accepted, inFlight := w.inFlight || c.accepted })) m
  { m with array := (m.array.filter (fun (c : MCmd) => !(sel c && c.op.isNone))).map (fun (c : MCmd) => if sel c then { c with accepted := false } else c) }

/-- The command runs: its block is on its core and its function runs (R137). -/
def Mach.cmdLive (m : Mach) (c : MCmd) : Bool :=
  match m.block? c.block with
  | none => true
  | some b => b.state == .running && (match m.ctx? b.ctx with | some x => (m.part x.part).running == x.vf && !(m.part x.part).halted | none => false)

/-- The command that the array of a core takes next: the accepted one, else the first that nothing delays; half 0
of a pair comes before half 1 (R135). -/
def Mach.arrayNext (m : Mach) (core : Nat) : Option MCmd :=
  let mine := m.array.filter (fun (c : MCmd) => c.core == core && m.cmdLive c)
  match mine.find? (fun (c : MCmd) => c.accepted) with
  | some c => some c
  | none => mine.find? (fun (c : MCmd) =>
      !m.cmdWaits c && !(c.half && c.op.isNone && m.array.any (fun (y : MCmd) => y.wave == c.wave && !y.half && y.op.isNone)))

/-- A step of the array of a core: it accepts a command, or makes a step of the accepted one. A follow-on whose
block has ended is discarded (R243). -/
def arrayStep (s : State) (c : MCmd) : Host.Outcome State Fault Refusal :=
  let m : Mach :=
    match s.m.block? c.block with
    | none => { s.m with array := s.m.array.filter (fun (y : MCmd) => !y.same c), ops := match c.op with | some o => del s.m.ops o | none => s.m.ops }
    | some b =>
      match s.m.launch? b.launch with
      | none => s.m
      | some l => if c.accepted then stepCmd s.m c b else acceptCmd s.mgmt s.m c b l
  .next { s with m := { m with changes := m.changes + 1 } }

def execMatrixStep (core : Nat) (s : State) : Host.Outcome State Fault Refusal :=
  match s.m.arrayNext core with
  | none => .next s
  | some c => arrayStep s c

/-- The array accepts the follow-on of a copy (R138). -/
def execFollowOnAccept (op : Nat) (s : State) : Host.Outcome State Fault Refusal :=
  match s.m.array.find? (fun (c : MCmd) => c.op == some op) with
  | none => .next s
  | some c =>
    match s.m.arrayNext c.core with
    | some y => if y.same c && !y.accepted then arrayStep s y else .next s
    | none => .next s

end Sys2Proof.Machine
end

