-- ==== Sys2Proof/Machine/Tasks.lean ====
section
/-!
DEFINITION. Tasksets and the clearing tables of the spans (spec/10_scheduling.md R282 to R285; notes/assumptions/14.md).
-/

namespace Sys2Proof.Machine

/-! ## The packet (R282) -/

def Rect.parse (x : Nat) : Rect := { surf := fld x 0 8, x0 := fld x 8 14, y0 := fld x 22 14, x1 := fld x 36 14, y1 := fld x 50 14 }

/-- The tiles of a rectangle in row-major order. -/
def Rect.tiles (r : Rect) : List (Nat × Nat × Nat) :=
  if r.surf = 0 then [] else
  (List.range (r.y1 + 1 - r.y0)).flatMap (fun j => (List.range (r.x1 + 1 - r.x0)).map (fun i => (r.surf, r.x0 + i, r.y0 + j)))

def Surf.parse (b : List Byte) : Surf := { base := natAt b 0 8, ntx := natAt b 8 2, nty := natAt b 10 2, tb := natAt b 12 4 }
def Surf.ok (s : Surf) : Bool := s.base % 128 == 0 && s.tb % 128 == 0 && s.tb != 0 && decide (s.tb ≤ 2 ^ 20)
def Surf.tileAt (s : Surf) (x y : Nat) : Nat := (s.base + (y * s.ntx + x) * s.tb) % 2 ^ 64

/-- A rectangle that R282 takes. -/
def Rect.ok (r : Rect) (surfs : List Surf) : Bool :=
  r.surf == 0 || (match surfs[r.surf - 1]? with
    | none => false
    | some s => decide (r.x0 ≤ r.x1) && decide (r.y0 ≤ r.y1) && decide (r.x1 < s.ntx) && decide (r.y1 < s.nty)
        && decide ((r.x1 + 1 - r.x0) * (r.y1 + 1 - r.y0) ≤ 64))

/-- The read rectangles of a task, and its write rectangles. -/
def readTiles (l : List Rect) : List (Nat × Nat × Nat) := (l.take 4).flatMap Rect.tiles
def writeTiles (l : List Rect) : List (Nat × Nat × Nat) := (l.drop 4).flatMap Rect.tiles

/-- Starts a TASKSET: its tasks wait for admission (R279, R282). -/
def execTaskset (q : Nat) (s : State) : Host.Outcome State Fault Refusal :=
  consume s q 2 (fun e p => do
    let b ← e.read needR p.at_ (64 * p.units) 8
    let ntask := natAt b 8 2
    let nsurf := natAt b 0x18 8
    let surf := natAt b 0x10 8
    let doneg := natAt b 0x20 8
    let unit_ := fun (t o n : Nat) => natAt b (64 * (t + 1) + o) n
    let lanes := fun (t : Nat) => fld (unit_ t 0x38 8) 8 7
    let ts := List.range ntask
    e.check (nsurf = 0 || decide (255 < nsurf) || ts.any (fun t => decide (64 < lanes t))) 3
    e.check (!zeroFrom b 0x0A 0x10 || !zeroFrom b 0x28 0x40
      || ts.any (fun t => fld (unit_ t 0x38 8) 1 7 != 0 || fld (unit_ t 0x38 8) 15 49 != 0)) 4
    e.addr surf 16
    e.addr doneg 8
    e.doneg doneg
    ts.forM (fun t => e.addr (unit_ t 0 8) 64)
    let sb ← e.read needR surf (16 * nsurf) 8
    let surfs := (List.range nsurf).map (fun i => Surf.parse (bytesAt sb (16 * i) 16))
    e.check (!surfs.all Surf.ok) 7
    let tasks ← ts.mapM (fun t => do
      let rects := (List.range 6).map (fun i => Rect.parse (unit_ t (8 + 8 * i) 8))
      let l ← e.launch (unit_ t 0 8) p.id p.q.ridx 0 p.cls
      if l.nxf != 0 then let _ ← e.xforms l
      let w := writeTiles rects
      e.check (!rects.all (fun r => r.ok surfs) || w.eraseDups.length != w.length || decide (l.vregs < 3)) 7
      pure ({ lrec := unit_ t 0 8, proto := l, rects, pack := unit_ t 0x38 1 % 2 == 1, lanes := lanes t } : Task))
    let home ← e.runs needR kindRead p.ring 8 8
    let m ← get
    let set_ : TaskSet := { ctx := e.c, queue := p.id, pkt := p.q.ridx, span := homeSpan ((home.head?.map (·.1)).getD 0), surfs, tasks }
    set { (m.dropData e.c).dropCode e.c with tsets := put m.tsets m.nextId set_, nextId := m.nextId + 1 }
    pure { start := some (.taskset m.nextId, doneg) })

/-! ## Admission (R283) -/

def TState.pending (s : TState) : Bool := s == .admitted || s == .started

def Mach.task? (m : Mach) (t : Nat × Nat) : Option Task := (lookup m.tsets t.1).bind (fun s => s.tasks[t.2]?)
def Mach.pendingTask (m : Mach) (t : Nat × Nat) : Bool := match m.task? t with | some k => k.state.pending | none => false

def Mach.updTset (m : Mach) (ts : Nat) (f : TaskSet → TaskSet) : Mach := { m with tsets := upd m.tsets ts f, changes := m.changes + 1 }
def Mach.updTask (m : Mach) (t : Nat × Nat) (f : Task → Task) : Mach := m.updTset t.1 (fun s => { s with tasks := s.tasks.modify t.2 f })

/-- Entries of a span's clearing table in use. -/
def Mach.entries (m : Mach) (span : Nat) : List Nat :=
  m.tsets.flatMap (fun (s : Nat × TaskSet) =>
    if s.2.span = span && !s.2.freed then (s.2.tasks.filter (fun t => t.state != .waiting)).map (fun t => t.entry) else [])

def firstFree (used : List Nat) (n : Nat) : Option Nat := (List.range n).find? (fun i => !used.contains i)

/-- A rename-pool tile of `n` bytes: the lowest 128-byte boundary where it fits. -/
def poolFit (base size n : Nat) (used : List (Nat × Nat)) : Option Nat :=
  let fits := fun (a : Nat) => decide (a + n ≤ base + size) && !used.any (fun u => meets a n u.1 u.2)
  let ends := (used.map (fun u => 128 * ceilDiv (u.1 + u.2) 128)).filter (fun a => decide (base ≤ a))
  (base :: ends).foldl (fun (b : Option Nat) a => if fits a && (match b with | some y => decide (a < y) | none => true) then some a else b) none

/-- What admission builds for one task. -/
structure Admit where
  tiles : List Tile
  pool : List (Nat × Nat)
  deps : List (Nat × Nat) := []
  copies : List (Nat × Nat × Nat) := []

/-- Surface address of a tile of a taskset, which names it in the table, and its bytes. -/
def TaskSet.homeOf (s : TaskSet) (k : Nat × Nat × Nat) : Nat := match s.surfs[k.1 - 1]? with | some f => f.tileAt k.2.1 k.2.2 | none => 0
def TaskSet.bytesOf (s : TaskSet) (k : Nat × Nat × Nat) : Nat := match s.surfs[k.1 - 1]? with | some f => f.tb | none => 0

def Tile.is (x : Tile) (span ctx home : Nat) : Bool := x.span == span && x.ctx == ctx && x.home == home

/-- What the table of the set's span keeps for a tile. -/
def TaskSet.tile (s : TaskSet) (l : List Tile) (k : Nat × Nat × Nat) : Tile :=
  (l.find? (fun (x : Tile) => x.is s.span s.ctx (s.homeOf k))).getD { span := s.span, ctx := s.ctx, home := s.homeOf k, cur := s.homeOf k }

def putTile (l : List Tile) (t : Tile) : List Tile := l.filter (fun (x : Tile) => !x.is t.span t.ctx t.home) ++ [t]

def addDep (l : List (Nat × Nat)) (u : Nat × Nat) : List (Nat × Nat) := if l.contains u then l else l ++ [u]

def TaskSet.readTile (m : Mach) (s : TaskSet) (t : Nat × Nat) (a : Admit) (k : Nat × Nat × Nat) : Admit :=
  let x := s.tile a.tiles k
  let deps := match x.writer with | some u => if m.pendingTask u then addDep a.deps u else a.deps | none => a.deps
  { a with deps, tiles := putTile a.tiles { x with readers := addDep x.readers t } }

def TaskSet.writeTile (m : Mach) (s : TaskSet) (base size : Nat) (t : Nat × Nat) (a : Admit) (k : Nat × Nat × Nat) : Admit :=
  let x := s.tile a.tiles k
  let tb := s.bytesOf k
  let deps := match x.writer with | some u => if m.pendingTask u && u != t then addDep a.deps u else a.deps | none => a.deps
  let readers := x.readers.filter (fun r => r != t && m.pendingTask r)
  let place := if readers.isEmpty then none else poolFit base size tb a.pool
  match place with
  | some p => { tiles := putTile a.tiles { x with cur := p, pooled := true, writer := some t, readers := [] }, deps
                pool := a.pool ++ [(p, tb)], copies := a.copies ++ [(x.cur, p, tb)] }
  | none => { a with deps := readers.foldl addDep deps, tiles := putTile a.tiles { x with writer := some t, readers := [] } }

/-- The versions that a rectangle's tiles have. -/
def TaskSet.mapOf (s : TaskSet) (l : List Tile) (r : Rect) : List Nat := r.tiles.map (fun k => (s.tile l k).cur)

/-- What admitting a task gives: the table and the pool, the task's dependences and copies, and its maps. -/
def TaskSet.admission (m : Mach) (s : TaskSet) (x : Ctx) (t : Nat × Nat) (k : Task) : Admit × List (Nat × List Nat) :=
  let a : Admit := { tiles := m.tiles, pool := x.pool }
  let a := (readTiles k.rects).foldl (s.readTile m t) a
  let reads := (k.rects.take 4).map (s.mapOf a.tiles)
  let a := (writeTiles k.rects).foldl (s.writeTile m x.rpbase x.rpsize t) a
  (a, (List.range 6).zip (reads ++ (k.rects.drop 4).map (s.mapOf a.tiles)))

/-- Admits a waiting task into an entry, unless a successor list that it would enter is full (R283). -/
def Mach.admitTask (m : Mach) (s : TaskSet) (x : Ctx) (t : Nat × Nat) (e : Nat) (k : Task) : Option Mach :=
  let (a, maps) := s.admission m x t k
  let full := fun (u : Nat × Nat) => match m.task? u with | some y => decide (192 ≤ y.succs.length) | none => false
  if a.deps.any full then none else
  let m := a.deps.foldl (fun (m : Mach) u => m.updTask u (fun (y : Task) => { y with succs := y.succs ++ [t] })) m
  let m := m.updTask t (fun (y : Task) => { y with state := .admitted, entry := e, preds := a.deps, maps, copies := a.copies })
  some ({ m with tiles := a.tiles }.updCtx s.ctx (fun x => { x with pool := a.pool }))

def execTaskAdmit (ts : Nat) (s : State) : Host.Outcome State Fault Refusal :=
  match lookup s.m.tsets ts with
  | none => .next s
  | some y =>
    match s.m.ctx? y.ctx, y.tasks.findIdx? (fun k => k.state == .waiting), firstFree (s.m.entries y.span) Config.clearingEntries with
    | some x, some t, some e =>
      if y.dead || !s.m.running x then .next s else
      match (y.tasks[t]?).bind (s.m.admitTask y x (ts, t) e) with
      | none => .next s
      | some m => .next { s with m }
    | _, _, _ => .next s

/-! ## The end of a taskset (R284) -/

/-- A version of a tile is in use: it is current, or a pending task's map or copy names it. -/
def Mach.refers (m : Mach) (c a : Nat) : Bool :=
  m.tiles.any (fun (x : Tile) => x.ctx == c && x.pooled && x.cur == a)
    || m.tsets.any (fun (s : Nat × TaskSet) => s.2.ctx == c && s.2.tasks.any (fun (k : Task) => k.state.pending &&
        (k.maps.any (fun (m : Nat × List Nat) => m.2.contains a) || k.copies.any (fun (c : Nat × Nat × Nat) => c.1 == a || c.2.1 == a))))

/-- Frees the pool tiles of a context that nothing refers to. -/
def Mach.freePool (m : Mach) (c : Nat) : Mach :=
  m.updCtx c (fun x => { x with pool := x.pool.filter (fun p => m.refers c p.1) })

/-- Ends a taskset that no task runs for any more, without copying tiles back: what it wrote in the pool is no version of
its tiles, and its packet does not complete (R298, as R343; notes/assumptions/14.md). -/
def Mach.endDead (m : Mach) (ts : Nat) : Mach :=
  match lookup m.tsets ts with
  | none => m
  | some y =>
    if !y.dead || y.tasks.any (fun (k : Task) => k.state == .started) then m else
    let ours := fun (x : Tile) => x.pooled && (match x.writer with | some w => w.1 == ts | none => false)
    Mach.freePool { (m.dropPkt y.queue y.pkt) with
      tsets := (del m.tsets ts).map (fun (s : Nat × TaskSet) => (s.1, { s.2 with tasks := s.2.tasks.map (fun (k : Task) =>
        { k with preds := k.preds.filter (fun u => u.1 != ts) }) }))
      tiles := m.tiles.map (fun (x : Tile) => if ours x then { x with cur := x.home, pooled := false, writer := none, readers := [] } else x)
      changes := m.changes + 1 } y.ctx

/-- A permission outcome halts the submitting queue (R298): no task of the packet starts after it, and those that run end. -/
def haltTasks (g : Mgmt) (ts : Nat) (y : TaskSet) (code : Nat) (m : Mach) : Mach :=
  ((haltQueue g m y.queue code y.pkt true).updTset ts (fun (s : TaskSet) => { s with dead := true })).endDead ts

/-! ## Start and retirement (R284, R285) -/

/-- Copies one tile between versions, at home. -/
def PkEnv.copyTile (e : PkEnv) (src dst n : Nat) : PkM Unit := do
  let rd ← e.runs needR kindEngine src n 8
  let wr ← e.runs needW kindEngine dst n 8
  let m ← get
  if m.poisonedRuns rd then throw PStop.poison
  let (data, m) := m.engineRead Config.cores e.c rd
  set (m.engineWrite Config.cores e.c wr data)

/-- The task control block of an entry (R285). -/
def tcbAt (x : Ctx) (e : Nat) : Nat := (x.tcbbase + 4096 * e) % 2 ^ 64

def PkEnv.writeTcb (e : PkEnv) (t : Nat) (k : Task) : PkM Unit := do
  let m ← get
  let a := tcbAt e.x k.entry
  e.write a (natBytes k.lrec 8 ++ natBytes k.preds.length 4 ++ natBytes k.succs.length 2 ++ natBytes t 1) 8
  k.maps.forM (fun (m : Nat × List Nat) => e.write (a + 0x100 + 512 * m.1) (m.2.flatMap (fun v => natBytes v 8)) 8)
  e.write (a + 0xD00) (k.succs.flatMap (fun u => natBytes ((m.task? u).elim 0 (fun (y : Task) => y.entry)) 4)) 8

/-- Starts a task whose predecessors have retired: its rename copies; its TCB, which no cached line hides from the task
(R207); its launch. -/
def execTaskStart (ts t : Nat) (s : State) : Host.Outcome State Fault Refusal :=
  match lookup s.m.tsets ts with
  | none => .next s
  | some y =>
    match y.tasks[t]?, s.m.ctx? y.ctx with
    | some k, some x =>
      if y.dead || k.state != .admitted || !k.preds.isEmpty || !s.m.running x then .next s else
      .next { s with m := runPk s.mgmt s.m y.ctx (haltTasks s.mgmt ts y) (fun e => do
        modify (fun m => (m.dropData e.c).dropCode e.c)
        k.copies.forM (fun (c : Nat × Nat × Nat) => e.copyTile c.1 c.2.1 c.2.2)
        e.writeTcb t k
        modify (fun m =>
          { (m.updTask (ts, t) (fun (k : Task) => { k with state := .started, copies := [], launch := some m.nextId })) with
            launches := put m.launches m.nextId { k.proto with task := some (ts, t) }, nextId := m.nextId + 1 })) }
    | _, _ => .next s

/-- A task's launch is complete: it retires, and no task depends on it any more. -/
def Mach.retireTask (m : Mach) (t : Nat × Nat) : Mach :=
  let m := { m with tsets := m.tsets.map (fun (s : Nat × TaskSet) => (s.1, { s.2 with tasks := s.2.tasks.map (fun (k : Task) =>
    { k with preds := k.preds.filter (fun u => u != t) }) })) }
  m.updTask t (fun (k : Task) => { k with state := .retired })

/-- Copies a tile of a taskset back to its surface, where its current version lies in the pool; a task of another taskset
that still reads the surface comes first. -/
def PkEnv.copyBack (e : PkEnv) (y : TaskSet) (x : Tile) : PkM Unit := do
  let m ← get
  let reads := fun (k : Task) => k.state.pending && (k.maps.any (fun (r : Nat × List Nat) => r.2.contains x.home) || k.copies.any (fun (r : Nat × Nat × Nat) => r.1 == x.home))
  if m.tsets.any (fun (s : Nat × TaskSet) => s.2.ctx == y.ctx && s.2.tasks.any reads) then throw PStop.wait
  let tb := (e.x.pool.find? (fun p => p.1 == x.cur)).elim 0 (·.2)
  e.copyTile x.cur x.home tb
  modify (fun m => { m with tiles := putTile m.tiles { x with cur := x.home, pooled := false }, changes := m.changes + 1 })

/-- Retires a task whose launch is complete; once every task of the packet has retired, the tiles are copied back, the pool
tiles and entries freed, and the packet completed, in this order (R284). -/
def execTaskRetire (ts t : Nat) (s : State) : Host.Outcome State Fault Refusal :=
  match lookup s.m.tsets ts with
  | none => .next s
  | some y =>
    match y.tasks[t]? with
    | none => .next s
    | some k =>
      let ends := k.state == .started && k.launch.isNone
      let done := y.tasks.zipIdx.all (fun (z : Task × Nat) => z.1.state == .retired || (ends && z.2 == t))
      if !ends && !done then .next s else
      .next { s with m := (runPk s.mgmt s.m y.ctx (haltTasks s.mgmt ts y) (fun e => do
        if ends then modify (fun m => (m.retireTask (ts, t)).freePool y.ctx)
        if done && !y.dead then
          if !y.freed then
            let m ← get
            (m.tiles.filter (fun (x : Tile) => x.pooled && (match x.writer with | some w => w.1 == ts | none => false))).forM (e.copyBack y)
            modify (fun m => (m.updTset ts (fun (s : TaskSet) => { s with freed := true })).freePool y.ctx)
          let m ← get
          e.finish y.queue y.pkt (m.donegOf y.queue y.pkt)
          modify (fun m => { m with tsets := del m.tsets ts, tiles := m.tiles.filter (fun (x : Tile) =>
            x.pooled || x.readers.any m.pendingTask || (match x.writer with | some w => m.pendingTask w | none => false)) }))).endDead ts }

end Sys2Proof.Machine
end

