-- ==== Sys2Proof/Machine/Units.lean ====
section
/-!
DEFINITION. The frame of the macros (spec/01_machine.md R40 to R42; spec/06_macros.md R153 to R156;
spec/12_recovery.md R334): issue to a unit, a step's reads and writes of memory, and the ways a macro ends.
-/

namespace Sys2Proof.Machine

/-! ## Memory inside a step (R155) -/

/-- What stops a step. -/
inductive MStop where
  | absent (va level : Nat) (kind : BitVec 5)
  | perm (va : Nat) (lanes : W64)
  | cause (code : Nat) (lanes : W64)
  | poison
  /-- an older access of the wave to the same bytes is not performed: the step is taken later (R155, R190) -/
  | busy
  deriving DecidableEq, Repr

/-- A step acts on the machine, and may stop; what it has filled in caches stays. -/
abbrev MacM := EStateM MStop Mach

/-- Whose step it is. -/
structure MacEnv where
  g : Mgmt
  core : Nat
  c : Nat
  x : Ctx
  /-- the wave's accesses that are outstanding -/
  older : List Access := []

/-- The consecutive pieces of `[a, a + n)` that lie in one line each. -/
def linePieces (a n : Nat) : List (Nat × Nat) :=
  (linesOf a n).map (fun l => let lo := max a (l * 128); (lo, min (a + n) (l * 128 + 128) - lo))

/-- Translates one piece. An address in an aperture is not global memory (notes/assumptions/16.md). -/
def MacEnv.at (e : MacEnv) (need : Need) (a n : Nat) : MacM Piece := fun m =>
  let va := a % 2 ^ 64
  if (e.x.steer va).1 != .global then .error (.cause 0x70 0) m
  else if !canonical va then .error (.cause 0x20 0) m
  else match xlate e.g m e.c va need with
    | (.ok pa leaf _, m) => if olderMeets e.older need.w va pa n then .error .busy m else .ok { pa, vpage := pageOf (va % 2 ^ 57), n, comp := compOf e.c leaf } m
    | (.absent lv, m) => .error (.absent va lv (if need.w then kindWrite else kindRead)) m
    | (.perm _, m) => .error (.perm va 0) m

/-- Reads a number like `ld` at wave scope. -/
def MacEnv.read (e : MacEnv) (a n : Nat) : MacM Nat := do
  let bs ← (linePieces a n).mapM (fun (x : Nat × Nat) => do
    let p ← e.at needR x.1 x.2
    let m ← get
    let (v, bad, m) := m.readPiece e.core e.c false p
    set m
    if bad then throw MStop.poison
    pure (natBytes v x.2))
  pure (bytesNat bs.flatten)

def MacEnv.readBytes (e : MacEnv) (a n : Nat) : MacM (List Byte) := do pure (natBytes (← e.read a n) n)

/-- Writes bytes like `st` at wave scope. -/
def MacEnv.write (e : MacEnv) (a : Nat) (l : List Byte) : MacM Unit :=
  (linePieces a l.length).forM (fun (x : Nat × Nat) => do
    let p ← e.at needW x.1 x.2
    modify (fun m => m.writePiece e.core e.c false p (bytesNat ((l.drop (x.1 - a)).take x.2))))

/-- Runs one lane's part of a step, keeping what stopped it. -/
def laneTry {α : Type} (f : MacM α) : MacM (Except MStop α) := fun m =>
  match f m with
  | .ok a m => .ok (.ok a) m
  | .error e m => .ok (.error e) m

/-- What lanes that stopped come to together: poison, the earliest stage, and absence before permission
(R319). -/
def stopsOf (l : List (Nat × MStop)) : Option MStop :=
  let causes := l.filterMap (fun x => match x.2 with | .cause c _ => some (x.1, c) | _ => none)
  let perms := l.filterMap (fun x => match x.2 with | .perm va _ => some (x.1, va) | _ => none)
  if l.any (fun x => x.2 == .busy) then some .busy
  else if l.any (fun x => x.2 == .poison) then some .poison
  else match causes with
    | (_, c) :: r =>
      let code := r.foldl (fun k y => min k y.2) c
      some (.cause code (maskOf ((causes.filter (fun y => y.2 == code)).map (·.1))))
    | [] =>
      match l.findSome? (fun x => match x.2 with | .absent va lv k => some (va, lv, k) | _ => none) with
      | some (va, lv, k) => some (.absent va lv k)
      | none => match perms with
        | (_, va) :: _ => some (.perm va (maskOf (perms.map (·.1))))
        | [] => none

/-! ## Fields of a macro -/

/-- The unit of an instruction: raster, blend, filter or traversal (R155). -/
inductive MUnit where
  | raster | blend | filter | traversal
  deriving DecidableEq, Repr

/-- Window, progress and reason registers, predicate, unit, and whether lanes work on their own. -/
structure MacFields where
  w : Nat
  sp : Nat
  sr : Nat
  cont : Bool
  k : Nat := 0
  lane : Bool := false
  unit : MUnit
  deriving DecidableEq, Repr

def OpMac.fields (o : OpMac) (unit : MUnit) : MacFields := { w := o.w.toNat, sp := o.sp.toNat, sr := o.sr.toNat, cont := o.cont, unit }

def macFields : Instr → Option MacFields
  | .rast o => some (OpMac.fields o .raster)
  | .oblend o => some (OpMac.fields o .blend)
  | .filt o => some { OpMac.fields o.m .filter with k := o.k.toNat, lane := true }
  | .travClosest o | .travAny o | .travBox o | .travSphere o => some { OpMac.fields o.m .traversal with k := o.k.toNat, lane := true }
  | .bvrefit o => some (OpMac.fields o.m .traversal)
  | _ => none

/-- The lanes that a macro of one half works for (R154). -/
def Wave.macroLanes (w : Wave) (f : MacFields) (p : Bool) : W64 := if f.lane then w.activeMask p f.k else (w.half p).exec

/-! ## How a macro ends (R42) -/

/-- Progress with IF clear and the steps done, the reason, the flags; then half 1's own macro, or the next
instruction. -/
def Wave.macroEnd (w : Wave) (f : MacFields) (p : Bool) (count : Nat) (reason : Nat) (fl : Flags) : Wave :=
  let w := (w.setS p f.sp (progress false count)).setS p f.sr (w64 reason)
  let w := w.updHalf p (fun h => { h with fpflag := h.fpflag ||| fl.setWidth 64 })
  if !p && w.groups.contains true && w.macroLanes f true != 0 then { w with inBar := true }
  else { w with pc := w.pc + 16, inBar := false }

/-- The count that a macro goes on from, and whether it starts afresh (R41). -/
def Wave.macroStart (w : Wave) (f : MacFields) (p : Bool) : Nat × Bool :=
  let x := w.getS p f.sp
  if bit x 63 || f.cont then (fld x.toNat 0 48, false) else (0, true)

/-! ## Issue -/

/-- What the checks at issue come to. -/
inductive MCheck where
  | ok
  | call (code : Nat)
  | trap (code : Nat)
  deriving DecidableEq, Repr

def Mach.unitFull (m : Mach) (core : Nat) (u : MUnit) : Bool :=
  decide (16 ≤ (m.units.filter (fun (y : UnitOp) => y.core == core && (macFields y.instr).elim false (fun f => f.unit == u))).length)

/-- A macro goes to its unit for the first half that has work left, after the checks at issue (R154, R155). -/
def Env.issueMacro (e : Env) (i : Instr) (f : MacFields) (check : Bool → MCheck) (prep : Bool → UnitOp → Mach → UnitOp × Mach) : WOut :=
  match e.w.groups.find? (fun p => e.w.macroLanes f p != 0 && (p || !e.w.inBar)) with
  | none => .next e.m { e.w with pc := e.w.pc + 16, inBar := false }
  | some p =>
    if e.w.acc.any (fun a => !a.known) || e.m.unitFull e.w.core f.unit then e.halt .room
    else
      let (count, fresh) := e.w.macroStart f p
      match check p with
      | .trap code => e.before code (if p then 0 else e.w.macroLanes f false) (if p then e.w.macroLanes f true else 0)
      | .call code => .next e.m (e.w.macroEnd f p count code 0)
      | .ok =>
        let (u, m) := prep p { wave := e.id, half := p, core := e.w.core, ctx := e.w.ctx, instr := i, count, fresh } e.m
        .hold { m with units := m.units ++ [u], changes := m.changes + 1 } { e.w with inFlight := false } .unit

/-! ## Steps -/

/-- What a step that is written comes to. -/
inductive MEnd where
  | more
  | done
  | call (code : Nat)
  deriving DecidableEq, Repr

/-- The result of a step: the wave with its window, the flags it raised, and the count. -/
structure MStepRes where
  w : Wave
  fin : MEnd
  count : Nat
  flags : Flags := 0
  /-- descriptor or header as read at the first step of this issue -/
  desc : List Byte := []

def UnitOp.same (a b : UnitOp) : Bool := a.wave == b.wave && a.half == b.half

def Mach.dropUnit (m : Mach) (u : UnitOp) : Mach := { m with units := m.units.filter (fun (y : UnitOp) => !u.same y) }

/-- A stop leaves the PC on the macro: it issues itself again, with the flags of its written steps delivered and
the debug causes suppressed (R42, R334, R336). -/
def Wave.macroStop (w : Wave) (u : UnitOp) : Wave :=
  { w.updHalf u.half (fun h => { h with fpflag := h.fpflag ||| u.flags.setWidth 64 }) with
    quiet := true, inFlight := w.inFlight || !u.fresh }

/-- Writes what a step of a macro came to. -/
def afterStep (g : Mgmt) (u : UnitOp) (f : MacFields) (r : EStateM.Result MStop Mach MStepRes) (w : Wave) (x : Ctx) : Mach :=
  match r with
  | .ok s m =>
    let fl := u.flags ||| s.flags
    match s.fin with
    | .more =>
      let u' := { u with flags := fl, count := s.count, fresh := false, begun := true, desc := s.desc }
      { m.putWave u.wave (s.w.setS u.half f.sp (progress true s.count)) with units := updFirst u.same (fun _ => u') m.units }
    | .done => (m.dropUnit u).putWave u.wave { (s.w.macroEnd f u.half s.count 0 fl).retired with quiet := false }
    | .call code => (m.dropUnit u).putWave u.wave { (s.w.macroEnd f u.half s.count code fl).retired with quiet := false }
  | .error stop m =>
    let m := m.dropUnit u
    let w := w.macroStop u
    let all := w.macroLanes f u.half
    let req := fun (code : Nat) (addr : W64) (lanes : W64) =>
      let l := if lanes = 0 then all else lanes
      takeTrap g m u.wave { w with hold := .none } x
        { code, rpc := w.pc, addr, addr1 := addr, lanes0 := if u.half then 0 else l, lanes1 := if u.half then l else 0, quiet := true }
    match stop with
    | .absent va lv kind =>
      let m := m.absent u.ctx va lv kind
      m.putWave u.wave { w with hold := .wait m.changes (.page (pageOf (va % 2 ^ 57))) }
    | .perm va lanes => req 0x25 (w64 va) lanes
    | .cause code lanes => req code w.pc lanes
    | .poison => contextReset g (m.putWave u.wave w) u.ctx 0x52 0
    | .busy => m

/-- Macros stop at a step boundary (R42). -/
def Mach.stopUnits (m : Mach) (sel : UnitOp → Bool) : Mach :=
  (m.units.filter sel).foldl (fun (m : Mach) (u : UnitOp) =>
    (m.dropUnit u).updWave u.wave (fun w => { w.macroStop u with hold := .none })) m

end Sys2Proof.Machine
end

