-- ==== Sys2Proof/Machine/Place.lean ====
section
/-!
DEFINITION. Blocks on cores: bind records, the start and the resumption of blocks (spec/10_scheduling.md R287,
R288; spec/01_machine.md R10 to R12, R35; spec/09_progress.md R271) and pre-emption (R32, R330). Where images
lie is said in notes/assumptions/12.md.
-/

namespace Sys2Proof.Machine

/-! ## What a core has left (R11, R12, R271) -/

def Mach.residentBlocks (m : Mach) (core : Nat) : List (Nat × Block) :=
  m.blocks.filter (fun (b : Nat × Block) => b.2.core == core && b.2.state == .running && m.duty b.2.ctx)

/-- A quantity reserved by the blocks of a core. -/
def Mach.reserved (m : Mach) (core : Nat) (f : Launch → Nat) : Nat :=
  (m.residentBlocks core).foldl (fun n b => match m.launch? b.2.launch with | some l => n + f l | none => n) 0

/-- The declared scratchpad, slots and barriers of a launch fit in what is left of a core. -/
def Mach.fits (m : Mach) (core : Nat) (l : Launch) : Bool :=
  decide (m.reserved core Launch.spad + l.spad ≤ 384 * 1024) && decide (m.reserved core Launch.oms + l.oms ≤ 48)
    && decide (m.reserved core Launch.bars + l.bars ≤ 2048)

/-- No other context in comparator mode is resident on the core (R336). -/
def Mach.debugFits (m : Mach) (core c : Nat) (x : Ctx) : Bool :=
  x.debug != 2 || (m.residentBlocks core).all (fun b =>
    b.2.ctx == c || (match m.ctx? b.2.ctx with | some y => y.debug != 2 | none => true))

/-- The slots of a bind record, one mask for each hardware wave in order; none when an even and odd pair is
broken. -/
def slotMasks (slots : W64) (width : Width) : Option (List W64) :=
  match width with
  | .w64 =>
    let ps := List.range 32
    if ps.any (fun i => bit slots (2 * i) != bit slots (2 * i + 1)) then none
    else some ((ps.filter (fun i => bit slots (2 * i))).map (fun i => w64 (3 * 2 ^ (2 * i))))
  | _ => some ((bitsOf slots 64).map (fun i => w64 (2 ^ i)))

/-- Hardware waves of a block of `n` logical waves. -/
def hwWaves (width : Width) (n : Nat) : Nat := match width with | .w16 => ceilDiv n 2 | _ => n

/-- The partition that owns a core. -/
def Mgmt.partOf (g : Mgmt) (core : Nat) : Option Nat := (List.range 8).find? (fun p => g.ownsSpan p (spanOfCore core))

/-- Bytes of the images of a block of `n` hardware waves. -/
def Launch.imageBytes (l : Launch) (n : Nat) : Nat := 128 * (l.imageLines + n * l.waveLines 256)

/-- A place for images: on a line, above the debug record, in the partition's memory, and clear of the images that the
context has. -/
def imageFree (g : Mgmt) (m : Mach) (c : Nat) (x : Ctx) (a n : Nat) : Bool :=
  a % 128 == 0 && decide (x.imgbase + 512 ≤ a) && g.ownsRange x.part a n
    && !m.blocks.any (fun (b : Nat × Block) => b.2.ctx == c && (match m.launch? b.2.launch with
        | some l => meets a n b.2.image (128 * l.imageLines) | none => false))
    && !m.waves.any (fun (w : Nat × Wave) => w.2.ctx == c && (match m.launch? w.2.launch with
        | some l => meets a n w.2.image (128 * l.waveLines 256) | none => false))

/-! ## Slot-table records -/

/-- The record stands in the slot table that its core has now: those of the other functions are saved (R306). -/
def Mach.tableNow (m : Mach) (y : SlotRec) : Bool := (m.part y.part).running == y.vf

def Mach.recAt (m : Mach) (core idx : Nat) : Option SlotRec :=
  m.slotTab.find? (fun (y : SlotRec) => y.core == core && y.idx == idx && m.tableNow y)

def Mach.formingAt (m : Mach) (core idx : Nat) : Option Forming :=
  m.forming.find? (fun (f : Forming) => f.core == core && f.idx == idx && m.duty f.ctx)

/-- Writes a record of a context's block in the slot table of its function. -/
def Mach.setRec (m : Mach) (core idx c : Nat) (br : BindRec) (valid : Bool) (state : BitVec 2) (block : Option Nat) : Mach :=
  match m.ctx? c with
  | none => m
  | some x =>
    { m with slotTab := m.slotTab.filter (fun (y : SlotRec) => !(y.core == core && y.idx == idx && y.part == x.part && y.vf == x.vf))
                          ++ [{ core, idx, part := x.part, vf := x.vf, br, valid, state, block }] }

/-- A record that the dispatch hardware ignores: its state becomes 11. -/
def Mach.refuseRec (m : Mach) (core idx c : Nat) (r : BindRec) : Mach := m.setRec core idx c r true 3 none

/-- The Teller clears VALID of a record that has ended before it writes the place again (R287). -/
def Mach.clearRec (m : Mach) (core idx : Nat) : Mach :=
  { m with slotTab := m.slotTab.map (fun (y : SlotRec) =>
      if y.core == core && y.idx == idx && m.tableNow y && y.state == 2 then { y with valid := false } else y) }

/-! ## Starting a block -/

/-- One half of a wave that starts. -/
def startHalf (l : Launch) (waveid : Nat) (s0 s1 : W64) : Half :=
  if waveid < l.waves then freshHalf l.width l.width.lanes waveid s0 s1 none else absentHalf l.width

/-- The `k`-th hardware wave of a block that starts (R13 to R18, R37, R39). -/
def startWave (l : Launch) (lid c bid core : Nat) (slots : W64) (image born k : Nat) : Wave :=
  let w : Wave := { ctx := c, launch := lid, block := bid, core, slots, width := l.width, allow := l.allowance, sregs := l.sregs
                    pc := w64 (l.code + 8 * l.entry), image, born, resident := born }
  match l.width with
  | .w16 => { w with lo := startHalf l (2 * k) l.args (w64 l.lrec), hi := startHalf l (2 * k + 1) l.args (w64 l.lrec) }
  | _ => { w with lo := startHalf l k l.args (w64 l.lrec) }

/-- `v0` to `v2` of one lane of a task (R285). -/
def Wave.taskLane (w : Wave) (p : Bool) (lane tcb index : Nat) : Wave :=
  ((w.setV p 0 lane (BitVec.ofNat 32 tcb)).setV p 1 lane (BitVec.ofNat 32 (tcb / 2 ^ 32))).setV p 2 lane (BitVec.ofNat 32 index)

/-- `v0` to `v2` of every lane of a wave of a task's block. -/
def Wave.taskStart (w : Wave) (l : Launch) (blockid tcb : Nat) : Wave :=
  w.groups.foldl (fun (w : Wave) p =>
    if !(w.half p).present then w else
    (List.range w.W).foldl (fun (w : Wave) lane =>
      w.taskLane p lane tcb ((blockid * l.waves + (w.half p).waveid) * w.W + lane)) w) w

/-- The task control block of a launch that runs a task. -/
def Mach.tcbOf (m : Mach) (x : Ctx) (l : Launch) : Option Nat :=
  match l.task with
  | none => none
  | some (ts, t) => ((lookup m.tsets ts).bind (fun s => s.tasks[t]?)).map (fun k => tcbAt x k.entry)

/-- The launch, of those that wait for blocks, that a record names. -/
def Mach.launchFor (m : Mach) (c : Nat) (r : BindRec) : Option (Nat × Launch) :=
  let placed := fun (l : Launch) => match l.task with
    | none => false
    | some t => m.forming.any (fun (f : Forming) => f.tasks.any (fun p => p.ts == t.1 && p.t == t.2))
  m.launches.find? (fun (l : Nat × Launch) => l.2.ctx == c && l.2.lrec == r.lrec && l.2.task.isSome == r.task
    && decide (r.blockid < l.2.blocks) && !l.2.begun.contains r.blockid && l.2.waves == r.waves && !placed l.2)

/-- What a block's waves need fits the core now. -/
def Mach.room (g : Mgmt) (m : Mach) (core c : Nat) (x : Ctx) (l : Launch) (slots : W64) (lines : Nat) : Bool :=
  m.running x && !g.retmask.getLsbD core && m.fits core l && m.debugFits core c x && (slots &&& m.usedSlots core) == 0
    && decide (m.usedLines core + lines ≤ Config.budgetLines)

/-- The waves and the block, once the prologue has run. -/
def Mach.placeBlock (m : Mach) (core idx lid : Nat) (r : BindRec) (l : Launch) (b : Block) (fl : Flags) (bid : Nat)
    (ws : List Wave) : Mach :=
  let m := { m with
    blocks := put m.blocks bid b
    waves := ws.foldl (fun (l : List (Nat × Wave)) (w : Wave) => put l w.born w) m.waves
    nextId := bid + 1 + ws.length, changes := m.changes + 1 }
  let m := m.makeRoom core
  let m := m.updLaunch lid (fun (y : Launch) => { y with begun := r.blockid :: l.begun, flags := y.flags ||| fl })
  m.setRec core idx b.ctx r true 1 (some bid)

/-- Starts a block of a launch (R286, R287). When a transform fails, the queue halts, and the block ends with no wave
started, so that the launch runs to completion (R281; notes/assumptions/65.md). -/
def startBlock (g : Mgmt) (m : Mach) (core idx c : Nat) (x : Ctx) (r : BindRec) (lid : Nat) (l : Launch) : Mach :=
  match slotMasks r.slots l.width with
  | none => m.refuseRec core idx c r
  | some slots =>
    if slots.length != hwWaves l.width l.waves then m.refuseRec core idx c r else
    let bid := m.nextId
    let tcb := m.tcbOf x l
    let ws := (List.range slots.length).map (fun k =>
      let w := startWave l lid c bid core (slots.getD k 0) (r.bimg + 128 * (l.imageLines + k * l.waveLines 256)) (bid + 1 + k) k
      match tcb with | some t => w.taskStart l r.blockid t | none => w)
    let lines := ws.foldl (fun n w => n + w.lines) 0
    if !Mach.room g m core c x l r.slots lines || !(m.lineWaiters core).isEmpty || !imageFree g m c x r.bimg (l.imageBytes slots.length)
      then m else
    let b : Block := { ctx := c, launch := lid, core, idx, blockid := r.blockid, serial := bid, image := r.bimg, debug := m.debugRecord x }
    match ({ g, c, x : PkEnv }).prologue l r.blockid b m with
    | .ok (b, fl) m => m.placeBlock core idx lid r l b fl bid ws
    | .error (.err code) m =>
      let m := m.updLaunch lid (fun (y : Launch) => { y with begun := r.blockid :: y.begun, ended := y.ended + 1 })
      { (haltQueue g m l.queue code l.pkt true).setRec core idx c r true 2 none with changes := m.changes + 1 }
    | .error .poison m => { contextReset g m c 0x52 0 with changes := m.changes + 1 }
    | .error _ m => m

/-! ## Small tasks (R288) -/

/-- LANES rounded up to a power of two. -/
def pow2Up (n : Nat) : Nat := ((List.range 7).find? (fun i => decide (n ≤ 2 ^ i))).elim 64 (fun i => 2 ^ i)

/-- LANES of a small task. One of several waves or blocks is not packed (DESIGN CHOICE: R288 gives no lanes to a second
wave; notes/assumptions/14.md). -/
def Mach.smallTask (m : Mach) (l : Launch) : Option (Nat × Nat × Nat) :=
  match l.task with
  | none => none
  | some (ts, t) =>
    match (lookup m.tsets ts).bind (fun s => s.tasks[t]?) with
    | none => none
    | some k =>
      if k.pack && decide (1 ≤ k.lanes) && decide (2 * k.lanes ≤ l.width.lanes) && l.spad == 0 && l.bars == 0 && l.oms == 0
          && l.blocks == 1 && l.waves == 1 then some (ts, t, k.lanes) else none

/-- First lane after the tasks placed so far. -/
def Forming.top (f : Forming) : Nat := f.tasks.foldl (fun n p => max n (p.at_ + pow2Up p.lanes)) 0

/-- The launch of a placed task. -/
def Mach.placedLaunch (m : Mach) (p : Placed) : Option (Nat × Launch) :=
  ((lookup m.tsets p.ts).bind (fun s => s.tasks[p.t]?)).bind (fun k => k.launch.bind (fun l => (m.launch? l).map (fun y => (l, y))))

/-- Waves of two launches cannot tell which of them they run for: one code and entry, and the same record, arguments and
class, which `s0`, `s1` and `QCLASS` show (R288, R291). -/
def Launch.alike (a b : Launch) : Bool :=
  a.ctx == b.ctx && a.code == b.code && a.entry == b.entry && a.args == b.args && a.lrec == b.lrec && a.cls == b.cls

/-- The aligned range that a task of `n` lanes takes next, when the forming wave runs the same code and has room. -/
def Mach.joinAt (m : Mach) (f : Forming) (l : Launch) (n : Nat) : Option Nat :=
  let size := pow2Up n
  let at_ := size * ceilDiv f.top size
  let same := f.tasks.all (fun p => match m.placedLaunch p with
    | some (_, y) => y.alike l | none => false)
  if same && decide (at_ + size ≤ l.width.lanes) then some at_ else none

/-- `exec` of a packed wave: the lanes of its tasks. -/
def Forming.lanes (f : Forming) : W64 :=
  f.tasks.foldl (fun (k : W64) p => (List.range p.lanes).foldl (fun (k : W64) i => setBit k (p.at_ + i) true) k) 0

/-- Starts a partly formed wave in the place that its record names. -/
def startPacked (g : Mgmt) (m : Mach) (f : Forming) : Mach :=
  match m.recAt f.core f.idx, f.tasks.filterMap m.placedLaunch with
  | some rec_, (lid, l) :: rest =>
    match m.ctx? l.ctx with
    | none => m
    | some x =>
      let bid := m.nextId
      let w := startWave l lid l.ctx bid f.core rec_.br.slots (rec_.br.bimg + 128 * l.imageLines) (bid + 1) 0
      let e := f.lanes
      let w := { w with lo := { w.lo with exec := e, ended := ones l.width.lanes &&& ~~~e } }
      let w := f.tasks.foldl (fun (w : Wave) p =>
        match (m.placedLaunch p).bind (fun y => m.tcbOf x y.2) with
        | none => w
        | some t => (List.range p.lanes).foldl (fun (w : Wave) i => w.taskLane false (p.at_ + i) t i) w) w
      if !Mach.room g m f.core l.ctx x l rec_.br.slots w.lines || !(m.lineWaiters f.core).isEmpty
          || !imageFree g m l.ctx x rec_.br.bimg (l.imageBytes 1) then m else
      let b : Block := { ctx := l.ctx, launch := lid, core := f.core, idx := f.idx, blockid := 0, serial := bid, image := rec_.br.bimg
                         debug := m.debugRecord x, packed := rest.map (·.1) }
      match ({ g, c := l.ctx, x : PkEnv }).prologue l 0 b m with
      | .ok (b, fl) m =>
        let m := { m with forming := m.forming.filter (fun (y : Forming) => !(y.core == f.core && y.idx == f.idx && y.ctx == f.ctx)) }
        let m := m.placeBlock f.core f.idx lid rec_.br l b fl bid [w]
        rest.foldl (fun (m : Mach) y => m.updLaunch y.1 (fun (z : Launch) => { z with begun := [0], lead := some lid })) m
      | .error .poison m => { contextReset g m l.ctx 0x52 0 with changes := m.changes + 1 }
      | .error _ m => m
  | _, _ => m

/-- Places a small task in the wave that its record forms; a full wave starts at once. -/
def placeSmall (g : Mgmt) (m : Mach) (core idx : Nat) (r : BindRec) (l : Launch) (k : Nat × Nat × Nat) : Mach :=
  let old := m.formingAt core idx
  let slots := (slotMasks r.slots l.width).elim 0 List.length
  if slots != 1 then m.refuseRec core idx l.ctx r
  else
    let f : Forming := old.getD { core, idx, ctx := l.ctx, tasks := [] }
    match m.joinAt f l k.2.2 with
    | none => m
    | some at_ =>
      let f := { f with tasks := f.tasks ++ [{ ts := k.1, t := k.2.1, at_, lanes := k.2.2 }] }
      let m := { m with
        forming := m.forming.filter (fun (y : Forming) => !(y.core == core && y.idx == idx && y.ctx == f.ctx)) ++ [f], changes := m.changes + 1 }
      let m := if old.isSome then m else m.setRec core idx l.ctx r true 0 none
      if l.width.lanes ≤ f.top then startPacked g m f else m

/-- 2 µs after its first task was placed, a partly formed wave starts as it is (R288). -/
def execPackedWaveStart (core idx : Nat) (s : State) : Host.Outcome State Fault Refusal :=
  match s.m.formingAt core idx with
  | none => .next s
  | some f => .next { s with m := startPacked s.mgmt s.m f }

/-! ## Resumption (R31, R35) -/

/-- Restores a block from its image. WAVES counts the logical waves that return: a pair counts as two, a parked parent not
at all (notes/assumptions/12.md). -/
def resumeBlock (g : Mgmt) (m : Mach) (core idx c : Nat) (x : Ctx) (r : BindRec) (bid : Nat) (b : Block) (l : Launch) : Mach :=
  let away := fun (id : Nat) => m.spawnq.any (fun (k : Child) => k.parent == some id)
  let mine := m.waves.filter (fun (w : Nat × Wave) => w.2.block == bid && !away w.1)
  match slotMasks r.slots l.width with
  | none => m.refuseRec core idx c r
  | some slots =>
    if slots.length != hwWaves l.width r.waves || slots.length != mine.length || l.task.isSome != r.task then m.refuseRec core idx c r else
    let lines := mine.foldl (fun n w => n + w.2.lines) 0
    if !Mach.room g m core c x l r.slots lines || mine.any (fun w => !m.firstInLine core w.1 w.2.born) then m else
    let m := ((List.range mine.length).zip mine).foldl (fun (m : Mach) y => m.returnWave y.2.1 y.2.2 core (slots.getD y.1 0) y.2.2.hold.stopped) m
    let m := { m with
      changes := m.changes + 1
      array := m.array.map (fun (a : MCmd) => if a.block == bid then { a with core } else a) }
    let m := m.l1Drop (fun (y : L1Line) => y.ctx == c && (y.core == core || y.core == b.core))
    let m := if core == b.core then m else m.rdcDrop (fun (y : RdcLine) => y.ctx == c && y.span == spanOfCore core)
    let m := m.updBlock bid (fun b => { m.loadBlock b l with core, idx, state := .running, debug := m.debugRecord x })
    (m.makeRoom core).setRec core idx c r true 1 (some bid)

/-! ## The event -/

/-- The record's place is free: nothing runs or forms there. -/
def Mach.placeFree (m : Mach) (core idx : Nat) : Bool :=
  (m.formingAt core idx).isNone
    && (match m.recAt core idx with | some y => y.state != 1 | none => true)

/-- VALID goes from 0 to 1 in a bind record (R287), of the function whose slot tables the core has. -/
def bindRecord (g : Mgmt) (m : Mach) (core idx : Nat) (r : BindRec) : Mach :=
  if Config.cores ≤ core || 64 ≤ idx then m else
  match g.partOf core with
  | none => m
  | some part =>
    let c := ctxKey part r.ctxid
    match m.ctx? c with
    | none => m
    | some x =>
      if !m.duty c then m else
      let m := m.clearRec core idx
      if r.resume then
        if !m.placeFree core idx then m else
        match m.blocks.find? (fun (b : Nat × Block) => b.2.ctx == c && b.2.state == .preempted && b.2.image == r.bimg && b.2.blockid == r.blockid) with
        | none => m.refuseRec core idx c r
        | some (bid, b) =>
          match m.launch? b.launch with
          | none => m.refuseRec core idx c r
          | some l => resumeBlock g m core idx c x r bid b l
      else
        match m.launchFor c r with
        | none => if m.placeFree core idx then m.refuseRec core idx c r else m
        | some (lid, l) =>
          match m.smallTask l with
          | some k => if (match m.recAt core idx with | some y => y.state != 1 | none => true) then placeSmall g m core idx r l k else m
          | none => if m.placeFree core idx then startBlock g m core idx c x r lid l else m

def execBindRecordValid (core idx : Nat) (r : BindRec) (s : State) : Host.Outcome State Fault Refusal :=
  .next { s with m := bindRecord s.mgmt s.m core idx r }

/-! ## Pre-emption (R32, R330) -/

/-- A held load of a wave moves into the escrow log: its lanes whose pages translate complete, the absent ones make
entries, and a `PERMIT` is delivered. None while the log lacks room. -/
def escrowLoad (g : Mgmt) (m : Mach) (id : Nat) (w : Wave) (x : Ctx) (idx : Nat) (a : Access) : Option Mach :=
  let n := Ty.size a.ty
  let (f, m) := translateLanes g m w.ctx needR a.lanes
  if f.ok.any (fun y => !y.done && w.waits idx n true y) then none else
  let es := a.escrow w id (f.absent.map (·.1))
  if !m.escrowRoom w.core es.length then none else
  let m := m.absentLanes w.ctx kindRead (f.absent.filter (fun y => !x.pending.any (fun p => p.page == pageOf (y.1.va % 2 ^ 57))))
  let r := (m.takeEscrow w.ctx es).performLanes w { a with lanes := f.ok } (fun _ => true)
  if r.poison then some (contextReset g r.m w.ctx 0x52 0)
  else
    let w := { w with acc := w.acc.eraseIdx idx, heldLoad := w.heldLoad || !es.isEmpty }
    settle g r.m id { w with acc := a :: w.acc } x 0 { a with lanes := r.lanes, bad := a.bad ++ f.bad, held := false }

/-- Completes the accesses of a wave, in their order, as far as they go; a held load stays held, or is escrowed. -/
def drain (g : Mgmt) (id : Nat) (escrow : Bool) : Nat → Nat → Mach → Mach
  | 0, _, m => m
  | fuel + 1, idx, m =>
    match m.wave? id with
    | none => m
    | some w =>
      match w.acc[idx]?, m.ctx? w.ctx with
      | some a, some x =>
        let next : Option Mach :=
          match a.kind with
          | .load _ => if a.held then (if escrow then escrowLoad g m id w x idx a else none) else stepAccess g m id w x idx a (ones 64)
          | _ => stepAccess g m id w x idx a (ones 64)
        match next with
        | some m' => drain g id escrow fuel (if (m'.wave? id).bind (fun v => v.acc[idx]?) = some a then idx + 1 else idx) m'
        | none => drain g id escrow fuel (idx + 1) m
      | _, _ => m

/-- `LCNT` and `SCNT` are zero (R32). An atomic that returns a value has no escrow entry, and is waited for. -/
def Wave.drained (w : Wave) : Bool := w.acc.isEmpty

/-- Stops the commands of a block's waves at a step boundary and completes their accesses (R32 steps 1 and 2). -/
def Mach.quiesce (g : Mgmt) (m : Mach) (bids : List Nat) (escrow : Bool) : Mach :=
  let ids := (m.waves.filter (fun (w : Nat × Wave) => bids.contains w.2.block)).map (·.1)
  let m := (m.stopCmds (fun c => bids.contains c.block)).stopUnits (fun u => ids.contains u.wave)
  ids.foldl (fun (m : Mach) id =>
    match m.wave? id with
    | some w => drain g id escrow (5 * w.acc.length + 5) 0 m
    | none => m) m

/-- Every wave of a block has drained. -/
def Mach.blockDrained (m : Mach) (bid : Nat) : Bool := m.waves.all (fun (w : Nat × Wave) => w.2.block != bid || w.2.drained)

/-- Pre-empts a block (R32). -/
def preemptBlock (g : Mgmt) (m : Mach) (bid : Nat) : Mach :=
  match m.block? bid with
  | none => m
  | some b =>
    if b.state != .running then m else
    let m := { Mach.quiesce g m [bid] true with changes := m.changes + 1 }
    if (m.block? bid).isNone || !m.blockDrained bid then m else
    let m := m.l1Drop (fun (y : L1Line) => y.ctx == b.ctx && y.core == b.core)
    let m := m.saveBlock bid
    let off : Nat × Wave → Nat × Wave := fun w =>
      if w.2.block == bid && !w.2.parked then (w.1, { w.2 with saved := m.ccyc b.core, left := m.changes }) else w
    let m := { m with waves := m.waves.map off }
    let m := m.updBlock bid (fun b => { b with state := .preempted, omTags := [] })
    { m with slotTab := m.slotTab.map (fun (y : SlotRec) => if y.block == some bid then { y with valid := false, state := 0, block := none } else y) }

def execBlockPreempt (b : Nat) (s : State) : Host.Outcome State Fault Refusal :=
  match s.m.block? b with
  | none => .next s
  | some x =>
    match s.m.ctx? x.ctx with
    | some c => if s.m.running c then .next { s with m := preemptBlock s.mgmt s.m b } else .next s
    | none => .next s

end Sys2Proof.Machine
end

