-- ==== Sys2Proof/Machine/Sched.lean ====
section
/-!
DEFINITION. Virtual functions taking turns (spec/11_isolation.md R305, R306; spec/01_machine.md R33) and queue
classes (spec/10_scheduling.md R290). What R306 saves to the shadow store and restores stays in the state's records: a
context whose function is not the running one holds nothing of the cores (`Mach.duty`).
-/

namespace Sys2Proof.Machine

/-- The contexts of a function. -/
def Mach.ctxsOf (m : Mach) (part vf : Nat) : List Nat :=
  (m.ctxs.filter (fun (c : Nat × Ctx) => c.2.part == part && c.2.vf == vf)).map (·.1)

/-- A function has queued or resident work (R305). -/
def Mach.hasWork (m : Mach) (part vf : Nat) : Bool :=
  (m.ctxsOf part vf).any (fun c =>
    m.launches.any (fun (l : Nat × Launch) => l.2.ctx == c) || m.blocks.any (fun (b : Nat × Block) => b.2.ctx == c)
      || m.ops.any (fun (o : Nat × EngOp) => o.2.ctx == c) || m.tsets.any (fun (t : Nat × TaskSet) => t.2.ctx == c)
      || m.queues.any (fun (q : Nat × Queue) => q.2.ctx == c && !q.2.halted && q.2.waiting != 0))

/-- The function that runs next: the first with work after the running one, in ascending order round; the running one
when there is none. -/
def Mach.nextVf (g : Mgmt) (m : Mach) (part : Nat) : Nat :=
  let now := (m.part part).running
  let n := (g.entry part).nvf
  (((List.range n).map (fun i => (now + 1 + i) % n)).find? (fun v => m.hasWork part v)).getD now

/-- A slice ends: the partition's cores halt (R305), and what waits is reissued in the next slice (R334). A partition with one function never switches. -/
def execTimeSliceEnd (part : Nat) (s : State) : Host.Outcome State Fault Refusal :=
  if (s.mgmt.entry part).nvf ≤ 1 || (s.m.part part).halted then .next s else
  let cs := s.m.ctxsOf part (s.m.part part).running
  let bids := (s.m.blocks.filter (fun (b : Nat × Block) => cs.contains b.2.ctx && b.2.state == .running)).map (·.1)
  let m := s.m.quiesce s.mgmt bids false
  let m := { m with waves := m.waves.map (fun (w : Nat × Wave) =>
    if bids.contains w.2.block && !w.2.parked then (w.1, { w.2 with hold := w.2.hold.stopped }) else w) }
  .next { s with m := { m.putPart part { m.part part with halted := true } with changes := m.changes + 1 } }

/-- What a switch drops of the outgoing function's contexts (R306): L1 lines are written back first. -/
def switchOut (g : Mgmt) (m : Mach) (part : Nat) (cs : List Nat) : Mach :=
  let m := m.l1Drop (fun (x : L1Line) => cs.contains x.ctx)
  let m := m.rdcDrop (fun (x : RdcLine) => cs.contains x.ctx)
  { m with
    icache := m.icache.filter (fun (x : ILine) => !cs.contains x.ctx)
    maps := m.maps.filter (fun (x : MapWord) => !cs.contains x.ctx)
    latch := m.latch.filter (fun (x : Nat × Latch) => !(g.coresOf part).contains x.1) }

/-- The world switch, once the partition's cores have halted (R33, R306). -/
def execWorldSwitch (part vf : Nat) (s : State) : Host.Outcome State Fault Refusal :=
  let p := s.m.part part
  if !p.halted || vf != s.m.nextVf s.mgmt part then .next s else
  let m := if vf = p.running then s.m else switchOut s.mgmt s.m part (s.m.ctxsOf part p.running)
  .next { s with m := { m.putPart part { m.part part with running := vf, halted := false } with changes := m.changes + 1 } }

/-- A memory request of a class of the partition is outstanding. -/
def Mach.classBusy (m : Mach) (part cls : Nat) : Bool :=
  let mine := fun (c l : Nat) => ctxPart c == part && (match m.launch? l with | some y => y.cls == cls | none => false)
  m.waves.any (fun (w : Nat × Wave) => mine w.2.ctx w.2.launch && !w.2.acc.isEmpty)
    || m.ops.any (fun (o : Nat × EngOp) => match m.block? o.2.block with | some b => mine o.2.ctx b.launch | none => false)

/-- A class that has had no request for 1 µs is idle (R290); one that has is not. -/
def execQclassIdle (part cls : Nat) (s : State) : Host.Outcome State Fault Refusal :=
  if 8 ≤ cls || 8 ≤ part then .next s else
  let p := s.m.part part
  let b : BitVec 8 := 1#8 <<< cls
  .next { s with m := s.m.putPart part { p with idle := if s.m.classBusy part cls then p.idle &&& ~~~b else p.idle ||| b } }

end Sys2Proof.Machine
end

