-- ==== Sys2Proof/Machine/Resets.lean ====
section
/-!
DEFINITION. The scopes of reset (spec/13_containment.md R342 to R349) and bring-up (spec/14_system.md R360).
-/

namespace Sys2Proof.Machine

/-- A context reset as a step of its own (R343). -/
def execContextReset (ctx : Nat) (cause : BitVec 16) (addr : W64) (s : State) : Host.Outcome State Fault Refusal :=
  changed s (contextReset s.mgmt s.m ctx cause.toNat addr)

/-- Steps 1 to 6 of R343 for each of some contexts. -/
def resetAll (g : Mgmt) (m : Mach) (cs : List Nat) : Mach := cs.foldl (resetBody g) m

/-- A virtual-function reset (R349): its contexts stay registered. -/
def vfReset (g : Mgmt) (m : Mach) (part vf cause : Nat) : Mach :=
  let cs := m.ctxsOf part vf
  let m := resetAll g m cs
  let m := cs.foldl (fun (m : Mach) c => m.updCtx c (fun x => { x with pmc := [], pmsel := [] })) m
  let m := { m with queues := m.queues.map (fun (q : Nat × Queue) => if q.2.part == part && q.2.vf == vf then (q.1, { q.2 with rung := 0 }) else q) }
  m.report part vf 0xFFFF cause 1 0

def execVfReset (part vf : Nat) (s : State) : Host.Outcome State Fault Refusal :=
  if s.mgmt.hasVf part vf then changed s (vfReset s.mgmt s.m part vf 0) else .next s

/-- Zeroes spans: their stacks, and what their slices, remote-data caches and cores hold (R303). -/
def Mach.zeroSpans (m : Mach) (spans : BitVec 8) : Mach :=
  let here := fun (pa : Nat) => isMem pa && spans.getLsbD (homeSpan pa)
  let core := fun (c : Nat) => spans.getLsbD (spanOfCore c)
  { m with
    mem := m.mem.filter (fun (x : Host.Cell) => !here x.1)
    poison := m.poison.filter (fun l => !here (128 * l))
    ctags := m.ctags.filter (fun (x : Nat × Byte) => !here (2048 * x.1))
    coded := m.coded.filter (fun (x : Nat × List Byte) => !here (2048 * x.1))
    attrs := m.attrs.filter (fun (x : Nat × (Nat × Nat × Nat)) => !here (65536 * x.1))
    l1 := m.l1.filter (fun (x : L1Line) => !here (128 * x.line))
    l2 := m.l2.filter (fun (x : L2Line) => !here (128 * x.line))
    rdc := m.rdc.filter (fun (x : RdcLine) => !spans.getLsbD x.span && !here (128 * x.line))
    latch := m.latch.filter (fun (x : Nat × Latch) => !core x.1)
    slotTab := m.slotTab.filter (fun (x : SlotRec) => !core x.core)
    recent := m.recent.filter (fun (x : Recent) => !core x.core) }

/-- A partition reset (R349): every context is unregistered and the spans are zeroed. -/
def partitionReset (g : Mgmt) (m : Mach) (part cause : Nat) : Mach :=
  let cs := (m.ctxs.filter (fun (c : Nat × Ctx) => c.2.part == part)).map (·.1)
  let m := cs.foldl Mach.unregister (resetAll g m cs)
  let m := m.zeroSpans (g.entry part).spans
  let m := m.putPart part { m.part part with running := 0, halted := false }
  (List.range (g.entry part).nvf).foldl (fun (m : Mach) v => m.report part v 0xFFFF cause 2 0) m

def execPartitionReset (part : Nat) (s : State) : Host.Outcome State Fault Refusal :=
  if s.mgmt.hasVf part 0 then changed s (partitionReset s.mgmt s.m part 0) else .next s

/-! ## The management plane's messages (R358) -/

/-- An alert goes out on the port and as a message to MGMTINT. -/
def State.alert (s : State) (a : Alert) : State :=
  { s with
    mgmt := { s.mgmt with alerts := s.mgmt.alerts ++ [a] }
    m := { s.m with msis := s.m.msis ++ [((s.mgmt.mgmtPage &&& ~~~7#64).toNat, s.mgmt.mgmtEiid.toNat % 2048)] } }

/-! ## Bring-up (R349, R360) -/

/-- What is left of the machine after power-off or device reset: what has been sent, and the model's own counters. -/
def Mach.cleared (m : Mach) : Mach :=
  { peerOut := m.peerOut, outside := m.outside, msis := m.msis, nextId := m.nextId, changes := m.changes + 1, tick := m.tick, free := m.free
    boot := m.tick }

/-- Every image verifies in bank A or else in bank B (R360). -/
def Mgmt.boots (g : Mgmt) : Bool := (g.bankA ||| g.bankB) == 7

/-- The management plane as bring-up leaves it: retirement, the flash banks and the installed keys last (R351, R360). -/
def Mgmt.booting (g : Mgmt) : Mgmt :=
  { booted := g.boots, recovery := !g.boots, replaceRequest := g.replaceRequest, retmask := g.retmask, table := resetTable
    bankA := g.bankA, bankB := g.bankB, keys := g.keys, alerts := g.alerts }

/-- The boot sequence: images are verified, stacks and links trained, memory zeroed; BOOTED and RESETDONE, or recovery with
BOOTFAIL. The reset is reported to each function that the partition table then has (R347). A trip at 110 °C is reported by BOOTFAIL too. -/
def bringUp (s : State) (cause : Nat) : State :=
  let g := s.mgmt.booting
  let t : State := { s with mgmt := g, m := { s.m.cleared with vfs := (List.range 8).map (fun p => (16 * p, bootVf cause (s.m.vf p 0))) } }
  let t := if s.mgmt.tripped then t.alert .bootfail else t
  if g.booted then t.alert .resetdone else t.alert .bootfail

/-- A device reset, requested or caused. -/
def deviceReset (s : State) (cause : Nat) : State := if s.mgmt.powered then bringUp s cause else s

def execDeviceReset (s : State) : Host.Outcome State Fault Refusal := .next (deviceReset s 0)

/-- Power-on of a module that is off. -/
def execPowerOn (s : State) : Host.Outcome State Fault Refusal := .next (if s.mgmt.powered then s else bringUp s 0)

end Sys2Proof.Machine
end

