-- ==== Sys2Proof/Machine/Manage.lean ====
section
/-!
DEFINITION. Requests of the management port, errors of the arrays, links, power and temperature (spec/11_isolation.md
R302, R303; spec/13_containment.md R350, R351; spec/14_system.md R356 to R361).
-/

namespace Sys2Proof.Machine

/-- The partition table is one that R302 accepts. -/
def legalTable (t : List PartEntry) : Bool :=
  t.length == 8
    && (List.range 8).all (fun i => (List.range 8).all (fun j =>
        i == j || (match t[i]?, t[j]? with
          | some a, some b => (a.spans &&& b.spans) == 0 && (a.links &&& b.links) == 0
          | _, _ => true)))
    && decide ((t.map PartEntry.fshare).sum ≤ 256)
    && t.all (fun e => decide (1 ≤ e.nvf) && decide (e.nvf ≤ 16) && decide (100 ≤ e.slice) && decide (e.slice ≤ 100000))

/-- A request of the port to a module that has power. -/
def managed (s : State) (f : State → State) : Host.Outcome State Fault Refusal := .next (if s.mgmt.powered then f s else s)

/-! ## Partitions (R302, R303) -/

def spansIn (t : List PartEntry) (p : Nat) : BitVec 8 := (t[p]?).elim 0 (fun e => e.spans)

/-- Spans that a partition would lose, or gain. -/
def lostSpans (old new : List PartEntry) (p : Nat) : BitVec 8 := spansIn old p &&& ~~~(spansIn new p)
def wonSpans (old new : List PartEntry) (p : Nat) : BitVec 8 := spansIn new p &&& ~~~(spansIn old p)

/-- A span moves only while every context on it is retired. -/
def spansFree (s : State) (t : List PartEntry) : Bool :=
  (List.range 8).all (fun p => lostSpans s.mgmt.table t p == 0 || !s.m.ctxs.any (fun (c : Nat × Ctx) => c.2.part == p))

def execWritePartitionTable (t : List PartEntry) (s : State) : Host.Outcome State Fault Refusal :=
  managed s (fun s =>
    if !legalTable t || !spansFree s t then s else
    let won := (List.range 8).foldl (fun (k : BitVec 8) p => k ||| wonSpans s.mgmt.table t p) 0
    let m := s.m.zeroSpans won
    let m := (List.range 8).foldl (fun (m : Mach) p =>
      if spansIn s.mgmt.table p = 0 && spansIn t p != 0 then m.putPart p {} else m) m
    { s with mgmt := { s.mgmt with table := t }, m := { m with changes := m.changes + 1 } })

/-! ## Links and peer windows (R356, R357) -/

/-- A window word that is taken: no reserved bit, and its links belong to one partition. -/
def windowOk (g : Mgmt) (x : W64) : Bool :=
  let links : BitVec 16 := x.extractLsb' 32 16
  x &&& 0x7FFF0000000000FF#64 == 0 && (List.range 8).any (fun p => links &&& ~~~(g.entry p).links == 0)

def execWritePeerWindow (w : Nat) (word : W64) (s : State) : Host.Outcome State Fault Refusal :=
  managed s (fun s =>
    if 16 ≤ w || !windowOk s.mgmt word then s
    else { s with mgmt := { s.mgmt with windows := mset 0 s.mgmt.windows w word }, m := { s.m with changes := s.m.changes + 1 } })

/-- Failed replays in a row on a link. -/
def Mgmt.failures (g : Mgmt) (link : Nat) : Nat := mget 0 g.replays link

/-- A flit that failed its CRC is replayed: the replay gets through, or fails in its turn. -/
def execFlitCrcFail (x : FlitReplay) (s : State) : Host.Outcome State Fault Refusal :=
  managed s (fun s =>
    if 16 ≤ x.link || s.mgmt.linkDown.getLsbD x.link then s
    else { s with mgmt := { s.mgmt with replays := mset 0 s.mgmt.replays x.link (if x.ok then 0 else s.mgmt.failures x.link + 1) } })

/-- Descriptors of the collectives in flight. -/
def Mach.collDescs (m : Mach) : List Nat :=
  (m.ops.filterMap (fun (o : Nat × EngOp) => match o.2.kind with | .coll _ _ _ _ _ d _ => some d | _ => none)).eraseDups

/-- After 8 failed replays in a row the link is down. Collectives whose descriptor no link reaches any more end with
LINK. -/
def execLinkdown (link : Nat) (s : State) : Host.Outcome State Fault Refusal :=
  managed s (fun s =>
    if 16 ≤ link || s.mgmt.linkDown.getLsbD link || s.mgmt.failures link < 8 then s else
    let g := { s.mgmt with linkDown := s.mgmt.linkDown ||| (1#16 <<< link) }
    let cut := s.m.collDescs.filter (fun (d : Nat) => !isMem d && g.windowDown d)
    let m := cut.foldl (fun (m : Mach) (d : Nat) => collEnd m d 6 []) s.m
    ({ s with mgmt := g, m := { m with changes := m.changes + 1 } } : State).alert .linkdown)

/-! ## Errors (R350, R351) -/

def execSetErrorThreshold (n : Nat) (s : State) : Host.Outcome State Fault Refusal :=
  managed s (fun s => { s with mgmt := { s.mgmt with threshold := n } })

def execCorrectedError (x : CountSite) (s : State) : Host.Outcome State Fault Refusal :=
  managed s (fun s =>
    match x with
    | .core c => { s with mgmt := { s.mgmt with coreErrs := mset 0 s.mgmt.coreErrs c (mget 0 s.mgmt.coreErrs c + 1) } }
    | .span p => { s with mgmt := { s.mgmt with spanErrs := mset 0 s.mgmt.spanErrs p (mget 0 s.mgmt.spanErrs p + 1) } })

/-- An error that cannot be corrected: data at home is poisoned, and a structure resets its owner. -/
def execUncorrectableError (x : ErrSite) (s : State) : Host.Outcome State Fault Refusal :=
  managed s (fun s =>
    let with_ : Mach → State := fun m => { s with m := { m with changes := m.changes + 1 } }
    match x with
    | .line pa =>
      if isMem pa && !s.m.poison.contains (lineOf pa) then with_ { s.m with poison := s.m.poison ++ [lineOf pa] } else s
    | .l1 core ctx line => if s.m.l1.any (fun y => y.is core ctx line) then with_ (contextReset s.mgmt s.m ctx 0x52 0) else s
    | .ctxOwned _ ctx => with_ (contextReset s.mgmt s.m ctx 0x52 0)
    | .spanOwned span =>
      match (List.range 8).find? (fun p => s.mgmt.ownsSpan p span) with
      | some p => with_ (partitionReset s.mgmt s.m p 0x52)
      | none => s
    | .deviceOwned => deviceReset s 0x52)

/-- The corrected errors of a core have passed the threshold: it takes no new block, its resident blocks are pre-empted,
and it is disabled. Blocks that must drain first are pre-empted when the step is taken again. -/
def execCoreRetire (core : Nat) (s : State) : Host.Outcome State Fault Refusal :=
  managed s (fun s =>
    if Config.cores ≤ core || mget 0 s.mgmt.coreErrs core ≤ s.mgmt.threshold then s else
    let g := { s.mgmt with retmask := s.mgmt.retmask ||| (1#192 <<< core), replaceRequest := true }
    let m := (s.m.residentBlocks core).foldl (fun (m : Mach) b => preemptBlock g m b.1) s.m
    let t : State := { s with mgmt := g, m := { m with changes := m.changes + 1 } }
    if s.mgmt.retmask.getLsbD core then t else t.alert .replaceRequest)

/-! ## Power, temperature, firmware (R358 to R360) -/

/-- The cap is at most 1,900 W. -/
def execSetPowerCap (watts : Nat) (s : State) : Host.Outcome State Fault Refusal :=
  managed s (fun s => if 1900 < watts then s else { s with mgmt := { s.mgmt with powerCap := watts } })

/-- The clocks go down by 100 MHz, to no less than 1.2 GHz. -/
def execThermalThrottle (s : State) : Host.Outcome State Fault Refusal :=
  managed s (fun s =>
    let t : State := { s with mgmt := { s.mgmt with throttled := true, clock := max 1200 (s.mgmt.clock - 100) }, m := { s.m with free := s.m.free + 1 } }
    t.alert (if Config.throttledByPower s.m.free then .powercap else .thermal))

/-- At 110 °C the module powers off. -/
def execThermalTrip (s : State) : Host.Outcome State Fault Refusal :=
  managed s (fun s => { s with mgmt := { s.mgmt with powered := false, booted := false, tripped := true }, m := { s.m.cleared with vfs := [] } })

/-- Whether each image of a bank verifies, with one image installed anew. -/
def setImage (bank : BitVec 3) (i : Nat) (ok : Bool) : BitVec 3 :=
  if ok then bank ||| (1#3 <<< i) else bank &&& ~~~(1#3 <<< i)

def execInstallFirmware (x : FwItem) (s : State) : Host.Outcome State Fault Refusal :=
  managed s (fun s =>
    match x with
    | .bankA i ok => { s with mgmt := { s.mgmt with bankA := setImage s.mgmt.bankA i ok } }
    | .bankB i ok => { s with mgmt := { s.mgmt with bankB := setImage s.mgmt.bankB i ok } }
    | .ucodeKey k => { s with mgmt := { s.mgmt with keys := addPage s.mgmt.keys k } })

end Sys2Proof.Machine
end

