-- ==== Sys2Proof/Machine/HostAccess.lean ====
section
/-!
DEFINITION. Accesses from outside the cores: application cores, PCIe devices and peer modules (spec/14_system.md R353,
R354, R357, R358; spec/11_isolation.md R303, R316; spec/10_scheduling.md R278). They read and write memory at its home.
-/

namespace Sys2Proof.Machine

/-- The owner tag of requests that no context makes. -/
def outsideTag : Nat := 8 * 65536

def ExtOp.bytes : ExtOp → Nat
  | .read n => n
  | .write l => l.length
  | .atom _ t _ _ => Ty.size t

/-- A request to memory, performed at home: what it reads is the last value that an outside master received. -/
def Mach.outsideAt (m : Mach) (pa : Nat) (x : ExtOp) : Mach :=
  let touch := fun (m : Mach) (dirty : Bool) => (linesOf pa (ExtOp.bytes x)).foldl (fun (m : Mach) l => m.l2Touch outsideTag l dirty none) m
  match x with
  | .read n => { touch m false with outside := m.rd pa n }
  | .write l => (touch m true).wr pa l
  | .atom op t b c =>
    if pa % Ty.size t != 0 then m else
    let old := m.rdN pa (Ty.size t)
    { (touch m true).wrN pa (Ty.size t) (atomFn op t old b.toNat c.toNat) with outside := natBytes old (Ty.size t) }

/-- The bytes lie in memory that exists, in one stack. -/
def memRange (pa n : Nat) : Bool := decide (0 < n) && isMem pa && isMem (pa + n - 1) && homeSpan pa == homeSpan (pa + n - 1)

/-! ## The I/O window of the host (R354) -/

/-- What an address of the window names. -/
inductive IoAt where
  | doorbell (part vf off : Nat)
  | control (part vf off : Nat)
  | status (off : Nat)
  | pcie
  | peer
  | hole
  deriving DecidableEq, Repr

def ioAt (pa : Nat) : IoAt :=
  let o := pa - 2 ^ 51
  if pa < 2 ^ 51 || 2 ^ 52 ≤ pa then .hole
  else if o < 2 ^ 20 then
    let page := o / 8192
    if o % 8192 < 4096 then .doorbell (page / 16) (page % 16) (o % 4096) else .control (page / 16) (page % 16) (o % 4096)
  else if 2 ^ 32 ≤ o && o < 2 ^ 32 + 4096 then .status (o % 4096)
  else if 2 ^ 48 ≤ o && o < 2 ^ 48 + 2 ^ 44 then .pcie
  else if 2 ^ 50 ≤ o && o < 2 ^ 50 + 2 ^ 46 then .peer
  else .hole

/-- The bytes of a control page (R316, R347). -/
def Vf.page (v : Vf) : List Byte :=
  b8 v.op ++ b8 v.arg0 ++ b8 v.arg1 ++ b8 v.arg2 ++ b8 v.arg3 ++ b8 v.status ++ b8 v.result ++ zeros 8 ++ b8 v.rstcnt ++ b8 v.rstinfo ++ b8 v.rstaddr

/-- The bytes of the device status block (R358). -/
def Mgmt.statusBlock (g : Mgmt) : List Byte :=
  let n := ((List.range Config.cores).filter (fun c => g.retmask.getLsbD c)).length
  let bit_ := fun (b : Bool) (i : Nat) => if b then 2 ^ i else 0
  natBytes (n % 256 + bit_ g.replaceRequest 63 + bit_ g.throttled 62 + bit_ g.booted 61) 8 ++ natBytes g.retmask.toNat 24 ++ b8 g.mgmtPage ++ b8 g.mgmtEiid

/-- A request of a driver whose arguments stand in its control page: writing OP starts it. -/
def startRequest (s : State) (part vf : Nat) (op : W64) : Host.Outcome State Fault Refusal :=
  let v := s.m.vf part vf
  if undefinedReq op v.arg3 then execCtlUndefinedRequest part vf op v.arg3 s else
  match op.toNat with
  | 1 => execCtlTlbinv part vf v.arg0 v.arg1 v.arg2 v.arg3 s
  | 2 => execCtlQrst part vf v.arg0 v.arg1 s
  | 3 => execCtlPmctl part vf v.arg0 v.arg2 s
  | 4 => execRegisterContext part vf v.arg0 s
  | 5 => execRetireContext part vf v.arg0 s
  | 6 => execSetInterruptRecord part vf v.arg0 s
  | _ => execCtlResetContext part vf v.arg0 s

/-- An argument of a control page. -/
def Vf.setArg (v : Vf) (off : Nat) (x : W64) : Vf :=
  match off with
  | 0x08 => { v with arg0 := x }
  | 0x10 => { v with arg1 := x }
  | 0x18 => { v with arg2 := x }
  | 0x20 => { v with arg3 := x }
  | _ => v

/-- A host access to the I/O window for a partition. -/
def ioAccess (s : State) (part pa : Nat) (x : ExtOp) : Host.Outcome State Fault Refusal :=
  let got := fun (l : List Byte) => Host.Outcome.next { s with m := { s.m with outside := l } }
  let open_ := fun (n : Nat) => got ((List.range n).map (fun i => Config.ioByte s.m.tick (pa + i)))
  match ioAt pa, x with
  | .doorbell p v o, .write l => if o % 8 = 0 && l.length = 8 then execDoorbell p v (o / 8) (w64 (bytesNat l)) s else .next s
  | .doorbell _ _ _, .read n => open_ n
  | .control p v o, .read n => if s.mgmt.hasVf p v then got (bytesAt (s.m.vf p v).page o n) else .next s
  | .control p v o, .write l =>
    if !s.mgmt.hasVf p v || l.length != 8 then .next s
    else if o = 0 then startRequest s p v (w64 (bytesNat l))
    else .next { s with m := s.m.putVf p v ((s.m.vf p v).setArg o (w64 (bytesNat l))) }
  | .status o, .read n => got (bytesAt s.mgmt.statusBlock o n)
  | .status o, .write l =>
    if l.length != 8 then .next s
    else if o = 0x20 then .next { s with mgmt := { s.mgmt with mgmtPage := w64 (bytesNat l) } }
    else if o = 0x28 then .next { s with mgmt := { s.mgmt with mgmtEiid := w64 (bytesNat l) } }
    else .next s
  | .pcie, .read n => open_ n
  | .peer, x =>
    if !s.mgmt.frameOk part pa || s.mgmt.windowDown pa then .next s else
    match x with
    | .read n => got (s.m.rdAny pa n)
    | .write l => .next { s with m := s.m.wrAny pa l }
    | .atom op t b c =>
      if pa % Ty.size t != 0 then .next s else
      let old := bytesNat (s.m.rdAny pa (Ty.size t))
      .next { s with m := { s.m.wrAny pa (natBytes (atomFn op t old b.toNat c.toNat) (Ty.size t)) with outside := natBytes old (Ty.size t) } }
  | _, _ => .next s

/-! ## The three masters -/

/-- A module that has booted serves an outside master. -/
def served (s : State) (ok : Bool) (pa : Nat) (x : ExtOp) : Host.Outcome State Fault Refusal :=
  if s.mgmt.booted && ok && memRange pa (ExtOp.bytes x) then changed s (s.m.outsideAt pa x) else .next s

/-- A load, store or atomic of an application core (R353), which carries a partition number as every request does (R303;
notes/assumptions/29.md). -/
def execHostMemoryAccess (a : HostAddr) (x : ExtOp) (s : State) : Host.Outcome State Fault Refusal :=
  if s.mgmt.booted && decide (2 ^ 51 ≤ a.pa) then ioAccess s a.part a.pa x else served s (s.mgmt.owns a.part a.pa) a.pa x

/-- A request of a PCIe device whose context names one partition; another frame is foreign (R303, R353). -/
def execPcieDma (part pa : Nat) (x : ExtOp) (s : State) : Host.Outcome State Fault Refusal :=
  served s (s.mgmt.owns part pa) pa x

/-- An access of a peer module on behalf of one of this module's partitions (R357). -/
def execPeerAccess (part pa : Nat) (x : ExtOp) (s : State) : Host.Outcome State Fault Refusal :=
  served s (s.mgmt.owns part pa) pa x

end Sys2Proof.Machine
end

