-- ==== Sys2Proof/Machine/Raster.lean ====
section
/-!
DEFINITION. `rast`: exact setup, coverage and depth (spec/06_macros.md R157 to R161), and `oblend`: ordered
blending (R162 to R165). Both work in the block's scratchpad.
-/

namespace Sys2Proof.Machine

/-- Word (i, j) of a window (R154). -/
def Wave.word (w : Wave) (p : Bool) (base i j : Nat) : Nat := (w.getV p (base + i) j).toNat
def Wave.setWord (w : Wave) (p : Bool) (base i j x : Nat) : Wave := w.setV p (base + i) j (BitVec.ofNat 32 x)

/-! ## rast -/

/-- The fields of CTL (R158). -/
def ctlSpp (x : Nat) : Nat := fld x 0 2
def samples (spp : Nat) : Nat := 2 ^ spp

/-- CTL, OX and OY hold legal values (R158). -/
def rastOk (ctl ox oy : Nat) : Bool :=
  fld ctl 8 24 == 0 && ctlSpp ctl != 3 && fld ctl 6 2 != 3
    && [ox, oy].all (fun o => decide (-32768 ≤ sext o 32) && decide (sext o 32 ≤ 32760))

def rastVB (w : Wave) (p : Bool) (b : Nat) : Nat := w.word p b 0 11 / 16 * 16

/-- The checks at every issue of a `rast` (R159). -/
def Env.rastCheck (e : Env) (b : Nat) (p : Bool) : MCheck :=
  let ctl := e.w.word p b 0 14
  if !rastOk ctl (e.w.word p b 0 9) (e.w.word p b 0 10) then .call 0x11
  else if e.l.spad < rastVB e.w p b + 16 * 64 * samples (ctlSpp ctl) then .trap 0x22
  else .ok

def execRast (o : OpMac) (s : State) : Host.Outcome State Fault Refusal :=
  withCur (fun e => e.issueMacro (.rast o) (OpMac.fields o .raster) (e.rastCheck o.w.toNat) (fun _ u m => (u, m))) s

/-- The setup words (R157). -/
structure RastSetup where
  a : List Int
  b : List Int
  c : List Int
  tl : Nat
  area : Int
  deriving DecidableEq, Repr

/-- A vertex coordinate as 16.8, round half to even; none when it is not finite or does not fit (R159). -/
def snap (x : Nat) : Option Int :=
  match Fmt.f32.val x with
  | .fin n m e =>
    let r := (roundInt .near n m (e + 8)).1
    let v : Int := if n then -(r : Int) else r
    if decide (-8388608 ≤ v) && decide (v < 8388608) then some v else none
  | _ => none

def finite32 (x : Nat) : Bool := match Fmt.f32.val x with | .fin _ _ _ => true | _ => false

def nth (l : List Int) (n : Nat) : Int := l.getD n 0

/-- Edges and area of three snapped vertices, before orientation (R159). -/
def rawSetup (x y : List Int) : RastSetup :=
  let va := fun (e : Nat) => (e + 1) % 3
  let vb := fun (e : Nat) => (e + 2) % 3
  let a := (List.range 3).map (fun e => nth y (va e) - nth y (vb e))
  let b := (List.range 3).map (fun e => nth x (vb e) - nth x (va e))
  let c := (List.range 3).map (fun e => -(nth a e) * nth x (va e) - nth b e * nth y (va e))
  { a, b, c, tl := 0, area := nth a 2 * nth x 2 + nth b 2 * nth y 2 + nth c 2 }

/-- Oriented, with the top-left bits (R159). -/
def RastSetup.orient (s : RastSetup) : RastSetup :=
  let s := if s.area < 0 then { s with a := s.a.map (- ·), b := s.b.map (- ·), c := s.c.map (- ·), area := -s.area } else s
  { s with tl := (List.range 3).foldl (fun k e => if nth s.a e > 0 || (nth s.a e == 0 && nth s.b e > 0) then k + 2 ^ e else k) 0 }

def RastSetup.ofWindow (w : Wave) (p : Bool) (base : Nat) : RastSetup :=
  let g := w.word p base 1
  { a := (List.range 3).map (fun e => sext (g (4 * e)) 32), b := (List.range 3).map (fun e => sext (g (4 * e + 1)) 32),
    c := (List.range 3).map (fun e => sext (g (4 * e + 2) + g (4 * e + 3) * 2 ^ 32) 64), tl := g 12 % 8,
    area := sext (g 13 + g 14 * 2 ^ 32) 64 }

def RastSetup.write (s : RastSetup) (w : Wave) (p : Bool) (base : Nat) : Wave :=
  let put := fun (w : Wave) (j : Nat) (x : Nat) => w.setWord p base 1 j x
  let w := (List.range 3).foldl (fun (w : Wave) e =>
    let c := wrapI (nth s.c e) 64
    put (put (put (put w (4 * e) (wrapI (nth s.a e) 32)) (4 * e + 1) (wrapI (nth s.b e) 32)) (4 * e + 2) (c % 2 ^ 32)) (4 * e + 3) (c / 2 ^ 32)) w
  let ar := wrapI s.area 64
  put (put (put (put w 12 s.tl) 13 (ar % 2 ^ 32)) 14 (ar / 2 ^ 32)) 15 0

/-- Sample offsets (R160). -/
def sampleAt (spp s : Nat) : Nat × Nat :=
  match spp, s with
  | 0, _ => (128, 128)
  | 1, 0 => (64, 64)
  | 1, _ => (192, 192)
  | _, 0 => (96, 32)
  | _, 1 => (224, 96)
  | _, 2 => (32, 160)
  | _, _ => (160, 224)

/-- The depth test: NaN compares false except notequal (R158, R161). -/
def depthPass (zf z old : Nat) : Bool :=
  let o := Fmt.f32.cmp z old
  match zf with
  | 0 => false
  | 1 => o == some .lt
  | 2 => o == some .eq
  | 3 => o == some .lt || o == some .eq
  | 4 => o == some .gt
  | 5 => o != some .eq
  | 6 => o == some .gt || o == some .eq
  | _ => true

/-- The depth at a sample: the exact quotient, rounded once (R161). -/
def depthAt (z : List Nat) (e : List Int) (area : Int) : Nat × Flags :=
  let s := (z.zip e).foldl (fun (s : GSum) x => s.addProduct (.ieee .f32 x.1) (.ofInt x.2) 0) {}
  Fmt.f32.rndQ .near false (decide (s.sum < 0)) s.sum.natAbs area.toNat s.exp

/-- The tile of a `rast`. -/
structure RastTile where
  ox : Int
  oy : Int
  vb : Nat
  pid : Nat
  ctl : Nat
  z : List Nat
  s : RastSetup

/-- What a row has come to: the block, coverage, the samples written, flags. -/
structure RastRow where
  b : Block
  cov : Nat := 0
  zpass : Nat := 0
  flags : Flags := 0

/-- One sample of a row (R160, R161). -/
def RastTile.sample (t : RastTile) (r : Nat) (k : RastRow) (c s : Nat) : RastRow :=
  let n := samples (ctlSpp t.ctl)
  let (sx, sy) := sampleAt (ctlSpp t.ctl) s
  let px : Int := (t.ox + c) * 256 + sx
  let py : Int := (t.oy + r) * 256 + sy
  let es := (List.range 3).map (fun e => nth t.s.a e * px + nth t.s.b e * py + nth t.s.c e)
  let covered := (List.range 3).all (fun e => decide (nth es e > 0) || (nth es e == 0 && t.s.tl.testBit e))
  if !covered then k else
  let (z, fl) := depthAt t.z es t.s.area
  let o := t.vb + 16 * ((8 * r + c) * n + s)
  let bitv := 2 ^ (4 * c + s)
  let k := { k with cov := k.cov + bitv, flags := k.flags ||| fl }
  if depthPass (fld t.ctl 2 3) z (k.b.spadN (o + 8) 4) then
    let b := k.b.wrSpad o (natBytes t.pid 8)
    { k with b := if fld t.ctl 5 1 = 1 then b.wrSpad (o + 8) (natBytes z 4) else b, zpass := k.zpass + bitv }
  else k

def RastTile.row (t : RastTile) (b : Block) (r : Nat) : RastRow :=
  (List.range 8).foldl (fun (k : RastRow) c =>
    (List.range (samples (ctlSpp t.ctl))).foldl (fun (k : RastRow) s => t.sample r k c s) k) { b }

/-- One step of a `rast` (R159 to R161). -/
def rastStep (u : UnitOp) (w : Wave) (base : Nat) (b : Block) : MacM MStepRes := fun m =>
  let p := u.half
  let g := w.word p base 0
  let call := EStateM.Result.ok { w, fin := .call 0x10, count := u.count } m
  let z := [g 2, g 5, g 8]
  if !z.all finite32 then call else
  let tile : RastSetup → RastTile := fun s =>
    { ox := sext (g 9) 32, oy := sext (g 10) 32, vb := rastVB w p base, pid := g 12 + g 13 * 2 ^ 32, ctl := g 14, z, s }
  let row : Wave → RastSetup → Nat → EStateM.Result MStop Mach MStepRes := fun w s r =>
    let k := (tile s).row b r
    let w := (w.setWord p base 2 r k.cov).setWord p base 2 (8 + r) k.zpass
    .ok { w, fin := if r = 7 then .done else .more, count := r + 1, flags := k.flags } (m.updBlock w.block (fun _ => k.b))
  if u.fresh then
    match [g 0, g 3, g 6].mapM snap, [g 1, g 4, g 7].mapM snap with
    | some x, some y =>
      let raw := rawSetup x y
      let s := raw.orient
      let culled := (fld (g 14) 6 2 = 1 && raw.area < 0) || (fld (g 14) 6 2 = 2 && raw.area > 0)
      let rstat := (if culled then 1 else 0) + (if raw.area = 0 then 2 else 0) + (if raw.area < 0 then 4 else 0)
      let w := (s.write w p base).setWord p base 0 15 rstat
      if culled || raw.area = 0 then
        .ok { w := (List.range 16).foldl (fun (w : Wave) j => w.setWord p base 2 j 0) w, fin := .done, count := 8 } m
      else row w s 0
    | _, _ => call
  else if 8 ≤ u.count then .ok { w, fin := .done, count := u.count } m
  else
    let s := RastSetup.ofWindow w p base
    if s.area ≤ 0 then call else row w s u.count

/-! ## oblend -/

def tileAt (w : Wave) (p : Bool) (base : Nat) : Nat := w.word p base 4 9 / 64 * 64

def bctlOk (x : Nat) : Bool := fld x 8 24 == 0 && fld x 6 2 != 3

/-- The checks at every issue of an `oblend` (R163). -/
def Env.blendCheck (e : Env) (base : Nat) (p : Bool) : MCheck :=
  let t := tileAt e.w p base
  if e.l.spad < t + 64 then .trap 0x22
  else
    let spp := fld (e.b.spadN (t + 6) 1) 0 8
    if !bctlOk (e.w.word p base 4 10) || 3 ≤ spp then .call 0x23
    else if e.l.spad < t + 5184 + 256 * samples spp then .trap 0x22
    else .ok

def execOblend (o : OpMac) (s : State) : Host.Outcome State Fault Refusal :=
  withCur (fun e => e.issueMacro (.oblend o) (OpMac.fields o .blend) (e.blendCheck o.w.toNat) (fun _ u m => (u, m))) s

/-- One channel (R165). -/
def blendChannel (fs fd op as_ at_ ak s t : Nat) : Nat :=
  let f := fun (c : Nat) =>
    match c with
    | 0 => 0 | 1 => 255 | 2 => as_ | 3 => 255 - as_ | 4 => at_ | 5 => 255 - at_ | 6 => ak | _ => 255 - ak
  let a : Int := (s * f fs : Nat)
  let b : Int := (t * f fd : Nat)
  let x : Int := if op = 0 then a + b else if op = 1 then a - b else b - a
  min 255 (((max x 0).toNat + 127) / 255)

/-- One sample: source and destination as RGBA8 (R165). -/
def blendPixel (bctl kcol src dst : Nat) : Nat :=
  (List.range 4).foldl (fun (k : Nat) c =>
    k + 2 ^ (8 * c) * blendChannel (fld bctl 0 3) (fld bctl 3 3) (fld bctl 6 2) (fld src 24 8) (fld dst 24 8) (fld kcol 24 8) (fld src (8 * c) 8) (fld dst (8 * c) 8)) 0

/-- A contribution: control, constant, coverage rows and colours. -/
structure Contribution where
  bctl : Nat
  kcol : Nat
  cov : List Nat
  col : List Nat

/-- Applies a contribution to a tile (R164). -/
def Contribution.apply (k : Contribution) (b : Block) (tile n : Nat) : Block :=
  (List.range 64).foldl (fun (b : Block) px =>
    (List.range n).foldl (fun (b : Block) s =>
      if (k.cov.getD (px / 8) 0).testBit (4 * (px % 8) + s) then
        let o := tile + 5184 + 4 * (px * n + s)
        b.wrSpad o (natBytes (blendPixel k.bctl k.kcol (k.col.getD px 0) (b.spadN o 4)) 4)
      else b) b) b

def Contribution.ofWindow (w : Wave) (p : Bool) (base : Nat) : Contribution :=
  { bctl := w.word p base 4 10, kcol := w.word p base 4 11, cov := (List.range 8).map (w.word p base 4),
    col := (List.range 64).map (fun i => w.word p base (i / 16) (i % 16)) }

def Contribution.ofEntry (b : Block) (e : Nat) : Contribution :=
  { bctl := b.spadN (e + 4) 4, kcol := b.spadN (e + 8) 4, cov := (List.range 8).map (fun r => b.spadN (e + 32 + 4 * r) 4),
    col := (List.range 64).map (fun i => b.spadN (e + 64 + 4 * i) 4) }

def Block.putHead (b : Block) (tile next pend : Nat) : Block := b.wrSpad tile (natBytes (next % 2 ^ 32) 4 ++ natBytes pend 2)

/-- One step of an `oblend` (R164). -/
def blendStep (u : UnitOp) (w : Wave) (base : Nat) (b : Block) : MacM MStepRes := fun m =>
  let p := u.half
  let t := tileAt w p base
  let next := b.spadN t 4
  let pend := b.spadN (t + 4) 2
  let n := samples (b.spadN (t + 6) 1)
  let drained : Block → MEnd := fun b => if (b.spadN (t + 4) 2).testBit (b.spadN t 4 % 16) then .more else .done
  let out : Block → Nat → EStateM.Result MStop Mach MStepRes := fun b count =>
    .ok { w, fin := drained b, count } (m.updBlock w.block (fun _ => b))
  let call : Nat → EStateM.Result MStop Mach MStepRes := fun code => .ok { w, fin := .call code, count := u.count } m
  if 3 ≤ b.spadN (t + 6) 1 then call 0x23 else
  if u.fresh then
    let seq := w.word p base 4 8
    let d := sext (wrapI ((seq : Int) - next) 32) 32
    if d < 0 then call 0x20
    else if 16 ≤ d then call 0x21
    else if pend.testBit (seq % 16) then call 0x22
    else
      let k := Contribution.ofWindow w p base
      if 0 < d then
        let e := t + 64 + 320 * (seq % 16)
        let b := b.wrSpad e (natBytes seq 4 ++ natBytes k.bctl 4 ++ natBytes k.kcol 4)
        let b := b.wrSpad (e + 32) (k.cov.flatMap (fun x => natBytes x 4) ++ k.col.flatMap (fun x => natBytes x 4))
        out (b.putHead t next (pend ||| 2 ^ (seq % 16))) 1
      else out ((k.apply b t n).putHead t (next + 1) pend) 1
  else if !pend.testBit (next % 16) then .ok { w, fin := .done, count := u.count } m
  else
    let i := next % 16
    out (((Contribution.ofEntry b (t + 64 + 320 * i)).apply b t n).putHead t (next + 1) (pend - 2 ^ i)) (u.count + 1)

end Sys2Proof.Machine
end

