-- ==== Sys2Proof/Machine/Texture.lean ====
section
/-!
DEFINITION. Texture resources, residency maps and the arrears ring (spec/06_macros.md R166 to R168, R174,
R175), `filt` (R169 to R173) and `ldlod` (spec/08_memory_isa.md R218).
-/

namespace Sys2Proof.Machine

/-! ## A lane at work: the machine, the flags raised, and the pages to log -/

structure FState where
  m : Mach
  fl : Flags := 0
  logs : List (Nat × Nat × Nat) := []

abbrev FilM := EStateM MStop FState

def FilM.lift {α : Type} (f : MacM α) : FilM α := fun s =>
  match f s.m with
  | .ok a m => .ok a { s with m }
  | .error e m => .error e { s with m }

/-- Keeps a result and notes its flags. -/
def noted (x : Nat × Flags) : FilM Nat := fun s => .ok x.1 { s with fl := s.fl ||| x.2 }

def fadd' (a b : Nat) : FilM Nat := noted (Fmt.f32.add .near false a b)
def fmul' (a b : Nat) : FilM Nat := noted (Fmt.f32.mul .near false a b)

/-- The f32 pattern of an integer times a power of two. -/
def f32i (x : Int) (e : Int := 0) : Nat := (Fmt.f32.rndI .near false x e).1

/-! ## Map words (R168, R175) -/

/-- Reads at home what a unit keeps in a cache of its own. -/
def MacEnv.readHome (e : MacEnv) (a n : Nat) : MacM Nat := do
  let p ← e.at needR a n
  let m ← get
  let m := if isMem p.pa then m.wideLine e.core e.c (lineOf p.pa) p.comp else m
  let (v, bad, m) := m.readPiece e.core e.c true p
  set m
  if bad then throw MStop.poison
  pure v

/-- The map word at an address, from the unit's cache or from home. -/
def MacEnv.mapWord (e : MacEnv) (a : Nat) : MacM Nat := do
  let m ← get
  match m.maps.find? (fun (w : MapWord) => w.core == e.core && w.ctx == e.c && w.addr == a) with
  | some w => pure w.word.toNat
  | none =>
    let v ← e.readHome a 8
    modify (fun m => { m with maps := m.maps ++ [{ core := e.core, ctx := e.c, addr := a, word := w64 v }] })
    pure v

/-- A cached map word is read again from home (R175). -/
def execMapWordRefresh (core ctx addr : Nat) (s : State) : Host.Outcome State Fault Refusal :=
  let is : MapWord → Bool := fun w => w.core == core && w.ctx == ctx && w.addr == addr
  match s.m.ctx? ctx with
  | none => .next s
  | some x =>
    if !s.m.maps.any is then .next s else
    match MacEnv.readHome { g := s.mgmt, core, c := ctx, x } addr 8 s.m with
    | .ok v m => .next { s with m := { m with maps := m.maps.map (fun (w : MapWord) => if is w then { w with word := w64 v } else w), changes := m.changes + 1 } }
    | .error _ _ => .next s

/-! ## Resources (R167, R168) -/

structure Tex where
  base : Nat
  map : Nat
  w0 : Nat
  h0 : Nat
  nl : Nat
  tf : Nat
  deriving DecidableEq, Repr

/-- A legal descriptor (R167). -/
def Tex.parse (l : List Byte) : Option Tex :=
  let t : Tex := { base := natAt l 0 8, map := natAt l 8 8, w0 := natAt l 0x10 4, h0 := natAt l 0x14 4, nl := natAt l 0x18 1, tf := natAt l 0x19 1 }
  let inR := fun (x : Nat) => decide (1 ≤ x) && decide (x ≤ 32768)
  if natAt l 0x1A 38 = 0 && t.base % 65536 = 0 && t.map % 8 = 0 && inR t.w0 && inR t.h0
      && decide (1 ≤ t.nl) && decide (t.nl ≤ (max t.w0 t.h0).log2 + 1) && decide (t.tf ≤ 2) then some t else none

def Tex.wL (t : Tex) (l : Nat) : Nat := max 1 (t.w0 >>> l)
def Tex.hL (t : Tex) (l : Nat) : Nat := max 1 (t.h0 >>> l)
def Tex.pw (_ : Tex) : Nat := 128
def Tex.ph (t : Tex) : Nat := if t.tf = 1 then 64 else 128
def Tex.texelBytes (t : Tex) : Nat := if t.tf = 1 then 8 else 4

/-- The page number of page (px, py) of a level (R168). -/
def Tex.page (t : Tex) (l px py : Nat) : Nat :=
  (List.range l).foldl (fun n m => n + ceilDiv (t.wL m) t.pw * ceilDiv (t.hL m) t.ph) 0 + py * ceilDiv (t.wL l) t.pw + px

/-- The page that holds a texel. -/
def Tex.pageOf (t : Tex) (x : Nat × Nat) : Nat × Nat := (x.1 / t.pw, x.2 / t.ph)

def Tex.texelAddr (t : Tex) (l : Nat) (x : Nat × Nat) : Nat :=
  let p := t.pageOf x
  t.base + 65536 * t.page l p.1 p.2 + (x.2 % t.ph) * t.pw * t.texelBytes + x.1 % t.pw * t.texelBytes

/-- A page is resident (R168). -/
def MacEnv.resident (e : MacEnv) (t : Tex) (l : Nat) (p : Nat × Nat) : MacM Bool := do
  let q := t.page l p.1 p.2
  pure ((← e.mapWord (t.map + 8 * (q / 64))).testBit (q % 64))

def MacEnv.allResident (e : MacEnv) (t : Tex) (l : Nat) (ps : List (Nat × Nat)) : MacM Bool := do
  pure ((← ps.mapM (e.resident t l)).all id)

/-! ## Logging (R174) -/

def saturate32 (x : Nat) : Nat := if x = 2 ^ 32 - 1 then x else x + 1

/-- Logs one entry: whether it was written. -/
def Mach.logArrears (m : Mach) (core c : Nat) (ring : Nat) (ent : Nat × Nat × Nat × Nat) : Bool × Mach :=
  let mine : Recent → Bool := fun r => r.core == core && r.ctx == c
  let old := (m.recent.find? mine).elim [] (fun r => r.ents)
  if old.contains ent then (false, m) else
  let m : Mach := { m with recent := m.recent.filter (fun r => !mine r) ++ [({ core, ctx := c, ents := (ent :: old).take 64 } : Recent)] }
  let m := m.homeReq core c ring
  let widx := m.rdN ring 4
  let ridx := m.rdN (ring + 4) 4
  let logn := m.rdN (ring + 0xC) 1
  if 6 ≤ logn && logn ≤ 16 && wrapI ((widx : Int) - ridx) 32 < 2 ^ logn then
    let at_ := ring + 64 + 16 * (widx % 2 ^ logn)
    let m := m.homeReq core c at_
    let m := m.wr at_ (natBytes ent.1 4 ++ natBytes ent.2.1 4 ++ natBytes ent.2.2.1 4 ++ natBytes ent.2.2.2 4)
    (true, m.wrN ring 4 (widx + 1))
  else (false, m.wrN (ring + 8) 4 (saturate32 (m.rdN (ring + 8) 4)))

/-- Logs the pages of one lane: whether any entry was written. -/
def Mach.logAll (m : Mach) (core c ring h : Nat) (l : List (Nat × Nat × Nat)) : Bool × Mach :=
  l.foldl (fun (r : Bool × Mach) e =>
    let (b, m) := r.2.logArrears core c ring (h, e.1, e.2.1, e.2.2)
    (r.1 || b, m)) (false, m)

/-! ## filt: setup (R171, R173) -/

/-- The sampler word (R170). -/
structure Sampler where
  filt : FiltKind
  amax : Nat
  au : Bool
  av : Bool

/-- A lane's 16 window words, with the next probe in STAT (R169). -/
abbrev Win := List Nat

def Win.at (w : Win) (i : Nat) : Nat := w.getD i 0
def Win.put (w : Win) (i x : Nat) : Win := w.set i x

def floorFV : FV → Int
  | .fin n m e => (if n then -(m : Int) else m) * (2 ^ e.toNat : Nat) / (2 ^ (-e).toNat : Nat)
  | _ => 0

def floor32 (x : Nat) : Int := floorFV (Fmt.f32.val x)

/-- `a ≤ 4^i × b` for values that are not NaN (R171). -/
def leScaled (a b i : Nat) : Bool :=
  match Fmt.f32.val a, Fmt.f32.val b with
  | .fin n m e, .fin n' m' e' => decide ((addExact n m e (!n') m' (e' + 2 * i)).1 ≤ 0)
  | .inf true, _ | _, .inf false => true
  | _, _ => false

/-- Probe k of 2^nlog (R171). -/
def probeAt (w : Win) (k nlog : Nat) : FilM (Nat × Nat) := do
  let fac := f32i (2 * (k : Int) + 1 - (2 ^ nlog : Nat)) (-((nlog : Int) + 1))
  let u ← fadd' (w.at 0) (← fmul' (w.at 14) fac)
  let v ← fadd' (w.at 1) (← fmul' (w.at 15) fac)
  pure (u, v)

/-- Addressing on one axis (R172). -/
def wrapTexel (clamp : Bool) (i : Int) (n : Nat) : Nat := if clamp then (max 0 (min i (n - 1))).toNat else (i % (n : Int)).toNat

/-- The texel indices of an axis, and the weight of the second one in 256ths (R172). -/
def axisAt (bilinear clamp : Bool) (c n : Nat) : FilM (List Nat × Nat) := do
  let x ← fmul' c (f32i n)
  if !bilinear then pure ([wrapTexel clamp (floor32 x) n], 0) else
  let s ← fadd' x (f32i (-1) (-1))
  let i := floor32 s
  let alpha := match Fmt.f32.val s with
    | .fin neg m e =>
      let d := addExact neg m e (decide (0 < i)) i.natAbs 0
      (roundInt .near false d.1.natAbs (d.2 + 8)).1
    | _ => 0
  pure ([wrapTexel clamp i n, wrapTexel clamp (i + 1) n], alpha)

/-- The texels of a sample at a level, with the two weights (R172). -/
def texelsAt (t : Tex) (sm : Sampler) (l : Nat) (uv : Nat × Nat) : FilM (List (Nat × Nat) × Nat × Nat) := do
  let bil := sm.filt != .point
  let (is, a) ← axisAt bil sm.au uv.1 (t.wL l)
  let (js, b) ← axisAt bil sm.av uv.2 (t.hL l)
  pure (js.flatMap (fun j => is.map (fun i => (i, j))), a, b)

/-- The pages that probes touch at a level, in ascending order. -/
def pagesAt (t : Tex) (sm : Sampler) (l : Nat) (uvs : List (Nat × Nat)) : FilM (List (Nat × Nat)) := do
  let ts ← uvs.mapM (texelsAt t sm l)
  let ps := ((ts.flatMap (fun x => x.1)).map t.pageOf).eraseDups
  pure (ps.mergeSort (fun a b => decide (a.1 < b.1) || (a.1 == b.1 && decide (a.2 ≤ b.2))))

/-- What ends a lane with NANIN (R171). -/
def Win.nanIn (w : Win) : Win := w.take 7 ++ [0, 0, 0, 0, 2 ^ 31 + 2 ^ 7, 0, 0, 0, 0]

/-- The least resident level from `c` on, among `n` levels. -/
def levelUsed (e : MacEnv) (t : Tex) (sm : Sampler) (uvs : List (Nat × Nat)) : Nat → Nat → FilM (Option Nat)
  | 0, _ => pure none
  | n + 1, c => do
    let ps ← pagesAt t sm c uvs
    if ← FilM.lift (e.allResident t c ps) then pure (some c) else levelUsed e t sm uvs n (c + 1)

/-- Notes the absent pages of a level (R173). -/
def noteAbsent (e : MacEnv) (t : Tex) (sm : Sampler) (uvs : List (Nat × Nat)) (l : Nat) : FilM Bool := do
  let ps ← pagesAt t sm l uvs
  let rs ← ps.mapM (fun p => do pure (p, ← FilM.lift (e.resident t l p)))
  let absent := (rs.filter (fun r => !r.2)).map (·.1)
  modify (fun s => { s with logs := s.logs ++ absent.map (fun p => (l, p.1, p.2)) })
  pure absent.isEmpty

/-- The setup of a lane: its window, and whether it has ended (R171, R173). A level that is no number, as `flg2(0)` plus a BIAS
of +infinity gives, counts as 0 (DEDUCED: R171 does not say what `max` gives then; notes/assumptions/32.md). -/
def setupLane (e : MacEnv) (t : Tex) (sm : Sampler) (w : Win) : FilM (Win × Bool) := do
  if (w.take 7).any Fmt.f32.isNaN then return (w.nanIn, true)
  let ax ← fmul' (w.at 2) (f32i t.w0)
  let ay ← fmul' (w.at 3) (f32i t.h0)
  let bx ← fmul' (w.at 4) (f32i t.w0)
  let by_ ← fmul' (w.at 5) (f32i t.h0)
  let lx ← fadd' (← fmul' ax ax) (← fmul' ay ay)
  let ly ← fadd' (← fmul' bx bx) (← fmul' by_ by_)
  let major := !Fmt.f32.lt lx ly
  let maj := if major then lx else ly
  let mnr := if major then ly else lx
  let w := (w.put 14 (if major then w.at 2 else w.at 4)).put 15 (if major then w.at 3 else w.at 5)
  let nlog := if Fmt.f32.mag maj = 0 then 0 else ((List.range (sm.amax + 1)).find? (leScaled maj mnr)).getD sm.amax
  let lg ← noted (Fmt.f32.lg2 .near maj)
  let lam0 ← fadd' (← fadd' (← fmul' (f32i 1 (-1)) lg) (f32i (-(nlog : Int)))) (w.at 6)
  let lam := (Fmt.f32.minmax false (Fmt.f32.minmax true lam0 0).1 (f32i ((t.nl : Int) - 1))).1
  let tril := sm.filt == .trilinear
  let l0 : Nat := (if tril then floor32 lam else
    match Fmt.f32.val lam with
    | .fin n m x => let y := addExact n m x false 1 (-1); floorFV (.fin (decide (y.1 < 0)) y.1.natAbs y.2)
    | _ => 0).toNat
  let f := if tril && decide (l0 < t.nl - 1) then (Fmt.f32.add .near false lam (f32i (-(l0 : Int)))).1 else 0
  let hasF := Fmt.f32.mag f != 0
  let uvs ← (List.range (2 ^ nlog)).mapM (fun k => probeAt w k nlog)
  let outs ← uvs.mapM (fun uv => do pure [uv.1, uv.2, ← fmul' uv.1 (f32i (t.wL l0)), ← fmul' uv.2 (f32i (t.hL l0))])
  let bad := outs.flatten.any (fun x => match Fmt.f32.val x with | .fin _ _ _ => false | _ => true)
  if bad then return (w.nanIn, true)
  let lu ← levelUsed e t sm uvs (t.nl - l0) l0
  let _ ← noteAbsent e t sm uvs l0
  let next ← if hasF then noteAbsent e t sm uvs (l0 + 1) else pure false
  let res := w.take 7 ++ [0, 0, 0, 0]
  match lu with
  | none => return (res ++ [2 ^ 31 + nlog * 2 ^ 16 + 2 ^ 5 + (if hasF then 16 else 0) + (t.nl - 1 - l0), l0 + (t.nl - 1) * 16, 0, w.at 14, w.at 15], true)
  | some u =>
    let tri := u == l0 && hasF && next
    let partial_ := hasF && !next
    let stat := nlog * 2 ^ 16 + (if partial_ then 16 else 0) + (u - l0)
    return (res ++ [stat, l0 + u * 16 + (if tri then 256 else 0), if partial_ then 0 else f, w.at 14, w.at 15], false)

/-! ## filt: probes (R172) -/

/-- An f16 channel as f32, exactly (R168): a signalling NaN stays one, and the operation that takes it raises INVALID. -/
def halfChannel (x : Nat) : Nat :=
  if Fmt.f16.isNaN x then x / 2 ^ 15 * 2 ^ 31 + Fmt.f32.infPat + x % 2 ^ 10 * 2 ^ 13
  else (Fmt.f16.convert .f32 .near false x).1

/-- The four f32 channels of a texel (R168). -/
def texelChannels (t : Tex) (raw : Nat) : List Nat :=
  match t.tf with
  | 0 => (List.range 4).map (fun c => (Fmt.f32.rndQ .near false false (fld raw (8 * c) 8) 255 0).1)
  | 1 => (List.range 4).map (fun c => halfChannel (fld raw (16 * c) 16))
  | _ => [raw, 0, 0, Fmt.f32.one]

def sampleTexels (e : MacEnv) (t : Tex) (l : Nat) (ts : List (Nat × Nat)) : FilM (List (List Nat)) :=
  ts.mapM (fun x => do pure (texelChannels t (← FilM.lift (e.read (t.texelAddr l x) t.texelBytes))))

/-- A sample at a level: four channels. -/
def sampleLevel (e : MacEnv) (t : Tex) (sm : Sampler) (l : Nat) (uv : Nat × Nat) : FilM (List Nat) := do
  let (ts, a, b) ← texelsAt t sm l uv
  let cs ← sampleTexels e t l ts
  match cs with
  | [c] => pure c
  | _ =>
    let wts := [(256 - a) * (256 - b), a * (256 - b), (256 - a) * b, a * b].map (fun (x : Nat) => f32i x (-16))
    (List.range 4).mapM (fun c => do
      (wts.zip cs).foldlM (fun acc x => do fadd' acc (← fmul' x.1 (x.2.getD c 0))) 0)

/-- One probe of a lane that is set up (R172). -/
def takeProbe (e : MacEnv) (t : Tex) (sm : Sampler) (w : Win) : FilM Win := do
  let stat := w.at 11
  let nlog := fld stat 16 2
  let k := fld stat 20 4
  let lu := fld (w.at 12) 4 4
  let uv ← probeAt w k nlog
  let c0 ← sampleLevel e t sm lu uv
  let c ← if (w.at 12).testBit 8 then do
      let c1 ← sampleLevel e t sm (lu + 1) uv
      let f := w.at 13
      let g ← fadd' Fmt.f32.one (Fmt.f32.negate f)
      (c0.zip c1).mapM (fun x => do fadd' (← fmul' g x.1) (← fmul' f x.2))
    else pure c0
  let acc ← (List.range 4).mapM (fun i => do fadd' (w.at (7 + i)) (c.getD i 0))
  let last := k + 1 = 2 ^ nlog
  let res ← if last then acc.mapM (fun x => fmul' x (f32i 1 (-(nlog : Int)))) else pure acc
  let stat := stat - k * 2 ^ 20 + (k + 1) % 16 * 2 ^ 20 + (if last then 2 ^ 31 else 0)
  pure (w.take 7 ++ res ++ [stat] ++ w.drop 12)

/-- One step of one lane: setup when it is due, then one probe; a page that has left the map repeats the setup
(R171, R173). -/
def filtLane (e : MacEnv) (t : Tex) (sm : Sampler) (fresh : Bool) (w : Win) : FilM Win := do
  let redo : Win → FilM Win := fun w => do
    let (w, ended) ← setupLane e t sm w
    if ended then pure w else takeProbe e t sm w
  let stat := w.at 11
  if fresh || fld stat 20 4 = 0 then redo w else
  let lu := fld (w.at 12) 4 4
  let uv ← probeAt w (fld stat 20 4) (fld stat 16 2)
  let levels := if (w.at 12).testBit 8 then [lu, lu + 1] else [lu]
  let still ← levels.mapM (fun l => do FilM.lift (e.allResident t l (← pagesAt t sm l [uv])))
  if still.all id then takeProbe e t sm w else redo w

/-! ## filt: step -/

def OpFilt.sampler (o : OpFilt) : Sampler := { filt := o.filt, amax := o.amax.toNat, au := o.au, av := o.av }

def Wave.window (w : Wave) (p : Bool) (base l : Nat) : Win := (List.range 16).map (fun i => (w.getV p (base + i) l).toNat)

def Wave.putWindow (w : Wave) (p : Bool) (base l : Nat) (x : Win) : Wave :=
  ((List.range x.length).zip x).foldl (fun (w : Wave) y => w.setV p (base + y.1) l (BitVec.ofNat 32 y.2)) w

/-- What one lane's part of a step has come to. -/
structure LaneDone where
  lane : Nat
  win : Win
  fl : Flags
  logs : List (Nat × Nat × Nat)

def filtLanes (e : MacEnv) (t : Tex) (sm : Sampler) (fresh : Bool) (l : List (Nat × Win)) : MacM (List LaneDone) := do
  let rs ← l.mapM (fun x => do
    let m ← get
    match filtLane e t sm fresh x.2 { m } with
    | .ok w s => set s.m; pure (x.1, Except.ok (LaneDone.mk x.1 w s.fl s.logs))
    | .error st s => set s.m; pure (x.1, Except.error st))
  match stopsOf (rs.filterMap (fun r => match r.2 with | .error st => some (r.1, st) | .ok _ => none)) with
  | some st => throw st
  | none => pure (rs.filterMap (fun r => match r.2 with | .ok d => some d | .error _ => none))

/-- One step of a `filt` (R155, R166, R173). -/
def filtStep (e : MacEnv) (u : UnitOp) (o : OpFilt) (w : Wave) : MacM MStepRes := do
  let p := u.half
  let base := o.m.w.toNat
  let call : MStepRes := { w, fin := .call 0x30, count := u.count }
  if !u.suits then return call
  let desc ← if u.begun then pure u.desc else e.readBytes u.addr 64
  match Tex.parse desc with
  | none => return call
  | some t =>
    let lanes := bitsOf (w.activeMask p o.k.toNat) 64
    let open_ := lanes.filter (fun l => u.fresh || !((w.getV p (base + 11) l).getLsbD 31))
    if open_.isEmpty then return { w, fin := .done, count := u.count }
    let ds ← filtLanes e t (OpFilt.sampler o) u.fresh (open_.map (fun l => (l, w.window p base l)))
    let h := (w.getS p o.a.toNat).toNat % 2 ^ 32
    let m ← get
    let (m, w) := ds.foldl (fun (r : Mach × Wave) d =>
      let (any, m) := r.1.logAll e.core e.c e.x.arrbase h d.logs
      let stat := d.win.at 11 ||| (if any then 2 ^ 6 else 0)
      let m := if stat.testBit 31 && stat % 16 != 0 then m.count e.c 0xA 1 else m
      (m, r.2.putWindow p base d.lane (d.win.put 11 stat))) (m, w)
    set m
    let left := lanes.any (fun l => !((w.getV p (base + 11) l).getLsbD 31))
    return { w, fin := if left then .more else .done, count := u.count + 1, flags := ds.foldl (fun (f : Flags) d => f ||| d.fl) 0, desc }

/-- `filt`: the handle is checked at issue (R166, R300). -/
def execFilt (o : OpFilt) (s : State) : Host.Outcome State Fault Refusal :=
  withCur (fun e =>
    let h := fun (p : Bool) => (e.w.getS p o.a.toNat).toNat % 2 ^ 32
    let check := fun (p : Bool) => match (e.m.checkHandle e.w.core e.w.ctx e.x (h p)).1 with | some _ => MCheck.ok | none => .trap 0x90
    e.issueMacro (.filt o) { OpMac.fields o.m .filter with k := o.k.toNat, lane := true } check (fun p u m =>
      match m.checkHandle e.w.core e.w.ctx e.x (h p) with
      | (some y, m) => ({ u with addr := y.addr, suits := y.kind == 2 }, m)
      | (none, m) => (u, m))) s

/-! ## ldlod (R218) -/

/-- What one lane of `ldlod` finds. -/
structure LodLane where
  addr : Option Nat := none
  d : Nat := 0
  st : Nat := 0
  logs : List (Nat × Nat × Nat) := []

/-- The level that a lane uses, from `c` on. -/
def lodLevel (e : MacEnv) (t : Tex) (x : Nat × Nat) (l : Nat) : Nat → Nat → MacM (Option Nat)
  | 0, _ => pure none
  | n + 1, c => do
    if ← e.resident t c (t.pageOf (x.1 >>> (c - l), x.2 >>> (c - l))) then pure (some c) else lodLevel e t x l n (c + 1)

/-- One lane: its texel's address, before it is read. -/
def lodFind (e : MacEnv) (o : OpLdlod) (desc : Nat) (ok : Bool) (coord want : Nat) : MacM LodLane := do
  let bad : LodLane := { st := 2 ^ 31 }
  if !ok then return bad
  match Tex.parse (← e.readBytes desc 64) with
  | none => return bad
  | some t =>
    if o.wide != (t.tf == 1) then return bad
    let l := min (want % 16) (t.nl - 1)
    let x := (wrapTexel o.au (coord % 65536 : Nat) (t.wL l), wrapTexel o.av (coord / 65536 : Nat) (t.hL l))
    let here ← e.resident t l (t.pageOf x)
    let p := t.pageOf x
    let logs := if here then [] else [(l, p.1, p.2)]
    match ← lodLevel e t x l (t.nl - l) l with
    | none => return { st := 0x10 + (t.nl - 1 - l), logs }
    | some u => return { addr := some (t.texelAddr u (x.1 >>> (u - l), x.2 >>> (u - l))), st := u - l, logs }

def lodRead (e : MacEnv) (n : Nat) (r : LodLane) : MacM LodLane := do
  match r.addr with
  | none => pure r
  | some a => pure { r with d := ← e.read a n }

/-- The lanes with what they found, and what stopped the others. -/
def lodLanes (l : List (Bool × Nat × MacM LodLane)) (m : Mach) : List (Bool × Nat × Except MStop LodLane) × Mach :=
  l.foldl (fun (r : List (Bool × Nat × Except MStop LodLane) × Mach) x =>
    match x.2.2 r.2 with
    | .ok d m => (r.1 ++ [(x.1, x.2.1, .ok d)], m)
    | .error st m => (r.1 ++ [(x.1, x.2.1, .error st)], m)) ([], m)

/-- `ldlod`: absence holds the wave; permission is delivered after the other lanes are complete (R326). -/
def execLdlod (o : OpLdlod) (s : State) : Host.Outcome State Fault Refusal :=
  withCur (fun e =>
    let k := o.k.toNat
    let size := if o.wide then 8 else 4
    let ps := e.w.groups.filter (fun p => !(e.w.active p k).isEmpty)
    let h := fun (p : Bool) => (e.w.getS p o.sh.toNat).toNat % 2 ^ 32
    let checks := ps.map (fun p => (p, (e.m.checkHandle e.w.core e.w.ctx e.x (h p)).1))
    let stale := fun (p : Bool) => if checks.any (fun c => c.1 == p && c.2.isNone) then e.w.activeMask p k else 0
    if stale false != 0 || stale true != 0 then e.before 0x90 (stale false) (stale true)
    else if e.w.lcnt ≥ 64 then e.halt (.wcnt true 63)
    else
      let me : MacEnv := { g := e.g, core := e.w.core, c := e.w.ctx, x := e.x, older := e.w.acc }
      let ent := fun (p : Bool) => (checks.find? (fun c => c.1 == p)).elim none (·.2)
      let m := ps.foldl (fun (m : Mach) p => (m.checkHandle e.w.core e.w.ctx e.x (h p)).2) e.m
      let ls := e.w.work k false
      let finds := ls.map (fun x => (x.1, x.2, lodFind me o ((ent x.1).elim 0 (·.addr)) ((ent x.1).elim false (fun y => y.kind == 2))
        (e.w.getV x.1 o.vc.toNat x.2).toNat (e.w.getV x.1 o.ve0.toNat x.2).toNat))
      let found := lodLanes finds m
      let addrs := found.1.filterMap (fun x => match x.2.2 with | .ok d => d.addr.map (fun a => (x.1, x.2.1, a)) | .error _ => none)
      match e.debugData true false addrs size with
      | some q => .trap e.m e.w q
      | none =>
        let got := lodLanes (found.1.map (fun x => (x.1, x.2.1, match x.2.2 with | .ok d => lodRead me size d | .error st => throw st))) found.2
        let stops := got.1.filterMap (fun x => match x.2.2 with | .error st => some (x.1, x.2.1, st) | .ok _ => none)
        match stopsOf (stops.map (fun x => (x.2.1, x.2.2))) with
        | some .poison => .fatal got.2 e.w 0x52 0
        | some .busy => e.halt .room
        | some (.cause code _) =>
          let lanes := fun (p : Bool) => maskOf ((stops.filter (fun x => x.1 == p && (match x.2.2 with | .cause c _ => c == code | _ => false))).map (·.2.1))
          e.before code (lanes false) (lanes true)
        | some (.absent va lv kind) => e.stall got.2 va lv kind
        | st =>
          let r := got.1.foldl (fun (r : Mach × Wave) x =>
            match x.2.2 with
            | .error _ => r
            | .ok d =>
              let (any, m) := r.1.logAll e.w.core e.w.ctx e.x.arrbase (h x.1) d.logs
              let m := if d.st % 16 != 0 then m.count e.w.ctx 0xA 1 else m
              let st := d.st + (if any then 32 else 0)
              (m, (r.2.put x.1 x.2.1 (if o.wide then .n64 else .b32) (.vec o.d) d.d).setV x.1 o.ve1.toNat x.2.1 (BitVec.ofNat 32 st))) (got.2, e.w)
          match st with
          | some _ =>
            let mine := fun (p : Bool) => stops.filter (fun x => x.1 == p)
            let va := fun (p : Bool) => match mine p with | (_, _, .perm va _) :: _ => va | _ => 0
            permitAfter e.w.pc r.1 r.2 16 (va false) (va true) (maskOf ((mine false).map (·.2.1))) (maskOf ((mine true).map (·.2.1)))
          | none => .next r.1 { r.2 with pc := e.w.pc + 16 }) s

end Sys2Proof.Machine
end

