-- ==== Sys2Proof/Machine/Trav.lean ====
section
/-!
DEFINITION. `trav` and `bvrefit`: trees, box and triangle tests, lanes' stacks, and refitting
(spec/06_macros.md R176 to R183).
-/

namespace Sys2Proof.Machine

/-- The query of a `trav` (R153). -/
inductive Query where
  | closest | any | box | sphere
  deriving DecidableEq, Repr

def Query.ray : Query → Bool
  | .closest | .any => true
  | _ => false

/-- The fields of a tree header (R176). -/
structure Tree where
  nodes : Nat
  prims : Nat
  verts : Nat
  cbox : Nat
  root : Nat
  nlev : Nat
  levt : Nat
  deriving DecidableEq, Repr

def Tree.parse (l : List Byte) : Tree :=
  { nodes := natAt l 0 8, prims := natAt l 8 8, verts := natAt l 0x10 8, cbox := natAt l 0x18 8, root := natAt l 0x20 4,
    nlev := natAt l 0x28 1, levt := natAt l 0x30 8 }

/-- A node's bytes (R177). -/
abbrev NodeBytes := List Byte

def nodeKind (l : NodeBytes) (c : Nat) : Nat := fld (natAt l 15 1) (2 * c) 2
def nodeRef (l : NodeBytes) (c : Nat) : Nat := natAt l (40 + 4 * c) 4
def nodeOpaque (l : NodeBytes) (c : Nat) : Bool := (natAt l 56 1).testBit c

/-- Three f32 patterns. -/
abbrev V3 := List Nat

def V3.at (v : V3) (a : Nat) : Nat := v.getD a 0

/-- `ORG + q × 2^e`, exact, rounded toward −∞ or +∞ (R177). -/
def dequant (up : Bool) (org q : Nat) (e : Int) : Nat × Flags :=
  match Fmt.f32.val org with
  | .fin n m x => let s := addExact n m x false q e; Fmt.f32.rndI (if up then .up else .down) false s.1 s.2
  | _ => (org, 0)

/-- Child box c of a node (R177). -/
def childBox (l : NodeBytes) (c : Nat) : FilM (V3 × V3) := do
  let axis := fun (a : Nat) => (natAt l (4 * a) 4, sext (natAt l (12 + a) 1) 8)
  let lo ← (List.range 3).mapM (fun a => noted (dequant false (axis a).1 (natAt l (16 + 6 * c + a) 1) (axis a).2))
  let hi ← (List.range 3).mapM (fun a => noted (dequant true (axis a).1 (natAt l (16 + 6 * c + 3 + a) 1 + 1) (axis a).2))
  pure (lo, hi)

/-! ## Box tests (R180) -/

/-- The exact quotient `(x − o) / d`, rounded; `d` is finite and not zero. -/
def slabAt (up : Bool) (x o d : Nat) : Nat × Flags :=
  match Fmt.f32.val x, Fmt.f32.val o, Fmt.f32.val d with
  | .fin n m e, .fin n' m' e', .fin n2 m2 e2 =>
    let s := addExact n m e (!n') m' e'
    Fmt.f32.rndQ (if up then .up else .down) false (decide (s.1 < 0) != n2) s.1.natAbs m2 (s.2 - e2)
  | .inf n, _, .fin n2 _ _ => (Fmt.f32.signed (n != n2) Fmt.f32.infPat, 0)
  | _, _, _ => (Fmt.f32.nan, 0)

def min32 (a b : Nat) : Nat := (Fmt.f32.minmax false a b).1
def max32 (a b : Nat) : Nat := (Fmt.f32.minmax true a b).1

/-- The slab of one axis, or none when the box is missed there. -/
def slabOf (lo hi o d : Nat) : FilM (Option (Nat × Nat)) := do
  if [lo, hi].any Fmt.f32.isNaN then return none
  if Fmt.f32.mag d = 0 then
    return if Fmt.f32.le lo o && Fmt.f32.le o hi then some (Fmt.f32.signed true Fmt.f32.infPat, Fmt.f32.infPat) else none
  let a0 ← noted (slabAt false lo o d)
  let b0 ← noted (slabAt false hi o d)
  let a1 ← noted (slabAt true lo o d)
  let b1 ← noted (slabAt true hi o d)
  return some (min32 a0 b0, max32 a1 b1)

/-- A ray meets a box: where it enters. -/
def rayBox (o d : V3) (tmax : Nat) (box : V3 × V3) : FilM (Option Nat) := do
  let ss ← (List.range 3).mapM (fun a => slabOf (box.1.at a) (box.2.at a) (o.at a) (d.at a))
  match ss.mapM id with
  | none => return none
  | some l =>
    let tent := l.foldl (fun t s => max32 t s.1) 0
    let tex := l.foldl (fun t s => if Fmt.f32.isNaN t then t else min32 t s.2) tmax
    return if Fmt.f32.le tent tex then some tent else none

def boxBox (q qq : V3) (box : V3 × V3) : Bool :=
  (List.range 3).all (fun a => Fmt.f32.le (q.at a) (box.2.at a) && Fmt.f32.le (box.1.at a) (qq.at a))

/-- The exact distance from a point to an interval on one axis: none when it is infinite. -/
def axisGap (c lo hi : Nat) : Option (Int × Int) :=
  let diff := fun (x y : Nat) => match Fmt.f32.val x, Fmt.f32.val y with
    | .fin n m e, .fin n' m' e' => some (addExact n m e (!n') m' e')
    | _, _ => none
  if Fmt.f32.lt c lo then diff lo c else if Fmt.f32.lt hi c then diff c hi else some (0, 0)

/-- A sphere overlaps a box (R180). -/
def sphereBox (c : V3) (r : Nat) (box : V3 × V3) : Bool :=
  if (box.1 ++ box.2).any Fmt.f32.isNaN then false else
  match (List.range 3).mapM (fun a => axisGap (c.at a) (box.1.at a) (box.2.at a)), Fmt.f32.val r with
  | _, .inf _ => true
  | none, _ => false
  | some gs, .fin _ m e =>
    let s := gs.foldl (fun (k : Int × Int) g => addExact false k.1.natAbs k.2 false (g.1 * g.1).natAbs (2 * g.2)) (0, 0)
    decide ((addExact false s.1.natAbs s.2 true (m * m) (2 * e)).1 ≤ 0)
  | _, .nan => false

/-! ## The triangle test (R181) -/

def fsub' (a b : Nat) : FilM Nat := noted (Fmt.f32.sub .near false a b)
def vsub (a b : V3) : FilM V3 := (List.range 3).mapM (fun i => fsub' (a.at i) (b.at i))
def cross (a b : V3) : FilM V3 :=
  (List.range 3).mapM (fun i => do
    let y := (i + 1) % 3
    let z := (i + 2) % 3
    fsub' (← fmul' (a.at y) (b.at z)) (← fmul' (a.at z) (b.at y)))
def dot (a b : V3) : FilM Nat := do
  fadd' (← fadd' (← fmul' (a.at 0) (b.at 0)) (← fmul' (a.at 1) (b.at 1))) (← fmul' (a.at 2) (b.at 2))

def readV3 (e : MacEnv) (a : Nat) : FilM V3 := do
  let l ← FilM.lift (e.readBytes a 12)
  pure [natAt l 0 4, natAt l 4 4, natAt l 8 4]

/-- The vertices of a triangle. -/
def triangleAt (e : MacEnv) (t : Tree) (p : Nat) : FilM (List V3) := do
  let l ← FilM.lift (e.readBytes (t.prims + 16 * p) 12)
  [natAt l 0 4, natAt l 4 4, natAt l 8 4].mapM (fun v => readV3 e (t.verts + 16 * v))

def triTest (p : List V3) (o d : V3) (tmax : Nat) : FilM (Option Nat) := do
  let p0 := p.getD 0 []
  let e1 ← vsub (p.getD 1 []) p0
  let e2 ← vsub (p.getD 2 []) p0
  let pv ← cross d e2
  let det ← dot e1 pv
  if Fmt.f32.eq det 0 then return none
  let tv ← vsub o p0
  let u ← dot tv pv
  let qv ← cross tv e1
  let v ← dot d qv
  let tn ← dot e2 qv
  let flip := fun (x : Nat) => if Fmt.f32.lt det 0 then Fmt.f32.negate x else x
  let (det, u, v, tn) := (flip det, flip u, flip v, flip tn)
  if !(Fmt.f32.le 0 u && Fmt.f32.le 0 v) then return none
  let uv ← fadd' u v
  if !Fmt.f32.le uv det then return none
  let t ← noted (Fmt.f32.div .near false tn det)
  return if Fmt.f32.le 0 t && Fmt.f32.le t tmax then some t else none

/-! ## A lane's visit (R178, R179) -/

/-- Fields of LST. -/
structure Lst where
  trail : Bool
  hit : Bool
  cond : Nat
  depth : Nat
  deriving DecidableEq, Repr

def Lst.of (x : Nat) : Lst := { trail := x.testBit 11, hit := x.testBit 10, cond := fld x 5 3, depth := fld x 0 5 }
def Lst.word (s : Lst) : Nat := (if s.trail then 2 ^ 11 else 0) + (if s.hit then 2 ^ 10 else 0) + s.cond * 32 + s.depth

def Win.v3 (w : Win) (i : Nat) : V3 := [w.at i, w.at (i + 1), w.at (i + 2)]

/-- The window of a lane that starts (R179). -/
def travStart (q : Query) (root : Nat) (w : Win) : Win :=
  let nan := fun (i n : Nat) => (List.range n).any (fun k => Fmt.f32.isNaN (w.at (i + k)))
  let inf := fun (i n : Nat) => (List.range n).any (fun k => Fmt.f32.mag (w.at (i + k)) == Fmt.f32.infPat)
  let bad := match q with
    | .closest | .any => nan 16 7 || inf 16 6
    | .box => nan 16 6
    | .sphere => nan 16 4 || Fmt.f32.lt (w.at 19) 0
  let w := (w.put 0 root).put 23 (Lst.word { trail := false, hit := false, cond := if bad then 1 else 0, depth := 1 })
  if q.ray then w.put 15 0xFFFFFFFF else w

/-- What the walk over a node's children has come to. -/
structure Visit where
  w : Win
  s : Lst
  /-- entry distance, slot and node of the inner children that are met -/
  pend : List (Nat × Nat × Nat) := []
  stop : Option Nat := none

/-- One child slot (R179). -/
def visitChild (e : MacEnv) (t : Tree) (q : Query) (node : NodeBytes) (k : Visit) (c : Nat) : FilM Visit := do
  if k.stop.isSome || nodeKind node c = 0 then return k
  let box ← childBox node c
  let w := k.w
  let ref := nodeRef node c
  let tent ← match q with
    | .closest | .any => rayBox (w.v3 16) (w.v3 19) (w.at 22) box
    | .box => pure (if boxBox (w.v3 16) (w.v3 19) box then some 0 else none)
    | .sphere => pure (if sphereBox (w.v3 16) (w.at 19) box then some 0 else none)
  match tent with
  | none => return k
  | some tent =>
    let kind := nodeKind node c
    if kind = 1 then return { k with pend := k.pend ++ [(tent, c, ref)] }
    if !q.ray then return { k with w := w.put 22 ref, s := { k.s with cond := 4 }, stop := some c }
    if kind = 3 then
      let w := if q == .closest then w.put 14 ref else (w.put 15 ref).put 14 0
      return { k with w, s := { k.s with cond := 3 }, stop := some c }
    match ← triTest (← triangleAt e t ref) (w.v3 16) (w.v3 19) (w.at 22) with
    | none => return k
    | some d =>
      let hit := (w.put 22 d).put 15 ref
      if q == .closest then
        if Fmt.f32.lt d (w.at 22) || (Fmt.f32.eq d (w.at 22) && k.s.hit && decide (ref < w.at 15))
        then return { k with w := hit, s := { k.s with hit := true } } else return k
      else if nodeOpaque node c then return { k with w := hit, s := { k.s with hit := true, cond := 1 }, stop := some c }
      else return { k with w := (w.put 15 ref).put 14 d, s := { k.s with cond := 2 }, stop := some c }

def pushEntry (k : Visit) (x : Nat) : Visit := { k with w := k.w.put k.s.depth x, s := { k.s with depth := k.s.depth + 1 } }

/-- Farther entries first; ties go by descending slot. -/
def fartherFirst (a b : Nat × Nat × Nat) : Bool := Fmt.f32.lt b.1 a.1 || (Fmt.f32.eq a.1 b.1 && decide (b.2.1 ≤ a.2.1))

/-- One visit of a lane with COND 0 (R179). -/
def travLane (e : MacEnv) (t : Tree) (q : Query) (w : Win) : FilM Win := do
  let s := Lst.of (w.at 23)
  let lim := if q.ray then 14 else 16
  let put := fun (w : Win) (s : Lst) => w.put 23 s.word
  if s.depth = 0 then return put w { s with cond := if s.trail then 6 else 1 }
  if lim < s.depth - 1 + 5 then return put w { s with cond := 5 }
  let top := w.at (s.depth - 1)
  let n := top % 2 ^ 30
  let node ← FilM.lift (e.readBytes (t.nodes + 64 * n) 64)
  let first := top / 2 ^ 30
  let k ← ((List.range 4).filter (fun c => decide (first ≤ c))).foldlM (visitChild e t q node) { w, s := { s with depth := s.depth - 1 } }
  if k.s.cond = 1 then return put k.w k.s
  let k := (k.pend.mergeSort fartherFirst).foldl (fun (k : Visit) p => pushEntry k (p.2.2 % 2 ^ 32)) k
  let k := match k.stop with
    | some c => if c < 3 then pushEntry k ((c + 1) * 2 ^ 30 + n) else k
    | none => k
  return put k.w k.s

def Wave.window24 (w : Wave) (p : Bool) (base l : Nat) : Win := (List.range 24).map (fun i => (w.getV p (base + i) l).toNat)

/-- How a `trav` with no lane left to step ends (R156, R179). -/
def travEnd (conds : List Nat) : MEnd :=
  if conds.all (· == 1) then .done
  else .call (0x100 + (List.range 7).foldl (fun k c => if decide (2 ≤ c) && conds.contains c then k + 2 ^ c else k) 0)

/-- One step of a `trav` (R155, R179). -/
def travStep (e : MacEnv) (u : UnitOp) (q : Query) (o : OpTrav) (w : Wave) : MacM MStepRes := do
  let p := u.half
  let base := o.m.w.toNat
  let desc ← if u.begun then pure u.desc else e.readBytes u.addr 64
  let t := Tree.parse desc
  let lanes := bitsOf (w.activeMask p o.k.toNat) 64
  let wins := lanes.map (fun l => let x := w.window24 p base l; (l, if u.fresh then travStart q t.root x else x))
  let rs ← wins.mapM (fun x => do
    if (Lst.of (x.2.at 23)).cond != 0 then return (x.1, Except.ok (x.2, (0 : Flags)))
    let m ← get
    match travLane e t q x.2 { m } with
    | .ok v s => set s.m; pure (x.1, Except.ok (v, s.fl))
    | .error st s => set s.m; pure (x.1, Except.error st))
  match stopsOf (rs.filterMap (fun r => match r.2 with | .error st => some (r.1, st) | .ok _ => none)) with
  | some st => throw st
  | none =>
    let oks := rs.filterMap (fun r => match r.2 with | .ok x => some (r.1, x) | .error _ => none)
    let w := oks.foldl (fun (w : Wave) x => w.putWindow p base x.1 x.2.1) w
    let conds := oks.map (fun x => (Lst.of (x.2.1.at 23)).cond)
    let stepped := wins.any (fun x => (Lst.of (x.2.at 23)).cond == 0)
    return { w, fin := if conds.contains 0 then .more else travEnd conds, count := if stepped then u.count + 1 else u.count,
             flags := oks.foldl (fun (f : Flags) x => f ||| x.2.2) 0, desc }

def Env.trav (e : Env) (o : OpTrav) (i : Instr) : WOut :=
  e.issueMacro i { OpMac.fields o.m .traversal with k := o.k.toNat, lane := true } (fun _ => .ok)
    (fun p u m => ({ u with addr := (e.w.getS p o.a.toNat).toNat }, m))

def execTravClosest (o : OpTrav) (s : State) : Host.Outcome State Fault Refusal := withCur (fun e => e.trav o (.travClosest o)) s
def execTravAny (o : OpTrav) (s : State) : Host.Outcome State Fault Refusal := withCur (fun e => e.trav o (.travAny o)) s
def execTravBox (o : OpTrav) (s : State) : Host.Outcome State Fault Refusal := withCur (fun e => e.trav o (.travBox o)) s
def execTravSphere (o : OpTrav) (s : State) : Host.Outcome State Fault Refusal := withCur (fun e => e.trav o (.travSphere o)) s

/-! ## bvrefit (R183) -/

/-- A box of f32 patterns. -/
abbrev Box3 := V3 × V3

def unionBox (a b : Box3) : Box3 :=
  ((List.range 3).map (fun i => min32 (a.1.at i) (b.1.at i)), (List.range 3).map (fun i => max32 (a.2.at i) (b.2.at i)))

def unionAll : List Box3 → Option Box3
  | [] => none
  | b :: r => some (r.foldl unionBox b)

def slotsOf (node : NodeBytes) : List Nat := (List.range 4).filter (fun c => nodeKind node c != 0)

/-- The box of one child of a node being refitted; none when a coordinate is not finite. -/
def refitChild (e : MacEnv) (t : Tree) (node : NodeBytes) (c : Nat) : FilM (Option Box3) := do
  let ref := nodeRef node c
  let box ← match nodeKind node c with
    | 1 => do
      let child ← FilM.lift (e.readBytes (t.nodes + 64 * ref) 64)
      let org : V3 := [natAt child 0 4, natAt child 4 4, natAt child 8 4]
      pure ((unionAll (← (slotsOf child).mapM (childBox child))).getD (org, org))
    | 2 => do
      let vs ← triangleAt e t ref
      pure ((unionAll (vs.map (fun v => (v, v)))).getD ([], []))
    | _ => do
      let lo ← readV3 e (t.cbox + 24 * ref)
      let hi ← readV3 e (t.cbox + 24 * ref + 12)
      pure (lo, hi)
  let vs ← match nodeKind node c with
    | 2 => do pure ((← triangleAt e t ref).flatten)
    | _ => pure (box.1 ++ box.2)
  return if vs.all finite32 then some box else none

/-- `(x − y)` of finite f32 patterns, exactly. -/
def exactDiff (x y : Nat) : Int × Int :=
  match Fmt.f32.val x, Fmt.f32.val y with
  | .fin n m e, .fin n' m' e' => addExact n m e (!n') m' e'
  | _, _ => (0, 0)

/-- The least `e ≥ −127` with `d ≤ 256 × 2^e` (R183). -/
def refitExp (d : Int × Int) : Int :=
  ((List.range 255).map (fun (i : Nat) => (i : Int) - 127)).find? (fun e => decide ((addExact false d.1.natAbs d.2 true 256 e).1 ≤ 0)) |>.getD 127

/-- `d / 2^e` rounded down, or up. -/
def scaledFloor (d : Int × Int) (e : Int) : Int := floorFV (.fin (decide (d.1 < 0)) d.1.natAbs (d.2 - e))
def scaledCeil (d : Int × Int) (e : Int) : Int := -floorFV (.fin (decide (0 < d.1)) d.1.natAbs (d.2 - e))

/-- A quantised bound as a byte; one that does not fit is free. -/
def quantByte (x : Int) (free : Nat) : Byte := if 0 ≤ x ∧ x ≤ 255 then BitVec.ofNat 8 x.toNat else Config.refitByte free

/-- The 64 bytes of a refitted node: its child boxes in slot order (R183). A node without children keeps its
origin. -/
def refitNode (node : NodeBytes) (boxes : List (Nat × Box3)) (free : Nat) : NodeBytes :=
  let keep : V3 := [natAt node 0 4, natAt node 4 4, natAt node 8 4]
  let b := (unionAll (boxes.map (·.2))).getD (keep, keep)
  let exp := (List.range 3).map (fun a => refitExp (exactDiff (b.2.at a) (b.1.at a)))
  let ex := fun (a : Nat) => exp.getD a 0
  let lo := fun (x : Box3) (a : Nat) => scaledFloor (exactDiff (x.1.at a) (b.1.at a)) (ex a)
  let hi := fun (x : Box3) (a : Nat) => max (lo x a) (scaledCeil (exactDiff (x.2.at a) (b.1.at a)) (ex a) - 1)
  let quant := fun (c : Nat) => match boxes.find? (fun y => y.1 == c) with
    | some (_, x) => (List.range 3).map (fun a => quantByte (lo x a) (free + 8 * c + a)) ++ (List.range 3).map (fun a => quantByte (hi x a) (free + 8 * c + 3 + a))
    | none => bytesAt node (16 + 6 * c) 6
  (List.range 3).flatMap (fun a => natBytes (b.1.at a) 4) ++ exp.map (fun x => BitVec.ofNat 8 (wrapI x 8)) ++ bytesAt node 15 1
    ++ (List.range 4).flatMap quant ++ bytesAt node 40 17 ++ zeros 7

/-- The refitted nodes of a level, or the node and slot that stop it. -/
def refitLevel (e : MacEnv) (t : Tree) (ns : List Nat) : FilM (Except (Nat × Nat) (List (Nat × NodeBytes × List (Nat × Box3)))) :=
  ns.foldlM (fun acc n => do
    match acc with
    | .error x => pure (.error x)
    | .ok l =>
      let node ← FilM.lift (e.readBytes (t.nodes + 64 * n) 64)
      let bs ← (slotsOf node).mapM (fun c => do pure (c, ← refitChild e t node c))
      match bs.find? (fun b => b.2.isNone) with
      | some (c, _) => pure (.error (n, c))
      | none => pure (.ok (l ++ [(n, node, bs.filterMap (fun b => b.2.map (fun x => (b.1, x))))]))) (.ok [])

/-- One step of a `bvrefit`. -/
def refitStep (e : MacEnv) (u : UnitOp) (o : OpBvrefit) (w : Wave) : MacM MStepRes := do
  let desc ← if u.begun then pure u.desc else e.readBytes u.addr 64
  let t := Tree.parse desc
  if t.nlev ≤ u.count then return { w, fin := .done, count := u.count }
  let d := t.nlev - 1 - u.count
  let first ← e.read (t.levt + 4 * d) 4
  let last ← e.read (t.levt + 4 * (d + 1)) 4
  let m ← get
  match refitLevel e t ((List.range (last - first)).map (· + first)) { m } with
  | .error st s => set s.m; throw st
  | .ok (.error (n, c)) s =>
    set s.m
    return { w := (w.setWord u.half o.m.w.toNat 0 0 n).setWord u.half o.m.w.toNat 0 1 c, fin := .call 0x50, count := u.count }
  | .ok (.ok l) s =>
    set s.m
    l.forM (fun x => do
      let m ← get
      set { m with free := m.free + 32 }
      e.write (t.nodes + 64 * x.1) (refitNode x.2.1 x.2.2 m.free))
    return { w, fin := if t.nlev ≤ u.count + 1 then .done else .more, count := u.count + 1, flags := s.fl, desc }

def execBvrefit (o : OpBvrefit) (s : State) : Host.Outcome State Fault Refusal :=
  withCur (fun e => e.issueMacro (.bvrefit o) (OpMac.fields o.m .traversal) (fun _ => .ok)
    (fun p u m => ({ u with addr := (e.w.getS p o.a.toNat).toNat }, m))) s

end Sys2Proof.Machine
end

