-- ==== Sys2Proof/Machine/Macro.lean ====
section
/-!
DEFINITION. One step of the macro that a wave has in flight (spec/01_machine.md R40; spec/06_macros.md R155).
-/

namespace Sys2Proof.Machine

/-- The step of each macro, on its unit. -/
def macroBody (e : MacEnv) (u : UnitOp) (w : Wave) (b : Block) : MacM MStepRes :=
  match u.instr with
  | .rast o => rastStep u w o.w.toNat b
  | .oblend o => blendStep u w o.w.toNat b
  | .filt o => filtStep e u o w
  | .travClosest o => travStep e u .closest o w
  | .travAny o => travStep e u .any o w
  | .travBox o => travStep e u .box o w
  | .travSphere o => travStep e u .sphere o w
  | .bvrefit o => refitStep e u o w
  | _ => pure { w, fin := .done, count := u.count }

/-- The unit takes one step for the wave: while its block is resident and its context's function runs. -/
def unitStep (g : Mgmt) (m : Mach) (u : UnitOp) : Mach :=
  match m.wave? u.wave, m.ctx? u.ctx, macFields u.instr with
  | some w, some x, some f =>
    match m.block? w.block with
    | some b =>
      if !m.resident w || !m.running x then m else
      let e : MacEnv := { g, core := u.core, c := u.ctx, x, older := w.acc }
      match macroBody e u w b m with
      | .error .busy _ => m
      | r => { afterStep g u f r w x with changes := m.changes + 1 }
    | none => m
  | _, _, _ => m

def execMacroStep (w : Nat) (s : State) : Host.Outcome State Fault Refusal :=
  match s.m.units.find? (fun (u : UnitOp) => u.wave == w) with
  | none => .next s
  | some u => .next { s with m := unitStep s.mgmt ((s.m.wave? w).elim s.m s.m.askWave) u }

end Sys2Proof.Machine
end

