-- ==== Sys2Proof/Machine/Queues.lean ====
section
/-!
DEFINITION. Queue instructions: the purse and its stage queues (spec/06_macros.md R184, R185) and the geometry
queues (R186, R187). Each is one atomic operation at a home (spec/07_ordering.md R189).
-/

namespace Sys2Proof.Machine

/-! ## Memory at home -/

/-- One piece within a line, translated, at its home. An address in an aperture is not global memory
(notes/assumptions/16.md). -/
def MacEnv.homeAt (e : MacEnv) (need : Need) (a : Nat) : MacM Nat := fun m =>
  let va := a % 2 ^ 64
  if (e.x.steer va).1 != .global then .error (.cause 0x70 0) m
  else if !canonical va then .error (.cause 0x20 0) m
  else match xlate e.g m e.c va need with
    | (.ok pa _ _, m) => .ok pa (m.homeReq e.core e.c pa)
    | (.absent lv, m) => .error (.absent va lv kindAtomic) m
    | (.perm _, m) => .error (.perm va 0) m

def MacEnv.homePieces (e : MacEnv) (need : Need) (a n : Nat) : MacM (List (Nat × Nat × Nat)) :=
  (linePieces a n).mapM (fun (x : Nat × Nat) => do
    let pa ← e.homeAt need x.1
    if olderMeets e.older need.w x.1 pa x.2 then throw MStop.busy
    pure (x.1, pa, x.2))

/-- Reads a number at its home. -/
def MacEnv.homeRead (e : MacEnv) (need : Need) (a n : Nat) : MacM Nat := do
  let ps ← e.homePieces need a n
  let m ← get
  if ps.any (fun (x : Nat × Nat × Nat) => m.poisoned x.2.1 x.2.2) then throw MStop.poison
  pure (bytesNat (ps.flatMap (fun (x : Nat × Nat × Nat) => m.rdAny x.2.1 x.2.2)))

/-- Writes a number at its home, once every piece is translated. -/
def MacEnv.homeWrite (e : MacEnv) (need : Need) (a n v : Nat) : MacM Unit := do
  let ps ← e.homePieces need a n
  let bytes := natBytes v n
  modify (fun m => ps.foldl (fun (m : Mach) (x : Nat × Nat × Nat) => m.wrAny x.2.1 ((bytes.drop (x.1 - a)).take x.2.2)) m)

/-- Undoes what an operation that does not take place has done to memory, caches and the context. -/
def Mach.undo (m old : Mach) : Mach :=
  { m with mem := old.mem, poison := old.poison, peerOut := old.peerOut, l1 := old.l1, rdc := old.rdc, l2 := old.l2, ctxs := old.ctxs }

/-! ## The frame of a queue instruction -/

/-- What one half's operation comes to: its wave, and the lanes that met a permission outcome. -/
structure QRes where
  w : Wave
  bad : List (Bool × Nat × Nat) := []

/-- Runs the operation of each half, half 0 first. An absent page undoes the instruction, which waits; a
permission outcome of a half's own operands leaves that half's operation undone (R326). -/
def Env.queueOp (e : Env) (k : Nat) (ps : List Bool) (f : MacEnv → Bool → Wave → MacM QRes) : WOut :=
  let env : MacEnv := { g := e.g, core := e.w.core, c := e.w.ctx, x := e.x, older := e.w.acc }
  let go : Mach × QRes → Bool → Except WOut (Mach × QRes) := fun r p =>
    match f env p r.2.w r.1 with
    | .ok q m => .ok (m, { q with bad := r.2.bad ++ q.bad })
    | .error stop m =>
      let all := e.w.active p k
      match stop with
      | .absent va lv kind => .error (e.stall (m.undo e.m) va lv kind)
      | .poison => .error (.fatal (m.undo e.m) e.w 0x52 0)
      | .busy => .error (e.halt .room)
      | .cause code _ => .error (let l := e.w.activeMask p k
          .trap (m.undo e.m) e.w { code, rpc := e.w.pc, addr := e.w.pc, addr1 := e.w.pc, lanes0 := if p then 0 else l, lanes1 := if p then l else 0 })
      | .perm va _ => .ok (m.undo r.1, { r.2 with bad := r.2.bad ++ all.map (fun l => (p, l, va)) })
  match ps.foldlM go (e.m, { w := e.w }) with
  | .error o => o
  | .ok (m, r) =>
    if r.bad.isEmpty then .next m { r.w with pc := e.w.pc + 8 } else
    let lanes := fun (p : Bool) => maskOf ((r.bad.filter (fun x => x.1 == p)).map (fun x => x.2.1))
    let addr := fun (p : Bool) => ((r.bad.find? (fun x => x.1 == p)).map (fun x => x.2.2)).getD 0
    permitAfter e.w.pc m r.w 8 (addr false) (addr true) (lanes false) (lanes true)

/-- The lanes of a half in order, each with its own effect; those that meet a permission outcome have none. -/
def eachLane (p : Bool) (w : Wave) (ls : List Nat) (f : Wave → Nat → MacM Wave) : MacM QRes :=
  ls.foldlM (fun (r : QRes) l => do
    match ← laneTry (f r.w l) with
    | .ok w => pure { r with w }
    | .error (.perm va _) => pure { r with bad := r.bad ++ [(p, l, va)] }
    | .error st => throw st) { w }

/-! ## The purse (R184, R185) -/

def noSlot : Nat := 0xFFFFFFFF

/-- Takes a free slot: the most recently freed, else the lowest never handed out. -/
def Ctx.takeSlot (x : Ctx) : Option (Nat × Ctx) :=
  match x.freed with
  | s :: r => some (s, { x with freed := r })
  | [] => if x.fresh < x.pcount then some (x.fresh, { x with fresh := x.fresh + 1 }) else none

def Ctx.giveSlot (x : Ctx) (s : Nat) : Option Ctx :=
  if x.pcount ≤ s || x.fresh ≤ s || x.freed.contains s then none else some { x with freed := s :: x.freed }

def Ctx.stage (x : Ctx) (n : Nat) : List Nat := mget [] x.stages n

def Ctx.pushStage (x : Ctx) (n s : Nat) : Option Ctx :=
  if x.pcount ≤ s || x.pcount ≤ (x.stage n).length then none else some { x with stages := mset [] x.stages n (x.stage n ++ [s]) }

def Ctx.popStage (x : Ctx) (n : Nat) : Option (Nat × Ctx) :=
  match x.stage n with
  | s :: r => some (s, { x with stages := mset [] x.stages n r })
  | [] => none

/-- The context as it stands, and an update of it. -/
def MacEnv.ctxNow (e : MacEnv) : MacM Ctx := do let m ← get; pure ((m.ctx? e.c).getD e.x)
def MacEnv.setCtx (e : MacEnv) (x : Ctx) : MacM Unit := modify (fun m => m.updCtx e.c (fun _ => x))

/-- The purse's home is reached before anything happens. -/
def MacEnv.purse (e : MacEnv) : MacM Unit := do let _ ← e.homeAt needRW e.x.pbase; pure ()

/-- Halves with active lanes. -/
def Env.laneHalves (e : Env) (k : Nat) : List Bool := e.w.groups.filter (fun p => !(e.w.active p k).isEmpty)

/-- A lane that takes something: its register and its mask bit. -/
def Wave.took (w : Wave) (p : Bool) (l d c : Nat) (s : Option Nat) : Wave :=
  let w := w.setV p d l (BitVec.ofNat 32 (s.getD noSlot))
  w.setK p c (setBit (w.getK p c) l s.isSome)

def execPsalloc (k : BitVec 4) (d : BitVec 8) (c : BitVec 4) (s : State) : Host.Outcome State Fault Refusal :=
  withCur (fun e =>
    let ps := e.laneHalves k.toNat
    match e.homeCauses k.toNat 1 1 (fun _ => e.x.pbase) ps with
    | some t => t
    | none => e.queueOp k.toNat ps (fun q p w => do
        q.purse
        eachLane p w (w.active p k.toNat) (fun w l => do
          let x ← q.ctxNow
          match x.takeSlot with
          | some (n, x) => q.setCtx x; pure (w.took p l d.toNat c.toNat (some n))
          | none => pure (w.took p l d.toNat c.toNat none)))) s

/-- A lane whose slot was refused, or not. -/
def Wave.refusedBit (w : Wave) (p : Bool) (l c : Nat) (no : Bool) : Wave := w.setK p c (setBit (w.getK p c) l no)

def execPsfree (k : BitVec 4) (a : BitVec 8) (c : BitVec 4) (s : State) : Host.Outcome State Fault Refusal :=
  withCur (fun e =>
    let ps := e.laneHalves k.toNat
    match e.homeCauses k.toNat 1 1 (fun _ => e.x.pbase) ps with
    | some t => t
    | none => e.queueOp k.toNat ps (fun q p w => do
        q.purse
        eachLane p w (w.active p k.toNat) (fun w l => do
          let x ← q.ctxNow
          match x.giveSlot (w.getV p a.toNat l).toNat with
          | some x => q.setCtx x; pure (w.refusedBit p l c.toNat false)
          | none => pure (w.refusedBit p l c.toNat true)))) s

/-- `sqpush`: `grel.device` on PGUARD, and then the lanes append (R185). -/
def execSqpush (k : BitVec 4) (a : BitVec 8) (n : BitVec 3) (c : BitVec 4) (s : State) : Host.Outcome State Fault Refusal :=
  withCur (fun e =>
    let ps := e.laneHalves k.toNat
    match e.homeCauses k.toNat 1 1 (fun _ => e.x.pbase) ps with
    | some t => t
    | none =>
    match e.homeCauses k.toNat 8 8 (fun _ => e.x.pguard) ps with
    | some t => t
    | none =>
      if ps.any (fun p => !e.released (some p) .device true (inRegions (e.x.regions e.x.pguard))) then e.halt .room else
      e.queueOp k.toNat ps (fun q p w => do
        q.purse
        let v ← q.homeRead needRW q.x.pguard 8
        modify (fun m => m.releaseTo q.c .device)
        q.homeWrite needRW q.x.pguard 8 ((v + 1) % 2 ^ 64)
        eachLane p w (w.active p k.toNat) (fun w l => do
          let x ← q.ctxNow
          match x.pushStage n.toNat (w.getV p a.toNat l).toNat with
          | some x => q.setCtx x; pure (w.refusedBit p l c.toNat false)
          | none => pure (w.refusedBit p l c.toNat true)))) s

/-- `sqpop`: the lanes take entries, and one that received any acquires on PGUARD (R185). -/
def execSqpop (k : BitVec 4) (d : BitVec 8) (n : BitVec 3) (c : BitVec 4) (s : State) : Host.Outcome State Fault Refusal :=
  withCur (fun e =>
    let ps := e.laneHalves k.toNat
    match e.homeCauses k.toNat 1 1 (fun _ => e.x.pbase) ps with
    | some t => t
    | none =>
    match (if (e.x.stage n.toNat).isEmpty then none else e.homeCauses k.toNat 8 8 (fun _ => e.x.pguard) ps) with
    | some t => t
    | none => e.queueOp k.toNat ps (fun q p w => do
        q.purse
        let x ← q.ctxNow
        if !(x.stage n.toNat).isEmpty then
          let _ ← q.homeRead needRW q.x.pguard 8
        let r ← eachLane p w (w.active p k.toNat) (fun w l => do
          let x ← q.ctxNow
          match x.popStage n.toNat with
          | some (v, x) => q.setCtx x; pure (w.took p l d.toNat c.toNat (some v))
          | none => pure (w.took p l d.toNat c.toNat none))
        if !(x.stage n.toNat).isEmpty then
          modify (fun m => m.invalidateIn q.core q.c .device (q.x.regions q.x.pguard))
        pure r)) s

/-! ## Geometry queues (R186, R187) -/

structure GqHead where
  ring : Nat
  cap : Nat
  head : Nat
  tail : Nat
  take : Nat
  ovfl : Nat
  cull : Nat

def MacEnv.gqHead (e : MacEnv) (need : Need) (a : Nat) : MacM GqHead := do
  let b := natBytes (← e.homeRead need a 32) 32
  pure { ring := natAt b 0 8, cap := natAt b 8 4, head := natAt b 12 4, tail := natAt b 16 4, take := natAt b 20 4,
         ovfl := natAt b 24 4, cull := natAt b 28 4 }

/-- Address of record x. -/
def GqHead.recAt (h : GqHead) (x : Nat) : Nat := (h.ring + 16 * (x % 2 ^ 32 % h.cap)) % 2 ^ 64

def MacEnv.gqRead (e : MacEnv) (need : Need) (h : GqHead) (x : Nat) : MacM (List Nat) := do
  let b := natBytes (← e.homeRead need (h.recAt x) 16) 16
  pure [natAt b 0 4, natAt b 4 4, natAt b 8 4, natAt b 12 4]

def wordsNat (l : List Nat) : Nat := bytesNat (l.flatMap (fun x => natBytes x 4))

def MacEnv.gqWrite (e : MacEnv) (need : Need) (h : GqHead) (x : Nat) (l : List Nat) : MacM Unit := e.homeWrite need (h.recAt x) 16 (wordsNat l)

def noRecord : List Nat := [0xFFFFFFFF, 0xFFFFFFFF, 0xFFFFFFFF, 0xFFFFFFFF]

/-- Records of a batch, from its header record. -/
def batchLen (r : List Nat) : Nat := (1 + (r[0]?).getD 0 + (r[1]?).getD 0) % 2 ^ 32
def batchState (r : List Nat) : Nat := (r[2]?).getD 0

def allOnes64 : W64 := BitVec.allOnes 64

/-- The header's address causes, and then the operation. A header that is not a multiple of 8 raises MISALIGN, as a guard word
does (DEDUCED: R186 names no alignment; notes/assumptions/27.md). -/
def Env.gq (e : Env) (k : BitVec 4) (a : BitVec 7) (ps : List Bool) (f : MacEnv → Nat → Bool → Wave → MacM QRes) : WOut :=
  let addr := fun (p : Bool) => (e.w.getS p a.toNat).toNat
  match e.homeCauses k.toNat 64 8 addr ps with
  | some t => t
  | none => e.queueOp k.toNat ps (fun q p w => f q (addr p) p w)

def execGqpushOpen (d a b c : BitVec 7) (s : State) : Host.Outcome State Fault Refusal :=
  withCur (fun e => e.gq 0 a e.w.passes (fun q addr p w => do
    let h ← q.gqHead needRW addr
    let sb := (w.getS p b.toNat).toNat
    let nv := fld sb 0 16
    let np := fld sb 16 16
    let n := 1 + nv + np
    if (wrapI ((h.head : Int) + n - h.tail) 32) ≤ h.cap then
      q.gqWrite needW h h.head [nv, np, 0, (w.getS p c.toNat).toNat % 2 ^ 32]
      (List.range (n - 1)).forM (fun i => q.gqWrite needW h (h.head + 1 + i) noRecord)
      q.homeWrite needRW (addr + 12) 4 ((h.head + n) % 2 ^ 32)
      pure { w := w.setS p d.toNat (w64 h.head) }
    else pure { w := w.setS p d.toNat allOnes64 })) s

/-- Adds 1 to OVFL or CULL, saturating. -/
def MacEnv.gqBump (e : MacEnv) (addr off old : Nat) : MacM Unit := e.homeWrite needRW (addr + off) 4 (min (old + 1) 0xFFFFFFFF)

/-- The four registers of a lane's record. -/
def Wave.recOf (w : Wave) (p : Bool) (l d : Nat) : List Nat := (List.range 4).map (fun i => (w.getV p (d + i) l).toNat)

/-- One lane's record of `gqpush.vtx` or `gqpush.prim`. -/
def MacEnv.gqPut (q : MacEnv) (prim : Bool) (addr : Nat) (p : Bool) (w : Wave) (d b c l : Nat) : MacM Wave := do
  let h ← q.gqHead needRW addr
  let base := (w.getS p b).toNat % 2 ^ 32
  let hd ← q.gqRead needR h base
  let nv := (hd[0]?).getD 0
  let n := (w.getV p c l).toNat
  let words := w.recOf p l d
  if (if prim then (hd[1]?).getD 0 else nv) ≤ n || batchState hd != 0 then q.gqBump addr 24 h.ovfl
  else if !prim then q.gqWrite needW h (base + 1 + n) words
  else if (words.take 3).any (fun x => decide (nv ≤ x)) then
    q.gqWrite needW h (base + 1 + nv + n) noRecord
    q.gqBump addr 28 h.cull
  else q.gqWrite needW h (base + 1 + nv + n) words
  pure w

def Env.gqPush (e : Env) (prim : Bool) (k : BitVec 4) (d : BitVec 8) (a b : BitVec 7) (c : BitVec 8) : WOut :=
  e.gq k a (e.laneHalves k.toNat) (fun q addr p w =>
    eachLane p w (w.active p k.toNat) (fun w l => q.gqPut prim addr p w d.toNat b.toNat c.toNat l))

def execGqpushVtx (k : BitVec 4) (d : BitVec 8) (a b : BitVec 7) (c : BitVec 8) (s : State) : Host.Outcome State Fault Refusal :=
  withCur (fun e => e.gqPush false k d a b c) s
def execGqpushPrim (k : BitVec 4) (d : BitVec 8) (a b : BitVec 7) (c : BitVec 8) (s : State) : Host.Outcome State Fault Refusal :=
  withCur (fun e => e.gqPush true k d a b c) s

/-- Moves the state word of the batch at an index, when it stands at `old`. -/
def MacEnv.gqMove (q : MacEnv) (h : GqHead) (x old new : Nat) : MacM Unit := do
  let hd ← q.gqRead needRW h x
  if batchState hd = old then q.homeWrite needRW (h.recAt x + 8) 4 new

def execGqpushClose (a b : BitVec 7) (s : State) : Host.Outcome State Fault Refusal :=
  withCur (fun e => e.gq 0 a e.w.passes (fun q addr p w => do
    let h ← q.gqHead needRW addr
    q.gqMove h (w.getS p b.toNat).toNat 0 1
    pure { w })) s

def execGqpopTake (d a : BitVec 7) (s : State) : Host.Outcome State Fault Refusal :=
  withCur (fun e => e.gq 0 a e.w.passes (fun q addr p w => do
    let h ← q.gqHead needRW addr
    let none_ : QRes := { w := w.setS p d.toNat allOnes64 }
    if h.take = h.head then return none_
    let hd ← q.gqRead needRW h h.take
    if batchState hd != 1 then return none_
    q.homeWrite needRW (h.recAt h.take + 8) 4 2
    q.homeWrite needRW (addr + 20) 4 ((h.take + batchLen hd) % 2 ^ 32)
    pure { w := w.setS p d.toNat (w64 h.take) })) s

def execGqpopRec (k : BitVec 4) (d : BitVec 8) (a : BitVec 7) (c : BitVec 8) (s : State) : Host.Outcome State Fault Refusal :=
  withCur (fun e => e.gq k a (e.laneHalves k.toNat) (fun q addr p w =>
    eachLane p w (w.active p k.toNat) (fun w l => do
      let h ← q.gqHead needR addr
      let r ← q.gqRead needR h (w.getV p c.toNat l).toNat
      pure ((List.range 4).foldl (fun (w : Wave) i => w.setV p (d.toNat + i) l (BitVec.ofNat 32 ((r[i]?).getD 0))) w)))) s

/-- TAIL passes over the freed batches, as far as TAKE; `fuel` counts the records between them. -/
def MacEnv.gqSweep (q : MacEnv) (h : GqHead) : Nat → Nat → MacM Nat
  | 0, tail => pure tail
  | fuel + 1, tail => do
    if tail = h.take then return tail
    let hd ← q.gqRead needR h tail
    if batchState hd != 3 then return tail
    q.gqSweep h fuel ((tail + batchLen hd) % 2 ^ 32)

def execGqpopFree (a b : BitVec 7) (s : State) : Host.Outcome State Fault Refusal :=
  withCur (fun e => e.gq 0 a e.w.passes (fun q addr p w => do
    let h ← q.gqHead needRW addr
    q.gqMove h (w.getS p b.toNat).toNat 2 3
    let tail ← q.gqSweep h (wrapI ((h.take : Int) - h.tail) 32) h.tail
    q.homeWrite needRW (addr + 16) 4 tail
    pure { w })) s

end Sys2Proof.Machine
end

