-- ==== Sys2Proof/Machine/Receipts.lean ====
section
/-!
DEFINITION. Batches, receipts and detached operations (spec/08_memory_isa.md R238 to R244; spec/07_ordering.md
R203, R205, R206; spec/12_recovery.md R333).
-/

namespace Sys2Proof.Machine

/-! ## Batches (R203, R238) -/

/-- `seal`: the commands that the half has issued since its last one join the next batch. -/
def execSeal (d : Option (BitVec 7)) (s : State) : Host.Outcome State Fault Refusal :=
  withCur (fun e =>
    let r := e.w.passes.foldl (fun (r : Mach × Wave) p =>
      let n := (r.2.half p).batch + 1
      let mine : EngOp → Bool := fun o => o.wave == e.id && o.half == p && o.batch.isNone &&
        (match o.kind with | .copy .. | .gather .. | .coll .. => true | _ => false)
      let m := { r.1 with ops := r.1.ops.map (fun (o : Nat × EngOp) => if mine o.2 then (o.1, { o.2 with batch := some n }) else o) }
      let w := r.2.updHalf p (fun h => { h with batch := n })
      (m, match d with | some x => w.setS p x.toNat (n.setWidth 64) | none => w)) (e.m, e.w)
    .next r.1 { r.2 with pc := e.w.pc + 8 }) s

/-- The batch number that a half waits for: no later than its last sealed one (R238). -/
def Env.waitTarget (e : Env) (a : SC) (imm : W32) (p : Bool) : W32 :=
  let t := BitVec.ofNat 32 (e.sc p .n32 a) + imm
  let last := (e.w.half p).batch
  if batchUpTo last t then t else last

def execWaitb (a : SC) (imm : W32) (s : State) : Host.Outcome State Fault Refusal :=
  withCur (fun e =>
    let l := e.w.passes.map (fun p => (p, e.waitTarget a imm p))
    if l.any (fun x => e.m.sealedPending e.id x.1 (batchUpTo x.2)) then e.halt (.waitb l) else e.ok e.w) s

/-! ## Receipts (R239 to R241) -/

def Wave.readQ (w : Wave) (p : Bool) (q : Nat) : Wave := w.updHalf p (fun h => h.readQ q)

/-- What `qwait` and `qtest` write: an empty receipt gives 0. -/
def rcptWord (r : W64) : W64 := if rEng r = 0 then 0 else r

def execQwait (d : Option (BitVec 7)) (q : BitVec 4) (s : State) : Host.Outcome State Fault Refusal :=
  withCur (fun e =>
    match e.w.passes.find? (fun p => rPending (e.w.getQ p q.toNat)) with
    | some p => e.awaitReceipt p q.toNat
    | none => e.ok (e.w.passes.foldl (fun w p =>
        let v := rcptWord (w.getQ p q.toNat)
        let w := w.readQ p q.toNat
        match d with | some x => w.setS p x.toNat v | none => w) e.w)) s

def execQtest (d : BitVec 7) (q : BitVec 4) (s : State) : Host.Outcome State Fault Refusal :=
  withCur (fun e =>
    e.ok (e.w.passes.foldl (fun w p =>
      let r := w.getQ p q.toNat
      let w := if rStat r != 0 then w.readQ p q.toNat else w
      w.setS p d.toNat (rcptWord r)) e.w)) s

/-- Requests cancellation of one half's operation (R240); a follow-on that has not reached the array ends with status
5 and its progress not in flight (R136). -/
def Mach.cancelOp (m : Mach) (id : Nat) (p : Bool) (q : Nat) : Mach :=
  match m.ops.find? (fun (o : Nat × EngOp) => o.2.target == .reg id p q) with
  | none => m
  | some (n, o) =>
    match o.kind.move? with
    | none => m
    | some v =>
      if o.copied then
        match m.array.find? (fun (c : MCmd) => c.op == some n && !c.accepted && !c.begun) with
        | some c => m.endCmd c o.ctx 5 (startStep c.instr (m.scalarOf c.wave c.half (mparts c.instr).2.1))
        | none => m
      else if o.started then m.updOp n (fun o => { o with cancel := true })
      else m.completeOp n v.eng 4 (some 0) 0

def execQcan (q : BitVec 4) (s : State) : Host.Outcome State Fault Refusal :=
  withCur (fun e =>
    let m := e.w.passes.foldl (fun m p => m.cancelOp e.id p q.toNat) e.m
    -- a completed receipt is written where the wave stands
    .next m { ((m.wave? e.id).getD e.w) with pc := e.w.pc + 8 }) s

def execQdue (d : BitVec 7) (q : BitVec 4) (s : State) : Host.Outcome State Fault Refusal :=
  withCur (fun e =>
    let now := (e.m.ccyc e.w.core).extractLsb' 0 24
    e.ok (e.w.passes.foldl (fun w p =>
      let r := w.getQ p q.toNat
      w.setS p d.toNat (if rPending r then (rDue r - now).signExtend 64 else 0)) e.w)) s

/-- The halves with lanes read their completed receipts (R241). -/
def Wave.readDone (w : Wave) (q : Nat) : Wave :=
  w.passes.foldl (fun w p => if rPending (w.getQ p q) then w else w.readQ p q) w

/-- PROMISE_MISS for the halves whose operation is pending at the end of a sleep (R318, R333). -/
def Wave.promiseReq (w : Wave) (q : Nat) : Req :=
  let lanes := fun (p : Bool) => if w.passes.contains p && rPending (w.getQ p q) then (w.half p).exec else 0
  { code := 0x30, rpc := w.pc + 8, addr := w.pc, addr1 := w.pc, lanes0 := lanes false, lanes1 := lanes true }

/-- `sleep` (R241). Each half of a pair sleeps until its own operation is complete or due, and the instruction ends
when both have. With no handler, a missed promise turns it into a receipt read (R333). -/
def execSleep (q : BitVec 4) (s : State) : Host.Outcome State Fault Refusal :=
  withCur (fun e =>
    let n := q.toNat
    let ps := e.w.passes
    let reading := match e.w.hold with | .wait _ (.rcpt _ _) => true | _ => false
    match ps.find? (fun p => rPending (e.w.getQ p n)) with
    | none => e.ok (ps.foldl (fun w p => w.readQ p n) e.w)
    | some p =>
      if reading then e.awaitReceipt p n
      else if e.m.sleepOver e.w n then
        if e.m.emuentry e.x = 0 then e.awaitReceipt p n
        else .trap e.m (e.w.readDone n).retired (e.w.promiseReq n)
      else e.awaitAs p n (.sleep p n)) s

/-- The promise of a wave that sleeps is missed. -/
def execPromiseMiss (id : Nat) (s : State) : Host.Outcome State Fault Refusal :=
  match s.m.wave? id with
  | none => .next s
  | some w =>
    match w.hold, s.m.ctx? w.ctx with
    | .wait _ (.sleep _ q), some x =>
      if !s.m.resident w || !s.m.running x || !s.m.sleepOver w q then .next s
      else match w.passes.find? (fun p => rPending (w.getQ p q)) with
      | none => .next s
      | some p =>
        let m := if s.m.emuentry x = 0 then s.m.putWave id { w with hold := .wait s.m.changes (.rcpt p q) }
          else takeTrap s.mgmt s.m id (w.readDone q).retired x (w.promiseReq q)
        .next { s with m := { m with changes := m.changes + 1 } }
    | _, _ => .next s

/-! ## qmov (R242, R243) -/

/-- The causes of one half's `qmov`: the scratchpad offset is judged as for `ld`. -/
def Env.qmovCauses (e : Env) (o : Nat) : List Nat :=
  (if o % 8 != 0 then [0x21] else []) ++ (if e.l.spad < o + 8 then [0x22] else [])

/-- The cause of `qmov` over its halves: `full` is the ENG_ARG of a 65th detached operation. -/
def Env.qmovCause (e : Env) (a : BitVec 7) (ps : List Bool) (full : Bool) : Option WOut :=
  let off := fun p => (e.w.getS p a.toNat).toNat
  if full then some (e.beforeAll 0x71 0) else
  let per := fun (p : Bool) => if ps.contains p then e.qmovCauses (off p) else []
  match per false ++ per true with
  | [] => none
  | c :: cs =>
    let code := cs.foldl min c
    let lanes := fun (p : Bool) => if (per p).contains code then (e.w.half p).exec else 0
    some (e.before code (lanes false) (lanes true))

/-- A receipt that names an operation: not empty, and no UNKNOWN token (R216, R242). -/
def rNamesOp (r : W64) : Bool := rEng r != 0 && rStat r != 15

/-- The register becomes empty, and its flags leave with the operation (R72). -/
def Half.dropQ (h : Half) (q : Nat) : Half := { h with q := mset 0 h.q q 0, qflags := mset 0 h.qflags q 0 }

def Mach.retarget (m : Mach) (old new : Target) : Mach :=
  { m with ops := m.ops.map (fun (o : Nat × EngOp) => if o.2.target == old then (o.1, { o.2 with target := new }) else o) }

def execQmovSt (a : BitVec 7) (q : BitVec 4) (s : State) : Host.Outcome State Fault Refusal :=
  withCur (fun e =>
    let n := q.toNat
    let ps := e.w.passes
    let new := (ps.filter (fun p => rNamesOp (e.w.getQ p n))).length
    match e.qmovCause a ps (new != 0 && decide (64 < e.b.detached.length + new)) with
    | some t => t
    | none =>
      let r := ps.foldl (fun (r : Mach × Wave) p =>
        let v := r.2.getQ p n
        let fl := mget 0 (r.2.half p).qflags n
        let m := r.1.updBlock e.w.block (fun b =>
          let b := b.wrSpad (e.w.getS p a.toNat).toNat (b8 v)
          if rNamesOp v then { b with detached := b.detached ++ [{ tok := v, rcpt := v, flags := fl }] } else b)
        (m.retarget (.reg e.id p n) (.detached e.w.block), r.2.updHalf p (fun h => h.dropQ n))) (e.m, e.w)
      .next r.1 { r.2 with pc := e.w.pc + 8 }) s

/-- One half's import of a token (R242, R243). -/
def importToken (id : Nat) (r : Mach × Wave) (p : Bool) (n o : Nat) : Mach × Wave :=
  match r.1.block? r.2.block with
  | none => r
  | some b =>
    let v := w64 (b.spadN o 8)
    let same : Detached → Bool := fun d => rSeq d.tok == rSeq v && rEng d.tok == rEng v
    match b.detached.find? same with
    | some d =>
      let m := r.1.updBlock r.2.block (fun b => { b with detached := b.detached.filter (fun y => !same y) })
      let m := { m with ops := m.ops.map (fun (y : Nat × EngOp) =>
        if y.2.target == .detached r.2.block && y.2.seq == rSeq v then (y.1, { y.2 with target := .reg id p n }) else y) }
      (m, r.2.updHalf p (fun h => h.setQ n d.rcpt d.flags))
    | none => (r.1, r.2.updHalf p (fun h => h.setQ n (if rEng v = 0 then 0 else mkRcpt (rDue v) 15 (rEng v) (rSeq v))))

def execQmovLd (q : BitVec 4) (a : BitVec 7) (s : State) : Host.Outcome State Fault Refusal :=
  withCur (fun e =>
    let n := q.toNat
    let ps := e.w.passes
    match e.qmovCause a ps false with
    | some t => t
    | none =>
      match ps.find? (fun p => rPending (e.w.getQ p n)) with
      | some p => e.awaitReceipt p n
      | none =>
        let r := ps.foldl (fun r p => importToken e.id r p n (e.w.getS p a.toNat).toNat) (e.m, e.w)
        .next r.1 { r.2 with pc := e.w.pc + 8 }) s

/-- `rmsync` (R175, R244): every map word that a filter unit holds for the context is dropped. -/
def execRmsync (s : State) : Host.Outcome State Fault Refusal :=
  withCur (fun e => .next { e.m with maps := e.m.maps.filter (fun x => x.ctx != e.w.ctx) } { e.w with pc := e.w.pc + 8 }) s

end Sys2Proof.Machine
end

