-- ==== Sys2Proof/Machine/Dispatch.lean ====
section
/-!
DEFINITION. The meaning of every instruction and step: one arm per constructor of `Instr`.
-/

namespace Sys2Proof.Machine

/-- The effect of one instruction of the issuing wave, or of one step of the part. -/
def exec (i : Instr) (s : State) : Host.Outcome State Fault Refusal :=
  match i with
  | .nop => Sys2Proof.Machine.execNop s
  | .add sat o => Sys2Proof.Machine.execAdd sat o s
  | .sub sat o => Sys2Proof.Machine.execSub sat o s
  | .mul sat o => Sys2Proof.Machine.execMul sat o s
  | .mulh o => Sys2Proof.Machine.execMulh o s
  | .mad sat o => Sys2Proof.Machine.execMad sat o s
  | .min o => Sys2Proof.Machine.execMin o s
  | .max o => Sys2Proof.Machine.execMax o s
  | .abs sat o => Sys2Proof.Machine.execAbs sat o s
  | .and o => Sys2Proof.Machine.execAnd o s
  | .or o => Sys2Proof.Machine.execOr o s
  | .xor o => Sys2Proof.Machine.execXor o s
  | .andn o => Sys2Proof.Machine.execAndn o s
  | .shl o => Sys2Proof.Machine.execShl o s
  | .shr o => Sys2Proof.Machine.execShr o s
  | .rot o => Sys2Proof.Machine.execRot o s
  | .divQuo o => Sys2Proof.Machine.execDivQuo o s
  | .divRem o => Sys2Proof.Machine.execDivRem o s
  | .clz o => Sys2Proof.Machine.execClz o s
  | .popc o => Sys2Proof.Machine.execPopc o s
  | .brev o => Sys2Proof.Machine.execBrev o s
  | .bfe o => Sys2Proof.Machine.execBfe o s
  | .bfi o => Sys2Proof.Machine.execBfi o s
  | .sel kc o => Sys2Proof.Machine.execSel kc o s
  | .cmpEq o => Sys2Proof.Machine.execCmpEq o s
  | .cmpNe o => Sys2Proof.Machine.execCmpNe o s
  | .cmpLt o => Sys2Proof.Machine.execCmpLt o s
  | .cmpLe o => Sys2Proof.Machine.execCmpLe o s
  | .cmpGt o => Sys2Proof.Machine.execCmpGt o s
  | .cmpGe o => Sys2Proof.Machine.execCmpGe o s
  | .mov o => Sys2Proof.Machine.execMov o s
  | .movi d wide sx imm => Sys2Proof.Machine.execMovi d wide sx imm s
  | .movx k ty d imm => Sys2Proof.Machine.execMovx k ty d imm s
  | .lea sh o => Sys2Proof.Machine.execLea sh o s
  | .addc kc o => Sys2Proof.Machine.execAddc kc o s
  | .subb kc o => Sys2Proof.Machine.execSubb kc o s
  | .fadd rm sat o => Sys2Proof.Machine.execFadd rm sat o s
  | .fsub rm sat o => Sys2Proof.Machine.execFsub rm sat o s
  | .fmul rm sat o => Sys2Proof.Machine.execFmul rm sat o s
  | .fma rm sat o => Sys2Proof.Machine.execFma rm sat o s
  | .fmin o => Sys2Proof.Machine.execFmin o s
  | .fmax o => Sys2Proof.Machine.execFmax o s
  | .fscale rm sat o => Sys2Proof.Machine.execFscale rm sat o s
  | .fcmpEq o => Sys2Proof.Machine.execFcmpEq o s
  | .fcmpNe o => Sys2Proof.Machine.execFcmpNe o s
  | .fcmpLt o => Sys2Proof.Machine.execFcmpLt o s
  | .fcmpLe o => Sys2Proof.Machine.execFcmpLe o s
  | .fcmpGt o => Sys2Proof.Machine.execFcmpGt o s
  | .fcmpGe o => Sys2Proof.Machine.execFcmpGe o s
  | .fcmpOrd o => Sys2Proof.Machine.execFcmpOrd o s
  | .fcmpUno o => Sys2Proof.Machine.execFcmpUno o s
  | .fcls o => Sys2Proof.Machine.execFcls o s
  | .frnd rm o => Sys2Proof.Machine.execFrnd rm o s
  | .fdiv rm sat o => Sys2Proof.Machine.execFdiv rm sat o s
  | .fsqrt rm o => Sys2Proof.Machine.execFsqrt rm o s
  | .frcp rm o => Sys2Proof.Machine.execFrcp rm o s
  | .frsq rm o => Sys2Proof.Machine.execFrsq rm o s
  | .fex2 rm o => Sys2Proof.Machine.execFex2 rm o s
  | .flg2 rm o => Sys2Proof.Machine.execFlg2 rm o s
  | .ftrigSin rm o => Sys2Proof.Machine.execFtrigSin rm o s
  | .ftrigCos rm o => Sys2Proof.Machine.execFtrigCos rm o s
  | .fexp o => Sys2Proof.Machine.execFexp o s
  | .cvt rm sat o => Sys2Proof.Machine.execCvt rm sat o s
  | .pack n o => Sys2Proof.Machine.execPack n o s
  | .unpack n o => Sys2Proof.Machine.execUnpack n o s
  | .shflIdx o => Sys2Proof.Machine.execShflIdx o s
  | .shflXor o => Sys2Proof.Machine.execShflXor o s
  | .shflUp o => Sys2Proof.Machine.execShflUp o s
  | .shflDown o => Sys2Proof.Machine.execShflDown o s
  | .bcast o => Sys2Proof.Machine.execBcast o s
  | .scanAdd rm sat o => Sys2Proof.Machine.execScanAdd rm sat o s
  | .scanMin o => Sys2Proof.Machine.execScanMin o s
  | .scanMax o => Sys2Proof.Machine.execScanMax o s
  | .scanAnd o => Sys2Proof.Machine.execScanAnd o s
  | .scanOr o => Sys2Proof.Machine.execScanOr o s
  | .scanXor o => Sys2Proof.Machine.execScanXor o s
  | .redAdd rm sat o => Sys2Proof.Machine.execRedAdd rm sat o s
  | .redMin o => Sys2Proof.Machine.execRedMin o s
  | .redMax o => Sys2Proof.Machine.execRedMax o s
  | .redAnd o => Sys2Proof.Machine.execRedAnd o s
  | .redOr o => Sys2Proof.Machine.execRedOr o s
  | .redXor o => Sys2Proof.Machine.execRedXor o s
  | .matchEq k wide d a => Sys2Proof.Machine.execMatchEq k wide d a s
  | .lanes k wide d a => Sys2Proof.Machine.execLanes k wide d a s
  | .kand d a b => Sys2Proof.Machine.execKand d a b s
  | .kor d a b => Sys2Proof.Machine.execKor d a b s
  | .kxor d a b => Sys2Proof.Machine.execKxor d a b s
  | .kandn d a b => Sys2Proof.Machine.execKandn d a b s
  | .knot d a => Sys2Proof.Machine.execKnot d a s
  | .kmov o => Sys2Proof.Machine.execKmov o s
  | .kpop d a => Sys2Proof.Machine.execKpop d a s
  | .kfind d a => Sys2Proof.Machine.execKfind d a s
  | .krank k d a => Sys2Proof.Machine.execKrank k d a s
  | .kset d lo hi => Sys2Proof.Machine.execKset d lo hi s
  | .br off => Sys2Proof.Machine.execBr off s
  | .bany k off => Sys2Proof.Machine.execBany k off s
  | .ball k off => Sys2Proof.Machine.execBall k off s
  | .bnone k off => Sys2Proof.Machine.execBnone k off s
  | .brx a => Sys2Proof.Machine.execBrx a s
  | .split off => Sys2Proof.Machine.execSplit off s
  | .join => Sys2Proof.Machine.execJoin s
  | .call off => Sys2Proof.Machine.execCall off s
  | .calli a => Sys2Proof.Machine.execCalli a s
  | .ret => Sys2Proof.Machine.execRet s
  | .exit => Sys2Proof.Machine.execExit s
  | .barArrive pub a b => Sys2Proof.Machine.execBarArrive pub a b s
  | .barWait a => Sys2Proof.Machine.execBarWait a s
  | .barSync pub a b => Sys2Proof.Machine.execBarSync pub a b s
  | .spawn q a b entry => Sys2Proof.Machine.execSpawn q a b entry s
  | .spawnL k q a b entry => Sys2Proof.Machine.execSpawnL k q a b entry s
  | .childAdmit ctx => Sys2Proof.Machine.execChildAdmit ctx s
  | .parkedParentReturn w => Sys2Proof.Machine.execParkedParentReturn w s
  | .ralloc n => Sys2Proof.Machine.execRalloc n s
  | .rfree n => Sys2Proof.Machine.execRfree n s
  | .rallocGrant w => Sys2Proof.Machine.execRallocGrant w s
  | .wavePark w => Sys2Proof.Machine.execWavePark w s
  | .parkedWaveReturn w => Sys2Proof.Machine.execParkedWaveReturn w s
  | .yield => Sys2Proof.Machine.execYield s
  | .ld d m => Sys2Proof.Machine.execLd d m s
  | .st d m => Sys2Proof.Machine.execSt d m s
  | .ldlod o => Sys2Proof.Machine.execLdlod o s
  | .pref m => Sys2Proof.Machine.execPref m s
  | .l2pinPin d m => Sys2Proof.Machine.execL2pinPin d m s
  | .l2pinUnpin d m => Sys2Proof.Machine.execL2pinUnpin d m s
  | .ifence => Sys2Proof.Machine.execIfence s
  | .wcntLd n => Sys2Proof.Machine.execWcntLd n s
  | .wcntSt n => Sys2Proof.Machine.execWcntSt n s
  | .atomAdd o => Sys2Proof.Machine.execAtomAdd o s
  | .atomFadd o => Sys2Proof.Machine.execAtomFadd o s
  | .atomMin o => Sys2Proof.Machine.execAtomMin o s
  | .atomMax o => Sys2Proof.Machine.execAtomMax o s
  | .atomAnd o => Sys2Proof.Machine.execAtomAnd o s
  | .atomOr o => Sys2Proof.Machine.execAtomOr o s
  | .atomXor o => Sys2Proof.Machine.execAtomXor o s
  | .atomXchg o => Sys2Proof.Machine.execAtomXchg o s
  | .atomCas o => Sys2Proof.Machine.execAtomCas o s
  | .atomInc o => Sys2Proof.Machine.execAtomInc o s
  | .cfadd o => Sys2Proof.Machine.execCfadd o s
  | .cfread o => Sys2Proof.Machine.execCfread o s
  | .gbindBind d a b c => Sys2Proof.Machine.execGbindBind d a b c s
  | .gbindUnbind d a => Sys2Proof.Machine.execGbindUnbind d a s
  | .gacq sc d a => Sys2Proof.Machine.execGacq sc d a s
  | .gacqAll sc => Sys2Proof.Machine.execGacqAll sc s
  | .grel sc d a => Sys2Proof.Machine.execGrel sc d a s
  | .grelAll sc => Sys2Proof.Machine.execGrelAll sc s
  | .gwait a b => Sys2Proof.Machine.execGwait a b s
  | .cpMm o => Sys2Proof.Machine.execCpMm o s
  | .cpMs o => Sys2Proof.Machine.execCpMs o s
  | .cpSm o => Sys2Proof.Machine.execCpSm o s
  | .cpMo o => Sys2Proof.Machine.execCpMo o s
  | .cpOm o => Sys2Proof.Machine.execCpOm o s
  | .cpSo o => Sys2Proof.Machine.execCpSo o s
  | .cpOs o => Sys2Proof.Machine.execCpOs o s
  | .cpg o => Sys2Proof.Machine.execCpg o s
  | .engineChunk op => Sys2Proof.Machine.execEngineChunk op s
  | .followOnAccept op => Sys2Proof.Machine.execFollowOnAccept op s
  | .collSum o => Sys2Proof.Machine.execCollSum o s
  | .collMin o => Sys2Proof.Machine.execCollMin o s
  | .collMax o => Sys2Proof.Machine.execCollMax o s
  | .collGather o => Sys2Proof.Machine.execCollGather o s
  | .collBcast o => Sys2Proof.Machine.execCollBcast o s
  | .collInstanceComplete desc => Sys2Proof.Machine.execCollInstanceComplete desc s
  | .seal d => Sys2Proof.Machine.execSeal d s
  | .waitb a imm => Sys2Proof.Machine.execWaitb a imm s
  | .qwait d q => Sys2Proof.Machine.execQwait d q s
  | .qtest d q => Sys2Proof.Machine.execQtest d q s
  | .qcan q => Sys2Proof.Machine.execQcan q s
  | .qdue d q => Sys2Proof.Machine.execQdue d q s
  | .sleep q => Sys2Proof.Machine.execSleep q s
  | .promiseMiss w => Sys2Proof.Machine.execPromiseMiss w s
  | .qmovSt a q => Sys2Proof.Machine.execQmovSt a q s
  | .qmovLd q a => Sys2Proof.Machine.execQmovLd q a s
  | .rmsync => Sys2Proof.Machine.execRmsync s
  | .omclaim d a n => Sys2Proof.Machine.execOmclaim d a n s
  | .omrel a n => Sys2Proof.Machine.execOmrel a n s
  | .omzero a n => Sys2Proof.Machine.execOmzero a n s
  | .omld o => Sys2Proof.Machine.execOmld o s
  | .omst o => Sys2Proof.Machine.execOmst o s
  | .wload o => Sys2Proof.Machine.execWload o s
  | .wmint o => Sys2Proof.Machine.execWmint o s
  | .mmul o => Sys2Proof.Machine.execMmul o s
  | .mseek o => Sys2Proof.Machine.execMseek o s
  | .vqtab a off => Sys2Proof.Machine.execVqtab a off s
  | .vqtabClr => Sys2Proof.Machine.execVqtabClr s
  | .matrixStep core => Sys2Proof.Machine.execMatrixStep core s
  | .rast o => Sys2Proof.Machine.execRast o s
  | .oblend o => Sys2Proof.Machine.execOblend o s
  | .filt o => Sys2Proof.Machine.execFilt o s
  | .travClosest o => Sys2Proof.Machine.execTravClosest o s
  | .travAny o => Sys2Proof.Machine.execTravAny o s
  | .travBox o => Sys2Proof.Machine.execTravBox o s
  | .travSphere o => Sys2Proof.Machine.execTravSphere o s
  | .bvrefit o => Sys2Proof.Machine.execBvrefit o s
  | .macroStep w => Sys2Proof.Machine.execMacroStep w s
  | .mapWordRefresh core ctx addr => Sys2Proof.Machine.execMapWordRefresh core ctx addr s
  | .gqpushOpen d a b c => Sys2Proof.Machine.execGqpushOpen d a b c s
  | .gqpushVtx k d a b c => Sys2Proof.Machine.execGqpushVtx k d a b c s
  | .gqpushPrim k d a b c => Sys2Proof.Machine.execGqpushPrim k d a b c s
  | .gqpushClose a b => Sys2Proof.Machine.execGqpushClose a b s
  | .gqpopTake d a => Sys2Proof.Machine.execGqpopTake d a s
  | .gqpopRec k d a c => Sys2Proof.Machine.execGqpopRec k d a c s
  | .gqpopFree a b => Sys2Proof.Machine.execGqpopFree a b s
  | .psalloc k d c => Sys2Proof.Machine.execPsalloc k d c s
  | .psfree k a c => Sys2Proof.Machine.execPsfree k a c s
  | .sqpush k a n c => Sys2Proof.Machine.execSqpush k a n c s
  | .sqpop k d n c => Sys2Proof.Machine.execSqpop k d n c s
  | .trap n => Sys2Proof.Machine.execTrap n s
  | .trapFatal n => Sys2Proof.Machine.execTrapFatal n s
  | .brk n => Sys2Proof.Machine.execBrk n s
  | .svc n => Sys2Proof.Machine.execSvc n s
  | .rdsr d r => Sys2Proof.Machine.execRdsr d r s
  | .wrsr r b => Sys2Proof.Machine.execWrsr r b s
  | .rdsrWindow o => Sys2Proof.Machine.execRdsrWindow o s
  | .wrsrWindow o => Sys2Proof.Machine.execWrsrWindow o s
  | .tlbinvRange retry d a b c => Sys2Proof.Machine.execTlbinvRange retry d a b c s
  | .tlbinvCtx retry d c => Sys2Proof.Machine.execTlbinvCtx retry d c s
  | .tlbinvHnd d a b c => Sys2Proof.Machine.execTlbinvHnd d a b c s
  | .pmrd d => Sys2Proof.Machine.execPmrd d s
  | .pmctl a => Sys2Proof.Machine.execPmctl a s
  | .qrst d a b => Sys2Proof.Machine.execQrst d a b s
  | .zeroWord => Sys2Proof.Machine.execZeroWord s
  | .emulate r => Sys2Proof.Machine.execEmulate r s
  | .microcodeOp op => Sys2Proof.Machine.execMicrocodeOp op s
  | .regfileLineFetch w line => Sys2Proof.Machine.execRegfileLineFetch w line s
  | .l1Writeback core ctx line => Sys2Proof.Machine.execL1Writeback core ctx line s
  | .l2Writeback line => Sys2Proof.Machine.execL2Writeback line s
  | .faultRecordWrite ctx page => Sys2Proof.Machine.execFaultRecordWrite ctx page s
  | .pageMigration ctx page frame => Sys2Proof.Machine.execPageMigration ctx page frame s
  | .doorbell part vf q widx => Sys2Proof.Machine.execDoorbell part vf q widx s
  | .pad q => Sys2Proof.Machine.execPad q s
  | .launch q => Sys2Proof.Machine.execLaunch q s
  | .taskset q => Sys2Proof.Machine.execTaskset q s
  | .copy q => Sys2Proof.Machine.execCopy q s
  | .waitguard q => Sys2Proof.Machine.execWaitguard q s
  | .waitguardRelease q => Sys2Proof.Machine.execWaitguardRelease q s
  | .signal q => Sys2Proof.Machine.execSignal q s
  | .launchComplete l => Sys2Proof.Machine.execLaunchComplete l s
  | .taskAdmit ts => Sys2Proof.Machine.execTaskAdmit ts s
  | .taskStart ts t => Sys2Proof.Machine.execTaskStart ts t s
  | .taskRetire ts t => Sys2Proof.Machine.execTaskRetire ts t s
  | .bindRecordValid core idx r => Sys2Proof.Machine.execBindRecordValid core idx r s
  | .packedWaveStart core idx => Sys2Proof.Machine.execPackedWaveStart core idx s
  | .blockPreempt b => Sys2Proof.Machine.execBlockPreempt b s
  | .timeSliceEnd part => Sys2Proof.Machine.execTimeSliceEnd part s
  | .worldSwitch part vf => Sys2Proof.Machine.execWorldSwitch part vf s
  | .qclassIdle part cls => Sys2Proof.Machine.execQclassIdle part cls s
  | .ctlTlbinv part vf a0 a1 a2 a3 => Sys2Proof.Machine.execCtlTlbinv part vf a0 a1 a2 a3 s
  | .ctlQrst part vf a0 a1 => Sys2Proof.Machine.execCtlQrst part vf a0 a1 s
  | .ctlPmctl part vf a0 a2 => Sys2Proof.Machine.execCtlPmctl part vf a0 a2 s
  | .registerContext part vf a0 => Sys2Proof.Machine.execRegisterContext part vf a0 s
  | .retireContext part vf a0 => Sys2Proof.Machine.execRetireContext part vf a0 s
  | .setInterruptRecord part vf a0 => Sys2Proof.Machine.execSetInterruptRecord part vf a0 s
  | .ctlResetContext part vf a0 => Sys2Proof.Machine.execCtlResetContext part vf a0 s
  | .ctlUndefinedRequest part vf op a3 => Sys2Proof.Machine.execCtlUndefinedRequest part vf op a3 s
  | .contextReset ctx cause addr => Sys2Proof.Machine.execContextReset ctx cause addr s
  | .vfReset part vf => Sys2Proof.Machine.execVfReset part vf s
  | .partitionReset part => Sys2Proof.Machine.execPartitionReset part s
  | .deviceReset => Sys2Proof.Machine.execDeviceReset s
  | .powerOn => Sys2Proof.Machine.execPowerOn s
  | .writePartitionTable t => Sys2Proof.Machine.execWritePartitionTable t s
  | .writePeerWindow w word => Sys2Proof.Machine.execWritePeerWindow w word s
  | .setErrorThreshold n => Sys2Proof.Machine.execSetErrorThreshold n s
  | .setPowerCap watts => Sys2Proof.Machine.execSetPowerCap watts s
  | .installFirmware x => Sys2Proof.Machine.execInstallFirmware x s
  | .flitCrcFail link => Sys2Proof.Machine.execFlitCrcFail link s
  | .linkdown link => Sys2Proof.Machine.execLinkdown link s
  | .correctedError x => Sys2Proof.Machine.execCorrectedError x s
  | .uncorrectableError x => Sys2Proof.Machine.execUncorrectableError x s
  | .coreRetire core => Sys2Proof.Machine.execCoreRetire core s
  | .thermalThrottle => Sys2Proof.Machine.execThermalThrottle s
  | .thermalTrip => Sys2Proof.Machine.execThermalTrip s
  | .memoryAccessPerformed w idx lanes => Sys2Proof.Machine.execMemoryAccessPerformed w idx lanes s
  | .hostMemoryAccess pa x => Sys2Proof.Machine.execHostMemoryAccess pa x s
  | .pcieDma part pa x => Sys2Proof.Machine.execPcieDma part pa x s
  | .peerAccess part pa x => Sys2Proof.Machine.execPeerAccess part pa x s

end Sys2Proof.Machine
end

