-- ==== Sys2Proof/Machine/Policy.lean ====
section
/-!
DEFINITION. Who moves next. The agenda names an event, a wave or an input; when it is empty, a fixed policy chooses
(notes/assumptions/7.md): first what the part does on its own, then the waves by spec/10_scheduling.md R289 and
spec/09_progress.md R274, one issue partition after the other.
-/

namespace Sys2Proof.Machine

/-! ## What the agenda may name -/

/-- The rows of the table that a wave issues, or that its decoder makes; the others are events. -/
def isEvent (i : Instr) : Bool :=
  match i with
  | .childAdmit .. | .parkedParentReturn .. | .rallocGrant .. | .wavePark .. | .parkedWaveReturn ..
  | .engineChunk .. | .followOnAccept .. | .collInstanceComplete .. | .matrixStep .. | .macroStep .. | .mapWordRefresh ..
  | .promiseMiss .. | .regfileLineFetch .. | .l1Writeback .. | .l2Writeback .. | .faultRecordWrite .. | .pageMigration ..
  | .doorbell .. | .pad .. | .launch .. | .taskset .. | .copy .. | .waitguard .. | .waitguardRelease .. | .signal ..
  | .launchComplete .. | .taskAdmit .. | .taskStart .. | .taskRetire .. | .bindRecordValid .. | .packedWaveStart ..
  | .blockPreempt .. | .timeSliceEnd .. | .worldSwitch .. | .qclassIdle ..
  | .ctlTlbinv .. | .ctlQrst .. | .ctlPmctl .. | .registerContext .. | .retireContext .. | .setInterruptRecord ..
  | .ctlResetContext .. | .ctlUndefinedRequest ..
  | .contextReset .. | .vfReset .. | .partitionReset .. | .deviceReset | .powerOn | .writePartitionTable ..
  | .writePeerWindow .. | .setErrorThreshold .. | .setPowerCap .. | .installFirmware .. | .flitCrcFail .. | .linkdown ..
  | .correctedError .. | .uncorrectableError .. | .coreRetire .. | .thermalThrottle | .thermalTrip
  | .memoryAccessPerformed .. | .hostMemoryAccess .. | .pcieDma .. | .peerAccess .. => true
  | _ => false

/-- One wave's attempt to issue. -/
def issueWave (s : State) (id : Nat) : Host.Outcome State Fault Refusal :=
  match s.prepare id with
  | .stop m => .next { s with m }
  | .run i m => exec i { s with m }

/-- The owner that a queue's descriptor names, where the tables of the context lead to it (R277). -/
def descOwner (g : Mgmt) (m : Mach) (q : Queue) : Option Nat :=
  match runs g q.ctx needR 2 m (q.desc + 0x0A) 2 with
  | (.ok l, _) => some (bytesNat (m.rdRuns l))
  | _ => none

/-- A queue that system software may register (R277): its context is live and owns it, and its index is free in the
function. -/
def queueFits (g : Mgmt) (m : Mach) (id : Nat) (q : Queue) : Bool :=
  (match m.ctx? q.ctx with | some x => x.part == q.part && x.vf == q.vf && (descOwner g m q).getD x.ctxid == x.ctxid | none => false)
    && decide (q.q < 512) && q.started.isEmpty && (lookup m.queues id).isNone
    && !m.queues.any (fun (y : Nat × Queue) => y.2.part == q.part && y.2.vf == q.vf && y.2.q == q.q)

/-- What one entry of the agenda does. -/
def act (s : State) (a : Action) : Host.Outcome State Fault Refusal :=
  match a with
  | .issue w => issueWave s w
  | .event i => if isEvent i then exec i s else .refused .notAnEvent
  | .registerQueue id q => if queueFits s.mgmt s.m id q then changed s { s.m with queues := put s.m.queues id q } else .next s
  | .writeQccfg p n x =>
    if 8 ≤ p || 8 ≤ n then .next s
    else .next { s with m := s.m.putPart p { s.m.part p with qccfg := put (s.m.part p).qccfg n (x &&& 0x1FFFFFF) } }
  | .participants desc l =>
    .next { s with m := { s.m with colls := { desc, ctxs := l } :: s.m.colls.filter (fun (x : CollSt) => x.desc != desc) } }

/-- A step that the policy may choose: the meaning of an event of the table, with its operands. -/
abbrev Ev := State → Host.Outcome State Fault Refusal

/-! ## The Teller's choices -/

/-- The lowest free slots for `n` hardware waves. -/
def pickSlots (width : Width) : Nat → W64 → W64 → Option W64
  | 0, _, k => some k
  | n + 1, used, k =>
    match freeSlot used width with
    | none => none
    | some x => pickSlots width n (used ||| x) (k ||| x)

/-- The lowest free place of a core's slot table. -/
def Mach.freePlace (m : Mach) (core : Nat) : Option Nat :=
  (List.range 64).find? (fun i => m.placeFree core i &&
    (match m.recAt core i with | some y => !(y.valid && y.state == 0) | none => true))

/-- Cores of a partition for a launch: first those whose instruction cache holds the line of its entry (R288). -/
def codeCores (g : Mgmt) (m : Mach) (part : Nat) (l : Launch) : List Nat :=
  let line := lineOf ((l.code + 8 * l.entry) % 2 ^ 57)
  let holds := fun (core : Nat) => m.icache.any (fun (y : ILine) => y.core == core && y.ctx == l.ctx && y.vline == line)
  let cores := g.coresOf part
  cores.filter holds ++ cores.filter (fun c => !holds c)

/-- A record for a block on the first core of the partition that it fits; a small task fills the wave that forms there, if
any. -/
def recordFor (g : Mgmt) (m : Mach) (x : Ctx) (l : Launch) (n lines : Nat) (r : BindRec) (small : Option Nat := none) : Option Ev :=
  (codeCores g m x.part l).findSome? (fun core =>
    let joins := match small with
      | some k => m.forming.find? (fun (f : Forming) => f.core == core && (m.joinAt f l k).isSome)
      | none => none
    match joins.bind (fun f => m.recAt f.core f.idx) with
    | some y => some (execBindRecordValid core y.idx { r with slots := y.br.slots })
    | none =>
    match m.freePlace core, pickSlots l.width n (m.usedSlots core) 0 with
    | some i, some slots =>
      if Mach.room g m core (ctxKey x.part x.ctxid) x l slots lines then some (execBindRecordValid core i { r with slots }) else none
    | _, _ => none)

/-- The first block of a launch that has not begun. -/
def Launch.nextBlock (l : Launch) : Option Nat :=
  if l.blocks ≤ l.begun.length then none
  else (List.range (l.begun.length + 1)).find? (fun i => decide (i < l.blocks) && !l.begun.contains i)

/-- A record for the next block of a launch; a small task joins the wave that forms, or begins one. -/
def tellStart (g : Mgmt) (m : Mach) (lid : Nat) (l : Launch) : Option Ev :=
  match l.nextBlock, m.ctx? l.ctx with
  | some b, some x =>
    let n := hwWaves l.width l.waves
    let r : BindRec := { lrec := l.lrec, blockid := b, ctxid := x.ctxid, waves := l.waves, resume := false, task := l.task.isSome, cls := l.cls
                         bimg := 128 * ceilDiv (m.imageTop l.ctx x) 128, slots := 0 }
    let w := startWave l lid l.ctx 0 0 0 0 0 0
    if !m.running x then none else
    match m.smallTask l with
    | some (ts, t, k) =>
      if m.forming.any (fun (f : Forming) => f.tasks.any (fun p => p.ts == ts && p.t == t)) then none else
      recordFor g m x l 1 w.lines r (some k)
    | none => recordFor g m x l n (n * w.lines) r
  | _, _ => none

/-- Requests of a class of a partition that are outstanding. -/
def Mach.classLoad (m : Mach) (part cls : Nat) : Nat :=
  let mine := fun (c l : Nat) => ctxPart c == part && (match m.launch? l with | some y => y.cls == cls | none => false)
  (m.waves.filter (fun (w : Nat × Wave) => mine w.2.ctx w.2.launch && !w.2.acc.isEmpty)).length
    + (m.ops.filter (fun (o : Nat × EngOp) => match m.block? o.2.block with | some b => mine o.2.ctx b.launch | none => false)).length

/-- A class is within its share (R288, R290): of the requests outstanding, by which the model measures bandwidth
(notes/assumptions/7.md), it has no more than its SHARE gives it, with what idle classes lend. -/
def Mach.inShare (m : Mach) (part cls : Nat) : Bool :=
  let p := m.part part
  let share := fun (n : Nat) => fld (p.qc n).toNat 16 8
  let idle := fun (n : Nat) => p.idle.getLsbD n
  let sum := fun (f : Nat → Bool) => (((List.range 8).filter f).map share).sum
  let busy := sum (fun n => !idle n)
  let load := (List.range 8).map (m.classLoad part)
  decide (m.classLoad part cls * (max 256 (sum (fun _ => true)) * max 1 busy)
    ≤ share cls * (busy + sum (fun n => idle n && bit (p.qc n) 24)) * load.sum)

/-- Launches in the order in which the Teller takes them: those whose class is within its share first (R288). -/
def Mach.byShare (m : Mach) : List (Nat × Launch) :=
  let ok := fun (l : Nat × Launch) => m.inShare (ctxPart l.2.ctx) l.2.cls
  m.launches.filter ok ++ m.launches.filter (fun l => !ok l)

/-- A record that resumes a pre-empted block. -/
def tellResume (g : Mgmt) (m : Mach) (bid : Nat) (b : Block) : Option Ev :=
  if b.state != .preempted then none else
  match m.launch? b.launch, m.ctx? b.ctx with
  | some l, some x =>
    let away := fun (id : Nat) => m.spawnq.any (fun (k : Child) => k.parent == some id)
    let mine := m.waves.filter (fun (w : Nat × Wave) => w.2.block == bid && !away w.1)
    recordFor g m x l mine.length (mine.foldl (fun n w => n + w.2.lines) 0)
      { lrec := l.lrec, blockid := b.blockid, ctxid := x.ctxid, waves := l.width.c * mine.length, resume := true, task := l.task.isSome, cls := l.cls
        bimg := b.image, slots := 0 }
  | _, _ => none

/-! ## What the part may do on its own -/

/-- The first access of a wave that can move on. -/
def Wave.nextAccess (w : Wave) : Option Nat :=
  (List.range w.acc.length).find? (fun i => match w.acc[i]? with
    | none => false
    | some a => if a.known then a.lanes.any (fun y => !y.done && !w.waits i (Ty.size a.ty) true y) else !(a.held && a.kind.isLoad))

/-- Lines that a wave's next instruction names and its core's register file does not hold (R31, R289). -/
def Mach.lacking (g : Mgmt) (m : Mach) (id : Nat) (w : Wave) : List Nat :=
  if w.missing.isEmpty then [] else
  match (m.ctx? w.ctx).map (m.fetchInstr g id w) with
  | some (.run i _) => ((usesOf i).flatMap w.linesFor).filter w.missing.contains
  | _ => []

/-- The steps that concern one wave. -/
def waveSteps (g : Mgmt) (m : Mach) (id : Nat) (w : Wave) : List Ev :=
  (match w.nextAccess with | some i => [execMemoryAccessPerformed id i (ones 64)] | none => [])
    ++ (match w.hold with
        | .wait _ (.sleep ..) => [execPromiseMiss id]
        | .wait _ (.ralloc _) => [execRallocGrant id]
        | _ => [])
    ++ (if m.resident w then ((m.lacking g id w).take 1).map (fun n => execRegfileLineFetch id n) else [])
    ++ (if w.parked then [execParkedParentReturn id, execParkedWaveReturn id] else [])

/-- The steps that concern one queue. -/
def queueSteps (id : Nat) (q : Queue) : List Ev :=
  if q.wait.isSome then [execWaitguardRelease id]
  else if q.halted then []
  else if q.waiting != 0 then [execPad id, execLaunch id, execTaskset id, execCopy id, execWaitguard id, execSignal id] else []

def opSteps (id : Nat) (o : EngOp) : List Ev :=
  match o.kind with
  | .coll _ _ _ _ _ desc _ => [execCollInstanceComplete desc]
  | .spawn _ => []
  | _ => [execEngineChunk id, execFollowOnAccept id]

def taskSteps (id : Nat) (t : TaskSet) : List Ev :=
  execTaskAdmit id :: (List.range t.tasks.length).flatMap (fun i => [execTaskStart id i, execTaskRetire id i])

/-- A request of a control page that is busy is tried again. -/
def ctlSteps (key : Nat) (v : Vf) : List Ev :=
  if !bit v.status 63 then []
  else if v.op = 1 then [execCtlTlbinv (key / 16) (key % 16) v.arg0 v.arg1 v.arg2 v.arg3]
  else [execCtlQrst (key / 16) (key % 16) v.arg0 v.arg1]

/-- A slice ends when the running function has nothing left, and every 4096 steps of the model, while another has work. -/
def sliceSteps (g : Mgmt) (m : Mach) (p : Nat) : List Ev :=
  if (g.entry p).nvf ≤ 1 then []
  else if (m.part p).halted then [execWorldSwitch p (m.nextVf g p)]
  else if m.nextVf g p != (m.part p).running && (m.tick % 4096 == 0 || !m.hasWork p (m.part p).running) then [execTimeSliceEnd p]
  else []

/-- Candidates for the next step, in the order in which they are tried. -/
def State.candidates (s : State) : List Ev :=
  let m := s.m
  m.eaten.map (fun c (s : State) => changed s (contextReset s.mgmt s.m c 0x52 0))
    ++ m.waves.flatMap (fun (w : Nat × Wave) => waveSteps s.mgmt m w.1 w.2)
    ++ m.units.map (fun (u : UnitOp) => execMacroStep u.wave)
    ++ m.array.map (fun (c : MCmd) => execMatrixStep c.core)
    ++ m.ops.flatMap (fun (o : Nat × EngOp) => opSteps o.1 o.2)
    ++ m.spawnq.map (fun (c : Child) => execChildAdmit c.ctx)
    ++ m.ctxs.flatMap (fun (c : Nat × Ctx) => c.2.pending.filterMap (fun p => if p.written then none else some (execFaultRecordWrite c.1 p.page)))
    ++ m.vfs.flatMap (fun (v : Nat × Vf) => ctlSteps v.1 v.2)
    ++ m.launches.map (fun (l : Nat × Launch) => execLaunchComplete l.1)
    ++ m.tsets.flatMap (fun (t : Nat × TaskSet) => taskSteps t.1 t.2)
    ++ m.queues.flatMap (fun (q : Nat × Queue) => queueSteps q.1 q.2)
    ++ (List.range 8).flatMap (sliceSteps s.mgmt m)
    ++ m.blocks.filterMap (fun (b : Nat × Block) => tellResume s.mgmt m b.1 b.2)
    ++ m.byShare.filterMap (fun (l : Nat × Launch) => tellStart s.mgmt m l.1 l.2)

/-- Candidates that are tried once no wave can issue. -/
def State.lateCandidates (s : State) : List Ev :=
  s.m.forming.map (fun (f : Forming) => execPackedWaveStart f.core f.idx) ++ s.m.waves.map (fun (w : Nat × Wave) => execWavePark w.1)

/-- A step of the part that would change something. -/
def State.enabled (s : State) (f : Ev) : Bool :=
  match f s with
  | .next t => t.m.changes != s.m.changes
  | _ => false

/-! ## Issue (R289, R274) -/

/-- The issue partition of a wave on its core. -/
def Wave.partition (w : Wave) : Nat := ((List.range 64).find? (fun i => bit w.slots i)).getD 0 / 16

/-- A wave is ready: resident, its function runs, nothing holds it that has not changed, and every line that its next
instruction names is there. -/
def Mach.ready (g : Mgmt) (m : Mach) (id : Nat) (w : Wave) : Bool :=
  m.resident w && (match m.ctx? w.ctx, m.block? w.block with
    | some x, some b => m.running x && (m.blocked id w x b).isNone
    | _, _ => false) && m.holdOver id w && (m.lacking g id w).isEmpty

def older (a b : Nat × Wave) : Nat × Wave := if b.2.resident < a.2.resident then b else a

def oldestOf : List (Nat × Wave) → Option (Nat × Wave)
  | [] => none
  | a :: r => some (r.foldl older a)

/-- The choice of one issue partition among its ready waves: a wave that has yielded lets every other one issue first, and
one that has been passed over 64 times goes before the others. When all that are ready wait for one another, the oldest
goes (R274; notes/assumptions/7.md). -/
def pickWave (l : List (Nat × Wave)) : Option (Nat × Wave) :=
  let turn := l.filter (fun (w : Nat × Wave) => !w.2.yielded || l.all (fun (v : Nat × Wave) => v.1 == w.1 || decide (v.2.passed < w.2.passed)))
  let turn := if turn.isEmpty then l else turn
  let starved := turn.filter (fun (w : Nat × Wave) => decide (64 ≤ w.2.passed))
  oldestOf (if starved.isEmpty then turn else starved)

/-- The wave that the policy issues: the issue partitions with ready waves take turns. -/
def State.nextWave (s : State) : Option (Nat × List Nat) :=
  let ready := s.m.waves.filter (fun (w : Nat × Wave) => s.m.ready s.mgmt w.1 w.2)
  let keys := (ready.map (fun (w : Nat × Wave) => (w.2.core, w.2.partition))).eraseDups
  match keys[s.m.tick % max 1 keys.length]? with
  | none => none
  | some k =>
    let mine := ready.filter (fun (w : Nat × Wave) => w.2.core == k.1 && w.2.partition == k.2)
    (pickWave mine).map (fun w => (w.1, (mine.map (·.1)).filter (· != w.1)))

/-- The other ready waves of the partition are passed over. -/
def Mach.passOver (m : Mach) (ids : List Nat) : Mach :=
  ids.foldl (fun (m : Mach) id => m.updWave id (fun w => { w with passed := w.passed + 1 })) m

/-- A change of a guard word that satisfies the comparison of a wave in `gwait` ends that wait, whatever the word holds when
the wave issues again (R193, R229). -/
def Mach.wakeWaiters (m : Mach) : Mach :=
  let wave : Wave → Wave := fun w =>
    match w.hold with
    | .wait k (.gwait l b) => { w with hold := .wait k (.gwait (l.filter (fun x => decide (m.rdN x.1 8 < x.2))) b) }
    | _ => w
  { m with waves := m.waves.map (fun x => (x.1, wave x.2)) }

/-- One clock of the model passes; the fabric's and the links' events are counted (R307), and waits in `gwait` that are met
end. -/
def State.ticked (s : State) : State :=
  let m := { s.m.wakeWaiters with tick := s.m.tick + 1, asker := {} }
  { s with m := m.ctxs.foldl (fun (m : Mach) (c : Nat × Ctx) =>
      if c.2.priv && m.duty c.1 then (m.count c.1 0x100 (Config.fabricBytes m.tick c.2.part)).count c.1 0x101 (Config.linkFlits m.tick c.2.part) else m) m }

/-- A step with nothing on the agenda. -/
def State.auto (s : State) : Host.Outcome State Fault Refusal :=
  match s.candidates.find? s.enabled with
  | some f => f s
  | none =>
    match s.nextWave with
    | some (id, others) => issueWave { s with m := s.m.passOver others } id
    | none =>
      match s.lateCandidates.find? s.enabled with
      | some f => f s
      | none => .next s

end Sys2Proof.Machine
end

