-- ==== Sys2Proof/Machine/Load.lean ====
section
/-!
DEFINITION. A program of one instruction, loaded from outside the machine (notes/assumptions/8.md): a context whose
tables map one page of code, a launch, a block and a wave of 32 lanes that has begun (spec/01_machine.md R13 to R18,
R37, R39; spec/11_isolation.md R293, R298).
-/

namespace Sys2Proof.Machine

/-- The context, its code's virtual address, and the code's frame. -/
def loadCtx : Nat := ctxKey 0 0xFFFF
def loadVa : Nat := 0x10000
def loadPa : Nat := 0x90000

/-- One table of each level, and a leaf that allows execution. -/
def Mach.loadTables (m : Mach) : Mach :=
  (((m.wrN 0 8 0x40001).wrN 0x40000 8 0x80001).wrN 0x80000 8 0x81001).wrN 0x81010 8 0x90013

def loadLaunch : Launch :=
  { ctx := loadCtx, queue := 0, pkt := 0, lrec := 0, code := loadVa, entry := 0, gx := 1, gy := 1, gz := 1, waves := 1, stk := 0
    args := 0, xform := 0, nxf := 0, cls := 0, width := .w32, vregs := 256, sregs := 128, spad := 0, bars := 0, oms := 0, ucode := 0
    begun := [0] }

/-- The machine with the instruction's words at the code page and a wave at them; the wave's name is `m.nextId + 2`. -/
def Mach.loadWords (m : Mach) (w : Nat) : Mach :=
  let m := (m.loadTables).wrN loadPa 16 w
  let l := m.nextId
  let running := { m.part 0 with halted := false }
  let block : Block := { ctx := loadCtx, launch := l, core := 0, idx := 0, blockid := 0, serial := l + 1 }
  { m.putPart 0 running with
    tlb := m.tlb.filter (fun (t : TlbEnt) => t.ctx != loadCtx)
    icache := m.icache.filter (fun (t : ILine) => t.ctx != loadCtx)
    ctxs := put m.ctxs loadCtx { part := 0, vf := running.running, ctxid := 0xFFFF, desc := 0xA0000 }
    launches := put m.launches l loadLaunch
    blocks := put m.blocks (l + 1) block
    waves := put m.waves (l + 2) (startWave loadLaunch l loadCtx (l + 1) 0 1 0 (l + 2) 0)
    nextId := l + 3 }

end Sys2Proof.Machine
end

