-- ==== Sys2Proof/Machine/Step.lean ====
section
/-!
DEFINITION. One step of the part: what the agenda asks for, or, when it asks for nothing, the fixed policy
of notes/assumptions/7.md. And a machine whose next step issues a given instruction.
-/

namespace Sys2Proof.Machine

/-- One step. -/
def step (s : State) : Host.Outcome State Fault Refusal :=
  match s.agenda with
  | a :: r => act { s.ticked with agenda := r } a
  | [] => s.ticked.auto

/-- The machine with the instruction of the bits `w` loaded (notes/assumptions/8.md): the next step issues it. Bits
63:0 are the base word and bits 127:64 the extension word; bits from `nbits` on are zero. -/
def State.withFetchWord (s : State) (nbits w : Nat) : State :=
  { s with m := s.m.loadWords (w % 2 ^ nbits), agenda := .issue (s.m.nextId + 2) :: s.agenda }

end Sys2Proof.Machine
end

