-- ==== Sys2Proof/Laws/Encode.lean ====
section
/-!
SUPPORT. Lemmas about fields of words, operand codes and the decoder's pieces: each undoes what the encoder writes.
-/


namespace Sys2Proof

/-! ## Words and fields -/

theorem append_extract_hi {n m : Nat} (a : BitVec n) (b : BitVec m) (s l : Nat) (h : m ≤ s) :
    (a ++ b).extractLsb' s l = a.extractLsb' (s - m) l := by
  apply BitVec.eq_of_getLsbD_eq
  intro i hi
  simp only [BitVec.getLsbD_extractLsb', BitVec.getLsbD_append, hi, decide_true, Bool.true_and]
  rw [if_neg (by omega)]
  congr 1; omega

theorem append_extract_lo {n m : Nat} (a : BitVec n) (b : BitVec m) (s l : Nat) (h : s + l ≤ m) :
    (a ++ b).extractLsb' s l = b.extractLsb' s l := by
  apply BitVec.eq_of_getLsbD_eq
  intro i hi
  simp only [BitVec.getLsbD_extractLsb', BitVec.getLsbD_append, hi, decide_true, Bool.true_and]
  rw [if_pos (by omega)]

/-- A word read into its fields gives the fields it was made of. -/
theorem Fld.of_word (f : Fld) : Fld.of f.word = f := by
  cases f
  simp only [Fld.of, Fld.word, Fld.md, Fld.mk.injEq]
  refine ⟨?_, ?_, ?_, ?_, ?_, ?_, ?_, ?_, ?_, ?_, ?_, ?_, ?_, ?_, ?_, ?_, ?_, ?_⟩
  all_goals first
    | (simp only [BitVec.getLsbD_append, BitVec.getLsbD_ofBool]; simp; done)
    | (simp (disch := omega) only [append_extract_hi, append_extract_lo]; simp; done)

@[simp] theorem Ext.of_word (e : Ext) : Ext.of e.word = e := by
  cases e
  simp only [Ext.of, Ext.word, Ext.mk.injEq]
  refine ⟨?_, ?_, ?_, ?_, ?_⟩
  all_goals (simp (disch := omega) only [append_extract_hi, append_extract_lo]; simp; done)

/-- The decoder gives what the fields decode to, when X is what the opcode requires. -/
theorem decode_of (f : Fld) (ext : W64) (i : Instr) (hx : opX f.op = some f.x)
    (hd : decodeFields f (Ext.of ext) ext = some i) : decode f.word ext = .ok i := by
  have hw : f.word ≠ 0 := by
    intro h
    have h1 := congrArg Fld.of h
    rw [Fld.of_word] at h1
    rw [h1] at hx
    revert hx; decide
  rw [decode, if_neg hw]
  simp [Fld.of_word, hx, hd]

@[simp] theorem Fld.imm_withImm (f : Fld) (i : W32) : (f.withImm i).imm = i := by
  apply BitVec.eq_of_getLsbD_eq
  intro n hn
  simp only [Fld.imm, Fld.withImm, Fld.md, BitVec.getLsbD_append, BitVec.getLsbD_extractLsb', BitVec.getLsbD_ofBool]
  rcases (by omega : n = 0 ∨ n = 1 ∨ n = 2 ∨ n = 3 ∨ n = 4 ∨ n = 5 ∨ n = 6 ∨ n = 7 ∨ 8 ≤ n) with
    h | h | h | h | h | h | h | h | h
  all_goals try (subst h; simp; done)
  rcases (by omega : n < 12 ∨ (12 ≤ n ∧ n < 16) ∨ (16 ≤ n ∧ n < 24) ∨ 24 ≤ n) with g | g | g | g
  · simp [show ¬ n < 8 by omega, show n - 8 < 4 by omega, show 8 + (n - 8) = n by omega]
  · simp [show ¬ n < 8 by omega, show ¬ n - 8 < 4 by omega, show n - 8 - 4 < 4 by omega, show 12 + (n - 8 - 4) = n by omega]
  · simp [show ¬ n < 8 by omega, show ¬ n - 8 < 4 by omega, show ¬ n - 8 - 4 < 4 by omega, show n - 8 - 4 - 4 < 8 by omega,
      show 16 + (n - 8 - 4 - 4) = n by omega]
  · simp [show ¬ n < 8 by omega, show ¬ n - 8 < 4 by omega, show ¬ n - 8 - 4 < 4 by omega, show ¬ n - 8 - 4 - 4 < 8 by omega,
      show n - 8 - 4 - 4 - 8 < 8 by omega, show 24 + (n - 8 - 4 - 4 - 8) = n by omega]

/-! ## Operand codes -/

@[simp] theorem Ty.ofCode_code (t : Ty) : Ty.ofCode t.code = some t := by cases t <;> rfl
@[simp] theorem Const.ofCode_code (c : Const) : Const.ofCode c.code = some c := by cases c <;> rfl
@[simp] theorem Rm.of_bits (r : Rm) : Rm.of r.b1 r.b0 = r := by cases r <;> rfl
@[simp] theorem Scope.of_bits (s : Scope) : Scope.of s.b2 s.b1 s.b0 = some s := by cases s <;> rfl
@[simp] theorem mfmtOf_code (x : MFmt) : mfmtOf x.code = some x := by cases x <;> rfl
@[simp] theorem winOf_code (x : Win) : winOf x.code = some x := by cases x <;> rfl
@[simp] theorem AtomOp.ofSub_sub (x : AtomOp) : AtomOp.ofSub x.sub = some x := by cases x <;> rfl

@[simp] theorem reg7_set (r : BitVec 7) : reg7 (r.setWidth 8) = some r := by
  have := r.isLt; simp [reg7]; omega
@[simp] theorem nib_set (r : BitVec 4) : nib (r.setWidth 8) = some r := by
  have := r.isLt; simp [nib]; omega
@[simp] theorem two_set (r : BitVec 2) : two (r.setWidth 8) = some r := by
  have := r.isLt; simp [two]; omega
@[simp] theorem three_set (r : BitVec 3) : three (r.setWidth 8) = some r := by
  have := r.isLt; simp [three]; omega
theorem slotOf_set (r : BitVec 6) (h : slotOk r = true) : slotOf (r.setWidth 8) = some r := by
  have := r.isLt; simp only [slotOk, decide_eq_true_eq] at h; simp [slotOf]; omega
@[simp] theorem mxOf_code (m : MX) : mxOf m.code = some m := by
  cases m with
  | k n => have := n.isLt; simp [mxOf, MX.code]; omega
  | exec => rfl
theorem Const.code_ge (c : Const) : 128 ≤ c.code.toNat := by cases c <;> decide
@[simp] theorem dstOf_vec (r : BitVec 8) : dstOf false r = some (.vec r) := rfl
@[simp] theorem dstOf_sca (r : BitVec 7) : dstOf true (r.setWidth 8) = some (.sca r) := by
  have := r.isLt; simp [dstOf]; omega
@[simp] theorem dstOf_code (d : Dst) : dstOf (!d.isVec) d.code = some d := by
  cases d <;> simp [Dst.isVec, Dst.code]
@[simp] theorem srcOf_vec (t : Ty) (r : BitVec 8) : srcOf false t r = some (.vec r) := rfl
@[simp] theorem srcOf_sca (t : Ty) (r : BitVec 7) : srcOf true t (r.setWidth 8) = some (.sca r) := by
  have := r.isLt; simp [srcOf]; omega
@[simp] theorem srcOf_con (t : Ty) (c : Const) (h : c.ok t = true) : srcOf true t c.code = some (.con c) := by
  have := c.code_ge; simp [srcOf, h]; omega
theorem srcOf_code (t : Ty) (s : Src) (h : s.ok t = true) : srcOf (!s.isVec) t s.code = some s := by
  cases s <;> simp_all [Src.isVec, Src.ok, Src.code]
theorem scOf_code (t : Ty) (s : SC) (h : s.ok t = true) : scOf t s.code = some s := by
  cases s with
  | sca r => have := r.isLt; simp [scOf, SC.code]; omega
  | con c => have := c.code_ge; simp only [SC.ok] at h; simp [scOf, SC.code, h]; omega

@[simp] theorem SReg.ofNum_num (r : SReg) : SReg.ofNum r.num = some r := by
  cases r with
  | pmc n => revert n; decide
  | pmsel n => revert n; decide
  | _ => rfl

/-! ## Operand fields -/

theorem dOp1_enc (tys : List Ty) (bc : Bool) (o : Op1) (h : o.ok tys id bc = true) (f : Fld)
    (hu : f.u = !o.d.isVec) (hd : f.d = o.d.code) (ha : f.a = o.a.code) (hk : f.k = o.k) (ht : f.ty = o.ty.code)
    (h7 : f.m7 = bcBit (!o.d.isVec) o.a) (h6 : f.m6 = false) :
    dOp1 tys bc f = some o := by
  obtain ⟨k, ty, d, a⟩ := o
  simp only [Op1.ok, Bool.and_eq_true] at h
  obtain ⟨⟨h1, h2⟩, h4⟩ := h
  simp only [dOp1, hu, hd, ha, hk, ht, h7, h6, Ty.ofCode_code, need] at *
  cases d <;> cases a <;> simp_all [bcBit, Dst.isVec, Src.isVec, Src.ok, Src.code, Dst.code]

theorem dOp2_enc (tys : List Ty) (bt : Ty → Ty) (o : Op2) (h : o.ok tys bt = true) (f : Fld)
    (hu : f.u = !o.d.isVec) (hd : f.d = o.d.code) (ha : f.a = o.a.code) (hb : f.b = o.b.code) (hk : f.k = o.k)
    (ht : f.ty = o.ty.code) (h7 : f.m7 = bcBit (!o.d.isVec) o.a) (h6 : f.m6 = bcBit (!o.d.isVec) o.b) :
    dOp2 tys bt f = some o := by
  obtain ⟨k, ty, d, a, b⟩ := o
  simp only [Op2.ok, Bool.and_eq_true] at h
  obtain ⟨⟨⟨h1, h2⟩, h3⟩, h4⟩ := h
  simp only [dOp2, hu, hd, ha, hb, hk, ht, h7, h6, Ty.ofCode_code, need] at *
  cases d <;> cases a <;> cases b <;> simp_all [bcBit, Dst.isVec, Src.isVec, Src.ok, Src.code, Dst.code]

theorem dOp3_enc (tys : List Ty) (bt : Ty → Ty) (o : Op3) (h : o.ok tys bt = true) (f : Fld)
    (hu : f.u = !o.d.isVec) (hd : f.d = o.d.code) (ha : f.a = o.a.code) (hb : f.b = o.b.code) (hc : f.c = o.c.code)
    (hk : f.k = o.k) (ht : f.ty = o.ty.code) (h7 : f.m7 = bcBit (!o.d.isVec) o.a) (h6 : f.m6 = bcBit (!o.d.isVec) o.b) :
    dOp3 tys bt f = some o := by
  obtain ⟨k, ty, d, a, b, c⟩ := o
  simp only [Op3.ok, Bool.and_eq_true] at h
  obtain ⟨⟨⟨⟨h1, h2⟩, h3⟩, h5⟩, h4⟩ := h
  have h2' : dOp2 tys bt f = some { k, ty, d, a, b } := by
    apply dOp2_enc <;> try assumption
    cases d <;> simp_all [Op2.ok, Dst.isVec]
  simp only [dOp3, h2', hu, hc]
  cases d <;> cases c <;> simp_all [Dst.isVec, Src.isVec, Src.ok, Src.code]

theorem dOpC_enc (tys : List Ty) (o : OpC) (h : o.ok tys = true) (f : Fld)
    (hu : f.u = false) (hd : f.d = o.d.setWidth 8) (ha : f.a = o.a.code) (hb : f.b = o.b.code) (hc : f.c = 0) (hk : f.k = o.k)
    (ht : f.ty = o.ty.code) (h7 : f.m7 = bcBit false o.a) (h6 : f.m6 = bcBit false o.b) (hm : f.mod50 = true) :
    dOpC tys f = some o := by
  obtain ⟨k, ty, d, a, b⟩ := o
  simp only [OpC.ok, Bool.and_eq_true] at h
  obtain ⟨⟨h1, h2⟩, h3⟩ := h
  simp only [dOpC, hu, hd, ha, hb, hc, hk, ht, h7, h6, hm, Ty.ofCode_code, need] at *
  cases a <;> cases b <;> simp_all [bcBit, Src.isVec, Src.ok, Src.code]

theorem dAddr_enc (uni : Bool) (x : MAddr) (h : x.ok uni = true) (f : Fld) (s : BitVec 4)
    (hu : f.u = uni) (hf : f.fn = x.am ++ s) (ha : f.a = x.aCode) (hb : f.b = x.bCode) : dAddr f = some x := by
  have am : f.am = x.am := by
    simp only [Fld.am, hf]; rw [append_extract_hi _ _ _ _ (by omega)]; simp
  simp only [dAddr, am, hu, ha, hb]
  cases x with
  | pair r => simp_all [MAddr.am, MAddr.ok, MAddr.bCode, MAddr.aCode]
  | base r => simp_all [MAddr.am, MAddr.ok, MAddr.bCode, MAddr.aCode]
  | idx r i s => cases s <;> simp_all [MAddr.am, MAddr.ok, MAddr.bCode, MAddr.aCode]
  | uidx r i s => cases s <;> simp_all [MAddr.am, MAddr.ok, MAddr.bCode, MAddr.aCode]

theorem off12_join (o : BitVec 12) : o.extractLsb' 4 8 ++ o.extractLsb' 0 4 = o := by
  apply BitVec.eq_of_getLsbD_eq
  intro i hi
  simp only [BitVec.getLsbD_append, BitVec.getLsbD_extractLsb']
  split
  · simp_all
  · simp [show i - 4 < 8 by omega, show 4 + (i - 4) = i by omega]

theorem extractLsb'_all {n : Nat} (a : BitVec n) : a.extractLsb' 0 n = a := by simp

theorem nib_join (k : BitVec 4) : BitVec.ofBool (k.getLsbD 3) ++ BitVec.ofBool (k.getLsbD 2) ++ BitVec.ofBool (k.getLsbD 1)
    ++ BitVec.ofBool (k.getLsbD 0) = k := by revert k; decide

theorem sub_eM (op : BitVec 8) (s : BitVec 4) (d : BitVec 8) (o : OpM) : (eM op s d o).sub = s := by
  simp only [Fld.sub, eM]; rw [append_extract_lo _ _ _ _ (by omega)]; simp

theorem mpred_of (f : Fld) (k : BitVec 4) (h7 : f.m7 = k.getLsbD 3) (h6 : f.m6 = k.getLsbD 2) (h5 : f.m5 = k.getLsbD 1)
    (h4 : f.m4 = k.getLsbD 0) : f.mpred = k := by
  simp only [Fld.mpred, Fld.md, h7, h6, h5, h4]
  rw [append_extract_hi _ _ _ _ (by omega), append_extract_hi _ _ _ _ (by omega), append_extract_hi _ _ _ _ (by omega),
    append_extract_hi _ _ _ _ (by omega)]
  exact (extractLsb'_all _).trans (nib_join k)

theorem dM_eM (op : BitVec 8) (s : BitVec 4) (d : BitVec 8) (o : OpM) (x : Bool) (h : o.ok = true) :
    dM { eM op s d o with x } = some o := by
  obtain ⟨uni, addr, off, ty, k, scope, strm⟩ := o
  simp only [OpM.ok] at h
  have ha := dAddr_enc uni addr h { eM op s d { uni, addr, off, ty, k, scope, strm } with x } s rfl rfl rfl rfl
  simp only [dM, ha]
  have hp := mpred_of { eM op s d { uni, addr, off, ty, k, scope, strm } with x } k rfl rfl rfl rfl
  simp only [hp]
  simp [eM, Fld.off12, off12_join]

/-! ## Shapes with an extension word, lane operands and immediates -/


theorem off40_eJ (op : BitVec 8) (k : BitVec 4) (off : BitVec 40) : (eJ op k off).f.off40 = off := by
  have h : (eJ op k off).f.imm = off.setWidth 32 := Fld.imm_withImm _ _
  simp only [Fld.off40, h]
  apply BitVec.eq_of_getLsbD_eq
  intro i hi
  simp only [eJ, Fld.withImm, BitVec.getLsbD_append, BitVec.getLsbD_extractLsb', BitVec.getLsbD_setWidth]
  split
  · simp_all
  · simp [show i - 32 < 8 by omega, show 32 + (i - 32) = i by omega]

theorem jk_eJ (op : BitVec 8) (k : BitVec 4) (off : BitVec 40) : (eJ op k off).f.jk = k := by
  show (k ++ 0#4).extractLsb' 4 4 = k
  rw [append_extract_hi _ _ _ _ (by omega)]; simp

theorem dlow_eJ (op : BitVec 8) (k : BitVec 4) (off : BitVec 40) : (eJ op k off).f.d.extractLsb' 0 4 = 0 := by
  show (k ++ 0#4).extractLsb' 0 4 = 0
  rw [append_extract_lo _ _ _ _ (by omega)]; simp

theorem dOpShfl_enc (fn : BitVec 6) (o : OpShfl) (h : (tysMove.contains o.ty && o.b.ok .n32) = true) :
    dOpShfl (eShfl fn o).f = some o := by
  obtain ⟨k, ty, d, a, b⟩ := o
  simp only [Bool.and_eq_true] at h
  simp only [dOpShfl, eShfl, eF, Ty.ofCode_code, need]
  cases b <;> simp_all [bcBit, Src.isVec, Src.ok, Src.code, Fld.mod50]

theorem dScan_enc (tys : List Ty) (o : OpScan) (h : (tys.contains o.ty && o.a.ok o.ty) = true) (f : Fld)
    (ht : f.ty = o.ty.code) (hb : f.b = 0) (hc : f.c = 0) (h6 : f.m6 = false) (h5 : f.m5 = false) (h4 : f.m4 = false)
    (h3 : f.m3 = false) (h7 : f.m7 = bcBit false o.a) (ha : f.a = o.a.code) (hk : f.k = o.k) (hd : f.d = o.d) :
    dScan tys f = some o := by
  obtain ⟨k, ty, d, a⟩ := o
  simp only [Bool.and_eq_true] at h
  simp only [dScan, ht, hb, hc, h3, h4, h5, h6, h7, ha, hk, hd, Ty.ofCode_code, need]
  cases a <;> simp_all [bcBit, Src.isVec, Src.ok, Src.code]

theorem dRed_enc (tys : List Ty) (o : OpRed) (h : (tys.contains o.ty && o.a.ok o.ty) = true) (f : Fld)
    (ht : f.ty = o.ty.code) (hb : f.b = 0) (hc : f.c = 0) (h6 : f.m6 = false) (h5 : f.m5 = false) (h4 : f.m4 = false)
    (h3 : f.m3 = !o.d.isVec) (h7 : f.m7 = bcBit false o.a) (ha : f.a = o.a.code) (hk : f.k = o.k) (hd : f.d = o.d.code) :
    dRed tys f = some o := by
  obtain ⟨k, ty, d, a⟩ := o
  simp only [Bool.and_eq_true] at h
  simp only [dRed, ht, hb, hc, h3, h4, h5, h6, h7, ha, hk, hd, Ty.ofCode_code, need]
  cases a <;> simp_all [bcBit, Src.isVec, Src.ok, Src.code]

theorem cvtSrcOf_code (s : CvtSrc) (h : s.ok = true) : cvtSrcOf s.b3 s.code = some s := by
  cases s with
  | int t => cases t <;> first | rfl | (revert h; decide)
  | _ => rfl

theorem cvtDstOf_code (d : CvtDst) (h : (match d with | .ty t => t != .b32 | _ => true) = true) :
    ∃ t, Ty.ofCode d.tyCode = some t ∧ cvtDstOf d.b5 d.b4 t = some d := by
  cases d with
  | ty t => exact ⟨t, Ty.ofCode_code t, by simp_all [cvtDstOf, CvtDst.b5, CvtDst.b4]⟩
  | _ => exact ⟨.h8, rfl, rfl⟩

theorem slot_set (a : BitVec 6) (h : slotOk a = true) : slotOf (a.setWidth 8) = some a := slotOf_set a h

theorem dRun_enc (f : Fld) (a n : BitVec 6) (h : runOk a n = true) (hl : f.low0 = true) (hc : f.c = 0)
    (ha : f.a = a.setWidth 8) (hb : f.b = n.setWidth 8) : dRun f = some (a, n) := by
  have hs : slotOk a = true := by
    simp only [runOk, slotOk, Bool.and_eq_true, decide_eq_true_eq] at *; omega
  have := n.isLt
  have g : n.toNat % 256 < 64 := by omega
  simp only [dRun, hl, hc, ha, hb, slotOf_set a hs, need]
  have e : BitVec.setWidth 6 (BitVec.setWidth 8 n) = n := by simp
  simp [e, h, g]

theorem imm_false (p q r : Bool) : (0#28 ++ b1 p ++ b1 q ++ b1 false ++ b1 r : BitVec 32) &&& 0xFFFFFFF2#32 = 0#32 := by
  revert p q r; decide
theorem imm_b0 (p q r : Bool) : (0#28 ++ b1 p ++ b1 q ++ b1 false ++ b1 r : BitVec 32).getLsbD 0 = r := by
  revert p q r; decide
theorem imm_b2 (p q r : Bool) : (0#28 ++ b1 p ++ b1 q ++ b1 false ++ b1 r : BitVec 32).getLsbD 2 = q := by
  revert p q r; decide
theorem imm_b3 (p q r : Bool) : (0#28 ++ b1 p ++ b1 q ++ b1 false ++ b1 r : BitVec 32).getLsbD 3 = p := by
  revert p q r; decide

theorem dCp_enc (fn : BitVec 6) (o : OpCp) :
    dCp (eCp fn o).f ⟨o.q.setWidth 8, match o.fo with | some (x, _) => x.setWidth 8 | none => 0,
      match o.fo with | some (_, x) => x.setWidth 8 | none => 0, match o.e3 with | some x => x.setWidth 8 | none => 0,
      0#28 ++ b1 o.hd ++ b1 o.hs ++ b1 false ++ b1 o.q1⟩ = some o := by
  obtain ⟨q, d, a, b, e3, lay, fo, q1, hs, hd⟩ := o
  have z : reg7 0#8 = some 0 := rfl
  simp only [dCp, eCp, eX, eF, need, imm_false, imm_b0, imm_b2, imm_b3]
  cases e3 <;> rcases fo with _ | ⟨x, y⟩ <;> simp [z]

theorem dMac_enc (f : Fld) (e : Ext) (o : OpMac) (ht : f.ty = 0) (hb : f.b = 0) (hc : f.c = 0) (hd : f.d = 0)
    (h7 : f.m7 = false) (h6 : f.m6 = false) (h4 : f.m4 = false) (h3 : f.m3 = false) (h2 : f.m2 = false)
    (h1 : f.m1 = false) (h0 : f.m0 = false) (h5 : f.m5 = o.cont) (g0 : e.e0 = o.w) (g1 : e.e1 = o.sp.setWidth 8)
    (g2 : e.e2 = o.sr.setWidth 8) (g3 : e.e3 = 0) : dMac f e = some o := by
  simp [dMac, *, need]

theorem dOm_enc (op : BitVec 8) (o : OpOm) (h : (slotOk o.a && decide (o.off.toNat < 786432)) = true) :
    dOm (eOm op o).f ⟨0, 0, 0, 0, o.off⟩ = some o := by
  simp only [Bool.and_eq_true, decide_eq_true_eq] at h
  simp [dOm, eOm, eX, eF, need, Fld.mod0, Fld.mod50, h, slotOf_set]

theorem dScale_enc (s : Option ScaleOp) (h : (match s with | some x => slotOk x.slot | none => true) = true) :
    dScale s.isSome (scaleB s) (scaleO s) = some s := by
  cases s with
  | none => rfl
  | some x => simp at h; simp [dScale, scaleB, scaleO, slotOf_set, h]

theorem imm_scope (s : Scope) (b : Bool) : immScope (0#25 ++ s.code ++ 0#3 ++ b1 b) = some s := by
  revert b; cases s <;> decide
theorem imm_scope_mask (s : Scope) (b : Bool) : (0#25 ++ s.code ++ 0#3 ++ b1 b : BitVec 32) &&& 0xFFFFFF8E#32 = 0#32 := by
  revert b; cases s <;> decide
theorem imm_scope_b0 (s : Scope) (b : Bool) : (0#25 ++ s.code ++ 0#3 ++ b1 b : BitVec 32).getLsbD 0 = b := by
  revert b; cases s <;> decide

theorem imm_uv (p q : Bool) : (0#25 ++ b1 p ++ 0#1 ++ b1 q ++ 0#4 : BitVec 32) &&& 0xFFFFFFAF#32 = 0#32 := by
  revert p q; decide
theorem imm_uv4 (p q : Bool) : (0#25 ++ b1 p ++ 0#1 ++ b1 q ++ 0#4 : BitVec 32).getLsbD 4 = q := by
  revert p q; decide
theorem imm_uv6 (p q : Bool) : (0#25 ++ b1 p ++ 0#1 ++ b1 q ++ 0#4 : BitVec 32).getLsbD 6 = p := by
  revert p q; decide

theorem imm_at (p q r : Bool) : (0#29 ++ b1 p ++ b1 q ++ b1 r : BitVec 32) &&& 0xFFFFFFF8#32 = 0#32 := by
  revert p q r; decide
theorem imm_at0 (p q r : Bool) : (0#29 ++ b1 p ++ b1 q ++ b1 r : BitVec 32).getLsbD 0 = r := by revert p q r; decide
theorem imm_at1 (p q r : Bool) : (0#29 ++ b1 p ++ b1 q ++ b1 r : BitVec 32).getLsbD 1 = q := by revert p q r; decide
theorem imm_at2 (p q r : Bool) : (0#29 ++ b1 p ++ b1 q ++ b1 r : BitVec 32).getLsbD 2 = p := by revert p q r; decide

theorem dAtom_enc (op : AtomOp) (o : OpAtom) (h : o.ok op = true) :
    dAtom (eAtom op o).f ⟨o.b.code, match o.c with | some c => c.code | none => 0, 0, 0,
      0#29 ++ b1 o.d.isNone ++ b1 o.rel ++ b1 o.acq⟩ = some (atomInstr op o) := by
  have hh := h
  simp only [OpAtom.ok, Bool.and_eq_true] at h
  obtain ⟨⟨⟨⟨⟨h1, h2⟩, h3⟩, h4⟩, h5⟩, h6⟩ := h
  have hd : dM (eAtom op o).f = some o.m := dM_eM _ _ _ _ true h1
  have hs : (eAtom op o).f.sub = op.sub := sub_eM 0x78 op.sub (match o.d with | some d => d.code | none => 0) o.m
  have hu : (eAtom op o).f.u = o.m.uni := rfl
  have hD : (eAtom op o).f.d = (match o.d with | some d => d.code | none => 0) := rfl
  simp only [dAtom, hd, hs, hu, hD, AtomOp.ofSub_sub, imm_at, imm_at0, imm_at1, imm_at2, need]
  obtain ⟨m, d, b, c, acq, rel⟩ := o
  have hb : dstOf m.uni b.code = some b := by
    have := dstOf_code b; simp at h5; simpa [h5] using this
  have z : ∃ x, dstOf m.uni 0#8 = some x := by cases m.uni <;> exact ⟨_, rfl⟩
  obtain ⟨x, hx⟩ := z
  cases d with
  | none =>
    cases c with
    | none => simp at h6; simp [hb, hx, h6, hh]
    | some c =>
      simp at h6
      have hc : dstOf m.uni c.code = some c := by
        have := dstOf_code c; simpa [h6.2] using this
      simp [hb, hx, hc, h6.1] at hh ⊢
      simp [hh]
  | some d =>
    have hd' : dstOf m.uni d.code = some d := by
      have := dstOf_code d; simp at h4; simpa [h4] using this
    cases c with
    | none => simp at h6; simp [hb, hx, hd', h6, hh]
    | some c =>
      simp at h6
      have hc : dstOf m.uni c.code = some c := by
        have := dstOf_code c; simpa [h6.2] using this
      simp [hb, hd', hc, h6.1] at hh ⊢
      simp [hh]

theorem and_append' {n m : Nat} (a c : BitVec n) (b d : BitVec m) : (a ++ b) &&& (c ++ d) = (a &&& c) ++ (b &&& d) := by
  apply BitVec.eq_of_getLsbD_eq
  intro i hi
  simp only [BitVec.getLsbD_and, BitVec.getLsbD_append]
  split <;> rfl

theorem setWidth_lo {n : Nat} (x : BitVec n) (w : Nat) : x.setWidth w = x.extractLsb' 0 w := by
  apply BitVec.eq_of_getLsbD_eq
  intro i hi
  simp [hi]

theorem mseek_imm_mask (boff roff : BitVec 8) (nd : BitVec 6) (kd : BitVec 7) :
    (0#3 ++ boff ++ roff ++ nd ++ kd : BitVec 32) &&& 0xE0000000#32 = 0#32 := by
  change ((0#3 ++ boff ++ roff ++ nd ++ kd) &&& (7#3 ++ 0#8 ++ 0#8 ++ 0#6 ++ 0#7) : BitVec (3 + 8 + 8 + 6 + 7)) = 0#(3 + 8 + 8 + 6 + 7)
  simp only [and_append', BitVec.and_zero, BitVec.zero_and]; rfl
theorem mseek_kd (boff roff : BitVec 8) (nd : BitVec 6) (kd : BitVec 7) :
    (0#3 ++ boff ++ roff ++ nd ++ kd : BitVec 32).setWidth 7 = kd := by
  rw [setWidth_lo, append_extract_lo _ _ _ _ (by omega)]; simp
theorem mseek_nd (boff roff : BitVec 8) (nd : BitVec 6) (kd : BitVec 7) :
    (0#3 ++ boff ++ roff ++ nd ++ kd : BitVec 32).extractLsb' 7 6 = nd := by
  simp (disch := omega) only [append_extract_hi, append_extract_lo]; simp
theorem mseek_roff (boff roff : BitVec 8) (nd : BitVec 6) (kd : BitVec 7) :
    (0#3 ++ boff ++ roff ++ nd ++ kd : BitVec 32).extractLsb' 13 8 = roff := by
  simp (disch := omega) only [append_extract_hi, append_extract_lo]; simp
theorem mseek_boff (boff roff : BitVec 8) (nd : BitVec 6) (kd : BitVec 7) :
    (0#3 ++ boff ++ roff ++ nd ++ kd : BitVec 32).extractLsb' 21 8 = boff := by
  simp (disch := omega) only [append_extract_hi, append_extract_lo]; simp
theorem mmul_mask (s : BitVec 5) (m : BitVec 8) : (0#19 ++ s ++ m : BitVec 32) &&& 0xFFFFE000#32 = 0#32 := by
  change ((0#19 ++ s ++ m) &&& (0x7FFFF#19 ++ 0#5 ++ 0#8) : BitVec (19 + 5 + 8)) = 0#(19 + 5 + 8)
  simp only [and_append', BitVec.and_zero, BitVec.zero_and]; rfl
theorem mmul_m (s : BitVec 5) (m : BitVec 8) : (0#19 ++ s ++ m : BitVec 32).setWidth 8 = m := by
  rw [setWidth_lo, append_extract_lo _ _ _ _ (by omega)]; simp
theorem mmul_s (s : BitVec 5) (m : BitVec 8) : (0#19 ++ s ++ m : BitVec 32).extractLsb' 8 5 = s := by
  simp (disch := omega) only [append_extract_hi, append_extract_lo]; simp
theorem wmint_mask (o : BitVec 8) : (0#18 ++ o ++ 0#6 : BitVec 32) &&& 0xFFFFC03F#32 = 0#32 := by
  change ((0#18 ++ o ++ 0#6) &&& (0x3FFFF#18 ++ 0#8 ++ 0x3F#6) : BitVec (18 + 8 + 6)) = 0#(18 + 8 + 6)
  simp only [and_append', BitVec.and_zero, BitVec.zero_and]; rfl
theorem wmint_off (o : BitVec 8) : (0#18 ++ o ++ 0#6 : BitVec 32).extractLsb' 6 8 = o := by
  simp (disch := omega) only [append_extract_hi, append_extract_lo]; simp
theorem soff_mask (s : BitVec 5) : (s.setWidth 32) &&& 0xFFFFFFE0#32 = 0#32 := by revert s; decide
theorem soff_set (s : BitVec 5) : (s.setWidth 32).setWidth 5 = s := by simp
theorem filt_imm (p q b0 b1' : Bool) (m : BitVec 2) :
    (0#25 ++ b1 p ++ 0#1 ++ b1 q ++ m ++ b1 b1' ++ b1 b0 : BitVec 32) &&& 0xFFFFFFA0#32 = 0#32
    ∧ (0#25 ++ b1 p ++ 0#1 ++ b1 q ++ m ++ b1 b1' ++ b1 b0 : BitVec 32).getLsbD 0 = b0
    ∧ (0#25 ++ b1 p ++ 0#1 ++ b1 q ++ m ++ b1 b1' ++ b1 b0 : BitVec 32).getLsbD 1 = b1'
    ∧ (0#25 ++ b1 p ++ 0#1 ++ b1 q ++ m ++ b1 b1' ++ b1 b0 : BitVec 32).getLsbD 4 = q
    ∧ (0#25 ++ b1 p ++ 0#1 ++ b1 q ++ m ++ b1 b1' ++ b1 b0 : BitVec 32).getLsbD 6 = p
    ∧ (0#25 ++ b1 p ++ 0#1 ++ b1 q ++ m ++ b1 b1' ++ b1 b0 : BitVec 32).extractLsb' 2 2 = m := by
  revert p q b0 b1' m; decide
theorem trap_mask (n : BitVec 12) : n.setWidth 32 &&& 0x7FFFF000#32 = 0#32 := by
  apply BitVec.eq_of_getLsbD_eq
  intro i hi
  simp only [BitVec.getLsbD_and, BitVec.getLsbD_setWidth]
  by_cases h : i < 12
  · have : (0x7FFFF000#32 : BitVec 32).getLsbD i = false := by
      revert i; decide
    simp [this]
  · have : n.getLsbD i = false := BitVec.getLsbD_of_ge n i (by omega)
    simp [this]
theorem trap_31 (n : BitVec 12) : (n.setWidth 32).getLsbD 31 = false := by simp
theorem trap_n (n : BitVec 12) : (n.setWidth 32).setWidth 12 = n := by simp
theorem trapFatal_mask (n : BitVec 12) : (1#1 ++ 0#19 ++ n : BitVec 32) &&& 0x7FFFF000#32 = 0#32 := by
  change ((1#1 ++ 0#19 ++ n) &&& (0#1 ++ 0x7FFFF#19 ++ 0#12) : BitVec (1 + 19 + 12)) = 0#(1 + 19 + 12)
  simp only [and_append', BitVec.and_zero, BitVec.zero_and]; rfl
theorem trapFatal_31 (n : BitVec 12) : (1#1 ++ 0#19 ++ n : BitVec 32).getLsbD 31 = true := by
  rw [BitVec.getLsbD_append]; simp
theorem trapFatal_n (n : BitVec 12) : (1#1 ++ 0#19 ++ n : BitVec 32).setWidth 12 = n := by
  rw [setWidth_lo, append_extract_lo _ _ _ _ (by omega)]; simp
theorem imm8_lt (n : BitVec 8) : decide ((n.setWidth 32).toNat < 256) = true := by
  have := n.isLt; simp; omega
theorem imm8_set (n : BitVec 8) : (n.setWidth 32).setWidth 8 = n := by simp
theorem imm7_le (n : BitVec 7) (h : decide (n.toNat ≤ 64) = true) : decide ((n.setWidth 32).toNat ≤ 64) = true := by
  simp only [decide_eq_true_eq, BitVec.toNat_setWidth] at *; omega
theorem imm7_set (n : BitVec 7) : (n.setWidth 32).setWidth 7 = n := by simp
theorem pack_mod {tys : List Ty} {o : Op1} (op : BitVec 8) (h : o.ok tys id false = true) (b : BitVec 8) :
    ((eOp1 op 0 o).withB b).mod0 = true := by
  simp only [Op1.ok, Bool.and_eq_true] at h
  have : bcBit (!o.d.isVec) o.a = false := by
    cases hd : o.d.isVec <;> cases ha : o.a.isVec <;> simp_all [bcBit]
  simp [Fld.mod0, Fld.mod50, Fld.withB, eOp1, this, eF]

theorem f1_mod {tys : List Ty} {o : Op1} (op : BitVec 8) (h : o.ok tys id false = true) :
    (eOp1 op 0 o).mod0 = true := pack_mod op h 0

theorem srcOf_bc (t : Ty) (s : Src) (h : s.ok t = true) : srcOf (bcBit false s) t s.code = some s := srcOf_code t s h

end Sys2Proof
end

