-- ==== Sys2Proof/Laws/PerInstr.lean ====
section
/-!
SUPPORT. Statements made of every instruction, one lemma per constructor: the decoder reads back what the encoder writes.
-/


namespace Sys2Proof.Laws

/-- The decoder, given the words of a well-formed instruction, answers that instruction (R43 to R54). -/
def RoundTrip.Statement (i : Instr) : Prop :=
  ∀ e, i.enc = some e → i.wf = true → decode e.f.word (e.ext.getD 0) = .ok i

theorem RoundTrip.ofWord (i : Instr) (x : Enc) (h : i.enc = some x)
    (g : i.wf = true → decode x.f.word (x.ext.getD 0) = .ok i) : RoundTrip.Statement i := by
  intro e he hw
  rw [h] at he
  cases he
  exact g hw

theorem RoundTrip.stepOnly (i : Instr) (h : i.enc = none) : RoundTrip.Statement i := by
  intro e he
  rw [h] at he
  cases he

theorem RoundTrip.nop : RoundTrip.Statement (.nop) := by
  refine RoundTrip.ofWord _ _ rfl (fun hw => ?_)
  refine decode_of _ _ _ (by decide : opX 0x01 = some false) ?_
  simp_all [decodeFields, dInt, need, Fld.bare, Fld.low0, Fld.mod0, Fld.mod50, Fld.fnu, eF]

theorem RoundTrip.add (s : Bool) (o : Op2) : RoundTrip.Statement (.add s o) := by
  refine RoundTrip.ofWord _ _ rfl (fun hw => ?_)
  refine decode_of _ _ _ (by decide : opX 0x10 = some false) ?_
  dsimp only
  generalize hf : (eOp2 0x10 0 o).withSat s = f
  have hop : f.op = 0x10 := by subst hf; rfl
  have hw : (o.ok tysInt id : Bool) = true := hw
  have ho := dOp2_enc _ _ o hw f (by subst hf; rfl) (by subst hf; rfl) (by subst hf; rfl) (by subst hf; rfl) (by subst hf; rfl) (by subst hf; rfl) (by subst hf; rfl) (by subst hf; rfl)
  simp only [decodeFields, dInt, hop, ho]
  subst hf
  simp [eOp2, need, Fld.mod53, Fld.modSat, eF, Fld.withSat]

theorem RoundTrip.sub (s : Bool) (o : Op2) : RoundTrip.Statement (.sub s o) := by
  refine RoundTrip.ofWord _ _ rfl (fun hw => ?_)
  refine decode_of _ _ _ (by decide : opX 0x11 = some false) ?_
  dsimp only
  generalize hf : (eOp2 0x11 0 o).withSat s = f
  have hop : f.op = 0x11 := by subst hf; rfl
  have hw : (o.ok tysInt id : Bool) = true := hw
  have ho := dOp2_enc _ _ o hw f (by subst hf; rfl) (by subst hf; rfl) (by subst hf; rfl) (by subst hf; rfl) (by subst hf; rfl) (by subst hf; rfl) (by subst hf; rfl) (by subst hf; rfl)
  simp only [decodeFields, dInt, hop, ho]
  subst hf
  simp [eOp2, need, Fld.mod53, Fld.modSat, eF, Fld.withSat]

theorem RoundTrip.mul (s : Bool) (o : Op2) : RoundTrip.Statement (.mul s o) := by
  refine RoundTrip.ofWord _ _ rfl (fun hw => ?_)
  refine decode_of _ _ _ (by decide : opX 0x12 = some false) ?_
  dsimp only
  generalize hf : (eOp2 0x12 0 o).withSat s = f
  have hop : f.op = 0x12 := by subst hf; rfl
  have hw : (o.ok tysInt id : Bool) = true := hw
  have ho := dOp2_enc _ _ o hw f (by subst hf; rfl) (by subst hf; rfl) (by subst hf; rfl) (by subst hf; rfl) (by subst hf; rfl) (by subst hf; rfl) (by subst hf; rfl) (by subst hf; rfl)
  simp only [decodeFields, dInt, hop, ho]
  subst hf
  simp [eOp2, need, Fld.mod53, Fld.modSat, eF, Fld.withSat]

theorem RoundTrip.mulh (o : Op2) : RoundTrip.Statement (.mulh o) := by
  refine RoundTrip.ofWord _ _ rfl (fun hw => ?_)
  refine decode_of _ _ _ (by decide : opX 0x13 = some false) ?_
  dsimp only
  generalize hf : eOp2 0x13 0 o = f
  have hop : f.op = 0x13 := by subst hf; rfl
  have hw : (o.ok tysInt id : Bool) = true := hw
  have ho := dOp2_enc _ _ o hw f (by subst hf; rfl) (by subst hf; rfl) (by subst hf; rfl) (by subst hf; rfl) (by subst hf; rfl) (by subst hf; rfl) (by subst hf; rfl) (by subst hf; rfl)
  simp only [decodeFields, dInt, hop, ho]
  subst hf
  simp [eOp2, need, Fld.mod50, eF]

theorem RoundTrip.mad (s : Bool) (o : Op3) : RoundTrip.Statement (.mad s o) := by
  refine RoundTrip.ofWord _ _ rfl (fun hw => ?_)
  refine decode_of _ _ _ (by decide : opX 0x14 = some false) ?_
  dsimp only
  generalize hf : (eOp3 0x14 o).withSat s = f
  have hop : f.op = 0x14 := by subst hf; rfl
  have hw : (o.ok tysInt id : Bool) = true := hw
  have ho := dOp3_enc _ _ o hw f (by subst hf; rfl) (by subst hf; rfl) (by subst hf; rfl) (by subst hf; rfl) (by subst hf; rfl) (by subst hf; rfl) (by subst hf; rfl) (by subst hf; rfl) (by subst hf; rfl)
  simp only [decodeFields, dInt, hop, ho]
  subst hf
  simp [eOp3, need, Fld.mod53, Fld.modSat, eF, Fld.withSat]

theorem RoundTrip.min (o : Op2) : RoundTrip.Statement (.min o) := by
  refine RoundTrip.ofWord _ _ rfl (fun hw => ?_)
  refine decode_of _ _ _ (by decide : opX 0x15 = some false) ?_
  dsimp only
  generalize hf : eOp2 0x15 0 o = f
  have hop : f.op = 0x15 := by subst hf; rfl
  have hw : (o.ok tysInt id : Bool) = true := hw
  have ho := dOp2_enc _ _ o hw f (by subst hf; rfl) (by subst hf; rfl) (by subst hf; rfl) (by subst hf; rfl) (by subst hf; rfl) (by subst hf; rfl) (by subst hf; rfl) (by subst hf; rfl)
  simp only [decodeFields, dInt, hop, ho]
  subst hf
  simp [eOp2, need, Fld.mod50, eF]

theorem RoundTrip.max (o : Op2) : RoundTrip.Statement (.max o) := by
  refine RoundTrip.ofWord _ _ rfl (fun hw => ?_)
  refine decode_of _ _ _ (by decide : opX 0x16 = some false) ?_
  dsimp only
  generalize hf : eOp2 0x16 0 o = f
  have hop : f.op = 0x16 := by subst hf; rfl
  have hw : (o.ok tysInt id : Bool) = true := hw
  have ho := dOp2_enc _ _ o hw f (by subst hf; rfl) (by subst hf; rfl) (by subst hf; rfl) (by subst hf; rfl) (by subst hf; rfl) (by subst hf; rfl) (by subst hf; rfl) (by subst hf; rfl)
  simp only [decodeFields, dInt, hop, ho]
  subst hf
  simp [eOp2, need, Fld.mod50, eF]

theorem RoundTrip.abs (s : Bool) (o : Op1) : RoundTrip.Statement (.abs s o) := by
  refine RoundTrip.ofWord _ _ rfl (fun hw => ?_)
  refine decode_of _ _ _ (by decide : opX 0x17 = some false) ?_
  dsimp only
  generalize hf : (eOp1 0x17 0 o).withSat s = f
  have hop : f.op = 0x17 := by subst hf; rfl
  have hw : (o.ok tysAbs id true : Bool) = true := hw
  have ho := dOp1_enc _ _ o hw f (by subst hf; rfl) (by subst hf; rfl) (by subst hf; rfl) (by subst hf; rfl) (by subst hf; rfl) (by subst hf; rfl) (by subst hf; rfl)
  simp only [decodeFields, dInt, hop, ho]
  subst hf
  simp [eOp1, need, Fld.mod53, Fld.modSat, eF, Fld.withSat]

theorem RoundTrip.and (o : Op2) : RoundTrip.Statement (.and o) := by
  refine RoundTrip.ofWord _ _ rfl (fun hw => ?_)
  refine decode_of _ _ _ (by decide : opX 0x18 = some false) ?_
  dsimp only
  generalize hf : eOp2 0x18 0 o = f
  have hop : f.op = 0x18 := by subst hf; rfl
  have hw : (o.ok tysBit id : Bool) = true := hw
  have ho := dOp2_enc _ _ o hw f (by subst hf; rfl) (by subst hf; rfl) (by subst hf; rfl) (by subst hf; rfl) (by subst hf; rfl) (by subst hf; rfl) (by subst hf; rfl) (by subst hf; rfl)
  simp only [decodeFields, dInt, hop, ho]
  subst hf
  simp [eOp2, need, Fld.mod50, eF]

theorem RoundTrip.or (o : Op2) : RoundTrip.Statement (.or o) := by
  refine RoundTrip.ofWord _ _ rfl (fun hw => ?_)
  refine decode_of _ _ _ (by decide : opX 0x19 = some false) ?_
  dsimp only
  generalize hf : eOp2 0x19 0 o = f
  have hop : f.op = 0x19 := by subst hf; rfl
  have hw : (o.ok tysBit id : Bool) = true := hw
  have ho := dOp2_enc _ _ o hw f (by subst hf; rfl) (by subst hf; rfl) (by subst hf; rfl) (by subst hf; rfl) (by subst hf; rfl) (by subst hf; rfl) (by subst hf; rfl) (by subst hf; rfl)
  simp only [decodeFields, dInt, hop, ho]
  subst hf
  simp [eOp2, need, Fld.mod50, eF]

theorem RoundTrip.xor (o : Op2) : RoundTrip.Statement (.xor o) := by
  refine RoundTrip.ofWord _ _ rfl (fun hw => ?_)
  refine decode_of _ _ _ (by decide : opX 0x1A = some false) ?_
  dsimp only
  generalize hf : eOp2 0x1A 0 o = f
  have hop : f.op = 0x1A := by subst hf; rfl
  have hw : (o.ok tysBit id : Bool) = true := hw
  have ho := dOp2_enc _ _ o hw f (by subst hf; rfl) (by subst hf; rfl) (by subst hf; rfl) (by subst hf; rfl) (by subst hf; rfl) (by subst hf; rfl) (by subst hf; rfl) (by subst hf; rfl)
  simp only [decodeFields, dInt, hop, ho]
  subst hf
  simp [eOp2, need, Fld.mod50, eF]

theorem RoundTrip.andn (o : Op2) : RoundTrip.Statement (.andn o) := by
  refine RoundTrip.ofWord _ _ rfl (fun hw => ?_)
  refine decode_of _ _ _ (by decide : opX 0x1B = some false) ?_
  dsimp only
  generalize hf : eOp2 0x1B 0 o = f
  have hop : f.op = 0x1B := by subst hf; rfl
  have hw : (o.ok tysBit id : Bool) = true := hw
  have ho := dOp2_enc _ _ o hw f (by subst hf; rfl) (by subst hf; rfl) (by subst hf; rfl) (by subst hf; rfl) (by subst hf; rfl) (by subst hf; rfl) (by subst hf; rfl) (by subst hf; rfl)
  simp only [decodeFields, dInt, hop, ho]
  subst hf
  simp [eOp2, need, Fld.mod50, eF]

theorem RoundTrip.shl (o : Op2) : RoundTrip.Statement (.shl o) := by
  refine RoundTrip.ofWord _ _ rfl (fun hw => ?_)
  refine decode_of _ _ _ (by decide : opX 0x1C = some false) ?_
  dsimp only
  generalize hf : eOp2 0x1C 0 o = f
  have hop : f.op = 0x1C := by subst hf; rfl
  have hw : (o.ok tysBit id : Bool) = true := hw
  have ho := dOp2_enc _ _ o hw f (by subst hf; rfl) (by subst hf; rfl) (by subst hf; rfl) (by subst hf; rfl) (by subst hf; rfl) (by subst hf; rfl) (by subst hf; rfl) (by subst hf; rfl)
  simp only [decodeFields, dInt, hop, ho]
  subst hf
  simp [eOp2, need, Fld.mod50, eF]

theorem RoundTrip.shr (o : Op2) : RoundTrip.Statement (.shr o) := by
  refine RoundTrip.ofWord _ _ rfl (fun hw => ?_)
  refine decode_of _ _ _ (by decide : opX 0x1D = some false) ?_
  dsimp only
  generalize hf : eOp2 0x1D 0 o = f
  have hop : f.op = 0x1D := by subst hf; rfl
  have hw : (o.ok tysBit id : Bool) = true := hw
  have ho := dOp2_enc _ _ o hw f (by subst hf; rfl) (by subst hf; rfl) (by subst hf; rfl) (by subst hf; rfl) (by subst hf; rfl) (by subst hf; rfl) (by subst hf; rfl) (by subst hf; rfl)
  simp only [decodeFields, dInt, hop, ho]
  subst hf
  simp [eOp2, need, Fld.mod50, eF]

theorem RoundTrip.rot (o : Op2) : RoundTrip.Statement (.rot o) := by
  refine RoundTrip.ofWord _ _ rfl (fun hw => ?_)
  refine decode_of _ _ _ (by decide : opX 0x1E = some false) ?_
  dsimp only
  generalize hf : eOp2 0x1E 0 o = f
  have hop : f.op = 0x1E := by subst hf; rfl
  have hw : (o.ok tysBit id : Bool) = true := hw
  have ho := dOp2_enc _ _ o hw f (by subst hf; rfl) (by subst hf; rfl) (by subst hf; rfl) (by subst hf; rfl) (by subst hf; rfl) (by subst hf; rfl) (by subst hf; rfl) (by subst hf; rfl)
  simp only [decodeFields, dInt, hop, ho]
  subst hf
  simp [eOp2, need, Fld.mod50, eF]

theorem RoundTrip.divQuo (o : Op2) : RoundTrip.Statement (.divQuo o) := by
  refine RoundTrip.ofWord _ _ rfl (fun hw => ?_)
  refine decode_of _ _ _ (by decide : opX 0x1F = some false) ?_
  dsimp only
  generalize hf : eOp2 0x1F 0 o = f
  have hop : f.op = 0x1F := by subst hf; rfl
  have hw : (o.ok tysInt id : Bool) = true := hw
  have ho := dOp2_enc _ _ o hw f (by subst hf; rfl) (by subst hf; rfl) (by subst hf; rfl) (by subst hf; rfl) (by subst hf; rfl) (by subst hf; rfl) (by subst hf; rfl) (by subst hf; rfl)
  simp only [decodeFields, dInt, hop, ho]
  subst hf
  simp [eOp2, need, Fld.mod50, eF]

theorem RoundTrip.divRem (o : Op2) : RoundTrip.Statement (.divRem o) := by
  refine RoundTrip.ofWord _ _ rfl (fun hw => ?_)
  refine decode_of _ _ _ (by decide : opX 0x1F = some false) ?_
  dsimp only
  generalize hf : eOp2 0x1F 1 o = f
  have hop : f.op = 0x1F := by subst hf; rfl
  have hw : (o.ok tysInt id : Bool) = true := hw
  have ho := dOp2_enc _ _ o hw f (by subst hf; rfl) (by subst hf; rfl) (by subst hf; rfl) (by subst hf; rfl) (by subst hf; rfl) (by subst hf; rfl) (by subst hf; rfl) (by subst hf; rfl)
  simp only [decodeFields, dInt, hop, ho]
  subst hf
  simp [eOp2, need, Fld.mod50, eF]

theorem RoundTrip.clz (o : Op1) : RoundTrip.Statement (.clz o) := by
  refine RoundTrip.ofWord _ _ rfl (fun hw => ?_)
  refine decode_of _ _ _ (by decide : opX 0x20 = some false) ?_
  dsimp only
  generalize hf : eOp1 0x20 0 o = f
  have hop : f.op = 0x20 := by subst hf; rfl
  have hw : (o.ok tysBit id true : Bool) = true := hw
  have ho := dOp1_enc _ _ o hw f (by subst hf; rfl) (by subst hf; rfl) (by subst hf; rfl) (by subst hf; rfl) (by subst hf; rfl) (by subst hf; rfl) (by subst hf; rfl)
  simp only [decodeFields, dInt, hop, ho]
  subst hf
  simp [eOp1, need, Fld.mod50, eF]

theorem RoundTrip.popc (o : Op1) : RoundTrip.Statement (.popc o) := by
  refine RoundTrip.ofWord _ _ rfl (fun hw => ?_)
  refine decode_of _ _ _ (by decide : opX 0x21 = some false) ?_
  dsimp only
  generalize hf : eOp1 0x21 0 o = f
  have hop : f.op = 0x21 := by subst hf; rfl
  have hw : (o.ok tysBit id true : Bool) = true := hw
  have ho := dOp1_enc _ _ o hw f (by subst hf; rfl) (by subst hf; rfl) (by subst hf; rfl) (by subst hf; rfl) (by subst hf; rfl) (by subst hf; rfl) (by subst hf; rfl)
  simp only [decodeFields, dInt, hop, ho]
  subst hf
  simp [eOp1, need, Fld.mod50, eF]

theorem RoundTrip.brev (o : Op1) : RoundTrip.Statement (.brev o) := by
  refine RoundTrip.ofWord _ _ rfl (fun hw => ?_)
  refine decode_of _ _ _ (by decide : opX 0x22 = some false) ?_
  dsimp only
  generalize hf : eOp1 0x22 0 o = f
  have hop : f.op = 0x22 := by subst hf; rfl
  have hw : (o.ok tysBit id true : Bool) = true := hw
  have ho := dOp1_enc _ _ o hw f (by subst hf; rfl) (by subst hf; rfl) (by subst hf; rfl) (by subst hf; rfl) (by subst hf; rfl) (by subst hf; rfl) (by subst hf; rfl)
  simp only [decodeFields, dInt, hop, ho]
  subst hf
  simp [eOp1, need, Fld.mod50, eF]

theorem RoundTrip.bfe (o : Op2) : RoundTrip.Statement (.bfe o) := by
  refine RoundTrip.ofWord _ _ rfl (fun hw => ?_)
  refine decode_of _ _ _ (by decide : opX 0x23 = some false) ?_
  dsimp only
  generalize hf : eOp2 0x23 0 o = f
  have hop : f.op = 0x23 := by subst hf; rfl
  have hw : (o.ok tysInt (fun _ => .n32) : Bool) = true := hw
  have ho := dOp2_enc _ _ o hw f (by subst hf; rfl) (by subst hf; rfl) (by subst hf; rfl) (by subst hf; rfl) (by subst hf; rfl) (by subst hf; rfl) (by subst hf; rfl) (by subst hf; rfl)
  simp only [decodeFields, dInt, hop, ho]
  subst hf
  simp [eOp2, need, Fld.mod50, eF]

theorem RoundTrip.bfi (o : Op3) : RoundTrip.Statement (.bfi o) := by
  refine RoundTrip.ofWord _ _ rfl (fun hw => ?_)
  refine decode_of _ _ _ (by decide : opX 0x24 = some false) ?_
  dsimp only
  generalize hf : eOp3 0x24 o = f
  have hop : f.op = 0x24 := by subst hf; rfl
  have hw : (o.ok tysBit (fun _ => .n32) : Bool) = true := hw
  have ho := dOp3_enc _ _ o hw f (by subst hf; rfl) (by subst hf; rfl) (by subst hf; rfl) (by subst hf; rfl) (by subst hf; rfl) (by subst hf; rfl) (by subst hf; rfl) (by subst hf; rfl) (by subst hf; rfl)
  simp only [decodeFields, dInt, hop, ho]
  subst hf
  simp [eOp3, need, Fld.mod50, eF]

theorem RoundTrip.sel (kc : BitVec 4) (o : Op2) : RoundTrip.Statement (.sel kc o) := by
  refine RoundTrip.ofWord _ _ rfl (fun hw => ?_)
  refine decode_of _ _ _ (by decide : opX 0x25 = some false) ?_
  dsimp only
  generalize hf : (eOp2 0x25 0 o).withC (kc.setWidth 8) = f
  have hop : f.op = 0x25 := by subst hf; rfl
  have hw : (o.ok tysAll id : Bool) = true := hw
  have ho := dOp2_enc _ _ o hw f (by subst hf; rfl) (by subst hf; rfl) (by subst hf; rfl) (by subst hf; rfl) (by subst hf; rfl) (by subst hf; rfl) (by subst hf; rfl) (by subst hf; rfl)
  simp only [decodeFields, dInt, hop, ho]
  subst hf
  simp [eOp2, need, Fld.mod50, eF, Fld.withC]

theorem RoundTrip.cmpEq (o : OpC) : RoundTrip.Statement (.cmpEq o) := by
  refine RoundTrip.ofWord _ _ rfl (fun hw => ?_)
  refine decode_of _ _ _ (by decide : opX 0x26 = some false) ?_
  generalize hf : (eOpC 0x26 0 o).f = f
  have hop : f.op = 0x26 := by subst hf; rfl
  have hw : (o.ok tysBit : Bool) = true := hw
  have ho := dOpC_enc _ o hw f (by subst hf; rfl) (by subst hf; rfl) (by subst hf; rfl) (by subst hf; rfl) (by subst hf; rfl) (by subst hf; rfl) (by subst hf; rfl) (by subst hf; rfl) (by subst hf; rfl) (by subst hf; rfl)
  simp only [decodeFields, dInt, hop, ho]
  subst hf
  simp [eOpC, eF]

theorem RoundTrip.cmpNe (o : OpC) : RoundTrip.Statement (.cmpNe o) := by
  refine RoundTrip.ofWord _ _ rfl (fun hw => ?_)
  refine decode_of _ _ _ (by decide : opX 0x26 = some false) ?_
  generalize hf : (eOpC 0x26 1 o).f = f
  have hop : f.op = 0x26 := by subst hf; rfl
  have hw : (o.ok tysBit : Bool) = true := hw
  have ho := dOpC_enc _ o hw f (by subst hf; rfl) (by subst hf; rfl) (by subst hf; rfl) (by subst hf; rfl) (by subst hf; rfl) (by subst hf; rfl) (by subst hf; rfl) (by subst hf; rfl) (by subst hf; rfl) (by subst hf; rfl)
  simp only [decodeFields, dInt, hop, ho]
  subst hf
  simp [eOpC, eF]

theorem RoundTrip.cmpLt (o : OpC) : RoundTrip.Statement (.cmpLt o) := by
  refine RoundTrip.ofWord _ _ rfl (fun hw => ?_)
  refine decode_of _ _ _ (by decide : opX 0x26 = some false) ?_
  generalize hf : (eOpC 0x26 2 o).f = f
  have hop : f.op = 0x26 := by subst hf; rfl
  have hw : (o.ok tysInt : Bool) = true := hw
  have ho := dOpC_enc _ o hw f (by subst hf; rfl) (by subst hf; rfl) (by subst hf; rfl) (by subst hf; rfl) (by subst hf; rfl) (by subst hf; rfl) (by subst hf; rfl) (by subst hf; rfl) (by subst hf; rfl) (by subst hf; rfl)
  simp only [decodeFields, dInt, hop, ho]
  subst hf
  simp [eOpC, eF]

theorem RoundTrip.cmpLe (o : OpC) : RoundTrip.Statement (.cmpLe o) := by
  refine RoundTrip.ofWord _ _ rfl (fun hw => ?_)
  refine decode_of _ _ _ (by decide : opX 0x26 = some false) ?_
  generalize hf : (eOpC 0x26 3 o).f = f
  have hop : f.op = 0x26 := by subst hf; rfl
  have hw : (o.ok tysInt : Bool) = true := hw
  have ho := dOpC_enc _ o hw f (by subst hf; rfl) (by subst hf; rfl) (by subst hf; rfl) (by subst hf; rfl) (by subst hf; rfl) (by subst hf; rfl) (by subst hf; rfl) (by subst hf; rfl) (by subst hf; rfl) (by subst hf; rfl)
  simp only [decodeFields, dInt, hop, ho]
  subst hf
  simp [eOpC, eF]

theorem RoundTrip.cmpGt (o : OpC) : RoundTrip.Statement (.cmpGt o) := by
  refine RoundTrip.ofWord _ _ rfl (fun hw => ?_)
  refine decode_of _ _ _ (by decide : opX 0x26 = some false) ?_
  generalize hf : (eOpC 0x26 4 o).f = f
  have hop : f.op = 0x26 := by subst hf; rfl
  have hw : (o.ok tysInt : Bool) = true := hw
  have ho := dOpC_enc _ o hw f (by subst hf; rfl) (by subst hf; rfl) (by subst hf; rfl) (by subst hf; rfl) (by subst hf; rfl) (by subst hf; rfl) (by subst hf; rfl) (by subst hf; rfl) (by subst hf; rfl) (by subst hf; rfl)
  simp only [decodeFields, dInt, hop, ho]
  subst hf
  simp [eOpC, eF]

theorem RoundTrip.cmpGe (o : OpC) : RoundTrip.Statement (.cmpGe o) := by
  refine RoundTrip.ofWord _ _ rfl (fun hw => ?_)
  refine decode_of _ _ _ (by decide : opX 0x26 = some false) ?_
  generalize hf : (eOpC 0x26 5 o).f = f
  have hop : f.op = 0x26 := by subst hf; rfl
  have hw : (o.ok tysInt : Bool) = true := hw
  have ho := dOpC_enc _ o hw f (by subst hf; rfl) (by subst hf; rfl) (by subst hf; rfl) (by subst hf; rfl) (by subst hf; rfl) (by subst hf; rfl) (by subst hf; rfl) (by subst hf; rfl) (by subst hf; rfl) (by subst hf; rfl)
  simp only [decodeFields, dInt, hop, ho]
  subst hf
  simp [eOpC, eF]

theorem RoundTrip.mov (o : Op1) : RoundTrip.Statement (.mov o) := by
  refine RoundTrip.ofWord _ _ rfl (fun hw => ?_)
  refine decode_of _ _ _ (by decide : opX 0x27 = some false) ?_
  dsimp only
  generalize hf : eOp1 0x27 0 o = f
  have hop : f.op = 0x27 := by subst hf; rfl
  have hw : (o.ok tysAll id true : Bool) = true := hw
  have ho := dOp1_enc _ _ o hw f (by subst hf; rfl) (by subst hf; rfl) (by subst hf; rfl) (by subst hf; rfl) (by subst hf; rfl) (by subst hf; rfl) (by subst hf; rfl)
  simp only [decodeFields, dInt, hop, ho]
  subst hf
  simp [eOp1, need, Fld.mod50, eF]

theorem RoundTrip.movi (d : Dst) (wide : Bool) (sx : Bool) (imm : W32) : RoundTrip.Statement (.movi d wide sx imm) := by
  refine RoundTrip.ofWord _ _ rfl (fun hw => ?_)
  refine decode_of _ _ _ (by decide : opX 0x28 = some false) ?_
  have hw : (if d.isVec then wide || !sx else !wide : Bool) = true := hw
  have hop : ({ eF 0x28 with u := !d.isVec, fn := if sx then 1 else 0, d := d.code, a := if wide then 1 else 0 }.withImm imm).op = 0x28 := rfl
  have h1 : ({ eF 0x28 with u := !d.isVec, fn := if sx then 1 else 0, d := d.code, a := if wide then 1 else 0 }.withImm imm).u = !d.isVec := rfl
  have h2 : ({ eF 0x28 with u := !d.isVec, fn := if sx then 1 else 0, d := d.code, a := if wide then 1 else 0 }.withImm imm).d = d.code := rfl
  have h3 : ({ eF 0x28 with u := !d.isVec, fn := if sx then 1 else 0, d := d.code, a := if wide then 1 else 0 }.withImm imm).a = if wide then 1 else 0 := rfl
  have h4 : ({ eF 0x28 with u := !d.isVec, fn := if sx then 1 else 0, d := d.code, a := if wide then 1 else 0 }.withImm imm).fn = if sx then 1 else 0 := rfl
  have h5 : ({ eF 0x28 with u := !d.isVec, fn := if sx then 1 else 0, d := d.code, a := if wide then 1 else 0 }.withImm imm).imm = imm := Fld.imm_withImm _ _
  change decodeFields ({ eF 0x28 with u := !d.isVec, fn := if sx then 1 else 0, d := d.code, a := if wide then 1 else 0 }.withImm imm) (Ext.of _) _ = _
  generalize ({ eF 0x28 with u := !d.isVec, fn := if sx then 1 else 0, d := d.code, a := if wide then 1 else 0 }.withImm imm) = f at hop h1 h2 h3 h4 h5 ⊢
  simp only [decodeFields, dInt, hop, h1, h2, h3, h4, h5, need, dstOf_code]
  cases wide <;> cases sx <;> cases d <;> simp_all [Dst.isVec]

theorem RoundTrip.movx (k : BitVec 4) (ty : Ty) (d : Dst) (imm : W64) : RoundTrip.Statement (.movx k ty d imm) := by
  refine RoundTrip.ofWord _ _ rfl (fun hw => ?_)
  refine decode_of _ _ _ (by decide : opX 0x29 = some true) ?_
  have hw : (tysMovx.contains ty : Bool) = true := hw
  simp_all [decodeFields, dInt, need, Fld.mod0, Fld.mod50, eF]

theorem RoundTrip.lea (sh : BitVec 6) (o : Op2) : RoundTrip.Statement (.lea sh o) := by
  refine RoundTrip.ofWord _ _ rfl (fun hw => ?_)
  refine decode_of _ _ _ (by decide : opX 0x2A = some false) ?_
  dsimp only
  generalize hf : (eOp2 0x2A 0 o).withC (sh.setWidth 8) = f
  have hop : f.op = 0x2A := by subst hf; rfl
  have hw : (o.ok tysLea (fun _ => .n32) : Bool) = true := hw
  have ho := dOp2_enc _ _ o hw f (by subst hf; rfl) (by subst hf; rfl) (by subst hf; rfl) (by subst hf; rfl) (by subst hf; rfl) (by subst hf; rfl) (by subst hf; rfl) (by subst hf; rfl)
  simp only [decodeFields, dInt, hop, ho]
  subst hf
  simp [eOp2, need, Fld.mod50, eF, Fld.withC]
  have := sh.isLt
  rw [if_pos (by omega)]
  rfl

theorem RoundTrip.addc (kc : BitVec 4) (o : Op2) : RoundTrip.Statement (.addc kc o) := by
  refine RoundTrip.ofWord _ _ rfl (fun hw => ?_)
  refine decode_of _ _ _ (by decide : opX 0x2B = some false) ?_
  dsimp only
  generalize hf : (eOp2 0x2B 0 o).withC (kc.setWidth 8) = f
  have hop : f.op = 0x2B := by subst hf; rfl
  have hw : (o.ok tysInt id : Bool) = true := hw
  have ho := dOp2_enc _ _ o hw f (by subst hf; rfl) (by subst hf; rfl) (by subst hf; rfl) (by subst hf; rfl) (by subst hf; rfl) (by subst hf; rfl) (by subst hf; rfl) (by subst hf; rfl)
  simp only [decodeFields, dInt, hop, ho]
  subst hf
  simp [eOp2, need, Fld.mod50, eF, Fld.withC]

theorem RoundTrip.subb (kc : BitVec 4) (o : Op2) : RoundTrip.Statement (.subb kc o) := by
  refine RoundTrip.ofWord _ _ rfl (fun hw => ?_)
  refine decode_of _ _ _ (by decide : opX 0x2C = some false) ?_
  dsimp only
  generalize hf : (eOp2 0x2C 0 o).withC (kc.setWidth 8) = f
  have hop : f.op = 0x2C := by subst hf; rfl
  have hw : (o.ok tysInt id : Bool) = true := hw
  have ho := dOp2_enc _ _ o hw f (by subst hf; rfl) (by subst hf; rfl) (by subst hf; rfl) (by subst hf; rfl) (by subst hf; rfl) (by subst hf; rfl) (by subst hf; rfl) (by subst hf; rfl)
  simp only [decodeFields, dInt, hop, ho]
  subst hf
  simp [eOp2, need, Fld.mod50, eF, Fld.withC]

theorem RoundTrip.fadd (r : Rm) (s : Bool) (o : Op2) : RoundTrip.Statement (.fadd r s o) := by
  refine RoundTrip.ofWord _ _ rfl (fun hw => ?_)
  refine decode_of _ _ _ (by decide : opX 0x30 = some false) ?_
  dsimp only
  generalize hf : ((eOp2 0x30 0 o).withRm r).withSat s = f
  have hop : f.op = 0x30 := by subst hf; rfl
  have hw : (o.ok tysFlt id : Bool) = true := hw
  have ho := dOp2_enc _ _ o hw f (by subst hf; rfl) (by subst hf; rfl) (by subst hf; rfl) (by subst hf; rfl) (by subst hf; rfl) (by subst hf; rfl) (by subst hf; rfl) (by subst hf; rfl)
  simp only [decodeFields, dFlt, hop, ho]
  subst hf
  simp [eOp2, need, Fld.mod53, Fld.rm, eF, Fld.withRm, Fld.withSat]

theorem RoundTrip.fsub (r : Rm) (s : Bool) (o : Op2) : RoundTrip.Statement (.fsub r s o) := by
  refine RoundTrip.ofWord _ _ rfl (fun hw => ?_)
  refine decode_of _ _ _ (by decide : opX 0x31 = some false) ?_
  dsimp only
  generalize hf : ((eOp2 0x31 0 o).withRm r).withSat s = f
  have hop : f.op = 0x31 := by subst hf; rfl
  have hw : (o.ok tysFlt id : Bool) = true := hw
  have ho := dOp2_enc _ _ o hw f (by subst hf; rfl) (by subst hf; rfl) (by subst hf; rfl) (by subst hf; rfl) (by subst hf; rfl) (by subst hf; rfl) (by subst hf; rfl) (by subst hf; rfl)
  simp only [decodeFields, dFlt, hop, ho]
  subst hf
  simp [eOp2, need, Fld.mod53, Fld.rm, eF, Fld.withRm, Fld.withSat]

theorem RoundTrip.fmul (r : Rm) (s : Bool) (o : Op2) : RoundTrip.Statement (.fmul r s o) := by
  refine RoundTrip.ofWord _ _ rfl (fun hw => ?_)
  refine decode_of _ _ _ (by decide : opX 0x32 = some false) ?_
  dsimp only
  generalize hf : ((eOp2 0x32 0 o).withRm r).withSat s = f
  have hop : f.op = 0x32 := by subst hf; rfl
  have hw : (o.ok tysFlt id : Bool) = true := hw
  have ho := dOp2_enc _ _ o hw f (by subst hf; rfl) (by subst hf; rfl) (by subst hf; rfl) (by subst hf; rfl) (by subst hf; rfl) (by subst hf; rfl) (by subst hf; rfl) (by subst hf; rfl)
  simp only [decodeFields, dFlt, hop, ho]
  subst hf
  simp [eOp2, need, Fld.mod53, Fld.rm, eF, Fld.withRm, Fld.withSat]

theorem RoundTrip.fma (r : Rm) (s : Bool) (o : Op3) : RoundTrip.Statement (.fma r s o) := by
  refine RoundTrip.ofWord _ _ rfl (fun hw => ?_)
  refine decode_of _ _ _ (by decide : opX 0x33 = some false) ?_
  dsimp only
  generalize hf : ((eOp3 0x33 o).withRm r).withSat s = f
  have hop : f.op = 0x33 := by subst hf; rfl
  have hw : (o.ok tysFlt id : Bool) = true := hw
  have ho := dOp3_enc _ _ o hw f (by subst hf; rfl) (by subst hf; rfl) (by subst hf; rfl) (by subst hf; rfl) (by subst hf; rfl) (by subst hf; rfl) (by subst hf; rfl) (by subst hf; rfl) (by subst hf; rfl)
  simp only [decodeFields, dFlt, hop, ho]
  subst hf
  simp [eOp3, need, Fld.mod53, Fld.rm, eF, Fld.withRm, Fld.withSat]

theorem RoundTrip.fmin (o : Op2) : RoundTrip.Statement (.fmin o) := by
  refine RoundTrip.ofWord _ _ rfl (fun hw => ?_)
  refine decode_of _ _ _ (by decide : opX 0x34 = some false) ?_
  dsimp only
  generalize hf : eOp2 0x34 0 o = f
  have hop : f.op = 0x34 := by subst hf; rfl
  have hw : (o.ok tysFlt id : Bool) = true := hw
  have ho := dOp2_enc _ _ o hw f (by subst hf; rfl) (by subst hf; rfl) (by subst hf; rfl) (by subst hf; rfl) (by subst hf; rfl) (by subst hf; rfl) (by subst hf; rfl) (by subst hf; rfl)
  simp only [decodeFields, dFlt, hop, ho]
  subst hf
  simp [eOp2, need, Fld.mod50, eF]

theorem RoundTrip.fmax (o : Op2) : RoundTrip.Statement (.fmax o) := by
  refine RoundTrip.ofWord _ _ rfl (fun hw => ?_)
  refine decode_of _ _ _ (by decide : opX 0x35 = some false) ?_
  dsimp only
  generalize hf : eOp2 0x35 0 o = f
  have hop : f.op = 0x35 := by subst hf; rfl
  have hw : (o.ok tysFlt id : Bool) = true := hw
  have ho := dOp2_enc _ _ o hw f (by subst hf; rfl) (by subst hf; rfl) (by subst hf; rfl) (by subst hf; rfl) (by subst hf; rfl) (by subst hf; rfl) (by subst hf; rfl) (by subst hf; rfl)
  simp only [decodeFields, dFlt, hop, ho]
  subst hf
  simp [eOp2, need, Fld.mod50, eF]

theorem RoundTrip.fscale (r : Rm) (s : Bool) (o : Op2) : RoundTrip.Statement (.fscale r s o) := by
  refine RoundTrip.ofWord _ _ rfl (fun hw => ?_)
  refine decode_of _ _ _ (by decide : opX 0x43 = some false) ?_
  dsimp only
  generalize hf : ((eOp2 0x43 0 o).withRm r).withSat s = f
  have hop : f.op = 0x43 := by subst hf; rfl
  have hw : (o.ok tysFlt (fun _ => .i32) : Bool) = true := hw
  have ho := dOp2_enc _ _ o hw f (by subst hf; rfl) (by subst hf; rfl) (by subst hf; rfl) (by subst hf; rfl) (by subst hf; rfl) (by subst hf; rfl) (by subst hf; rfl) (by subst hf; rfl)
  simp only [decodeFields, dFlt, hop, ho]
  subst hf
  simp [eOp2, need, Fld.mod53, Fld.rm, eF, Fld.withRm, Fld.withSat]

theorem RoundTrip.fcmpEq (o : OpC) : RoundTrip.Statement (.fcmpEq o) := by
  refine RoundTrip.ofWord _ _ rfl (fun hw => ?_)
  refine decode_of _ _ _ (by decide : opX 0x36 = some false) ?_
  generalize hf : (eOpC 0x36 0 o).f = f
  have hop : f.op = 0x36 := by subst hf; rfl
  have hw : (o.ok tysFlt : Bool) = true := hw
  have ho := dOpC_enc _ o hw f (by subst hf; rfl) (by subst hf; rfl) (by subst hf; rfl) (by subst hf; rfl) (by subst hf; rfl) (by subst hf; rfl) (by subst hf; rfl) (by subst hf; rfl) (by subst hf; rfl) (by subst hf; rfl)
  simp only [decodeFields, dFlt, hop, ho]
  subst hf
  simp [eOpC, eF]

theorem RoundTrip.fcmpNe (o : OpC) : RoundTrip.Statement (.fcmpNe o) := by
  refine RoundTrip.ofWord _ _ rfl (fun hw => ?_)
  refine decode_of _ _ _ (by decide : opX 0x36 = some false) ?_
  generalize hf : (eOpC 0x36 1 o).f = f
  have hop : f.op = 0x36 := by subst hf; rfl
  have hw : (o.ok tysFlt : Bool) = true := hw
  have ho := dOpC_enc _ o hw f (by subst hf; rfl) (by subst hf; rfl) (by subst hf; rfl) (by subst hf; rfl) (by subst hf; rfl) (by subst hf; rfl) (by subst hf; rfl) (by subst hf; rfl) (by subst hf; rfl) (by subst hf; rfl)
  simp only [decodeFields, dFlt, hop, ho]
  subst hf
  simp [eOpC, eF]

theorem RoundTrip.fcmpLt (o : OpC) : RoundTrip.Statement (.fcmpLt o) := by
  refine RoundTrip.ofWord _ _ rfl (fun hw => ?_)
  refine decode_of _ _ _ (by decide : opX 0x36 = some false) ?_
  generalize hf : (eOpC 0x36 2 o).f = f
  have hop : f.op = 0x36 := by subst hf; rfl
  have hw : (o.ok tysFlt : Bool) = true := hw
  have ho := dOpC_enc _ o hw f (by subst hf; rfl) (by subst hf; rfl) (by subst hf; rfl) (by subst hf; rfl) (by subst hf; rfl) (by subst hf; rfl) (by subst hf; rfl) (by subst hf; rfl) (by subst hf; rfl) (by subst hf; rfl)
  simp only [decodeFields, dFlt, hop, ho]
  subst hf
  simp [eOpC, eF]

theorem RoundTrip.fcmpLe (o : OpC) : RoundTrip.Statement (.fcmpLe o) := by
  refine RoundTrip.ofWord _ _ rfl (fun hw => ?_)
  refine decode_of _ _ _ (by decide : opX 0x36 = some false) ?_
  generalize hf : (eOpC 0x36 3 o).f = f
  have hop : f.op = 0x36 := by subst hf; rfl
  have hw : (o.ok tysFlt : Bool) = true := hw
  have ho := dOpC_enc _ o hw f (by subst hf; rfl) (by subst hf; rfl) (by subst hf; rfl) (by subst hf; rfl) (by subst hf; rfl) (by subst hf; rfl) (by subst hf; rfl) (by subst hf; rfl) (by subst hf; rfl) (by subst hf; rfl)
  simp only [decodeFields, dFlt, hop, ho]
  subst hf
  simp [eOpC, eF]

theorem RoundTrip.fcmpGt (o : OpC) : RoundTrip.Statement (.fcmpGt o) := by
  refine RoundTrip.ofWord _ _ rfl (fun hw => ?_)
  refine decode_of _ _ _ (by decide : opX 0x36 = some false) ?_
  generalize hf : (eOpC 0x36 4 o).f = f
  have hop : f.op = 0x36 := by subst hf; rfl
  have hw : (o.ok tysFlt : Bool) = true := hw
  have ho := dOpC_enc _ o hw f (by subst hf; rfl) (by subst hf; rfl) (by subst hf; rfl) (by subst hf; rfl) (by subst hf; rfl) (by subst hf; rfl) (by subst hf; rfl) (by subst hf; rfl) (by subst hf; rfl) (by subst hf; rfl)
  simp only [decodeFields, dFlt, hop, ho]
  subst hf
  simp [eOpC, eF]

theorem RoundTrip.fcmpGe (o : OpC) : RoundTrip.Statement (.fcmpGe o) := by
  refine RoundTrip.ofWord _ _ rfl (fun hw => ?_)
  refine decode_of _ _ _ (by decide : opX 0x36 = some false) ?_
  generalize hf : (eOpC 0x36 5 o).f = f
  have hop : f.op = 0x36 := by subst hf; rfl
  have hw : (o.ok tysFlt : Bool) = true := hw
  have ho := dOpC_enc _ o hw f (by subst hf; rfl) (by subst hf; rfl) (by subst hf; rfl) (by subst hf; rfl) (by subst hf; rfl) (by subst hf; rfl) (by subst hf; rfl) (by subst hf; rfl) (by subst hf; rfl) (by subst hf; rfl)
  simp only [decodeFields, dFlt, hop, ho]
  subst hf
  simp [eOpC, eF]

theorem RoundTrip.fcmpOrd (o : OpC) : RoundTrip.Statement (.fcmpOrd o) := by
  refine RoundTrip.ofWord _ _ rfl (fun hw => ?_)
  refine decode_of _ _ _ (by decide : opX 0x36 = some false) ?_
  generalize hf : (eOpC 0x36 6 o).f = f
  have hop : f.op = 0x36 := by subst hf; rfl
  have hw : (o.ok tysFlt : Bool) = true := hw
  have ho := dOpC_enc _ o hw f (by subst hf; rfl) (by subst hf; rfl) (by subst hf; rfl) (by subst hf; rfl) (by subst hf; rfl) (by subst hf; rfl) (by subst hf; rfl) (by subst hf; rfl) (by subst hf; rfl) (by subst hf; rfl)
  simp only [decodeFields, dFlt, hop, ho]
  subst hf
  simp [eOpC, eF]

theorem RoundTrip.fcmpUno (o : OpC) : RoundTrip.Statement (.fcmpUno o) := by
  refine RoundTrip.ofWord _ _ rfl (fun hw => ?_)
  refine decode_of _ _ _ (by decide : opX 0x36 = some false) ?_
  generalize hf : (eOpC 0x36 7 o).f = f
  have hop : f.op = 0x36 := by subst hf; rfl
  have hw : (o.ok tysFlt : Bool) = true := hw
  have ho := dOpC_enc _ o hw f (by subst hf; rfl) (by subst hf; rfl) (by subst hf; rfl) (by subst hf; rfl) (by subst hf; rfl) (by subst hf; rfl) (by subst hf; rfl) (by subst hf; rfl) (by subst hf; rfl) (by subst hf; rfl)
  simp only [decodeFields, dFlt, hop, ho]
  subst hf
  simp [eOpC, eF]

theorem RoundTrip.fcls (o : Op1) : RoundTrip.Statement (.fcls o) := by
  refine RoundTrip.ofWord _ _ rfl (fun hw => ?_)
  refine decode_of _ _ _ (by decide : opX 0x37 = some false) ?_
  dsimp only
  generalize hf : eOp1 0x37 0 o = f
  have hop : f.op = 0x37 := by subst hf; rfl
  have hw : (o.ok tysFlt id false : Bool) = true := hw
  have ho := dOp1_enc _ _ o hw f (by subst hf; rfl) (by subst hf; rfl) (by subst hf; rfl) (by subst hf; rfl) (by subst hf; rfl) (by subst hf; rfl) (by subst hf; rfl)
  have hm : f.mod0 = true := by subst hf; exact f1_mod _ hw
  have hb : f.b = 0 := by subst hf; rfl
  have hc : f.c = 0 := by subst hf; rfl
  have hfn : f.fn = 0 := by subst hf; rfl
  simp only [decodeFields, dFlt, hop, ho, hm, hb, hc, hfn, need]
  rfl

theorem RoundTrip.frnd (r : Rm) (o : Op1) : RoundTrip.Statement (.frnd r o) := by
  refine RoundTrip.ofWord _ _ rfl (fun hw => ?_)
  refine decode_of _ _ _ (by decide : opX 0x38 = some false) ?_
  dsimp only
  generalize hf : (eOp1 0x38 0 o).withRm r = f
  have hop : f.op = 0x38 := by subst hf; rfl
  have hw : (o.ok tysFlt id true : Bool) = true := hw
  have ho := dOp1_enc _ _ o hw f (by subst hf; rfl) (by subst hf; rfl) (by subst hf; rfl) (by subst hf; rfl) (by subst hf; rfl) (by subst hf; rfl) (by subst hf; rfl)
  simp only [decodeFields, dFlt, hop, ho]
  subst hf
  simp [eOp1, need, Fld.mod53, Fld.modRnd, Fld.rm, eF, Fld.withRm]

theorem RoundTrip.fdiv (r : Rm) (s : Bool) (o : Op2) : RoundTrip.Statement (.fdiv r s o) := by
  refine RoundTrip.ofWord _ _ rfl (fun hw => ?_)
  refine decode_of _ _ _ (by decide : opX 0x39 = some false) ?_
  dsimp only
  generalize hf : ((eOp2 0x39 0 o).withRm r).withSat s = f
  have hop : f.op = 0x39 := by subst hf; rfl
  have hw : (o.ok tysFlt id : Bool) = true := hw
  have ho := dOp2_enc _ _ o hw f (by subst hf; rfl) (by subst hf; rfl) (by subst hf; rfl) (by subst hf; rfl) (by subst hf; rfl) (by subst hf; rfl) (by subst hf; rfl) (by subst hf; rfl)
  simp only [decodeFields, dFlt, hop, ho]
  subst hf
  simp [eOp2, need, Fld.mod53, Fld.rm, eF, Fld.withRm, Fld.withSat]

theorem RoundTrip.fsqrt (r : Rm) (o : Op1) : RoundTrip.Statement (.fsqrt r o) := by
  refine RoundTrip.ofWord _ _ rfl (fun hw => ?_)
  refine decode_of _ _ _ (by decide : opX 0x3A = some false) ?_
  dsimp only
  generalize hf : (eOp1 0x3A 0 o).withRm r = f
  have hop : f.op = 0x3A := by subst hf; rfl
  have hw : (o.ok tysFlt id true : Bool) = true := hw
  have ho := dOp1_enc _ _ o hw f (by subst hf; rfl) (by subst hf; rfl) (by subst hf; rfl) (by subst hf; rfl) (by subst hf; rfl) (by subst hf; rfl) (by subst hf; rfl)
  simp only [decodeFields, dFlt, hop, ho]
  subst hf
  simp [eOp1, need, Fld.mod53, Fld.modRnd, Fld.rm, eF, Fld.withRm]

theorem RoundTrip.frcp (r : Rm) (o : Op1) : RoundTrip.Statement (.frcp r o) := by
  refine RoundTrip.ofWord _ _ rfl (fun hw => ?_)
  refine decode_of _ _ _ (by decide : opX 0x3B = some false) ?_
  dsimp only
  generalize hf : (eOp1 0x3B 0 o).withRm r = f
  have hop : f.op = 0x3B := by subst hf; rfl
  have hw : (o.ok tysFlt id true : Bool) = true := hw
  have ho := dOp1_enc _ _ o hw f (by subst hf; rfl) (by subst hf; rfl) (by subst hf; rfl) (by subst hf; rfl) (by subst hf; rfl) (by subst hf; rfl) (by subst hf; rfl)
  simp only [decodeFields, dFlt, hop, ho]
  subst hf
  simp [eOp1, need, Fld.mod53, Fld.modRnd, Fld.rm, eF, Fld.withRm]

theorem RoundTrip.frsq (r : Rm) (o : Op1) : RoundTrip.Statement (.frsq r o) := by
  refine RoundTrip.ofWord _ _ rfl (fun hw => ?_)
  refine decode_of _ _ _ (by decide : opX 0x3C = some false) ?_
  dsimp only
  generalize hf : (eOp1 0x3C 0 o).withRm r = f
  have hop : f.op = 0x3C := by subst hf; rfl
  have hw : (o.ok tysFlt id true : Bool) = true := hw
  have ho := dOp1_enc _ _ o hw f (by subst hf; rfl) (by subst hf; rfl) (by subst hf; rfl) (by subst hf; rfl) (by subst hf; rfl) (by subst hf; rfl) (by subst hf; rfl)
  simp only [decodeFields, dFlt, hop, ho]
  subst hf
  simp [eOp1, need, Fld.mod53, Fld.modRnd, Fld.rm, eF, Fld.withRm]

theorem RoundTrip.fex2 (r : Rm) (o : Op1) : RoundTrip.Statement (.fex2 r o) := by
  refine RoundTrip.ofWord _ _ rfl (fun hw => ?_)
  refine decode_of _ _ _ (by decide : opX 0x3D = some false) ?_
  dsimp only
  generalize hf : (eOp1 0x3D 0 o).withRm r = f
  have hop : f.op = 0x3D := by subst hf; rfl
  have hw : (o.ok tysFlt id true : Bool) = true := hw
  have ho := dOp1_enc _ _ o hw f (by subst hf; rfl) (by subst hf; rfl) (by subst hf; rfl) (by subst hf; rfl) (by subst hf; rfl) (by subst hf; rfl) (by subst hf; rfl)
  simp only [decodeFields, dFlt, hop, ho]
  subst hf
  simp [eOp1, need, Fld.mod53, Fld.modRnd, Fld.rm, eF, Fld.withRm]

theorem RoundTrip.flg2 (r : Rm) (o : Op1) : RoundTrip.Statement (.flg2 r o) := by
  refine RoundTrip.ofWord _ _ rfl (fun hw => ?_)
  refine decode_of _ _ _ (by decide : opX 0x3E = some false) ?_
  dsimp only
  generalize hf : (eOp1 0x3E 0 o).withRm r = f
  have hop : f.op = 0x3E := by subst hf; rfl
  have hw : (o.ok tysFlt id true : Bool) = true := hw
  have ho := dOp1_enc _ _ o hw f (by subst hf; rfl) (by subst hf; rfl) (by subst hf; rfl) (by subst hf; rfl) (by subst hf; rfl) (by subst hf; rfl) (by subst hf; rfl)
  simp only [decodeFields, dFlt, hop, ho]
  subst hf
  simp [eOp1, need, Fld.mod53, Fld.modRnd, Fld.rm, eF, Fld.withRm]

theorem RoundTrip.ftrigSin (r : Rm) (o : Op1) : RoundTrip.Statement (.ftrigSin r o) := by
  refine RoundTrip.ofWord _ _ rfl (fun hw => ?_)
  refine decode_of _ _ _ (by decide : opX 0x3F = some false) ?_
  dsimp only
  generalize hf : (eOp1 0x3F 0 o).withRm r = f
  have hop : f.op = 0x3F := by subst hf; rfl
  have hw : (o.ok tysFlt id true : Bool) = true := hw
  have ho := dOp1_enc _ _ o hw f (by subst hf; rfl) (by subst hf; rfl) (by subst hf; rfl) (by subst hf; rfl) (by subst hf; rfl) (by subst hf; rfl) (by subst hf; rfl)
  simp only [decodeFields, dFlt, hop, ho]
  subst hf
  simp [eOp1, need, Fld.mod53, Fld.modRnd, Fld.rm, eF, Fld.withRm]

theorem RoundTrip.ftrigCos (r : Rm) (o : Op1) : RoundTrip.Statement (.ftrigCos r o) := by
  refine RoundTrip.ofWord _ _ rfl (fun hw => ?_)
  refine decode_of _ _ _ (by decide : opX 0x3F = some false) ?_
  dsimp only
  generalize hf : (eOp1 0x3F 1 o).withRm r = f
  have hop : f.op = 0x3F := by subst hf; rfl
  have hw : (o.ok tysFlt id true : Bool) = true := hw
  have ho := dOp1_enc _ _ o hw f (by subst hf; rfl) (by subst hf; rfl) (by subst hf; rfl) (by subst hf; rfl) (by subst hf; rfl) (by subst hf; rfl) (by subst hf; rfl)
  simp only [decodeFields, dFlt, hop, ho]
  subst hf
  simp [eOp1, need, Fld.mod53, Fld.modRnd, Fld.rm, eF, Fld.withRm]

theorem RoundTrip.fexp (o : Op1) : RoundTrip.Statement (.fexp o) := by
  refine RoundTrip.ofWord _ _ rfl (fun hw => ?_)
  refine decode_of _ _ _ (by decide : opX 0x44 = some false) ?_
  dsimp only
  generalize hf : eOp1 0x44 0 o = f
  have hop : f.op = 0x44 := by subst hf; rfl
  have hw : (o.ok tysFlt id false : Bool) = true := hw
  have ho := dOp1_enc _ _ o hw f (by subst hf; rfl) (by subst hf; rfl) (by subst hf; rfl) (by subst hf; rfl) (by subst hf; rfl) (by subst hf; rfl) (by subst hf; rfl)
  have hm : f.mod0 = true := by subst hf; exact f1_mod _ hw
  have hb : f.b = 0 := by subst hf; rfl
  have hc : f.c = 0 := by subst hf; rfl
  have hfn : f.fn = 0 := by subst hf; rfl
  simp only [decodeFields, dFlt, hop, ho, hm, hb, hc, hfn, need]
  rfl

theorem RoundTrip.cvt (r : Rm) (s : Bool) (o : OpCvt) : RoundTrip.Statement (.cvt r s o) := by
  refine RoundTrip.ofWord _ _ rfl (fun hw => ?_)
  refine decode_of _ _ _ (by decide : opX 0x40 = some false) ?_
  have hw : o.ok r s = true := hw
  obtain ⟨f, hf⟩ : ∃ f, f = ({ eF 0x40 with u := !o.d.isVec, d := o.d.code, a := o.a.code, c := o.src.code, k := o.k, ty := o.dst.tyCode, m7 := bcBit (!o.d.isVec) o.a, m5 := o.dst.b5, m4 := o.dst.b4, m3 := o.src.b3, m2 := s, m1 := r.b1, m0 := r.b0 } : Fld) := ⟨_, rfl⟩
  have h0 : f.fn = 0 := by subst hf; rfl
  have h1 : f.ty = o.dst.tyCode := by subst hf; rfl
  have h2 : f.b = 0 := by subst hf; rfl
  have h3 : f.m6 = false := by subst hf; rfl
  have h4 : f.u = !o.d.isVec := by subst hf; rfl
  have h5 : f.m7 = bcBit (!o.d.isVec) o.a := by subst hf; rfl
  have h6 : f.c = o.src.code := by subst hf; rfl
  have h7 : f.m3 = o.src.b3 := by subst hf; rfl
  have h8 : f.m5 = o.dst.b5 := by subst hf; rfl
  have h9 : f.m4 = o.dst.b4 := by subst hf; rfl
  have h10 : f.d = o.d.code := by subst hf; rfl
  have h11 : f.a = o.a.code := by subst hf; rfl
  have h12 : f.k = o.k := by subst hf; rfl
  have h13 : f.m2 = s := by subst hf; rfl
  have h14 : f.op = 0x40 := by subst hf; rfl
  have hr : f.rm = r := by rw [hf]; exact Rm.of_bits r
  dsimp only
  rw [← hf]
  clear hf
  have hw' := hw
  simp only [OpCvt.ok, Bool.and_eq_true] at hw
  obtain ⟨⟨⟨⟨⟨g1, g2⟩, g3⟩, g4⟩, g5⟩, g6⟩ := hw
  obtain ⟨t, e1, e2⟩ := cvtDstOf_code o.dst g1
  have ea : srcOf (!o.d.isVec || bcBit (!o.d.isVec) o.a) o.src.ty o.a.code = some o.a := by
    have := srcOf_code o.src.ty o.a g3
    cases hd : o.d.isVec <;> cases ha : o.a.isVec <;> simp_all [bcBit]
  have eu : (!o.d.isVec && bcBit (!o.d.isVec) o.a) = false := by cases o.d.isVec <;> rfl
  simp only [decodeFields, dFlt, dCvt, h0, h1, h2, h3, h4, h5, h6, h7, h8, h9, h10, h11, h12, h13, h14, hr, need, e1, e2, cvtSrcOf_code _ g2, dstOf_code, ea, eu,
    Option.bind_eq_bind, Option.bind_some, hw']
  rfl

theorem RoundTrip.pack (n : BitVec 2) (o : Op1) : RoundTrip.Statement (.pack n o) := by
  refine RoundTrip.ofWord _ _ rfl (fun hw => ?_)
  refine decode_of _ _ _ (by decide : opX 0x41 = some false) ?_
  dsimp only
  generalize hf : (eOp1 0x41 0 o).withB (n.setWidth 8) = f
  have hop : f.op = 0x41 := by subst hf; rfl
  have hw : (o.ok tysPack id false && (o.ty.bytes == 1 || n.toNat < 2) : Bool) = true := hw
  rw [Bool.and_eq_true] at hw
  have ho := dOp1_enc _ _ o hw.1 f (by subst hf; rfl) (by subst hf; rfl) (by subst hf; rfl) (by subst hf; rfl) (by subst hf; rfl) (by subst hf; rfl) (by subst hf; rfl)
  simp only [decodeFields, dFlt, hop, ho]
  have hm7 : f.b = n.setWidth 8 := by subst hf; rfl
  have hc : f.c = 0 := by subst hf; rfl
  have hfn : f.fn = 0 := by subst hf; rfl
  have hm : f.mod0 = true := by subst hf; exact pack_mod _ hw.1 _
  simp only [hm7, hc, hfn, hm, two_set, need, Option.bind_eq_bind, Option.bind_some, hw.2]
  rfl

theorem RoundTrip.unpack (n : BitVec 2) (o : Op1) : RoundTrip.Statement (.unpack n o) := by
  refine RoundTrip.ofWord _ _ rfl (fun hw => ?_)
  refine decode_of _ _ _ (by decide : opX 0x42 = some false) ?_
  dsimp only
  generalize hf : (eOp1 0x42 0 o).withB (n.setWidth 8) = f
  have hop : f.op = 0x42 := by subst hf; rfl
  have hw : (o.ok tysPack id false && (o.ty.bytes == 1 || n.toNat < 2) : Bool) = true := hw
  rw [Bool.and_eq_true] at hw
  have ho := dOp1_enc _ _ o hw.1 f (by subst hf; rfl) (by subst hf; rfl) (by subst hf; rfl) (by subst hf; rfl) (by subst hf; rfl) (by subst hf; rfl) (by subst hf; rfl)
  simp only [decodeFields, dFlt, hop, ho]
  have hm7 : f.b = n.setWidth 8 := by subst hf; rfl
  have hc : f.c = 0 := by subst hf; rfl
  have hfn : f.fn = 0 := by subst hf; rfl
  have hm : f.mod0 = true := by subst hf; exact pack_mod _ hw.1 _
  simp only [hm7, hc, hfn, hm, two_set, need, Option.bind_eq_bind, Option.bind_some, hw.2]
  rfl

theorem RoundTrip.shflIdx (o : OpShfl) : RoundTrip.Statement (.shflIdx o) := by
  refine RoundTrip.ofWord _ _ rfl (fun hw => ?_)
  refine decode_of _ _ _ (by decide : opX 0x50 = some false) ?_
  have hw : (tysMove.contains o.ty && o.b.ok .n32 : Bool) = true := hw
  have hop : ((eShfl 0 o).f).op = 0x50 := rfl
  have h1 : dOpShfl ((eShfl 0 o).f) = some o := dOpShfl_enc _ _ hw
  have h2 : ((eShfl 0 o).f).u = false := rfl
  have h3 : ((eShfl 0 o).f).fn = 0 := rfl
  change decodeFields ((eShfl 0 o).f) (Ext.of _) _ = _
  generalize ((eShfl 0 o).f) = f at hop h1 h2 h3 ⊢
  simp only [decodeFields, dLane, hop, h1, h2, h3, need]
  rfl

theorem RoundTrip.shflXor (o : OpShfl) : RoundTrip.Statement (.shflXor o) := by
  refine RoundTrip.ofWord _ _ rfl (fun hw => ?_)
  refine decode_of _ _ _ (by decide : opX 0x50 = some false) ?_
  have hw : (tysMove.contains o.ty && o.b.ok .n32 : Bool) = true := hw
  have hop : ((eShfl 1 o).f).op = 0x50 := rfl
  have h1 : dOpShfl ((eShfl 1 o).f) = some o := dOpShfl_enc _ _ hw
  have h2 : ((eShfl 1 o).f).u = false := rfl
  have h3 : ((eShfl 1 o).f).fn = 1 := rfl
  change decodeFields ((eShfl 1 o).f) (Ext.of _) _ = _
  generalize ((eShfl 1 o).f) = f at hop h1 h2 h3 ⊢
  simp only [decodeFields, dLane, hop, h1, h2, h3, need]
  rfl

theorem RoundTrip.shflUp (o : OpShfl) : RoundTrip.Statement (.shflUp o) := by
  refine RoundTrip.ofWord _ _ rfl (fun hw => ?_)
  refine decode_of _ _ _ (by decide : opX 0x50 = some false) ?_
  have hw : (tysMove.contains o.ty && o.b.ok .n32 : Bool) = true := hw
  have hop : ((eShfl 2 o).f).op = 0x50 := rfl
  have h1 : dOpShfl ((eShfl 2 o).f) = some o := dOpShfl_enc _ _ hw
  have h2 : ((eShfl 2 o).f).u = false := rfl
  have h3 : ((eShfl 2 o).f).fn = 2 := rfl
  change decodeFields ((eShfl 2 o).f) (Ext.of _) _ = _
  generalize ((eShfl 2 o).f) = f at hop h1 h2 h3 ⊢
  simp only [decodeFields, dLane, hop, h1, h2, h3, need]
  rfl

theorem RoundTrip.shflDown (o : OpShfl) : RoundTrip.Statement (.shflDown o) := by
  refine RoundTrip.ofWord _ _ rfl (fun hw => ?_)
  refine decode_of _ _ _ (by decide : opX 0x50 = some false) ?_
  have hw : (tysMove.contains o.ty && o.b.ok .n32 : Bool) = true := hw
  have hop : ((eShfl 3 o).f).op = 0x50 := rfl
  have h1 : dOpShfl ((eShfl 3 o).f) = some o := dOpShfl_enc _ _ hw
  have h2 : ((eShfl 3 o).f).u = false := rfl
  have h3 : ((eShfl 3 o).f).fn = 3 := rfl
  change decodeFields ((eShfl 3 o).f) (Ext.of _) _ = _
  generalize ((eShfl 3 o).f) = f at hop h1 h2 h3 ⊢
  simp only [decodeFields, dLane, hop, h1, h2, h3, need]
  rfl

theorem RoundTrip.bcast (o : OpBcast) : RoundTrip.Statement (.bcast o) := by
  refine RoundTrip.ofWord _ _ rfl (fun hw => ?_)
  refine decode_of _ _ _ (by decide : opX 0x51 = some false) ?_
  have hw : (tysMove.contains o.ty : Bool) = true := hw
  simp_all [decodeFields, dLane, need, Fld.fnu, eF]
  obtain ⟨k, ty, d, a, n⟩ := o
  cases n with
  | lit n => have := n.isLt; simp; rw [if_pos (by omega)]; rfl
  | sca r => simp

theorem RoundTrip.scanAdd (r : Rm) (s : Bool) (o : OpScan) : RoundTrip.Statement (.scanAdd r s o) := by
  refine RoundTrip.ofWord _ _ rfl (fun hw => ?_)
  refine decode_of _ _ _ (by decide : opX 0x52 = some false) ?_
  have hw : (tysScanNum.contains o.ty && o.a.ok o.ty && (if o.ty.isFloat then !s else r == .near) : Bool) = true := hw
  have hop : (((eScan 0 o).withRm r).withSat s).op = 0x52 := rfl
  have h1 : dScan tysScanNum (((eScan 0 o).withRm r).withSat s) = some o := dScan_enc _ _ (by rw [Bool.and_eq_true] at hw; exact hw.1) _ rfl rfl rfl rfl rfl rfl rfl rfl rfl rfl rfl
  have h2 : (((eScan 0 o).withRm r).withSat s).u = false := rfl
  have h3 : (((eScan 0 o).withRm r).withSat s).fn = 0 := rfl
  have h4 : (((eScan 0 o).withRm r).withSat s).m2 = s := rfl
  have h5 : (((eScan 0 o).withRm r).withSat s).m1 = r.b1 := rfl
  have h6 : (((eScan 0 o).withRm r).withSat s).m0 = r.b0 := rfl
  have h7 : (((eScan 0 o).withRm r).withSat s).rm = r := Rm.of_bits r
  change decodeFields (((eScan 0 o).withRm r).withSat s) (Ext.of _) _ = _
  generalize (((eScan 0 o).withRm r).withSat s) = f at hop h1 h2 h3 h4 h5 h6 h7 ⊢
  simp only [decodeFields, dLane, hop, h1, h2, h3, h4, h5, h6, h7, need]
  cases hf : o.ty.isFloat <;> cases r <;> simp_all [Rm.b1, Rm.b0]

theorem RoundTrip.scanMin (o : OpScan) : RoundTrip.Statement (.scanMin o) := by
  refine RoundTrip.ofWord _ _ rfl (fun hw => ?_)
  refine decode_of _ _ _ (by decide : opX 0x52 = some false) ?_
  have hw : (tysScanNum.contains o.ty && o.a.ok o.ty : Bool) = true := hw
  have hop : (eScan 1 o).op = 0x52 := rfl
  have h1 : dScan tysScanNum (eScan 1 o) = some o := dScan_enc _ _ hw _ rfl rfl rfl rfl rfl rfl rfl rfl rfl rfl rfl
  have h2 : (eScan 1 o).u = false := rfl
  have h3 : (eScan 1 o).fn = 1 := rfl
  have h4 : (eScan 1 o).mod50 = true := rfl
  change decodeFields (eScan 1 o) (Ext.of _) _ = _
  generalize (eScan 1 o) = f at hop h1 h2 h3 h4 ⊢
  simp only [decodeFields, dLane, hop, h1, h2, h3, h4, need]
  rfl

theorem RoundTrip.scanMax (o : OpScan) : RoundTrip.Statement (.scanMax o) := by
  refine RoundTrip.ofWord _ _ rfl (fun hw => ?_)
  refine decode_of _ _ _ (by decide : opX 0x52 = some false) ?_
  have hw : (tysScanNum.contains o.ty && o.a.ok o.ty : Bool) = true := hw
  have hop : (eScan 2 o).op = 0x52 := rfl
  have h1 : dScan tysScanNum (eScan 2 o) = some o := dScan_enc _ _ hw _ rfl rfl rfl rfl rfl rfl rfl rfl rfl rfl rfl
  have h2 : (eScan 2 o).u = false := rfl
  have h3 : (eScan 2 o).fn = 2 := rfl
  have h4 : (eScan 2 o).mod50 = true := rfl
  change decodeFields (eScan 2 o) (Ext.of _) _ = _
  generalize (eScan 2 o) = f at hop h1 h2 h3 h4 ⊢
  simp only [decodeFields, dLane, hop, h1, h2, h3, h4, need]
  rfl

theorem RoundTrip.scanAnd (o : OpScan) : RoundTrip.Statement (.scanAnd o) := by
  refine RoundTrip.ofWord _ _ rfl (fun hw => ?_)
  refine decode_of _ _ _ (by decide : opX 0x52 = some false) ?_
  have hw : (tysBit.contains o.ty && o.a.ok o.ty : Bool) = true := hw
  have hop : (eScan 3 o).op = 0x52 := rfl
  have h1 : dScan tysBit (eScan 3 o) = some o := dScan_enc _ _ hw _ rfl rfl rfl rfl rfl rfl rfl rfl rfl rfl rfl
  have h2 : (eScan 3 o).u = false := rfl
  have h3 : (eScan 3 o).fn = 3 := rfl
  have h4 : (eScan 3 o).mod50 = true := rfl
  change decodeFields (eScan 3 o) (Ext.of _) _ = _
  generalize (eScan 3 o) = f at hop h1 h2 h3 h4 ⊢
  simp only [decodeFields, dLane, hop, h1, h2, h3, h4, need]
  rfl

theorem RoundTrip.scanOr (o : OpScan) : RoundTrip.Statement (.scanOr o) := by
  refine RoundTrip.ofWord _ _ rfl (fun hw => ?_)
  refine decode_of _ _ _ (by decide : opX 0x52 = some false) ?_
  have hw : (tysBit.contains o.ty && o.a.ok o.ty : Bool) = true := hw
  have hop : (eScan 4 o).op = 0x52 := rfl
  have h1 : dScan tysBit (eScan 4 o) = some o := dScan_enc _ _ hw _ rfl rfl rfl rfl rfl rfl rfl rfl rfl rfl rfl
  have h2 : (eScan 4 o).u = false := rfl
  have h3 : (eScan 4 o).fn = 4 := rfl
  have h4 : (eScan 4 o).mod50 = true := rfl
  change decodeFields (eScan 4 o) (Ext.of _) _ = _
  generalize (eScan 4 o) = f at hop h1 h2 h3 h4 ⊢
  simp only [decodeFields, dLane, hop, h1, h2, h3, h4, need]
  rfl

theorem RoundTrip.scanXor (o : OpScan) : RoundTrip.Statement (.scanXor o) := by
  refine RoundTrip.ofWord _ _ rfl (fun hw => ?_)
  refine decode_of _ _ _ (by decide : opX 0x52 = some false) ?_
  have hw : (tysBit.contains o.ty && o.a.ok o.ty : Bool) = true := hw
  have hop : (eScan 5 o).op = 0x52 := rfl
  have h1 : dScan tysBit (eScan 5 o) = some o := dScan_enc _ _ hw _ rfl rfl rfl rfl rfl rfl rfl rfl rfl rfl rfl
  have h2 : (eScan 5 o).u = false := rfl
  have h3 : (eScan 5 o).fn = 5 := rfl
  have h4 : (eScan 5 o).mod50 = true := rfl
  change decodeFields (eScan 5 o) (Ext.of _) _ = _
  generalize (eScan 5 o) = f at hop h1 h2 h3 h4 ⊢
  simp only [decodeFields, dLane, hop, h1, h2, h3, h4, need]
  rfl

theorem RoundTrip.redAdd (r : Rm) (s : Bool) (o : OpRed) : RoundTrip.Statement (.redAdd r s o) := by
  refine RoundTrip.ofWord _ _ rfl (fun hw => ?_)
  refine decode_of _ _ _ (by decide : opX 0x53 = some false) ?_
  have hw : (tysScanNum.contains o.ty && o.a.ok o.ty && (if o.ty.isFloat then !s else r == .near) : Bool) = true := hw
  have hop : (((eRed 0 o).withRm r).withSat s).op = 0x53 := rfl
  have h1 : dRed tysScanNum (((eRed 0 o).withRm r).withSat s) = some o := dRed_enc _ _ (by rw [Bool.and_eq_true] at hw; exact hw.1) _ rfl rfl rfl rfl rfl rfl rfl rfl rfl rfl rfl
  have h2 : (((eRed 0 o).withRm r).withSat s).u = false := rfl
  have h3 : (((eRed 0 o).withRm r).withSat s).fn = 0 := rfl
  have h4 : (((eRed 0 o).withRm r).withSat s).m2 = s := rfl
  have h5 : (((eRed 0 o).withRm r).withSat s).m1 = r.b1 := rfl
  have h6 : (((eRed 0 o).withRm r).withSat s).m0 = r.b0 := rfl
  have h7 : (((eRed 0 o).withRm r).withSat s).rm = r := Rm.of_bits r
  change decodeFields (((eRed 0 o).withRm r).withSat s) (Ext.of _) _ = _
  generalize (((eRed 0 o).withRm r).withSat s) = f at hop h1 h2 h3 h4 h5 h6 h7 ⊢
  simp only [decodeFields, dLane, hop, h1, h2, h3, h4, h5, h6, h7, need]
  cases hf : o.ty.isFloat <;> cases r <;> simp_all [Rm.b1, Rm.b0]

theorem RoundTrip.redMin (o : OpRed) : RoundTrip.Statement (.redMin o) := by
  refine RoundTrip.ofWord _ _ rfl (fun hw => ?_)
  refine decode_of _ _ _ (by decide : opX 0x53 = some false) ?_
  have hw : (tysScanNum.contains o.ty && o.a.ok o.ty : Bool) = true := hw
  have hop : (eRed 1 o).op = 0x53 := rfl
  have h1 : dRed tysScanNum (eRed 1 o) = some o := dRed_enc _ _ hw _ rfl rfl rfl rfl rfl rfl rfl rfl rfl rfl rfl
  have h2 : (eRed 1 o).u = false := rfl
  have h3 : (eRed 1 o).fn = 1 := rfl
  have h4 : (eRed 1 o).m2 = false := rfl
  have h5 : (eRed 1 o).m1 = false := rfl
  have h6 : (eRed 1 o).m0 = false := rfl
  change decodeFields (eRed 1 o) (Ext.of _) _ = _
  generalize (eRed 1 o) = f at hop h1 h2 h3 h4 h5 h6 ⊢
  simp only [decodeFields, dLane, hop, h1, h2, h3, h4, h5, h6, need]
  rfl

theorem RoundTrip.redMax (o : OpRed) : RoundTrip.Statement (.redMax o) := by
  refine RoundTrip.ofWord _ _ rfl (fun hw => ?_)
  refine decode_of _ _ _ (by decide : opX 0x53 = some false) ?_
  have hw : (tysScanNum.contains o.ty && o.a.ok o.ty : Bool) = true := hw
  have hop : (eRed 2 o).op = 0x53 := rfl
  have h1 : dRed tysScanNum (eRed 2 o) = some o := dRed_enc _ _ hw _ rfl rfl rfl rfl rfl rfl rfl rfl rfl rfl rfl
  have h2 : (eRed 2 o).u = false := rfl
  have h3 : (eRed 2 o).fn = 2 := rfl
  have h4 : (eRed 2 o).m2 = false := rfl
  have h5 : (eRed 2 o).m1 = false := rfl
  have h6 : (eRed 2 o).m0 = false := rfl
  change decodeFields (eRed 2 o) (Ext.of _) _ = _
  generalize (eRed 2 o) = f at hop h1 h2 h3 h4 h5 h6 ⊢
  simp only [decodeFields, dLane, hop, h1, h2, h3, h4, h5, h6, need]
  rfl

theorem RoundTrip.redAnd (o : OpRed) : RoundTrip.Statement (.redAnd o) := by
  refine RoundTrip.ofWord _ _ rfl (fun hw => ?_)
  refine decode_of _ _ _ (by decide : opX 0x53 = some false) ?_
  have hw : (tysBit.contains o.ty && o.a.ok o.ty : Bool) = true := hw
  have hop : (eRed 3 o).op = 0x53 := rfl
  have h1 : dRed tysBit (eRed 3 o) = some o := dRed_enc _ _ hw _ rfl rfl rfl rfl rfl rfl rfl rfl rfl rfl rfl
  have h2 : (eRed 3 o).u = false := rfl
  have h3 : (eRed 3 o).fn = 3 := rfl
  have h4 : (eRed 3 o).m2 = false := rfl
  have h5 : (eRed 3 o).m1 = false := rfl
  have h6 : (eRed 3 o).m0 = false := rfl
  change decodeFields (eRed 3 o) (Ext.of _) _ = _
  generalize (eRed 3 o) = f at hop h1 h2 h3 h4 h5 h6 ⊢
  simp only [decodeFields, dLane, hop, h1, h2, h3, h4, h5, h6, need]
  rfl

theorem RoundTrip.redOr (o : OpRed) : RoundTrip.Statement (.redOr o) := by
  refine RoundTrip.ofWord _ _ rfl (fun hw => ?_)
  refine decode_of _ _ _ (by decide : opX 0x53 = some false) ?_
  have hw : (tysBit.contains o.ty && o.a.ok o.ty : Bool) = true := hw
  have hop : (eRed 4 o).op = 0x53 := rfl
  have h1 : dRed tysBit (eRed 4 o) = some o := dRed_enc _ _ hw _ rfl rfl rfl rfl rfl rfl rfl rfl rfl rfl rfl
  have h2 : (eRed 4 o).u = false := rfl
  have h3 : (eRed 4 o).fn = 4 := rfl
  have h4 : (eRed 4 o).m2 = false := rfl
  have h5 : (eRed 4 o).m1 = false := rfl
  have h6 : (eRed 4 o).m0 = false := rfl
  change decodeFields (eRed 4 o) (Ext.of _) _ = _
  generalize (eRed 4 o) = f at hop h1 h2 h3 h4 h5 h6 ⊢
  simp only [decodeFields, dLane, hop, h1, h2, h3, h4, h5, h6, need]
  rfl

theorem RoundTrip.redXor (o : OpRed) : RoundTrip.Statement (.redXor o) := by
  refine RoundTrip.ofWord _ _ rfl (fun hw => ?_)
  refine decode_of _ _ _ (by decide : opX 0x53 = some false) ?_
  have hw : (tysBit.contains o.ty && o.a.ok o.ty : Bool) = true := hw
  have hop : (eRed 5 o).op = 0x53 := rfl
  have h1 : dRed tysBit (eRed 5 o) = some o := dRed_enc _ _ hw _ rfl rfl rfl rfl rfl rfl rfl rfl rfl rfl rfl
  have h2 : (eRed 5 o).u = false := rfl
  have h3 : (eRed 5 o).fn = 5 := rfl
  have h4 : (eRed 5 o).m2 = false := rfl
  have h5 : (eRed 5 o).m1 = false := rfl
  have h6 : (eRed 5 o).m0 = false := rfl
  change decodeFields (eRed 5 o) (Ext.of _) _ = _
  generalize (eRed 5 o) = f at hop h1 h2 h3 h4 h5 h6 ⊢
  simp only [decodeFields, dLane, hop, h1, h2, h3, h4, h5, h6, need]
  rfl

theorem RoundTrip.matchEq (k : BitVec 4) (wide : Bool) (d : BitVec 8) (a : BitVec 8) : RoundTrip.Statement (.matchEq k wide d a) := by
  refine RoundTrip.ofWord _ _ rfl (fun hw => ?_)
  refine decode_of _ _ _ (by decide : opX 0x54 = some false) ?_
  simp_all [decodeFields, dLane, need, Fld.mod0, Fld.mod50, Fld.fnu, eF]
  cases wide <;> rfl

theorem RoundTrip.lanes (k : BitVec 4) (wide : Bool) (d : BitVec 4) (a : BitVec 8) : RoundTrip.Statement (.lanes k wide d a) := by
  refine RoundTrip.ofWord _ _ rfl (fun hw => ?_)
  refine decode_of _ _ _ (by decide : opX 0x55 = some false) ?_
  simp_all [decodeFields, dLane, need, Fld.mod0, Fld.mod50, Fld.fnu, eF]
  cases wide <;> rfl

theorem RoundTrip.kand (d : MX) (a : MX) (b : MX) : RoundTrip.Statement (.kand d a b) := by
  refine RoundTrip.ofWord _ _ rfl (fun hw => ?_)
  refine decode_of _ _ _ (by decide : opX 0x56 = some false) ?_
  simp_all [decodeFields, dLane, eK, need, Fld.low0, Fld.mod0, Fld.mod50, Fld.fnu, eF]

theorem RoundTrip.kor (d : MX) (a : MX) (b : MX) : RoundTrip.Statement (.kor d a b) := by
  refine RoundTrip.ofWord _ _ rfl (fun hw => ?_)
  refine decode_of _ _ _ (by decide : opX 0x57 = some false) ?_
  simp_all [decodeFields, dLane, eK, need, Fld.low0, Fld.mod0, Fld.mod50, Fld.fnu, eF]

theorem RoundTrip.kxor (d : MX) (a : MX) (b : MX) : RoundTrip.Statement (.kxor d a b) := by
  refine RoundTrip.ofWord _ _ rfl (fun hw => ?_)
  refine decode_of _ _ _ (by decide : opX 0x58 = some false) ?_
  simp_all [decodeFields, dLane, eK, need, Fld.low0, Fld.mod0, Fld.mod50, Fld.fnu, eF]

theorem RoundTrip.kandn (d : MX) (a : MX) (b : MX) : RoundTrip.Statement (.kandn d a b) := by
  refine RoundTrip.ofWord _ _ rfl (fun hw => ?_)
  refine decode_of _ _ _ (by decide : opX 0x59 = some false) ?_
  simp_all [decodeFields, dLane, eK, need, Fld.low0, Fld.mod0, Fld.mod50, Fld.fnu, eF]

theorem RoundTrip.knot (d : MX) (a : MX) : RoundTrip.Statement (.knot d a) := by
  refine RoundTrip.ofWord _ _ rfl (fun hw => ?_)
  refine decode_of _ _ _ (by decide : opX 0x5A = some false) ?_
  simp_all [decodeFields, dLane, eK, need, Fld.low0, Fld.mod0, Fld.mod50, Fld.fnu, eF]

theorem RoundTrip.kmov (o : KmovOp) : RoundTrip.Statement (.kmov o) := by
  cases o <;>
    (refine RoundTrip.ofWord _ _ rfl (fun hw => ?_)
     refine decode_of _ _ _ (by decide : opX 0x5B = some false) ?_
     simp [decodeFields, dLane, eK, need, Fld.fnu, eF])

theorem RoundTrip.kpop (d : BitVec 7) (a : MX) : RoundTrip.Statement (.kpop d a) := by
  refine RoundTrip.ofWord _ _ rfl (fun hw => ?_)
  refine decode_of _ _ _ (by decide : opX 0x5C = some false) ?_
  simp_all [decodeFields, dLane, eK, need, Fld.low0, Fld.mod0, Fld.mod50, Fld.fnu, eF]

theorem RoundTrip.kfind (d : BitVec 7) (a : MX) : RoundTrip.Statement (.kfind d a) := by
  refine RoundTrip.ofWord _ _ rfl (fun hw => ?_)
  refine decode_of _ _ _ (by decide : opX 0x5D = some false) ?_
  simp_all [decodeFields, dLane, eK, need, Fld.low0, Fld.mod0, Fld.mod50, Fld.fnu, eF]

theorem RoundTrip.krank (k : BitVec 4) (d : BitVec 8) (a : MX) : RoundTrip.Statement (.krank k d a) := by
  refine RoundTrip.ofWord _ _ rfl (fun hw => ?_)
  refine decode_of _ _ _ (by decide : opX 0x5E = some false) ?_
  simp_all [decodeFields, dLane, need, Fld.mod0, Fld.mod50, Fld.fnu, eF]

theorem RoundTrip.kset (d : MX) (lo : BitVec 7) (hi : BitVec 7) : RoundTrip.Statement (.kset d lo hi) := by
  refine RoundTrip.ofWord _ _ rfl (fun hw => ?_)
  refine decode_of _ _ _ (by decide : opX 0x5F = some false) ?_
  have hw : (lo.toNat ≤ 64 && hi.toNat ≤ 64 : Bool) = true := hw
  simp_all [decodeFields, dLane, eK, need, Fld.low0, Fld.mod0, Fld.mod50, Fld.fnu, eF]
  rw [if_pos (by omega)]
  rfl

theorem RoundTrip.br (o : BitVec 40) : RoundTrip.Statement (.br o) := by
  refine RoundTrip.ofWord _ _ rfl (fun hw => ?_)
  refine decode_of _ _ _ (by decide : opX 0x60 = some false) ?_
  have hop : ((eJ 0x60 0 o).f).op = 0x60 := rfl
  have h1 : ((eJ 0x60 0 o).f).fnu = true := rfl
  have h2 : ((eJ 0x60 0 o).f).off40 = o := off40_eJ _ _ _
  have h3 : ((eJ 0x60 0 o).f).d = 0 := rfl
  change decodeFields ((eJ 0x60 0 o).f) (Ext.of _) _ = _
  generalize ((eJ 0x60 0 o).f) = f at hop h1 h2 h3 ⊢
  simp only [decodeFields, dFlow, hop, h1, h2, h3, need]
  rfl

theorem RoundTrip.bany (k : BitVec 4) (o : BitVec 40) : RoundTrip.Statement (.bany k o) := by
  refine RoundTrip.ofWord _ _ rfl (fun hw => ?_)
  refine decode_of _ _ _ (by decide : opX 0x61 = some false) ?_
  have hop : ((eJ 0x61 k o).f).op = 0x61 := rfl
  have h1 : ((eJ 0x61 k o).f).fnu = true := rfl
  have h2 : ((eJ 0x61 k o).f).off40 = o := off40_eJ _ _ _
  have h3 : ((eJ 0x61 k o).f).jk = k := jk_eJ _ _ _
  have h4 : ((eJ 0x61 k o).f).d.extractLsb' 0 4 = 0 := dlow_eJ _ _ _
  change decodeFields ((eJ 0x61 k o).f) (Ext.of _) _ = _
  generalize ((eJ 0x61 k o).f) = f at hop h1 h2 h3 h4 ⊢
  simp only [decodeFields, dFlow, hop, h1, h2, h3, h4, need]
  rfl

theorem RoundTrip.ball (k : BitVec 4) (o : BitVec 40) : RoundTrip.Statement (.ball k o) := by
  refine RoundTrip.ofWord _ _ rfl (fun hw => ?_)
  refine decode_of _ _ _ (by decide : opX 0x62 = some false) ?_
  have hop : ((eJ 0x62 k o).f).op = 0x62 := rfl
  have h1 : ((eJ 0x62 k o).f).fnu = true := rfl
  have h2 : ((eJ 0x62 k o).f).off40 = o := off40_eJ _ _ _
  have h3 : ((eJ 0x62 k o).f).jk = k := jk_eJ _ _ _
  have h4 : ((eJ 0x62 k o).f).d.extractLsb' 0 4 = 0 := dlow_eJ _ _ _
  change decodeFields ((eJ 0x62 k o).f) (Ext.of _) _ = _
  generalize ((eJ 0x62 k o).f) = f at hop h1 h2 h3 h4 ⊢
  simp only [decodeFields, dFlow, hop, h1, h2, h3, h4, need]
  rfl

theorem RoundTrip.bnone (k : BitVec 4) (o : BitVec 40) : RoundTrip.Statement (.bnone k o) := by
  refine RoundTrip.ofWord _ _ rfl (fun hw => ?_)
  refine decode_of _ _ _ (by decide : opX 0x63 = some false) ?_
  have hop : ((eJ 0x63 k o).f).op = 0x63 := rfl
  have h1 : ((eJ 0x63 k o).f).fnu = true := rfl
  have h2 : ((eJ 0x63 k o).f).off40 = o := off40_eJ _ _ _
  have h3 : ((eJ 0x63 k o).f).jk = k := jk_eJ _ _ _
  have h4 : ((eJ 0x63 k o).f).d.extractLsb' 0 4 = 0 := dlow_eJ _ _ _
  change decodeFields ((eJ 0x63 k o).f) (Ext.of _) _ = _
  generalize ((eJ 0x63 k o).f) = f at hop h1 h2 h3 h4 ⊢
  simp only [decodeFields, dFlow, hop, h1, h2, h3, h4, need]
  rfl

theorem RoundTrip.brx (a : BitVec 7) : RoundTrip.Statement (.brx a) := by
  refine RoundTrip.ofWord _ _ rfl (fun hw => ?_)
  refine decode_of _ _ _ (by decide : opX 0x6A = some false) ?_
  simp_all [decodeFields, dFlow, eK, need, Fld.low0, Fld.mod0, Fld.mod50, Fld.fnu, eF]

theorem RoundTrip.split (o : BitVec 40) : RoundTrip.Statement (.split o) := by
  refine RoundTrip.ofWord _ _ rfl (fun hw => ?_)
  refine decode_of _ _ _ (by decide : opX 0x64 = some false) ?_
  have hop : ((eJ 0x64 0 o).f).op = 0x64 := rfl
  have h1 : ((eJ 0x64 0 o).f).fnu = true := rfl
  have h2 : ((eJ 0x64 0 o).f).off40 = o := off40_eJ _ _ _
  have h3 : ((eJ 0x64 0 o).f).d = 0 := rfl
  change decodeFields ((eJ 0x64 0 o).f) (Ext.of _) _ = _
  generalize ((eJ 0x64 0 o).f) = f at hop h1 h2 h3 ⊢
  simp only [decodeFields, dFlow, hop, h1, h2, h3, need]
  rfl

theorem RoundTrip.join : RoundTrip.Statement (.join) := by
  refine RoundTrip.ofWord _ _ rfl (fun hw => ?_)
  refine decode_of _ _ _ (by decide : opX 0x65 = some false) ?_
  simp_all [decodeFields, dFlow, need, Fld.bare, Fld.low0, Fld.mod0, Fld.mod50, Fld.fnu, eF]

theorem RoundTrip.call (o : BitVec 40) : RoundTrip.Statement (.call o) := by
  refine RoundTrip.ofWord _ _ rfl (fun hw => ?_)
  refine decode_of _ _ _ (by decide : opX 0x66 = some false) ?_
  have hop : ((eJ 0x66 0 o).f).op = 0x66 := rfl
  have h1 : ((eJ 0x66 0 o).f).fnu = true := rfl
  have h2 : ((eJ 0x66 0 o).f).off40 = o := off40_eJ _ _ _
  have h3 : ((eJ 0x66 0 o).f).d = 0 := rfl
  change decodeFields ((eJ 0x66 0 o).f) (Ext.of _) _ = _
  generalize ((eJ 0x66 0 o).f) = f at hop h1 h2 h3 ⊢
  simp only [decodeFields, dFlow, hop, h1, h2, h3, need]
  rfl

theorem RoundTrip.calli (a : BitVec 8) : RoundTrip.Statement (.calli a) := by
  refine RoundTrip.ofWord _ _ rfl (fun hw => ?_)
  refine decode_of _ _ _ (by decide : opX 0x67 = some false) ?_
  simp_all [decodeFields, dFlow, eK, need, Fld.low0, Fld.mod0, Fld.mod50, Fld.fnu, eF]

theorem RoundTrip.ret : RoundTrip.Statement (.ret) := by
  refine RoundTrip.ofWord _ _ rfl (fun hw => ?_)
  refine decode_of _ _ _ (by decide : opX 0x68 = some false) ?_
  simp_all [decodeFields, dFlow, need, Fld.bare, Fld.low0, Fld.mod0, Fld.mod50, Fld.fnu, eF]

theorem RoundTrip.exit : RoundTrip.Statement (.exit) := by
  refine RoundTrip.ofWord _ _ rfl (fun hw => ?_)
  refine decode_of _ _ _ (by decide : opX 0x69 = some false) ?_
  simp_all [decodeFields, dFlow, need, Fld.bare, Fld.low0, Fld.mod0, Fld.mod50, Fld.fnu, eF]

theorem RoundTrip.barArrive (p : Bool) (a : SC) (b : SC) : RoundTrip.Statement (.barArrive p a b) := by
  refine RoundTrip.ofWord _ _ rfl (fun hw => ?_)
  refine decode_of _ _ _ (by decide : opX 0xB0 = some false) ?_
  have hw : (a.ok barTy && b.ok barTy : Bool) = true := hw
  simp_all [decodeFields, dFlow, need, Fld.modP, eF]
  rw [scOf_code _ _ hw.1]
  dsimp only [Option.bind_some]
  rw [scOf_code _ _ hw.2]
  rfl

theorem RoundTrip.barWait (a : SC) : RoundTrip.Statement (.barWait a) := by
  refine RoundTrip.ofWord _ _ rfl (fun hw => ?_)
  refine decode_of _ _ _ (by decide : opX 0xB0 = some false) ?_
  have hw : (a.ok barTy : Bool) = true := hw
  simp_all [decodeFields, dFlow, need, Fld.modP, eF]
  rw [scOf_code _ _ hw]
  rfl

theorem RoundTrip.barSync (p : Bool) (a : SC) (b : SC) : RoundTrip.Statement (.barSync p a b) := by
  refine RoundTrip.ofWord _ _ rfl (fun hw => ?_)
  refine decode_of _ _ _ (by decide : opX 0xB0 = some false) ?_
  have hw : (a.ok barTy && b.ok barTy : Bool) = true := hw
  simp_all [decodeFields, dFlow, need, Fld.modP, eF]
  rw [scOf_code _ _ hw.1]
  dsimp only [Option.bind_some]
  rw [scOf_code _ _ hw.2]
  rfl

theorem RoundTrip.spawn (q : BitVec 4) (a : BitVec 7) (b : SC) (n : W32) : RoundTrip.Statement (.spawn q a b n) := by
  refine RoundTrip.ofWord _ _ rfl (fun hw => ?_)
  refine decode_of _ _ _ (by decide : opX 0xB1 = some true) ?_
  have hw : (b.ok .n32 && n != 0 : Bool) = true := hw
  simp_all [decodeFields, dFlow, eX, need, Fld.mod0, Fld.mod50, eF]
  rw [scOf_code _ _ hw.1]
  rfl

theorem RoundTrip.spawnL (k : BitVec 4) (q : BitVec 4) (a : BitVec 8) (b : BitVec 8) (n : W32) : RoundTrip.Statement (.spawnL k q a b n) := by
  refine RoundTrip.ofWord _ _ rfl (fun hw => ?_)
  refine decode_of _ _ _ (by decide : opX 0xB1 = some true) ?_
  have hw : (n != 0 : Bool) = true := hw
  simp_all [decodeFields, dFlow, eX, need, Fld.mod0, Fld.mod50, eF]

theorem RoundTrip.childAdmit (ctx : Nat) : RoundTrip.Statement (.childAdmit ctx) := by
  exact RoundTrip.stepOnly _ rfl

theorem RoundTrip.parkedParentReturn (w : Nat) : RoundTrip.Statement (.parkedParentReturn w) := by
  exact RoundTrip.stepOnly _ rfl

theorem RoundTrip.ralloc (n : BitVec 8) : RoundTrip.Statement (.ralloc n) := by
  refine RoundTrip.ofWord _ _ rfl (fun hw => ?_)
  refine decode_of _ _ _ (by decide : opX 0xB2 = some false) ?_
  have hw : (n.toNat % 8 == 0 && 8 ≤ n.toNat : Bool) = true := hw
  have hop : ((eF 0xB2).withImm (n.setWidth 32)).op = 0xB2 := rfl
  have h1 : ((eF 0xB2).withImm (n.setWidth 32)).fnu = true := rfl
  have h2 : ((eF 0xB2).withImm (n.setWidth 32)).d = 0 := rfl
  have h3 : ((eF 0xB2).withImm (n.setWidth 32)).a = 0 := rfl
  have h4 : ((eF 0xB2).withImm (n.setWidth 32)).imm = n.setWidth 32 := Fld.imm_withImm _ _
  change decodeFields ((eF 0xB2).withImm (n.setWidth 32)) (Ext.of _) _ = _
  generalize ((eF 0xB2).withImm (n.setWidth 32)) = f at hop h1 h2 h3 h4 ⊢
  simp only [decodeFields, dFlow, hop, h1, h2, h3, h4, need, imm8_lt, imm8_set, hw]
  rfl

theorem RoundTrip.rfree (n : BitVec 8) : RoundTrip.Statement (.rfree n) := by
  refine RoundTrip.ofWord _ _ rfl (fun hw => ?_)
  refine decode_of _ _ _ (by decide : opX 0xB3 = some false) ?_
  have hw : (n.toNat % 8 == 0 && 8 ≤ n.toNat : Bool) = true := hw
  have hop : ((eF 0xB3).withImm (n.setWidth 32)).op = 0xB3 := rfl
  have h1 : ((eF 0xB3).withImm (n.setWidth 32)).fnu = true := rfl
  have h2 : ((eF 0xB3).withImm (n.setWidth 32)).d = 0 := rfl
  have h3 : ((eF 0xB3).withImm (n.setWidth 32)).a = 0 := rfl
  have h4 : ((eF 0xB3).withImm (n.setWidth 32)).imm = n.setWidth 32 := Fld.imm_withImm _ _
  change decodeFields ((eF 0xB3).withImm (n.setWidth 32)) (Ext.of _) _ = _
  generalize ((eF 0xB3).withImm (n.setWidth 32)) = f at hop h1 h2 h3 h4 ⊢
  simp only [decodeFields, dFlow, hop, h1, h2, h3, h4, need, imm8_lt, imm8_set, hw]
  rfl

theorem RoundTrip.rallocGrant (w : Nat) : RoundTrip.Statement (.rallocGrant w) := by
  exact RoundTrip.stepOnly _ rfl

theorem RoundTrip.wavePark (w : Nat) : RoundTrip.Statement (.wavePark w) := by
  exact RoundTrip.stepOnly _ rfl

theorem RoundTrip.parkedWaveReturn (w : Nat) : RoundTrip.Statement (.parkedWaveReturn w) := by
  exact RoundTrip.stepOnly _ rfl

theorem RoundTrip.yield : RoundTrip.Statement (.yield) := by
  refine RoundTrip.ofWord _ _ rfl (fun hw => ?_)
  refine decode_of _ _ _ (by decide : opX 0xB4 = some false) ?_
  simp_all [decodeFields, dFlow, need, Fld.bare, Fld.low0, Fld.mod0, Fld.mod50, Fld.fnu, eF]

theorem RoundTrip.ld (d : Dst) (m : OpM) : RoundTrip.Statement (.ld d m) := by
  refine RoundTrip.ofWord _ _ rfl (fun hw => ?_)
  refine decode_of _ _ _ (by decide : opX 0x70 = some false) ?_
  have hw : (m.ok && d.isVec == !m.uni : Bool) = true := hw
  have hop : (eM 0x70 0 d.code m).op = 0x70 := rfl
  have h1 : dM (eM 0x70 0 d.code m) = some m := dM_eM _ _ _ _ false (by simp_all)
  have h2 : (eM 0x70 0 d.code m).sub = 0 := sub_eM _ _ _ _
  have h3 : (eM 0x70 0 d.code m).d = d.code := rfl
  have h4 : (eM 0x70 0 d.code m).u = !d.isVec := by simp_all [eM]
  change decodeFields (eM 0x70 0 d.code m) (Ext.of _) _ = _
  generalize (eM 0x70 0 d.code m) = f at hop h1 h2 h3 h4 ⊢
  simp only [decodeFields, dMem, hop, h1, h2, h3, h4, dLd, need, dstOf_code]
  rfl

theorem RoundTrip.st (d : Dst) (m : OpM) : RoundTrip.Statement (.st d m) := by
  refine RoundTrip.ofWord _ _ rfl (fun hw => ?_)
  refine decode_of _ _ _ (by decide : opX 0x71 = some false) ?_
  have hw : (m.ok && d.isVec == !m.uni : Bool) = true := hw
  have hop : (eM 0x71 0 d.code m).op = 0x71 := rfl
  have h1 : dM (eM 0x71 0 d.code m) = some m := dM_eM _ _ _ _ false (by simp_all)
  have h2 : (eM 0x71 0 d.code m).sub = 0 := sub_eM _ _ _ _
  have h3 : (eM 0x71 0 d.code m).d = d.code := rfl
  have h4 : (eM 0x71 0 d.code m).u = !d.isVec := by simp_all [eM]
  change decodeFields (eM 0x71 0 d.code m) (Ext.of _) _ = _
  generalize (eM 0x71 0 d.code m) = f at hop h1 h2 h3 h4 ⊢
  simp only [decodeFields, dMem, hop, h1, h2, h3, h4, dLd, need, dstOf_code]
  rfl

theorem RoundTrip.ldlod (o : OpLdlod) : RoundTrip.Statement (.ldlod o) := by
  refine RoundTrip.ofWord _ _ rfl (fun hw => ?_)
  refine decode_of _ _ _ (by decide : opX 0x72 = some true) ?_
  change decodeFields _ (Ext.of (Ext.word _)) _ = _
  rw [Ext.of_word]
  obtain ⟨k, wide, strm, d, sh, vc, ve0, ve1, au, av⟩ := o
  obtain ⟨f, hf⟩ : ∃ f, f = ({ eM 0x72 0 d ⟨false, .idx sh vc false, 0, if wide then .n64 else .b32, k, .wave, strm⟩ with fn := 16, x := true } : Fld) := ⟨_, rfl⟩
  have h14 : f.mpred = k := by rw [hf]; exact mpred_of _ _ rfl rfl rfl rfl
  have h5 : f.off12 = 0 := by rw [hf]; exact (by decide : ((0#12).extractLsb' 4 8 ++ (0#12).extractLsb' 0 4) = 0#12)
  have h3 : f.am = 1 := by rw [hf]; exact (by decide : (16#6).extractLsb' 4 2 = 1#2)
  have h4 : f.sub = 0 := by rw [hf]; exact (by decide : (16#6).extractLsb' 0 4 = 0#4)
  have h9 : f.ty = (if wide then Ty.n64 else .b32).code := by rw [hf]; rfl
  have h1 : f.op = 0x72 := by rw [hf]; rfl
  have h2 : f.u = false := by rw [hf]; rfl
  have h6 : f.m3 = false := by rw [hf]; rfl
  have h7 : f.m2 = false := by rw [hf]; rfl
  have h8 : f.m1 = false := by rw [hf]; rfl
  have h10 : f.a = sh.setWidth 8 := by rw [hf]; rfl
  have h11 : f.b = vc := by rw [hf]; rfl
  have h12 : f.d = d := by rw [hf]; rfl
  have h13 : f.m0 = strm := by rw [hf]; rfl
  change decodeFields { eM 0x72 0 d ⟨false, .idx sh vc false, 0, if wide then .n64 else .b32, k, .wave, strm⟩ with fn := 16, x := true } _ _ = _
  rw [← hf]
  clear hf
  simp only [decodeFields, dMem, dLdlod, h1, h2, h3, h4, h5, h6, h7, h8, h9, h10, h11, h12, h13, h14, imm_uv, imm_uv4, imm_uv6, need, Ty.ofCode_code,
    reg7_set]
  cases wide <;> rfl

theorem RoundTrip.pref (m : OpM) : RoundTrip.Statement (.pref m) := by
  refine RoundTrip.ofWord _ _ rfl (fun hw => ?_)
  refine decode_of _ _ _ (by decide : opX 0x73 = some false) ?_
  have hw : (m.ok : Bool) = true := hw
  have hop : (eM 0x73 0 0 m).op = 0x73 := rfl
  have h1 : dM (eM 0x73 0 0 m) = some m := dM_eM _ _ _ _ false hw
  have h2 : (eM 0x73 0 0 m).sub = 0 := sub_eM _ _ _ _
  have h3 : (eM 0x73 0 0 m).d = 0 := rfl
  change decodeFields (eM 0x73 0 0 m) (Ext.of _) _ = _
  generalize (eM 0x73 0 0 m) = f at hop h1 h2 h3 ⊢
  simp only [decodeFields, dMem, hop, h1, h2, h3, need]
  rfl

theorem RoundTrip.l2pinPin (d : BitVec 4) (m : OpM) : RoundTrip.Statement (.l2pinPin d m) := by
  refine RoundTrip.ofWord _ _ rfl (fun hw => ?_)
  refine decode_of _ _ _ (by decide : opX 0x74 = some false) ?_
  have hw : (m.ok && m.scope == .wave && !m.strm : Bool) = true := hw
  have hop : (eM 0x74 0 (d.setWidth 8) m).op = 0x74 := rfl
  have h1 : dM (eM 0x74 0 (d.setWidth 8) m) = some m := dM_eM _ _ _ _ false (by simp_all)
  have h2 : (eM 0x74 0 (d.setWidth 8) m).sub = 0 := sub_eM _ _ _ _
  have h3 : (eM 0x74 0 (d.setWidth 8) m).d = d.setWidth 8 := rfl
  have h4 : (m.scope == .wave) = true := by simp_all
  have h5 : m.strm = false := by simp_all
  change decodeFields (eM 0x74 0 (d.setWidth 8) m) (Ext.of _) _ = _
  generalize (eM 0x74 0 (d.setWidth 8) m) = f at hop h1 h2 h3 h4 h5 ⊢
  simp only [decodeFields, dMem, hop, h1, h2, h3, need, nib_set, dPin]
  simp_all

theorem RoundTrip.l2pinUnpin (d : BitVec 4) (m : OpM) : RoundTrip.Statement (.l2pinUnpin d m) := by
  refine RoundTrip.ofWord _ _ rfl (fun hw => ?_)
  refine decode_of _ _ _ (by decide : opX 0x74 = some false) ?_
  have hw : (m.ok && m.scope == .wave && !m.strm : Bool) = true := hw
  have hop : (eM 0x74 1 (d.setWidth 8) m).op = 0x74 := rfl
  have h1 : dM (eM 0x74 1 (d.setWidth 8) m) = some m := dM_eM _ _ _ _ false (by simp_all)
  have h2 : (eM 0x74 1 (d.setWidth 8) m).sub = 1 := sub_eM _ _ _ _
  have h3 : (eM 0x74 1 (d.setWidth 8) m).d = d.setWidth 8 := rfl
  have h4 : (m.scope == .wave) = true := by simp_all
  have h5 : m.strm = false := by simp_all
  change decodeFields (eM 0x74 1 (d.setWidth 8) m) (Ext.of _) _ = _
  generalize (eM 0x74 1 (d.setWidth 8) m) = f at hop h1 h2 h3 h4 h5 ⊢
  simp only [decodeFields, dMem, hop, h1, h2, h3, need, nib_set, dPin]
  simp_all

theorem RoundTrip.ifence : RoundTrip.Statement (.ifence) := by
  refine RoundTrip.ofWord _ _ rfl (fun hw => ?_)
  refine decode_of _ _ _ (by decide : opX 0x76 = some false) ?_
  simp_all [decodeFields, dMem, need, Fld.bare, Fld.low0, Fld.mod0, Fld.mod50, Fld.fnu, eF]

theorem RoundTrip.wcntLd (n : BitVec 7) : RoundTrip.Statement (.wcntLd n) := by
  refine RoundTrip.ofWord _ _ rfl (fun hw => ?_)
  refine decode_of _ _ _ (by decide : opX 0x77 = some false) ?_
  have hw : (n.toNat ≤ 64 : Bool) = true := hw
  have hop : ((eF 0x77).withImm (n.setWidth 32)).op = 0x77 := rfl
  have h1 : ((eF 0x77).withImm (n.setWidth 32)).u = false := rfl
  have h2 : ((eF 0x77).withImm (n.setWidth 32)).d = 0 := rfl
  have h3 : ((eF 0x77).withImm (n.setWidth 32)).a = 0 := rfl
  have h4 : ((eF 0x77).withImm (n.setWidth 32)).fn = 0 := rfl
  have h5 : ((eF 0x77).withImm (n.setWidth 32)).imm = n.setWidth 32 := Fld.imm_withImm _ _
  change decodeFields ((eF 0x77).withImm (n.setWidth 32)) (Ext.of _) _ = _
  generalize ((eF 0x77).withImm (n.setWidth 32)) = f at hop h1 h2 h3 h4 h5 ⊢
  simp only [decodeFields, dMem, hop, h1, h2, h3, h4, h5, need, imm7_le n hw, imm7_set]
  rfl

theorem RoundTrip.wcntSt (n : BitVec 7) : RoundTrip.Statement (.wcntSt n) := by
  refine RoundTrip.ofWord _ _ rfl (fun hw => ?_)
  refine decode_of _ _ _ (by decide : opX 0x77 = some false) ?_
  have hw : (n.toNat ≤ 64 : Bool) = true := hw
  have hop : ({ eF 0x77 with fn := 1 }.withImm (n.setWidth 32)).op = 0x77 := rfl
  have h1 : ({ eF 0x77 with fn := 1 }.withImm (n.setWidth 32)).u = false := rfl
  have h2 : ({ eF 0x77 with fn := 1 }.withImm (n.setWidth 32)).d = 0 := rfl
  have h3 : ({ eF 0x77 with fn := 1 }.withImm (n.setWidth 32)).a = 0 := rfl
  have h4 : ({ eF 0x77 with fn := 1 }.withImm (n.setWidth 32)).fn = 1 := rfl
  have h5 : ({ eF 0x77 with fn := 1 }.withImm (n.setWidth 32)).imm = n.setWidth 32 := Fld.imm_withImm _ _
  change decodeFields ({ eF 0x77 with fn := 1 }.withImm (n.setWidth 32)) (Ext.of _) _ = _
  generalize ({ eF 0x77 with fn := 1 }.withImm (n.setWidth 32)) = f at hop h1 h2 h3 h4 h5 ⊢
  simp only [decodeFields, dMem, hop, h1, h2, h3, h4, h5, need, imm7_le n hw, imm7_set]
  rfl

theorem RoundTrip.atomAdd (o : OpAtom) : RoundTrip.Statement (.atomAdd o) := by
  refine RoundTrip.ofWord _ _ rfl (fun hw => ?_)
  refine decode_of _ _ _ (by decide : opX 0x78 = some true) ?_
  have hw : o.ok .add = true := hw
  have h := dAtom_enc .add o hw
  have hop : (eAtom .add o).f.op = 0x78 := rfl
  change decodeFields (eAtom .add o).f (Ext.of (Ext.word _)) _ = _
  rw [Ext.of_word]
  generalize (eAtom .add o).f = f at hop h ⊢
  simp only [decodeFields, dMem, hop]
  exact h

theorem RoundTrip.atomFadd (o : OpAtom) : RoundTrip.Statement (.atomFadd o) := by
  refine RoundTrip.ofWord _ _ rfl (fun hw => ?_)
  refine decode_of _ _ _ (by decide : opX 0x78 = some true) ?_
  have hw : o.ok .fadd = true := hw
  have h := dAtom_enc .fadd o hw
  have hop : (eAtom .fadd o).f.op = 0x78 := rfl
  change decodeFields (eAtom .fadd o).f (Ext.of (Ext.word _)) _ = _
  rw [Ext.of_word]
  generalize (eAtom .fadd o).f = f at hop h ⊢
  simp only [decodeFields, dMem, hop]
  exact h

theorem RoundTrip.atomMin (o : OpAtom) : RoundTrip.Statement (.atomMin o) := by
  refine RoundTrip.ofWord _ _ rfl (fun hw => ?_)
  refine decode_of _ _ _ (by decide : opX 0x78 = some true) ?_
  have hw : o.ok .min = true := hw
  have h := dAtom_enc .min o hw
  have hop : (eAtom .min o).f.op = 0x78 := rfl
  change decodeFields (eAtom .min o).f (Ext.of (Ext.word _)) _ = _
  rw [Ext.of_word]
  generalize (eAtom .min o).f = f at hop h ⊢
  simp only [decodeFields, dMem, hop]
  exact h

theorem RoundTrip.atomMax (o : OpAtom) : RoundTrip.Statement (.atomMax o) := by
  refine RoundTrip.ofWord _ _ rfl (fun hw => ?_)
  refine decode_of _ _ _ (by decide : opX 0x78 = some true) ?_
  have hw : o.ok .max = true := hw
  have h := dAtom_enc .max o hw
  have hop : (eAtom .max o).f.op = 0x78 := rfl
  change decodeFields (eAtom .max o).f (Ext.of (Ext.word _)) _ = _
  rw [Ext.of_word]
  generalize (eAtom .max o).f = f at hop h ⊢
  simp only [decodeFields, dMem, hop]
  exact h

theorem RoundTrip.atomAnd (o : OpAtom) : RoundTrip.Statement (.atomAnd o) := by
  refine RoundTrip.ofWord _ _ rfl (fun hw => ?_)
  refine decode_of _ _ _ (by decide : opX 0x78 = some true) ?_
  have hw : o.ok .and = true := hw
  have h := dAtom_enc .and o hw
  have hop : (eAtom .and o).f.op = 0x78 := rfl
  change decodeFields (eAtom .and o).f (Ext.of (Ext.word _)) _ = _
  rw [Ext.of_word]
  generalize (eAtom .and o).f = f at hop h ⊢
  simp only [decodeFields, dMem, hop]
  exact h

theorem RoundTrip.atomOr (o : OpAtom) : RoundTrip.Statement (.atomOr o) := by
  refine RoundTrip.ofWord _ _ rfl (fun hw => ?_)
  refine decode_of _ _ _ (by decide : opX 0x78 = some true) ?_
  have hw : o.ok .or = true := hw
  have h := dAtom_enc .or o hw
  have hop : (eAtom .or o).f.op = 0x78 := rfl
  change decodeFields (eAtom .or o).f (Ext.of (Ext.word _)) _ = _
  rw [Ext.of_word]
  generalize (eAtom .or o).f = f at hop h ⊢
  simp only [decodeFields, dMem, hop]
  exact h

theorem RoundTrip.atomXor (o : OpAtom) : RoundTrip.Statement (.atomXor o) := by
  refine RoundTrip.ofWord _ _ rfl (fun hw => ?_)
  refine decode_of _ _ _ (by decide : opX 0x78 = some true) ?_
  have hw : o.ok .xor = true := hw
  have h := dAtom_enc .xor o hw
  have hop : (eAtom .xor o).f.op = 0x78 := rfl
  change decodeFields (eAtom .xor o).f (Ext.of (Ext.word _)) _ = _
  rw [Ext.of_word]
  generalize (eAtom .xor o).f = f at hop h ⊢
  simp only [decodeFields, dMem, hop]
  exact h

theorem RoundTrip.atomXchg (o : OpAtom) : RoundTrip.Statement (.atomXchg o) := by
  refine RoundTrip.ofWord _ _ rfl (fun hw => ?_)
  refine decode_of _ _ _ (by decide : opX 0x78 = some true) ?_
  have hw : o.ok .xchg = true := hw
  have h := dAtom_enc .xchg o hw
  have hop : (eAtom .xchg o).f.op = 0x78 := rfl
  change decodeFields (eAtom .xchg o).f (Ext.of (Ext.word _)) _ = _
  rw [Ext.of_word]
  generalize (eAtom .xchg o).f = f at hop h ⊢
  simp only [decodeFields, dMem, hop]
  exact h

theorem RoundTrip.atomCas (o : OpAtom) : RoundTrip.Statement (.atomCas o) := by
  refine RoundTrip.ofWord _ _ rfl (fun hw => ?_)
  refine decode_of _ _ _ (by decide : opX 0x78 = some true) ?_
  have hw : o.ok .cas = true := hw
  have h := dAtom_enc .cas o hw
  have hop : (eAtom .cas o).f.op = 0x78 := rfl
  change decodeFields (eAtom .cas o).f (Ext.of (Ext.word _)) _ = _
  rw [Ext.of_word]
  generalize (eAtom .cas o).f = f at hop h ⊢
  simp only [decodeFields, dMem, hop]
  exact h

theorem RoundTrip.atomInc (o : OpAtom) : RoundTrip.Statement (.atomInc o) := by
  refine RoundTrip.ofWord _ _ rfl (fun hw => ?_)
  refine decode_of _ _ _ (by decide : opX 0x78 = some true) ?_
  have hw : o.ok .inc = true := hw
  have h := dAtom_enc .inc o hw
  have hop : (eAtom .inc o).f.op = 0x78 := rfl
  change decodeFields (eAtom .inc o).f (Ext.of (Ext.word _)) _ = _
  rw [Ext.of_word]
  generalize (eAtom .inc o).f = f at hop h ⊢
  simp only [decodeFields, dMem, hop]
  exact h

theorem RoundTrip.cfadd (o : OpCfadd) : RoundTrip.Statement (.cfadd o) := by
  refine RoundTrip.ofWord _ _ rfl (fun hw => ?_)
  refine decode_of _ _ _ (by decide : opX 0x79 = some true) ?_
  have hw : (o.b.ok .n32 : Bool) = true := hw
  simp_all [decodeFields, dMem, eX, need, Fld.mod50, Fld.fnu, eF, dCfadd, imm_scope, imm_scope_mask]
  rw [srcOf_bc _ _ hw]
  have e := imm_scope_b0 o.scope o.rel
  rw [BitVec.getLsbD_eq_getElem (by decide)] at e
  rw [e]
  obtain ⟨k, wide, d, a, b, c, rel, sc⟩ := o
  cases wide <;> rfl

theorem RoundTrip.cfread (o : OpCfread) : RoundTrip.Statement (.cfread o) := by
  refine RoundTrip.ofWord _ _ rfl (fun hw => ?_)
  refine decode_of _ _ _ (by decide : opX 0x7A = some true) ?_
  simp_all [decodeFields, dMem, eX, need, Fld.mod0, Fld.mod50, Fld.fnu, eF, dCfread, imm_scope, imm_scope_mask]
  have e := imm_scope_b0 o.scope o.acq
  rw [BitVec.getLsbD_eq_getElem (by decide)] at e
  rw [e]
  obtain ⟨wide, d, a, x, acq, sc⟩ := o
  cases wide <;> rfl

theorem RoundTrip.gbindBind (d : BitVec 7) (a : BitVec 7) (b : BitVec 7) (c : BitVec 7) : RoundTrip.Statement (.gbindBind d a b c) := by
  refine RoundTrip.ofWord _ _ rfl (fun hw => ?_)
  refine decode_of _ _ _ (by decide : opX 0x7C = some false) ?_
  simp_all [decodeFields, dMem, eS, need, Fld.low0, Fld.mod0, Fld.mod50, eF]

theorem RoundTrip.gbindUnbind (d : BitVec 7) (a : BitVec 7) : RoundTrip.Statement (.gbindUnbind d a) := by
  refine RoundTrip.ofWord _ _ rfl (fun hw => ?_)
  refine decode_of _ _ _ (by decide : opX 0x7C = some false) ?_
  simp_all [decodeFields, dMem, eS, need, Fld.low0, Fld.mod0, Fld.mod50, eF]

theorem RoundTrip.gacq (s : Scope) (d : BitVec 7) (a : BitVec 7) : RoundTrip.Statement (.gacq s d a) := by
  refine RoundTrip.ofWord _ _ rfl (fun hw => ?_)
  refine decode_of _ _ _ (by decide : opX 0x7D = some false) ?_
  simp_all [decodeFields, dMem, eS, Fld.withGs, need, eF, dGuard]

theorem RoundTrip.gacqAll (s : Scope) : RoundTrip.Statement (.gacqAll s) := by
  refine RoundTrip.ofWord _ _ rfl (fun hw => ?_)
  refine decode_of _ _ _ (by decide : opX 0x7D = some false) ?_
  simp_all [decodeFields, dMem, eS, Fld.withGs, need, eF, dGuard]

theorem RoundTrip.grel (s : Scope) (d : BitVec 7) (a : BitVec 7) : RoundTrip.Statement (.grel s d a) := by
  refine RoundTrip.ofWord _ _ rfl (fun hw => ?_)
  refine decode_of _ _ _ (by decide : opX 0x7E = some false) ?_
  simp_all [decodeFields, dMem, eS, Fld.withGs, need, eF, dGuard]

theorem RoundTrip.grelAll (s : Scope) : RoundTrip.Statement (.grelAll s) := by
  refine RoundTrip.ofWord _ _ rfl (fun hw => ?_)
  refine decode_of _ _ _ (by decide : opX 0x7E = some false) ?_
  simp_all [decodeFields, dMem, eS, Fld.withGs, need, eF, dGuard]

theorem RoundTrip.gwait (a : BitVec 7) (b : BitVec 7) : RoundTrip.Statement (.gwait a b) := by
  refine RoundTrip.ofWord _ _ rfl (fun hw => ?_)
  refine decode_of _ _ _ (by decide : opX 0x7F = some false) ?_
  simp_all [decodeFields, dMem, eS, need, Fld.low0, Fld.mod0, Fld.mod50, Fld.fnu, eF]

theorem RoundTrip.cpMm (o : OpCp) : RoundTrip.Statement (.cpMm o) := by
  refine RoundTrip.ofWord _ _ rfl (fun hw => ?_)
  refine decode_of _ _ _ (by decide : opX 0x80 = some true) ?_
  have hw : (o.ok false false : Bool) = true := hw
  have h := dCp_enc 0 o
  have hop : (eCp 0 o).f.op = 0x80 := rfl
  have hf : (eCp 0 o).f.fn = 0 := rfl
  have hu : (eCp 0 o).f.u = false := rfl
  change decodeFields (eCp 0 o).f (Ext.of (Ext.word _)) _ = _
  rw [Ext.of_word]
  generalize (eCp 0 o).f = f at *
  simp only [decodeFields, dMem, hop, hu, dCpI, hf, need]
  erw [h]
  simp only [Option.bind_eq_bind, Option.bind_some, hw]
  rfl

theorem RoundTrip.cpMs (o : OpCp) : RoundTrip.Statement (.cpMs o) := by
  refine RoundTrip.ofWord _ _ rfl (fun hw => ?_)
  refine decode_of _ _ _ (by decide : opX 0x80 = some true) ?_
  have hw : (o.ok true false : Bool) = true := hw
  have h := dCp_enc 1 o
  have hop : (eCp 1 o).f.op = 0x80 := rfl
  have hf : (eCp 1 o).f.fn = 1 := rfl
  have hu : (eCp 1 o).f.u = false := rfl
  change decodeFields (eCp 1 o).f (Ext.of (Ext.word _)) _ = _
  rw [Ext.of_word]
  generalize (eCp 1 o).f = f at *
  simp only [decodeFields, dMem, hop, hu, dCpI, hf, need]
  erw [h]
  simp only [Option.bind_eq_bind, Option.bind_some, hw]
  rfl

theorem RoundTrip.cpSm (o : OpCp) : RoundTrip.Statement (.cpSm o) := by
  refine RoundTrip.ofWord _ _ rfl (fun hw => ?_)
  refine decode_of _ _ _ (by decide : opX 0x80 = some true) ?_
  have hw : (o.ok false true : Bool) = true := hw
  have h := dCp_enc 2 o
  have hop : (eCp 2 o).f.op = 0x80 := rfl
  have hf : (eCp 2 o).f.fn = 2 := rfl
  have hu : (eCp 2 o).f.u = false := rfl
  change decodeFields (eCp 2 o).f (Ext.of (Ext.word _)) _ = _
  rw [Ext.of_word]
  generalize (eCp 2 o).f = f at *
  simp only [decodeFields, dMem, hop, hu, dCpI, hf, need]
  erw [h]
  simp only [Option.bind_eq_bind, Option.bind_some, hw]
  rfl

theorem RoundTrip.cpMo (o : OpCp) : RoundTrip.Statement (.cpMo o) := by
  refine RoundTrip.ofWord _ _ rfl (fun hw => ?_)
  refine decode_of _ _ _ (by decide : opX 0x80 = some true) ?_
  have hw : (o.ok false false : Bool) = true := hw
  have h := dCp_enc 3 o
  have hop : (eCp 3 o).f.op = 0x80 := rfl
  have hf : (eCp 3 o).f.fn = 3 := rfl
  have hu : (eCp 3 o).f.u = false := rfl
  change decodeFields (eCp 3 o).f (Ext.of (Ext.word _)) _ = _
  rw [Ext.of_word]
  generalize (eCp 3 o).f = f at *
  simp only [decodeFields, dMem, hop, hu, dCpI, hf, need]
  erw [h]
  simp only [Option.bind_eq_bind, Option.bind_some, hw]
  rfl

theorem RoundTrip.cpOm (o : OpCp) : RoundTrip.Statement (.cpOm o) := by
  refine RoundTrip.ofWord _ _ rfl (fun hw => ?_)
  refine decode_of _ _ _ (by decide : opX 0x80 = some true) ?_
  have hw : (o.ok false false : Bool) = true := hw
  have h := dCp_enc 4 o
  have hop : (eCp 4 o).f.op = 0x80 := rfl
  have hf : (eCp 4 o).f.fn = 4 := rfl
  have hu : (eCp 4 o).f.u = false := rfl
  change decodeFields (eCp 4 o).f (Ext.of (Ext.word _)) _ = _
  rw [Ext.of_word]
  generalize (eCp 4 o).f = f at *
  simp only [decodeFields, dMem, hop, hu, dCpI, hf, need]
  erw [h]
  simp only [Option.bind_eq_bind, Option.bind_some, hw]
  rfl

theorem RoundTrip.cpSo (o : OpCp) : RoundTrip.Statement (.cpSo o) := by
  refine RoundTrip.ofWord _ _ rfl (fun hw => ?_)
  refine decode_of _ _ _ (by decide : opX 0x80 = some true) ?_
  have hw : (o.ok false true : Bool) = true := hw
  have h := dCp_enc 5 o
  have hop : (eCp 5 o).f.op = 0x80 := rfl
  have hf : (eCp 5 o).f.fn = 5 := rfl
  have hu : (eCp 5 o).f.u = false := rfl
  change decodeFields (eCp 5 o).f (Ext.of (Ext.word _)) _ = _
  rw [Ext.of_word]
  generalize (eCp 5 o).f = f at *
  simp only [decodeFields, dMem, hop, hu, dCpI, hf, need]
  erw [h]
  simp only [Option.bind_eq_bind, Option.bind_some, hw]
  rfl

theorem RoundTrip.cpOs (o : OpCp) : RoundTrip.Statement (.cpOs o) := by
  refine RoundTrip.ofWord _ _ rfl (fun hw => ?_)
  refine decode_of _ _ _ (by decide : opX 0x80 = some true) ?_
  have hw : (o.ok true false : Bool) = true := hw
  have h := dCp_enc 6 o
  have hop : (eCp 6 o).f.op = 0x80 := rfl
  have hf : (eCp 6 o).f.fn = 6 := rfl
  have hu : (eCp 6 o).f.u = false := rfl
  change decodeFields (eCp 6 o).f (Ext.of (Ext.word _)) _ = _
  rw [Ext.of_word]
  generalize (eCp 6 o).f = f at *
  simp only [decodeFields, dMem, hop, hu, dCpI, hf, need]
  erw [h]
  simp only [Option.bind_eq_bind, Option.bind_some, hw]
  rfl

theorem RoundTrip.cpg (o : OpCpg) : RoundTrip.Statement (.cpg o) := by
  refine RoundTrip.ofWord _ _ rfl (fun hw => ?_)
  refine decode_of _ _ _ (by decide : opX 0x81 = some true) ?_
  simp_all [decodeFields, dMem, eX, eS, need, Fld.fnu, eF, dCpg, imm_false]
  have e0 := imm_b0 o.hd o.hs o.q1
  have e2 := imm_b2 o.hd o.hs o.q1
  have e3 := imm_b3 o.hd o.hs o.q1
  rw [BitVec.getLsbD_eq_getElem (by decide)] at e0 e2 e3
  rw [e0, e2, e3]

theorem RoundTrip.engineChunk (op : Nat) : RoundTrip.Statement (.engineChunk op) := by
  exact RoundTrip.stepOnly _ rfl

theorem RoundTrip.followOnAccept (op : Nat) : RoundTrip.Statement (.followOnAccept op) := by
  exact RoundTrip.stepOnly _ rfl

theorem RoundTrip.collSum (o : OpColl) : RoundTrip.Statement (.collSum o) := by
  refine RoundTrip.ofWord _ _ rfl (fun hw => ?_)
  refine decode_of _ _ _ (by decide : opX 0x82 = some true) ?_
  have hw : ([Ty.i32, .n32, .f32, .i64, .n64, .f64, .f16, .bf16].contains o.ty : Bool) = true := hw
  simp_all [decodeFields, dMem, eX, eColl, need, Fld.mod0, Fld.mod50, eF, dColl]
  simp [tysColl, hw]

theorem RoundTrip.collMin (o : OpColl) : RoundTrip.Statement (.collMin o) := by
  refine RoundTrip.ofWord _ _ rfl (fun hw => ?_)
  refine decode_of _ _ _ (by decide : opX 0x82 = some true) ?_
  have hw : ([Ty.i32, .n32, .f32, .i64, .n64, .f64, .f16, .bf16].contains o.ty : Bool) = true := hw
  simp_all [decodeFields, dMem, eX, eColl, need, Fld.mod0, Fld.mod50, eF, dColl]
  simp [tysColl, hw]

theorem RoundTrip.collMax (o : OpColl) : RoundTrip.Statement (.collMax o) := by
  refine RoundTrip.ofWord _ _ rfl (fun hw => ?_)
  refine decode_of _ _ _ (by decide : opX 0x82 = some true) ?_
  have hw : ([Ty.i32, .n32, .f32, .i64, .n64, .f64, .f16, .bf16].contains o.ty : Bool) = true := hw
  simp_all [decodeFields, dMem, eX, eColl, need, Fld.mod0, Fld.mod50, eF, dColl]
  simp [tysColl, hw]

theorem RoundTrip.collGather (o : OpColl) : RoundTrip.Statement (.collGather o) := by
  refine RoundTrip.ofWord _ _ rfl (fun hw => ?_)
  refine decode_of _ _ _ (by decide : opX 0x82 = some true) ?_
  simp_all [decodeFields, dMem, eX, eColl, need, Fld.mod0, Fld.mod50, eF, dColl]

theorem RoundTrip.collBcast (o : OpColl) : RoundTrip.Statement (.collBcast o) := by
  refine RoundTrip.ofWord _ _ rfl (fun hw => ?_)
  refine decode_of _ _ _ (by decide : opX 0x82 = some true) ?_
  simp_all [decodeFields, dMem, eX, eColl, need, Fld.mod0, Fld.mod50, eF, dColl]

theorem RoundTrip.collInstanceComplete (desc : Nat) : RoundTrip.Statement (.collInstanceComplete desc) := by
  exact RoundTrip.stepOnly _ rfl

theorem RoundTrip.seal (d : Option (BitVec 7)) : RoundTrip.Statement (.seal d) := by
  refine RoundTrip.ofWord _ _ rfl (fun hw => ?_)
  refine decode_of _ _ _ (by decide : opX 0x83 = some false) ?_
  simp_all [decodeFields, dMem, need, Fld.modP, Fld.fnu, eF, optD]
  cases d <;> simp

theorem RoundTrip.waitb (a : SC) (i : W32) : RoundTrip.Statement (.waitb a i) := by
  refine RoundTrip.ofWord _ _ rfl (fun hw => ?_)
  refine decode_of _ _ _ (by decide : opX 0x84 = some false) ?_
  have hw : (a.ok .n32 : Bool) = true := hw
  have hop : ({ eF 0x84 with a := a.code }.withImm i).op = 0x84 := rfl
  have h1 : ({ eF 0x84 with a := a.code }.withImm i).fnu = true := rfl
  have h2 : ({ eF 0x84 with a := a.code }.withImm i).d = 0 := rfl
  have h3 : scOf .n32 ({ eF 0x84 with a := a.code }.withImm i).a = some a := scOf_code _ _ hw
  have h4 : ({ eF 0x84 with a := a.code }.withImm i).imm = i := Fld.imm_withImm _ _
  change decodeFields ({ eF 0x84 with a := a.code }.withImm i) (Ext.of _) _ = _
  generalize ({ eF 0x84 with a := a.code }.withImm i) = f at hop h1 h2 h3 h4 ⊢
  simp only [decodeFields, dMem, hop, h1, h2, h3, h4, need]
  rfl

theorem RoundTrip.qwait (d : Option (BitVec 7)) (q : BitVec 4) : RoundTrip.Statement (.qwait d q) := by
  refine RoundTrip.ofWord _ _ rfl (fun hw => ?_)
  refine decode_of _ _ _ (by decide : opX 0x85 = some false) ?_
  simp_all [decodeFields, dMem, need, Fld.modP, Fld.fnu, eF, optD]
  cases d <;> simp

theorem RoundTrip.qtest (d : BitVec 7) (q : BitVec 4) : RoundTrip.Statement (.qtest d q) := by
  refine RoundTrip.ofWord _ _ rfl (fun hw => ?_)
  refine decode_of _ _ _ (by decide : opX 0x86 = some false) ?_
  simp_all [decodeFields, dMem, need, Fld.low0, Fld.mod0, Fld.mod50, Fld.fnu, eF]

theorem RoundTrip.qcan (q : BitVec 4) : RoundTrip.Statement (.qcan q) := by
  refine RoundTrip.ofWord _ _ rfl (fun hw => ?_)
  refine decode_of _ _ _ (by decide : opX 0x87 = some false) ?_
  simp_all [decodeFields, dMem, need, Fld.low0, Fld.mod0, Fld.mod50, Fld.fnu, eF]

theorem RoundTrip.qdue (d : BitVec 7) (q : BitVec 4) : RoundTrip.Statement (.qdue d q) := by
  refine RoundTrip.ofWord _ _ rfl (fun hw => ?_)
  refine decode_of _ _ _ (by decide : opX 0x88 = some false) ?_
  simp_all [decodeFields, dMem, need, Fld.low0, Fld.mod0, Fld.mod50, Fld.fnu, eF]

theorem RoundTrip.sleep (q : BitVec 4) : RoundTrip.Statement (.sleep q) := by
  refine RoundTrip.ofWord _ _ rfl (fun hw => ?_)
  refine decode_of _ _ _ (by decide : opX 0x89 = some false) ?_
  simp_all [decodeFields, dMem, need, Fld.low0, Fld.mod0, Fld.mod50, Fld.fnu, eF]

theorem RoundTrip.promiseMiss (w : Nat) : RoundTrip.Statement (.promiseMiss w) := by
  exact RoundTrip.stepOnly _ rfl

theorem RoundTrip.qmovSt (a : BitVec 7) (q : BitVec 4) : RoundTrip.Statement (.qmovSt a q) := by
  refine RoundTrip.ofWord _ _ rfl (fun hw => ?_)
  refine decode_of _ _ _ (by decide : opX 0x8A = some false) ?_
  simp_all [decodeFields, dMem, need, Fld.low0, Fld.mod0, Fld.mod50, eF]

theorem RoundTrip.qmovLd (q : BitVec 4) (a : BitVec 7) : RoundTrip.Statement (.qmovLd q a) := by
  refine RoundTrip.ofWord _ _ rfl (fun hw => ?_)
  refine decode_of _ _ _ (by decide : opX 0x8A = some false) ?_
  simp_all [decodeFields, dMem, need, Fld.low0, Fld.mod0, Fld.mod50, eF]

theorem RoundTrip.rmsync : RoundTrip.Statement (.rmsync) := by
  refine RoundTrip.ofWord _ _ rfl (fun hw => ?_)
  refine decode_of _ _ _ (by decide : opX 0xC6 = some false) ?_
  simp_all [decodeFields, dMem, need, Fld.bare, Fld.low0, Fld.mod0, Fld.mod50, Fld.fnu, eF]

theorem RoundTrip.omclaim (d : BitVec 7) (a : BitVec 6) (n : BitVec 6) : RoundTrip.Statement (.omclaim d a n) := by
  refine RoundTrip.ofWord _ _ rfl (fun hw => ?_)
  refine decode_of _ _ _ (by decide : opX 0x90 = some false) ?_
  have hw : (runOk a n : Bool) = true := hw
  have hop : ({ eF 0x90 with d := d.setWidth 8, a := a.setWidth 8, b := n.setWidth 8 }).op = 0x90 := rfl
  have h1 : dRun ({ eF 0x90 with d := d.setWidth 8, a := a.setWidth 8, b := n.setWidth 8 }) = some (a, n) := dRun_enc _ _ _ hw rfl rfl rfl rfl
  have h2 : ({ eF 0x90 with d := d.setWidth 8, a := a.setWidth 8, b := n.setWidth 8 }).fnu = true := rfl
  have h3 : reg7 ({ eF 0x90 with d := d.setWidth 8, a := a.setWidth 8, b := n.setWidth 8 }).d = some d := reg7_set d
  change decodeFields ({ eF 0x90 with d := d.setWidth 8, a := a.setWidth 8, b := n.setWidth 8 }) (Ext.of _) _ = _
  generalize ({ eF 0x90 with d := d.setWidth 8, a := a.setWidth 8, b := n.setWidth 8 }) = f at hop h1 h2 h3 ⊢
  simp only [decodeFields, dMacro, hop, h1, h2, h3, need]
  rfl

theorem RoundTrip.omrel (a : BitVec 6) (n : BitVec 6) : RoundTrip.Statement (.omrel a n) := by
  refine RoundTrip.ofWord _ _ rfl (fun hw => ?_)
  refine decode_of _ _ _ (by decide : opX 0x91 = some false) ?_
  have hw : (runOk a n : Bool) = true := hw
  have hop : ({ eF 0x91 with a := a.setWidth 8, b := n.setWidth 8 }).op = 0x91 := rfl
  have h1 : dRun ({ eF 0x91 with a := a.setWidth 8, b := n.setWidth 8 }) = some (a, n) := dRun_enc _ _ _ hw rfl rfl rfl rfl
  have h2 : ({ eF 0x91 with a := a.setWidth 8, b := n.setWidth 8 }).fnu = true := rfl
  have h3 : ({ eF 0x91 with a := a.setWidth 8, b := n.setWidth 8 }).d = 0 := rfl
  change decodeFields ({ eF 0x91 with a := a.setWidth 8, b := n.setWidth 8 }) (Ext.of _) _ = _
  generalize ({ eF 0x91 with a := a.setWidth 8, b := n.setWidth 8 }) = f at hop h1 h2 h3 ⊢
  simp only [decodeFields, dMacro, hop, h1, h2, h3, need]
  rfl

theorem RoundTrip.omzero (a : BitVec 6) (n : BitVec 6) : RoundTrip.Statement (.omzero a n) := by
  refine RoundTrip.ofWord _ _ rfl (fun hw => ?_)
  refine decode_of _ _ _ (by decide : opX 0x98 = some false) ?_
  have hw : (runOk a n : Bool) = true := hw
  have hop : ({ eF 0x98 with a := a.setWidth 8, b := n.setWidth 8 }).op = 0x98 := rfl
  have h1 : dRun ({ eF 0x98 with a := a.setWidth 8, b := n.setWidth 8 }) = some (a, n) := dRun_enc _ _ _ hw rfl rfl rfl rfl
  have h2 : ({ eF 0x98 with a := a.setWidth 8, b := n.setWidth 8 }).fnu = true := rfl
  have h3 : ({ eF 0x98 with a := a.setWidth 8, b := n.setWidth 8 }).d = 0 := rfl
  change decodeFields ({ eF 0x98 with a := a.setWidth 8, b := n.setWidth 8 }) (Ext.of _) _ = _
  generalize ({ eF 0x98 with a := a.setWidth 8, b := n.setWidth 8 }) = f at hop h1 h2 h3 ⊢
  simp only [decodeFields, dMacro, hop, h1, h2, h3, need]
  rfl

theorem RoundTrip.omld (o : OpOm) : RoundTrip.Statement (.omld o) := by
  refine RoundTrip.ofWord _ _ rfl (fun hw => ?_)
  refine decode_of _ _ _ (by decide : opX 0x95 = some true) ?_
  have hw : (slotOk o.a && o.off.toNat < 786432 : Bool) = true := hw
  have h := dOm_enc 0x95 o hw
  have hop : (eOm 0x95 o).f.op = 0x95 := rfl
  have hu : (eOm 0x95 o).f.fnu = true := rfl
  change decodeFields (eOm 0x95 o).f (Ext.of (Ext.word _)) _ = _
  rw [Ext.of_word]
  generalize (eOm 0x95 o).f = f at *
  simp only [decodeFields, dMacro, hop, hu, h, need]
  rfl

theorem RoundTrip.omst (o : OpOm) : RoundTrip.Statement (.omst o) := by
  refine RoundTrip.ofWord _ _ rfl (fun hw => ?_)
  refine decode_of _ _ _ (by decide : opX 0x96 = some true) ?_
  have hw : (slotOk o.a && o.off.toNat < 786432 : Bool) = true := hw
  have h := dOm_enc 0x96 o hw
  have hop : (eOm 0x96 o).f.op = 0x96 := rfl
  have hu : (eOm 0x96 o).f.fnu = true := rfl
  change decodeFields (eOm 0x96 o).f (Ext.of (Ext.word _)) _ = _
  rw [Ext.of_word]
  generalize (eOm 0x96 o).f = f at *
  simp only [decodeFields, dMacro, hop, hu, h, need]
  rfl

theorem RoundTrip.wload (o : OpWload) : RoundTrip.Statement (.wload o) := by
  refine RoundTrip.ofWord _ _ rfl (fun hw => ?_)
  refine decode_of _ _ _ (by decide : opX 0x92 = some true) ?_
  have hw : (slotOk o.a && (match o.scale with | some x => slotOk x.slot && o.fmt.scaled | none => true) : Bool) = true := hw
  simp_all [decodeFields, dMacro, eX, need, Fld.fnu, Fld.mat0, eF, dWload, soff_mask, slotOf_set, slotOk]
  rw [dScale_enc _ (by revert hw; cases o.scale <;> simp_all [slotOk])]
  obtain ⟨q, a, fmt, sp, scale, cont⟩ := o
  cases scale <;> simp_all

theorem RoundTrip.wmint (o : OpWmint) : RoundTrip.Statement (.wmint o) := by
  refine RoundTrip.ofWord _ _ rfl (fun hw => ?_)
  refine decode_of _ _ _ (by decide : opX 0x93 = some true) ?_
  have hw : (slotOk o.a && o.off.toNat ≤ 253 : Bool) = true := hw
  simp_all [decodeFields, dMacro, eX, need, Fld.fnu, Fld.mat0, eF, dWmint, wmint_mask, wmint_off, slotOf_set, slotOk]

theorem RoundTrip.mmul (o : OpMmul) : RoundTrip.Statement (.mmul o) := by
  refine RoundTrip.ofWord _ _ rfl (fun hw => ?_)
  refine decode_of _ _ _ (by decide : opX 0x94 = some true) ?_
  have hw : (slotOk o.d && slotOk o.a && o.fmt.streamed && (match o.scale with | some x => slotOk x.slot | none => true) : Bool) = true := hw
  simp_all [decodeFields, dMacro, eX, need, Fld.fnu, Fld.mat0, eF, dMmul, mmul_mask, mmul_m, mmul_s, slotOf_set, slotOk]
  rw [dScale_enc _ (by revert hw; cases o.scale <;> simp_all [slotOk])]
  rfl

theorem RoundTrip.mseek (o : OpMseek) : RoundTrip.Statement (.mseek o) := by
  refine RoundTrip.ofWord _ _ rfl (fun hw => ?_)
  refine decode_of _ _ _ (by decide : opX 0x97 = some true) ?_
  have hw : (slotOk o.d && slotOk o.a && slotOk o.b && 1 ≤ o.j.toNat && o.j.toNat ≤ 16 && o.roff.toNat ≤ 253 : Bool) = true := hw
  simp_all [decodeFields, dMacro, eX, need, Fld.fnu, Fld.mat0, eF, dMseek, mseek_imm_mask, mseek_kd, mseek_nd, mseek_roff, mseek_boff, slotOf_set, slotOk]
  have := o.nc.isLt
  rw [if_pos (by omega)]
  dsimp only [Option.bind_some]
  rw [if_pos (by omega)]
  rfl

theorem RoundTrip.vqtab (a : BitVec 6) (off : BitVec 5) : RoundTrip.Statement (.vqtab a off) := by
  refine RoundTrip.ofWord _ _ rfl (fun hw => ?_)
  refine decode_of _ _ _ (by decide : opX 0x99 = some true) ?_
  have hw : (slotOk a : Bool) = true := hw
  simp_all [decodeFields, dMacro, eX, need, Fld.fnu, Fld.mat0, eF, dVqtab, soff_mask, slotOf_set, slotOk]

theorem RoundTrip.vqtabClr : RoundTrip.Statement (.vqtabClr) := by
  refine RoundTrip.ofWord _ _ rfl (fun hw => ?_)
  refine decode_of _ _ _ (by decide : opX 0x99 = some true) ?_
  simp_all [decodeFields, dMacro, eX, need, Fld.fnu, Fld.mat0, eF, dVqtab]

theorem RoundTrip.matrixStep (core : Nat) : RoundTrip.Statement (.matrixStep core) := by
  exact RoundTrip.stepOnly _ rfl

theorem RoundTrip.rast (o : OpMac) : RoundTrip.Statement (.rast o) := by
  refine RoundTrip.ofWord _ _ rfl (fun hw => ?_)
  refine decode_of _ _ _ (by decide : opX 0xA0 = some true) ?_
  change decodeFields (eMac 0xA0 0 0 0 o 0).f (Ext.of (Ext.word _)) _ = _
  rw [Ext.of_word]
  have h := dMac_enc (eMac 0xA0 0 0 0 o 0).f ⟨o.w, o.sp.setWidth 8, o.sr.setWidth 8, 0, 0⟩ o rfl rfl rfl rfl rfl rfl rfl rfl rfl rfl rfl rfl rfl rfl rfl rfl
  have hop : (eMac 0xA0 0 0 0 o 0).f.op = 0xA0 := rfl
  have hu : (eMac 0xA0 0 0 0 o 0).f.u = false := rfl
  have hf : (eMac 0xA0 0 0 0 o 0).f.fn = 0 := rfl
  have ha : (eMac 0xA0 0 0 0 o 0).f.a = 0 := rfl
  have hk : (eMac 0xA0 0 0 0 o 0).f.k = 0 := rfl
  generalize (eMac 0xA0 0 0 0 o 0).f = f at h hop hu hf ha hk ⊢
  simp only [decodeFields, dMacro, h, hop, hu, hf, ha, hk, Fld.fnu, need, dTrav]
  rfl

theorem RoundTrip.oblend (o : OpMac) : RoundTrip.Statement (.oblend o) := by
  refine RoundTrip.ofWord _ _ rfl (fun hw => ?_)
  refine decode_of _ _ _ (by decide : opX 0xA1 = some true) ?_
  change decodeFields (eMac 0xA1 0 0 0 o 0).f (Ext.of (Ext.word _)) _ = _
  rw [Ext.of_word]
  have h := dMac_enc (eMac 0xA1 0 0 0 o 0).f ⟨o.w, o.sp.setWidth 8, o.sr.setWidth 8, 0, 0⟩ o rfl rfl rfl rfl rfl rfl rfl rfl rfl rfl rfl rfl rfl rfl rfl rfl
  have hop : (eMac 0xA1 0 0 0 o 0).f.op = 0xA1 := rfl
  have hu : (eMac 0xA1 0 0 0 o 0).f.u = false := rfl
  have hf : (eMac 0xA1 0 0 0 o 0).f.fn = 0 := rfl
  have ha : (eMac 0xA1 0 0 0 o 0).f.a = 0 := rfl
  have hk : (eMac 0xA1 0 0 0 o 0).f.k = 0 := rfl
  generalize (eMac 0xA1 0 0 0 o 0).f = f at h hop hu hf ha hk ⊢
  simp only [decodeFields, dMacro, h, hop, hu, hf, ha, hk, Fld.fnu, need, dTrav]
  rfl

theorem RoundTrip.filt (o : OpFilt) : RoundTrip.Statement (.filt o) := by
  refine RoundTrip.ofWord _ _ rfl (fun hw => ?_)
  refine decode_of _ _ _ (by decide : opX 0xA2 = some true) ?_
  change decodeFields (eMac 0xA2 0 (o.a.setWidth 8) o.k o.m (0#25 ++ b1 o.av ++ 0#1 ++ b1 o.au ++ o.amax ++ b1 o.filt.b1 ++ b1 o.filt.b0)).f (Ext.of (Ext.word _)) _ = _
  rw [Ext.of_word]
  have h := dMac_enc (eMac 0xA2 0 (o.a.setWidth 8) o.k o.m (0#25 ++ b1 o.av ++ 0#1 ++ b1 o.au ++ o.amax ++ b1 o.filt.b1 ++ b1 o.filt.b0)).f ⟨o.m.w, o.m.sp.setWidth 8, o.m.sr.setWidth 8, 0, 0#25 ++ b1 o.av ++ 0#1 ++ b1 o.au ++ o.amax ++ b1 o.filt.b1 ++ b1 o.filt.b0⟩ o.m rfl rfl rfl rfl rfl rfl rfl rfl rfl rfl rfl rfl rfl rfl rfl rfl
  have hop : (eMac 0xA2 0 (o.a.setWidth 8) o.k o.m (0#25 ++ b1 o.av ++ 0#1 ++ b1 o.au ++ o.amax ++ b1 o.filt.b1 ++ b1 o.filt.b0)).f.op = 0xA2 := rfl
  have hu : (eMac 0xA2 0 (o.a.setWidth 8) o.k o.m (0#25 ++ b1 o.av ++ 0#1 ++ b1 o.au ++ o.amax ++ b1 o.filt.b1 ++ b1 o.filt.b0)).f.u = false := rfl
  have hf : (eMac 0xA2 0 (o.a.setWidth 8) o.k o.m (0#25 ++ b1 o.av ++ 0#1 ++ b1 o.au ++ o.amax ++ b1 o.filt.b1 ++ b1 o.filt.b0)).f.fn = 0 := rfl
  have ha : (eMac 0xA2 0 (o.a.setWidth 8) o.k o.m (0#25 ++ b1 o.av ++ 0#1 ++ b1 o.au ++ o.amax ++ b1 o.filt.b1 ++ b1 o.filt.b0)).f.a = o.a.setWidth 8 := rfl
  have hk : (eMac 0xA2 0 (o.a.setWidth 8) o.k o.m (0#25 ++ b1 o.av ++ 0#1 ++ b1 o.au ++ o.amax ++ b1 o.filt.b1 ++ b1 o.filt.b0)).f.k = o.k := rfl
  generalize (eMac 0xA2 0 (o.a.setWidth 8) o.k o.m (0#25 ++ b1 o.av ++ 0#1 ++ b1 o.au ++ o.amax ++ b1 o.filt.b1 ++ b1 o.filt.b0)).f = f at h hop hu hf ha hk ⊢
  obtain ⟨g1, g2, g3, g4, g5, g6⟩ := filt_imm o.av o.au o.filt.b0 o.filt.b1 o.amax
  obtain ⟨m, a, k, fl, amax, au, av⟩ := o
  dsimp only at *
  cases fl <;> simp_all [decodeFields, dMacro, Fld.fnu, need, dFilt, FiltKind.b0, FiltKind.b1]

theorem RoundTrip.travClosest (o : OpTrav) : RoundTrip.Statement (.travClosest o) := by
  refine RoundTrip.ofWord _ _ rfl (fun hw => ?_)
  refine decode_of _ _ _ (by decide : opX 0xA3 = some true) ?_
  change decodeFields (eMac 0xA3 0 (o.a.setWidth 8) o.k o.m 0).f (Ext.of (Ext.word _)) _ = _
  rw [Ext.of_word]
  have h := dMac_enc (eMac 0xA3 0 (o.a.setWidth 8) o.k o.m 0).f ⟨o.m.w, o.m.sp.setWidth 8, o.m.sr.setWidth 8, 0, 0⟩ o.m rfl rfl rfl rfl rfl rfl rfl rfl rfl rfl rfl rfl rfl rfl rfl rfl
  have hop : (eMac 0xA3 0 (o.a.setWidth 8) o.k o.m 0).f.op = 0xA3 := rfl
  have hu : (eMac 0xA3 0 (o.a.setWidth 8) o.k o.m 0).f.u = false := rfl
  have hf : (eMac 0xA3 0 (o.a.setWidth 8) o.k o.m 0).f.fn = 0 := rfl
  have ha : (eMac 0xA3 0 (o.a.setWidth 8) o.k o.m 0).f.a = o.a.setWidth 8 := rfl
  have hk : (eMac 0xA3 0 (o.a.setWidth 8) o.k o.m 0).f.k = o.k := rfl
  generalize (eMac 0xA3 0 (o.a.setWidth 8) o.k o.m 0).f = f at h hop hu hf ha hk ⊢
  simp only [decodeFields, dMacro, h, hop, hu, hf, ha, hk, Fld.fnu, need, dTrav, reg7_set]
  rfl

theorem RoundTrip.travAny (o : OpTrav) : RoundTrip.Statement (.travAny o) := by
  refine RoundTrip.ofWord _ _ rfl (fun hw => ?_)
  refine decode_of _ _ _ (by decide : opX 0xA3 = some true) ?_
  change decodeFields (eMac 0xA3 1 (o.a.setWidth 8) o.k o.m 0).f (Ext.of (Ext.word _)) _ = _
  rw [Ext.of_word]
  have h := dMac_enc (eMac 0xA3 1 (o.a.setWidth 8) o.k o.m 0).f ⟨o.m.w, o.m.sp.setWidth 8, o.m.sr.setWidth 8, 0, 0⟩ o.m rfl rfl rfl rfl rfl rfl rfl rfl rfl rfl rfl rfl rfl rfl rfl rfl
  have hop : (eMac 0xA3 1 (o.a.setWidth 8) o.k o.m 0).f.op = 0xA3 := rfl
  have hu : (eMac 0xA3 1 (o.a.setWidth 8) o.k o.m 0).f.u = false := rfl
  have hf : (eMac 0xA3 1 (o.a.setWidth 8) o.k o.m 0).f.fn = 1 := rfl
  have ha : (eMac 0xA3 1 (o.a.setWidth 8) o.k o.m 0).f.a = o.a.setWidth 8 := rfl
  have hk : (eMac 0xA3 1 (o.a.setWidth 8) o.k o.m 0).f.k = o.k := rfl
  generalize (eMac 0xA3 1 (o.a.setWidth 8) o.k o.m 0).f = f at h hop hu hf ha hk ⊢
  simp only [decodeFields, dMacro, h, hop, hu, hf, ha, hk, Fld.fnu, need, dTrav, reg7_set]
  rfl

theorem RoundTrip.travBox (o : OpTrav) : RoundTrip.Statement (.travBox o) := by
  refine RoundTrip.ofWord _ _ rfl (fun hw => ?_)
  refine decode_of _ _ _ (by decide : opX 0xA3 = some true) ?_
  change decodeFields (eMac 0xA3 2 (o.a.setWidth 8) o.k o.m 0).f (Ext.of (Ext.word _)) _ = _
  rw [Ext.of_word]
  have h := dMac_enc (eMac 0xA3 2 (o.a.setWidth 8) o.k o.m 0).f ⟨o.m.w, o.m.sp.setWidth 8, o.m.sr.setWidth 8, 0, 0⟩ o.m rfl rfl rfl rfl rfl rfl rfl rfl rfl rfl rfl rfl rfl rfl rfl rfl
  have hop : (eMac 0xA3 2 (o.a.setWidth 8) o.k o.m 0).f.op = 0xA3 := rfl
  have hu : (eMac 0xA3 2 (o.a.setWidth 8) o.k o.m 0).f.u = false := rfl
  have hf : (eMac 0xA3 2 (o.a.setWidth 8) o.k o.m 0).f.fn = 2 := rfl
  have ha : (eMac 0xA3 2 (o.a.setWidth 8) o.k o.m 0).f.a = o.a.setWidth 8 := rfl
  have hk : (eMac 0xA3 2 (o.a.setWidth 8) o.k o.m 0).f.k = o.k := rfl
  generalize (eMac 0xA3 2 (o.a.setWidth 8) o.k o.m 0).f = f at h hop hu hf ha hk ⊢
  simp only [decodeFields, dMacro, h, hop, hu, hf, ha, hk, Fld.fnu, need, dTrav, reg7_set]
  rfl

theorem RoundTrip.travSphere (o : OpTrav) : RoundTrip.Statement (.travSphere o) := by
  refine RoundTrip.ofWord _ _ rfl (fun hw => ?_)
  refine decode_of _ _ _ (by decide : opX 0xA3 = some true) ?_
  change decodeFields (eMac 0xA3 3 (o.a.setWidth 8) o.k o.m 0).f (Ext.of (Ext.word _)) _ = _
  rw [Ext.of_word]
  have h := dMac_enc (eMac 0xA3 3 (o.a.setWidth 8) o.k o.m 0).f ⟨o.m.w, o.m.sp.setWidth 8, o.m.sr.setWidth 8, 0, 0⟩ o.m rfl rfl rfl rfl rfl rfl rfl rfl rfl rfl rfl rfl rfl rfl rfl rfl
  have hop : (eMac 0xA3 3 (o.a.setWidth 8) o.k o.m 0).f.op = 0xA3 := rfl
  have hu : (eMac 0xA3 3 (o.a.setWidth 8) o.k o.m 0).f.u = false := rfl
  have hf : (eMac 0xA3 3 (o.a.setWidth 8) o.k o.m 0).f.fn = 3 := rfl
  have ha : (eMac 0xA3 3 (o.a.setWidth 8) o.k o.m 0).f.a = o.a.setWidth 8 := rfl
  have hk : (eMac 0xA3 3 (o.a.setWidth 8) o.k o.m 0).f.k = o.k := rfl
  generalize (eMac 0xA3 3 (o.a.setWidth 8) o.k o.m 0).f = f at h hop hu hf ha hk ⊢
  simp only [decodeFields, dMacro, h, hop, hu, hf, ha, hk, Fld.fnu, need, dTrav, reg7_set]
  rfl

theorem RoundTrip.bvrefit (o : OpBvrefit) : RoundTrip.Statement (.bvrefit o) := by
  refine RoundTrip.ofWord _ _ rfl (fun hw => ?_)
  refine decode_of _ _ _ (by decide : opX 0xA4 = some true) ?_
  change decodeFields (eMac 0xA4 0 (o.a.setWidth 8) 0 o.m 0).f (Ext.of (Ext.word _)) _ = _
  rw [Ext.of_word]
  have h := dMac_enc (eMac 0xA4 0 (o.a.setWidth 8) 0 o.m 0).f ⟨o.m.w, o.m.sp.setWidth 8, o.m.sr.setWidth 8, 0, 0⟩ o.m rfl rfl rfl rfl rfl rfl rfl rfl rfl rfl rfl rfl rfl rfl rfl rfl
  have hop : (eMac 0xA4 0 (o.a.setWidth 8) 0 o.m 0).f.op = 0xA4 := rfl
  have hu : (eMac 0xA4 0 (o.a.setWidth 8) 0 o.m 0).f.u = false := rfl
  have hf : (eMac 0xA4 0 (o.a.setWidth 8) 0 o.m 0).f.fn = 0 := rfl
  have ha : (eMac 0xA4 0 (o.a.setWidth 8) 0 o.m 0).f.a = o.a.setWidth 8 := rfl
  have hk : (eMac 0xA4 0 (o.a.setWidth 8) 0 o.m 0).f.k = 0 := rfl
  generalize (eMac 0xA4 0 (o.a.setWidth 8) 0 o.m 0).f = f at h hop hu hf ha hk ⊢
  simp only [decodeFields, dMacro, h, hop, hu, hf, ha, hk, Fld.fnu, need, dTrav, reg7_set]
  rfl

theorem RoundTrip.macroStep (w : Nat) : RoundTrip.Statement (.macroStep w) := by
  exact RoundTrip.stepOnly _ rfl

theorem RoundTrip.mapWordRefresh (core : Nat) (ctx : Nat) (addr : Nat) : RoundTrip.Statement (.mapWordRefresh core ctx addr) := by
  exact RoundTrip.stepOnly _ rfl

theorem RoundTrip.gqpushOpen (d : BitVec 7) (a : BitVec 7) (b : BitVec 7) (c : BitVec 7) : RoundTrip.Statement (.gqpushOpen d a b c) := by
  refine RoundTrip.ofWord _ _ rfl (fun hw => ?_)
  refine decode_of _ _ _ (by decide : opX 0xA5 = some false) ?_
  simp_all [decodeFields, dMacro, eS, Fld.with43, need, Fld.fnu, eF, dGqpush]

theorem RoundTrip.gqpushVtx (k : BitVec 4) (d : BitVec 8) (a : BitVec 7) (b : BitVec 7) (c : BitVec 8) : RoundTrip.Statement (.gqpushVtx k d a b c) := by
  refine RoundTrip.ofWord _ _ rfl (fun hw => ?_)
  refine decode_of _ _ _ (by decide : opX 0xA5 = some false) ?_
  simp_all [decodeFields, dMacro, eS, need, Fld.fnu, eF, dGqpush]

theorem RoundTrip.gqpushPrim (k : BitVec 4) (d : BitVec 8) (a : BitVec 7) (b : BitVec 7) (c : BitVec 8) : RoundTrip.Statement (.gqpushPrim k d a b c) := by
  refine RoundTrip.ofWord _ _ rfl (fun hw => ?_)
  refine decode_of _ _ _ (by decide : opX 0xA5 = some false) ?_
  simp_all [decodeFields, dMacro, eS, need, Fld.fnu, eF, dGqpush]

theorem RoundTrip.gqpushClose (a : BitVec 7) (b : BitVec 7) : RoundTrip.Statement (.gqpushClose a b) := by
  refine RoundTrip.ofWord _ _ rfl (fun hw => ?_)
  refine decode_of _ _ _ (by decide : opX 0xA5 = some false) ?_
  simp_all [decodeFields, dMacro, eS, Fld.with43, need, Fld.fnu, eF, dGqpush]

theorem RoundTrip.gqpopTake (d : BitVec 7) (a : BitVec 7) : RoundTrip.Statement (.gqpopTake d a) := by
  refine RoundTrip.ofWord _ _ rfl (fun hw => ?_)
  refine decode_of _ _ _ (by decide : opX 0xA6 = some false) ?_
  simp_all [decodeFields, dMacro, eS, need, Fld.fnu, eF, dGqpop]

theorem RoundTrip.gqpopRec (k : BitVec 4) (d : BitVec 8) (a : BitVec 7) (c : BitVec 8) : RoundTrip.Statement (.gqpopRec k d a c) := by
  refine RoundTrip.ofWord _ _ rfl (fun hw => ?_)
  refine decode_of _ _ _ (by decide : opX 0xA6 = some false) ?_
  simp_all [decodeFields, dMacro, eS, need, Fld.fnu, eF, dGqpop]

theorem RoundTrip.gqpopFree (a : BitVec 7) (b : BitVec 7) : RoundTrip.Statement (.gqpopFree a b) := by
  refine RoundTrip.ofWord _ _ rfl (fun hw => ?_)
  refine decode_of _ _ _ (by decide : opX 0xA6 = some false) ?_
  simp_all [decodeFields, dMacro, eS, Fld.with43, need, Fld.fnu, eF, dGqpop]

theorem RoundTrip.psalloc (k : BitVec 4) (d : BitVec 8) (c : BitVec 4) : RoundTrip.Statement (.psalloc k d c) := by
  refine RoundTrip.ofWord _ _ rfl (fun hw => ?_)
  refine decode_of _ _ _ (by decide : opX 0xA7 = some false) ?_
  simp_all [decodeFields, dMacro, need, Fld.mod0, Fld.mod50, Fld.fnu, eF]

theorem RoundTrip.psfree (k : BitVec 4) (a : BitVec 8) (c : BitVec 4) : RoundTrip.Statement (.psfree k a c) := by
  refine RoundTrip.ofWord _ _ rfl (fun hw => ?_)
  refine decode_of _ _ _ (by decide : opX 0xA8 = some false) ?_
  simp_all [decodeFields, dMacro, need, Fld.mod0, Fld.mod50, Fld.fnu, eF]

theorem RoundTrip.sqpush (k : BitVec 4) (a : BitVec 8) (n : BitVec 3) (c : BitVec 4) : RoundTrip.Statement (.sqpush k a n c) := by
  refine RoundTrip.ofWord _ _ rfl (fun hw => ?_)
  refine decode_of _ _ _ (by decide : opX 0xA9 = some false) ?_
  simp_all [decodeFields, dMacro, need, Fld.mod0, Fld.mod50, Fld.fnu, eF, three_set]

theorem RoundTrip.sqpop (k : BitVec 4) (d : BitVec 8) (n : BitVec 3) (c : BitVec 4) : RoundTrip.Statement (.sqpop k d n c) := by
  refine RoundTrip.ofWord _ _ rfl (fun hw => ?_)
  refine decode_of _ _ _ (by decide : opX 0xAA = some false) ?_
  simp_all [decodeFields, dMacro, need, Fld.mod0, Fld.mod50, Fld.fnu, eF, three_set]

theorem RoundTrip.trap (n : BitVec 12) : RoundTrip.Statement (.trap n) := by
  refine RoundTrip.ofWord _ _ rfl (fun hw => ?_)
  refine decode_of _ _ _ (by decide : opX 0xC0 = some false) ?_
  have hop : ((eF 0xC0).withImm (n.setWidth 32)).op = 0xC0 := rfl
  have h1 : ((eF 0xC0).withImm (n.setWidth 32)).fnu = true := rfl
  have h2 : ((eF 0xC0).withImm (n.setWidth 32)).d = 0 := rfl
  have h3 : ((eF 0xC0).withImm (n.setWidth 32)).a = 0 := rfl
  have h4 : ((eF 0xC0).withImm (n.setWidth 32)).imm = n.setWidth 32 := Fld.imm_withImm _ _
  change decodeFields ((eF 0xC0).withImm (n.setWidth 32)) (Ext.of _) _ = _
  generalize ((eF 0xC0).withImm (n.setWidth 32)) = f at hop h1 h2 h3 h4 ⊢
  simp only [decodeFields, dSys, hop, h1, h2, h3, h4, need, trap_mask, trap_31, trap_n]
  rfl

theorem RoundTrip.trapFatal (n : BitVec 12) : RoundTrip.Statement (.trapFatal n) := by
  refine RoundTrip.ofWord _ _ rfl (fun hw => ?_)
  refine decode_of _ _ _ (by decide : opX 0xC0 = some false) ?_
  have hop : ((eF 0xC0).withImm (1#1 ++ 0#19 ++ n)).op = 0xC0 := rfl
  have h1 : ((eF 0xC0).withImm (1#1 ++ 0#19 ++ n)).fnu = true := rfl
  have h2 : ((eF 0xC0).withImm (1#1 ++ 0#19 ++ n)).d = 0 := rfl
  have h3 : ((eF 0xC0).withImm (1#1 ++ 0#19 ++ n)).a = 0 := rfl
  have h4 : ((eF 0xC0).withImm (1#1 ++ 0#19 ++ n)).imm = 1#1 ++ 0#19 ++ n := Fld.imm_withImm _ _
  change decodeFields ((eF 0xC0).withImm (1#1 ++ 0#19 ++ n)) (Ext.of _) _ = _
  generalize ((eF 0xC0).withImm (1#1 ++ 0#19 ++ n)) = f at hop h1 h2 h3 h4 ⊢
  simp only [decodeFields, dSys, hop, h1, h2, h3, h4, need, trapFatal_mask, trapFatal_31, trapFatal_n]
  rfl

theorem RoundTrip.brk (n : W32) : RoundTrip.Statement (.brk n) := by
  refine RoundTrip.ofWord _ _ rfl (fun hw => ?_)
  refine decode_of _ _ _ (by decide : opX 0xC3 = some false) ?_
  have hop : ((eF 0xC3).withImm n).op = 0xC3 := rfl
  have h1 : ((eF 0xC3).withImm n).fnu = true := rfl
  have h2 : ((eF 0xC3).withImm n).d = 0 := rfl
  have h3 : ((eF 0xC3).withImm n).a = 0 := rfl
  have h4 : ((eF 0xC3).withImm n).imm = n := Fld.imm_withImm _ _
  change decodeFields ((eF 0xC3).withImm n) (Ext.of _) _ = _
  generalize ((eF 0xC3).withImm n) = f at hop h1 h2 h3 h4 ⊢
  simp only [decodeFields, dSys, hop, h1, h2, h3, h4, need]
  rfl

theorem RoundTrip.svc (n : W32) : RoundTrip.Statement (.svc n) := by
  refine RoundTrip.ofWord _ _ rfl (fun hw => ?_)
  refine decode_of _ _ _ (by decide : opX 0xC4 = some false) ?_
  have hop : ((eF 0xC4).withImm n).op = 0xC4 := rfl
  have h1 : ((eF 0xC4).withImm n).fnu = true := rfl
  have h2 : ((eF 0xC4).withImm n).d = 0 := rfl
  have h3 : ((eF 0xC4).withImm n).a = 0 := rfl
  have h4 : ((eF 0xC4).withImm n).imm = n := Fld.imm_withImm _ _
  change decodeFields ((eF 0xC4).withImm n) (Ext.of _) _ = _
  generalize ((eF 0xC4).withImm n) = f at hop h1 h2 h3 h4 ⊢
  simp only [decodeFields, dSys, hop, h1, h2, h3, h4, need]
  rfl

theorem RoundTrip.rdsr (d : Dst) (r : SReg) : RoundTrip.Statement (.rdsr d r) := by
  refine RoundTrip.ofWord _ _ rfl (fun hw => ?_)
  refine decode_of _ _ _ (by decide : opX 0xC1 = some false) ?_
  have hw : (d.isVec == (r == .laneid) : Bool) = true := hw
  simp_all [decodeFields, dSys, need, Fld.fnu, eF, dRdsr]
  have h := dstOf_code d
  rw [show (!d.isVec) = (r != .laneid) by simp [hw, bne]] at h
  rw [h]
  rfl

theorem RoundTrip.wrsr (r : SReg) (b : SC) : RoundTrip.Statement (.wrsr r b) := by
  refine RoundTrip.ofWord _ _ rfl (fun hw => ?_)
  refine decode_of _ _ _ (by decide : opX 0xC2 = some false) ?_
  have hw : (r.writable && b.ok .n64 : Bool) = true := hw
  simp_all [decodeFields, dSys, need, Fld.fnu, eF, dWrsr]
  rw [scOf_code _ _ hw.2]
  rfl

theorem RoundTrip.rdsrWindow (o : RdWin) : RoundTrip.Statement (.rdsrWindow o) := by
  cases o <;> try
    (refine RoundTrip.ofWord _ _ rfl (fun hw => ?_)
     refine decode_of _ _ _ (by decide : opX 0xC1 = some false) ?_
     simp [decodeFields, dSys, need, Fld.fnu, eF, dRdsr])
  rename_i d w o
  cases w <;> rfl

theorem RoundTrip.wrsrWindow (o : WrWin) : RoundTrip.Statement (.wrsrWindow o) := by
  cases o <;> try
    (refine RoundTrip.ofWord _ _ rfl (fun hw => ?_)
     refine decode_of _ _ _ (by decide : opX 0xC2 = some false) ?_
     simp [decodeFields, dSys, need, Fld.fnu, eF, dWrsr])
  rename_i w b o
  cases w <;> (intro h; exact absurd h (by decide))

theorem RoundTrip.tlbinvRange (r : Bool) (d : BitVec 7) (a : BitVec 7) (b : BitVec 7) (c : BitVec 7) : RoundTrip.Statement (.tlbinvRange r d a b c) := by
  refine RoundTrip.ofWord _ _ rfl (fun hw => ?_)
  refine decode_of _ _ _ (by decide : opX 0xC5 = some false) ?_
  simp_all [decodeFields, dSys, eS, need, Fld.fnu, eF, dTlbinv]

theorem RoundTrip.tlbinvCtx (r : Bool) (d : BitVec 7) (c : BitVec 7) : RoundTrip.Statement (.tlbinvCtx r d c) := by
  refine RoundTrip.ofWord _ _ rfl (fun hw => ?_)
  refine decode_of _ _ _ (by decide : opX 0xC5 = some false) ?_
  simp_all [decodeFields, dSys, eS, need, Fld.fnu, eF, dTlbinv]
  rfl

theorem RoundTrip.tlbinvHnd (d : BitVec 7) (a : BitVec 7) (b : BitVec 7) (c : BitVec 7) : RoundTrip.Statement (.tlbinvHnd d a b c) := by
  refine RoundTrip.ofWord _ _ rfl (fun hw => ?_)
  refine decode_of _ _ _ (by decide : opX 0xC5 = some false) ?_
  simp_all [decodeFields, dSys, eS, need, Fld.fnu, eF, dTlbinv]

theorem RoundTrip.pmrd (d : BitVec 7) : RoundTrip.Statement (.pmrd d) := by
  refine RoundTrip.ofWord _ _ rfl (fun hw => ?_)
  refine decode_of _ _ _ (by decide : opX 0xC7 = some false) ?_
  simp_all [decodeFields, dSys, eS, need, Fld.low0, Fld.mod0, Fld.mod50, Fld.fnu, eF]

theorem RoundTrip.pmctl (a : BitVec 7) : RoundTrip.Statement (.pmctl a) := by
  refine RoundTrip.ofWord _ _ rfl (fun hw => ?_)
  refine decode_of _ _ _ (by decide : opX 0xC8 = some false) ?_
  simp_all [decodeFields, dSys, eS, need, Fld.low0, Fld.mod0, Fld.mod50, Fld.fnu, eF]

theorem RoundTrip.qrst (d : BitVec 7) (a : BitVec 7) (b : BitVec 7) : RoundTrip.Statement (.qrst d a b) := by
  refine RoundTrip.ofWord _ _ rfl (fun hw => ?_)
  refine decode_of _ _ _ (by decide : opX 0xC9 = some false) ?_
  simp_all [decodeFields, dSys, eS, need, Fld.low0, Fld.mod0, Fld.mod50, Fld.fnu, eF]

theorem RoundTrip.zeroWord : RoundTrip.Statement (.zeroWord) := by
  exact RoundTrip.stepOnly _ rfl

theorem RoundTrip.emulate (r : Reason) : RoundTrip.Statement (.emulate r) := by
  exact RoundTrip.stepOnly _ rfl

theorem RoundTrip.microcodeOp (op : BitVec 4) : RoundTrip.Statement (.microcodeOp op) := by
  exact RoundTrip.stepOnly _ rfl

theorem RoundTrip.regfileLineFetch (w : Nat) (line : Nat) : RoundTrip.Statement (.regfileLineFetch w line) := by
  exact RoundTrip.stepOnly _ rfl

theorem RoundTrip.l1Writeback (core : Nat) (ctx : Nat) (line : Nat) : RoundTrip.Statement (.l1Writeback core ctx line) := by
  exact RoundTrip.stepOnly _ rfl

theorem RoundTrip.l2Writeback (line : Nat) : RoundTrip.Statement (.l2Writeback line) := by
  exact RoundTrip.stepOnly _ rfl

theorem RoundTrip.faultRecordWrite (ctx : Nat) (page : Nat) : RoundTrip.Statement (.faultRecordWrite ctx page) := by
  exact RoundTrip.stepOnly _ rfl

theorem RoundTrip.pageMigration (ctx : Nat) (page : Nat) (frame : Nat) : RoundTrip.Statement (.pageMigration ctx page frame) := by
  exact RoundTrip.stepOnly _ rfl

theorem RoundTrip.doorbell (part : Nat) (vf : Nat) (q : Nat) (widx : W64) : RoundTrip.Statement (.doorbell part vf q widx) := by
  exact RoundTrip.stepOnly _ rfl

theorem RoundTrip.pad (q : Nat) : RoundTrip.Statement (.pad q) := by
  exact RoundTrip.stepOnly _ rfl

theorem RoundTrip.launch (q : Nat) : RoundTrip.Statement (.launch q) := by
  exact RoundTrip.stepOnly _ rfl

theorem RoundTrip.taskset (q : Nat) : RoundTrip.Statement (.taskset q) := by
  exact RoundTrip.stepOnly _ rfl

theorem RoundTrip.copy (q : Nat) : RoundTrip.Statement (.copy q) := by
  exact RoundTrip.stepOnly _ rfl

theorem RoundTrip.waitguard (q : Nat) : RoundTrip.Statement (.waitguard q) := by
  exact RoundTrip.stepOnly _ rfl

theorem RoundTrip.waitguardRelease (q : Nat) : RoundTrip.Statement (.waitguardRelease q) := by
  exact RoundTrip.stepOnly _ rfl

theorem RoundTrip.signal (q : Nat) : RoundTrip.Statement (.signal q) := by
  exact RoundTrip.stepOnly _ rfl

theorem RoundTrip.launchComplete (l : Nat) : RoundTrip.Statement (.launchComplete l) := by
  exact RoundTrip.stepOnly _ rfl

theorem RoundTrip.taskAdmit (ts : Nat) : RoundTrip.Statement (.taskAdmit ts) := by
  exact RoundTrip.stepOnly _ rfl

theorem RoundTrip.taskStart (ts : Nat) (t : Nat) : RoundTrip.Statement (.taskStart ts t) := by
  exact RoundTrip.stepOnly _ rfl

theorem RoundTrip.taskRetire (ts : Nat) (t : Nat) : RoundTrip.Statement (.taskRetire ts t) := by
  exact RoundTrip.stepOnly _ rfl

theorem RoundTrip.bindRecordValid (core : Nat) (idx : Nat) (r : BindRec) : RoundTrip.Statement (.bindRecordValid core idx r) := by
  exact RoundTrip.stepOnly _ rfl

theorem RoundTrip.packedWaveStart (core : Nat) (idx : Nat) : RoundTrip.Statement (.packedWaveStart core idx) := by
  exact RoundTrip.stepOnly _ rfl

theorem RoundTrip.blockPreempt (b : Nat) : RoundTrip.Statement (.blockPreempt b) := by
  exact RoundTrip.stepOnly _ rfl

theorem RoundTrip.timeSliceEnd (part : Nat) : RoundTrip.Statement (.timeSliceEnd part) := by
  exact RoundTrip.stepOnly _ rfl

theorem RoundTrip.worldSwitch (part : Nat) (vf : Nat) : RoundTrip.Statement (.worldSwitch part vf) := by
  exact RoundTrip.stepOnly _ rfl

theorem RoundTrip.qclassIdle (part : Nat) (cls : Nat) : RoundTrip.Statement (.qclassIdle part cls) := by
  exact RoundTrip.stepOnly _ rfl

theorem RoundTrip.ctlTlbinv (part : Nat) (vf : Nat) (a0 : W64) (a1 : W64) (a2 : W64) (a3 : W64) : RoundTrip.Statement (.ctlTlbinv part vf a0 a1 a2 a3) := by
  exact RoundTrip.stepOnly _ rfl

theorem RoundTrip.ctlQrst (part : Nat) (vf : Nat) (a0 : W64) (a1 : W64) : RoundTrip.Statement (.ctlQrst part vf a0 a1) := by
  exact RoundTrip.stepOnly _ rfl

theorem RoundTrip.ctlPmctl (part : Nat) (vf : Nat) (a0 : W64) (a2 : W64) : RoundTrip.Statement (.ctlPmctl part vf a0 a2) := by
  exact RoundTrip.stepOnly _ rfl

theorem RoundTrip.registerContext (part : Nat) (vf : Nat) (a0 : W64) : RoundTrip.Statement (.registerContext part vf a0) := by
  exact RoundTrip.stepOnly _ rfl

theorem RoundTrip.retireContext (part : Nat) (vf : Nat) (a0 : W64) : RoundTrip.Statement (.retireContext part vf a0) := by
  exact RoundTrip.stepOnly _ rfl

theorem RoundTrip.setInterruptRecord (part : Nat) (vf : Nat) (a0 : W64) : RoundTrip.Statement (.setInterruptRecord part vf a0) := by
  exact RoundTrip.stepOnly _ rfl

theorem RoundTrip.ctlResetContext (part : Nat) (vf : Nat) (a0 : W64) : RoundTrip.Statement (.ctlResetContext part vf a0) := by
  exact RoundTrip.stepOnly _ rfl

theorem RoundTrip.ctlUndefinedRequest (part : Nat) (vf : Nat) (op : W64) (a3 : W64) : RoundTrip.Statement (.ctlUndefinedRequest part vf op a3) := by
  exact RoundTrip.stepOnly _ rfl

theorem RoundTrip.contextReset (ctx : Nat) (cause : BitVec 16) (addr : W64) : RoundTrip.Statement (.contextReset ctx cause addr) := by
  exact RoundTrip.stepOnly _ rfl

theorem RoundTrip.vfReset (part : Nat) (vf : Nat) : RoundTrip.Statement (.vfReset part vf) := by
  exact RoundTrip.stepOnly _ rfl

theorem RoundTrip.partitionReset (part : Nat) : RoundTrip.Statement (.partitionReset part) := by
  exact RoundTrip.stepOnly _ rfl

theorem RoundTrip.deviceReset : RoundTrip.Statement (.deviceReset) := by
  exact RoundTrip.stepOnly _ rfl

theorem RoundTrip.powerOn : RoundTrip.Statement (.powerOn) := by
  exact RoundTrip.stepOnly _ rfl

theorem RoundTrip.writePartitionTable (t : List PartEntry) : RoundTrip.Statement (.writePartitionTable t) := by
  exact RoundTrip.stepOnly _ rfl

theorem RoundTrip.writePeerWindow (w : Nat) (word : W64) : RoundTrip.Statement (.writePeerWindow w word) := by
  exact RoundTrip.stepOnly _ rfl

theorem RoundTrip.setErrorThreshold (n : Nat) : RoundTrip.Statement (.setErrorThreshold n) := by
  exact RoundTrip.stepOnly _ rfl

theorem RoundTrip.setPowerCap (watts : Nat) : RoundTrip.Statement (.setPowerCap watts) := by
  exact RoundTrip.stepOnly _ rfl

theorem RoundTrip.installFirmware (x : FwItem) : RoundTrip.Statement (.installFirmware x) := by
  exact RoundTrip.stepOnly _ rfl

theorem RoundTrip.flitCrcFail (x : FlitReplay) : RoundTrip.Statement (.flitCrcFail x) := by
  exact RoundTrip.stepOnly _ rfl

theorem RoundTrip.linkdown (link : Nat) : RoundTrip.Statement (.linkdown link) := by
  exact RoundTrip.stepOnly _ rfl

theorem RoundTrip.correctedError (x : CountSite) : RoundTrip.Statement (.correctedError x) := by
  exact RoundTrip.stepOnly _ rfl

theorem RoundTrip.uncorrectableError (x : ErrSite) : RoundTrip.Statement (.uncorrectableError x) := by
  exact RoundTrip.stepOnly _ rfl

theorem RoundTrip.coreRetire (core : Nat) : RoundTrip.Statement (.coreRetire core) := by
  exact RoundTrip.stepOnly _ rfl

theorem RoundTrip.thermalThrottle : RoundTrip.Statement (.thermalThrottle) := by
  exact RoundTrip.stepOnly _ rfl

theorem RoundTrip.thermalTrip : RoundTrip.Statement (.thermalTrip) := by
  exact RoundTrip.stepOnly _ rfl

theorem RoundTrip.memoryAccessPerformed (w : Nat) (idx : Nat) (lanes : W64) : RoundTrip.Statement (.memoryAccessPerformed w idx lanes) := by
  exact RoundTrip.stepOnly _ rfl

theorem RoundTrip.hostMemoryAccess (a : HostAddr) (x : ExtOp) : RoundTrip.Statement (.hostMemoryAccess a x) := by
  exact RoundTrip.stepOnly _ rfl

theorem RoundTrip.pcieDma (part : Nat) (pa : Nat) (x : ExtOp) : RoundTrip.Statement (.pcieDma part pa x) := by
  exact RoundTrip.stepOnly _ rfl

theorem RoundTrip.peerAccess (part : Nat) (pa : Nat) (x : ExtOp) : RoundTrip.Statement (.peerAccess part pa x) := by
  exact RoundTrip.stepOnly _ rfl

end Sys2Proof.Laws
end

