-- ==== Sys2Proof/Safety.lean ====
section
/-!
DEFINITION. What a safe step is, and the terms that statements use: an instruction of the issuing wave that completes,
what it leaves as it was, and what it writes in which lanes (spec/04_vector_isa.md R90, R92; spec/01_machine.md R13 to R17).
-/

namespace Sys2Proof.Machine

/-- A step answers a next state. -/
def State.safe (s : State) : Prop := ∃ t, step s = .next t

/-- The management plane holds legal values: the partition table is one that R302 accepts, the cap and the clock lie in their
ranges (R359), a module that has booted has power and is not in recovery, and one that has tripped is off (R360). -/
def State.legal (s : State) : Prop :=
  legalTable s.mgmt.table = true ∧ s.mgmt.powerCap ≤ 1900 ∧ 1200 ≤ s.mgmt.clock ∧ s.mgmt.clock ≤ 1900
    ∧ (s.mgmt.booted = true → s.mgmt.powered = true ∧ s.mgmt.recovery = false) ∧ (s.mgmt.tripped = true → s.mgmt.powered = false)

/-- The state in which the issuing wave stands as `v`, in a machine otherwise as `m`: one more change is counted. -/
def State.after (s : State) (e : Env) (m : Mach) (v : Wave) : State :=
  { s with m := { m.putWave e.id v with changes := m.changes + 1 } }

/-- A wave without what statements about registers speak of one by one: its PC, its vector, scalar and mask registers,
its masks `exec`, its flags, and what says only that it has gone on (its hold, the age of its accesses, R320). -/
def Wave.bare (w : Wave) : Wave :=
  let h : Half → Half := fun h => { h with s := [], k := [], exec := 0, fpflag := 0 }
  { w with
    pc := 0, v := [], hold := .none, quiet := false, lo := h w.lo, hi := h w.hi
    acc := w.acc.map (fun a => { a with younger := 0 }) }

/-- The instruction completes: it leaves the issuing wave as `v`, every other wave, memory and every other part of
the state as they were, and `P` says what `v` is. -/
def Completes (s : State) (e : Env) (i : Instr) (P : Wave → Prop) : Prop :=
  ∃ v, exec i s = .next (s.after e s.m v) ∧ P v

/-- The same, for an instruction that changes the machine as well. -/
def CompletesIn (s : State) (e : Env) (i : Instr) (P : Mach → Wave → Prop) : Prop :=
  ∃ m v, exec i s = .next (s.after e m v) ∧ P m v

/-- The issuing wave `e.w` has gone on by `n` bytes as `v`: nothing else of it has changed but, where the other
clauses of a statement say so, registers, masks and flags. -/
def GoesOn (e : Env) (n : Nat) (v : Wave) : Prop := v.pc = e.w.pc + w64 n ∧ v.bare = e.w.bare

def KeepsV (e : Env) (v : Wave) : Prop := ∀ p r l, v.getV p r l = e.w.getV p r l
def KeepsS (e : Env) (v : Wave) : Prop := ∀ p r, v.getS p r = e.w.getS p r
def KeepsK (e : Env) (v : Wave) : Prop := ∀ p n, v.getK p n = e.w.getK p n
def KeepsExec (e : Env) (v : Wave) : Prop := ∀ p, (v.half p).exec = (e.w.half p).exec
def KeepsFlags (e : Env) (v : Wave) : Prop := ∀ p, (v.half p).fpflag = (e.w.half p).fpflag

/-- Lane l of half p is in `active(W)` for predicate k (R7). -/
def Wave.isActive (w : Wave) (p : Bool) (k l : Nat) : Bool := decide (l ∈ w.active p k)

/-- Vector register r of the active lanes holds `val`, filled as R90 says; under a 64-bit type so does the pair r, r + 1;
every other register and lane of the wave keeps its value. -/
def WritesVec (e : Env) (v : Wave) (k : Nat) (t : Ty) (r : Nat) (val : Bool → Nat → Nat) : Prop :=
  ∀ p ∈ e.w.groups, ∀ l < e.w.W, ∀ j, v.getV p j l =
    if e.w.isActive p k l then
      if Ty.wide t = true ∧ j = r + 1 then BitVec.ofNat 32 (val p l / 2 ^ 32)
      else if j = r then BitVec.ofNat 32 (if Ty.wide t then val p l else vecFill t (val p l))
      else e.w.getV p j l
    else e.w.getV p j l

/-- Scalar register r of each half with an active lane holds the value of its first one; every other scalar register
keeps its value (R92). -/
def WritesSca (e : Env) (v : Wave) (k : Nat) (t : Ty) (r : Nat) (val : Bool → Nat → Nat) : Prop :=
  ∀ p j, v.getS p j =
    match (if p ∈ e.w.groups then e.w.active p k else []) with
    | l :: _ => if j = r then w64 (scaFill t (val p l)) else e.w.getS p j
    | [] => e.w.getS p j

/-- The destination of an instruction holds `val` in the active lanes; no other register does anything (R6, R92). -/
def WritesDst (e : Env) (v : Wave) (k : Nat) (t : Ty) (d : Dst) (val : Bool → Nat → Nat) : Prop :=
  match d with
  | .vec r => WritesVec e v k t r.toNat val ∧ KeepsS e v
  | .sca r => WritesSca e v k t r.toNat val ∧ KeepsV e v

/-- Bit l of mask register d is `val` for each active lane; its other bits and every other mask register keep their
values, and `k0` reads as ones still (R13, R17, R102). -/
def WritesBits (e : Env) (v : Wave) (k d : Nat) (val : Bool → Nat → Bool) : Prop :=
  ∀ p j l, bit (v.getK p j) l =
    if j = d ∧ d ≠ 0 ∧ p ∈ e.w.groups ∧ e.w.isActive p k l then val p l else bit (e.w.getK p j) l

/-- A register result and nothing else: the shape of an instruction that raises no flag. -/
def LaneResult (e : Env) (k : BitVec 4) (t : Ty) (d : Dst) (n : Nat) (val : Bool → Nat → Nat) (v : Wave) : Prop :=
  GoesOn e n v ∧ WritesDst e v k.toNat t d val ∧ KeepsK e v ∧ KeepsExec e v ∧ KeepsFlags e v

/-- Mask bits and nothing else: the shape of an integer comparison. -/
def MaskResult (e : Env) (k d : Nat) (val : Bool → Nat → Bool) (v : Wave) : Prop :=
  GoesOn e 8 v ∧ WritesBits e v k d val ∧ KeepsV e v ∧ KeepsS e v ∧ KeepsExec e v ∧ KeepsFlags e v

/-- The flags that the active lanes of a half raise, or under U = 1 its first one (R71, R92). -/
def raised (e : Env) (k : Nat) (uni : Bool) (fl : Bool → Nat → Flags) (p : Bool) : Flags :=
  (e.w.work k uni).foldl (fun (a : Flags) x => if x.1 = p then a ||| fl x.1 x.2 else a) 0

/-- The flags of a half become sticky (R71). -/
def AddsFlags (e : Env) (k : Nat) (uni : Bool) (fl : Bool → Nat → Flags) (v : Wave) : Prop :=
  ∀ p, (v.half p).fpflag = (e.w.half p).fpflag ||| (raised e k uni fl p).setWidth 64

/-- No active lane raises an exception that its half has enabled in `FPCTL` (R71): the instruction does not trap. -/
def Env.calm (e : Env) (k : Nat) (uni : Bool) (fl : Bool → Nat → Flags) : Prop :=
  ∀ p n, n < 5 → bit (e.w.half p).fpctl n = true → (raised e k uni fl p).getLsbD n = false

/-- A register result with its sticky flags. -/
def FloatResult (e : Env) (k : BitVec 4) (t : Ty) (d : Dst) (val : Bool → Nat → Nat × Flags) (v : Wave) : Prop :=
  GoesOn e 8 v ∧ WritesDst e v k.toNat t d (fun p l => (val p l).1) ∧ KeepsK e v ∧ KeepsExec e v
    ∧ AddsFlags e k.toNat (Dst.uni d) (fun p l => (val p l).2) v

/-- The instruction completes with that result unless it traps. -/
def FloatCompletes (s : State) (e : Env) (i : Instr) (k : BitVec 4) (t : Ty) (d : Dst) (val : Bool → Nat → Nat × Flags) : Prop :=
  e.calm k.toNat (Dst.uni d) (fun p l => (val p l).2) → Completes s e i (FloatResult e k t d val)

/-- Mask bits with their sticky flags: the shape of a floating comparison. -/
def FloatMaskResult (e : Env) (k d : Nat) (val : Bool → Nat → Bool × Flags) (v : Wave) : Prop :=
  GoesOn e 8 v ∧ WritesBits e v k d (fun p l => (val p l).1) ∧ KeepsV e v ∧ KeepsS e v ∧ KeepsExec e v
    ∧ AddsFlags e k false (fun p l => (val p l).2) v

/-- A half in which an instruction that is not predicated runs: each half of a W = 16 pair that has lanes (R15). -/
abbrev Wave.runs (w : Wave) (p : Bool) : Prop := p ∈ w.groups ∧ (w.width = .w16 → (w.half p).exec ≠ 0)

/-- Mask register or `exec` d of each half that runs holds `f` in bits 0 to W − 1 and zeros above; a write to `k0` is
ignored, a write to `exec` leaves zero the bits of lanes that have ended (R119, R259). -/
def MaskWritten (e : Env) (d : MX) (f : Bool → Nat → Bool) (v : Wave) : Prop :=
  GoesOn e 8 v ∧ KeepsV e v ∧ KeepsS e v ∧ KeepsFlags e v ∧
    match d with
    | .k n => KeepsExec e v ∧ ∀ p j l, bit (v.getK p j) l =
        if e.w.runs p ∧ j = n.toNat ∧ n ≠ 0 then decide (l < e.w.W) && f p l else bit (e.w.getK p j) l
    | .exec => KeepsK e v ∧ ∀ p l, bit (v.half p).exec l =
        if e.w.runs p then decide (l < e.w.W) && f p l && !bit (e.w.half p).ended l else bit (e.w.half p).exec l

/-- Scalar d of each half that runs holds `f` (R121). -/
def ScalarWritten (e : Env) (d : BitVec 7) (f : Bool → W64) (v : Wave) : Prop :=
  GoesOn e 8 v ∧ KeepsV e v ∧ KeepsK e v ∧ KeepsExec e v ∧ KeepsFlags e v
    ∧ ∀ p j, v.getS p j = if e.w.runs p ∧ j = d.toNat then f p else e.w.getS p j

/-! ## Rounding (spec/03_numbers.md R68, R74) -/

/-- `a × 2^ea` compared with `b × 2^eb`. -/
def scaled (a : Nat) (ea : Int) (b : Nat) (eb : Int) : Ordering :=
  compare (a * 2 ^ (ea - eb).toNat) (b * 2 ^ (eb - ea).toNat)

/-- The magnitude that pattern p stands for, sign bit aside, as `m × 2^e`; the pattern of infinity stands for the
power of two above the largest finite value (R66). -/
def Fmt.parts (f : Fmt) (p : Nat) : Nat × Int :=
  if p < 2 ^ f.mb then (p, f.qmin) else (2 ^ f.mb + p % 2 ^ f.mb, f.qmin + (p / 2 ^ f.mb : Nat) - 1)

/-- A magnitude that lies between two neighbours is rounded away from zero: `mid` says how it compares with their
midpoint, `odd` that the lower one is odd (R68). -/
def goesUp (rm : Rm) (neg odd : Bool) (mid : Ordering) : Prop :=
  match rm with
  | .near => mid = .gt ∨ mid = .eq ∧ odd = true
  | .zero => False
  | .up => neg = false
  | .down => neg = true

/-- `r` is a nonzero real rounded as R68 and R70 say: its sign is `neg`, and `x m e` compares its magnitude with
`m × 2^e`. The pattern is the neighbour below or above; above the largest finite value the result overflows; UNDERFLOW
is raised where the result is inexact and, rounded to full precision, lies below the normal range. -/
def Rounds (f : Fmt) (rm : Rm) (sat neg : Bool) (x : Nat → Int → Ordering) (r : Nat × Flags) : Prop :=
  let v := fun p => (f.parts p).1
  let q := fun p => (f.parts p).2
  ∃ lo ≤ f.infPat, x (v lo) (q lo) ≠ .lt ∧ (lo < f.infPat → x (v (lo + 1)) (q (lo + 1)) = .lt) ∧
    let exact := x (v lo) (q lo) = .eq
    let up := ¬ exact ∧ goesUp rm neg (lo % 2 == 1) (x (2 * v lo + 1) (q lo - 1))
    let tiny := x (2 ^ f.mb) f.qmin = .lt ∧ ¬ (x (2 ^ (f.mb + 1) - 1) (f.qmin - 1) = .gt
      ∧ goesUp rm neg true (x (2 ^ (f.mb + 2) - 1) (f.qmin - 2)))
    let y := fun p => (p < f.infPat → r.1 = f.signed neg p ∧ ∀ j, r.2.getLsbD j = true ↔
          (j = 4 ∧ ¬ exact ∨ j = 3 ∧ ¬ exact ∧ tiny))
      ∧ (p = f.infPat ∨ p = f.infPat + 1 → r.2 = 20 ∧ r.1 = f.signed neg
          (if sat = false ∧ (rm = .near ∨ rm = .up ∧ neg = false ∨ rm = .down ∧ neg = true) then f.infPat else f.infPat - 1))
    (up → y (lo + 1)) ∧ (¬ up → y lo)

/-- The same into a narrow format, as R74's table says for a value that is not zero: below the least magnitude of its
sign a value goes to that or to zero, and above the largest one it saturates. -/
def NRounds (f : NFmt) (rm : Rm) (neg : Bool) (x : Nat → Int → Ordering) (r : Nat × Flags) : Prop :=
  let v := fun p => 2 ^ f.mb + p % 2 ^ f.mb
  let q := fun (p : Nat) => ((p / 2 ^ f.mb : Nat) : Int) - f.bias - f.mb
  let least := if neg then 0 else 1
  (x (v least) (q least) = .lt → r.2 = 24 ∧ r.1 =
      (if rm = .near ∧ x (v least) (q least - 1) = .gt ∨ rm = .up ∧ neg = false ∨ rm = .down ∧ neg = true
        then f.signed neg least else 0))
    ∧ (x (v least) (q least) ≠ .lt → ∃ lo, least ≤ lo ∧ lo ≤ f.signBit ∧ x (v lo) (q lo) ≠ .lt
      ∧ (lo < f.signBit → x (v (lo + 1)) (q (lo + 1)) = .lt) ∧
        let exact := x (v lo) (q lo) = .eq
        let up := ¬ exact ∧ goesUp rm neg (lo % 2 == 1) (x (2 * v lo + 1) (q lo - 1))
        let y := fun p => (p < f.signBit → r.1 = f.signed neg p ∧ (exact → r.2 = 0) ∧ (¬ exact → r.2 = 16))
          ∧ (f.signBit ≤ p → r = (f.signed neg (f.signBit - 1), 20))
        (up → y (lo + 1)) ∧ (¬ up → y lo))

/-- The flags of a lane become sticky and the destinations are written; then the trap is taken, with the lowest
enabled exception raised as its cause and the following instruction as its RPC. Its lanes are, in each half that has
it enabled, those that raised it (R71, R324). `lanes` are those the instruction works in, `fl` what each raises, and
`P` says what it leaves in its wave. -/
def TrapsAfter (s : State) (e : Env) (i : Instr) (k : Nat) (uni : Bool) (fl : Bool → Nat → Flags) (P : Wave → Prop) : Prop :=
  ¬ e.calm k uni fl → ∃ (n : Nat) (w : Wave) (x : Req),
    exec i s = .next { s with m := { takeTrap e.g s.m e.id w e.x x with changes := s.m.changes + 1 } }
      ∧ n < 5 ∧ (∃ p, bit (e.w.half p).fpctl n = true ∧ (raised e k uni fl p).getLsbD n = true)
      ∧ (∀ j < n, ∀ p, bit (e.w.half p).fpctl j = true → (raised e k uni fl p).getLsbD j = false)
      ∧ x.code = 0x10 + n ∧ x.rpc = e.w.pc + 8 ∧ x.addr = e.w.pc ∧ x.addr1 = e.w.pc ∧ x.skid = 0
      ∧ (∀ p, ∀ l < 64, bit (if p then x.lanes1 else x.lanes0) l =
          (bit (e.w.half p).fpctl n && decide ((p, l) ∈ e.w.work k uni) && (fl p l).getLsbD n))
      ∧ P w

/-- A floating instruction completes with that result, or traps after it. -/
def FloatRuns (s : State) (e : Env) (i : Instr) (k : BitVec 4) (t : Ty) (d : Dst) (val : Bool → Nat → Nat × Flags) : Prop :=
  FloatCompletes s e i k t d val
    ∧ TrapsAfter s e i k.toNat (Dst.uni d) (fun p l => (val p l).2) (FloatResult e k t d val)

/-! ## Whole results -/

/-- A wave without what says only that it has gone on: its hold, and the age of its accesses (R320). -/
def Wave.settled (w : Wave) : Wave :=
  { w with hold := .none, quiet := false, acc := w.acc.map (fun a => { a with younger := 0 }) }

/-- The instruction completes and leaves its wave as `w`; nothing else of the state changes. -/
def CompletesAs (s : State) (e : Env) (i : Instr) (w : Wave) : Prop := Completes s e i fun v => v.settled = w.settled

/-- The instruction completes and leaves the machine as `m`, and its wave as `w`. -/
def CompletesWith (s : State) (e : Env) (i : Instr) (m : Mach) (w : Wave) : Prop :=
  CompletesIn s e i fun m' v => m' = m ∧ v.settled = w.settled

/-- The instruction waits and issues again; `m` and `w` are what it leaves meanwhile. -/
def HoldsWith (s : State) (e : Env) (i : Instr) (m : Mach) (w : Wave) (why : Why) : Prop :=
  exec i s = .next { s with m := m.putWave e.id { w with hold := .wait m.changes why } }

/-- The instruction raises a cause that its context's handler takes, or the cause's default action (R318, R321);
`m` and `w` are what it leaves before the trap is taken. -/
def Traps (s : State) (e : Env) (i : Instr) (m : Mach) (w : Wave) (q : Req) : Prop :=
  exec i s = .next { s with m := { takeTrap e.g m e.id w e.x q with changes := m.changes + 1 } }

/-- A cause of class fault-before (R318): nothing of the instruction has happened. -/
def FaultsBefore (s : State) (e : Env) (i : Instr) (code : Nat) (lanes : Bool → W64) : Prop :=
  Traps s e i s.m e.w { code, rpc := e.w.pc, addr := e.w.pc, addr1 := e.w.pc, lanes0 := lanes false, lanes1 := lanes true }

/-- A cause of class fatal (R318): the context is reset (R338). -/
def Resets (s : State) (e : Env) (i : Instr) (code : Nat) (addr : W64) : Prop :=
  exec i s = .next { s with m := { contextReset e.g (s.m.putWave e.id e.w) e.w.ctx code addr with changes := s.m.changes + 1 } }

/-- The instruction waits, with none of its effect, and issues again. -/
def Waits (s : State) (e : Env) (i : Instr) (why : Why) : Prop :=
  exec i s = .next { s with m := s.m.putWave e.id { e.w with hold := .wait s.m.changes why } }

/-- An instruction of `n` bytes that is performed at home once for each half that runs, on `k` bytes at an address that
is a multiple of `al`: no address is in an aperture (R189, R213). When every translation is known it waits for the wave's
older accesses to its bytes, and with the bytes unpoisoned it completes; `f` is what one half does, once its core's own
copy of the line has gone home. It waits on an absent page, and a permission outcome is raised once the other half is done
(R326). -/
def AtHome (s : State) (e : Env) (i : Instr) (n k al : Nat) (need : Need) (addr : Bool → Nat) (f : Mach → Wave → Bool → Nat → Mach × Wave) : Prop :=
  let w := e.w
  (∀ p ∈ w.passes, (e.x.steer (addr p)).1 = .global ∧ canonical (addr p) = true ∧ addr p % al = 0) →
  ∀ l m, e.homes s.m need addr w.passes = (l, m) →
    let absent := ∃ x ∈ l, ∃ va lv, x.2 = .absent va lv
    let older := ∃ x ∈ l, ∃ pa, x.2 = .at pa ∧ olderMeets w.acc need.w (addr x.1) pa k = true
    let clean := ∀ x ∈ l, ∀ pa, x.2 = .at pa → m.poisoned pa k = false
    (absent → ∃ m', HoldsWith s e i m' w .room)
      ∧ (¬ absent → older → Waits s e i .room)
      ∧ (¬ absent → ¬ older → clean → (∃ x ∈ l, x.2 = .perm) → ∃ m' w' q,
          exec i s = .next { s with m := { takeTrap e.g m' e.id w' e.x q with changes := m'.changes + 1 } }
            ∧ q.code = 0x25 ∧ q.rpc = w.pc + w64 n)
      ∧ (¬ older → clean → (∀ x ∈ l, ∃ pa, x.2 = .at pa) →
        let r := l.foldl (fun (r : Mach × Wave) x => match x.2 with
          | .at pa => f (r.1.homeReq w.core w.ctx pa) r.2 x.1 pa
          | _ => r) (m, w)
        CompletesWith s e i r.1 { r.2 with pc := w.pc + w64 n })

/-- The causes of such an instruction: an address that is not canonical, one that is misaligned, one outside the
block's scratchpad or the lane's stack, and any in an aperture; the lowest is raised, in the halves that meet it
(R213, R228, R319). `lanes` are those of a half. -/
def HomeCauses (s : State) (e : Env) (i : Instr) (k al : Nat) (addr : Bool → Nat) (runs : Bool → Prop) (lanes : Bool → W64) : Prop :=
  let meets := fun (p : Bool) (c : Nat) => runs p ∧ match e.x.steer (addr p) with
    | (.global, a) => c = 0x20 ∧ canonical a = false ∨ c = 0x21 ∧ addr p % al ≠ 0
    | (.spad, o) => c = 0x22 ∧ e.l.spad < o + k ∨ c = 0x21 ∧ addr p % al ≠ 0 ∨ c = 0x70
    | (.stack, o) => c = 0x23 ∧ 16 * e.l.stk < o + k ∨ c = 0x21 ∧ addr p % al ≠ 0 ∨ c = 0x70
  (∃ p c, meets p c) → ∃ c hit, FaultsBefore s e i c hit ∧ (∃ p, meets p c)
    ∧ (∀ p c', meets p c' → c ≤ c') ∧ ∀ p, (meets p c → hit p = lanes p) ∧ (¬ meets p c → hit p = 0)

/-- A taken transfer to `t`: a backward one ages the pending paths of the frame, or hands the wave to the oldest of
them once one has reached the limit (R249, R253). -/
def TransfersTo (s : State) (e : Env) (i : Instr) (t : W64) : Prop :=
  let w := e.w
  let frame := frameOf w.stack
  let ready : Entry → Prop := fun x => e.b.eligible w x = true
  if w.pc.toNat < t.toNat ∨ ∀ x ∈ frame, x.kind ≠ .path then CompletesAs s e i { w with pc := t }
  else if ∃ x ∈ frame, ready x ∧ w.ageLimit ≤ x.age.toNat then
    w.stack.length < 256 → ∃ n x, frame[n]? = some x ∧ ready x
      ∧ (∀ j y, frame[j]? = some y → ready y → y.age.toNat < x.age.toNat ∨ y.age = x.age ∧ j ≤ n)
      ∧ CompletesAs s e i
        (Wave.resumeMask { w with stack := { rpc := t, mask := w.hwMask } :: dropAt w.stack n, pc := x.rpc } x.mask)
  else
    let aged : Entry → Entry := fun x =>
      { x with age := if x.kind = .path then BitVec.ofNat 8 (Min.min (x.age.toNat + 1) 255) else x.age }
    CompletesAs s e i { w with pc := t, stack := frame.map aged ++ belowFrame w.stack }

/-- The instruction ends in `resume_path` over the wave `w`, `n` entries of which it has just pushed (R247); with no
path entry left it goes on as `rest` says. -/
def ResumesFrom (s : State) (e : Env) (i : Instr) (w : Wave) (n : Nat) : Prop :=
  match w.resumePath e.b n with
  | .path v => CompletesAs s e i v
  | .hold v k => exec i s = .next { s with m := s.m.putWave e.id { v with hold := .wait s.m.changes (.paths k) } }
  | .none v => CompletesAs s e i { v with pc := v.pc + 8 }

end Sys2Proof.Machine
end

