-- ==== Sys2Proof/Certificates/Slice0/Obligations.lean ====
section
/-!
DEFINITION. The statements about the H9. Where one says that an instruction completes, `Completes` gives the whole
state after it: the issuing wave as `v`, and every other wave, every byte of memory, every special register and every
unit of the machine as it was; `v` is then said in full, and what the statement does not name keeps its value.
-/

open Sys2Proof Sys2Proof.Machine

/-! ## Values (spec/04_vector_isa.md R90; spec/00_scope.md R7) -/

/-- R90: a source is a pattern of its type's width; a pattern's value lies in the type's range and is congruent to it;
`wrap` and `sat` give a pattern of the type whose value is congruent to, or the nearest to, an exact integer (R7). -/
def Parts.PatternsOfIntegerTypes : Prop :=
  ∀ (t : Ty) (x : Int) (a : Nat),
    let w := Ty.bits t
    let lo : Int := if Ty.sgn t then -2 ^ (w - 1) else 0
    let hi : Int := if Ty.sgn t then 2 ^ (w - 1) - 1 else 2 ^ w - 1
    (lo ≤ Ty.int t a ∧ Ty.int t a ≤ hi ∧ (2 ^ w : Int) ∣ Ty.int t a - a)
      ∧ Ty.wrap t x < 2 ^ w ∧ (2 ^ w : Int) ∣ Ty.wrap t x - x
      ∧ Ty.sat t x < 2 ^ w
      ∧ Ty.int t (Ty.sat t x) = (if x < lo then lo else if hi < x then hi else x)
      ∧ ∀ (e : Env) (p : Bool) (l : Nat) (r : Src), e.src p l t r < 2 ^ w

/-! ## Integer arithmetic and logic (spec/04_vector_isa.md R97 to R100) -/

/-- R97: each lane's exact result, saturated under MOD[2], modulo 2^w; nothing but the destination, the PC and the
clocks of the wave changes. -/
def Parts.IntegerArithmetic : Prop :=
  ∀ (s : State) (e : Env), s.env? = some e → ∀ (sat : Bool) (u : Op1) (o : Op2) (q : Op3),
    let A := fun (p : Bool) (l : Nat) => Ty.int o.ty (e.src p l o.ty o.a)
    let B := fun (p : Bool) (l : Nat) => Ty.int o.ty (e.src p l o.ty o.b)
    let write := fun (t : Ty) (x : Int) => if sat then Ty.sat t x else Ty.wrap t x
    let binary := fun (f : Bool → Nat → Nat) => LaneResult e o.k o.ty o.d 8 f
    Completes s e (.add sat o) (binary fun p l => write o.ty (A p l + B p l))
      ∧ Completes s e (.sub sat o) (binary fun p l => write o.ty (A p l - B p l))
      ∧ Completes s e (.mul sat o) (binary fun p l => write o.ty (A p l * B p l))
      ∧ Completes s e (.mulh o) (binary fun p l => Ty.wrap o.ty (A p l * B p l / 2 ^ Ty.bits o.ty))
      ∧ Completes s e (.min o) (binary fun p l => if B p l < A p l then e.src p l o.ty o.b else e.src p l o.ty o.a)
      ∧ Completes s e (.max o) (binary fun p l => if A p l < B p l then e.src p l o.ty o.b else e.src p l o.ty o.a)
      ∧ Completes s e (.abs sat u) (LaneResult e u.k u.ty u.d 8 fun p l => write u.ty (Ty.int u.ty (e.src p l u.ty u.a)).natAbs)
      ∧ Completes s e (.mad sat q) (LaneResult e q.k q.ty q.d 8 fun p l =>
          write q.ty (Ty.int q.ty (e.src p l q.ty q.a) * Ty.int q.ty (e.src p l q.ty q.b) + Ty.int q.ty (e.src p l q.ty q.c)))

/-- R90, R97: patterns of the integer types, and what integer arithmetic writes. -/
def Obligations.IntegerArithmetic : Prop := Parts.PatternsOfIntegerTypes ∧ Parts.IntegerArithmetic

/-- R97, R98: each bit of `and`, `or`, `xor` and `andn`, and of the shifts by n. -/
def Parts.LogicAndShifts : Prop :=
  ∀ (s : State) (e : Env), s.env? = some e → ∀ o : Op2,
    let w := Ty.bits o.ty
    let A := fun (p : Bool) (l : Nat) => e.src p l o.ty o.a
    let B := fun (p : Bool) (l : Nat) => e.src p l o.ty o.b
    let bits := fun (i : Instr) (f : Bool → Nat → Nat → Bool) =>
      Completes s e i fun v => ∃ val, LaneResult e o.k o.ty o.d 8 val v ∧ ∀ p l j, (val p l).testBit j = (decide (j < w) && f p l j)
    bits (.and o) (fun p l j => (A p l).testBit j && (B p l).testBit j)
      ∧ bits (.or o) (fun p l j => (A p l).testBit j || (B p l).testBit j)
      ∧ bits (.xor o) (fun p l j => (A p l).testBit j != (B p l).testBit j)
      ∧ bits (.andn o) (fun p l j => (A p l).testBit j && !(B p l).testBit j)
      ∧ bits (.shl o) (fun p l j => decide (B p l ≤ j) && (A p l).testBit (j - B p l))
      ∧ bits (.shr o) (fun p l j =>
          if B p l + j < w then (A p l).testBit (B p l + j) else Ty.sgn o.ty && (A p l).testBit (w - 1))
      ∧ bits (.rot o) (fun p l j => (A p l).testBit ((j + (w - B p l % w)) % w))

/-- R99: division by zero gives all ones and the dividend, division otherwise truncates; the case −2^(w−1) / −1
gives −2^(w−1) and 0. -/
def Parts.IntegerDivision : Prop :=
  ∀ (s : State) (e : Env), s.env? = some e → ∀ o : Op2,
    let w := Ty.bits o.ty
    let A := fun (p : Bool) (l : Nat) => Ty.int o.ty (e.src p l o.ty o.a)
    let B := fun (p : Bool) (l : Nat) => Ty.int o.ty (e.src p l o.ty o.b)
    Completes s e (.divQuo o) (fun v => ∃ val, LaneResult e o.k o.ty o.d 8 val v ∧ ∀ p l, val p l < 2 ^ w ∧
        if B p l = 0 then val p l = 2 ^ w - 1
        else if Ty.sgn o.ty = true ∧ A p l = -2 ^ (w - 1) ∧ B p l = -1 then Ty.int o.ty (val p l) = -2 ^ (w - 1)
        else Ty.int o.ty (val p l) = (A p l).tdiv (B p l))
      ∧ Completes s e (.divRem o) (fun v => ∃ val, LaneResult e o.k o.ty o.d 8 val v ∧ ∀ p l, val p l < 2 ^ w ∧
        if B p l = 0 then val p l = e.src p l o.ty o.a
        else Ty.int o.ty (val p l) = A p l - B p l * (A p l).tdiv (B p l))

/-- R100: leading zeros, one bits, the reversed pattern, extraction and insertion of a field. -/
def Parts.BitFields : Prop :=
  ∀ (s : State) (e : Env), s.env? = some e → ∀ (u : Op1) (o : Op2) (q : Op3),
    let A := fun (p : Bool) (l : Nat) => e.src p l u.ty u.a
    let position := fun (b : Nat) => b % 256
    let length := fun (t : Ty) (b : Nat) => if Ty.bits t ≤ b % 256 then 0 else Min.min (b / 256 % 256) (Ty.bits t - b % 256)
    Completes s e (.clz u) (fun v => ∃ val, LaneResult e u.k .n32 u.d 8 val v ∧ ∀ p l, val p l ≤ Ty.bits u.ty
        ∧ A p l < 2 ^ (Ty.bits u.ty - val p l) ∧ (val p l < Ty.bits u.ty → 2 ^ (Ty.bits u.ty - val p l - 1) ≤ A p l))
      ∧ Completes s e (.popc u) (LaneResult e u.k .n32 u.d 8 fun p l =>
          (List.range (Ty.bits u.ty)).countP fun j => (A p l).testBit j)
      ∧ Completes s e (.brev u) (fun v => ∃ val, LaneResult e u.k u.ty u.d 8 val v ∧ ∀ p l j,
          (val p l).testBit j = (decide (j < Ty.bits u.ty) && (A p l).testBit (Ty.bits u.ty - 1 - j)))
      ∧ Completes s e (.bfe o) (fun v => ∃ val, LaneResult e o.k o.ty o.d 8 val v ∧ ∀ p l,
          let a := e.src p l o.ty o.a
          let b := e.src p l .n32 o.b
          let n := length o.ty b
          ∀ j, (val p l).testBit j = (decide (j < Ty.bits o.ty) && decide (n ≠ 0) &&
            if j < n then a.testBit (position b + j) else Ty.sgn o.ty && a.testBit (position b + n - 1)))
      ∧ Completes s e (.bfi q) (fun v => ∃ val, LaneResult e q.k q.ty q.d 8 val v ∧ ∀ p l,
          let b := e.src p l .n32 q.b
          let n := length q.ty b
          ∀ j, (val p l).testBit j = if position b ≤ j ∧ j < position b + n
            then (e.src p l q.ty q.a).testBit (j - position b) else (e.src p l q.ty q.c).testBit j)

/-- R97, R98, R100: bitwise logic, shifts, rotations, and bit fields. -/
def Obligations.LogicShiftsAndBitFields : Prop := Parts.LogicAndShifts ∧ Parts.BitFields

/-! ## Selection, comparison, moves, address and carry (spec/04_vector_isa.md R101 to R104) -/

/-- R101, R103: `sel` takes a where the mask bit of the lane is one, `mov`, `movi` and `movx` write their value. -/
def Parts.SelectionAndMoves : Prop :=
  ∀ (s : State) (e : Env), s.env? = some e → ∀ (u : Op1) (o : Op2) (kc k : BitVec 4) (t : Ty) (d : Dst) (wide sx : Bool)
    (imm : W32) (x : W64),
    Completes s e (.sel kc o) (LaneResult e o.k o.ty o.d 8 fun p l =>
        if kc = 0 ∧ l < e.w.W ∨ bit (e.w.getK p kc.toNat) l = true then e.src p l o.ty o.a else e.src p l o.ty o.b)
      ∧ Completes s e (.mov u) (LaneResult e u.k u.ty u.d 8 fun p l => e.src p l u.ty u.a)
      ∧ Completes s e (.movi d wide sx imm) (LaneResult e 0 (if wide || !d.isVec then .n64 else .n32) d 8 fun _ _ =>
          if sx = true ∧ 2 ^ 31 ≤ imm.toNat then imm.toNat + (2 ^ 64 - 2 ^ 32) else imm.toNat)
      ∧ Completes s e (.movx k t d x) (LaneResult e k t d 16 fun _ _ => x.toNat)

/-- R102: the six conditions, one bit for each active lane; a write to `k0` is ignored. -/
def Parts.Comparison : Prop :=
  ∀ (s : State) (e : Env), s.env? = some e → ∀ o : OpC,
    let A := fun (p : Bool) (l : Nat) => Ty.int o.ty (e.src p l o.ty o.a)
    let B := fun (p : Bool) (l : Nat) => Ty.int o.ty (e.src p l o.ty o.b)
    let bits := fun (i : Instr) (f : Bool → Nat → Bool) => Completes s e i (MaskResult e o.k.toNat o.d.toNat f)
    bits (.cmpEq o) (fun p l => decide (A p l = B p l)) ∧ bits (.cmpNe o) (fun p l => decide (A p l ≠ B p l))
      ∧ bits (.cmpLt o) (fun p l => decide (A p l < B p l)) ∧ bits (.cmpLe o) (fun p l => decide (A p l ≤ B p l))
      ∧ bits (.cmpGt o) (fun p l => decide (A p l > B p l)) ∧ bits (.cmpGe o) (fun p l => decide (A p l ≥ B p l))

/-- R101 to R103: selection, moves and integer comparison. -/
def Obligations.SelectionAndComparison : Prop := Parts.SelectionAndMoves ∧ Parts.Comparison

/-- R104: `lea`, and the sums and differences with carry; with C = 0 the carry-in is 0 and the carry-out is discarded,
with C ≠ 0 the mask bit is read before it is written. Under U = 1 the bits that stand for `active(W)` are those of
its first lane. -/
def Parts.AddressAndCarry : Prop :=
  ∀ (s : State) (e : Env), s.env? = some e → ∀ (sh : BitVec 6) (kc : BitVec 4) (o : Op2),
    let w := Ty.bits o.ty
    let carry := fun (p : Bool) (l : Nat) => if kc ≠ 0 ∧ bit (e.w.getK p kc.toNat) l = true then (1 : Int) else 0
    let sum := fun (p : Bool) (l : Nat) => (e.src p l o.ty o.a : Int) + e.src p l o.ty o.b + carry p l
    let dif := fun (p : Bool) (l : Nat) => (e.src p l o.ty o.a : Int) - e.src p l o.ty o.b - carry p l
    let carried := fun (x : Bool → Nat → Int) (out : Bool → Nat → Bool) (v : Wave) =>
      GoesOn e 8 v ∧ WritesDst e v o.k.toNat o.ty o.d (fun p l => Ty.wrap o.ty (x p l)) ∧ KeepsExec e v ∧ KeepsFlags e v
        ∧ ∀ p j l, bit (v.getK p j) l =
            if j = kc.toNat ∧ kc ≠ 0 ∧ (p, l) ∈ e.w.work o.k.toNat (!o.d.isVec) then out p l else bit (e.w.getK p j) l
    Completes s e (.lea sh o) (LaneResult e o.k o.ty o.d 8 fun p l =>
        (((e.src p l o.ty o.a : Int) + Ty.int (if Ty.sgn o.ty then .i32 else .n32) (e.src p l .n32 o.b) * 2 ^ sh.toNat)
          % 2 ^ 64).toNat)
      ∧ Completes s e (.addc kc o) (carried sum fun p l => decide (2 ^ w ≤ sum p l))
      ∧ Completes s e (.subb kc o) (carried dif fun p l => decide (dif p l < 0))

/-- R99, R104: integer division, and sums with a carry or a scaled index. -/
def Obligations.DivisionAndCarry : Prop := Parts.IntegerDivision ∧ Parts.AddressAndCarry

/-! ## Floating point (spec/04_vector_isa.md R105 to R110; spec/03_numbers.md R66 to R71) -/

/-- R105, R108 to R110: with no enabled exception raised, each lane's destination holds the operation's result under
the type's format, and the flags that the lanes of a half raise become sticky in that half alone. -/
def Parts.FloatArithmetic : Prop :=
  ∀ (s : State) (e : Env), s.env? = some e → ∀ (rm : Rm) (sat : Bool) (u : Op1) (o : Op2) (q : Op3),
    let f := fun (t : Ty) => Ty.ieee t
    let A := fun (p : Bool) (l : Nat) => e.src p l o.ty o.a
    let B := fun (p : Bool) (l : Nat) => e.src p l o.ty o.b
    let X := fun (p : Bool) (l : Nat) => e.src p l u.ty u.a
    let two := fun (i : Instr) (r : Bool → Nat → Nat × Flags) => FloatRuns s e i o.k o.ty o.d r
    let one := fun (i : Instr) (r : Nat → Nat × Flags) => FloatRuns s e i u.k u.ty u.d fun p l => r (X p l)
    two (.fadd rm sat o) (fun p l => (f o.ty).add rm sat (A p l) (B p l))
      ∧ two (.fsub rm sat o) (fun p l => (f o.ty).add rm sat (A p l) ((f o.ty).negate (B p l)))
      ∧ two (.fmul rm sat o) (fun p l => (f o.ty).mul rm sat (A p l) (B p l))
      ∧ two (.fdiv rm sat o) (fun p l => (f o.ty).div rm sat (A p l) (B p l))
      ∧ two (.fmin o) (fun p l => (f o.ty).minmax false (A p l) (B p l))
      ∧ two (.fmax o) (fun p l => (f o.ty).minmax true (A p l) (B p l))
      ∧ two (.fscale rm sat o) (fun p l => (f o.ty).scale rm sat (A p l) (Ty.int .i32 (e.src p l .i32 o.b)))
      ∧ FloatRuns s e (.fma rm sat q) q.k q.ty q.d (fun p l =>
          (f q.ty).fma rm sat (e.src p l q.ty q.a) (e.src p l q.ty q.b) (e.src p l q.ty q.c))
      ∧ one (.frnd rm u) ((f u.ty).round rm) ∧ one (.fsqrt rm u) ((f u.ty).sqrt rm)
      ∧ one (.frcp rm u) (fun a => (f u.ty).div rm false (f u.ty).one a)
      ∧ one (.frsq rm u) ((f u.ty).rsq rm) ∧ one (.fex2 rm u) ((f u.ty).ex2 rm) ∧ one (.flg2 rm u) ((f u.ty).lg2 rm)
      ∧ one (.ftrigSin rm u) ((f u.ty).trig false rm) ∧ one (.ftrigCos rm u) ((f u.ty).trig true rm)
      ∧ FloatRuns s e (.fexp u) u.k .i32 u.d (fun p l => (f u.ty).exponent (X p l))

/-- R66, R68 to R70, R108: for finite operands, addition, multiplication, fused multiplication and addition, division,
square root, its reciprocal and scaling give the exact result rounded once, in the selected mode, with its flags: the
nearer neighbour with ties to the even one, subnormals below the normal range, and the overflow of the mode. `frnd`
gives the neighbouring integer that the mode selects. -/
def Parts.FloatRounding : Prop :=
  ∀ f ∈ [Fmt.f32, Fmt.f64, Fmt.f16, Fmt.bf16], ∀ (rm : Rm) (sat : Bool) (a b c : Nat),
    a < 2 ^ f.width → b < 2 ^ f.width → c < 2 ^ f.width →
    f.mag a < f.infPat → f.mag b < f.infPat → f.mag c < f.infPat →
    let n := fun (y : Nat) => f.neg? y
    let m := fun (y : Nat) => (f.parts (f.mag y)).1
    let q := fun (y : Nat) => (f.parts (f.mag y)).2
    let rounds := fun (neg : Bool) (x : Nat → Int → Ordering) (r : Nat × Flags) => Rounds f rm sat neg x r
    let sum := fun (n1 : Bool) (m1 : Nat) (e1 : Int) (n2 : Bool) (m2 : Nat) (e2 : Int) (r : Nat × Flags) =>
      let e := Min.min e1 e2
      let x : Int := (if n1 then -1 else 1) * m1 * 2 ^ (e1 - e).toNat + (if n2 then -1 else 1) * m2 * 2 ^ (e2 - e).toNat
      (x = 0 → r = (f.signed (if n1 = n2 then n1 else rm == .down) 0, 0)) ∧ (x ≠ 0 → rounds (decide (x < 0)) (scaled x.natAbs e) r)
    f.val a = .fin (n a) (m a) (q a)
      ∧ (∀ (neg : Bool) (k : Nat) (e : Int), (k = 0 → f.rnd rm sat neg k e = (f.signed neg 0, 0))
        ∧ (k ≠ 0 → rounds neg (scaled k e) (f.rnd rm sat neg k e)))
      ∧ sum (n a) (m a) (q a) (n b) (m b) (q b) (f.add rm sat a b)
      ∧ (m a * m b = 0 → f.mul rm sat a b = (f.signed (n a != n b) 0, 0))
      ∧ (m a * m b ≠ 0 → rounds (n a != n b) (scaled (m a * m b) (q a + q b)) (f.mul rm sat a b))
      ∧ sum (n a != n b) (m a * m b) (q a + q b) (n c) (m c) (q c) (f.fma rm sat a b c)
      ∧ (m a * m b ≠ 0 → rounds (n a != n b) (fun y d => scaled (m a) (q a - q b) (y * m b) d) (f.div rm sat a b))
      ∧ (m a ≠ 0 → n a = false →
        Rounds f rm false false (fun y d => scaled (m a) (q a) (y * y) (2 * d)) (f.sqrt rm a)
          ∧ Rounds f rm false false (fun y d => scaled 1 0 (m a * y * y) (q a + 2 * d)) (f.rsq rm a))
      ∧ (m a ≠ 0 → ∀ k : Int, rounds (n a) (scaled (m a) (q a + k)) (f.scale rm sat a k))
      ∧ (m a ≠ 0 → let r := f.round rm a
        r.2 = 0 ∧ n r.1 = n a ∧ f.mag r.1 < f.infPat ∧
          ∃ lo : Nat, scaled lo 0 (m a) (q a) ≠ .gt ∧ scaled (lo + 1) 0 (m a) (q a) = .gt ∧
            let up := scaled lo 0 (m a) (q a) ≠ .eq ∧ goesUp rm (n a) (lo % 2 == 1) (scaled (m a) (q a) (2 * lo + 1) (-1))
            (up → scaled (m r.1) (q r.1) (lo + 1) 0 = .eq) ∧ (¬ up → scaled (m r.1) (q r.1) lo 0 = .eq))

/-- R65 to R74, R105, R107 to R110: floating-point arithmetic, and what its rounding means. Where the rules leave
room, it follows the model's own readings, log entries 9 and 11. -/
def Obligations.FloatArithmetic : Prop := Parts.FloatArithmetic ∧ Parts.FloatRounding

/-- R71, R324: where a lane raises an enabled exception the destinations are written and the flags sticky, and then the
trap is taken with the lowest such exception as its cause, the following instruction as its RPC, and in each half that
has it enabled the lanes that raised it. -/
def Parts.FloatTrapIsPrecise : Prop :=
  ∀ (s : State) (e : Env), s.env? = some e → ∀ (rm : Rm) (sat : Bool) (u : Op1) (o : Op2) (q : Op3),
    let f := fun (t : Ty) => Ty.ieee t
    let traps := fun (i : Instr) (k : BitVec 4) (t : Ty) (d : Dst) (r : Bool → Nat → Nat × Flags) =>
      TrapsAfter s e i k.toNat (!d.isVec) (fun p l => (r p l).2) (FloatResult e k t d r)
    traps (.fadd rm sat o) o.k o.ty o.d (fun p l => (f o.ty).add rm sat (e.src p l o.ty o.a) (e.src p l o.ty o.b))
      ∧ traps (.fmul rm sat o) o.k o.ty o.d (fun p l => (f o.ty).mul rm sat (e.src p l o.ty o.a) (e.src p l o.ty o.b))
      ∧ traps (.fdiv rm sat o) o.k o.ty o.d (fun p l => (f o.ty).div rm sat (e.src p l o.ty o.a) (e.src p l o.ty o.b))
      ∧ traps (.fma rm sat q) q.k q.ty q.d (fun p l =>
          (f q.ty).fma rm sat (e.src p l q.ty q.a) (e.src p l q.ty q.b) (e.src p l q.ty q.c))
      ∧ traps (.fsqrt rm u) u.k u.ty u.d (fun p l => (f u.ty).sqrt rm (e.src p l u.ty u.a))

/-- R67, R105, R110: the results at special inputs. The first NaN in A, B, C order propagates quieted, with INVALID
when an operand is signalling; an invalid operation gives the default NaN with INVALID; infinities and zeros give what
the tables say. -/
def Parts.FloatSpecialInputs : Prop :=
  ∀ (f : Fmt), f ∈ [Fmt.f32, Fmt.f64, Fmt.f16, Fmt.bf16] → ∀ (rm : Rm) (sat : Bool) (a b c : Nat),
    a < 2 ^ f.width → b < 2 ^ f.width → c < 2 ^ f.width →
    let nan := fun (x : Nat) => f.isNaN x = true
    let snan := fun (x : Nat) => f.isSNaN x = true
    let inf := fun (x : Nat) => f.mag x = f.infPat
    let zero := fun (x : Nat) => f.mag x = 0
    let number := fun (x : Nat) => f.mag x < f.infPat
    let neg := fun (x : Nat) => f.neg? x
    let quieted := fun (x : Nat) => if x / f.quiet % 2 = 1 then x else x + f.quiet
    let invalid : Nat × Flags := (f.nan, 1)
    (nan a → f.add rm sat a b = (quieted a, if snan a ∨ snan b then 1 else 0)
        ∧ f.mul rm sat a b = (quieted a, if snan a ∨ snan b then 1 else 0)
        ∧ f.div rm sat a b = (quieted a, if snan a ∨ snan b then 1 else 0)
        ∧ f.sqrt rm a = (quieted a, if snan a then 1 else 0))
      ∧ (¬ nan a → nan b → f.add rm sat a b = (quieted b, if snan b then 1 else 0)
        ∧ f.fma rm sat a b c = (quieted b, if snan b ∨ snan c then 1 else 0))
      ∧ (¬ nan a → ¬ nan b → nan c → f.fma rm sat a b c = (quieted c, if snan c then 1 else 0))
      ∧ (nan a → ¬ nan b → f.minmax false a b = (b, if snan a then 1 else 0) ∧ f.minmax true a b = (b, if snan a then 1 else 0))
      ∧ (nan a → nan b → f.minmax false a b = (quieted a, if snan a ∨ snan b then 1 else 0))
      ∧ (inf a → inf b → neg a ≠ neg b → f.add rm sat a b = invalid)
      ∧ (inf a → zero b → f.mul rm sat a b = invalid ∧ f.mul rm sat b a = invalid ∧ (¬ nan c → f.fma rm sat a b c = invalid))
      ∧ (zero a → zero b → f.div rm sat a b = invalid) ∧ (inf a → inf b → f.div rm sat a b = invalid)
      ∧ (number a → ¬ zero a → zero b → f.div rm sat a b = (f.signed (neg a != neg b) f.infPat, 2))
      ∧ (number a → inf b → f.div rm sat a b = (f.signed (neg a != neg b) 0, 0))
      ∧ (zero a → f.sqrt rm a = (a, 0) ∧ f.rsq rm a = (f.signed (neg a) f.infPat, 2) ∧ f.rcp rm a = (f.signed (neg a) f.infPat, 2)
        ∧ f.ex2 rm a = (f.one, 0) ∧ f.lg2 rm a = (f.signed true f.infPat, 2)
        ∧ f.trig false rm a = (a, 0) ∧ f.trig true rm a = (f.one, 0) ∧ f.exponent a = (0x80000000, 1))
      ∧ (¬ nan a → ¬ zero a → neg a = true → f.sqrt rm a = invalid ∧ f.rsq rm a = invalid ∧ f.lg2 rm a = invalid)
      ∧ (inf a → neg a = false → f.sqrt rm a = (a, 0) ∧ f.rsq rm a = (0, 0) ∧ f.ex2 rm a = (a, 0) ∧ f.lg2 rm a = (a, 0))
      ∧ (inf a → neg a = true → f.ex2 rm a = (0, 0))
      ∧ (inf a → f.rcp rm a = (f.signed (neg a) 0, 0) ∧ f.trig false rm a = invalid ∧ f.trig true rm a = invalid)
      ∧ (inf a ∨ nan a → f.exponent a = (0x7FFFFFFF, 1))

/-- R67, R71, R105, R110, R324: floating traps, and special inputs. Where the rules leave room, it follows the model's
own readings, log entries 11 and 13. -/
def Obligations.FloatTrapsAndSpecialInputs : Prop := Parts.FloatTrapIsPrecise ∧ Parts.FloatSpecialInputs

/-- R106, R107: the eight conditions with the operands they raise INVALID for, and the one-hot class of a value. -/
def Obligations.FloatComparison : Prop :=
  ∀ (s : State) (e : Env), s.env? = some e → ∀ (o : OpC) (u : Op1),
    let f := Ty.ieee o.ty
    let cmp := fun (p : Bool) (l : Nat) => f.cmp (e.src p l o.ty o.a) (e.src p l o.ty o.b)
    let snan := fun (p : Bool) (l : Nat) => f.isSNaN (e.src p l o.ty o.a) || f.isSNaN (e.src p l o.ty o.b)
    let nan := fun (p : Bool) (l : Nat) => f.isNaN (e.src p l o.ty o.a) || f.isNaN (e.src p l o.ty o.b)
    let bits := fun (i : Instr) (c : Option Ordering → Bool) (bad : Bool → Nat → Bool) =>
      let done := FloatMaskResult e o.k.toNat o.d.toNat fun p l => (c (cmp p l), if bad p l then 1 else 0)
      let flags := fun (p : Bool) (l : Nat) => if bad p l then (1 : Flags) else 0
      (e.calm o.k.toNat false flags → Completes s e i done) ∧ TrapsAfter s e i o.k.toNat false flags done
    let order := fun (x y : Nat) =>
      let exponent := Min.min (f.parts (f.mag x)).2 (f.parts (f.mag y)).2
      let value := fun (z : Nat) => let v := f.parts (f.mag z)
        (if f.neg? z then -1 else 1 : Int) * v.1 * 2 ^ (v.2 - exponent).toNat
      if f.mag x < f.infPat ∧ f.mag y < f.infPat then compare (value x) (value y)
      else if f.mag x = f.mag y ∧ f.neg? x = f.neg? y then .eq
      else if f.mag x = f.infPat ∧ f.neg? x = true ∨ f.mag y = f.infPat ∧ f.neg? y = false then .lt else .gt
    (∀ p l, cmp p l = none ↔ nan p l = true)
      ∧ (∀ x y, f.mag x ≤ f.infPat → f.mag y ≤ f.infPat →
          f.cmp x y = some (order x y) ∧ (f.mag x = 0 → f.mag y = 0 → f.cmp x y = some .eq))
      ∧ bits (.fcmpEq o) (fun r => r = some .eq) snan ∧ bits (.fcmpNe o) (fun r => r ≠ some .eq) snan
      ∧ bits (.fcmpLt o) (fun r => r = some .lt) nan ∧ bits (.fcmpLe o) (fun r => r = some .lt ∨ r = some .eq) nan
      ∧ bits (.fcmpGt o) (fun r => r = some .gt) nan ∧ bits (.fcmpGe o) (fun r => r = some .gt ∨ r = some .eq) nan
      ∧ bits (.fcmpOrd o) (fun r => r ≠ none) snan ∧ bits (.fcmpUno o) (fun r => r = none) snan
      ∧ Completes s e (.fcls u) (fun v => ∃ c : Bool → Nat → Nat, LaneResult e u.k .n32 u.d 8 (fun p l => 2 ^ c p l) v ∧ ∀ p l,
          let f := Ty.ieee u.ty
          let a := e.src p l u.ty u.a
          let side := fun (x y : Nat) => if f.neg? a then x else y
          c p l = if f.isSNaN a then 8 else if f.isNaN a then 9 else if f.mag a = f.infPat then side 0 7
            else if f.mag a = 0 then side 3 4 else if f.mag a < 2 ^ f.mb then side 2 5 else side 1 6)

/-! ## Conversion, packing, lanes and masks (spec/04_vector_isa.md R111 to R123) -/

/-- R112: each lane of `cvt` converts the exact value of its source; R73 to R76: the value of a narrow code, its rounding
into a narrow format, and `SUBST` for h6 and h4. A narrow code into a wider format takes the saturated form of overflow, the
model's choice of log entry 61. -/
def Parts.Conversion : Prop :=
  (∀ (s : State) (e : Env), s.env? = some e → ∀ (rm : Rm) (sat : Bool) (o : OpCvt),
      FloatRuns s e (.cvt rm sat o) o.k (match o.dst with | .ty t => t | _ => .n8) o.d
        fun p l => convertOne rm sat o.dst o.src (e.cvtSrc p l o))
    ∧ ∀ (rm : Rm) (sat : Bool) (a : Nat),
      (∀ t u, Ty.isFloat t = false → convertOne rm sat (.ty t) (.int u) a =
          (if sat then Ty.sat t (Ty.int u a) else Ty.wrap t (Ty.int u a), 0))
        ∧ (∀ t u f, Ty.fmt? t = some f → convertOne rm sat (.ty t) (.int u) a =
          f.rnd rm sat (decide (Ty.int u a < 0)) (Ty.int u a).natAbs 0)
        ∧ (∀ t u f, Ty.nfmt? t = some f → convertOne rm sat (.ty t) (.int u) a =
          f.rnd rm (.fin (decide (Ty.int u a < 0)) (Ty.int u a).natAbs 0))
        ∧ (∀ u, ∀ dst ∈ [(CvtDst.h6, NFmt.h6), (.h4, .h4)],
          let z := dst.2.rnd rm (.fin (decide (Ty.int u a < 0)) (Ty.int u a).natAbs 0)
          convertOne rm sat dst.1 (.int u) a = (z.1, z.2 ||| 32))
        ∧ (∀ dst, convertOne rm sat dst .fi8 a = convertOne rm sat dst (.int .i8) a
          ∧ convertOne rm sat dst .fn8 a = convertOne rm sat dst (.int .n8) a)
        ∧ (∀ f ∈ [NFmt.h8, .h8w, .h6, .h4], f.rnd rm .nan = (f.signBit - 1, 1)
          ∧ (∀ neg, f.rnd rm (.inf neg) = (f.signed neg (f.signBit - 1), 4)) ∧ (∀ neg x, f.rnd rm (.fin neg 0 x) = (0, 0))
          ∧ ∀ neg m x, m ≠ 0 → NRounds f rm neg (scaled m x) (f.rnd rm (.fin neg m x)))
        ∧ (∀ src ∈ [(CvtSrc.h8, ((7, 3, 7) : Nat × Nat × Nat), (0 : Flags)), (.h8w, (7, 2, 15), 0), (.h6, (5, 2, 3), 32), (.h4, (3, 1, 1), 32)],
            let at_ := src.2.1.1
            let M := src.2.1.2.1
            let code := a % 2 ^ (at_ + 1)
            let neg := decide (2 ^ at_ ≤ code)
            let m := if code = 0 then 0 else 2 ^ M + code % 2 ^ M
            let x : Int := ((code % 2 ^ at_ / 2 ^ M : Nat) : Int) - src.2.1.2.2 - M
            let same := fun (r z : Nat × Flags) => r.1 = z.1 ∧ r.2 = z.2 ||| src.2.2
            ∀ t, (∀ f, Ty.fmt? t = some f → let r := convertOne rm sat (.ty t) src.1 a
                f.mag r.1 < f.infPat ∧ same r (f.rnd rm true neg m x) ∧ (src.1 ≠ .h8w ∨ f ≠ Fmt.f16 → r.2 = src.2.2))
              ∧ (∀ f, Ty.nfmt? t = some f → same (convertOne rm sat (.ty t) src.1 a) (f.rnd rm (.fin neg m x)))
              ∧ (∀ dst ∈ [(CvtDst.h6, NFmt.h6), (.h4, .h4)], let z := dst.2.rnd rm (.fin neg m x)
                convertOne rm sat dst.1 src.1 a = (z.1, z.2 ||| 32))
              ∧ (Ty.isFloat t = false → same (convertOne rm sat (.ty t) src.1 a) (
                let r := roundInt rm neg m x
                let y : Int := if neg then -r.1 else r.1
                if Ty.int t (Ty.wrap t y) = y then (Ty.wrap t y, if r.2 then 16 else 0) else (Ty.sat t y, 1))))
        ∧ ∀ src ∈ [(CvtSrc.f32, Fmt.f32), (.f64, .f64), (.f16, .f16), (.bf16, .bf16)], ∀ t,
            (∀ f, Ty.fmt? t = some f → convertOne rm sat (.ty t) src.1 a = match src.2.val a with
              | .nan => (src.2.nanTo f a, if src.2.isSNaN a then 1 else 0)
              | .inf n => (f.signed n f.infPat, 0)
              | .fin n m x => f.rnd rm sat n m x)
            ∧ (∀ f, Ty.nfmt? t = some f → convertOne rm sat (.ty t) src.1 a = f.rnd rm (src.2.val a))
            ∧ (convertOne rm sat .h6 src.1 a = ((NFmt.h6.rnd rm (src.2.val a)).1, (NFmt.h6.rnd rm (src.2.val a)).2 ||| 32))
            ∧ (convertOne rm sat .h4 src.1 a = ((NFmt.h4.rnd rm (src.2.val a)).1, (NFmt.h4.rnd rm (src.2.val a)).2 ||| 32))
            ∧ (Ty.isFloat t = false → convertOne rm sat (.ty t) src.1 a = match src.2.val a with
              | .nan => (0, 1)
              | .inf n => (Ty.sat t (if n then -2 ^ 65 else 2 ^ 65), 1)
              | .fin n m x =>
                let r := roundInt rm n m x
                let y : Int := if n then -r.1 else r.1
                if Ty.int t (Ty.wrap t y) = y then (Ty.wrap t y, if r.2 then 16 else 0) else (Ty.sat t y, 1))

/-- R113: `pack` replaces element n of bits 31:0 of the destination, `unpack` extracts it. -/
def Parts.PackAndUnpack : Prop :=
  ∀ (s : State) (e : Env), s.env? = some e → ∀ (n : BitVec 2) (o : Op1),
    let w := Ty.bits o.ty
    let inside := fun (j : Nat) => n.toNat * w ≤ j ∧ j < n.toNat * w + w
    Completes s e (.pack n o) (fun v => ∃ val, LaneResult e o.k .b32 o.d 8 val v ∧ ∀ p l j,
        let old := e.src p l .b32 (match o.d with | .vec r => .vec r | .sca r => .sca r)
        (val p l).testBit j = if inside j then (e.src p l o.ty o.a).testBit (j - n.toNat * w) else old.testBit j)
      ∧ Completes s e (.unpack n o) (fun v => ∃ val, LaneResult e o.k o.ty o.d 8 val v ∧ ∀ p l j,
        (val p l).testBit j = (decide (j < w) && (e.unpackSrc p l o).testBit (n.toNat * w + j)))

/-- R76, R112, R113: conversion, packing and unpacking. Where the rules leave room, it follows the model's own
readings, log entry 42. -/
def Obligations.ConversionAndPacking : Prop := Parts.Conversion ∧ Parts.PackAndUnpack

/-- R114, R115, R117, R118: every lane reads the source register of another lane of its half, active or not; the masks
of equal patterns and of nonzero ones are over `active(W)`. -/
def Obligations.LaneCrossing : Prop :=
  ∀ (s : State) (e : Env), s.env? = some e → ∀ (o : OpShfl) (b : OpBcast) (k : BitVec 4) (wide : Bool) (d : BitVec 8) (kd : BitVec 4)
    (a : BitVec 8),
    let W := e.w.W
    let N := fun (p : Bool) (l : Nat) => e.src p l .n32 o.b
    let from_ := fun (i : Instr) (j : Bool → Nat → Nat) =>
      Completes s e i (LaneResult e o.k o.ty (.vec o.d) 8 fun p l => e.w.vec p (j p l) o.ty o.a.toNat)
    let t : Ty := if wide then .n64 else .b32
    from_ (.shflIdx o) (fun p l => N p l % W) ∧ from_ (.shflXor o) (fun p l => (l ^^^ N p l) % W)
      ∧ from_ (.shflUp o) (fun p l => (((l : Int) - N p l) % W).toNat) ∧ from_ (.shflDown o) (fun p l => (l + N p l) % W)
      ∧ Completes s e (.bcast b) (LaneResult e b.k b.ty b.d 8 fun p _ =>
          e.w.vec p (match b.n with | .lit n => n.toNat % W | .sca r => (e.w.getS p r.toNat).toNat % W) b.ty b.a.toNat)
      ∧ Completes s e (.matchEq k wide d a) (fun v => ∃ val, LaneResult e k .n64 (.vec d) 8 val v ∧ ∀ p l j,
          (val p l).testBit j = (e.w.isActive p k.toNat j && e.w.vec p j t a.toNat == e.w.vec p l t a.toNat))
      ∧ Completes s e (.lanes k wide kd a) (MaskResult e k.toNat kd.toNat fun p l => decide (e.w.vec p l t a.toNat ≠ 0))

/-- R116, R84, R85: under an integer type a reduction is the sum, the least, the greatest or the bitwise combination of
the active lanes of the half, and a scan the same over the active lanes up to its own; it raises no flag. -/
def Parts.IntegerScansAndReductions : Prop :=
  ∀ (s : State) (e : Env), s.env? = some e → ∀ (rm : Rm) (o : OpScan) (r : OpRed),
    let part := fun (p : Bool) (l : Nat) => (e.w.active p o.k.toNat).filter (· ≤ l)
    let all := fun (p : Bool) => e.w.active p r.k.toNat
    let scan := fun (i : Instr) (is : List Nat → Nat → Prop) => Ty.isFloat o.ty = false →
      Completes s e i fun v => ∃ val, LaneResult e o.k o.ty (.vec o.d) 8 val v ∧ ∀ p l, e.w.isActive p o.k.toNat l = true →
        is ((part p l).map fun j => e.src p j o.ty o.a) (val p l)
    let red := fun (i : Instr) (is : List Nat → Nat → Prop) => Ty.isFloat r.ty = false →
      Completes s e i fun v => ∃ val, LaneResult e r.k r.ty r.d 8 val v ∧ ∀ p l, e.w.isActive p r.k.toNat l = true →
        is ((all p).map fun j => e.src p j r.ty r.a) (val p l)
    let sum := fun (t : Ty) (l : List Nat) (x : Nat) => x = Ty.wrap t (l.foldl (fun (n : Int) a => n + Ty.int t a) 0)
    let least := fun (t : Ty) (l : List Nat) (x : Nat) => x ∈ l ∧ ∀ y ∈ l, Ty.int t x ≤ Ty.int t y
    let most := fun (t : Ty) (l : List Nat) (x : Nat) => x ∈ l ∧ ∀ y ∈ l, Ty.int t y ≤ Ty.int t x
    let all_ := fun (l : List Nat) (x : Nat) => ∀ j, x.testBit j = l.all (·.testBit j)
    let any_ := fun (l : List Nat) (x : Nat) => ∀ j, x.testBit j = l.any (·.testBit j)
    let odd := fun (l : List Nat) (x : Nat) => ∀ j, x.testBit j = decide ((l.countP (·.testBit j)) % 2 = 1)
    scan (.scanAdd rm false o) (sum o.ty) ∧ scan (.scanMin o) (least o.ty) ∧ scan (.scanMax o) (most o.ty)
      ∧ scan (.scanAnd o) all_ ∧ scan (.scanOr o) any_ ∧ scan (.scanXor o) odd
      ∧ red (.redAdd rm false r) (sum r.ty) ∧ red (.redMin r) (least r.ty) ∧ red (.redMax r) (most r.ty)
      ∧ red (.redAnd r) all_ ∧ red (.redOr r) any_ ∧ red (.redXor r) odd

/-- R116, R84, R85: every scan and reduction, floating and saturating ones too, combines the active lanes in the fixed
trees, with the flags of every node it forms. -/
def Parts.ScansAndReductionsUseTheTrees : Prop :=
  ∀ (s : State) (e : Env), s.env? = some e → ∀ (rm : Rm) (sat : Bool) (o : OpScan) (r : OpRed),
    let scan := fun (i : Instr) (op : Nat → Nat → Nat × Flags) => FloatRuns s e i o.k o.ty (.vec o.d) fun p l =>
      (prefixOp op (e.contrib o.k.toNat o.ty o.a p) l (e.w.width.log + 1) none 0).getD (0, 0)
    let red := fun (i : Instr) (op : Nat → Nat → Nat × Flags) => FloatRuns s e i r.k r.ty r.d fun p _ =>
      (treeOp op (e.contrib r.k.toNat r.ty r.a p) 0 e.w.width.log).getD (0, 0)
    let sum := fun (t : Ty) (a b : Nat) => match Ty.fmt? t with
      | some f => f.add rm false a b
      | none => (if sat then Ty.sat t (Ty.int t a + Ty.int t b) else Ty.wrap t (Ty.int t a + Ty.int t b), 0)
    let best := fun (t : Ty) (mx : Bool) (a b : Nat) => match Ty.fmt? t with
      | some f => f.minmax mx a b
      | none => (if mx then (if Ty.int t a < Ty.int t b then b else a) else if Ty.int t b < Ty.int t a then b else a, 0)
    scan (.scanAdd rm sat o) (sum o.ty) ∧ scan (.scanMin o) (best o.ty false) ∧ scan (.scanMax o) (best o.ty true)
      ∧ red (.redAdd rm sat r) (sum r.ty) ∧ red (.redMin r) (best r.ty false) ∧ red (.redMax r) (best r.ty true)

/-- R84, R85, R116: scans and reductions of integers, and the trees that every type uses. -/
def Obligations.ScansAndReductions : Prop := Parts.IntegerScansAndReductions ∧ Parts.ScansAndReductionsUseTheTrees

/-- R119, R120, R123: mask logic, moves, and `kset`. Where the rules leave room, it follows the model's own readings,
log entry 18. -/
def Obligations.MaskInstructions : Prop :=
  ∀ (s : State) (e : Env), s.env? = some e → ∀ (d a b : MX) (r q : BitVec 7) (lo hi : BitVec 7),
    let A := fun (p : Bool) (l : Nat) => bit (e.w.getMX p a) l
    let B := fun (p : Bool) (l : Nat) => bit (e.w.getMX p b) l
    let mask := fun (i : Instr) (f : Bool → Nat → Bool) => Completes s e i (MaskWritten e d f)
    mask (.kand d a b) (fun p l => A p l && B p l) ∧ mask (.kor d a b) (fun p l => A p l || B p l)
      ∧ mask (.kxor d a b) (fun p l => A p l != B p l) ∧ mask (.kandn d a b) (fun p l => A p l && !B p l)
      ∧ Completes s e (.knot d a) (fun v => MaskWritten e d (fun p l => decide (l < 64) && !A p l) v)
      ∧ mask (.kmov (.mm d a)) A ∧ mask (.kmov (.sm d q)) (fun p l => bit (e.w.getS p q.toNat) l)
      ∧ Completes s e (.kmov (.ms r a)) (ScalarWritten e r fun p => e.w.getMX p a)
      ∧ mask (.kset d lo hi) (fun _ l => decide (lo.toNat ≤ l) && decide (l < hi.toNat))

/-- R121, R122: `kpop`, `kfind` and `krank`: what each writes, and which words are these instructions: D is a scalar, or for `krank` a
vector, A is a mask or `exec`, and every field that is not used is zero; any other word with their OP is undefined. -/
def Obligations.MaskCounts : Prop :=
  (∀ (s : State) (e : Env), s.env? = some e → ∀ (a : MX) (k : BitVec 4) (r : BitVec 7) (d : BitVec 8),
    let A := fun (p : Bool) (l : Nat) => bit (e.w.getMX p a) l
    Completes s e (.kpop r a) (ScalarWritten e r fun p => w64 ((List.range e.w.W).countP fun l => A p l))
      ∧ Completes s e (.kfind r a) (fun v => ∃ f, ScalarWritten e r f v ∧ ∀ p,
          ((∀ l < e.w.W, A p l = false) → f p = 0xFFFFFFFFFFFFFFFF)
            ∧ ∀ l < e.w.W, A p l = true → (∀ j < l, A p j = false) → f p = w64 l)
      ∧ Completes s e (.krank k d a) (LaneResult e k .n32 (.vec d) 8 fun p l => (List.range l).countP fun j => A p j))
    ∧ ∀ (b x : W64),
        let d := b.extractLsb' 40 8
        let n := b.extractLsb' 32 8
        let mask : MX := if n = 16 then .exec else .k (n.setWidth 4)
        let kind := b.extractLsb' 48 8 = 0 ∧ n ≤ 16
        let scalar := kind ∧ d < 128 ∧ b.extractLsb' 0 32 = 0
        let vector := kind ∧ b.extractLsb' 16 16 = 0 ∧ b.extractLsb' 0 12 = 0x200
        let undefined := ∃ why, decodeTotal b x = .emulate why
        (b.extractLsb' 56 8 = 0x5C → (scalar → decodeTotal b x = .kpop (d.setWidth 7) mask) ∧ (¬ scalar → undefined))
          ∧ (b.extractLsb' 56 8 = 0x5D → (scalar → decodeTotal b x = .kfind (d.setWidth 7) mask) ∧ (¬ scalar → undefined))
          ∧ (b.extractLsb' 56 8 = 0x5E → (vector → decodeTotal b x = .krank (b.extractLsb' 12 4) d mask) ∧ (¬ vector → undefined))

/-! ## Paths (spec/09_progress.md R246 to R259) -/

/-- R247: `resume_path` discards empty path entries, takes the topmost eligible deferred path or barrier waiter but the
entries just pushed, then the topmost eligible waiter of another sort, then what was just pushed, and else holds. -/
def Parts.ResumePathOrder : Prop :=
  ∀ (w : Wave) (b : Block) (n : Nat),
    let kept := fun (x : Entry) => !(x.kind == .path && x.mask == 0)
    let live := (frameOf w.stack).filter kept
    let pushed := (((frameOf w.stack).take n).filter kept).length
    let w' := { w with stack := live ++ belowFrame w.stack }
    let ready := fun (j : Nat) (x : Entry) => live[j]? = some x ∧ x.kind = .path
      ∧ ¬ (x.bw = true ∧ (b.bar x.bar.toNat).bitmap.getLsbD (w.half (w.halfOfMask x.mask)).waveid = true)
    let kind1 := fun (j : Nat) (x : Entry) => pushed ≤ j ∧ ready j x ∧ (x.jpc = 0 ∨ x.bw = true)
    let kind2 := fun (j : Nat) (x : Entry) => pushed ≤ j ∧ ready j x
    let kind3 := fun (j : Nat) (x : Entry) => j < pushed ∧ ready j x
    let takes := fun (k : Nat → Entry → Prop) => ∀ j x, k j x → (∀ i y, i < j → ¬ k i y) →
      w.resumePath b n = .path (Wave.resumeMask { w' with stack := dropAt w'.stack j, pc := x.rpc } x.mask)
    takes kind1 ∧ ((∀ j x, ¬ kind1 j x) → takes kind2) ∧ ((∀ j x, ¬ kind2 j x) → takes kind3)
      ∧ ((∀ j x, ¬ ready j x) → w.resumePath b n = if ∀ x ∈ live, x.kind ≠ .path then .none w'
          else .hold ((w'.setExec false 0).setExec true 0) pushed)

/-- R249, R250: `br`, the conditional branches and `brx`. A pair whose halves disagree is divided: the half that takes
the branch is pushed as a deferred path. Where the rules leave room, it follows the model's own readings, log entries
18 and 56. -/
def Obligations.Branches : Prop :=
  ∀ (s : State) (e : Env), s.env? = some e → ∀ (k : BitVec 4) (off : BitVec 40) (a : BitVec 7),
    let w := e.w
    let target : W64 := w.pc + off.signExtend 64 * 8
    let exec_ := fun (p : Bool) => (w.half p).exec
    let cond := fun (p : Bool) => if k = 0 then exec_ p else w.getK p k.toNat
    let halves := if ∀ p ∈ w.groups, exec_ p = 0 then [false] else w.groups.filter fun p => exec_ p != 0
    let divided := fun (p : Bool) (t u : W64) =>
      Wave.setExec { w with stack := { rpc := t, mask := w.hwHalf p (exec_ p) } :: w.stack, pc := u } p 0
    let branch := fun (i : Instr) (taken : Bool → Prop) =>
      ((∀ p ∈ halves, taken p) → TransfersTo s e i target)
        ∧ ((∀ p ∈ halves, ¬ taken p) → CompletesAs s e i { w with pc := w.pc + 8 })
        ∧ ∀ p q, halves = [false, true] → p ≠ q → taken p → ¬ taken q → w.stack.length < 256 →
            CompletesAs s e i (divided p target (w.pc + 8))
    TransfersTo s e (.br off) target
      ∧ branch (.bany k off) (fun p => exec_ p &&& cond p ≠ 0) ∧ branch (.ball k off) (fun p => exec_ p &&& ~~~cond p = 0)
      ∧ branch (.bnone k off) (fun p => exec_ p &&& cond p = 0)
      ∧ (let t := fun (p : Bool) => w.getS p a.toNat
        let bad := fun (p : Bool) => p ∈ halves ∧ (t p).toNat % 8 ≠ 0
        ((∃ p, bad p) → ∃ lanes, FaultsBefore s e (.brx a) 2 lanes
            ∧ ∀ p, (bad p → lanes p = exec_ p) ∧ (¬ bad p → lanes p = 0))
          ∧ ((∀ p, ¬ bad p) → (∀ p ∈ halves, ∀ q ∈ halves, t p = t q) → ∀ p ∈ halves, TransfersTo s e (.brx a) (t p))
          ∧ ((∀ p, ¬ bad p) → halves = [false, true] → t false ≠ t true → w.stack.length < 256 →
              CompletesAs s e (.brx a) (divided true (t true) (t false))))

/-- R251, R252, R256: `split`, `join` and `call`; a `join` with a trap entry on top returns from the trap. -/
def Parts.SplitJoinAndCall : Prop :=
  ∀ (s : State) (e : Env), s.env? = some e → ∀ off : BitVec 40,
    let w := e.w
    let target : W64 := w.pc + off.signExtend 64 * 8
    let pushed := fun (x : Entry) (pc : W64) => { w with stack := x :: w.stack, pc }
    (w.hwMask = 0 → CompletesAs s e (.split off) { w with pc := w.pc + 8 })
      ∧ (w.hwMask ≠ 0 → w.stack.length < 256 → CompletesAs s e (.split off) (pushed { rpc := target, mask := w.hwMask } (w.pc + 8)))
      ∧ (w.stack.length < 256 →
          CompletesAs s e (.call off) (pushed { rpc := w.pc + 8, mask := w.hwMask, kind := .call } target))
      ∧ (w.hwMask ≠ 0 → 256 ≤ w.stack.length → Resets s e (.split off) 0x50 0)
      ∧ (256 ≤ w.stack.length → Resets s e (.call off) 0x50 0)
      ∧ (w.stack = [] → CompletesAs s e .join { w with pc := w.pc + 8 })
      ∧ ∀ t r, w.stack = t :: r →
          (t.kind = .call → CompletesAs s e .join { w with pc := w.pc + 8 })
          ∧ (t.kind = .trap → ¬ isDebug t.cause.toNat = true → CompletesAs s e .join (w.trapReturn t))
          ∧ (t.kind = .path → t.jpc = w.pc → t.rpc = w.pc + 8 → t.bw = false →
              CompletesAs s e .join { Wave.resumeMask { w with stack := r } (w.hwMask ||| t.mask) with pc := w.pc + 8 })
          ∧ (t.kind = .path → ¬ (t.jpc = w.pc ∧ t.rpc = w.pc + 8 ∧ t.bw = false) →
              (w.hwMask = 0 → ResumesFrom s e .join w 0)
              ∧ (w.hwMask ≠ 0 → w.stack.length < 256 →
                  ResumesFrom s e .join (pushed { rpc := w.pc + 8, mask := w.hwMask, jpc := w.pc } w.pc) 1))

/-- R257: `calli` calls each lane's target, the groups of one target in the order of their lowest lanes; a misaligned
target of any lane raises `PC_ALIGN`. -/
def Parts.IndirectCall : Prop :=
  ∀ (s : State) (e : Env), s.env? = some e → ∀ a : BitVec 8,
    let w := e.w
    let lane := fun (p : Bool) (l : Nat) => p ∈ w.groups ∧ l < w.W ∧ bit (w.half p).exec l = true
    let target := fun (p : Bool) (l : Nat) => w64 ((w.getV p a.toNat l).toNat + (w.getV p (a.toNat + 1) l).toNat * 2 ^ 32)
    let bad := fun (p : Bool) (l : Nat) => lane p l ∧ (target p l).toNat % 8 ≠ 0
    ((∀ p l, ¬ lane p l) → CompletesAs s e (.calli a) { w with pc := w.pc + 8 })
      ∧ ((∃ p l, bad p l) → ∃ lanes, FaultsBefore s e (.calli a) 2 lanes ∧ ∀ p, ∀ l < 64, bit (lanes p) l = true ↔ bad p l)
      ∧ ((∃ p l, lane p l) → (∀ p l, ¬ bad p l) → ∃ (g : W64 × W64) (gs : List (W64 × W64)),
          (w.stack.length + gs.length + 1 ≤ 256 → CompletesAs s e (.calli a) { Wave.resumeMask
            { w with stack := gs.map (fun g => ({ rpc := g.1, mask := g.2 } : Entry)) ++
              { rpc := w.pc + 8, mask := w.hwMask, kind := .call } :: w.stack } g.2 with pc := g.1 })
          ∧ (256 < w.stack.length + gs.length + 1 → Resets s e (.calli a) 0x50 0)
          -- the groups hold each lane of `exec` under its target and no other
          ∧ (∀ p l, lane p l → ∃ x ∈ g :: gs, x.1 = target p l ∧ bit x.2 (w.hw p l) = true)
          ∧ (∀ x ∈ g :: gs, ∀ h, bit x.2 h = true → ∃ p l, lane p l ∧ h = w.hw p l ∧ x.1 = target p l)
          -- one group for each target, in the order of the lowest lanes
          ∧ (g :: gs).Pairwise (fun x y => x.1 ≠ y.1 ∧ ∃ h, bit x.2 h = true ∧ ∀ j ≤ h, bit y.2 j = false))

/-- R251, R252, R256, R257: split, join, and calls, direct and indirect. -/
def Obligations.SplitsAndCalls : Prop := Parts.SplitJoinAndCall ∧ Parts.IndirectCall

/-- R258: `ret` returns the lanes of the topmost call of the frame that no path above it holds; the last ones take the
return waiter below with them. Without a call in the frame it raises `RS_EMPTY`. -/
def Parts.Return : Prop :=
  ∀ (s : State) (e : Env), s.env? = some e →
    let w := e.w
    ((∀ x ∈ frameOf w.stack, x.kind ≠ .call) → FaultsBefore s e .ret 0x80 fun p => (w.half p).exec)
      ∧ ∀ above c below, w.stack = above ++ c :: below → (∀ x ∈ above, x.kind = .path) → c.kind = .call →
          let held := above.foldl (fun (m : W64) x => m ||| x.mask) 0
          let back := c.mask &&& ~~~held
          let rest := { c with mask := c.mask &&& held }
          let isWaiter := fun (x : Entry) => x.kind = .path ∧ x.jpc = x.rpc ∧ x.rpc = c.rpc
          (c.mask &&& held = 0 → (∀ x r, below = x :: r → ¬ isWaiter x) →
              CompletesAs s e .ret { Wave.resumeMask { w with stack := above ++ below } back with pc := c.rpc })
            ∧ (c.mask &&& held = 0 → ∀ x r, below = x :: r → isWaiter x →
              CompletesAs s e .ret { Wave.resumeMask { w with stack := above ++ r } (back ||| x.mask) with pc := c.rpc })
            ∧ (c.mask &&& held ≠ 0 → ∀ x r, below = x :: r → isWaiter x →
              ResumesFrom s e .ret { w with stack := above ++ rest :: { x with mask := x.mask ||| back } :: r } 0)
            ∧ (c.mask &&& held ≠ 0 → (∀ x r, below = x :: r → ¬ isWaiter x) → w.stack.length < 256 →
              ResumesFrom s e .ret { w with stack := above ++ rest :: { rpc := c.rpc, mask := back, jpc := c.rpc } :: below } 0)

/-- R247, R258: the order of resumption, and the return from a call. -/
def Obligations.ReturnAndResumption : Prop := Parts.ResumePathOrder ∧ Parts.Return

/-- R96: `nop` changes nothing of the wave but its PC; a word with its OP and any other field nonzero is undefined. -/
def Obligations.NopDoesNothing : Prop :=
  (∀ (s : State) (e : Env), s.env? = some e → CompletesAs s e .nop { e.w with pc := e.w.pc + 8 })
    ∧ (∀ x, decodeTotal 0x0100000000000000 x = .nop)
    ∧ ∀ b x : W64, b.extractLsb' 56 8 = 1 → b ≠ 0x0100000000000000 → ∃ why, decodeTotal b x = .emulate why

/-- R259, R263, R270, R274: `exit` ends the lanes of `exec`, tests the block's open phases again when it has ended any,
and goes on with another path or ends the wave; `yield` hands the wave to the oldest eligible path of its frame. Where
the rules leave room, it follows the model's own readings, log entry 19. -/
def Obligations.ExitAndYield : Prop :=
  ∀ (s : State) (e : Env), s.env? = some e →
    let w := e.w
    let clear := fun (h : Half) => { h with
      ended := h.ended ||| h.exec, exec := 0, k := (h.k.map fun x => (x.1, x.2 &&& ~~~h.exec)).filter fun x => x.2 != 0 }
    let u : Wave := { w with
      stack := w.stack.map fun (x : Entry) => { x with mask := x.mask &&& ~~~w.hwMask }
      lo := clear w.lo, hi := if w.width = .w16 then clear w.hi else w.hi }
    let live := (s.m.putWave e.id u).liveLanes w.block
    let test := fun (x : Bar) => if x.expected = 0 ∧ x.arrived ≠ 0 ∧ live ≤ x.arrived then { phase := !x.phase } else x
    -- the wave ends: its control lines say so, its bits leave the block's barriers, and the block ends with its last wave
    let last := (∀ x ∈ s.m.waves, x.1 ≠ e.id → x.2.block ≠ w.block) ∧ ∀ c ∈ s.m.spawnq, c.block = w.block → c.parent ≠ none
    let ends := ∃ t, exec .exit s = .next t ∧ (∀ id, t.m.wave? id = if id = e.id then none else s.m.wave? id)
      ∧ t.m.ctxs = s.m.ctxs ∧ t.m.ops = s.m.ops ∧ t.mgmt = s.mgmt ∧ t.agenda = s.agenda
      ∧ (∀ a n, a + n ≤ w.image ∨ w.image + 128 * w.width.c ≤ a → t.m.rd a n = s.m.rd a n)
      ∧ (∀ p ∈ w.groups, u.liveMask p = 0 → ¬ w.missing.contains (if p then 1 else 0) →
          (t.m.rdN (w.image + (if p then 128 else 0) + 21) 1).testBit 2 = true)
      ∧ (¬ last → ∃ b, t.m.block? w.block = some b ∧ t.m.launches = s.m.launches
          ∧ ∀ n, ∀ p ∈ w.groups, (w.half p).present = true → (w.half p).waveid < 128 → (b.bar n).bitmap.getLsbD (w.half p).waveid = false)
      ∧ (last → t.m.block? w.block = none
          ∧ (e.b.packed = [] → t.m.launch? e.b.launch = (s.m.launch? e.b.launch).map fun l => { l with ended := l.ended + 1 })
          ∧ t.m.slotTab = s.m.slotTab.map fun r => if r.block = some w.block then { r with state := 2, block := none } else r)
    let goesOn := fun (m : Mach) (b : Block) => match u.resumePath b 0 with
      | .path v => CompletesWith s e .exit m v
      | .hold v k => HoldsWith s e .exit m v (.paths k)
      | .none _ => ends
    (w.acc ≠ [] → Waits s e .exit .access)
      ∧ (w.acc = [] → (∀ p, (w.half p).parent = none) →
          let b' := { e.b with bars := (e.b.bars.map fun x => (x.1, test x.2)).filter fun x => x.2 != {} }
          let m' := { s.m with blocks := upd s.m.blocks w.block fun _ => b', changes := s.m.changes + 1 }
          (w.hwMask ≠ 0 → goesOn { m' with waves := put s.m.waves e.id u } b') ∧ (w.hwMask = 0 → goesOn s.m e.b))
      -- a child whose last lanes end counts down its operation, and the last child completes it
      ∧ (∀ p o op n, w.acc = [] → p ∈ w.groups → (w.half p).present = true → (w.half p).parent = some o → (∀ q ≠ p, (w.half q).parent = none) →
          u.liveMask p = 0 → lookup s.m.ops o = some op → op.kind = .spawn n → ∃ t, exec .exit s = .next t
            ∧ (1 < n → lookup t.m.ops o = some { op with kind := .spawn (n - 1) }) ∧ (n ≤ 1 → lookup t.m.ops o = none))
      -- the oldest path, the deepest of those of one age
      ∧ (let ready := fun (j : Nat) (x : Entry) => (frameOf w.stack)[j]? = some x ∧ e.b.eligible w x = true
        match w.oldest e.b with
        | none => ∀ j x, ¬ ready j x
        | some (n, x) => ready n x ∧ ∀ j y, ready j y → y.age.toNat < x.age.toNat ∨ y.age = x.age ∧ j ≤ n)
      ∧ (w.oldest e.b = none → CompletesAs s e .yield { w with pc := w.pc + 8, yielded := true })
      ∧ ∀ n x, w.oldest e.b = some (n, x) → w.stack.length < 256 → CompletesAs s e .yield
          { Wave.resumeMask { w with stack := { rpc := w.pc + 8, mask := w.hwMask } :: dropAt w.stack n, pc := x.rpc } x.mask
            with yielded := true }

/-- R262 to R265, R391: the arrivals of `bar` and its wait part, each half for itself. -/
def Obligations.NamedBarriers : Prop :=
  ∀ (s : State) (e : Env), s.env? = some e → ∀ (pub : Bool) (a c : SC),
    let w := e.w
    let N := fun (p : Bool) => e.sc p .n32 a
    let B := fun (p : Bool) => e.sc p .n32 c
    let live := s.m.liveLanes w.block
    let count := fun (p : Bool) => popcount (w.half p).exec
    let sealed := ∃ p, w.runs p ∧ ∃ o ∈ s.m.ops, o.2.wave = e.id ∧ o.2.half = p ∧ o.2.copied = false ∧ o.2.batch ≠ none
    let arrive := fun (x : Bar) (p : Bool) =>
      let expected := if x.arrived = 0 then B p else x.expected
      let arrived := x.arrived + count p
      if expected ≠ 0 ∧ expected ≤ arrived ∨ expected = 0 ∧ live ≤ arrived then { phase := !x.phase }
      else { expected, arrived, phase := x.phase, bitmap := x.bitmap ||| 1#128 <<< (w.half p).waveid }
    let put1 := fun (b : Block) (p : Bool) => { b with bars := mset {} b.bars (N p) (arrive (b.bar (N p)) p) }
    let who := w.groups.filter fun p => count p ≠ 0
    let b' := who.foldl put1 e.b
    let m' := { s.m with blocks := if who = [] then s.m.blocks else upd s.m.blocks w.block fun _ => b', changes := s.m.changes + who.length }
    let bad := fun (n : Bool) (p : Bool) => w.runs p ∧ (e.l.bars ≤ N p ∨ n = true ∧ 65535 < B p)
    let range := fun (i : Instr) (n : Bool) => (∃ p, bad n p) → ∃ lanes, FaultsBefore s e i 0x81 lanes
      ∧ ∀ p, (bad n p → lanes p = (w.half p).exec) ∧ (¬ bad n p → lanes p = 0)
    -- the wait part, over the machine and block that the arrivals leave, in each half that has lanes left
    let judged := fun (p : Bool) => p ∈ w.groups ∧ (w.width = .w16 → w.liveMask p ≠ 0)
    let waits := fun (i : Instr) (m : Mach) (b : Block) =>
      let held := fun (p : Bool) => (b.bar (N p)).bitmap.getLsbD (w.half p).waveid = true
      let waiter : Bool → Entry := fun p =>
        { rpc := w.pc + 8, mask := w.hwHalf p (w.half p).exec, jpc := w.pc, bar := BitVec.ofNat 11 (N p), bw := true }
      let other := ∃ x ∈ frameOf w.stack, b.eligible w x = true
      let done : Wave := { w with pc := w.pc + 8, inBar := false }
      let mine := ((w.groups.filter fun p => judged p).map waiter).filter fun x => x.mask != 0
      let u := { w with stack := mine.reverse ++ w.stack, inBar := false }
      ((∀ p, judged p → ¬ held p) → CompletesWith s e i m done)
        ∧ (∀ p q, judged p → judged q → held p → ¬ held q → w.stack.length < 256 → CompletesWith s e i m
            (Wave.setExec { done with stack := (if (waiter p).mask = 0 then [] else [waiter p]) ++ w.stack } p 0))
        ∧ ((∃ p, judged p) → (∀ p, judged p → held p) → ¬ other →
            ∃ l, HoldsWith s e i m { w with inBar := true } (.bar l) ∧ ∀ x, x ∈ l ↔ ∃ p, judged p ∧ x = (N p, (w.half p).waveid))
        ∧ ((∃ p, judged p) → (∀ p, judged p → held p) → other → w.stack.length + mine.length ≤ 256 →
            match u.resumePath b mine.length with
            | .path v => CompletesWith s e i m v
            | .hold v k => HoldsWith s e i m v (.paths k)
            | .none _ => CompletesWith s e i m done)
    range (.barArrive pub a c) true ∧ range (.barWait a) false ∧ (w.inBar = false → range (.barSync pub a c) true)
      ∧ ((∀ p, ¬ bad true p) → (pub = true → ¬ sealed) → CompletesWith s e (.barArrive pub a c) m' { w with pc := w.pc + 8 })
      ∧ ((∀ p, ¬ bad true p) → pub = true → sealed → ∃ why, Waits s e (.barArrive pub a c) why)
      ∧ ((∀ p, ¬ bad true p) → pub = true → sealed → w.inBar = false → ∃ why, Waits s e (.barSync pub a c) why)
      ∧ ((∀ p, ¬ bad false p) → waits (.barWait a) s.m e.b)
      ∧ ((∀ p, ¬ bad true p) → (pub = true → ¬ sealed) → w.inBar = false → waits (.barSync pub a c) m' b')
      ∧ (w.inBar = true → waits (.barSync pub a c) s.m e.b)

/-! ## Spawning and the register allowance (spec/09_progress.md R267 to R273) -/

/-- R19, R214, R34: accepting an engine operation makes a record of it and writes a pending receipt; its completion
rewrites the receipt register with the engine, the status and the same number, and takes the record away. Where the
rules leave room, it follows the model's own readings, log entry 30. -/
def Obligations.OperationsAndReceipts : Prop :=
  ∀ (m : Mach) (id : Nat) (w : Wave) (p : Bool) (q eng stat : Nat) (kind : EngKind) (queue : Bool) (fo : Option (W64 × W64)) (x : Ctx)
    (due : BitVec 24) (n : W32),
    -- the fields of a receipt
    (eng < 16 → stat < 16 → rSeq (mkRcpt due stat eng n) = n ∧ rEng (mkRcpt due stat eng n) = eng
        ∧ rStat (mkRcpt due stat eng n) = stat ∧ rDue (mkRcpt due stat eng n) = due)
      ∧ (m.ctx? w.ctx = some x → ∃ (seq : W32) (due : BitVec 24),
          let r := m.accept id w p q eng kind queue fo
          r.1 = { m with
              ctxs := upd m.ctxs w.ctx fun x => { x with seq := x.seq + 1 }
              ops := put m.ops m.nextId { ctx := w.ctx, block := w.block, wave := id, half := p, core := w.core, queue, kind, target := .reg id p q, seq, due, fo, born := m.tick }
              nextId := m.nextId + 1, free := m.free + 1, changes := m.changes + 1 }
            ∧ seq = BitVec.ofNat 32 (Config.seqBase w.ctx + x.seq)
            ∧ r.2.getQ p q = mkRcpt due 0 eng seq
            ∧ (∀ p' q', (p', q') ≠ (p, q) → r.2.getQ p' q' = w.getQ p' q')
            ∧ r.2 = { w with lo := r.2.lo, hi := r.2.hi } ∧ (∀ p', (r.2.half p').s = (w.half p').s ∧ (r.2.half p').k = (w.half p').k
              ∧ (r.2.half p').exec = (w.half p').exec))
      ∧ ∀ o v fl, lookup m.ops id = some o → o.target = .reg o.wave o.half q → m.wave? o.wave = some v → m.resident v = true → v.missing = [] →
          let m' := m.completeOp id eng stat none fl
          lookup m'.ops id = none ∧ (∀ j ≠ id, lookup m'.ops j = lookup m.ops j) ∧ m'.mem = m.mem
            ∧ (∀ j ≠ o.wave, m'.wave? j = m.wave? j)
            ∧ ∃ v', m'.wave? o.wave = some v' ∧ v'.getQ o.half q = mkRcpt o.due stat eng o.seq ∧ (∀ q' ≠ q, v'.getQ o.half q' = v.getQ o.half q')

/-- R267 to R270: the children that a `spawn` requests, its range check, the wait for another engine's receipt, and
the admission of the child at the head of the queue. -/
def Parts.Spawning : Prop :=
  (∀ (s : State) (e : Env), s.env? = some e → ∀ (k q : BitVec 4) (a : BitVec 7) (b : SC) (va vb : BitVec 8) (entry : W32),
    let w := e.w
    let start := w64 (e.l.code + 8 * entry.toNat)
    let one := fun (p : Bool) => [((0 : Nat), w.getS p a.toNat, e.sc p .n32 b)]
    let each := fun (p : Bool) => (w.active p k.toNat).map fun l => (l, w64 (w.vec p l .n64 va.toNat), w.vec p l .n32 vb.toNat)
    let asks := fun (kids : Bool → List (Nat × W64 × Nat)) (p : Bool) => p ∈ w.groups ∧ (w.half p).exec ≠ 0 ∧ kids p ≠ []
    let bad := fun (kids : Bool → List (Nat × W64 × Nat)) (p : Bool) (l : Nat) => asks kids p ∧ ∃ x ∈ kids p, x.1 = l ∧ (x.2.2 < 1 ∨ w.W < x.2.2)
    let foreign := fun (p : Bool) => rPending (w.getQ p q.toNat) = true ∧ s.m.spawnIn e.id w p q.toNat = none
    let spawns := fun (i : Instr) (kids : Bool → List (Nat × W64 × Nat)) => (∀ p l, ¬ bad kids p l) →
      ((∃ p, asks kids p ∧ foreign p) → ∃ p, asks kids p ∧ foreign p ∧ Waits s e i (.rcpt p q.toNat))
        ∧ ((∀ p, asks kids p → ¬ foreign p) →
            let r := (w.groups.filter fun p => asks kids p).foldl
              (fun (x : Mach × Wave) p => x.1.request e.id x.2 p q.toNat start ((kids p).map (·.2))) (s.m, w)
            CompletesWith s e i r.1 { r.2 with pc := w.pc + 16 })
    spawns (.spawn q a b entry) one ∧ spawns (.spawnL k q va vb entry) each
      ∧ ((∃ p l, bad one p l) → ∃ lanes, FaultsBefore s e (.spawn q a b entry) 0x71 lanes
          ∧ ∀ p, ((∃ l, bad one p l) → lanes p = (w.half p).exec) ∧ ((∀ l, ¬ bad one p l) → lanes p = 0))
      ∧ ((∃ p l, bad each p l) → ∃ lanes, FaultsBefore s e (.spawnL k q va vb entry) 0x71 lanes
          ∧ ∀ p, ∀ l < 64, bit (lanes p) l = true ↔ bad each p l))
    -- one half's request
    ∧ (∀ (m : Mach) (id : Nat) (w : Wave) (p : Bool) (q : Nat) (entry : W64) (kids : List (W64 × Nat)), w.width ≠ .w16 →
        let child := fun (o : Nat) (x : W64 × Nat) => ({ ctx := w.ctx, block := w.block, op := o, entry, lanes0 := x.2, arg0 := x.1 } : Child)
        match m.spawnIn id w p q with
        | some o => m.request id w p q entry kids = ({ m with
            ops := upd m.ops o fun x => { x with kind := match x.kind with | .spawn n => .spawn (n + kids.length) | k => k }
            spawnq := m.spawnq ++ kids.map (child o) }, w)
        | none =>
          let r := m.accept id w p q 5 (.spawn kids.length) false none
          m.request id w p q entry kids = ({ r.1 with spawnq := r.1.spawnq ++ kids.map (child m.nextId) }, r.2))
    -- admission
    ∧ ∀ (s : State) (c : Child) (before rest : List Child) (b : Block) (l : Launch) (x : Ctx) (i0 : Nat) (is : List Nat) (slots : W64),
        let i1 := is.headD 0
        s.m.spawnq = before ++ c :: rest → (∀ y ∈ before, y.ctx ≠ c.ctx) → c.parent = none →
        s.m.block? c.block = some b → s.m.launch? b.launch = some l → s.m.ctx? c.ctx = some x → s.m.freeIndices c.block = i0 :: is → (c.lanes1 ≠ 0 → is ≠ []) →
        s.m.admitSlot c b l (l.width.g * (8 * ((l.vregs + 7) / 8)) + l.width.c * (3 + (l.sregs + 15) / 16) + 4) = some slots →
        ∃ v, exec (.childAdmit c.ctx) s = .next { s with m := Mach.makeRoom { s.m with
              waves := put s.m.waves s.m.nextId v, spawnq := before ++ rest, nextId := s.m.nextId + 1, changes := s.m.changes + 1 } b.core }
          ∧ v.pc = c.entry ∧ v.core = b.core ∧ v.slots = slots ∧ v.allow = 8 * ((l.vregs + 7) / 8)
          ∧ v.lo.getS 0 = c.arg0 ∧ v.lo.getS 1 = w64 l.lrec ∧ v.lo.exec = ones c.lanes0 ∧ v.lo.waveid = i0
          ∧ v.hi.present = decide (c.lanes1 ≠ 0) ∧ (c.lanes1 ≠ 0 → v.hi.getS 0 = c.arg1 ∧ v.hi.exec = ones c.lanes1 ∧ v.hi.waveid = i1)

/-- R269: a parked parent that heads its context's queue, or whose receipt is complete, takes a slot again. -/
def Parts.ParkedParentsReturn : Prop :=
  ∀ (s : State) (id : Nat) (w : Wave) (b : Block) (l : Launch) (c : Child) (before rest : List Child),
    s.m.wave? id = some w → s.m.block? w.block = some b → s.m.launch? w.launch = some l →
    s.m.spawnq = before ++ c :: rest → c.parent = some id → (∀ y ∈ before, y.parent ≠ some id) →
    let turn := c.ctx = w.ctx ∧ (∀ y ∈ before, y.ctx ≠ w.ctx)
    (¬ turn → s.m.holdOver id w = false → exec (.parkedParentReturn id) s = .next s)
      ∧ (turn ∨ s.m.holdOver id w = true → s.m.admitSlot c b l w.lines = none → exec (.parkedParentReturn id) s = .next s)
      ∧ (∀ slots, turn ∨ s.m.holdOver id w = true → s.m.admitSlot c b l w.lines = some slots →
          exec (.parkedParentReturn id) s = .next { s with m := Mach.makeRoom (Mach.returnWave
            { s.m with spawnq := before ++ rest, changes := s.m.changes + 1 } id w b.core slots w.hold) b.core })
      -- a wave that returns is resident with its slots; what its core kept needs no fetch, and on another core the DUE of
      -- its operations is counted on that core's clock
      ∧ ∀ (m : Mach) (core : Nat) (slots : W64) (hold : Hold), m.wave? id = some w →
          (core = w.core → w.missing = [] → w.heldLoad = false → m.returnWave id w core slots hold = { m with
            waves := put m.waves id { w with slots, resident := m.nextId, hold, parked := false }, nextId := m.nextId + 1 })
          ∧ ∃ v, (m.returnWave id w core slots hold).wave? id = some v ∧ v.core = core ∧ v.slots = slots ∧ v.parked = false ∧ v.hold = hold
            ∧ (core ≠ w.core → ∀ o op, lookup m.ops o = some op →
              lookup (m.returnWave id w core slots hold).ops o = some (match op.target with
                | .reg k _ _ => if k = id then { op with due := op.due + (m.ccyc core - w.saved).setWidth 24 } else op
                | _ => op))

/-- R267 to R270: spawning, and the return of a parked parent. Where the rules leave room, it follows the model's own
readings, log entries 10, 12, 20 and 55. -/
def Obligations.Spawning : Prop := Parts.Spawning ∧ Parts.ParkedParentsReturn

/-- R271 to R273: `ralloc` takes lines when they fit the budget of 4096 and no older wave waits, `rfree` gives lines
back, a waiting request is granted when it fits, and waves are parked and return. Where the rules leave room, it
follows the model's own readings, log entries 12 and 20. -/
def Obligations.RegisterAllowance : Prop :=
  Config.budgetLines = 4096
    ∧ (∀ (s : State) (e : Env), s.env? = some e → ∀ n : BitVec 8,
      let w := e.w
      let fits := s.m.firstInLine w.core e.id w.born = true ∧ s.m.usedLines w.core + w.width.g * n.toNat ≤ 4096
      let first := w.lnScal + w.width.c * w.scalLines
      let v := { w with
        allow := w.allow + n.toNat, v := w.v.filter fun x => decide (x.1 < 64 * w.allow)
        missing := w.missing.filter fun k => decide (k < first + w.width.g * w.allow) }
      let u := { w with
        allow := w.allow - n.toNat, v := w.v.filter fun x => decide (x.1 < 64 * (w.allow - n.toNat))
        missing := w.missing.filter fun k => decide (k < first + w.width.g * (w.allow - n.toNat)) }
      (fits → CompletesWith s e (.ralloc n) (((s.m.moveStack w v).putWave e.id v).makeRoom w.core) { v with pc := w.pc + 8 })
        ∧ (¬ fits → Waits s e (.ralloc n) (.ralloc n.toNat))
        ∧ CompletesWith s e (.rfree n) (s.m.moveStack w u) { u with pc := w.pc + 8 }
        ∧ ∀ p ∈ w.groups, ∀ r, ∀ l < w.W, v.getV p r l = (if r < w.allow then w.getV p r l else 0)
          ∧ u.getV p r l = if r < w.allow - n.toNat then w.getV p r l else 0)
    ∧ ∀ (s : State) (id : Nat) (w : Wave), s.m.wave? id = some w →
      (∀ n t, w.hold = .wait t (.ralloc n) → s.m.resident w = true → s.m.grantable id w n = true →
          let v := { w with
            allow := w.allow + n, v := w.v.filter fun x => decide (x.1 < 64 * w.allow)
            missing := w.missing.filter fun k => decide (k < w.lnScal + w.width.c * w.scalLines + w.width.g * w.allow) }
          let m := ((s.m.moveStack w v).putWave id ({ v with pc := w.pc + 8 } : Wave).retired).makeRoom w.core
          exec (.rallocGrant id) s = .next { s with m := { m with changes := m.changes + 1 } })
        -- a parked wave's lines go to its image and to no other byte
        ∧ (s.m.parkable id w = true → ∃ m, exec (.wavePark id) s = .next { s with m }
            ∧ m.wave? id = some { w with parked := true, missing := List.range w.lnSpill, saved := s.m.ccyc w.core }
            ∧ (∀ j ≠ id, m.wave? j = s.m.wave? j) ∧ ∀ a n, a + n ≤ w.image ∨ w.image + 128 * w.lnRegion ≤ a → m.rd a n = s.m.rd a n)
        ∧ (s.m.parkable id w = false → exec (.wavePark id) s = .next s)
        ∧ (w.parked = true → (id, w) ∈ s.m.lineWaiters w.core → s.m.firstInLine w.core id w.born = true →
            s.m.usedLines w.core + w.lines ≤ 4096 →
            let m := (s.m.returnWave id w w.core w.slots w.hold).makeRoom w.core
            exec (.parkedWaveReturn id) s = .next { s with m := { m with changes := m.changes + 1 } })
        ∧ ∀ core, s.m.fileLines core ≤ 4096 → s.m.makeRoom core = s.m

/-! ## Memory (spec/07_ordering.md R188 to R192; spec/08_memory_isa.md R217 to R223) -/

/-- R4, R190, R350: a write changes the bytes it names and no other, keeps memory's canonical form, and clears the
poison of the lines that it covers whole and of no other. -/
def Parts.MemoryWrites : Prop :=
  ∀ (m : Mach) (pa a : Nat) (l : List Byte),
    (∀ i (h : i < l.length), (m.wr pa l).rd (pa + i) 1 = [l[i]])
      ∧ (m.wr pa l).rd pa l.length = l
      ∧ (∀ n, a + n ≤ pa ∨ pa + l.length ≤ a → (m.wr pa l).rd a n = m.rd a n)
      ∧ (Memory.wf m.mem = true → Memory.wf (m.wr pa l).mem = true)
      ∧ (∀ x, x ∈ (m.wr pa l).poison ↔ x ∈ m.poison ∧ ¬ (pa ≤ 128 * x ∧ 128 * x + 128 ≤ pa + l.length))
      ∧ (∀ n x, x < 256 ^ n → (m.wrN pa n x).rdN pa n = x)
      ∧ m.wr pa l = { m with mem := (m.wr pa l).mem, poison := (m.wr pa l).poison }

/-- R188, R189, R191: a store within a core lies in its line of L1 and leaves memory alone; a write-back of L1 lines puts
their dirty bytes into memory and no other byte, and a release at a scope wider than a core does so for every line of
its context. -/
def Parts.L1Lines : Prop :=
  ∀ (m : Mach) (core c line page off : Nat) (comp : Option (Nat × Nat × Nat)) (l : List Byte) (sel : L1Line → Bool) (sc : Scope),
    let owes := fun (x : L1Line) (a : Nat) => 128 * x.line ≤ a ∧ a < 128 * x.line + 128 ∧ x.dirty.getLsbD (a - 128 * x.line) = true
    let byte := fun (x : L1Line) (a : Nat) => (lineByte x.data (a - 128 * x.line)).toNat
    (off + l.length ≤ 128 →
      let m' := m.l1Store core c line page off comp l
      ∃ x, m'.l1.find? (fun y => y.is core c line) = some x
        ∧ (∀ i (h : i < l.length), x.valid.getLsbD (off + i) = true ∧ x.dirty.getLsbD (off + i) = true ∧ lineByte x.data (off + i) = l[i])
        ∧ (∀ o < 128, o < off ∨ off + l.length ≤ o → match m.l1.find? (fun y => y.is core c line) with
          | some y => x.valid.getLsbD o = y.valid.getLsbD o ∧ x.dirty.getLsbD o = y.dirty.getLsbD o
              ∧ (y.vpages.contains page = true ∨ y.dirty.getLsbD o = true → lineByte x.data o = lineByte y.data o)
          | none => m.l1.length < Config.l1Lines → x.valid.getLsbD o = false ∧ x.dirty.getLsbD o = false)
        ∧ ((m.l1.any fun y => y.is core c line) = true → m'.mem = m.mem))
      ∧ (let m' := m.l1FlushAll sel
        (∀ x ∈ m.l1, sel x = true → ∀ a, owes x a → (∀ y ∈ m.l1, sel y = true → owes y a → byte y a = byte x a) → m'.rdN a 1 = byte x a)
          ∧ (∀ a, (∀ x ∈ m.l1, sel x = true → ¬ owes x a) → m'.rdN a 1 = m.rdN a 1)
          ∧ (m.l1Drop sel).mem = m'.mem ∧ ∀ x ∈ (m.l1Drop sel).l1, sel x = false)
      ∧ (scopeWide sc = false → m.releaseTo c sc = m)
      ∧ (scopeWide sc = true → m.releaseTo c sc = m.l1FlushAll (fun x => x.ctx == c)
          ∧ ∀ x ∈ (m.releaseTo c sc).l1, x.ctx = c → x.dirty = 0)

/-- R25, R26, R213, R217, R319: the causes that the addresses of `ld`, `st` and the atomics raise: the lowest cause
that an active lane meets, with the lanes that meet it. -/
def Parts.AddressCauses : Prop :=
  ∀ (s : State) (e : Env), s.env? = some e → e.x.debug ≠ 2 → ∀ (d : Dst) (o : OpM) (q : OpAtom),
    let meets := fun (o : OpM) (atom : Bool) (p : Bool) (l c : Nat) =>
      (p, l) ∈ e.w.work o.k.toNat o.uni ∧
        let a := e.ea p l o.addr o.off (Ty.size o.ty)
        let n := Ty.size o.ty
        let inSpad := e.x.spbase ≤ a ∧ a < e.x.spbase + 2 ^ 32
        let inStack := ¬ inSpad ∧ e.x.stkbase ≤ a ∧ a < e.x.stkbase + 2 ^ 34
        (c = 0x20 ∧ ¬ inSpad ∧ ¬ inStack ∧ canonical a = false)
          ∨ (c = 0x21 ∧ a % n ≠ 0)
          ∨ (c = 0x22 ∧ inSpad ∧ e.l.spad < a - e.x.spbase + n)
          ∨ (c = 0x23 ∧ inStack ∧ 16 * e.l.stk < a - e.x.stkbase + n)
          ∨ (c = 0x70 ∧ inStack ∧ atom = true)
    let raises := fun (i : Instr) (o : OpM) (atom : Bool) => (∃ p l c, meets o atom p l c) → ∃ c lanes, FaultsBefore s e i c lanes
      ∧ (∃ p l, meets o atom p l c) ∧ (∀ p l c', meets o atom p l c' → c ≤ c')
      ∧ ∀ p, ∀ l < 64, bit (lanes p) l = true ↔ meets o atom p l c
    raises (.ld d o) o false ∧ raises (.st d o) o false
      ∧ ∀ i ∈ [Instr.atomAdd q, .atomFadd q, .atomMin q, .atomMax q, .atomAnd q, .atomOr q, .atomXor q, .atomXchg q, .atomCas q, .atomInc q],
        raises i q.m true

/-- R190, R192, R197, R199, R217, R223: `ld`, `st` and the atomics, with no cause and room in their counter. Scratchpad
lanes are performed at issue, in lane order; with any other lane the access is outstanding, and memory is as it was
until it is performed. An atomic with `.rel` first waits for, and sends home, the wave's earlier stores. -/
def Parts.AccessesIssue : Prop :=
  ∀ (s : State) (e : Env), s.env? = some e → e.x.debug ≠ 2 → ∀ (d : Dst) (o : OpM) (q : OpAtom),
    let w := e.w
    let ea := fun (o : OpM) (p : Bool) (l : Nat) => e.ea p l o.addr o.off (Ty.size o.ty)
    let spad := fun (a : Nat) => e.x.spbase ≤ a ∧ a < e.x.spbase + 2 ^ 32
    let fine := fun (o : OpM) => ∀ x ∈ w.work o.k.toNat o.uni,
      let a := ea o x.1 x.2
      a % Ty.size o.ty = 0 ∧ match e.x.steer a with
        | (.spad, f) => f + Ty.size o.ty ≤ e.l.spad
        | (.stack, f) => f + Ty.size o.ty ≤ 16 * e.l.stk
        | (.global, f) => canonical f = true
    let fineAtom := fine q.m ∧ ∀ x ∈ w.work q.m.k.toNat q.m.uni, (e.x.steer (ea q.m x.1 x.2)).1 ≠ .stack
    let room := fun (load : Bool) => (w.acc.filter fun a => a.kind.isLoad == load).length < 64
    let allSpad := fun (o : OpM) => ∀ x ∈ w.work o.k.toNat o.uni, spad (ea o x.1 x.2)
    -- one lane of an access over the block as the lanes before it have left it
    let lane := fun (o : OpM) (new : Nat → Bool → Nat → Option Nat) (b c : Bool → Nat → Nat) (r : Block × List LaneAcc) (x : Bool × Nat) =>
      let (sp, f) := e.x.steer (ea o x.1 x.2)
      let n := Ty.size o.ty
      let y : LaneAcc := { half := x.1, lane := x.2, space := sp, va := f, b := w64 (b x.1 x.2), c := w64 (c x.1 x.2) }
      if sp = .spad then
        ((match new (r.1.spadN f n) x.1 x.2 with | some z => r.1.wrSpad f (natBytes z n) | none => r.1),
          r.2 ++ [{ y with val := w64 (r.1.spadN f n), done := true }])
      else (r.1, r.2 ++ [y])
    let issued := fun (i : Instr) (o : OpM) (kind : AccKind) (new : Nat → Bool → Nat → Option Nat) (b c : Bool → Nat → Nat) (acq : Bool) (n : Nat) (m : Mach) =>
      let r := (w.work o.k.toNat o.uni).foldl (lane o new b c) (e.b, [])
      let m' := { m with blocks := upd m.blocks w.block fun _ => r.1 }
      let a : Access := { kind, ty := o.ty, scope := o.scope, lanes := r.2, acq }
      (allSpad o → CompletesWith s e i (if acq then m'.invalidateAll w.core w.ctx o.scope else m') (Wave.writeBack { w with pc := w.pc + w64 n } a))
        ∧ (¬ allSpad o → CompletesWith s e i m' { w with pc := w.pc + w64 n, acc := w.acc ++ [a] })
    let none' : Bool → Nat → Nat := fun _ _ => 0
    let sb := fun (p : Bool) (l : Nat) => e.src p l o.ty (match d with | .vec r => .vec r | .sca r => .sca r)
    let ab := fun (x : Option Dst) (p : Bool) (l : Nat) => match x with
      | some (.vec r) => e.src p l q.m.ty (.vec r) | some (.sca r) => e.src p l q.m.ty (.sca r) | none => 0
    let owed := e.released none q.m.scope false fun _ _ => true
    let atom := fun (i : Instr) (op : AtomOp) =>
      let kind : AccKind := .atom op q.d
      (fineAtom → q.rel = true → owed = false → Waits s e i .room)
        ∧ (fineAtom → (q.rel = true → owed = true) → ¬ room q.d.isSome → Waits s e i (.wcnt q.d.isSome 63))
        ∧ (fineAtom → (q.rel = true → owed = true) → room q.d.isSome →
            issued i q.m kind (fun old p l => some (atomFn op q.m.ty old (w64 (ab (some q.b) p l)).toNat (w64 (ab q.c p l)).toNat)) (ab (some q.b)) (ab q.c) q.acq 16
              (if q.rel = true then s.m.releaseTo w.ctx q.m.scope else s.m))
    (fine o → room true → issued (.ld d o) o (.load d) (fun _ _ _ => none) none' none' false 8 s.m)
      ∧ (fine o → room false → issued (.st d o) o .store (fun _ p l => some (w64 (sb p l)).toNat) sb none' false 8 s.m)
      ∧ (fine o → ¬ room true → Waits s e (.ld d o) (.wcnt true 63)) ∧ (fine o → ¬ room false → Waits s e (.st d o) (.wcnt false 63))
      ∧ atom (.atomAdd q) .add ∧ atom (.atomFadd q) .fadd ∧ atom (.atomMin q) .min ∧ atom (.atomMax q) .max ∧ atom (.atomAnd q) .and
      ∧ atom (.atomOr q) .or ∧ atom (.atomXor q) .xor ∧ atom (.atomXchg q) .xchg ∧ atom (.atomCas q) .cas ∧ atom (.atomInc q) .inc

/-- R25, R190, R199, R213, R217, R223: the causes of an access, and its issue. Where the rules leave room, it follows
the model's own readings, log entry 22. -/
def Obligations.AccessesIssue : Prop := Parts.AddressCauses ∧ Parts.AccessesIssue

/-- R223: the new value that each atomic leaves, for operands of its type's width. -/
def Parts.AtomicValues : Prop :=
  ∀ (t : Ty) (old b c : Nat), old < 2 ^ Ty.bits t → b < 2 ^ Ty.bits t →
    let new := fun (op : AtomOp) => atomFn op t old b c
    (new .add = (old + b) % 2 ^ Ty.bits t)
      ∧ (∀ f, Ty.fmt? t = some f → new .fadd = (f.add .near false old b).1)
      ∧ (Ty.int t (new .min) = Min.min (Ty.int t old) (Ty.int t b) ∧ (new .min = old ∨ new .min = b))
      ∧ (Ty.int t (new .max) = Max.max (Ty.int t old) (Ty.int t b) ∧ (new .max = old ∨ new .max = b))
      ∧ (∀ j, (new .and).testBit j = (old.testBit j && b.testBit j)) ∧ (∀ j, (new .or).testBit j = (old.testBit j || b.testBit j))
      ∧ (∀ j, (new .xor).testBit j = (old.testBit j != b.testBit j)) ∧ new .xchg = b
      ∧ new .cas = (if old = c then b else old) ∧ new .inc = (if b ≤ old then 0 else old + 1)

/-- R4, R190, R223, R350: what a write of memory leaves, and what an atomic writes. -/
def Obligations.MemoryWritesAndAtomicValues : Prop := Parts.MemoryWrites ∧ Parts.AtomicValues

/-- R27, R189, R190, R217, R223: what an outstanding access of one lane does when it is performed. A load within the core
takes each byte from its L1 line where that holds it, else from the span's cache of remote lines or from memory; a store
within the core goes into L1. At a wider scope a load reads memory after the core's own dirty bytes have gone there, and
a store and an atomic are performed there. A stack lane is an access within the core of its own byte of the wave's
stack region. The result is then written and the access leaves the wave. -/
def Parts.AccessesPerformed : Prop :=
  ∀ (s : State) (id : Nat) (w : Wave) (x : Ctx) (a : Access) (rest : List Access) (y : LaneAcc) (lanes : W64),
    s.m.wave? id = some w → s.m.ctx? w.ctx = some x → s.m.running x = true → s.m.resident w = true →
    w.acc = a :: rest → a.known = true → a.bad = [] → a.lanes = [y] → y.done = false → y.space ≠ .spad →
    bit lanes (w.hw y.half y.lane) = true →
    let n := Ty.size a.ty
    let stack := y.space = .stack
    let pa := if stack then w.stackAddr y.half y.va y.lane else y.pa
    let page := if stack then 2 ^ 60 else y.va % 2 ^ 57 / 65536
    let comp := if stack then none else y.comp
    let line := pa / 128
    let off := pa % 128
    let near := scopeWide a.scope = false ∨ stack
    let own := fun (z : L1Line) => z.is w.core w.ctx line
    let b := s.m.askWave w
    let done := fun (m : Mach) (v : W64) =>
      let u := Wave.writeBack w { a with lanes := [{ y with val := v, done := true }] }
      let m := if a.acq = true then m.invalidateAll w.core w.ctx a.scope else m
      exec (.memoryAccessPerformed id 0 lanes) s = .next { s with m := { m with waves := put m.waves id { u with acc := rest }, changes := m.changes + 1 } }
    (stack → n ≤ 4) → isMem pa = true → off + n ≤ 128 →
    let met := ∀ z ∈ s.m.l1, own z = true → z.vpages.contains page = true
    let home := fun (i : Nat) => s.m.rdN (pa + i) 1
    -- the bytes that a load within the core finds elsewhere than in L1
    let remote := s.m.rdc.find? fun r => r.span == spanOfCore w.core && r.ctx == w.ctx && r.line == line
    let beyond := fun (i : Nat) => match remote with
      | some r => if homeSpan pa ≠ spanOfCore w.core ∧ r.vpages.contains page = true then (lineByte r.data (off + i)).toNat else home i
      | none => home i
    (∀ dst, a.kind = .load dst → near → met →
        (∀ d, s.m.l1Hit w.core w.ctx line off n = some d → done b (w64 (d.extractLsb' (8 * off) (8 * n)).toNat))
          ∧ (s.m.l1Hit w.core w.ctx line off n = none → s.m.l1.length < Config.l1Lines → s.m.poisoned pa 1 = false → x.pmsel = [] →
            ∃ m v, done m v ∧ v.toNat < 256 ^ n ∧ (∀ c k, m.rd c k = s.m.rd c k) ∧ ∀ i < n, v.toNat / 256 ^ i % 256 =
              match s.m.l1.find? own with
              | some z => if z.valid.getLsbD (off + i) = true then (lineByte z.data (off + i)).toNat else beyond i
              | none => beyond i))
      ∧ (a.kind = .store → near → done (b.l1Store w.core w.ctx line page off comp (natBytes y.b.toNat n)) 0)
      ∧ (∀ dst, a.kind = .load dst → ¬ near → x.pmsel = [] → s.m.poisoned pa n = false →
          ∃ m, done m (w64 (m.rdN pa n)) ∧ m.mem = (s.m.l1FlushAll own).mem ∧ ∀ r ∈ m.rdc, ¬ (r.span = spanOfCore w.core ∧ r.ctx = w.ctx ∧ r.line = line))
      ∧ (a.kind = .store → ¬ near → x.pmsel = [] → ∃ m, done m 0 ∧ m.rd pa n = natBytes y.b.toNat n
          ∧ (∀ c k, c + k ≤ pa ∨ pa + n ≤ c → m.rd c k = s.m.rd c k)
          ∧ ∀ z ∈ m.l1, own z = true → ∀ i < n, z.valid.getLsbD (off + i) = true ∧ z.dirty.getLsbD (off + i) = false
              ∧ lineByte z.data (off + i) = BitVec.ofNat 8 (y.b.toNat / 256 ^ i))
      ∧ ∀ op r, a.kind = .atom op r → ¬ stack → s.m.poisoned pa n = false → x.pmsel = [] →
          let h := s.m.l1Drop own
          ∃ m, done m (w64 (h.rdN pa n)) ∧ m.rd pa n = natBytes (atomFn op a.ty (h.rdN pa n) y.b.toNat y.c.toNat) n
            ∧ (∀ c k, c + k ≤ pa ∨ pa + n ≤ c → m.rd c k = h.rd c k) ∧ ∀ z ∈ m.l1, own z = false

/-- R90, R217, R223: an access that is complete writes the value of each of its lanes to the destination, as an arithmetic
result is written; a store and an atomic without a result write no register. -/
def Parts.AccessResults : Prop :=
  ∀ (w : Wave) (a : Access) (d : Dst),
    (a.kind = .store → w.writeBack a = w) ∧ (∀ op, a.kind = .atom op none → w.writeBack a = w)
      ∧ ((a.kind = .load d ∨ ∃ op, a.kind = .atom op (some d)) →
        a.lanes.Pairwise (fun x y => (x.half, x.lane) ≠ (y.half, y.lane)) → (∀ x ∈ a.lanes, x.half ∈ w.groups ∧ x.lane < w.W) →
        let v := w.writeBack a
        v.bare = w.bare ∧ (∀ p n, v.getK p n = w.getK p n) ∧ (∀ p, (v.half p).exec = (w.half p).exec) ∧ v.pc = w.pc ∧
          match d with
          | .vec r => (∀ p n, v.getS p n = w.getS p n) ∧ ∀ p ∈ w.groups, ∀ l < w.W, ∀ j, v.getV p j l =
              match a.lanes.find? (fun x => x.half == p && x.lane == l) with
              | some x =>
                if Ty.wide a.ty = true ∧ j = r.toNat + 1 then BitVec.ofNat 32 (x.val.toNat / 2 ^ 32)
                else if j = r.toNat then BitVec.ofNat 32 (if Ty.wide a.ty then x.val.toNat else vecFill a.ty x.val.toNat)
                else w.getV p j l
              | none => w.getV p j l
          | .sca r => (∀ p j l, v.getV p j l = w.getV p j l) ∧ ∀ p j, v.getS p j =
              match (a.lanes.filter fun x => x.half == p).getLast? with
              | some x => if j = r.toNat then w64 (scaFill a.ty x.val.toNat) else w.getS p j
              | none => w.getS p j)

/-- R189 to R191, R197, R199, R217, R223: an outstanding access is performed, through the lines of its core. Where the
rules leave room, it follows the model's own readings, log entries 24 and 53. -/
def Obligations.AccessesPerformed : Prop := Parts.L1Lines ∧ Parts.AccessesPerformed ∧ Parts.AccessResults

/-- R293 to R296, R302: what a walk finds: at each level the entry at 16 times the index of the address bits of that level,
and the first of its outcomes that applies; and what a translation answers: the walk's outcome, absence while the page is
pending, or what a cached entry gives. A permission outcome that counts adds 1 to the partition's error count. -/
def Parts.Translation : Prop :=
  ∀ (g : Mgmt) (m : Mach) (c va : Nat) (need : Need) (x : Ctx), m.ctx? c = some x → va < 2 ^ 57 →
    let shift := fun (k : Nat) => if k = 0 then 43 else if k = 1 then 29 else if k = 2 then 21 else 16
    let count := fun (k : Nat) => if k = 0 ∨ k = 1 then 2 ^ 14 else if k = 2 then 2 ^ 8 else 2 ^ 5
    let entryAt := fun (k table : Nat) => table + 16 * (va / 2 ^ shift k % count k)
    let entry := fun (k table : Nat) => w64 (m.rdN (entryAt k table) 8)
    let owned := fun (a : Nat) => isMem a = true ∧ g.ownsSpan x.part (homeSpan a) = true
    let next := fun (e : W64) => 512 * (e.extractLsb' 9 43).toNat
    -- a legal pointer to a table of the next level
    let pointer := fun (k table to_ : Nat) =>
      let e := entry k table
      owned (entryAt k table) ∧ e.getLsbD 0 = true ∧ e.getLsbD 1 = false ∧ k < 3 ∧ e.extractLsb' 52 12 = 0 ∧ e.extractLsb' 2 7 = 0
        ∧ to_ = next e ∧ to_ % (if k = 0 then 2 ^ 18 else if k = 1 then 4096 else 512) = 0
    let leaf := fun (k : Nat) (e : W64) (r : XRes) =>
      let frame := 65536 * (e.extractLsb' 16 36).toNat
      let malformed := e.extractLsb' 52 12 ≠ 0 ∨ e.extractLsb' 13 3 ≠ 0 ∨ e.getLsbD 5 = true ∨ k = 0 ∨ frame % 2 ^ shift k ≠ 0
        ∨ e.getLsbD 6 = true ∧ e.extractLsb' 7 2 = 3
      let pa := frame + va % 2 ^ shift k
      let refused := need.r = true ∧ e.getLsbD 2 = false ∨ need.w = true ∧ e.getLsbD 3 = false ∨ need.x = true ∧ e.getLsbD 4 = false
      r = if malformed ∨ g.frameOk x.part pa = false ∨ refused then .perm true else if g.windowDown pa = true then .perm false else .ok pa e k
    let ends := fun (k table : Nat) (r : XRes) =>
      let e := entry k table
      (¬ owned (entryAt k table) → r = .perm true)
        ∧ (owned (entryAt k table) → e.getLsbD 0 = false → r = .absent k)
        ∧ (owned (entryAt k table) → e.getLsbD 0 = true → e.getLsbD 1 = true → leaf k e r)
        ∧ (owned (entryAt k table) → e.getLsbD 0 = true → e.getLsbD 1 = false → r = .perm true)
    let walked := walk g m x va need
    let page := va / 65536
    let fresh := match x.pending.find? (fun p => p.page == page) with | some p => .absent p.level | none => walked
    let r := xlate g m c va need
    let errors := fun (n : Mach) => (n.part x.part).errcnt
    (∀ (t : Nat → Nat) (k : Nat), k ≤ 3 → t 0 = x.ptroot → (∀ j < k, pointer j (t j) (t (j + 1))) → (∀ n, ¬ pointer k (t k) n) → ends k (t k) walked)
      -- memory of the partition, or an open peer window over the partition's links
      ∧ (∀ pa, isMem pa = true → g.frameOk x.part pa = g.ownsSpan x.part (homeSpan pa))
      ∧ (m.cachedLeaf c page = none → m.cachedPtr c page = none → r.1 = fresh)
      ∧ (r.1 = fresh ∨ (∃ e, m.cachedLeaf c page = some e ∧ leaf e.level e.leaf r.1)
        ∨ ∃ e, m.cachedPtr c page = some e ∧ r.1 = walkGo g m x.part va need (3 - e.level) (e.level + 1) (next e.leaf))
      ∧ (r.1 = .perm true → errors r.2 = if errors m = BitVec.allOnes 32 then errors m else errors m + 1)
      ∧ (r.1 ≠ .perm true → errors r.2 = errors m)
      ∧ r.2.mem = m.mem ∧ r.2.waves = m.waves ∧ r.2.ctxs = m.ctxs ∧ r.2.l1 = m.l1 ∧ r.2.escrow = m.escrow ∧ r.2.ops = m.ops

/-- R296, R297: the pending-fault table of a context and its fault ring: the first absence of a page makes an entry and
writes a record when the ring has room, and a later one joins the entry; a full table takes none. The record holds the
page's canonical address, the kinds, the level and the number of requests. -/
def Parts.FaultRecords : Prop :=
  ∀ (m : Mach) (c va level : Nat) (kind : BitVec 5) (x : Ctx), m.ctx? c = some x → va < 2 ^ 57 →
    let page := va / 65536
    let r := x.fltring
    let logn := m.rdN (r + 0xC) 1
    let widx := m.rdN r 4
    let room := 6 ≤ logn ∧ logn ≤ 16 ∧ (widx + 2 ^ 32 - m.rdN (r + 4) 4) % 2 ^ 32 < 2 ^ logn
    ((∃ p ∈ x.pending, p.page = page) → m.absent c va level kind = { m with ctxs := upd m.ctxs c fun x => { x with
          pending := updFirst (fun p => p.page == page) (fun p => { p with kinds := p.kinds ||| kind, waiting := p.waiting + 1 }) x.pending } })
      ∧ ((∀ p ∈ x.pending, p.page ≠ page) → 256 ≤ x.pending.length → m.absent c va level kind = m)
      ∧ ((∀ p ∈ x.pending, p.page ≠ page) → x.pending.length < 256 →
          let n := Mach.faultWrite { m with ctxs := upd m.ctxs c fun x => { x with
            pending := x.pending ++ [{ page, level, kinds := kind, waiting := 1 }] } } c page
          m.absent c va level kind = { n with changes := m.changes + 1 })
      ∧ ∀ p, x.pending.find? (fun p => p.page == page) = some p → p.written = false →
          (¬ room → m.faultWrite c page = m ∧ ∀ s : State, s.m = m → exec (.faultRecordWrite c page) s = .next s)
            ∧ (room → x.pmsel = [] → (m.vf x.part x.vf).irq = none → p.level < 4 →
              let n := m.faultWrite c page
              let a := r + 64 + 32 * (widx % 2 ^ logn)
              (∀ s : State, s.m = m → exec (.faultRecordWrite c page) s = .next { s with m := { n with changes := n.changes + 1 } })
                ∧ n.rdN a 8 = 65536 * page + (if page / 2 ^ 40 % 2 = 1 then 2 ^ 64 - 2 ^ 57 else 0)
                ∧ n.rdN (a + 8) 1 = p.kinds.toNat ∧ n.rdN (a + 9) 1 = p.level ∧ n.rdN (a + 10) 2 = 0
                ∧ n.rdN (a + 12) 4 = Min.min p.waiting 0xFFFFFFFF ∧ n.rdN (a + 16) 16 = 0
                ∧ n.rdN r 4 = (widx + 1) % 2 ^ 32
                ∧ (∀ b k, (b + k ≤ a ∨ a + 32 ≤ b) → (b + k ≤ r ∨ r + 4 ≤ b) → n.rd b k = m.rd b k)
                ∧ (n.vf x.part x.vf).kept = (m.vf x.part x.vf).kept ||| 2
                ∧ (n.ctx? c).map (·.pending) = some (updFirst (fun q => q.page == page) (fun q => { q with written := true }) x.pending))

/-- R318, R326 to R328: an outstanding access whose one lane meets an absent page or a permission outcome. A load, and an
atomic that returns a value, is held; a store and a reduction retire into the escrow log, or are held while it lacks room;
on a permission outcome nothing is performed and `PERMIT` is raised with the access's skid. -/
def Parts.AbsentAndForbiddenPages : Prop :=
  ∀ (s : State) (id : Nat) (w : Wave) (x : Ctx) (a : Access) (rest : List Access) (y : LaneAcc) (lanes : W64),
    s.m.wave? id = some w → s.m.ctx? w.ctx = some x → s.m.running x = true → s.m.resident w = true →
    w.acc = a :: rest → a.known = false → a.bad = [] → a.lanes = [y] → y.done = false → y.space = .global →
    let need : Need := match a.kind with
      | .load _ => { r := true } | .store => { w := true } | .atom _ (some _) => { r := true, w := true } | .atom _ none => { w := true }
    let kind : BitVec 5 := match a.kind with | .load _ => 1 | .store => 2 | .atom _ _ => 8
    let returns := match a.kind with | .load _ | .atom _ (some _) => True | _ => False
    let q := xlate s.mgmt (s.m.askWave w) w.ctx y.va need
    let stepTo := fun (m : Mach) => exec (.memoryAccessPerformed id 0 lanes) s = .next { s with m := { m with changes := m.changes + 1 } }
    let held := fun (m : Mach) => stepTo (m.putWave id { w with acc := { a with held := true } :: rest })
    let page := y.va % 2 ^ 57 / 65536
    (a.held = true → returns → exec (.memoryAccessPerformed id 0 lanes) s = .next s)
      ∧ (a.held = false → ∀ level, q.1 = .absent level →
          let n := q.2.absent w.ctx y.va level kind
          let entries := a.escrow w id [y]
          let takes := (∃ z, n.ctx? w.ctx = some z ∧ ∃ p ∈ z.pending, p.page = page)
            ∧ (q.2.escrow.filter fun z => z.core == w.core && q.2.duty z.ctx).length + 1 ≤ 64
          (returns → held n)
            ∧ (¬ returns → entries.length = 1
              ∧ (∀ z ∈ entries, z.core = w.core ∧ z.ctx = w.ctx ∧ z.wave = id ∧ z.half = y.half ∧ z.launch = w.launch ∧ z.scope = a.scope
                  ∧ z.vline = y.va % 2 ^ 57 / 128
                  ∧ (a.kind = .store → ∃ bytes, z.kind = .store bytes
                    ∧ ∀ i < Ty.size a.ty, lookup bytes (y.va % 128 + i) = some (BitVec.ofNat 8 (y.b.toNat / 256 ^ i)))
                  ∧ ∀ op, a.kind = .atom op none → z.kind = .red op a.ty [{ lane := y.lane, off := y.va % 128, b := y.b, c := y.c }])
              ∧ (takes → let m := n.takeEscrow w.ctx entries
                stepTo ((if a.acq = true then m.invalidateAll w.core w.ctx a.scope else m).putWave id { w with acc := rest }))
              ∧ (¬ takes → held n)))
      ∧ (∀ (m : Mach) (z : Escrow), m.ctx? z.ctx = some x → x.pmsel = [] → m.takeEscrow z.ctx [z] =
          { m with escrow := m.escrow ++ [{ z with seq := m.nextId }], nextId := m.nextId + 1 })
      ∧ ((a.held = false ∨ ¬ returns) → ∀ counted, q.1 = .perm counted → ∃ t : Req,
          let m := if a.acq = true then q.2.invalidateAll w.core w.ctx a.scope else q.2
          stepTo (takeTrap s.mgmt m id { w with acc := rest } x t)
            ∧ t.code = 0x25 ∧ t.rpc = w.pc ∧ t.addr = w64 y.va ∧ t.addr1 = w64 y.va ∧ t.skid = a.younger - 1
            ∧ ∀ l < 64, (bit t.lanes0 l = true ↔ y.half = false ∧ l = y.lane) ∧ (bit t.lanes1 l = true ↔ y.half = true ∧ l = y.lane))

/-- R293 to R297, R326 to R328: the walk, the fault records, and accesses to absent and forbidden pages. -/
def Obligations.TranslationAndFaults : Prop := Parts.Translation ∧ Parts.FaultRecords ∧ Parts.AbsentAndForbiddenPages

/-- R207, R209, R219 to R222: `pref` changes no memory, `l2pin` writes a bit for each active lane and memory stays as
it was, `ifence` drops the context's lines from its core's instruction cache, and `wcnt` holds until its count is reached. -/
def Parts.PrefetchPinsAndCounters : Prop :=
  ∀ (s : State) (e : Env), s.env? = some e → ∀ (o : OpM) (d : BitVec 4) (n : BitVec 7),
    let w := e.w
    let lanes := fun (p : Bool) (l : Nat) => (p, l) ∈ w.work o.k.toNat o.uni
    let ea := fun (p : Bool) (l : Nat) => e.ea p l o.addr o.off (Ty.size o.ty)
    let far := fun (p : Bool) (l : Nat) => lanes p l ∧ (e.x.steer (ea p l)).1 = .global ∧ canonical (ea p l) = false
    -- the lanes in order: whether each has a page in memory, and what `op` answers for its line
    let pinned := fun (i : Instr) (op : Mach → Nat → Nat → Bool × Mach) =>
      let run := (w.work o.k.toNat o.uni).foldl (fun (r : Mach × List ((Bool × Nat) × Bool)) x =>
        if (e.x.steer (ea x.1 x.2)).1 ≠ .global then (r.1, r.2 ++ [(x, false)]) else
        match xlate e.g r.1 w.ctx (ea x.1 x.2) {} with
        | (.ok pa _ _, m) =>
          if isMem pa then ((op m (pa / 128) (ea x.1 x.2 % 2 ^ 57 / 65536)).2, r.2 ++ [(x, (op m (pa / 128) (ea x.1 x.2 % 2 ^ 57 / 65536)).1)])
          else (m, r.2 ++ [(x, false)])
        | (_, m) => (m, r.2 ++ [(x, false)])) (s.m, [])
      ((∃ p l, far p l) → ∃ c, FaultsBefore s e i 0x20 c ∧ ∀ p, ∀ l < 64, bit (c p) l = true ↔ far p l)
        ∧ ((∀ p l, ¬ far p l) → CompletesIn s e i fun m v => ∃ hit : Bool → Nat → Bool,
            v.pc = w.pc + 8 ∧ KeepsV e v ∧ KeepsS e v ∧ KeepsExec e v ∧ KeepsFlags e v
              ∧ (∀ p j l, bit (v.getK p j) l = if j = d.toNat ∧ d ≠ 0 ∧ lanes p l then hit p l else bit (w.getK p j) l)
              ∧ (∀ p l, lanes p l → (hit p l = true ↔ ((p, l), true) ∈ run.2)) ∧ m = run.1
              ∧ (∀ p l, lanes p l → (e.x.steer (ea p l)).1 ≠ .global → hit p l = false)
              ∧ m.waves = s.m.waves ∧ m.blocks = s.m.blocks ∧ m.l1 = s.m.l1 ∧ m.escrow = s.m.escrow ∧ (e.x.pmsel = [] → m.mem = s.m.mem))
    (CompletesIn s e (.pref o) fun m v => v.settled = Wave.settled { w with pc := w.pc + 8 } ∧ m.waves = s.m.waves ∧ m.blocks = s.m.blocks ∧ m.escrow = s.m.escrow
        -- a counter that wraps may interrupt, and a full L1 gives up a line
        ∧ (e.x.pmsel = [] → s.m.l1.length + (w.work o.k.toNat o.uni).length ≤ Config.l1Lines → m.mem = s.m.mem))
      ∧ pinned (.l2pinPin d o) (fun m line page => m.pin w.ctx e.x line page)
      ∧ pinned (.l2pinUnpin d o) (fun m line _ => (m.pins.any fun p => p.ctx == w.ctx && p.line == line,
          { m with pins := m.pins.filter fun p => !(p.ctx == w.ctx && p.line == line) }))
      ∧ CompletesWith s e .ifence { s.m with icache := s.m.icache.filter fun x => !(x.core == w.core && x.ctx == w.ctx) } { w with pc := w.pc + 8 }
      ∧ (let count := fun (load : Bool) => (w.acc.filter fun a => a.kind.isLoad == load).length
        (count true ≤ n.toNat → CompletesAs s e (.wcntLd n) { w with pc := w.pc + 8 })
          ∧ (n.toNat < count true → Waits s e (.wcntLd n) (.wcnt true n.toNat))
          ∧ (count false ≤ n.toNat → CompletesAs s e (.wcntSt n) { w with pc := w.pc + 8 })
          ∧ (n.toNat < count false → Waits s e (.wcntSt n) (.wcnt false n.toNat)))

/-- R209, R220: what `l2pin` finds of one line: a pin stays as it is, the context's limit and the eight ways of a set
refuse it, and else it is added; `.unpin` takes it away. -/
def Parts.Pins : Prop :=
  ∀ (m : Mach) (c : Nat) (x : Ctx) (line page : Nat),
    let mine := m.pins.filter fun p => p.ctx == c
    let held := ∃ p ∈ m.pins, p.ctx = c ∧ p.line = line
    (held → m.pin c x line page = (true, m))
      ∧ (¬ held → x.pinlim ≤ mine.length → m.pin c x line page = (false, m))
      ∧ (¬ held → mine.length < x.pinlim → (∃ p ∈ m.pins, p.line = line) → (m.pin c x line page).1 = true)
      ∧ (¬ held → mine.length < x.pinlim → (∀ p ∈ m.pins, p.line ≠ line) → ((m.pin c x line page).1 = true ↔
          ((m.pins.map fun p => p.line).eraseDups.filter fun l =>
            homeSpan (l * 128) == homeSpan (line * 128) && Config.l2set l == Config.l2set line).length < 8))
      ∧ ((m.pin c x line page).1 = true → ∃ p ∈ (m.pin c x line page).2.pins, p.ctx = c ∧ p.line = line)
      ∧ ((m.pin c x line page).1 = false → (m.pin c x line page).2 = m)
      ∧ ∀ p ∈ m.pins, p ∈ (m.pin c x line page).2.pins

/-- R207, R209, R219 to R222: prefetches, pins, and waits for the wave's accesses. Where the rules leave room, it
follows the model's own readings, log entry 23. -/
def Obligations.PrefetchAndPins : Prop := Parts.PrefetchPinsAndCounters ∧ Parts.Pins

/-! ## Guards and coffers (spec/07_ordering.md R191 to R196; spec/08_memory_isa.md R224 to R229) -/

/-- R193, R227: the statuses of `gbind.bind`, in the order in which they are returned, and what binding and unbinding
do. -/
def Parts.Bindings : Prop :=
  ∀ (s : State) (e : Env), s.env? = some e → ∀ (d a b c : BitVec 7),
    let w := e.w
    let reg := fun (p : Bool) (r : BitVec 7) => (w.getS p r.toNat).toNat
    let halves := w.groups.filter fun p => (w.half p).exec ≠ 0
    let purse : List Binding := if e.x.pcount = 0 then [] else [{ base := e.x.pbase, len := e.x.pcount * 2 ^ e.x.psize, guard := e.x.pguard }]
    let meet := fun (x : Binding) (a n : Nat) => a < x.base + x.len ∧ x.base < a + n
    let wrong := fun (x : Ctx) (base len guard : Nat) => base % 128 ≠ 0 ∨ len % 128 ≠ 0 ∨ len = 0 ∨ 2 ^ 40 < len ∨ x.globalRange base len = false
      ∨ x.globalRange guard 8 = false ∨ guard % 8 ≠ 0 ∨ ∃ y ∈ x.binds ++ x.purse ++ [({ base := base, len := len, guard := guard } : Binding)], meet y guard 8
    e.x.purse = purse
      ∧ (∀ (x : Ctx) (base len guard : Nat),
          let taken := ∃ y ∈ x.binds ++ x.purse, meet y base len
          (x.bindStatus base len guard = 3 ↔ wrong x base len guard)
            ∧ (x.bindStatus base len guard = 1 ↔ ¬ wrong x base len guard ∧ 256 ≤ x.binds.length)
            ∧ (x.bindStatus base len guard = 2 ↔ ¬ wrong x base len guard ∧ x.binds.length < 256 ∧ taken)
            ∧ (x.bindStatus base len guard = 0 ↔ ¬ wrong x base len guard ∧ x.binds.length < 256 ∧ ¬ taken))
      ∧ (let one := fun (r : Mach × Wave) (p : Bool) =>
          let st := ((r.1.ctx? w.ctx).getD e.x).bindStatus (reg p a) (reg p b) (reg p c)
          let bound : Binding := { base := reg p a, len := reg p b, guard := reg p c }
          (if st = 0 then { r.1 with ctxs := upd r.1.ctxs w.ctx fun x => { x with binds := x.binds ++ [bound] } } else r.1, r.2.setS p d.toNat (w64 st))
        let r := halves.foldl one (s.m, w)
        CompletesWith s e (.gbindBind d a b c) r.1 { r.2 with pc := w.pc + 8 })
      ∧ (let mine := fun (p : Bool) => e.x.binds.filter fun y => y.base == reg p a
        let owed := ∃ p ∈ halves, e.released (some p) .device true (inRegions (mine p)) = false
        let one := fun (r : Mach × Wave) (p : Bool) =>
          if ∃ y ∈ ((r.1.ctx? w.ctx).getD e.x).binds, y.base = reg p a then
            let m := r.1.releaseTo w.ctx .device
            ({ m with ctxs := upd m.ctxs w.ctx fun x => { x with binds := x.binds.filter fun y => y.base != reg p a } }, r.2.setS p d.toNat 0)
          else (r.1, r.2.setS p d.toNat 4)
        let r := halves.foldl one (s.m, w)
        (owed → Waits s e (.gbindUnbind d a) .room)
          ∧ (¬ owed → CompletesWith s e (.gbindUnbind d a) r.1 { r.2 with pc := w.pc + 8 }))

/-- R194 to R196, R228, R229: `grel` waits for the wave's stores to the guard's regions and then increments the
version at home; `gacq` reads it and invalidates the regions' lines; the `.all` forms name no guard; `gwait` holds
until the version is reached, and meanwhile hands the wave to another path. -/
def Parts.Guards : Prop :=
  ∀ (s : State) (e : Env), s.env? = some e → ∀ (sc : Scope) (d a b : BitVec 7),
    let w := e.w
    let g := fun (p : Bool) => (w.getS p a.toNat).toNat
    let v := fun (p : Bool) => (w.getS p b.toNat).toNat
    let mine := fun (p : Bool) => e.released (some p) sc true (inRegions (e.x.regions (g p))) = true
    let every := fun (p : Bool) => e.released (some p) sc true (fun _ _ => true) = true
    let global := ∀ p ∈ w.passes, (e.x.steer (g p)).1 = .global ∧ canonical (g p) = true ∧ g p % 8 = 0
    let found := fun (l : List (Bool × HomeAt)) (m : Mach) => e.homes s.m needRW g w.passes = (l, m)
      ∧ ∀ x ∈ l, ∃ pa, x.2 = .at pa ∧ m.poisoned pa 8 = false
    let older := fun (l : List (Bool × HomeAt)) => ∃ x ∈ l, ∃ pa, x.2 = .at pa ∧ olderMeets w.acc false (g x.1) pa 8 = true
    -- the versions still to be reached: a word that has met its comparison while the wave was held is met
    let owes := fun (l : List (Bool × HomeAt)) (m : Mach) =>
      (l.filterMap fun x => match x.2 with | .at pa => some (pa, v x.1) | _ => none).filter fun y =>
        decide (m.homeN y.1 8 < y.2) && match w.hold with | .wait _ (.gwait k _) => k.contains y | _ => true
    let other := ∃ x ∈ frameOf w.stack, e.b.eligible w x = true
    ((∀ p ∈ w.passes, mine p) → AtHome s e (.grel sc d a) 8 8 8 needRW g fun m u p pa =>
        let m := m.releaseTo w.ctx sc
        let x := (m.homeN pa 8 + 1) % 2 ^ 64
        (m.homeWr pa 8 x, u.setS p d.toNat (w64 x)))
      ∧ (global → (∃ p ∈ w.passes, ¬ mine p) → Waits s e (.grel sc d a) .room)
      ∧ AtHome s e (.gacq sc d a) 8 8 8 needRW g (fun m u p pa =>
        (m.invalidateIn w.core w.ctx sc (e.x.regions (g p)), u.setS p d.toNat (w64 (m.homeN pa 8))))
      ∧ CompletesWith s e (.gacqAll sc) (s.m.invalidateAll w.core w.ctx sc) { w with pc := w.pc + 8 }
      ∧ ((∀ p ∈ w.passes, every p) → CompletesWith s e (.grelAll sc) (s.m.releaseTo w.ctx sc) { w with pc := w.pc + 8 })
      ∧ ((∃ p ∈ w.passes, ¬ every p) → Waits s e (.grelAll sc) .room)
      ∧ (∀ i ∈ [Instr.grel sc d a, .gacq sc d a, .gwait a b], HomeCauses s e i 8 8 g (· ∈ w.passes) fun p => (w.half p).exec)
      ∧ ∀ l m, global → found l m →
        (older l → Waits s e (.gwait a b) .room)
          ∧ (¬ older l → owes l m = [] → CompletesWith s e (.gwait a b) m { w with pc := w.pc + 8 })
          ∧ (¬ older l → owes l m ≠ [] → ¬ other → HoldsWith s e (.gwait a b) m w (.gwait (owes l m) false))
          ∧ (¬ older l → owes l m ≠ [] → other → w.stack.length < 256 →
              match Wave.resumePath { w with stack := { rpc := w.pc, mask := w.hwMask } :: w.stack } e.b 1 with
              | .path u => CompletesWith s e (.gwait a b) m u
              | .hold u k => HoldsWith s e (.gwait a b) m u (.paths k)
              | .none _ => HoldsWith s e (.gwait a b) m w (.gwait (owes l m) false))

/-- R193 to R196, R227 to R229: bindings, and operations on guards. Where the rules leave room, it follows the model's
own readings, log entries 25 and 27. -/
def Obligations.BindingsAndGuards : Prop := Parts.Bindings ∧ Parts.Guards

/-- R191, R194, R197: what a release waits for: a store of the wave to the bytes that it covers, outstanding or in the
escrow log; at wave scope `.rel` waits for none. -/
def Parts.ReleaseWaits : Prop :=
  ∀ (e : Env) (half : Option Bool) (sc : Scope) (strict : Bool) (covers : Nat → Nat → Bool),
    let mine := fun (p : Bool) => half = none ∨ half = some p
    let address := fun (line o : Nat) => (128 * line + o) % 2 ^ 57 + (if (128 * line + o) / 2 ^ 56 % 2 = 1 then 2 ^ 64 - 2 ^ 57 else 0)
    let outstanding := ∃ a ∈ e.w.acc, a.kind.isLoad = false ∧ ∃ x ∈ a.lanes, x.done = false ∧ x.space = .global ∧ mine x.half
      ∧ covers x.va (Ty.size a.ty) = true
    let logged := ∃ y ∈ e.m.escrow, y.wave = e.id ∧ mine y.half ∧ match y.kind with
      | .store bytes => ∃ b ∈ bytes, covers (address y.vline b.1) 1 = true
      | .red _ t rs => ∃ r ∈ rs, covers (address y.vline r.off) (Ty.size t) = true
      | .held .. => False
    e.released half sc strict covers = true ↔ (sc = .wave ∧ strict = false) ∨ ¬ outstanding ∧ ¬ logged

/-- R191, R194, R195: what a release and an acquire do to the caches. -/
def Parts.ReleaseAndAcquire : Prop :=
  ∀ (m : Mach) (core c : Nat) (sc : Scope) (l : List Binding),
    let mine := fun (x : L1Line) => x.core == core && x.ctx == c
    let wide := sc = .cell ∨ sc = .span ∨ sc = .device ∨ sc = .system
    let far := sc = .device ∨ sc = .system
    -- the line holds a byte of a region, at one of the pages through which it was reached
    let within := fun (pages : List Nat) (line : Nat) => ∃ p ∈ pages, ∃ b ∈ l,
      65536 * p + 128 * line % 65536 < b.base % 2 ^ 57 + b.len ∧ b.base % 2 ^ 57 < 65536 * p + 128 * line % 65536 + 128
    -- at scopes within the core nothing moves
    (¬ wide → m.releaseTo c sc = m ∧ m.invalidateIn core c sc l = m ∧ m.invalidateAll core c sc = m)
      -- a wider release leaves no dirty byte of the context in an L1
      ∧ (wide → ∀ x ∈ (m.releaseTo c sc).l1, x.ctx = c → x.dirty = 0)
      -- a wider acquire leaves no line of the context there, and at device scope none in the span's cache
      ∧ (wide → ∀ x ∈ (m.invalidateAll core c sc).l1, mine x = false)
      ∧ (far → ∀ x ∈ (m.invalidateAll core c sc).rdc, ¬ (x.span = core / 24 ∧ x.ctx = c))
      -- the acquire of a guard does so for the lines of its regions alone
      ∧ (wide → (∀ x ∈ (m.invalidateIn core c sc l).l1, mine x = true → ¬ within x.vpages x.line)
          ∧ ∀ x ∈ m.l1, ¬ (mine x = true ∧ within x.vpages x.line) → ∃ y ∈ (m.invalidateIn core c sc l).l1, y.is x.core x.ctx x.line = true)
      ∧ (far → ∀ x ∈ (m.invalidateIn core c sc l).rdc, x.span = core / 24 → x.ctx = c → ¬ within x.vpages x.line)

/-- R191, R194, R195, R197: what a release waits for, and what a release and an acquire do to the caches. Where the
rules leave room, it follows the model's own readings, log entry 25. -/
def Obligations.ReleaseAndAcquire : Prop := Parts.ReleaseWaits ∧ Parts.ReleaseAndAcquire

/-- R224 to R226: `cfadd` deposits lane by lane and sets the bit of each refused lane, a refusal adds 1 to the
coffer's count, and `cfread` reads the root once the coffer is complete. Where the rules leave room, it follows the
model's own readings, log entry 26. -/
def Obligations.Coffers : Prop :=
  ∀ (s : State) (e : Env), s.env? = some e → ∀ (o : OpCfadd) (q : OpCfread),
    let w := e.w
    let base := fun (r : BitVec 7) (p : Bool) => (w.getS p r.toNat).toNat
    let good := fun (m : Mach) (x : List (Nat × XRes)) => ∀ y ∈ x, ∃ pa leaf lv, y.2 = .ok pa leaf lv ∧ m.poisoned pa 16 = false
    let busy := fun (p : Bool) => p ∈ w.groups ∧ w.active p o.k.toNat ≠ []
    (e.x.debug ≠ 2 → (∀ p, busy p → (e.x.steer (base o.a p)).1 = .global ∧ canonical (base o.a p) = true ∧ base o.a p % 32 = 0) →
        (o.rel = true → e.released none o.scope false (fun _ _ => true) = true) →
        let m := if o.rel then s.m.releaseTo w.ctx o.scope else s.m
        let heads := ((w.work o.k.toNat false).map fun x => base o.a x.1).eraseDups
        good (e.tryAll m heads).2 (e.tryAll m heads).1 →
        let m := heads.foldl (fun m va => e.cofferReq m va) (e.tryAll m heads).2
        let ds := e.deposits o m
        let tr := ds.foldl (fun (r : List (Deposit × List (Nat × XRes)) × Mach) d =>
          (r.1 ++ [(d, (e.tryAll r.2 d.path).1)], (e.tryAll r.2 d.path).2)) ([], m)
        (∀ t ∈ tr.1, good tr.2 t.2) →
        let older := ∃ t ∈ tr.1, ∃ y ∈ t.2, ∃ pa leaf lv, y.2 = .ok pa leaf lv ∧ olderMeets w.acc true y.1 pa 16 = true
        let r := ds.foldl (fun (r : Mach × Wave) d =>
          ((e.deposit r.1 d).1, r.2.setK d.half o.d.toNat (setBit (r.2.getK d.half o.d.toNat) d.lane (e.deposit r.1 d).2))) (tr.2, w)
        (older → Waits s e (.cfadd o) .room) ∧ (¬ older → CompletesWith s e (.cfadd o) r.1 { r.2 with pc := w.pc + 16 }))
      -- the lanes that deposit, and which are refused whatever the leaf holds
      ∧ (∀ m : Mach, (e.deposits o m).map (fun x => (x.half, x.lane)) = w.work o.k.toNat false ∧ ∀ x ∈ e.deposits o m,
          let at_ := entryPa e.g m w.ctx x.base
          x.base = base o.a x.half ∧ x.x = e.src x.half x.lane .n32 o.b ∧ x.val = w.vec x.half x.lane (if o.wide then .f64 else .f32) o.c.toNat
            ∧ x.head.fmt = m.homeN at_ 2 % 256 ∧ x.head.logn = m.homeN at_ 2 / 256 % 256 ∧ x.leaf = 2 ^ x.head.logn + x.x
            ∧ (x.refuse = true ↔ 1 < x.head.fmt ∨ 24 < x.head.logn ∨ (o.wide = true ↔ x.head.fmt ≠ 1) ∨ 2 ^ x.head.logn ≤ x.x))
      ∧ (e.x.debug ≠ 2 → HomeCauses s e (.cfadd o) 32 32 (base o.a) busy fun p => w.activeMask p o.k.toNat)
      -- one deposit
      ∧ (∀ (m : Mach) (x : Deposit),
          let taken := x.refuse = true ∨ e.nodePresent m x.base x.leaf = true
          (taken → e.deposit m x = (e.status m x.base fun st => st % 2 ^ 40 + Min.min (st / 2 ^ 40 + 1) (2 ^ 24 - 1) * 2 ^ 40, true))
            ∧ (¬ taken → x.leaf = 1 → e.deposit m x = (e.status (e.putNode m x.base 1 x.val) x.base fun st => st ||| 2 ^ 31, false))
            ∧ (¬ taken → 1 < x.leaf → e.nodePresent (e.putNode m x.base x.leaf x.val) x.base (x.leaf ^^^ 1) = false →
                e.deposit m x = (e.putNode m x.base x.leaf x.val, false))
            ∧ (¬ taken → 1 < x.leaf → e.deposit m x = (e.formUp x.head x.base 25 (e.putNode m x.base x.leaf x.val) x.leaf, false)))
      ∧ (∀ (h : CofferHead) (b n : Nat) (m : Mach) (i : Nat), i ≤ 1 ∨ e.nodePresent m b (i ^^^ 1) = false → e.formUp h b n m i = m)
      -- a parent is the rounded sum of its children
      ∧ (∀ (h : CofferHead) (b n : Nat) (m : Mach) (i : Nat), 1 < i → e.nodePresent m b (i ^^^ 1) = true →
          let f := if h.fmt = 0 then Fmt.f32 else Fmt.f64
          let val := fun j => m.homeN (entryPa e.g m w.ctx (b + 16 * j)) (if h.fmt = 0 then 4 else 8)
          let r := f.add .near false (val (2 * (i / 2))) (val (2 * (i / 2) + 1))
          e.formUp h b (n + 1) m i = e.formUp h b n (e.status (e.putNode m b (i / 2) r.1) b fun st =>
            st ||| r.2.toNat * 2 ^ 32 ||| (if i / 2 = 1 then 2 ^ 31 else 0)) (i / 2))
      ∧ AtHome s e (.cfread q) 16 32 32 needR (base q.a) (fun m u p pa =>
          let fmt := m.homeN pa 1
          let st := m.homeN (pa + 8) 8
          let root := m.homeN (pa + 16) (if q.wide then 8 else 4)
          let x := if (if q.wide then fmt = 1 else fmt = 0) ∧ st.testBit 31 = true then root else 0
          (if q.acq then m.invalidateAll w.core w.ctx q.scope else m, (u.setS p q.d.toNat (w64 x)).setS p q.e.toNat (w64 st)))
      ∧ HomeCauses s e (.cfread q) 32 32 (base q.a) (· ∈ w.passes) fun p => (w.half p).exec

/-! ## Engine commands (spec/08_memory_isa.md R214 to R216, R230 to R237) -/

/-- R214: `cp` and `cpg` wait for a pending receipt in their register, raise the first cause of their checks by
stage and then by code, wait while their queue is full, and else are accepted, half 0 first, with a pending receipt. -/
def Parts.EngineCommands : Prop :=
  ∀ (s : State) (e : Env), s.env? = some e → ∀ (o : OpCp) (g : OpCpg),
    let w := e.w
    let halves := w.groups.filter fun p => (w.half p).exec ≠ 0
    let command := fun (i : Instr) (q eng : Nat) (queue : Option Bool) (mk : Mach → Bool → Cmd × Mach) =>
      let made := halves.foldl (fun (r : List Cmd × Mach) p => (r.1 ++ [(mk r.2 p).1], (mk r.2 p).2)) ([], s.m)
      let causes := made.1.flatMap (·.causes)
      let early := fun (c : Nat) => c = 0x60 ∨ c = 0x61 ∨ c = 0x71 ∨ c = 0x90
      let full := match queue with | some b => 32 < (made.2.queued w.core b).length + made.1.length | none => False
      let pending := fun (p : Bool) => p ∈ halves ∧ rPending (w.getQ p q) = true
      let r := made.1.foldl (fun (r : Mach × Wave) c => r.1.accept e.id r.2 c.half q eng c.kind (queue.getD false) c.fo) (made.2, w)
      ((∃ p, pending p) → (∀ p, s.m.parkParent e.id w p q = none) → ∃ p, pending p ∧ Waits s e i (.rcpt p q))
        ∧ ((∀ p, ¬ pending p) → causes ≠ [] → ∃ c hit, FaultsBefore s e i c hit ∧ c ∈ causes
            ∧ (∀ c' ∈ causes, early c' → early c) ∧ (∀ c' ∈ causes, (early c' ↔ early c) → c ≤ c')
            ∧ ∀ p, ((∃ x ∈ made.1, x.half = p ∧ c ∈ x.causes) → hit p = (w.half p).exec) ∧ ((∀ x ∈ made.1, x.half = p → c ∉ x.causes) → hit p = 0))
        ∧ ((∀ p, ¬ pending p) → causes = [] → full → Waits s e i .room)
        ∧ ((∀ p, ¬ pending p) → causes = [] → ¬ full → CompletesWith s e i r.1 { r.2 with pc := w.pc + 16 })
    let copy := fun (i : Instr) (ks kd : CpSpace) => command i o.q.toNat 1 (some o.q1) fun m p => e.copyCmd o ks kd m p
    copy (.cpMm o) .m .m ∧ copy (.cpMs o) .m .s ∧ copy (.cpSm o) .s .m ∧ copy (.cpMo o) .m .o ∧ copy (.cpOm o) .o .m
      ∧ copy (.cpSo o) .s .o ∧ copy (.cpOs o) .o .s
      ∧ command (.cpg g) g.q.toNat 2 (some g.q1) (fun m p => e.gatherCmd g m p)

/-- R214, R234, R235, R357: `coll` waits for a pending receipt, raises the first cause of its checks by stage and then
by code, those that registers alone show even before its descriptor is translated, and holds its wave on an absent
descriptor. Else each half is accepted for the collective engine; one whose descriptor may not be used ends at once. -/
def Parts.CollectiveCommands : Prop :=
  (∀ (s : State) (e : Env), s.env? = some e → ∀ (o : OpColl),
    let w := e.w
    let q := o.q.toNat
    let halves := w.groups.filter fun p => (w.half p).exec ≠ 0
    let reg := fun (p : Bool) (r : BitVec 7) => (w.getS p r.toNat).toNat
    let named := fun (p : Bool) => p ∈ halves ∧ e.x.memCauses (reg p o.c) 64 = []
    let at_ := fun (p : Bool) => (e.collAt s.m o p).1
    let lost := fun (p : Bool) => if named p then (match at_ p with | .ok .. => none | .absent _ => some 3 | .perm up => some (if up then 3 else 6)) else none
    let coll := fun (i : Instr) (fn : Nat) =>
      let pending := fun (p : Bool) => p ∈ halves ∧ rPending (w.getQ p q) = true
      let made := halves.foldl (fun (r : List Cmd × Mach) p => (r.1 ++ [(e.collCmd fn o r.2 p).1], (e.collCmd fn o r.2 p).2)) ([], s.m)
      let raises := fun (l : List Cmd) => l.flatMap (·.causes) ≠ [] → ∃ c hit, FaultsBefore s e i c hit ∧ c ∈ l.flatMap (·.causes)
        ∧ (∀ c' ∈ l.flatMap (·.causes), c' = 0x71 → c = 0x71) ∧ (∀ c' ∈ l.flatMap (·.causes), (c' = 0x71 ↔ c = 0x71) → c ≤ c')
        ∧ ∀ p, ((∃ x ∈ l, x.half = p ∧ c ∈ x.causes) → hit p = (w.half p).exec) ∧ ((∀ x ∈ l, x.half = p → c ∉ x.causes) → hit p = 0)
      let absent := fun (p : Bool) (lv : Nat) => named p ∧ at_ p = .absent lv
      let registers := halves.map fun p => (e.collCmd fn o s.m p).1
      ((∃ p, pending p) → (∀ p, s.m.parkParent e.id w p q = none) → ∃ p, pending p ∧ Waits s e i (.rcpt p q))
        ∧ ((∀ p, ¬ pending p) → (∃ p lv, absent p lv) → raises registers
            ∧ (registers.flatMap (·.causes) = [] → w.hold = .none → ∃ p lv m, absent p lv ∧ HoldsWith s e i m w .room
              ∧ m = s.m.absent w.ctx (reg p o.c) lv kindEngine))
        ∧ ((∀ p, ¬ pending p) → (∀ p lv, ¬ absent p lv) → raises made.1)
        ∧ ((∀ p, ¬ pending p) → (∀ p lv, ¬ absent p lv) → made.1.flatMap (·.causes) = [] →
            let r := made.1.foldl (fun (r : Mach × Wave) c => r.1.accept e.id r.2 c.half q 3 c.kind false c.fo) (made.2, w)
            let gone := fun (y : Nat × EngOp) => decide (y.2.wave = e.id ∧ s.m.nextId ≤ y.1) && (lost y.2.half).isSome
            CompletesIn s e i fun m v =>
              m = { r.1 with ops := r.1.ops.filter (fun y => !gone y), colls := m.colls }
                ∧ (∀ y ∈ m.ops, y.2.wave = e.id → s.m.nextId ≤ y.1 → ∀ fn t d a n desc sl, y.2.kind = .coll fn t d a n desc sl →
                    ∃ z ∈ m.colls, z.desc = desc ∧ w.ctx ∈ z.ctxs)
                ∧ (∀ y ∈ s.m.colls, ∃ z ∈ m.colls, z.desc = y.desc ∧ ∀ c ∈ y.ctxs, c ∈ z.ctxs)
                ∧ v.pc = w.pc + 16 ∧ KeepsV e v ∧ KeepsS e v ∧ KeepsK e v ∧ KeepsExec e v ∧ KeepsFlags e v
                ∧ ∀ p j, (∀ x, lost p = some x → j = q → rStat (v.getQ p j) = x ∧ rEng (v.getQ p j) = 3)
                  ∧ (lost p = none ∨ j ≠ q → v.getQ p j = r.2.getQ p j))
    coll (.collSum o) 0 ∧ coll (.collMin o) 1 ∧ coll (.collMax o) 2 ∧ coll (.collGather o) 3 ∧ coll (.collBcast o) 4)
    -- what one half asks for: its checks, and the destination of a gather at its own slot
    ∧ ∀ (e : Env) (fn : Nat) (o : OpColl) (m : Mach) (p : Bool),
        let reg := fun (r : BitVec 7) => (e.w.getS p r.toNat).toNat
        let desc := reg o.c
        let n := reg o.b
        let size := n * Ty.size o.ty
        let bad := fun (npart : Nat) => n = 0 ∨ 2 ^ 32 ≤ n ∨ 4096 ≤ reg o.e2 ∨ desc % 64 ≠ 0 ∨ npart = 0 ∨ 4096 < npart
        let dst := if fn = 3 then (reg o.d + reg o.e2 * size) % 2 ^ 64 else reg o.d
        let places := e.x.memCauses desc 64 ++ e.x.memCauses (reg o.a) size ++ e.x.memCauses dst size
        let r := (e.collCmd fn o m p).1
        let found := (e.collAt m o p).1
        ((∀ pa leaf lv, found ≠ .ok pa leaf lv) → (0x71 ∈ r.causes ↔ bad 1))
          ∧ (∀ pa leaf lv, found = .ok pa leaf lv → (0x71 ∈ r.causes ↔ bad (((e.collAt m o p).2.eat e.w.ctx pa 64).homeN pa 4))
              ∧ r.kind = .coll fn o.ty (reg o.d) (reg o.a) n pa (reg o.e2))
          ∧ ∀ c ≠ 0x71, (c ∈ r.causes ↔ n ≠ 0 ∧ c ∈ places)

/-- R127, R214, R230 to R232: what one half's `cp` asks for, read from its registers: NROW rows of LEN bytes between its
operands, and every cause that it meets. A bad shape or follow-on raises `ENG_ARG`, and so does a handle with an operand
that is not memory; every scratchpad, operand-memory and global byte of every row is checked beside that. -/
def Parts.CopyArguments : Prop :=
  (∀ (e : Env) (o : OpCp) (ks kd : CpSpace) (m : Mach) (p : Bool),
    let reg := fun (r : BitVec 7) => (e.w.getS p r.toNat).toNat
    let ln := reg o.b % 2 ^ 32
    let nrow := reg o.b / 2 ^ 32 % 2 ^ 16 + 1
    let shape := ln = 0 ∨ 2 ^ 36 < ln * nrow ∨ reg o.b / 2 ^ 48 ≠ 0 ∨ (nrow ≠ 1 ∧ o.e3 = none) ∨ (o.lay = true ∧ ks ≠ .s ∧ kd ≠ .s)
    let words := fun (f : BitVec 7) => (e.w.getS p f.toNat, e.w.getS p (f.toNat + 1))
    let follow := ∃ sp f, o.fo = some (sp, f) ∧ e.followOk o.q sp (words f).1 (words f).2 = false
    let ss : Int := match o.e3 with | some r => sext (reg r) 32 | none => 0
    let ds : Int := match o.e3 with | some r => sext (reg r / 2 ^ 32) 32 | none => 0
    let arg := fun (k : CpSpace) (x : Nat) => match k with | .m => CpArg.mem x | .s => CpArg.spad x | .o => CpArg.om x
    let src := (e.sideRows ks (reg o.a) ln nrow ss).2
    let dst := (e.sideRows kd (reg o.d) ln nrow ds).2
    let r := e.copyCmd o ks kd m p
    (ln = 0 → r.1.causes = [0x71] ∧ r.2 = m)
      ∧ (shape ∨ follow → 0x71 ∈ r.1.causes)
      ∧ (ln ≠ 0 → o.hs = false → o.hd = false → o.lay = false → r.2 = m ∧ r.1.half = p
          ∧ r.1.kind = .copy (arg ks (reg o.a)) (arg kd (reg o.d)) ln nrow ss ds ∧ r.1.fo = o.fo.map (fun x => words x.2)
          ∧ (¬ shape → ¬ follow → r.1.causes = src ++ dst)
          ∧ ∀ c, c ∈ r.1.causes ↔ (c = 0x71 ∧ (shape ∨ follow)) ∨ c ∈ src ∨ c ∈ dst)
      ∧ (ln ≠ 0 → o.lay = false → (o.hs = true ∧ ks ≠ .m → 0x71 ∈ r.1.causes ∧ ∀ c ∈ src, c ∈ r.1.causes)
          ∧ (o.hd = true ∧ kd ≠ .m → 0x71 ∈ r.1.causes ∧ ∀ c ∈ dst, c ∈ r.1.causes)
          ∧ (o.hd = false → ∀ c ∈ dst, c ∈ r.1.causes) ∧ (o.hs = false → ∀ c ∈ src, c ∈ r.1.causes)))
    -- the bytes of every row are checked
    ∧ (∀ (e : Env) (x ln nrow : Nat) (st : Int), 0 < nrow →
        let row := fun (r : Nat) => (x : Int) + st * r
        let spad := (e.sideRows .s x ln nrow st).2
        let om := (e.sideRows .o x ln nrow st).2
        let mem := (e.sideRows .m x ln nrow st).2
        let low : Int := 16384 * (x / 16384 : Nat)
        (∀ c, c ∈ spad ↔ c = 0x22 ∧ ((x : Int) < 0 ∨ row (nrow - 1) < 0 ∨ (e.l.spad : Int) < x + ln ∨ (e.l.spad : Int) < row (nrow - 1) + ln))
          ∧ (0x61 ∈ om ↔ ∃ r < nrow, row r < low ∨ (48 * 16384 : Int) < row r + ln)
          ∧ (0x60 ∈ om ↔ 48 * 16384 ≤ x ∨ ∃ r < nrow, low ≤ row r ∧ e.b.claimedRun e.l.oms (row r).toNat ln = false)
          ∧ (∀ c ∈ om, c = 0x60 ∨ c = 0x61)
          ∧ ∀ c, c ∈ mem ↔ ∃ r < nrow, c ∈ e.x.memCauses (row r % 2 ^ 64).toNat ln)
    -- a gather: its index list is read from the scratchpad now
    ∧ (∀ (e : Env) (o : OpCpg) (m : Mach) (p : Bool),
        let reg := fun (r : BitVec 7) => (e.w.getS p r.toNat).toNat
        let ln := reg o.b % 2 ^ 32
        let nrow := reg o.b / 2 ^ 32 % 2 ^ 16 + 1
        let list := reg o.c
        let listOk := list % 4 = 0 ∧ list + 4 * nrow ≤ e.l.spad
        let dst := e.sideRows (if o.o then .o else .s) (reg o.d) ln nrow ln
        let r := (e.gatherCmd o m p).1
        (ln = 0 ∨ 2 ^ 36 < ln * nrow ∨ reg o.b / 2 ^ 48 ≠ 0 ∨ o.hd = true → 0x71 ∈ r.causes)
          ∧ (ln ≠ 0 → (list % 4 ≠ 0 → 0x21 ∈ r.causes) ∧ (e.l.spad < list + 4 * nrow → 0x22 ∈ r.causes) ∧ (∀ c ∈ dst.2, c ∈ r.causes)
            ∧ (o.hs = false → listOk →
              let idx := (List.range nrow).map fun i => e.b.spadN (list + 4 * i) 4
              r.kind = .gather (.mem (reg o.a)) dst.1 ln nrow (sext (reg o.e3) 64) idx
                ∧ ∀ i ∈ idx, ∀ c ∈ e.x.memCauses (((reg o.a : Int) + sext (reg o.e3) 64 * i) % 2 ^ 64).toNat ln, c ∈ r.causes)))
    -- a run of operand memory is claimed where every slot that it touches is, and is below the quota
    ∧ (∀ (b : Block) (quota o n : Nat), 0 < n → o + n ≤ 48 * 16384 →
        (b.claimedRun quota o n = true ↔ ∀ k, o / 16384 ≤ k → k ≤ (o + n - 1) / 16384 → k < quota ∧ b.claimed.getLsbD k = true))
    -- global bytes
    ∧ ∀ (x : Ctx) (a n : Nat), ∀ c, c ∈ x.memCauses a n ↔
        c = 0x70 ∧ (meets a n x.spbase (2 ^ 32) = true ∨ meets a n x.stkbase (2 ^ 34) = true)
          ∨ c = 0x20 ∧ (x.inAperture a = false ∧ canonical a = false
            ∨ x.inAperture ((a + n - 1) % 2 ^ 64) = false ∧ canonical ((a + n - 1) % 2 ^ 64) = false)

/-- R131, R215, R216, R230, R240, R301, R350: one chunk of a copy or gather that may move: cancelled, stale, stopped by a
permission failure, waiting for a page, met by poison, moved on, or done. A copy that begins is a writer of its slots. -/
def Parts.EngineChunks : Prop :=
  (∀ (s : State) (id : Nat) (o : EngOp) (x : Ctx) (v : Move), lookup s.m.ops id = some o → s.m.ctx? o.ctx = some x → o.kind.move? = some v →
    let chunk := fun (f : Mach → Prop) => ∃ m, exec (.engineChunk id) s = .next { s with m := { m with changes := m.changes + 1 } } ∧ f m
    let good := s.m.stillGood x v.src = true ∧ s.m.stillGood x v.dst = true
    let ready := o.copied = false ∧ s.m.mayMove id o x = true
    let c := moveChunk s.mgmt ((s.m.begin o).askOp o) o v
    (¬ ready → exec (.engineChunk id) s = .next s)
      ∧ (ready → o.cancel = true → chunk (· = s.m.completeOp id v.eng 4 (some (BitVec.ofNat 24 o.chunk)) 0))
      ∧ (ready → o.cancel = false → ¬ good → chunk (· = s.m.completeOp id v.eng 2 (some (BitVec.ofNat 24 o.chunk)) 0))
      ∧ (ready → o.cancel = false → good →
          (∀ m st, c = .stop m st → chunk (· = m.completeOp id v.eng st (some (BitVec.ofNat 24 o.chunk)) 0))
            ∧ (∀ m p, c = .wait m p → chunk (· = m.updOp id fun o => { o with started := true, held := p }))
            ∧ (∀ m, c = .poison m → chunk (· = contextReset s.mgmt m o.ctx 0x52 0))
            ∧ (∀ m, c = .moved m → 4096 * (o.chunk + 1) < v.ln * v.nrow →
                chunk (· = m.updOp id fun o => { o with started := true, held := none, chunk := o.chunk + 1 }))
            ∧ (∀ m, c = .moved m → v.ln * v.nrow ≤ 4096 * (o.chunk + 1) → o.fo = none →
                chunk (· = m.completeOp id v.eng 1 none 0))
            ∧ ∀ m b y, c = .moved m → v.ln * v.nrow ≤ 4096 * (o.chunk + 1) → o.fo = some (b, y) →
                chunk fun m' => (∃ z ∈ m'.array, z.op = some id ∧ z.instr = decodeTotal b y ∧ z.wave = o.wave ∧ z.half = o.half ∧ z.block = o.block
                    ∧ z.accepted = false ∧ z.core = match m.block? o.block with | some b => b.core | none => o.core)
                  ∧ lookup m'.ops id = (lookup m.ops id).map fun o => { o with started := true, held := none, chunk := o.chunk + 1, copied := true }))
    -- a copy that begins; what stands for a handle still
    ∧ (∀ (m : Mach) (o : EngOp), (o.started = true → m.begin o = m)
        ∧ (o.started = false → m.begin o = { m with blocks := upd m.blocks o.block fun b => b.omWriter ((o.kind.omUse.filter (·.2)).map (·.1)) }))
    ∧ (∀ (m : Mach) (x : Ctx) (h a : Nat),
        (m.stillGood x (.hnd h a) = true ↔ (m.handleHome x (h % 2 ^ 20)).kind = 1 ∧ (m.handleHome x (h % 2 ^ 20)).gen = h / 2 ^ 20 % 2 ^ 12)
          ∧ m.stillGood x (.mem a) = true ∧ m.stillGood x (.spad a) = true ∧ m.stillGood x (.om a) = true)
    -- the bytes of a chunk of one row between a block's own memories
    ∧ (∀ (g : Mgmt) (m : Mach) (o : EngOp) (b : Block) (v : Move) (a d : Nat), m.block? o.block = some b → b.state ≠ .preempted → v.nrow = 1 → 0 < v.ln → v.ln ≤ 4096 →
        o.chunk = 0 → v.idx = [] → v.src = .spad a → v.dst = .om d →
        ∃ m', moveChunk g m o v = .moved m' ∧ m'.mem = m.mem ∧ ∃ b', m'.block? o.block = some b' ∧ b'.rdOm d v.ln = b.rdSpad a v.ln
          ∧ ∀ x n, x + n ≤ d ∨ d + v.ln ≤ x → b'.rdOm x n = b.rdOm x n)
    -- a write by an engine reaches home, and leaves the issuing core's L1
    ∧ ∀ (m : Mach) (core c pa : Nat) (l : List Byte), isMem pa = true →
        let m' := m.engineWrite core c [(pa, l.length)] l
        m'.rd pa l.length = l ∧ ∀ x ∈ m'.l1, x.core = core → x.ctx = c → meets (x.line * 128) 128 pa l.length = false

/-- R214 to R216, R230, R240: commands to the copy engine, their arguments, and the chunks that it moves. Where the
rules leave room, it follows the model's own readings, log entry 28. -/
def Obligations.EngineCommands : Prop := Parts.EngineCommands ∧ Parts.CopyArguments ∧ Parts.EngineChunks

/-- R88, R215, R236, R237, R346, R350, R357: a collective completes when NPART participants have come; a mismatch, a lost
link or a participant that is lost ends it for all of them, and a permission failure of a destination for that one; DONE is
incremented; a sum of integers is the sum over the slots, a minimum or maximum of integers the least or greatest value. -/
def Parts.Collectives : Prop :=
  (∀ (s : State) (desc : Nat), (s.m.collHeads desc).length < s.m.homeN desc 4 → exec (.collInstanceComplete desc) s = .next s)
    ∧ (∀ (s : State) (desc : Nat) (fn : Nat) (t : Ty) (n : Nat) (d a sl : Nat) (id : Nat) (o : EngOp) (r : List (Nat × EngOp)),
        (s.m.collHeads desc).take (s.m.homeN desc 4) = (id, o) :: r → r.length + 1 = s.m.homeN desc 4 → o.kind = .coll fn t d a n desc sl →
        (∀ y ∈ (id, o) :: r, ∃ x, s.m.ctx? y.2.ctx = some x ∧ s.m.running x = true ∧ y.2.held = none) →
        (∀ y ∈ r, ∃ fn t n d a sl, y.2.kind = .coll fn t d a n desc sl) →
        let slotOf := fun (y : Nat × EngOp) => match y.2.kind with | .coll _ _ _ _ _ _ sl => sl | _ => 0
        let slots := ((id, o) :: r).map slotOf
        let ends := fun (m : Mach) => exec (.collInstanceComplete desc) s = .next { s with m := { m with changes := m.changes + 1 } }
        let mismatch := (∃ y ∈ r, ∀ d' a' sl', y.2.kind ≠ .coll fn t d' a' n desc sl') ∨ ¬ slots.Nodup ∨ (fn = 4 ∧ s.m.homeN (desc + 4) 2 ∉ slots)
        (s.m.poisonedRun (desc, 64) = true → ends (contextReset s.mgmt s.m o.ctx 0x52 0))
          ∧ (s.m.poisonedRun (desc, 64) = false → mismatch → ends (collEnd s.m desc 5 []))
          ∧ (s.m.poisonedRun (desc, 64) = false → ¬ mismatch → ∀ m,
              (collSources s.mgmt s.m ((id, o) :: r) = .wait m → ends m)
                ∧ (∀ c, collSources s.mgmt s.m ((id, o) :: r) = .poison m c → ends (contextReset s.mgmt m c 0x52 0))
                ∧ ∀ bad, collSources s.mgmt s.m ((id, o) :: r) = .end_ m bad → ends (collEnd m desc 6 bad)))
    ∧ (∀ (s : State) (desc fn n : Nat) (t : Ty) (heads : List (Nat × EngOp)) (m : Mach) (l : List Contrib),
        heads = (s.m.collHeads desc).take (s.m.homeN desc 4) → heads.length = s.m.homeN desc 4 → heads ≠ [] →
        (∀ y ∈ heads, ∃ x d a sl, s.m.ctx? y.2.ctx = some x ∧ s.m.running x = true ∧ y.2.held = none ∧ y.2.kind = .coll fn t d a n desc sl) →
        (heads.map fun y => match y.2.kind with | .coll _ _ _ _ _ _ sl => sl | _ => 0).Nodup →
        (fn = 4 → ∃ y ∈ heads, ∃ d a, y.2.kind = .coll fn t d a n desc (s.m.homeN (desc + 4) 2)) →
        s.m.poisonedRun (desc, 64) = false → collSources s.mgmt s.m heads = .ready m l →
        let writes := collResult fn t n (s.m.homeN (desc + 4) 2) l
        let tries := l.foldl (fun (r : List (Contrib × Except (Nat × XRes) (List (List (Nat × Nat)))) × Mach) c =>
          (r.1 ++ [(c, (collDest s.mgmt r.2 c writes.1).1)], (collDest s.mgmt r.2 c writes.1).2)) ([], m)
        let absent := ∃ y ∈ tries.1, ∃ va lv, y.2 = .error (va, .absent lv)
        let down := ∃ y ∈ tries.1, ∃ va, y.2 = .error (va, .perm false)
        let m' := tries.1.foldl (fun (m : Mach) y => match y.2 with
          | .ok ws => ((ws.zip (writes.1.map (·.2))).foldl (fun (m : Mach) x => m.engineWrite y.1.o.core y.1.o.ctx x.1 x.2) m).completeOp y.1.id 3 1 none writes.2
          | .error _ => m.completeOp y.1.id 3 3 (some 0) 0) tries.2
        let ends := fun (m : Mach) => exec (.collInstanceComplete desc) s = .next { s with m := { m with changes := m.changes + 1 } }
        (absent → ∃ y ∈ tries.1, ∃ va lv, y.2 = .error (va, .absent lv) ∧
            ends ((tries.2.absent y.1.o.ctx va lv kindEngine).updOp y.1.id fun o => { o with held := some (pageOf (va % 2 ^ 57)) }))
          ∧ (¬ absent → down → ends (collEnd tries.2 desc 6 []))
          ∧ (¬ absent → ¬ down → ends (m'.homeWr (desc + 8) 8 (m'.homeN (desc + 8) 8 + 1))))
    -- the sources are read one after another
    ∧ (∀ (g : Mgmt) (m : Mach) (l : List (Nat × EngOp)) (id : Nat) (o : EngOp) (fn : Nat) (t : Ty) (d a n desc sl : Nat) (m1 : Mach) (cs : List Contrib),
        collSources g m [] = .ready m [] ∧
        (collSources g m l = .ready m1 cs → o.kind = .coll fn t d a n desc sl →
          let r := runs g o.ctx needR (runFuel (n * Ty.size t)) (m1.askOp o) a (n * Ty.size t)
          (∀ rs, r.1 = .ok rs → r.2.poisonedRuns rs = true → collSources g m (l ++ [(id, o)]) = .poison r.2 o.ctx)
            ∧ (∀ rs, r.1 = .ok rs → r.2.poisonedRuns rs = false →
                let read := r.2.engineRead o.core o.ctx rs
                collSources g m (l ++ [(id, o)]) = .ready read.2 (cs ++ [{ id, o, dst := d, slot := sl, data := read.1 }]))
            ∧ (∀ va, r.1 = .error (va, .perm true) → collSources g m (l ++ [(id, o)]) = .end_ r.2 [id])
            ∧ ∀ va, r.1 = .error (va, .perm false) → collSources g m (l ++ [(id, o)]) = .end_ r.2 []))
    ∧ (∀ (m : Mach) (desc stat : Nat) (bad : List Nat), isMem (desc + 8) = true → m.collHeads desc ≠ [] →
        let m' := (m.collHeads desc).foldl (fun (m : Mach) (o : Nat × EngOp) => m.completeOp o.1 3 (if o.1 ∈ bad then 3 else stat) (some 0) 0) m
        (collEnd m desc stat bad).rdN (desc + 8) 8 = (m'.rdN (desc + 8) 8 + 1) % 2 ^ 64)
    ∧ (∀ (t : Ty) (x : Nat → Option Nat), Ty.fmt? t = none →
        collSumAt t x = (((List.range 4096).map fun s => (x s).getD 0).sum % 2 ^ Ty.bits t, 0))
    ∧ (∀ (t : Ty) (x : Nat → Option Nat), Ty.fmt? t = none → (∃ s < 4096, x s ≠ none) → ∀ mx,
        let r := collMinMaxAt t mx x
        r.2 = 0 ∧ (∃ s < 4096, x s = some r.1)
          ∧ ∀ s < 4096, ∀ y, x s = some y → if mx then Ty.int t y ≤ Ty.int t r.1 else Ty.int t r.1 ≤ Ty.int t y)
    -- what is written: the flags of every node reach the receipts; a gather and a broadcast move bytes
    ∧ ∀ (t : Ty) (n root : Nat) (l : List Contrib),
        let at_ := fun (i s : Nat) => (l.find? fun c => c.slot == s).map fun c => natAt c.data (i * Ty.size t) (Ty.size t)
        let all := fun (f : Nat → Nat × Flags) (r : List (Nat × List Byte) × Flags) =>
          r.1 = [(0, (List.range n).flatMap fun i => natBytes (f i).1 (Ty.size t))] ∧ ∀ j, r.2.getLsbD j = true ↔ ∃ i < n, (f i).2.getLsbD j = true
        all (fun i => collSumAt t (at_ i)) (collResult 0 t n root l) ∧ all (fun i => collMinMaxAt t false (at_ i)) (collResult 1 t n root l)
          ∧ all (fun i => collMinMaxAt t true (at_ i)) (collResult 2 t n root l)
          ∧ collResult 3 t n root l = (l.map fun c => (c.slot * n * Ty.size t, c.data), 0)
          ∧ ∀ c, l.find? (fun c => c.slot == root) = some c → collResult 4 t n root l = ([(0, c.data)], 0)

/-- R88, R234 to R237, R346: commands to the collective engine, and the completion of an instance. Where the rules
leave room, it follows the model's own readings, log entry 29. -/
def Obligations.CollectiveOperations : Prop := Parts.CollectiveCommands ∧ Parts.Collectives

/-! ## Batches, receipts and detached operations (spec/08_memory_isa.md R238 to R244) -/

/-- R203, R238: `seal` numbers the wave's open commands with the next batch, and `waitb` waits for the sealed batches up
to its target, compared as signed differences. -/
def Parts.Batches : Prop :=
  ∀ (s : State) (e : Env), s.env? = some e → ∀ (d : Option (BitVec 7)) (a : SC) (imm : W32),
    let w := e.w
    let next := fun (p : Bool) => (w.half p).batch + 1
    let command := fun (k : EngKind) => match k with | .copy .. | .gather .. | .coll .. => True | _ => False
    let open_ := fun (p : Bool) (o : EngOp) => w.runs p ∧ o.wave = e.id ∧ o.half = p ∧ o.batch = none ∧ command o.kind
    let last := fun (p : Bool) => (w.half p).batch
    let asked := fun (p : Bool) => BitVec.ofNat 32 (e.sc p .n32 a) + imm
    let target := fun (p : Bool) => if 0 ≤ (last p - asked p).toInt then asked p else last p
    let owed := ∃ p, w.runs p ∧ ∃ o ∈ s.m.ops, o.2.wave = e.id ∧ o.2.half = p ∧ o.2.copied = false
      ∧ ∃ n, o.2.batch = some n ∧ 0 ≤ (target p - n).toInt
    (CompletesIn s e (.seal d) fun m v => m = { s.m with ops := m.ops } ∧ v.pc = w.pc + 8
        ∧ (∀ id, match lookup s.m.ops id with
          | none => lookup m.ops id = none
          | some o => (∀ p, open_ p o → lookup m.ops id = some { o with batch := some (next p) })
              ∧ ((∀ p, ¬ open_ p o) → lookup m.ops id = some o))
        ∧ (∀ p, (v.half p).batch = if w.runs p then next p else (w.half p).batch)
        ∧ KeepsV e v ∧ KeepsK e v ∧ KeepsExec e v ∧ KeepsFlags e v
        ∧ ∀ p j, v.getS p j = if w.runs p ∧ ∃ r, d = some r ∧ j = r.toNat then (next p).setWidth 64 else w.getS p j)
      ∧ (¬ owed → CompletesAs s e (.waitb a imm) { w with pc := w.pc + 8 })
      ∧ (owed → ∃ l, Waits s e (.waitb a imm) (.waitb l))

/-- R72, R205, R239 to R241, R333: `qwait` waits for the receipt and reads it, `qtest` reads a completed one, `qdue` gives
the time left, `qcan` asks for cancellation, and `sleep` waits for the completion or the promised time. -/
def Parts.Receipts : Prop :=
  ∀ (s : State) (e : Env), s.env? = some e → ∀ (od : Option (BitVec 7)) (d : BitVec 7) (q : BitVec 4),
    let w := e.w
    let n := q.toNat
    let r := fun (p : Bool) => w.getQ p n
    let pending := fun (p : Bool) => w.runs p ∧ rPending (r p) = true
    let word := fun (p : Bool) => if rEng (r p) = 0 then 0 else r p
    let now : BitVec 24 := (s.m.ccyc w.core).extractLsb' 0 24
    let late := fun (p : Bool) => pending p ∧ (now - rDue (r p)).toNat < 2 ^ 23
    let unparked := ∀ p, s.m.parkParent e.id w p n = none
    -- a receipt read leaves the receipt and delivers its flags once
    let reads := fun (v : Wave) (of_ : Bool → Prop) => v.pc = w.pc + 8 ∧ KeepsV e v ∧ KeepsK e v ∧ KeepsExec e v ∧ (∀ p j, v.getQ p j = w.getQ p j)
      ∧ (∀ p, (of_ p → (v.half p).fpflag = (w.half p).fpflag ||| (mget 0 (w.half p).qflags n).setWidth 64 ∧ mget 0 (v.half p).qflags n = 0)
          ∧ (¬ of_ p → (v.half p).fpflag = (w.half p).fpflag ∧ (v.half p).qflags = (w.half p).qflags))
    let gives := fun (v : Wave) (x : BitVec 7) (f : Bool → W64) => ∀ p j, v.getS p j = if w.runs p ∧ j = x.toNat then f p else w.getS p j
    ((∃ p, pending p) → unparked → ∃ p, pending p ∧ Waits s e (.qwait od q) (.rcpt p n))
      ∧ ((∀ p, ¬ pending p) → Completes s e (.qwait od q) fun v => reads v w.runs ∧ match od with
          | some x => gives v x word
          | none => KeepsS e v)
      ∧ Completes s e (.qtest d q) (fun v => reads v (fun p => w.runs p ∧ rStat (r p) ≠ 0) ∧ gives v d word)
      ∧ Completes s e (.qdue d q) (fun v => reads v (fun _ => False) ∧
          gives v d fun p => if rPending (r p) = true then (rDue (r p) - now).signExtend 64 else 0)
      ∧ (let m := w.passes.foldl (fun (m : Mach) p => m.cancelOp e.id p n) s.m
        CompletesWith s e (.qcan q) m { ((m.wave? e.id).getD w) with pc := w.pc + 8 })
      ∧ ((∀ p, ¬ pending p) → Completes s e (.sleep q) fun v => reads v w.runs ∧ KeepsS e v)
      ∧ ((∃ p, pending p ∧ ¬ late p) → w.hold = .none → unparked → ∃ p, pending p ∧ Waits s e (.sleep q) (.sleep p n))
      -- a missed promise: the halves that are complete have read their receipts
      ∧ ((∃ p, pending p) → (∀ p, pending p → late p) → w.hold = .none → s.m.emuentry e.x ≠ 0 → ∃ u l0 l1,
          Traps s e (.sleep q) s.m u { code := 0x30, rpc := w.pc + 8, addr := w.pc, addr1 := w.pc, lanes0 := l0, lanes1 := l1 }
          ∧ (∀ p, (late p → (if p then l1 else l0) = (w.half p).exec) ∧ (¬ late p → (if p then l1 else l0) = 0))
          ∧ reads { u with pc := w.pc + 8 } (fun p => w.runs p ∧ ¬ pending p) ∧ KeepsS e u)
      ∧ ((∃ p, pending p) → (∀ p, pending p → late p) → w.hold = .none → s.m.emuentry e.x = 0 → unparked →
          ∃ p, pending p ∧ Waits s e (.sleep q) (.rcpt p n))

/-- R240: what `qcan` does to an operation; R333: a promise that a sleeping wave's receipt misses. -/
def Parts.Cancellation : Prop :=
  (∀ (m : Mach) (id : Nat) (p : Bool) (q : Nat),
    ((∀ o ∈ m.ops, o.2.target ≠ .reg id p q) → m.cancelOp id p q = m)
      ∧ ∀ n o v, m.ops.find? (fun o => o.2.target == .reg id p q) = some (n, o) →
        (o.kind.move? = none → m.cancelOp id p q = m)
          ∧ (o.kind.move? = some v → o.copied = false → o.started = true → m.cancelOp id p q = m.updOp n fun o => { o with cancel := true })
          ∧ (o.kind.move? = some v → o.copied = false → o.started = false → m.cancelOp id p q = m.completeOp n v.eng 4 (some 0) 0)
          ∧ (o.kind.move? = some v → o.copied = true → ∀ c, m.array.find? (fun c => c.op == some n && !c.accepted && !c.begun) = some c →
              let prog := (mparts c.instr).2.1
              let m1 := m.putScalar c.wave c.half prog (progress false (startStep c.instr (m.scalarOf c.wave c.half prog)))
              m.cancelOp id p q = Mach.completeOp { m1 with array := m1.array.filter fun y => !y.same c } n 4 5 none c.flags)
          ∧ (o.kind.move? = some v → o.copied = true → (∀ c ∈ m.array, c.op = some n → c.accepted = true ∨ c.begun = true) → m.cancelOp id p q = m))
    ∧ ∀ (s : State) (id : Nat) (w : Wave) (x : Ctx) (p : Bool) (q t : Nat), s.m.wave? id = some w → s.m.ctx? w.ctx = some x → w.hold = .wait t (.sleep p q) →
        let pending := fun (p : Bool) => w.runs p ∧ rPending (w.getQ p q) = true
        let live := s.m.resident w = true ∧ s.m.running x = true ∧ ∀ p, pending p → s.m.overdue w p q = true
        (¬ live → exec (.promiseMiss id) s = .next s)
          ∧ (live → (∃ p, pending p) →
            (s.m.emuentry x = 0 → ∃ p, pending p ∧ exec (.promiseMiss id) s = .next { s with m := { s.m with
                waves := put s.m.waves id { w with hold := .wait s.m.changes (.rcpt p q) }, changes := s.m.changes + 1 } })
              ∧ (s.m.emuentry x ≠ 0 → ∃ (r : Req) (u : Wave), r.code = 0x30 ∧ r.rpc = w.pc + 8 ∧ r.addr = w.pc
                  ∧ (∀ p, (if p then r.lanes1 else r.lanes0) = if w.runs p ∧ rPending (w.getQ p q) = true then (w.half p).exec else 0)
                  ∧ u.pc = w.pc ∧ u.stack = w.stack ∧ (∀ p j l, u.getV p j l = w.getV p j l) ∧ (∀ p j, u.getS p j = w.getS p j ∧ u.getQ p j = w.getQ p j)
                  ∧ (∀ p, (u.half p).fpflag = if w.runs p ∧ ¬ pending p then (w.half p).fpflag ||| (mget 0 (w.half p).qflags q).setWidth 64 else (w.half p).fpflag)
                  ∧ (let m := takeTrap s.mgmt s.m id u x r
                    exec (.promiseMiss id) s = .next { s with m := { m with changes := m.changes + 1 } })))

/-- R242 to R244: `qmov.st` stores the receipt in the scratchpad, empties the register and detaches the operation;
`qmov.ld` takes a detached operation back by its engine and number, and an unknown token reads as such; `rmsync` drops
the map words of the context. -/
def Parts.DetachedOperations : Prop :=
  ∀ (s : State) (e : Env), s.env? = some e → ∀ (a : BitVec 7) (q : BitVec 4),
    let w := e.w
    let n := q.toNat
    let off := fun (p : Bool) => (w.getS p a.toNat).toNat
    let v := fun (p : Bool) => w.getQ p n
    let names := fun (p : Bool) => rEng (v p) ≠ 0 ∧ rStat (v p) ≠ 15
    let fine := fun (p : Bool) => off p % 8 = 0 ∧ off p + 8 ≤ e.l.spad
    let raises := fun (i : Instr) => (∃ p, w.runs p ∧ ¬ fine p) → ∃ c hit, FaultsBefore s e i c hit ∧
      (c = 0x21 ∧ (∃ p, w.runs p ∧ off p % 8 ≠ 0) ∨ c = 0x22 ∧ ∀ p, w.runs p → off p % 8 = 0)
    (∀ p, w.passes = [p] → fine p →
        (e.b.detached.length + (if names p then 1 else 0) ≤ 64 → CompletesIn s e (.qmovSt a q) fun m u =>
          u.getQ p n = 0 ∧ mget 0 (u.half p).qflags n = 0 ∧ u.pc = w.pc + 8 ∧ KeepsV e u ∧ KeepsS e u ∧ KeepsK e u ∧ KeepsExec e u ∧ KeepsFlags e u
            ∧ m.mem = s.m.mem ∧ m.waves = s.m.waves ∧ m.ctxs = s.m.ctxs
            ∧ (∀ b', m.block? w.block = some b' → b'.spadN (off p) 8 = (v p).toNat
              ∧ (∀ x k, x + k ≤ off p ∨ off p + 8 ≤ x → b'.rdSpad x k = e.b.rdSpad x k)
              ∧ b'.detached = e.b.detached ++ (if names p then [{ tok := v p, rcpt := v p, flags := mget 0 (w.half p).qflags n }] else []))
            ∧ ∀ id o, lookup s.m.ops id = some o → lookup m.ops id = some (if o.target = .reg e.id p n then { o with target := .detached w.block } else o))
          ∧ (names p → e.b.detached.length = 64 → ∃ hit, FaultsBefore s e (.qmovSt a q) 0x71 hit))
      ∧ (∀ p, w.passes = [p] → fine p → rPending (v p) = true → s.m.parkParent e.id w p n = none → Waits s e (.qmovLd q a) (.rcpt p n))
      ∧ (∀ p, w.passes = [p] → fine p → rPending (v p) = false →
          let tok := w64 (e.b.spadN (off p) 8)
          let same := fun (d : Detached) => rSeq d.tok = rSeq tok ∧ rEng d.tok = rEng tok
          CompletesIn s e (.qmovLd q a) fun m u => u.pc = w.pc + 8 ∧ KeepsV e u ∧ KeepsS e u ∧ KeepsK e u ∧ KeepsExec e u ∧ m.mem = s.m.mem
            ∧ ((∀ d ∈ e.b.detached, ¬ same d) → m = s.m ∧ u.getQ p n = if rEng tok = 0 then 0 else mkRcpt (rDue tok) 15 (rEng tok) (rSeq tok))
            ∧ ∀ d, (e.b.detached.find? fun d => same d) = some d → u.getQ p n = d.rcpt ∧ mget 0 (u.half p).qflags n = d.flags
              ∧ ∀ b', m.block? w.block = some b' → ∀ y ∈ b'.detached, ¬ same y)
      ∧ raises (.qmovLd q a) ∧ ((w.passes.filter fun p => names p).length + e.b.detached.length ≤ 64 → raises (.qmovSt a q))
      ∧ CompletesWith s e .rmsync { s.m with maps := s.m.maps.filter fun x => x.ctx != w.ctx } { w with pc := w.pc + 8 }

/-- R72, R203, R205, R238 to R243, R333: batches, receipts, cancellation and detached operations. Where the rules
leave room, it follows the model's own readings, log entry 30. -/
def Obligations.ReceiptsAndBatches : Prop := Parts.Batches ∧ Parts.Receipts ∧ Parts.Cancellation ∧ Parts.DetachedOperations

/-! ## Operand memory and the matrix array (spec/05_matrix.md R125 to R152) -/

/-- R126, R127, R146: `omclaim`, `omrel` and `omzero`, each half for itself. -/
def Parts.OperandMemorySlots : Prop :=
  (∀ (s : State) (e : Env), s.env? = some e → ∀ (d : BitVec 7) (a n : BitVec 6),
    let w := e.w
    let halves := w.groups.filter fun p => (w.half p).exec ≠ 0
    let slots := (List.range n.toNat).map (· + a.toNat)
    let busy := e.m.omWaits w.block e.m.nextId (slots.map (·, true)) = true
    let missing := ∃ i ∈ slots, e.l.oms ≤ i ∨ e.b.claimed.getLsbD i = false
    let put := fun (b : Block) => { s.m with blocks := upd s.m.blocks w.block fun _ => b }
    let go := { w with pc := w.pc + 8 }
    let claims := halves.foldl (fun (r : Block × Wave) p =>
      ((r.1.claim e.l.oms a.toNat n.toNat).2, r.2.setS p d.toNat (w64 (r.1.claim e.l.oms a.toNat n.toNat).1))) (e.b, w)
    (halves = [] → CompletesAs s e (.omrel a n) go ∧ CompletesAs s e (.omzero a n) go)
      ∧ (halves ≠ [] → busy → Waits s e (.omclaim d a n) .room ∧ Waits s e (.omrel a n) .room ∧ (¬ missing → Waits s e (.omzero a n) .room))
      ∧ ((halves = [] ∨ ¬ busy) → CompletesWith s e (.omclaim d a n) (put claims.1) { claims.2 with pc := w.pc + 8 })
      ∧ (halves ≠ [] → ¬ busy → ∃ b', CompletesWith s e (.omrel a n) (put b') go
          ∧ (∀ i < 48, b'.claimed.getLsbD i = (e.b.claimed.getLsbD i && decide (i ∉ slots)))
          ∧ (∀ x k, (∀ y, x ≤ y → y < x + k → y / 16384 ∉ slots) → b'.rdOm x k = e.b.rdOm x k) ∧ b'.spad = e.b.spad ∧ b'.bars = e.b.bars
          ∧ b'.wsrc = slots.foldl wsWritten e.b.wsrc)
      ∧ (halves ≠ [] → ¬ missing → ¬ busy → ∃ b', CompletesWith s e (.omzero a n) (put b') go ∧ b'.claimed = e.b.claimed
          ∧ (∀ x, x / 16384 ∈ slots → b'.rdOm x 1 = [0]) ∧ b'.wsrc = slots.foldl wsWritten e.b.wsrc
          ∧ (∀ x k, (∀ y, x ≤ y → y < x + k → y / 16384 ∉ slots) → b'.rdOm x k = e.b.rdOm x k))
      ∧ (halves ≠ [] → missing → FaultsBefore s e (.omzero a n) 0x60 fun p => (w.half p).exec))
    -- one half's claim
    ∧ ∀ (b : Block) (quota a n : Nat), a + n ≤ 48 →
        let r := b.claim quota a n
        let taken := ∃ i, a ≤ i ∧ i < a + n ∧ b.claimed.getLsbD i = true
        r.2.wsrc = ((List.range n).map (· + a)).foldl wsWritten b.wsrc ∧ (quota < a + n → r.1 = 2 ∧ r.2.claimed = b.claimed ∧ r.2.om = b.om)
          ∧ (a + n ≤ quota → taken → r.1 = 1 ∧ r.2.claimed = b.claimed ∧ r.2.om = b.om)
          ∧ (a + n ≤ quota → ¬ taken → r.1 = 0 ∧ (∀ i < 48, r.2.claimed.getLsbD i = (b.claimed.getLsbD i || decide (a ≤ i ∧ i < a + n)))
              ∧ (∀ x, a ≤ x / 16384 → x / 16384 < a + n → r.2.rdOm x 1 = [0])
              ∧ ∀ x, (x / 16384 < a ∨ a + n ≤ x / 16384) → r.2.rdOm x 1 = b.rdOm x 1)

/-- R127, R147: `omld` and `omst` move one element for each active lane between a register and a run of claimed slots;
the last lane's store stays. -/
def Parts.OperandMemoryAccess : Prop :=
  ∀ (s : State) (e : Env), s.env? = some e → ∀ o : OpOm,
    let w := e.w
    let lanes := w.work o.k.toNat false
    let size := Ty.size o.ty
    let off := fun (p : Bool) (l : Nat) => w.vec p l .n32 o.b.toNat + o.off.toNat
    let at_ := fun (p : Bool) (l : Nat) => 16384 * o.a.toNat + off p l
    let unclaimed := fun (p : Bool) (l : Nat) => (p, l) ∈ lanes ∧ ∃ k < 48, at_ p l / 16384 ≤ k ∧ 16384 * k < at_ p l + size
      ∧ (e.l.oms ≤ k ∨ e.b.claimed.getLsbD k = false)
    let range := fun (p : Bool) (l : Nat) => (p, l) ∈ lanes ∧ (48 * 16384 < at_ p l + size ∨ off p l % size ≠ 0)
    let busy := fun (write : Bool) => e.m.omWaits w.block e.m.nextId (lanesUse (lanes.map fun x => (x.1, x.2, at_ x.1 x.2)) size write) = true
    let fine := ∀ p l, ¬ unclaimed p l ∧ ¬ range p l
    let raises := fun (i : Instr) =>
      ((∃ p l, unclaimed p l) → ∃ hit, FaultsBefore s e i 0x60 hit ∧ ∀ p, ∀ l < 64, bit (hit p) l = true ↔ unclaimed p l)
        ∧ ((∀ p l, ¬ unclaimed p l) → (∃ p l, range p l) → ∃ hit, FaultsBefore s e i 0x61 hit ∧ ∀ p, ∀ l < 64, bit (hit p) l = true ↔ range p l)
    raises (.omld o) ∧ raises (.omst o)
      ∧ (fine → busy false → Waits s e (.omld o) .room) ∧ (fine → busy true → Waits s e (.omst o) .room)
      ∧ (fine → ¬ busy false → Completes s e (.omld o) (LaneResult e o.k o.ty (.vec o.d) 16 fun p l => e.b.omN (at_ p l) size))
      ∧ (fine → ¬ busy true → ∃ b', CompletesWith s e (.omst o) { s.m with blocks := upd s.m.blocks w.block fun _ => b' } { w with pc := w.pc + 16 }
          ∧ b'.om = (lanes.foldl (fun (b : Block) x => b.wrOm (at_ x.1 x.2) (natBytes (e.src x.1 x.2 o.ty (.vec o.d)) size)) e.b).om
          ∧ b'.claimed = e.b.claimed ∧ b'.spad = e.b.spad ∧ b'.bars = e.b.bars
          ∧ (∃ slots : List Nat, (∀ k, k ∈ slots ↔ ∃ x ∈ lanes, at_ x.1 x.2 / 16384 ≤ k ∧ 16384 * k < at_ x.1 x.2 + size) ∧ b'.wsrc = slots.foldl wsWritten e.b.wsrc))

/-- R126, R127, R146, R147: slots of operand memory, and accesses to them. Where the rules leave room, it follows the
model's own readings, log entry 31. -/
def Obligations.OperandMemory : Prop := Parts.OperandMemorySlots ∧ Parts.OperandMemoryAccess

/-- R131, R148, R151, R152: what `vqtab`, a load and a writer of a slot leave in `WSRC`. -/
def Parts.LatchedWeightSource : Prop :=
  (∀ (s : State) (e : Env), s.env? = some e → ∀ (a : BitVec 6) (off : BitVec 5),
    let w := e.w
    let busy := (∃ p ∈ w.groups, (w.half p).exec ≠ 0)
    let claimed := a.toNat < e.l.oms ∧ e.b.claimed.getLsbD a.toNat = true
    let waits := e.m.omWaits w.block e.m.nextId [(a.toNat, false)] = true
    let filled := fun (x : Option (Nat × Nat)) =>
      ((({ s.m with blocks := upd s.m.blocks w.block fun b => { b with wsrc := wsTable b.wsrc x } } : Mach).fillTable w.core w.block).count w.ctx 9 16)
    let go := { w with pc := w.pc + 16 }
    (¬ busy → CompletesAs s e (.vqtab a off) go ∧ CompletesAs s e .vqtabClr go)
      ∧ (busy → ¬ claimed → FaultsBefore s e (.vqtab a off) 0x60 fun p => (w.half p).exec)
      ∧ (busy → claimed → waits → Waits s e (.vqtab a off) .room)
      ∧ (busy → claimed → ¬ waits → CompletesWith s e (.vqtab a off) (filled (some (a.toNat, off.toNat))) go)
      ∧ (busy → CompletesWith s e .vqtabClr (filled none) go))
    ∧ (∀ (x : W64) (a off : Nat), a < 64 → off < 32 →
        let t := wsTable x (some (a, off))
        let c := wsTable x none
        wsTV t = true ∧ wsTsl t = a ∧ wsToff t = off ∧ wsV t = (wsV x && wsFmt x != 9) ∧ wsFmt t = wsFmt x ∧ wsWsl t = wsWsl x ∧ wsSV t = wsSV x
          ∧ wsTV c = false ∧ wsV c = (wsV x && wsFmt x != 9) ∧ wsFmt c = wsFmt x)
    ∧ ∀ (x : W64) (slot : Nat),
        let y := wsWritten x slot
        let table := wsTV x = true ∧ wsTsl x = slot
        let lost := wsWsl x = slot ∨ (wsSV x = true ∧ wsSsl x = slot) ∨ (table ∧ wsFmt x = 9)
        wsV y = (wsV x && !decide lost) ∧ wsTV y = (wsTV x && !decide table) ∧ wsFmt y = wsFmt x ∧ wsWsl y = wsWsl x

/-- R135: a matrix command waits for its receipt register and for the wave's addresses, is sent to the array once for
each half with lanes, and its wave is held on it. -/
def Parts.MatrixCommands : Prop :=
  ∀ (s : State) (e : Env), s.env? = some e → ∀ (a : OpWload) (b : OpWmint) (c : OpMmul) (d : OpMseek),
    let w := e.w
    let halves := (w.groups.filter fun p => (w.half p).exec ≠ 0).filter fun p => p || !w.inBar
    let command := fun (i : Instr) (q : BitVec 4) =>
      let pending := fun (p : Bool) => p ∈ halves ∧ rPending (w.getQ p q.toNat) = true
      -- the command has stopped and is issued again: the flags of its completed steps go with it
      let again := fun (p : Bool) => bit (w.getS p (mparts i).2.1) 63 = true
      ((∃ p, pending p) → (∀ p, s.m.parkParent e.id w p q.toNat = none) → ∃ p, pending p ∧ Waits s e i (.rcpt p q.toNat))
        ∧ (halves = [] → CompletesAs s e i { w with pc := w.pc + 16, inBar := false })
        ∧ ((∀ p, ¬ pending p) → halves ≠ [] → (∃ a ∈ w.acc, a.known = false) → Waits s e i .room)
        ∧ ((∀ p, ¬ pending p) → halves ≠ [] → (∀ a ∈ w.acc, a.known = true) → ∃ v, HoldsWith s e i
            { s.m with
              array := s.m.array ++ halves.map fun p =>
                { core := w.core, wave := e.id, half := p, block := w.block, instr := i, flags := if again p then (w.half p).mflags else 0 }
              changes := s.m.changes + 1 } v .unit
            ∧ v = { w with lo := v.lo, hi := v.hi, inFlight := false }
            ∧ ∀ p, v.half p = if p ∈ halves ∧ again p then { w.half p with mflags := 0 } else w.half p)
    command (.wload a) a.q ∧ command (.wmint b) b.q ∧ command (.mmul c) c.q ∧ command (.mseek d) d.q

/-- R131, R135, R148, R151, R152: commands to the matrix array, and the source of its weights. Where the rules leave
room, it follows the model's own readings, log entries 31 and 51. -/
def Obligations.MatrixCommands : Prop := Parts.LatchedWeightSource ∧ Parts.MatrixCommands

/-- R127, R135 to R138, R149: the array accepts its next command, or makes a step of the accepted one; the checks of
`mmul` in their order; a row's results; and what the end of a command leaves. -/
def Parts.MatrixSteps : Prop :=
  (∀ (s : State) (core : Nat) (c : MCmd) (b : Block) (l : Launch), s.m.block? c.block = some b → s.m.launch? b.launch = some l →
    (s.m.arrayNext core = none → exec (.matrixStep core) s = .next s)
      ∧ (s.m.arrayNext core = some c → c.accepted = false →
          let m := acceptCmd s.mgmt s.m c b l
          exec (.matrixStep core) s = .next { s with m := { m with changes := m.changes + 1 } }
            ∧ ∀ id, c.op = some id → c.core = core → (s.m.array.find? fun y => y.op == some id) = some c →
              exec (.followOnAccept id) s = .next { s with m := { m with changes := m.changes + 1 } })
      ∧ (s.m.arrayNext core = some c → c.accepted = true →
          let m := stepCmd s.m c b
          exec (.matrixStep core) s = .next { s with m := { m with changes := m.changes + 1 } }))
    ∧ (∀ (g : Mgmt) (m : Mach) (c : MCmd) (b : Block) (l : Launch),
        let start := startStep c.instr (m.scalarOf c.wave c.half (mparts c.instr).2.1)
        (∀ code, b.judge l.oms c.instr = .fault code → acceptCmd g m c b l = if c.op.isSome then m.endCmd c b.ctx 6 start else cmdFault g m c code)
          ∧ (∀ stat, b.judge l.oms c.instr = .ends stat → acceptCmd g m c b l = m.endCmd c b.ctx stat start))
    ∧ (∀ (b : Block) (quota : Nat) (o : OpMmul),
        let claimed := fun (i : Nat) => i < quota ∧ b.claimed.getLsbD i = true
        let rows := o.m.toNat + 1
        let named := claimed o.a.toNat ∧ claimed o.d.toNat ∧ ∀ y, o.scale = some y → claimed y.slot.toNat
        let runs := b.runCause quota o.a.toNat 0 (rows * rowBytes o.fmt (wsDep b.wsrc)) = none ∧ b.runCause quota o.d.toNat 0 (256 * rows) = none
          ∧ ∀ y, o.scale = some y → 512 * y.soff.toNat + rows * (wsDep b.wsrc / 32) ≤ 16384
        let ints := (wsFmt b.wsrc = 0xA ∨ wsFmt b.wsrc = 0xB) ∧ (o.fmt = .i8 ∨ o.fmt = .n8)
        (¬ named → b.judge quota (.mmul o) = .fault 0x60)
          ∧ (named → wsV b.wsrc = false → b.judge quota (.mmul o) = .ends 2)
          ∧ (named → wsV b.wsrc = true → ¬ runs → ∃ c, b.judge quota (.mmul o) = .fault c ∧ (c = 0x60 ∨ c = 0x61))
          ∧ (named → wsV b.wsrc = true → runs → ints → o.scale ≠ none → b.judge quota (.mmul o) = .ends 3)
          ∧ (named → wsV b.wsrc = true → runs → (¬ ints ∨ o.scale = none) → b.judge quota (.mmul o) = .runs))
    ∧ (∀ (m : Mach) (c : MCmd) (b : Block) (o : OpMmul), m.block? c.block = some b → c.instr = .mmul o → c.count < o.m.toNat →
        let r := mmulRow o c.ws c.om b.om c.count
        let at_ := 16384 * o.d.toNat + 256 * c.count
        r.1.length = 64 ∧ ∃ b', (stepCmd m c b).block? c.block = some b' ∧ b'.rdOm at_ 256 = r.1.flatMap (fun x => natBytes x 4)
          ∧ (∀ x k, x + k ≤ at_ ∨ at_ + 256 ≤ x → b'.rdOm x k = b.rdOm x k) ∧ b'.wsrc = b.wsrc ∧ b'.claimed = b.claimed)
    ∧ ∀ (m : Mach) (c : MCmd) (w : Wave) (x : Ctx) (stat count : Nat), m.wave? c.wave = some w → m.ctx? w.ctx = some x → m.resident w = true → w.missing = [] →
        c.op = none → stat < 16 → (∀ y ∈ m.array, y.same c = false → y.wave = c.wave → y.op ≠ none) →
        let parts := mparts c.instr
        ∃ v, (m.endCmd c w.ctx stat count).wave? c.wave = some v ∧ v.pc = w.pc + 16 ∧ v.getS c.half parts.2.1 = progress false count
          ∧ rEng (v.getQ c.half parts.1) = 4 ∧ rStat (v.getQ c.half parts.1) = stat ∧ (∀ y ∈ (m.endCmd c w.ctx stat count).array, y.same c = false)

/-- R77, R86, R124, R129, R131, R133, R134, R143, R144, R148, R150: what the array computes. A row of `mmul` is, for each
column, the accumulator and the K-groups added in ascending order, each group rounded once from its exact sum; integers
are summed modulo 2^32. A load latches its tile and writes `WSRC`; a seed search keeps the best record. -/
def Parts.MatrixResults : Prop :=
  (∀ (o : OpMmul) (ws : W64) (latch om : List Host.Cell) (row n : Nat), n < 64 →
    let depth := wsDep ws
    let ints := (wsFmt ws = 0xA ∨ wsFmt ws = 0xB) ∧ (o.fmt = .i8 ∨ o.fmt = .n8)
    let act := fun (k : Nat) => packedElt o.fmt.code.toNat om (16384 * o.a.toNat + row * rowBytes o.fmt depth) k
    let tile := fun (k : Nat) => latched ws latch k n
    let byte := fun (l : List Host.Cell) (a : Nat) => scaleExp (mget memDefault l a).toNat
    let scale := fun (k : Nat) => (match o.scale with | some y => byte om (16384 * y.slot.toNat + 512 * y.soff.toNat + row * (depth / 32) + k / 32) | none => 0)
      + if wsSV ws = true then byte latch (16384 * wsSsl ws + 512 * wsSoff ws + k / 32 * 64 + n) else 0
    let old := if o.z = true then 0 else bytesNat (mgetN memDefault om (16384 * o.d.toNat + 4 * (row * 64 + n)) 4)
    (mmulRow o ws latch om row).1[n]? = some (if ints then ((old : Int) + ((List.range depth).map fun k => (act k).int * (tile k).int).sum) % 2 ^ 32 |>.toNat
      else (accumulate depth (groupOf (wsFmt ws)) act tile scale old).1))
    ∧ (∀ (depth g : Nat) (a w : Nat → MElt) (se : Nat → Int) (c : Nat), 0 < g →
      -- the exact products of a group, and their sum
      let group := fun (i : Nat) => ((List.range g).filter fun j => decide (g * i + j < depth)).foldl (fun (s : GSum) j =>
        s.addProduct (a (g * i + j)) (w (g * i + j)) (se (g * i + j))) ({} : GSum)
      accumulate depth g a w se c = (List.range ((depth + g - 1) / g)).foldl (fun (r : Nat × Flags) i =>
        ((Fmt.f32.add .near false r.1 (group i).round.1).1, r.2 ||| (group i).round.2 ||| (Fmt.f32.add .near false r.1 (group i).round.1).2)) (c, 0))
    ∧ (∀ l : List (MElt × MElt × Int),
      let r := (l.foldl (fun (s : GSum) x => s.addProduct x.1 x.2.1 x.2.2) ({} : GSum)).round
      let isNan := fun (x : MElt × MElt × Int) => x.1.val = .nan ∨ x.2.1.val = .nan
      let zero := fun (y : MElt) => ∃ n e, y.val = .fin n 0 e
      let inf := fun (y : MElt) => ∃ n, y.val = .inf n
      let neg := fun (y : MElt) => match y.val with | .fin n _ _ => n | .inf n => n | .nan => false
      let bad := fun (x : MElt × MElt × Int) => inf x.1 ∧ zero x.2.1 ∨ zero x.1 ∧ inf x.2.1
      let infinite := fun (n : Bool) => ∃ x ∈ l, (inf x.1 ∨ inf x.2.1) ∧ (neg x.1 != neg x.2.1) = n
      -- the first NaN product, quieted
      (∀ before x after, l = before ++ x :: after → (∀ y ∈ before, ¬ isNan y) → isNan x → r.1 = if x.1.val = .nan then x.1.nan else x.2.1.nan)
        ∧ ((∀ x ∈ l, ¬ isNan x) →
          ((∃ x ∈ l, bad x) ∨ (infinite true ∧ infinite false) → r.1 = Fmt.f32.nan ∧ r.2.getLsbD 0 = true)
            ∧ ((∀ x ∈ l, ¬ bad x) → ∀ n, infinite n → ¬ infinite (!n) → r = (Fmt.f32.signed n Fmt.f32.infPat, 0)))
        -- finite products: the exact sum, rounded once
        ∧ ((∀ x ∈ l, ∀ y, (y = x.1 ∨ y = x.2.1) → ∃ n m e, y.val = .fin n m e) → ∀ base : Int,
          (∀ x ∈ l, ∀ n m ex n' m' ex', x.1.val = .fin n m ex → x.2.1.val = .fin n' m' ex' → base ≤ ex + ex' + x.2.2) →
          let term : MElt × MElt × Int → Int := fun x => match x.1.val, x.2.1.val with
            | .fin n m ex, .fin n' m' ex' => (if n != n' then -1 else 1) * ((m * m' : Nat) : Int) * 2 ^ (ex + ex' + x.2.2 - base).toNat
            | _, _ => 0
          let sum : Int := (l.map term).sum
          (sum = 0 → r = (0, 0)) ∧ (sum ≠ 0 → Rounds Fmt.f32 .near false (decide (sum < 0)) (fun m q => scaled sum.natAbs base m q) r)))
    ∧ (∀ (om : List Host.Cell) (o i : Nat),
      let n := fun (at_ c : Nat) => bytesNat (mgetN memDefault om at_ c)
      packedElt 2 om o i = .ieee .f16 (n (o + 2 * i) 2) ∧ packedElt 3 om o i = .ieee .bf16 (n (o + 2 * i) 2)
        ∧ (packedElt 4 om o i).val = NFmt.h8.val (n (o + i) 1) ∧ (packedElt 5 om o i).val = NFmt.h8w.val (n (o + i) 1)
        ∧ (packedElt 6 om o i).val = NFmt.h8.val (widenH6 (n (o + 3 * (i / 4)) 3 / 2 ^ (6 * (i % 4)) % 64))
        ∧ (packedElt 7 om o i).val = NFmt.h8.val (widenH4 (n (o + i / 2) 1 / 2 ^ (4 * (i % 2)) % 16))
        ∧ (packedElt 0xA om o i).int = sext (n (o + i) 1) 8 ∧ (packedElt 0xB om o i).int = n (o + i) 1)
    ∧ (∀ (ws : W64) (om : List Host.Cell) (k n : Nat), n < 64 →
      let base := 16384 * wsWsl ws
      let num := fun (at_ c : Nat) => bytesNat (mgetN memDefault om at_ c)
      let r := mintRec om (base + 64 * wsWoff ws)
      (wsFmt ws ≠ 8 → wsFmt ws ≠ 9 → wsFmt ws ≠ 0xC → latched ws om k n = packedElt (wsFmt ws) om base (k * 64 + n))
        ∧ (wsFmt ws = 8 → latched ws om k n = .ieee .bf16 (q4Weight (num (base + 20 * (k / 32 * 64 + n) + 16) 2)
            (num (base + 20 * (k / 32 * 64 + n) + k % 32 / 2) 1 / 2 ^ (4 * (k % 2)) % 16) (num (base + 20 * (k / 32 * 64 + n) + 18) 1 % 16)).1)
        ∧ (wsFmt ws = 9 → ∃ m, (latched ws om k n).val = .fin (decide (m < 0)) m.natAbs (-1) ∧
            m = vq2Twice (tableRow ws om (num (base + 2 * (k / 8 * 64 + n)) 2 / 256)) (num (base + 2 * (k / 8 * 64 + n)) 2) (k % 8))
        ∧ (wsFmt ws = 0xC → (k < r.kd → n < r.nd → latched ws om k n = .ieee .bf16 ((r.weights[k * r.nd + n]?).getD (0, 0)).1)
            ∧ (r.kd ≤ k ∨ r.nd ≤ n → latched ws om k n = MElt.zero)))
    -- loads: V falls at acceptance; at the end `WSRC` names the tile, and the core's array holds it
    ∧ (∀ (g : Mgmt) (m : Mach) (c : MCmd) (b : Block) (l : Launch), m.block? c.block = some b →
      let load := ∃ o, c.instr = .wload o ∨ ∃ o, c.instr = .wmint o
      (load → b.judge l.oms c.instr = .runs → ∃ b', (acceptCmd g m c b l).block? c.block = some b' ∧ b' = { b with wsrc := setBit b.wsrc 63 false }
          ∧ ((acceptCmd g m c b l).latchOf c.core).owner = none)
        ∧ ∀ x : Ctx, m.ctx? b.ctx = some x → (∀ y, c.op = some y → ∃ o, lookup m.ops y = some o ∧ ∃ p q, o.target = .reg c.wave p q) →
          let latches := fun (kind fmt slot off : Nat) (scale : Option ScaleOp) => ∃ b', (stepCmd m c b).block? c.block = some b'
            ∧ b' = { b with wsrc := b'.wsrc } ∧ wsV b'.wsrc = true ∧ fld b'.wsrc.toNat 61 2 = kind ∧ wsFmt b'.wsrc = fmt ∧ wsWsl b'.wsrc = slot
            ∧ wsWoff b'.wsrc = off ∧ wsDep b'.wsrc = depthOf fmt ∧ wsSV b'.wsrc = scale.isSome
            ∧ (∀ y, scale = some y → wsSsl b'.wsrc = y.slot.toNat ∧ wsSoff b'.wsrc = y.soff.toNat)
            ∧ wsTV b'.wsrc = wsTV b.wsrc ∧ wsTsl b'.wsrc = wsTsl b.wsrc ∧ wsToff b'.wsrc = wsToff b.wsrc
            ∧ ((stepCmd m c b).latchOf c.core).owner = some c.block ∧ ∀ y ∈ (stepCmd m c b).array, y.same c = false
          (∀ o, c.instr = .wload o → latches 1 o.fmt.code.toNat o.a.toNat 0 o.scale)
            ∧ ∀ o, c.instr = .wmint o →
              let r := mintRec b.om (16384 * o.a.toNat + 64 * o.off.toNat)
              (r.ok = true → latches 2 0xC o.a.toNat o.off.toNat none)
                ∧ (r.ok = false → (stepCmd m c b).block? c.block = some b ∧ ∀ y ∈ (stepCmd m c b).array, y.same c = false))
    -- one candidate of a seed search
    ∧ ∀ (m : Mach) (c : MCmd) (b : Block) (w : Wave) (o : OpMseek), m.block? c.block = some b → m.wave? c.wave = some w → w.missing = [] →
      c.instr = .mseek o → c.count < o.nc.toNat + 1 → o.sb ≠ o.sp →
      (∀ y, c.op = some y → ∃ z, lookup m.ops y = some z ∧ ∃ p q, z.target = .reg c.wave p q) →
      let kd := o.kd.toNat + 1
      let nd := o.nd.toNat + 1
      let seed := b.omN (16384 * o.b.toNat + 64 * o.boff.toNat + 8 * c.count) 8
      let f := fit kd nd o.j.toNat seed ((List.range (kd * nd)).map fun i => b.omN (16384 * o.a.toNat + 2 * (i / nd * 64 + i % nd)) 2)
      let best := (w.getS c.half o.sb.toNat).toNat % 2 ^ 32
      let better := c.count = 0 ∨ (Fmt.f32.isNaN best = true ∧ Fmt.f32.isNaN f.e = false) ∨ Fmt.f32.lt f.e best = true
      let at_ := 16384 * o.d.toNat + 64 * o.roff.toNat
      ∃ b' w', (stepCmd m c b).block? c.block = some b' ∧ (stepCmd m c b).wave? c.wave = some w'
        ∧ (better → b'.rdOm at_ 192 = recordBytes seed o.j.toNat kd nd f.coef ∧ w'.getS c.half o.sb.toNat = w64 (f.e + c.count % 256 * 2 ^ 32)
            ∧ ∀ x k, x + k ≤ at_ ∨ at_ + 192 ≤ x → b'.rdOm x k = b.rdOm x k)
        ∧ (¬ better → b' = b ∧ w'.getS c.half o.sb.toNat = w.getS c.half o.sb.toNat)
        ∧ w'.getS c.half o.sp.toNat = progress (decide (c.count < o.nc.toNat)) (c.count + 1)

/-- R86, R127, R133 to R138, R148 to R150: the steps of the matrix array, and what they compute. Where the rules leave
room, it follows the model's own readings, log entries 31 and 51. -/
def Obligations.MatrixSteps : Prop := Parts.MatrixSteps ∧ Parts.MatrixResults

/-! ## Macros and queues (spec/06_macros.md R153 to R187; spec/08_memory_isa.md R218) -/

/-- R154, R155, R158, R163, R166: a macro goes to its unit for the first half that has work left, counting on from its
progress register when IF or MOD[5] is set; a check at issue ends it with a reason, or traps. R42: what it leaves
then. Where the rules leave room, it follows the model's own readings, log entry 32. -/
def Obligations.MacroCommands : Prop :=
  (∀ (s : State) (e : Env), s.env? = some e → ∀ (a : OpMac) (f : OpFilt) (t : OpTrav) (r : OpBvrefit),
    let w := e.w
    let command := fun (i : Instr) (o : OpMac) (unit : MUnit) (lanes : Bool → W64) (check : Bool → MCheck) (mach : Bool → Mach)
        (arg : Bool → UnitOp → UnitOp) (ends : Bool → Nat → Wave) =>
      let works := fun (p : Bool) => p ∈ w.groups ∧ lanes p ≠ 0 ∧ (p = true ∨ w.inBar = false)
      let known := (∀ y ∈ w.acc, y.known = true) ∧ s.m.unitFull w.core unit = false
      let on := fun (p : Bool) => bit (w.getS p o.sp.toNat) 63 || o.cont
      let count := fun (p : Bool) => if on p = true then (w.getS p o.sp.toNat).toNat % 2 ^ 48 else 0
      ((∀ p, ¬ works p) → CompletesAs s e i { w with pc := w.pc + 16, inBar := false })
        ∧ ∀ p, works p → (p = true → ¬ works false) →
          (¬ known → Waits s e i .room)
            ∧ (known → (∀ code, check p = .trap code → FaultsBefore s e i code fun q => if q = p then lanes p else 0)
              ∧ (∀ code, check p = .call code → CompletesAs s e i (ends p code))
              ∧ (check p = .ok → HoldsWith s e i
                  { mach p with
                    units := (mach p).units ++ [arg p { wave := e.id, half := p, core := w.core, ctx := w.ctx, instr := i, count := count p, fresh := !on p }]
                    changes := (mach p).changes + 1 }
                  { w with inFlight := false } .unit))
    let handle := fun (p : Bool) => (w.getS p f.a.toNat).toNat % 2 ^ 32
    let all := fun (p : Bool) => (w.half p).exec
    let ends := fun (i : Instr) (o : OpMac) (p : Bool) (code : Nat) =>
      match macFields i with
      | some x => w.macroEnd x p (if bit (w.getS p x.sp) 63 || o.cont then (w.getS p x.sp).toNat % 2 ^ 48 else 0) code 0
      | none => w
    let rastCheck := fun (p : Bool) =>
      let ctl := w.word p a.w.toNat 0 14
      let legal := ctl < 256 ∧ ctl % 4 ≠ 3 ∧ ctl / 64 ≠ 3 ∧ (∀ j, j = 9 ∨ j = 10 →
        -32768 ≤ sext (w.word p a.w.toNat 0 j) 32 ∧ sext (w.word p a.w.toNat 0 j) 32 ≤ 32760)
      let fits := w.word p a.w.toNat 0 11 / 16 * 16 + 1024 * 2 ^ (ctl % 4) ≤ e.l.spad
      fun (c : MCheck) => (¬ legal ∧ c = .call 0x11) ∨ (legal ∧ ¬ fits ∧ c = .trap 0x22) ∨ (legal ∧ fits ∧ c = .ok)
    let blendCheck := fun (p : Bool) =>
      let tile := w.word p a.w.toNat 4 9 / 64 * 64
      let spp := e.b.spadN (tile + 6) 1
      let bctl := w.word p a.w.toNat 4 10
      let legal := bctl < 256 ∧ bctl / 64 ≠ 3 ∧ spp < 3
      fun (c : MCheck) => (e.l.spad < tile + 64 ∧ c = .trap 0x22) ∨ (tile + 64 ≤ e.l.spad ∧ ¬ legal ∧ c = .call 0x23)
        ∨ (tile + 64 ≤ e.l.spad ∧ legal ∧ e.l.spad < tile + 5184 + 256 * 2 ^ spp ∧ c = .trap 0x22)
        ∨ (tile + 64 ≤ e.l.spad ∧ legal ∧ tile + 5184 + 256 * 2 ^ spp ≤ e.l.spad ∧ c = .ok)
    (∀ check : Bool → MCheck, (∀ p, rastCheck p (check p)) →
        command (.rast a) a .raster all check (fun _ => s.m) (fun _ u => u) (ends (.rast a) a))
      ∧ (∀ check : Bool → MCheck, (∀ p, blendCheck p (check p)) →
        command (.oblend a) a .blend all check (fun _ => s.m) (fun _ u => u) (ends (.oblend a) a))
      ∧ command (.filt f) f.m .filter (fun p => w.activeMask p f.k.toNat)
          (fun p => if (s.m.checkHandle w.core w.ctx e.x (handle p)).1.isSome then .ok else .trap 0x90)
          (fun p => (s.m.checkHandle w.core w.ctx e.x (handle p)).2)
          (fun p u => match (s.m.checkHandle w.core w.ctx e.x (handle p)).1 with
            | some y => { u with addr := y.addr, suits := y.kind == 2 }
            | none => u) (ends (.filt f) f.m)
      ∧ (∀ i : Instr, i = .travClosest t ∨ i = .travAny t ∨ i = .travBox t ∨ i = .travSphere t →
        command i t.m .traversal (fun p => w.activeMask p t.k.toNat) (fun _ => .ok) (fun _ => s.m)
          (fun p u => { u with addr := (w.getS p t.a.toNat).toNat }) (ends i t.m))
      ∧ command (.bvrefit r) r.m .traversal all (fun _ => .ok) (fun _ => s.m)
          (fun p u => { u with addr := (w.getS p r.a.toNat).toNat }) (ends (.bvrefit r) r.m))
    -- how a macro ends
    ∧ ∀ (w : Wave) (f : MacFields) (p : Bool) (count reason : Nat) (fl : Flags),
        let v := w.macroEnd f p count reason fl
        let again := p = false ∧ w.groups.contains true = true ∧ w.macroLanes f true ≠ 0
        (∀ q r, v.getS q r = if q = p ∧ r = f.sr then w64 reason else if q = p ∧ r = f.sp then w64 (count % 2 ^ 48) else w.getS q r)
          ∧ (∀ q, (v.half q).fpflag = (w.half q).fpflag ||| (if q = p then fl.setWidth 64 else 0))
          ∧ (∀ q r l, v.getV q r l = w.getV q r l) ∧ (∀ q n, v.getK q n = w.getK q n)
          ∧ (again → v.pc = w.pc ∧ v.inBar = true) ∧ (¬ again → v.pc = w.pc + 16 ∧ v.inBar = false)

/-- R42, R155: a step of a macro is written and another one follows, or the macro is complete; the samples of a row of
`rast` (R160, R161) and of a contribution of `oblend` (R164, R165); and a cached map word is read again (R175). Where
the rules leave room, it follows the model's own readings, log entry 32. -/
def Obligations.MacroSteps : Prop :=
  (∀ (s : State) (id : Nat) (u : UnitOp) (w : Wave) (x : Ctx) (f : MacFields) (b : Block) (r : MStepRes) (m : Mach),
    s.m.units.find? (fun y => y.wave == id) = some u → s.m.wave? u.wave = some w → s.m.ctx? u.ctx = some x → macFields u.instr = some f →
    s.m.block? w.block = some b → s.m.resident w = true → s.m.running x = true →
    let run := macroBody { g := s.mgmt, core := u.core, c := u.ctx, x, older := w.acc } u w b (s.m.askWave w)
    (run = .ok r m →
      let flags := u.flags ||| r.flags
      (r.fin = .more → exec (.macroStep id) s = .next { s with m :=
          { m.putWave u.wave (r.w.setS u.half f.sp (w64 (2 ^ 63 + r.count % 2 ^ 48))) with
            units := updFirst u.same (fun _ => { u with flags, count := r.count, fresh := false, begun := true, desc := r.desc }) m.units
            changes := s.m.changes + 1 } })
        ∧ (∀ reason, (r.fin = .done ∧ reason = 0) ∨ r.fin = .call reason →
            ∃ v, v.settled = (r.w.macroEnd f u.half r.count reason flags).settled
            ∧ exec (.macroStep id) s = .next { s with m := { (m.dropUnit u).putWave u.wave v with changes := s.m.changes + 1 } }))
      -- a stop delivers the flags of the written steps, and leaves the PC on the macro
      ∧ ∀ st, run = .error st m →
        let stopped := fun (v : Wave) => v.pc = w.pc ∧ v.quiet = true ∧ (∀ q r, v.getS q r = w.getS q r) ∧ (∀ q r l, v.getV q r l = w.getV q r l)
          ∧ (∀ q, (v.half q).fpflag = (w.half q).fpflag ||| (if q = u.half then u.flags.setWidth 64 else 0))
          ∧ (v.inFlight = true ↔ w.inFlight = true ∨ u.fresh = false)
        let goes := fun (m' : Mach) => exec (.macroStep id) s = .next { s with m := { m' with changes := s.m.changes + 1 } }
        (st = .busy → exec (.macroStep id) s = .next { s with m := s.m.askWave w })
          ∧ (∀ va lv k, st = .absent va lv k → ∃ v, stopped v ∧ (∃ t, v.hold = .wait t (.page (pageOf (va % 2 ^ 57))))
              ∧ goes (((m.dropUnit u).absent u.ctx va lv k).putWave u.wave v))
          ∧ (∀ c l, st = .cause c l → ∃ v q, stopped v ∧ q.code = c ∧ q.rpc = w.pc ∧ goes (takeTrap s.mgmt (m.dropUnit u) u.wave v x q))
          ∧ (∀ va l, st = .perm va l → ∃ v q, stopped v ∧ q.code = 0x25 ∧ q.rpc = w.pc ∧ q.addr = w64 va ∧ goes (takeTrap s.mgmt (m.dropUnit u) u.wave v x q))
          ∧ (st = .poison → ∃ v, stopped v ∧ goes (contextReset s.mgmt ((m.dropUnit u).putWave u.wave v) u.ctx 0x52 0)))
    ∧ (∀ (t : RastTile) (b : Block) (r c i : Nat), ctlSpp t.ctl < 3 → c < 8 → i < 2 ^ ctlSpp t.ctl → r < 8 →
        let n := 2 ^ ctlSpp t.ctl
        let px : Int := (t.ox + c) * 256 + (sampleAt (ctlSpp t.ctl) i).1
        let py : Int := (t.oy + r) * 256 + (sampleAt (ctlSpp t.ctl) i).2
        let edge := fun (j : Nat) => nth t.s.a j * px + nth t.s.b j * py + nth t.s.c j
        let covered := ∀ j < 3, 0 < edge j ∨ (edge j = 0 ∧ t.s.tl.testBit j = true)
        let at_ := t.vb + 16 * ((8 * r + c) * n + i)
        let z := (depthAt t.z [edge 0, edge 1, edge 2] t.s.area).1
        let pass := covered ∧ depthPass (t.ctl / 4 % 8) z (b.spadN (at_ + 8) 4) = true
        let k := t.row b r
        (k.cov.testBit (4 * c + i) = true ↔ covered) ∧ (k.zpass.testBit (4 * c + i) = true ↔ pass)
          ∧ (pass → k.b.spadN at_ 8 = t.pid % 2 ^ 64)
          ∧ (pass → t.ctl.testBit 5 = true → k.b.spadN (at_ + 8) 4 = z % 2 ^ 32)
          ∧ ((¬ pass ∨ t.ctl.testBit 5 = false) → k.b.spadN (at_ + 8) 4 = b.spadN (at_ + 8) 4)
          ∧ (¬ pass → k.b.spadN at_ 8 = b.spadN at_ 8)
          ∧ k.b.spadN (at_ + 12) 4 = b.spadN (at_ + 12) 4)
    ∧ (∀ (k : Contribution) (b : Block) (tile n px i : Nat), px < 64 → i < n → n ≤ 4 →
        let at_ := tile + 5184 + 4 * (px * n + i)
        (k.apply b tile n).spadN at_ 4 =
          if (k.cov.getD (px / 8) 0).testBit (4 * (px % 8) + i) = true
          then blendPixel k.bctl k.kcol (k.col.getD px 0) (b.spadN at_ 4) % 2 ^ 32 else b.spadN at_ 4)
    ∧ ∀ (s : State) (core ctx addr : Nat) (x : Ctx) (v : Nat) (m : Mach), s.m.ctx? ctx = some x →
        let mine := fun (y : MapWord) => y.core == core && y.ctx == ctx && y.addr == addr
        (s.m.maps.any mine = false → exec (.mapWordRefresh core ctx addr) s = .next s)
          ∧ (s.m.maps.any mine = true → MacEnv.readHome { g := s.mgmt, core, c := ctx, x } addr 8 s.m = .ok v m →
            exec (.mapWordRefresh core ctx addr) s = .next { s with m :=
              { m with maps := m.maps.map fun y => if mine y = true then { y with word := w64 v } else y
                       changes := m.changes + 1 } })

/-- R167, R168, R174, R218: `ldlod` checks its handles first, waits for a place among its wave's loads, and then every
lane reads the texel of the finest resident level from the wanted one on, and its status; an absent page is logged.
Where the rules leave room, it follows the model's own readings, log entry 33. -/
def Obligations.ResidentTextureLoads : Prop :=
  (∀ (s : State) (e : Env), s.env? = some e → ∀ o : OpLdlod,
    let w := e.w
    let size := if o.wide then 8 else 4
    let runs := fun (p : Bool) => p ∈ w.groups ∧ w.active p o.k.toNat ≠ []
    let handle := fun (p : Bool) => (w.getS p o.sh.toNat).toNat % 2 ^ 32
    let entry := fun (p : Bool) => if w.active p o.k.toNat = [] then none else (s.m.checkHandle w.core w.ctx e.x (handle p)).1
    let stale := fun (p : Bool) => runs p ∧ entry p = none
    let q : MacEnv := { g := e.g, core := w.core, c := w.ctx, x := e.x, older := w.acc }
    let m0 := (w.groups.filter fun p => w.active p o.k.toNat ≠ []).foldl (fun (m : Mach) p => (m.checkHandle w.core w.ctx e.x (handle p)).2) s.m
    let found := lodLanes ((w.work o.k.toNat false).map fun x => (x.1, x.2,
      lodFind q o ((entry x.1).elim 0 (·.addr)) ((entry x.1).elim false (fun y => y.kind == 2))
        (w.getV x.1 o.vc.toNat x.2).toNat (w.getV x.1 o.ve0.toNat x.2).toNat)) m0
    let texels := found.1.filterMap fun x => match x.2.2 with
      | .ok d => d.addr.map fun a => (x.1, x.2.1, a)
      | .error _ => none
    let got := lodLanes (found.1.map fun x => (x.1, x.2.1, match x.2.2 with
      | .ok d => lodRead q size d
      | .error st => throw st)) found.2
    ((∃ p, stale p) → ∃ hit, FaultsBefore s e (.ldlod o) 0x90 hit ∧ ∀ p, (stale p → hit p = w.activeMask p o.k.toNat) ∧ (¬ stale p → hit p = 0))
      ∧ ((∀ p, ¬ stale p) → 64 ≤ w.lcnt → Waits s e (.ldlod o) (.wcnt true 63))
      ∧ ((∀ p, ¬ stale p) → w.lcnt < 64 → e.debugData true false texels size = none → (∀ x ∈ got.1, ∃ d, x.2.2 = .ok d) →
          CompletesIn s e (.ldlod o) fun m v =>
            v.pc = w.pc + 16 ∧ KeepsS e v ∧ KeepsK e v ∧ KeepsExec e v ∧ KeepsFlags e v
              ∧ m.waves = got.2.waves ∧ m.blocks = got.2.blocks ∧ m.ops = got.2.ops ∧ m.escrow = got.2.escrow
              ∧ ((∀ x ∈ got.1, ∀ d, x.2.2 = .ok d → d.logs = []) → m.mem = got.2.mem)
              ∧ (∀ p j l, j ≠ o.d.toNat → (o.wide = true → j ≠ o.d.toNat + 1) → j ≠ o.ve1.toNat → v.getV p j l = w.getV p j l)
              -- an inactive lane keeps its registers
              ∧ (∀ p l, (p, l) ∉ w.work o.k.toNat false → ∀ j, v.getV p j l = w.getV p j l)
              ∧ ∀ x ∈ got.1, ∀ d, x.2.2 = .ok d →
                (∃ logged, v.getV x.1 o.ve1.toNat x.2.1 = BitVec.ofNat 32 (d.st + if logged = true then 32 else 0)
                  ∧ (d.logs = [] → logged = false))
                ∧ (o.d ≠ o.ve1 → v.getV x.1 o.d.toNat x.2.1 = BitVec.ofNat 32 d.d)
                ∧ (o.wide = true → o.d.toNat + 1 ≠ o.ve1.toNat → v.getV x.1 (o.d.toNat + 1) x.2.1 = BitVec.ofNat 32 (d.d / 2 ^ 32))))
    -- what one lane finds: BADTEX, or the first level of which the unit's map words show the page
    ∧ (∀ (q : MacEnv) (o : OpLdlod) (desc coord want : Nat) (m m1 : Mach) (bytes : List Byte),
      (∀ d m', lodFind q o desc false coord want m = .ok d m' → m' = m ∧ d.addr = none ∧ d.d = 0 ∧ d.st = 2 ^ 31 ∧ d.logs = [])
        ∧ (q.readBytes desc 64 m = .ok bytes m1 → (∀ t, Tex.parse bytes = some t → (t.tf = 1 ↔ o.wide = false)) →
          ∃ d, lodFind q o desc true coord want m = .ok d m1 ∧ d.addr = none ∧ d.d = 0 ∧ d.st = 2 ^ 31 ∧ d.logs = [])
        ∧ ∀ t, q.readBytes desc 64 m = .ok bytes m1 → Tex.parse bytes = some t → (t.tf = 1 ↔ o.wide = true) →
          let l := Min.min (want % 16) (t.nl - 1)
          let x := (wrapTexel o.au (coord % 65536 : Nat) (t.wL l), wrapTexel o.av (coord / 65536 : Nat) (t.hL l))
          let page := fun (c : Nat) => t.pageOf (x.1 >>> (c - l), x.2 >>> (c - l))
          let at_ := fun (c : Nat) => t.page c (page c).1 (page c).2
          let word := fun (c : Nat) => (m1.maps.find? fun y => y.core == q.core && y.ctx == q.c && y.addr == t.map + 8 * (at_ c / 64)).map (·.word)
          let here := fun (c : Nat) => ∃ y, word c = some y ∧ y.toNat.testBit (at_ c % 64) = true
          (∀ c, l ≤ c → c < t.nl → word c ≠ none) →
            ∃ d, lodFind q o desc true coord want m = .ok d m1 ∧ d.d = 0
              ∧ (here l → d.logs = []) ∧ (¬ here l → d.logs = [(l, (page l).1, (page l).2)])
              ∧ (∀ u, l ≤ u → u < t.nl → here u → (∀ c, l ≤ c → c < u → ¬ here c) →
                  d.addr = some (t.texelAddr u (x.1 >>> (u - l), x.2 >>> (u - l))) ∧ d.st = u - l)
              ∧ ((∀ c, l ≤ c → c < t.nl → ¬ here c) → d.addr = none ∧ d.st = 16 + (t.nl - 1 - l)))
    ∧ ∀ (q : MacEnv) (n : Nat) (d : LodLane) (m : Mach),
      (d.addr = none → lodRead q n d m = .ok d m)
        ∧ ∀ a x m', d.addr = some a → q.read a n m = .ok x m' → lodRead q n d m = .ok { d with d := x } m'

/-- R184, R185: lanes take and give back slots of the purse, append to and take from its stage queues, in lane order. -/
def Parts.PurseAndStageQueues : Prop :=
  (∀ (s : State) (e : Env), s.env? = some e → ∀ (k c : BitVec 4) (d a : BitVec 8) (n : BitVec 3),
    let w := e.w
    let q : MacEnv := { g := e.g, core := w.core, c := w.ctx, x := e.x, older := w.acc }
    let halves := w.groups.filter fun p => w.active p k.toNat ≠ []
    let near := fun (x al : Nat) => (e.x.steer x).1 = .global ∧ canonical x = true ∧ x % al = 0
    let lanes := fun (f : Bool → Nat → Ctx × Wave → Ctx × Wave) (p : Bool) (w : Wave) => (do
      let x ← q.ctxNow
      let r := (w.active p k.toNat).foldl (fun r l => f p l r) (x, w)
      q.setCtx r.1
      pure r.2 : MacM Wave)
    let takes := fun (f : Ctx → Option (Nat × Ctx)) (p : Bool) (l : Nat) (r : Ctx × Wave) =>
      match f r.1 with
      | some (n, x) => (x, r.2.took p l d.toNat c.toNat (some n))
      | none => (r.1, r.2.took p l d.toNat c.toNat none)
    let gives := fun (f : Ctx → Nat → Option Ctx) (p : Bool) (l : Nat) (r : Ctx × Wave) =>
      match f r.1 (r.2.getV p a.toNat l).toNat with
      | some x => (x, r.2.refusedBit p l c.toNat false)
      | none => (r.1, r.2.refusedBit p l c.toNat true)
    let runs := fun (i : Instr) (body : Bool → Wave → MacM Wave) => ∀ v m,
      (halves.foldlM (fun w p => body p w) w : MacM Wave) s.m = .ok v m → CompletesWith s e i m { v with pc := w.pc + 8 }
    let release := fun (p : Bool) => e.released (some p) .device true (inRegions (e.x.regions e.x.pguard))
    let causes := fun (i : Instr) => HomeCauses s e i 1 1 (fun _ => e.x.pbase) (fun p => p ∈ halves) fun p => w.activeMask p k.toNat
    causes (.psalloc k d c) ∧ causes (.psfree k a c) ∧ causes (.sqpush k a n c) ∧ causes (.sqpop k d n c)
      ∧ (near e.x.pbase 1 →
        runs (.psalloc k d c) (fun p w => do q.purse; lanes (takes Ctx.takeSlot) p w)
          ∧ runs (.psfree k a c) (fun p w => do q.purse; lanes (gives Ctx.giveSlot) p w)
          ∧ (near e.x.pguard 8 → (∃ p ∈ halves, release p = false) → Waits s e (.sqpush k a n c) .room)
          ∧ (near e.x.pguard 8 → (∀ p ∈ halves, release p = true) → runs (.sqpush k a n c) fun p w => do
              q.purse
              let v ← q.homeRead needRW q.x.pguard 8
              modify fun m => m.releaseTo q.c .device
              q.homeWrite needRW q.x.pguard 8 ((v + 1) % 2 ^ 64)
              lanes (gives fun x y => x.pushStage n.toNat y) p w)
          ∧ ((e.x.stage n.toNat = [] ∨ near e.x.pguard 8) → runs (.sqpop k d n c) fun p w => do
              q.purse
              let x ← q.ctxNow
              if x.stage n.toNat = [] then lanes (takes fun x => x.popStage n.toNat) p w else
              let _ ← q.homeRead needRW q.x.pguard 8
              let v ← lanes (takes fun x => x.popStage n.toNat) p w
              modify fun m => m.invalidateIn q.core q.c .device (q.x.regions q.x.pguard)
              pure v)))
    ∧ ∀ (x : Ctx) (n i j : Nat),
      (∀ y, x.takeSlot = some (i, y) → (x.freed = i :: y.freed ∧ y.fresh = x.fresh) ∨ (x.freed = [] ∧ y.freed = [] ∧ i = x.fresh ∧ i < x.pcount ∧ y.fresh = i + 1))
        ∧ (x.takeSlot = none ↔ x.freed = [] ∧ x.pcount ≤ x.fresh)
        ∧ (x.giveSlot i = none ↔ x.pcount ≤ i ∨ x.fresh ≤ i ∨ i ∈ x.freed)
        ∧ (∀ y, x.giveSlot i = some y → y.takeSlot = some (i, x))
        ∧ (x.pushStage n i = none ↔ x.pcount ≤ i ∨ x.pcount ≤ (x.stage n).length)
        ∧ (∀ y, x.pushStage n i = some y → ∀ j, y.stage j = if j = n then x.stage n ++ [i] else x.stage j)
        ∧ (x.popStage n = none ↔ x.stage n = [])
        ∧ (∀ y, x.popStage n = some (i, y) → x.stage n = i :: y.stage n ∧ (j ≠ n → y.stage j = x.stage j))

/-- R186, R187: a batch is opened, filled, closed, taken, read and freed, each as one operation at the queue's home. -/
def Parts.GeometryQueues : Prop :=
  ∀ (s : State) (e : Env), s.env? = some e → ∀ (k : BitVec 4) (d a b c : BitVec 7) (vd vc : BitVec 8),
    let w := e.w
    let q : MacEnv := { g := e.g, core := w.core, c := w.ctx, x := e.x, older := w.acc }
    let addr := fun (p : Bool) => (w.getS p a.toNat).toNat
    let runs := fun (i : Instr) (k : Nat) (halves : List Bool) (body : Bool → Wave → MacM Wave) =>
      HomeCauses s e i 64 8 addr (fun p => p ∈ halves) (fun p => w.activeMask p k)
        ∧ ((∀ p ∈ halves, (e.x.steer (addr p)).1 = .global ∧ canonical (addr p) = true ∧ addr p % 8 = 0) → ∀ v m,
          (halves.foldlM (fun w p => body p w) w : MacM Wave) s.m = .ok v m → CompletesWith s e i m { v with pc := w.pc + 8 })
    let lanes := fun (f : Bool → Wave → Nat → MacM Wave) (p : Bool) (w : Wave) => (w.active p k.toNat).foldlM (f p) w
    let live := w.groups.filter fun p => w.active p k.toNat ≠ []
    runs (.gqpushOpen d a b c) 0 w.passes (fun p w => do
        let h ← q.gqHead needRW (addr p)
        let nv := (w.getS p b.toNat).toNat % 65536
        let np := (w.getS p b.toNat).toNat / 65536 % 65536
        if (h.head + (1 + nv + np) + 2 ^ 32 - h.tail % 2 ^ 32) % 2 ^ 32 ≤ h.cap then
          q.gqWrite needW h h.head [nv, np, 0, (w.getS p c.toNat).toNat % 2 ^ 32]
          (List.range (nv + np)).forM (fun i => q.gqWrite needW h (h.head + 1 + i) noRecord)
          q.homeWrite needRW (addr p + 12) 4 ((h.head + (1 + nv + np)) % 2 ^ 32)
          pure (w.setS p d.toNat (w64 h.head))
        else pure (w.setS p d.toNat (BitVec.allOnes 64)))
      ∧ runs (.gqpushVtx k vd a b vc) k.toNat live (lanes fun p w l => q.gqPut false (addr p) p w vd.toNat b.toNat vc.toNat l)
      ∧ runs (.gqpushPrim k vd a b vc) k.toNat live (lanes fun p w l => q.gqPut true (addr p) p w vd.toNat b.toNat vc.toNat l)
      ∧ runs (.gqpushClose a b) 0 w.passes (fun p w => do
          let h ← q.gqHead needRW (addr p)
          let batch ← q.gqRead needRW h (w.getS p b.toNat).toNat
          if batchState batch = 0 then q.homeWrite needRW (h.recAt (w.getS p b.toNat).toNat + 8) 4 1
          pure w)
      ∧ runs (.gqpopTake d a) 0 w.passes (fun p w => do
          let h ← q.gqHead needRW (addr p)
          if h.take = h.head then return w.setS p d.toNat (BitVec.allOnes 64)
          let batch ← q.gqRead needRW h h.take
          if batchState batch ≠ 1 then return w.setS p d.toNat (BitVec.allOnes 64)
          q.homeWrite needRW (h.recAt h.take + 8) 4 2
          q.homeWrite needRW (addr p + 20) 4 ((h.take + batchLen batch) % 2 ^ 32)
          pure (w.setS p d.toNat (w64 h.take)))
      ∧ runs (.gqpopRec k vd a vc) k.toNat live (lanes fun p w l => do
          let h ← q.gqHead needR (addr p)
          let r ← q.gqRead needR h (w.getV p vc.toNat l).toNat
          pure ((List.range 4).foldl (fun (w : Wave) i => w.setV p (vd.toNat + i) l (BitVec.ofNat 32 (r.getD i 0))) w))
      ∧ runs (.gqpopFree a b) 0 w.passes (fun p w => do
          let h ← q.gqHead needRW (addr p)
          let batch ← q.gqRead needRW h (w.getS p b.toNat).toNat
          if batchState batch = 2 then q.homeWrite needRW (h.recAt (w.getS p b.toNat).toNat + 8) 4 3
          let tail ← q.gqSweep h ((h.take + 2 ^ 32 - h.tail % 2 ^ 32) % 2 ^ 32) h.tail
          q.homeWrite needRW (addr p + 16) 4 tail
          pure w)

/-- R184 to R187: the purse, its stage queues, and geometry queues. Where the rules leave room, it follows the model's
own readings, log entries 16 and 25. -/
def Obligations.PurseAndGeometryQueues : Prop := Parts.PurseAndStageQueues ∧ Parts.GeometryQueues

/-! ## Traps, special registers, counters and hidden transitions (spec/12_recovery.md R318 to R340; spec/11_isolation.md R307 to R315) -/

/-- R54, R55, R57, R318, R331, R338: `trap`, `brk` and `svc` raise their causes after themselves, and `trap.fatal` resets
the context, all but `brk` only when `exec` holds a lane; a zero word raises `ZERO_WORD` before itself, and an
undefined word calls `emulate()` with its reason. Where the rules leave room, it follows the model's own readings, log
entries 13 and 58. -/
def Obligations.TrapsAndUndefinedWords : Prop :=
  ∀ (s : State) (e : Env), s.env? = some e → ∀ (n : BitVec 12) (n' : W32) (r : Reason) (op : BitVec 4),
    let w := e.w
    let raises := fun (i : Instr) (size : Nat) (code : Nat) (lanes : Bool → W64) =>
      Traps s e i s.m { w.retired with pc := w.pc + w64 size }
        { code, rpc := w.pc + w64 size, addr := w.pc, addr1 := w.pc, lanes0 := lanes false, lanes1 := lanes true }
    let mine := fun (p : Bool) => if p ∈ w.groups then (w.half p).exec else 0
    let size := if s.m.word.getLsbD 54 then 16 else 8
    let lanes := fun (p : Bool) => if p = false ∨ true ∈ w.groups then w.activeMask p (predField s.m.word) else 0
    (w.hwMask = 0 → ∀ i ∈ [Instr.trap n, .trapFatal n, .svc n'], CompletesAs s e i { w with pc := w.pc + 8 })
      ∧ (w.hwMask ≠ 0 → raises (.trap n) 8 (0x1000 + n.toNat) mine ∧ raises (.svc n') 8 0x41 mine ∧ Resets s e (.trapFatal n) (0x1000 + n.toNat) w.pc)
      ∧ raises (.brk n') 8 0x40 mine
      ∧ FaultsBefore s e .zeroWord 1 (fun p => (w.half p).exec)
      ∧ raises (.emulate r) size (match r with
          | .notOp => 0x100 | .xBit => 0x101 | .field => 0x102 | .bound => 0x103 | .unit => 0x104 | .microcode => 0x105) lanes
      ∧ ((e.x.ucode = none ∨ e.x.provides e.l.ucode op = false) → raises (.microcodeOp op) size 0x105 lanes)
      -- one that the loaded set provides: tests 3 to 6 are made by the set's definitions, and what it does is in the set alone
      ∧ ∀ u, e.x.ucode = some u → e.x.provides e.l.ucode op = true →
          (1 ≤ e.ucodeReason u → e.ucodeReason u ≤ 4 → raises (.microcodeOp op) size (0x100 + e.ucodeReason u) lanes)
            ∧ (e.ucodeReason u = 0 ∨ 4 < e.ucodeReason u → exec (.microcodeOp op) s = .refused .microcode)

/-- R318, R321, R324, R331: a trap is taken by the context's handler: a trap entry holds the PC to return to and the
lanes that ran, every lane that has not ended runs the handler, and the wave state of each half says why. Without a handler, or
where a page of it is forbidden, the default action follows; so does it when the stack is full. Where the rules leave
room, it follows the model's own readings, log entry 13. -/
def Obligations.TakingATrap : Prop :=
  ∀ (g : Mgmt) (m : Mach) (id : Nat) (w : Wave) (x : Ctx) (q : Req),
    let entry := m.emuentry x
    let emu := 0x100 ≤ q.code ∧ q.code ≤ 0x105
    let deep := emu ∧ ∃ p ∈ w.groups, 2 ≤ (w.half p).emudepth.toNat
    let hits := fun (p : Bool) => emu ∨ (if p then q.lanes1 else q.lanes0) ≠ 0 ∨ (q.lanes0 = 0 ∧ q.lanes1 = 0)
    let m1 := m.eat w.ctx (x.desc + 0x20) 8
    let u := m.takeLines w w.maskLines
    let page := xlate g m1 w.ctx entry needX
    -- the causes that a handler takes; PROMISE_MISS and the debug causes have no default action (R333, R318)
    let fatal := 0x50 ≤ q.code ∧ q.code ≤ 0x53
    let quiet := q.code = 0x30 ∨ (0x42 ≤ q.code ∧ q.code ≤ 0x44)
    ¬ fatal → ((∀ i ∈ w.maskLines, i ∉ w.missing) → u = w) ∧ (deep → takeTrap g m id w x q = contextReset g (m1.putWave id w) w.ctx 0x51 0)
      ∧ (¬ deep → entry = 0 → q.code = 0x40 → takeTrap g m id w x q = m1.putWave id { u with pc := q.rpc, quiet := false })
      ∧ (¬ deep → entry = 0 → q.code ≠ 0x40 → ¬ quiet → takeTrap g m id w x q = contextReset g (m1.putWave id w) w.ctx q.code q.addr)
      ∧ (¬ deep → entry ≠ 0 → (∃ y, page.1 = .perm y) → w.stack.length < 256 → takeTrap g m id w x q = contextReset g (page.2.putWave id w) w.ctx q.code q.addr)
      ∧ (¬ deep → entry ≠ 0 → (∃ y, page.1 = .perm y) → 256 ≤ w.stack.length →
          ∃ c a, (c = q.code ∧ a = q.addr ∨ c = 0x50 ∧ a = 0) ∧ takeTrap g m id w x q = contextReset g (page.2.putWave id w) w.ctx c a)
      ∧ (¬ deep → entry ≠ 0 → (∀ y, page.1 ≠ .perm y) → 256 ≤ w.stack.length →
          takeTrap g m id w x q = contextReset g (page.2.putWave id w) w.ctx 0x50 0)
      ∧ (¬ deep → entry ≠ 0 → (∀ y, page.1 ≠ .perm y) → w.stack.length < 256 → ∃ v, takeTrap g m id w x q = page.2.putWave id v
          ∧ v.pc = w64 entry ∧ (∃ t, v.stack = t :: u.stack ∧ t.kind = .trap ∧ t.rpc = q.rpc ∧ t.mask = u.hwMask
              ∧ t.cause = BitVec.ofNat 16 q.code ∧ t.sk = BitVec.ofNat 4 q.skid)
          ∧ (∀ p r l, v.getV p r l = u.getV p r l) ∧ (∀ p r, v.getS p r = u.getS p r) ∧ (∀ p r, v.getQ p r = u.getQ p r)
          ∧ ∀ p ∈ u.groups, (v.half p).exec = ones u.W &&& ~~~(u.half p).ended
            ∧ (∀ n, v.getK p n = if n = 15 then (u.half p).exec &&& ones u.W else u.getK p n)
            ∧ (v.half p).trapaddr = (if p then q.addr1 else q.addr) ∧ (v.half p).skid = w64 q.skid
            ∧ (v.half p).fpctl = (u.half p).fpctl ∧ (v.half p).fpflag = (u.half p).fpflag
            ∧ (hits p → (v.half p).trapcause = w64 q.code ∧ (v.half p).laneflt = if p then q.lanes1 else q.lanes0)
            ∧ (¬ hits p → (v.half p).trapcause = 0 ∧ (v.half p).laneflt = 0)
            ∧ (emu → (v.half p).emudepth = (u.half p).emudepth + 1) ∧ (¬ emu → (v.half p).emudepth = (u.half p).emudepth))

/-- R22, R308, R340: `rdsr` and `wrsr`: every special register is read, and the writable ones keep the bits that are not
reserved, in each half that runs. -/
def Parts.SpecialRegisters : Prop :=
  ∀ (s : State) (e : Env), s.env? = some e → ∀ (r : SReg) (d : BitVec 7) (v : BitVec 8) (b : SC),
    let w := e.w
    let value := fun (p : Bool) => match b with
      | .sca n => w.getS p n.toNat
      | .con c => w64 (e.const p .b32 c)
    let writes := fun (r : SReg) (f : Bool → Half → Half) =>
      Completes s e (.wrsr r b) fun u => u.pc = w.pc + 8 ∧ u.stack = w.stack ∧ u.v = w.v ∧ ∀ p, u.half p = if w.runs p then f p (w.half p) else w.half p
    Completes s e (.rdsr (.sca d) r) (ScalarWritten e d fun p => e.special64 p 0 r)
      ∧ Completes s e (.rdsr (.vec v) r) (fun u => GoesOn e 8 u ∧ KeepsS e u ∧ KeepsK e u ∧ KeepsExec e u ∧ KeepsFlags e u
          ∧ ∀ p ∈ w.groups, ∀ l < w.W, ∀ j, u.getV p j l =
              if bit (w.half p).exec l = true ∧ j = v.toNat then (e.special64 p l r).setWidth 32 else w.getV p j l)
      ∧ writes .fpctl (fun p h => { h with fpctl := value p &&& 0x1F })
      ∧ writes .fpflag (fun p h => { h with fpflag := value p &&& 0x3F })
      ∧ writes .trapcause (fun p h => { h with trapcause := value p &&& 0xFFFF })
      ∧ writes .trapaddr (fun p h => { h with trapaddr := value p })
      ∧ writes .agelim (fun p h => { h with agelim := if value p &&& 0xFF = 0 then 1 else value p &&& 0xFF })
      ∧ (∀ n, CompletesWith s e (.wrsr (.pmsel n) b)
          (w.passes.foldl (fun (m : Mach) p => m.updCtx w.ctx fun x => { x with pmsel := mset 0 x.pmsel n.toNat (value p &&& 0xC00000000000FFFF) }) s.m)
          { w with pc := w.pc + 8 })
      -- what the named registers read
      ∧ (∀ p l, e.special64 p l .laneid = w64 l ∧ e.special64 p l .blockid = w64 e.b.blockid ∧ e.special64 p l .waveid = w64 (w.half p).waveid
          ∧ e.special64 p l .fpctl = (w.half p).fpctl ∧ e.special64 p l .fpflag = (w.half p).fpflag ∧ e.special64 p l .trapcause = (w.half p).trapcause
          ∧ e.special64 p l .trapaddr = (w.half p).trapaddr ∧ e.special64 p l .skid = (w.half p).skid ∧ e.special64 p l .laneflt = (w.half p).laneflt
          ∧ e.special64 p l .emudepth = (w.half p).emudepth ∧ e.special64 p l .agelim = (w.half p).agelim ∧ e.special64 p l .wsrc = e.b.wsrc
          ∧ e.special64 p l .rsdepth = w64 w.stack.length ∧ e.special64 p l .qclass = w64 e.l.cls
          ∧ e.special64 p l .wdecl = w64 ((match w.width with | .w32 => 0 | .w16 => 1 | .w64 => 2) + if p then 4 else 0)
          ∧ ∀ n, let event := (mget 0 e.x.pmsel n).toNat % 65536
              let hidden := (event = 0x100 ∨ event = 0x101) ∧ e.x.priv = false
              (hidden → e.x.pmcRead n = 0) ∧ (¬ hidden → e.x.pmcRead n = (mget 0 e.x.pmc n).setWidth 64))

/-- R340: `rdsr` and `wrsr` of a window reach the register that the emulated instruction's field names, plus an offset; a
register that does not exist reads as zero and is not written. `ei0` and `ei1` read the instruction's own words. -/
def Parts.RegisterWindows : Prop :=
  ∀ (s : State) (e : Env), s.env? = some e → ∀ (k : BitVec 4) (vd : BitVec 8) (sd : BitVec 7) (md : MX) (win : Sys2Proof.Win) (o : BitVec 2) (word : Bool → W64),
    let w := e.w
    let read := fun (second : Bool) => w.passes.foldl (fun (r : Mach × List (Bool × Fetched)) p =>
      let x := e.ei r.1 p second
      (match x with | .word _ m => m | .absent _ m => m | .perm m => m | .poison m => m, r.2 ++ [(p, x)])) (s.m, [])
    let reads := fun (second : Bool) => ∀ x ∈ (read second).2, ∃ m, x.2 = .word (word x.1) m
    let done := fun (i : Instr) (second : Bool) (P : Wave → Prop) => CompletesIn s e i fun m v => m = (read second).1 ∧ P v
    let reg := fun (p : Bool) => (word p).toNat / 2 ^ Win.lo win % 256 + o.toNat
    let free := fun (use : Nat → Option Use) => ∀ p, p ∈ w.passes → ∀ u, use (reg p) = some u →
      (∀ a ∈ w.acc, a.busy u = false) ∧ (read false).1.followBusy e.id u = false ∧ ∀ l ∈ w.linesFor u, l ∉ w.missing
    let isV := fun (n : Nat) => n < 256 ∧ n < w.allow
    let isS := fun (n : Nat) => n < 128 ∧ n < w.sregs
    let masked := fun (p : Bool) => if reg p = 16 then (w.half p).exec else if reg p < 16 then w.getK p (reg p) else 0
    CompletesAs s e (.wrsrWindow (.rpc sd)) { w.passes.foldl (fun (v : Wave) p => v.setTrapRpc (w.getS p sd.toNat)) w with pc := w.pc + 8 }
      ∧ Completes s e (.rdsrWindow (.rpc sd)) (ScalarWritten e sd fun _ => w.trapRpc)
      ∧ (reads false → done (.rdsrWindow (.ei0 sd)) false (ScalarWritten e sd word))
      ∧ (reads true → done (.rdsrWindow (.ei1 sd)) true (ScalarWritten e sd word))
      ∧ (reads false → free w.winV →
          done (.rdsrWindow (.wv k vd win o)) false (LaneResult e k .b32 (.vec vd) 8 fun p l => if isV (reg p) then (w.getV p (reg p) l).toNat else 0)
            ∧ done (.wrsrWindow (.wv k win vd o)) false fun v => GoesOn e 8 v ∧ KeepsS e v ∧ KeepsK e v ∧ KeepsExec e v ∧ KeepsFlags e v
              ∧ ∀ p ∈ w.groups, ∀ l < w.W, ∀ j, v.getV p j l =
                if w.isActive p k.toNat l = true ∧ j = reg p ∧ isV j then w.getV p vd.toNat l else w.getV p j l)
      ∧ (reads false → free w.winS →
          done (.rdsrWindow (.ws sd win o)) false (ScalarWritten e sd fun p => if isS (reg p) then w.getS p (reg p) else 0)
            ∧ done (.wrsrWindow (.ws win sd o)) false fun v => GoesOn e 8 v ∧ KeepsV e v ∧ KeepsK e v ∧ KeepsExec e v ∧ KeepsFlags e v
              ∧ ∀ p j, v.getS p j = if w.runs p ∧ j = reg p ∧ isS j then w.getS p sd.toNat else w.getS p j)
      ∧ (reads false → free winK →
          done (.rdsrWindow (.wk md win o)) false (MaskWritten e md fun p l => bit (masked p) l)
            ∧ done (.wrsrWindow (.wk win md o)) false fun v => GoesOn e 8 v ∧ KeepsV e v ∧ KeepsS e v ∧ KeepsFlags e v
              ∧ (∀ p j l, bit (v.getK p j) l =
                  if w.runs p ∧ j = reg p ∧ j ≠ 0 ∧ j < 16 then decide (l < w.W) && bit (w.getMX p md) l else bit (w.getK p j) l)
              ∧ ∀ p l, bit (v.half p).exec l =
                  if w.runs p ∧ reg p = 16 then decide (l < w.W) && bit (w.getMX p md) l && !bit (w.half p).ended l else bit (w.half p).exec l)

/-- R22, R308, R331, R339, R340: special registers, and register windows. Where the rules leave room, it follows the
model's own readings, log entries 18 and 40. -/
def Obligations.SpecialRegistersAndWindows : Prop := Parts.SpecialRegisters ∧ Parts.RegisterWindows

/-- R310 to R315: `pmrd` and `pmctl` act for each half with lanes; `qrst` needs PRIV, waits for the queue's started packets,
and then sets the queue's indices and lets it run. -/
def Parts.CountersAndQueueReset : Prop :=
  (∀ (s : State) (e : Env), s.env? = some e → ∀ (d a b : BitVec 7),
    let w := e.w
    let halves := w.groups.filter fun p => (w.half p).exec ≠ 0
    let queue := fun (p : Bool) => s.m.queueAt e.x.part w.ctx (w.getS p a.toNat).toNat none
    let waits := fun (p : Bool) (id : Nat) => p ∈ halves ∧ ∃ q, queue p = some (id, q) ∧ (q.started ≠ [] ∨ q.wait ≠ none)
    let result := halves.foldl (fun (r : Mach × Wave) p => match queue p with
      | none => (r.1, r.2.setS p d.toNat 1)
      | some (id, q) => (qrstNow e.g r.1 id q (w.getS p b.toNat).toNat, r.2.setS p d.toNat 0)) (s.m, w)
    Completes s e (.pmrd d) (fun v => GoesOn e 8 v ∧ KeepsV e v ∧ KeepsK e v ∧ KeepsExec e v ∧ KeepsFlags e v
        ∧ ∀ p j, v.getS p j = if p ∈ halves ∧ d.toNat ≤ j ∧ j < d.toNat + 8 then e.x.pmcRead (j - d.toNat) else w.getS p j)
      ∧ CompletesWith s e (.pmctl a) (halves.foldl (fun (m : Mach) p => m.updCtx w.ctx fun x => x.pmctl (w.getS p a.toNat)) s.m) { w with pc := w.pc + 8 }
      ∧ (halves ≠ [] → e.x.priv = false → FaultsBefore s e (.qrst d a b) 0x91 fun p => (w.half p).exec)
      ∧ ((halves = [] ∨ e.x.priv = true) → (∃ p id, waits p id) → ∃ p id, waits p id ∧ Waits s e (.qrst d a b) (.qrst id))
      ∧ ((halves = [] ∨ e.x.priv = true) → (∀ p id, ¬ waits p id) → CompletesWith s e (.qrst d a b) result.1 { result.2 with pc := w.pc + 8 }))
    ∧ (∀ (x : Ctx) (c : W64) (i : Nat), i < 8 →
        mget 0 (x.pmctl c).pmc i = (if bit c i = true then 0 else mget 0 x.pmc i)
          ∧ ∀ n, bit (mget 0 (x.pmctl c).pmsel i) n =
            if n = 63 ∧ bit c (16 + i) = true then true else if n = 63 ∧ bit c (8 + i) = true then false else bit (mget 0 x.pmsel i) n)
    ∧ ∀ (g : Mgmt) (m : Mach) (id ridx : Nat) (q : Queue), lookup m.queues id = some q →
        (∃ y, lookup (qrstNow g m id q ridx).queues id = some y ∧ y = { q with ridx, halted := false })
          -- RIDX, and STATE and ERRIDX of zero, are written to the descriptor through the tables of the queue's context
          ∧ (let word := fun (m : Mach) (off n v : Nat) => (vwrite g m q.ctx (q.desc + off) (natBytes v n)).2
            let home := word (word (word m 0x18 8 ridx) 0x20 4 0) 0x28 8 0
            qrstNow g m id q ridx = { home with queues := upd home.queues id fun y => { y with ridx, halted := false } })
          ∧ ∀ (c va pa : Nat) (l : List Byte) (m' : Mach), runs g c needW (runFuel l.length) m va l.length = (.ok [(pa, l.length)], m') → isMem pa = true →
            (vwrite g m c va l).2.rd pa l.length = l

/-- R310 to R312, R329: `tlbinv` of another context, or with RETRY, needs PRIV; it waits for accesses begun under an entry that it
drops; and then no translation, core-cache line or handle that it names is left, and what stood in escrow is replayed. -/
def Parts.Invalidations : Prop :=
  (∀ (s : State) (e : Env), s.env? = some e → ∀ (retry : Bool) (d a b c : BitVec 7),
    let w := e.w
    let halves := w.groups.filter fun p => (w.half p).exec ≠ 0
    let runs := fun (i : Instr) (retry : Bool) (q : Bool → InvReq) =>
      let denied := fun (p : Bool) => p ∈ halves ∧ e.x.priv = false ∧ (retry = true ∨ (w.getS p c.toNat).toNat ≠ e.x.ctxid)
      let r := halves.foldl (fun (r : Bool × Mach × List (Bool × Nat)) p =>
        if r.1 then r else
        match tlbinv e.g r.2.1 e.x.part (w.getS p c.toNat).toNat (q p) with
        | (none, m) => (true, m, r.2.2)
        | (some st, m) => (false, m, r.2.2 ++ [(p, st)])) (false, s.m, [])
      ((∃ p, denied p) → ∃ hit, FaultsBefore s e i 0x91 hit ∧ ∀ p, (denied p → hit p = (w.half p).exec) ∧ (¬ denied p → hit p = 0))
        ∧ ((∀ p, ¬ denied p) → r.1 = true → HoldsWith s e i r.2.1 w .room)
        ∧ ((∀ p, ¬ denied p) → r.1 = false → r.2.1.wave? e.id ≠ none →
            CompletesWith s e i r.2.1 { r.2.2.foldl (fun (v : Wave) x => v.setS x.1 d.toNat (w64 x.2)) w with pc := w.pc + 8 })
    runs (.tlbinvRange retry d a b c) retry (fun p => .pages (rangeCover (w.getS p a.toNat).toNat (w.getS p b.toNat).toNat) retry)
      ∧ runs (.tlbinvCtx retry d c) retry (fun _ => .pages (some .all) retry)
      ∧ runs (.tlbinvHnd d a b c) false (fun p => .handles (if w.getS p b.toNat = 0 then some ((w.getS p a.toNat).toNat % 2 ^ 20) else none)))
    ∧ (∀ (g : Mgmt) (m : Mach) (part id : Nat) (v : Cover) (h : Option Nat) (q : InvReq),
        let c := ctxKey part id
        let missing := 65536 ≤ id ∨ m.ctx? c = none
        let waiting := fun (retry : Bool) => (m.dropTlb c v).begun c v = true ∨ (retry = true ∧ (m.dropTlb c v).owes c v = true)
        let home := ((m.dropTlb c v).l1Drop fun l => l.ctx == c && l.vpages.any v.has).rdcDrop fun l => l.ctx == c && l.vpages.any v.has
        (missing → tlbinv g m part id q = (some 1, m))
          ∧ (¬ missing → ∀ r, tlbinv g m part id (.pages none r) = (some 2, m))
          ∧ (¬ missing → ∀ r, waiting r → tlbinv g m part id (.pages (some v) r) = (none, m.dropTlb c v))
          ∧ (¬ missing → ¬ waiting false → ∃ n, tlbinv g m part id (.pages (some v) false) = (some 0, n)
              -- dirty bytes of dropped lines have gone home, and a pin whose page is gone has ended
              ∧ n = { home with pins := n.pins }
              ∧ (∀ x, m.ctx? c = some x → ∀ p, p ∈ n.pins ↔ p ∈ m.pins ∧ (p.ctx = c → v.has p.vpage = true →
                  ∃ pa leaf lv, walk g home x (p.vpage * 65536) {} = .ok pa leaf lv ∧ pageOf pa = p.line / 512))
              ∧ (∀ t ∈ n.tlb, t.ctx = c → v.has t.vpage = false) ∧ (∀ l ∈ n.l1, l.ctx = c → ∀ p ∈ l.vpages, v.has p = false)
              ∧ (∀ l ∈ n.rdc, l.ctx = c → ∀ p ∈ l.vpages, v.has p = false) ∧ n.waves = m.waves)
          -- with RETRY the pending faults of the pages are forgotten, the escrow is replayed in its order, and accesses go on
          ∧ (¬ missing → ¬ waiting true →
              let n := (tlbinv g m part id (.pages (some v) false)).2.updCtx c fun x => { x with pending := x.pending.filter fun p => !v.has p.page }
              tlbinv g m part id (.pages (some v) true) =
                (some 0, ((n.escrow.filter fun y => y.ctx == c && v.has (y.vline / 512)).foldl (replayOne g) n).unhold c))
          ∧ (¬ missing → ∃ n, tlbinv g m part id (.handles h) = (some 0, n) ∧ n.tlb = m.tlb
              ∧ ∀ y, y ∈ n.hcache ↔ y ∈ m.hcache ∧ (y.ctx ≠ c ∨ (h ≠ none ∧ h ≠ some y.idx))))
    -- one entry of the escrow log
    ∧ (∀ (g : Mgmt) (m : Mach) (y : Escrow),
        let page := xlate g (m.serve y.core y.launch) y.ctx (y.vline * 128) y.kind.need
        let gone := fun (n : Mach) => { n with escrow := n.escrow.filter fun z => !z.same y }
        let comp := fun (leaf : W64) => compOf y.ctx leaf
        y ∈ m.escrow →
          (∀ lv, page.1 = .absent lv → replayOne g m y = page.2.absent y.ctx (y.vline * 128) lv y.kind.fault)
            ∧ (∀ b, page.1 = .perm b → replayOne g m y = contextReset g page.2 y.ctx 0x53 0)
            ∧ ∀ pa leaf lv, page.1 = .ok pa leaf lv → let n := page.2.replay y pa (comp leaf)
              (n.2 = true → replayOne g m y = contextReset g (gone n.1) y.ctx 0x52 0) ∧ (n.2 = false → replayOne g m y = (gone n.1).heldOver y.wave))
    ∧ (∀ (m : Mach) (y : Escrow) (pa o : Nat) (b : Byte), y.kind = .store [(o, b)] → scopeWide y.scope = true → isMem (pa - pa % 128) = true → o < 128 →
        (m.replay y pa none).2 = false ∧ (m.replay y pa none).1.rd (pa - pa % 128 + o) 1 = [b])
    ∧ (∀ (m : Mach) (c : Nat) (x : Ctx), m.ctx? c = some x → ∀ id w, m.wave? id = some w → w.ctx = c →
        ∃ u, (m.unhold c).wave? id = some u ∧ u = { w with acc := u.acc } ∧ u.acc.length = w.acc.length
          ∧ ∀ (i : Nat) (a : Access), w.acc[i]? = some a → ∃ z : Access, u.acc[i]? = some z ∧ z = { a with held := z.held } ∧
            (z.held = true ↔ a.held = true ∧ ∃ l ∈ a.lanes, l.space = .global ∧ l.done = false ∧ ∃ p ∈ x.pending, p.page = pageOf (l.va % 2 ^ 57)))
    ∧ ∀ a n, let ok := a % 65536 = 0 ∧ canonical a = true ∧ 0 < n ∧ n ≤ 2 ^ 32
        (ok → rangeCover a n = some (.run (pageOf (a % 2 ^ 57)) n)) ∧ (¬ ok → rangeCover a n = none)

/-- R310 to R315, R329: counters, queue reset, and invalidations. Where the rules leave room, it follows the model's
own readings, log entries 38 and 39. -/
def Obligations.CountersAndInvalidations : Prop := Parts.CountersAndQueueReset ∧ Parts.Invalidations

/-- R31, R140, R188, R189, R209, R210, R297: transitions that no instruction asks for: a line of a wave's image is fetched, a
core's line goes home, a home line is written back, a fault record that waits is written, and a page moves to another
frame. Where the rules leave room, it follows the model's own readings, log entries 34 and 35. -/
def Obligations.HiddenTransitions : Prop :=
  ∀ (s : State),
    (∀ (id n : Nat) (w : Wave), s.m.wave? id = some w →
        let line := (w.image + 128 * n, 128)
        let room := (s.m.putWave id { w.takeLine n (s.m.rd line.1 128) with missing := w.missing.filter (· ≠ n) }).makeRoom w.core
        (s.m.resident w = true → n ∈ w.missing → s.m.poisonedRun line = false →
            exec (.regfileLineFetch id n) s = .next { s with m := { room with changes := room.changes + 1 } })
          ∧ (s.m.resident w = true → n ∈ w.missing → s.m.poisonedRun line = true →
            let r := contextReset s.mgmt s.m w.ctx 0x52 0
            exec (.regfileLineFetch id n) s = .next { s with m := { r with changes := r.changes + 1 } })
          ∧ ((s.m.resident w = false ∨ n ∉ w.missing) → exec (.regfileLineFetch id n) s = .next s))
      ∧ (∀ (core ctx line : Nat),
          let mine := fun (x : L1Line) => x.is core ctx line
          (s.m.l1.any mine = true → ∃ m, exec (.l1Writeback core ctx line) s = .next { s with m } ∧ m = { s.m.l1Drop mine with changes := (s.m.l1Drop mine).changes + 1 }
              ∧ m.l1.any mine = false)
            ∧ (s.m.l1.any mine = false → exec (.l1Writeback core ctx line) s = .next s))
      ∧ (∀ (line : Nat),
          let here := fun (x : L2Line) => x.line == line
          let pinned := ∃ p ∈ s.m.pins, p.line = line
          (∀ x, s.m.l2.find? here = some x → ∃ m, exec (.l2Writeback line) s = .next { s with m } ∧ m.mem = s.m.mem ∧ m.waves = s.m.waves
              ∧ (¬ pinned → m.l2 = s.m.l2.filter fun x => x.line ≠ line)
              ∧ (pinned → m.l2 = updFirst here (fun x => { x with dirty := false }) s.m.l2)
              ∧ ((x.dirty = false ∨ (x.comp = none ∧ s.m.attrOf x.line = none)) → m.ctags = s.m.ctags ∧ m.coded = s.m.coded)
              -- a chunk of a compressed page is coded again, where its coded form fits
              ∧ (∀ c ef tab y, x.dirty = true → x.comp = some (c, ef, tab) → s.m.ctx? c = some y →
                  match codeChunk y.tables ef tab (s.m.rd (2048 * (line / 16)) 2048) with
                  | some l => lookup m.coded (line / 16) = some l ∧ mget 0 m.ctags (line / 16) = BitVec.ofNat 8 (128 + ef * 32 + tab)
                  | none => lookup m.coded (line / 16) = none ∧ mget 0 m.ctags (line / 16) = 0))
            ∧ (s.m.l2.find? here = none → exec (.l2Writeback line) s = .next s))
      ∧ (∀ (ctx page : Nat),
          let m := s.m.faultWrite ctx page
          exec (.faultRecordWrite ctx page) s = if m.pendingOf ctx = s.m.pendingOf ctx then .next s else .next { s with m := { m with changes := m.changes + 1 } })
      ∧ ∀ (ctx page frame : Nat) (x : Ctx) (pa leaf level), s.m.ctx? ctx = some x → walk s.mgmt s.m x (page * 65536) {} = .ok pa leaf level →
          let n := 2 ^ levelShift level
          let old := pa - pa % n
          let legal := isMem old = true ∧ frame % n = 0 ∧ s.mgmt.owns x.part frame = true ∧ meets old n frame n = false
          let near := fun (p : Nat) => p / (n / 65536) == page / (n / 65536)
          let home := (s.m.l1Drop fun l => l.ctx == ctx && l.vpages.any near).rdcDrop fun l => l.ctx == ctx && l.vpages.any near
          let m := ((home.movePage old frame n).moveWaits ctx old frame n).wrN (leafEntry ((home.movePage old frame n).moveWaits ctx old frame n)
            (page * 65536) 4 0 x.ptroot) 8 (leaf.toNat % 65536 + frame)
          (¬ legal → exec (.pageMigration ctx page frame) s = .next s)
            ∧ (legal → exec (.pageMigration ctx page frame) s =
                if Config.migrationAbandoned s.m.tick = true then
                  .next { s with m := { s.m with abandoned := s.m.abandoned ++ [(ctx, page)], changes := s.m.changes + 1 } }
                else .next { s with m := { m with tlb := m.tlb.filter (fun t => !(t.ctx == ctx && near t.vpage)), changes := m.changes + 1 } })

/-! ## Submission and scheduling (spec/10_scheduling.md R277 to R290; spec/01_machine.md R32 to R38) -/

/-- R278 to R281: the doorbell is recorded when it lies ahead of the last one; each type of packet, once its queue's
descriptor, its header and its operands are legal and translate, moves the queue's index past it, and starts what it names.
A fault halts the queue with its code and leaves the index; a packet waits on an absent page. -/
def Parts.SubmissionPackets : Prop :=
  (∀ (s : State) (part vf n : Nat) (widx : W64) (id : Nat) (q : Queue),
    s.m.queues.find? (fun x => x.2.part == part && x.2.vf == vf && x.2.q == n) = some (id, q) →
      (ahead q.rung widx.toNat = 0 → exec (.doorbell part vf n widx) s = .next s)
        ∧ (ahead q.rung widx.toNat ≠ 0 → q.halted = true → ∃ m, exec (.doorbell part vf n widx) s = .next { s with m }
            ∧ m = { s.m with queues := upd s.m.queues id fun y => { y with rung := widx.toNat }, changes := s.m.changes + 1 })
        ∧ (ahead q.rung widx.toNat ≠ 0 → q.halted = false → ∀ x, s.m.ctx? q.ctx = some x →
            let ring := PkEnv.ring { g := s.mgmt, c := q.ctx, x } q
              { s.m with queues := upd s.m.queues id fun y => { y with rung := widx.toNat }, changes := s.m.changes + 1 }
            (∀ r m', ring = .ok r m' → exec (.doorbell part vf n widx) s = .next { s with m := { m' with changes := m'.changes + 1 } }
                ∧ lookup m'.queues id = (lookup s.m.queues id).map fun y => { y with rung := widx.toNat })
              ∧ ∀ code m', ring = .error (.err code) m' → let h := haltQueue s.mgmt m' id code q.ridx true
                exec (.doorbell part vf n widx) s = .next { s with m := { h with changes := m'.changes + 1 } }))
    -- a queue that halts: HALTED and the code, the packet's index, and an interrupt; nothing of it that runs is touched
    ∧ (∀ (g : Mgmt) (m : Mach) (id code idx : Nat) (q : Queue), lookup m.queues id = some q →
        let word := fun (m : Mach) (off n v : Nat) => (vwrite g m q.ctx (q.desc + off) (natBytes v n)).2
        let home := word (word m 0x20 4 (1 + 256 * code)) 0x28 8 idx
        let halted := { home with queues := upd home.queues id fun y => { y with halted := true } }
        haltQueue g m id code idx false = halted ∧ haltQueue g m id code idx true = halted.interrupt q.part q.vf irqQueue)
    -- the faults of a header and of a queue's descriptor
    ∧ (∀ (e : PkEnv) (q : Queue) (b : List Byte) (size : Nat) (m : Mach),
        let typ := natAt b 0 1
        let units := natAt b 2 2
        let ntask := natAt b 8 2
        let straddles := units ≠ 0 ∧ size < q.ridx % size + units
        let wrong := units = 0 ∨ 64 < units ∨ ((typ = 1 ∨ typ = 3 ∨ typ = 4 ∨ typ = 5) ∧ units ≠ 1)
          ∨ (typ = 2 ∧ (units ≠ 1 + ntask ∨ ntask = 0 ∨ 63 < ntask))
        let is := fun (c : Nat) => e.header q b size m = .error (.err c) m
        (5 < typ → is 1) ∧ (typ ≤ 5 → straddles → is 2) ∧ (typ ≤ 5 → ¬ straddles → wrong → is 3)
          ∧ (typ ≤ 5 → ¬ straddles → ¬ wrong → natAt b 1 1 / 2 ≠ 0 → is 4)
          ∧ (typ ≤ 5 → ¬ straddles → ¬ wrong → natAt b 1 1 / 2 = 0 → e.header q b size m = .ok () m))
    ∧ (∀ (e : PkEnv) (q : Queue) (d : List Byte) (m m' : Mach), e.read needR q.desc 64 8 m = .ok d m' →
        let reserved := natAt d 9 1 / 8 ≠ 0 ∨ zeroFrom d 0x0C 0x10 = false ∨ zeroFrom d 0x24 0x28 = false ∨ zeroFrom d 0x30 0x40 = false
        let logsz := natAt d 8 1
        let bad := logsz < 12 ∨ 24 < logsz ∨ natAt d 0 8 % 2 ^ logsz ≠ 0
        (reserved → e.ring q m = .error (.err 4) m') ∧ (¬ reserved → bad → e.ring q m = .error (.err 8) m')
          ∧ (¬ reserved → ¬ bad → e.ring q m = .ok (natAt d 0 8, logsz, natAt d 9 1 % 8) m'))
    -- an operand's address, and its translation
    ∧ (∀ (e : PkEnv) (need : Need) (kind : BitVec 5) (a n code al : Nat) (bad : Bool) (m m' : Mach),
        let pages := Machine.runs e.g e.c need (runFuel n) m (a % 2 ^ 64) n
        (∀ l, pages = (.ok l, m') → e.runs need kind a n code m = .ok l m')
          ∧ (∀ va lv, pages = (.error (va, .absent lv), m') → e.runs need kind a n code m = .error .wait (e.absent va lv kind m'))
          ∧ (∀ va b, pages = (.error (va, .perm b), m') → e.runs need kind a n code m = .error (.err code) m')
          ∧ e.check bad code m = (if bad = true then .error (.err code) m else .ok () m)
          ∧ e.addr a al m = if canonical a = true ∧ a % al = 0 then .ok () m else .error (.err 8) m)
    ∧ ∀ (s : State) (id : Nat) (q : Queue) (x : Ctx), lookup s.m.queues id = some q → s.m.ctx? q.ctx = some x →
        let e : PkEnv := { g := s.mgmt, c := q.ctx, x }
        let ready := q.halted = false ∧ q.wait = none ∧ ahead q.ridx q.rung ≠ 0 ∧ s.m.running x = true ∧ s.m.qrstWaits id q = false
        let packet := fun (i : Instr) (type : Nat) (body : PkEnv → PkIn → PkM Accepted) (left : Mach → Nat → Queue → Prop) =>
          let whole : PkM Nat := do
            let (ring, logsz, cls) ← e.ring q
            let size := 2 ^ (logsz - 6)
            let at_ := ring + 64 * (q.ridx % size)
            let bytes ← e.read needR at_ 64 8
            if natAt bytes 0 1 ≤ 5 ∧ natAt bytes 0 1 ≠ type then throw PStop.idle
            e.header q bytes size
            let units := natAt bytes 2 2
            if ahead q.ridx q.rung < units then throw PStop.wait
            if (natAt bytes 1 1 % 2 = 1 ∨ type = 5) ∧ q.started ≠ [] then throw PStop.wait
            let _ ← e.runs needW kindWrite (q.desc + 0x18) 8 8
            let r ← body e { id, q, cls, ring, at_, bytes, units }
            let started : List Pkt := match r.start with
              | some (kind, doneg) => [{ idx := q.ridx, kind, doneg }]
              | none => []
            modify fun m => { m with queues := upd m.queues id fun y =>
              { y with ridx := (q.ridx + units) % 2 ^ 64, wait := r.wait, started := y.started ++ started } }
            e.write (q.desc + 0x18) (natBytes ((q.ridx + units) % 2 ^ 64) 8) 8
            pure units
          (¬ ready → exec i s = .next s)
            ∧ (ready → ∀ units m, whole s.m = .ok units m → exec i s = .next { s with m := { m with changes := m.changes + 1 } }
                ∧ 0 < units ∧ units ≤ 64 ∧ units ≤ ahead q.ridx q.rung
                ∧ ∃ y, lookup m.queues id = some y ∧ y.ridx = (q.ridx + units) % 2 ^ 64 ∧ y.halted = false ∧ left m units y)
            -- a fault halts the queue at the packet; an absent page holds it there; poison resets the context
            ∧ (ready → ∀ m, (∀ code, whole s.m = .error (.err code) m → let h := haltQueue s.mgmt m id code q.ridx true
                  exec i s = .next { s with m := { h with changes := m.changes + 1 } })
                ∧ (whole s.m = .error .wait m → exec i s = .next { s with m })
                ∧ (whole s.m = .error .idle m → exec i s = .next s)
                ∧ (whole s.m = .error .poison m → let h := contextReset s.mgmt m q.ctx 0x52 0
                  exec i s = .next { s with m := { h with changes := m.changes + 1 } }))
        let none_ := fun (y : Queue) => y.started = q.started ∧ y.wait = none
        let word := fun (p : PkIn) (o : Nat) => natAt p.bytes o 8
        packet (.pad id) 0 (fun _ _ => pure {}) (fun _ _ y => none_ y)
          ∧ packet (.launch id) 1 (fun e p => do
              e.check (!zeroFrom p.bytes 0x18 0x40) 4
              e.addr (word p 8) 64
              e.addr (word p 0x10) 8
              e.doneg (word p 0x10)
              let l ← e.launch (word p 8) p.id p.q.ridx (word p 0x10) p.cls
              if l.nxf ≠ 0 then let _ ← e.xforms l
              let m ← get
              set { (m.dropData e.c).dropCode e.c with launches := put m.launches m.nextId l, nextId := m.nextId + 1 }
              pure { start := some (.launch m.nextId, word p 0x10) })
            (fun m _ y => y.wait = none ∧ ∃ k l doneg, y.started = q.started ++ [{ idx := q.ridx, kind := .launch k, doneg }]
              ∧ m.launch? k = some l ∧ l.queue = id ∧ l.pkt = q.ridx ∧ l.ctx = q.ctx ∧ l.begun = [] ∧ l.ended = 0)
          ∧ packet (.copy id) 3 (fun e p => do
              e.check (word p 0x18 = 0 || decide (2 ^ 40 < word p 0x18)) 3
              e.check (!zeroFrom p.bytes 0x28 0x40) 4
              e.addr (word p 8) 1
              e.addr (word p 0x10) 1
              e.addr (word p 0x20) 8
              e.doneg (word p 0x20)
              let m ← get
              set { m with
                ops := put m.ops m.nextId { ctx := e.c, block := 0, wave := 0, half := false, core := Config.cores, queue := false
                                            kind := .packet p.id p.q.ridx (word p 8) (word p 0x10) (word p 0x18), target := .none, seq := 0, due := 0 }
                nextId := m.nextId + 1 }
              pure { start := some (.copy m.nextId, word p 0x20) })
            (fun m _ y => y.wait = none ∧ ∃ k o doneg src dst len, y.started = q.started ++ [{ idx := q.ridx, kind := .copy k, doneg }]
              ∧ lookup m.ops k = some o ∧ o.kind = .packet id q.ridx src dst len ∧ 0 < len ∧ len ≤ 2 ^ 40)
          ∧ packet (.waitguard id) 4 (fun e p => do
              e.check (!zeroFrom p.bytes 0x18 0x40) 4
              e.addr (word p 8) 8
              e.guard (word p 8) needR
              pure { wait := some (word p 8, word p 0x10) })
            (fun _ _ y => y.started = q.started ∧ ∃ a v, y.wait = some (a, v) ∧ a % 8 = 0 ∧ canonical a = true)
          ∧ packet (.signal id) 5 (fun e p => do
              e.check (!zeroFrom p.bytes 0x10 0x40) 4
              e.addr (word p 8) 8
              e.bump (word p 8)
              pure {})
            (fun _ _ y => q.started = [] ∧ none_ y)
          ∧ packet (.taskset id) 2 (fun e p => do
              let b ← e.read needR p.at_ (64 * p.units) 8
              let task := fun (t o n : Nat) => natAt b (64 * (t + 1) + o) n
              let lanes := fun (t : Nat) => task t 0x38 8 / 256 % 128
              let ts := List.range (natAt b 8 2)
              e.check (natAt b 0x18 8 = 0 || decide (255 < natAt b 0x18 8) || ts.any fun t => decide (64 < lanes t)) 3
              e.check (!zeroFrom b 0x0A 0x10 || !zeroFrom b 0x28 0x40
                || ts.any fun t => task t 0x38 8 / 2 % 128 != 0 || task t 0x38 8 / 2 ^ 15 % 2 ^ 49 != 0) 4
              e.addr (natAt b 0x10 8) 16
              e.addr (natAt b 0x20 8) 8
              e.doneg (natAt b 0x20 8)
              ts.forM fun t => e.addr (task t 0 8) 64
              let sb ← e.read needR (natAt b 0x10 8) (16 * natAt b 0x18 8) 8
              let surfs := (List.range (natAt b 0x18 8)).map fun i => Surf.parse (bytesAt sb (16 * i) 16)
              e.check (!surfs.all Surf.ok) 7
              let tasks ← ts.mapM fun t => do
                let rects := (List.range 6).map fun i => Rect.parse (task t (8 + 8 * i) 8)
                let l ← e.launch (task t 0 8) p.id p.q.ridx 0 p.cls
                if l.nxf ≠ 0 then let _ ← e.xforms l
                e.check (!rects.all (fun r => r.ok surfs) || (writeTiles rects).eraseDups.length != (writeTiles rects).length || decide (l.vregs < 3)) 7
                pure ({ lrec := task t 0 8, proto := l, rects, pack := task t 0x38 1 % 2 == 1, lanes := lanes t } : Task)
              let home ← e.runs needR kindRead p.ring 8 8
              let m ← get
              set { (m.dropData e.c).dropCode e.c with
                tsets := put m.tsets m.nextId { ctx := e.c, queue := p.id, pkt := p.q.ridx, span := homeSpan ((home.head?.map fun (r : Nat × Nat) => r.1).getD 0), surfs, tasks }
                nextId := m.nextId + 1 }
              pure { start := some (.taskset m.nextId, natAt b 0x20 8) })
            (fun m units y => y.wait = none ∧ ∃ k z doneg, y.started = q.started ++ [{ idx := q.ridx, kind := .taskset k, doneg }]
              ∧ lookup m.tsets k = some z ∧ z.queue = id ∧ z.pkt = q.ridx ∧ z.tasks.length + 1 = units ∧ z.dead = false ∧ z.freed = false ∧ ∀ t ∈ z.tasks, t.state = .waiting)

/-- R279, R207, R198: a queue that waits on a guard goes on once the guard has reached its version; a launch is complete when
its last block has ended and nothing of it stands in an escrow log. -/
def Parts.WaitsAndCompletions : Prop :=
  (∀ (s : State) (id : Nat) (q : Queue) (x : Ctx) (a v : Nat) (bytes : List Byte) (m : Mach), lookup s.m.queues id = some q → s.m.ctx? q.ctx = some x →
    q.wait = some (a, v) → PkEnv.readAs { g := s.mgmt, c := q.ctx, x } needR kindAtomic a 8 8 s.m = .ok bytes m →
      (bytesNat bytes < v → exec (.waitguardRelease id) s = .next s)
        ∧ (v ≤ bytesNat bytes → exec (.waitguardRelease id) s = .next { s with m :=
            { (m.dropData q.ctx).dropCode q.ctx with
              queues := upd m.queues id fun y => { y with wait := none }
              changes := ((m.dropData q.ctx).dropCode q.ctx).changes + 1 } }))
    -- a packet is complete: the context's dirty data is home, the guard one higher, and the packet leaves its queue
    ∧ (∀ (e : PkEnv) (id idx doneg : Nat) (m : Mach),
        (doneg = 0 → e.finish id idx doneg m = .ok () ((m.dropData e.c).dropPkt id idx))
          ∧ (doneg ≠ 0 → ∀ m', e.bump doneg (m.dropData e.c) = .ok () m' → e.finish id idx doneg m = .ok () (m'.dropPkt id idx))
          ∧ (∀ m' pa, Machine.runs e.g e.c needRW (runFuel 8) m (doneg % 2 ^ 64) 8 = (.ok [(pa, 8)], m') → isMem pa = true → ∃ n, e.bump doneg m = .ok () n
              ∧ n.rdN pa 8 = (m'.rdN pa 8 + 1) % 2 ^ 64 ∧ ∀ x k, x + k ≤ pa ∨ pa + 8 ≤ x → n.rd x k = m'.rd x k))
    -- a COPY moves chunk by chunk, and a permission outcome halts its queue at the packet with error 10
    ∧ (∀ (s : State) (id : Nat) (o : EngOp) (x : Ctx) (q pkt src dst len : Nat), lookup s.m.ops id = some o → s.m.ctx? o.ctx = some x →
        o.kind = .packet q pkt src dst len → 0 < len →
        let e : PkEnv := { g := s.mgmt, c := o.ctx, x }
        let off := 4096 * o.chunk
        let n := Min.min 4096 (len - off)
        let chunk : PkM Unit := do
          let rd ← e.runs needR kindEngine (src + off) n 10
          let wr ← e.runs needW kindEngine (dst + off) n 10
          let m ← get
          if m.poisonedRuns rd = true then throw PStop.poison
          let r := m.engineRead o.core o.ctx rd
          set ((r.2.engineWrite o.core o.ctx wr r.1).updOp id fun o => { o with started := true, chunk := o.chunk + 1 })
        let ends : PkM Unit := do
          let m ← get
          e.finish q pkt (match lookup m.queues q with | some y => ((y.started.find? fun p => p.idx == pkt).map (·.doneg)).getD 0 | none => 0)
          modify fun m => { m with ops := del m.ops id }
        let whole : PkM Unit := if len ≤ off then ends else if len ≤ off + 4096 then do chunk; ends else chunk
        (s.m.running x = false → exec (.engineChunk id) s = .next s)
          ∧ (s.m.running x = true → ∀ m, (whole s.m = .ok () m → exec (.engineChunk id) s = .next { s with m := { m with changes := m.changes + 1 } })
            ∧ (whole s.m = .error .wait m → exec (.engineChunk id) s = .next { s with m })
            ∧ ∀ code, whole s.m = .error (.err code) m → let h := haltQueue s.mgmt (Mach.dropPkt { m with ops := del m.ops id } q pkt) q 10 pkt true
              exec (.engineChunk id) s = .next { s with m := { h with changes := m.changes + 1 } }))
    ∧ ∀ (s : State) (id : Nat) (l : Launch) (x : Ctx), s.m.launch? id = some l → s.m.ctx? l.ctx = some x →
        let done := l.ended = l.blocks ∧ ∀ y ∈ s.m.escrow, y.launch ≠ id ∧ some y.launch ≠ l.lead
        let becomes := fun (m : Mach) => ({ s with m } : State)
        let drop := fun (m : Mach) => { m with launches := del m.launches id, changes := m.changes + 1 }
        (¬ done → exec (.launchComplete id) s = .next s)
          ∧ (done → l.task = none → ∀ m, PkEnv.finish { g := s.mgmt, c := l.ctx, x } l.queue l.pkt l.doneg s.m = .ok () m →
              exec (.launchComplete id) s = .next { s with m := drop m })
          ∧ (done → ∀ ts t, l.task = some (ts, t) → exec (.launchComplete id) s = .next (becomes (drop
              { s.m.dropData l.ctx with
                tsets := upd (s.m.dropData l.ctx).tsets ts fun y => { y with tasks := y.tasks.modify t fun k => { k with launch := none } } })))

/-- R198, R207, R277 to R281: packets of a submission queue, its waits, and the completion of launches. Where the
rules leave room, it follows the model's own readings, log entries 36 and 50. -/
def Obligations.PacketsAndCompletions : Prop := Parts.SubmissionPackets ∧ Parts.WaitsAndCompletions

/-- R282 to R285, R298: a taskset's tasks are admitted in order, each into a free entry of its span's clearing table, with the
pending tasks that its tiles depend on; a task starts once they have retired, and the last one that retires has the tiles
copied back and completes the packet. A permission outcome halts the queue, and no other task of the packet starts.
Where the rules leave room, it follows the model's own readings, log entry 14. -/
def Obligations.Tasksets : Prop :=
  (∀ (s : State) (id : Nat) (y : TaskSet) (x : Ctx), lookup s.m.tsets id = some y → s.m.ctx? y.ctx = some x →
    let waiting := y.tasks.findIdx? (fun k => k.state == .waiting)
    let entry := firstFree (s.m.entries y.span) 4096
    let e : PkEnv := { g := s.mgmt, c := y.ctx, x }
    let run := fun (i : Instr) (body : PkM Unit) (after : Mach → Mach) => ∀ m,
      (body s.m = .ok () m → exec i s = .next { s with m := after { m with changes := m.changes + 1 } })
        ∧ (body s.m = .error .wait m → exec i s = .next { s with m := after m })
        ∧ ∀ code, body s.m = .error (.err code) m → let h := haltTasks s.mgmt id y code m
          exec i s = .next { s with m := after { h with changes := m.changes + 1 } }
    ((waiting = none ∨ entry = none ∨ s.m.running x = false ∨ y.dead = true) → exec (.taskAdmit id) s = .next s)
      ∧ (∀ n, entry = some n → n < 4096 ∧ ∀ j z, lookup s.m.tsets j = some z → z.span = y.span → z.freed = false → ∀ k ∈ z.tasks, k.state ≠ .waiting → k.entry ≠ n)
      ∧ (s.m.running x = true → y.dead = false → ∀ t n k, waiting = some t → entry = some n → y.tasks[t]? = some k →
          (s.m.admitTask y x (id, t) n k = none → exec (.taskAdmit id) s = .next s)
            ∧ ∀ m, s.m.admitTask y x (id, t) n k = some m → exec (.taskAdmit id) s = .next { s with m })
      ∧ (∀ t k, y.tasks[t]? = some k → (y.dead = true ∨ k.state ≠ .admitted ∨ k.preds ≠ [] ∨ s.m.running x = false) → exec (.taskStart id t) s = .next s)
      ∧ (∀ t k, y.tasks[t]? = some k → y.dead = false → k.state = .admitted → k.preds = [] → s.m.running x = true → run (.taskStart id t) (do
          modify fun m => (m.dropData y.ctx).dropCode y.ctx
          k.copies.forM fun c => e.copyTile c.1 c.2.1 c.2.2
          e.writeTcb t k
          modify fun m => { m.updTask (id, t) (fun k => { k with state := .started, copies := [], launch := some m.nextId }) with
            launches := put m.launches m.nextId { k.proto with task := some (id, t) }
            nextId := m.nextId + 1 }) fun m => m)
      ∧ ∀ t k, y.tasks[t]? = some k →
          let ends := k.state = .started ∧ k.launch = none
          let done := ∀ j z, y.tasks[j]? = some z → z.state = .retired ∨ (ends ∧ j = t)
          let retire := fun (m : Mach) => (m.retireTask (id, t)).freePool y.ctx
          (¬ ends → ¬ done → exec (.taskRetire id t) s = .next s)
            ∧ (ends → (¬ done ∨ y.dead = true) → exec (.taskRetire id t) s = .next { s with m := Mach.endDead { retire s.m with changes := (retire s.m).changes + 1 } id })
            ∧ (done → y.dead = false → run (.taskRetire id t) (do
                if ends then modify retire
                if y.freed = false then
                  let m ← get
                  (m.tiles.filter fun v => v.pooled && (match v.writer with | some w => w.1 == id | none => false)).forM (e.copyBack y)
                  modify fun m => (m.updTset id (fun z => { z with freed := true })).freePool y.ctx
                let m ← get
                e.finish y.queue y.pkt (match lookup m.queues y.queue with
                  | some q => ((q.started.find? fun p => p.idx == y.pkt).map (·.doneg)).getD 0
                  | none => 0)
                modify fun m => { m with tsets := del m.tsets id, tiles := m.tiles.filter fun v =>
                  v.pooled || v.readers.any m.pendingTask || (match v.writer with | some w => m.pendingTask w | none => false) }) fun m => m.endDead id))
    -- a task that retires leaves no dependence on it
    ∧ (∀ (m : Mach) (t u : Nat × Nat) (k : Task), m.task? u = some k →
        (m.retireTask t).task? u = some { k with preds := k.preds.filter (· ≠ t), state := if u = t then .retired else k.state })
    -- the dependences that admission makes
    ∧ ∀ (m m' : Mach) (y : TaskSet) (x : Ctx) (ts t n : Nat) (k : Task), lookup m.tsets ts = some y → y.tasks[t]? = some k →
        (m.admitTask y x (ts, t) n k = none → ∃ u v, m.task? u = some v ∧ 192 ≤ v.succs.length)
          ∧ (m.admitTask y x (ts, t) n k = some m' →
        ∃ k', m'.task? (ts, t) = some k' ∧ k'.state = .admitted ∧ k'.entry = n ∧ k'.maps.length = 6
          ∧ (∀ c, c ∈ readTiles k.rects ∨ c ∈ writeTiles k.rects → ∀ u, (y.tile m.tiles c).writer = some u → m.pendingTask u = true → u ≠ (ts, t) → u ∈ k'.preds)
          -- a tile that pending tasks still read is written in a fresh pool tile, or after them
          ∧ (∀ c ∈ writeTiles k.rects, ∀ u ∈ (y.tile m.tiles c).readers, u ≠ (ts, t) → m.pendingTask u = true →
              u ∈ k'.preds ∨ ∃ p b, ((y.tile m.tiles c).cur, p, b) ∈ k'.copies)
          ∧ (∀ c ∈ k'.copies, x.rpbase ≤ c.2.1 ∧ c.2.1 + c.2.2 ≤ x.rpbase + x.rpsize ∧ ∀ u ∈ x.pool, meets c.2.1 c.2.2 u.1 u.2 = false)
          ∧ (∀ u ∈ k'.preds, ∀ v, m.task? u = some v → v.succs.length < 192 ∧ (u ≠ (ts, t) → ∃ v', m'.task? u = some v' ∧ v' = { v with succs := v.succs ++ [(ts, t)] }))
          ∧ ∀ u, u ∉ k'.preds → u ≠ (ts, t) → m'.task? u = m.task? u)

/-- R35, R286 to R288: a bind record that becomes valid starts the block that it names on its core, when everything that the
block needs is free there, with one wave in each of its slots; a record that names none, or not its slots, is refused.
Small tasks take lane ranges of one wave. A block resumes with the waves and the state that its image holds. What stands
for WAVES of a block with a parked parent, and a block whose transform fails, are the model's choices
(notes/assumptions/12.md, notes/assumptions/65.md). -/
def Parts.BlockPlacement : Prop :=
  (∀ (s : State) (core idx part : Nat) (r : BindRec) (x : Ctx), core < Config.cores → idx < 64 → s.mgmt.partOf core = some part →
    s.m.ctx? (ctxKey part r.ctxid) = some x →
    let c := ctxKey part r.ctxid
    let goes := fun (m : Mach) => exec (.bindRecordValid core idx r) s = .next { s with m }
    let n := s.m.clearRec core idx
    let refused := n.refuseRec core idx c r
    let entry := fun (y : Mach) (valid : Bool) (state : BitVec 2) (block : Option Nat) =>
      y.recAt core idx = some { core, idx, part := x.part, vf := x.vf, br := r, valid, state, block }
    (s.m.duty c = false → goes s.m)
      ∧ (s.m.duty c = true →
        let free := n.placeFree core idx = true
        (entry refused true 3 none ∧ { refused with slotTab := n.slotTab } = n)
          ∧ (∀ y, s.m.recAt core idx = some y → n.recAt core idx = some (if y.state = 2 then { y with valid := false } else y))
          ∧ (r.resume = false → n.launchFor c r = none → goes (if n.placeFree core idx then refused else n))
          ∧ (∀ id l, r.resume = false → n.launchFor c r = some (id, l) → (id, l) ∈ s.m.launches ∧ l.ctx = c ∧ l.lrec = r.lrec ∧ l.task.isSome = r.task
              ∧ l.waves = r.waves ∧ r.blockid < l.blocks ∧ r.blockid ∉ l.begun)
          ∧ (∀ id l, r.resume = false → n.launchFor c r = some (id, l) → n.smallTask l = none → ¬ free → goes n)
          ∧ (∀ id l, r.resume = false → n.launchFor c r = some (id, l) → n.smallTask l = none → free →
              (slotMasks r.slots l.width = none → goes refused)
                ∧ ∀ slots, slotMasks r.slots l.width = some slots →
                  (slots.length ≠ hwWaves l.width l.waves → goes refused)
                  ∧ (slots.length = hwWaves l.width l.waves →
                      let lines := slots.length * (startWave l id c 0 0 0 0 0 0).lines
                      let room := Mach.room s.mgmt n core c x l r.slots lines = true ∧ n.lineWaiters core = []
                        ∧ imageFree s.mgmt n c x r.bimg (l.imageBytes slots.length) = true
                      let fresh : Block := { ctx := c, launch := id, core, idx, blockid := r.blockid, serial := n.nextId, image := r.bimg, debug := n.debugRecord x }
                      let engine := PkEnv.prologue { g := s.mgmt, c, x } l r.blockid fresh n
                      (¬ room → goes n)
                        ∧ (room → ∀ b fl m, engine = .ok (b, fl) m →
                            ∃ m', goes m' ∧ m'.block? n.nextId = some b ∧ entry m' true 1 (some n.nextId)
                              ∧ (∀ y, m.launch? id = some y → m'.launch? id = some { y with begun := r.blockid :: l.begun, flags := y.flags ||| fl })
                              ∧ ∀ k < slots.length, ∃ w, m'.wave? (n.nextId + 1 + k) = some w ∧ w.block = n.nextId ∧ w.core = core
                                ∧ w.slots = slots.getD k 0 ∧ w.pc = w64 (l.code + 8 * l.entry) ∧ w.width = l.width ∧ w.stack = [])
                        ∧ (room → ∀ code m, engine = .error (.err code) m → ∃ m', goes m' ∧ entry m' true 2 none ∧ m'.waves = m.waves ∧ m'.blocks = m.blocks
                            ∧ (∀ q, lookup m.queues l.queue = some q → ∃ q', lookup m'.queues l.queue = some q' ∧ q'.halted = true)
                            ∧ ∀ y, m.launch? id = some y → m'.launch? id = some { y with begun := r.blockid :: y.begun, ended := y.ended + 1 })
                        ∧ (room → ∀ m, engine = .error .poison m → goes { contextReset s.mgmt m c 0x52 0 with changes := m.changes + 1 })
                        ∧ (room → ∀ m, engine = .error .wait m → goes m)))
          -- small tasks
          ∧ (∀ id l k, r.resume = false → n.launchFor c r = some (id, l) → n.smallTask l = some k →
              (∀ y, n.recAt core idx = some y → y.state = 1 → goes n)
                ∧ ((∀ y, n.recAt core idx = some y → y.state ≠ 1) →
                  let one := (slotMasks r.slots l.width).map List.length = some 1
                  let f : Forming := (n.formingAt core idx).getD { core, idx, ctx := c, tasks := [] }
                  (¬ one → goes refused)
                    ∧ (one → n.joinAt f l k.2.2 = none → goes n)
                    ∧ (one → ∀ a, n.joinAt f l k.2.2 = some a → (∀ g ∈ n.forming, g.core = core → g.idx = idx → n.duty g.ctx = true → g.ctx = c) →
                        let f' : Forming := { f with tasks := f.tasks ++ [{ ts := k.1, t := k.2.1, at_ := a, lanes := k.2.2 }] }
                        ∃ m, m.formingAt core idx = some f' ∧ (n.formingAt core idx = none → entry m true 0 none)
                          ∧ goes (if l.width.lanes ≤ f'.top then startPacked s.mgmt m f' else m))))
          -- resumption
          ∧ (r.resume = true → ¬ free → goes n)
          ∧ (r.resume = true → free → (∀ b ∈ n.blocks, ¬ (b.2.ctx = c ∧ b.2.state = .preempted ∧ b.2.image = r.bimg ∧ b.2.blockid = r.blockid)) → goes refused)
          ∧ (r.resume = true → free → ∀ id b l,
              n.blocks.find? (fun b => b.2.ctx == c && b.2.state == .preempted && b.2.image == r.bimg && b.2.blockid == r.blockid) = some (id, b) →
              n.block? id = some b → n.launch? b.launch = some l →
              let mine := n.waves.filter fun w => w.2.block == id && !(n.spawnq.any fun k => k.parent == some w.1)
              let room := Mach.room s.mgmt n core c x l r.slots (mine.foldl (fun n w => n + w.2.lines) 0) = true
                ∧ ∀ w ∈ mine, n.firstInLine core w.1 w.2.born = true
              let fits := fun (slots : List W64) => slots.length = hwWaves l.width r.waves ∧ slots.length = mine.length ∧ l.task.isSome = r.task
              (slotMasks r.slots l.width = none → goes refused)
                ∧ ∀ slots, slotMasks r.slots l.width = some slots →
                  (¬ fits slots → goes refused) ∧ (fits slots → ¬ room → goes n)
                  ∧ (fits slots → room → (mine.map (·.1)).Nodup →
                    ∃ m' b', goes m' ∧ m'.block? id = some b' ∧ b'.state = .running ∧ b'.core = core ∧ b'.idx = idx ∧ entry m' true 1 (some id)
                      ∧ (∀ y ∈ m'.l1, y.ctx = c → y.core ≠ core ∧ y.core ≠ b.core)
                      ∧ (core ≠ b.core → ∀ y ∈ m'.rdc, y.ctx = c → y.span ≠ spanOfCore core)
                      ∧ (∀ k w, mine[k]? = some w → (∀ v, n.wave? w.1 = some v → v = w.2) → ∃ v, m'.wave? w.1 = some v ∧ v.core = core
                          ∧ v.slots = slots.getD k 0 ∧ v.parked = false ∧ v.hold = w.2.hold.stopped)
                      -- what its image holds, when the block and its waves stay on their core and no store of the context waits in an L1
                      ∧ (core = b.core → (∀ w ∈ mine, w.2.core = core) → (∀ y ∈ n.l1, y.ctx = c → y.dirty = 0) →
                          let bars := b.image + 128
                          let spad := bars + 128 * ceilDiv l.bars 4
                          b'.claimed = BitVec.ofNat 48 (s.m.rdN (b.image + 24) 8) ∧ b'.wsrc = w64 (s.m.rdN (b.image + 32) 8) &&& wsrcBits
                            ∧ (∀ i < l.bars, b'.bar i = Bar.ofBytes (s.m.rd (bars + 32 * i) 32)) ∧ b'.rdSpad 0 l.spad = s.m.rd spad l.spad)))))
    -- the lanes of small tasks, and the wave that they fill
    ∧ (∀ (m : Mach) (f : Forming) (l : Launch) (n a : Nat), m.joinAt f l n = some a →
        a % pow2Up n = 0 ∧ a + pow2Up n ≤ l.width.lanes ∧ (∀ p ∈ f.tasks, p.at_ + pow2Up p.lanes ≤ a)
          ∧ ∀ p ∈ f.tasks, ∀ i y, m.placedLaunch p = some (i, y) → y.code = l.code ∧ y.entry = l.entry ∧ y.args = l.args ∧ y.lrec = l.lrec ∧ y.cls = l.cls)
    ∧ (∀ n ≤ 64, n ≤ pow2Up n ∧ (1 < n → pow2Up n < 2 * n) ∧ ∃ j, pow2Up n = 2 ^ j)
    ∧ (∀ (f : Forming) (i : Nat), i < 64 → (bit f.lanes i = true ↔ ∃ p ∈ f.tasks, p.at_ ≤ i ∧ i < p.at_ + p.lanes))
    ∧ ∀ (m : Mach) (l : Launch) (t : Nat × Nat × Nat), m.smallTask l = some t → l.task = some (t.1, t.2.1) ∧ 1 ≤ t.2.2 ∧ 2 * t.2.2 ≤ l.width.lanes
        ∧ l.spad = 0 ∧ l.bars = 0 ∧ l.oms = 0

/-- R286, R142, R215: what the prologue engine places in a block's scratchpad. A record that does not stand, or a source that
cannot be read, is error 6. -/
def Parts.PrologueTransforms : Prop :=
  -- the elements of a row, by KIND
  (∀ (x : Xform) (tables : List Host.Cell) (row : List Byte),
      let els := fun (f : Nat → Nat) (fl : Flags) => x.elements tables row = some ((List.range x.cols).map f, fl)
      let size := (xfSize x.sfmt).getD 1
      let converted := fun c => convertOne .near false (cvtDstOf x.dfmt) (cvtSrcOf x.sfmt) (natAt row (c * size) size)
      let group := fun (c : Nat) => 20 * (c / 32)
      (x.kind = 0 ∨ x.kind = 3 ∨ x.kind = 5 → els (fun c => natAt row (c * x.esize) x.esize) 0)
        ∧ (x.kind = 1 → els (fun c => (converted c).1) ((List.range x.cols).foldl (fun f c => f ||| (converted c).2) 0))
        ∧ (x.kind = 2 → ∃ fl, els (fun c => (q4Weight (natAt row (group c + 16) 2) (fld (natAt row (group c + c % 32 / 2) 1) (4 * (c % 2)) 4)
            (fld (natAt row (group c + 18) 1) 0 4)).1) fl))
    -- the checks of a record
    ∧ (∀ (x : Xform) (spad : Nat) (tables : List Host.Cell), x.ok spad tables = true →
        1 ≤ x.rows ∧ x.rows ≤ 65535 ∧ 1 ≤ x.cols ∧ x.cols ≤ 65535 ∧ (x.mode ≠ 0 → x.base % 128 = 0) ∧ (x.kind = 5 → x.idx % 4 = 0)
          ∧ (x.kind = 0 ∨ x.kind = 3 ∨ x.kind = 5 ∨ x.kind = 4 → x.sfmt = x.dfmt) ∧ (x.kind = 2 → x.sfmt = 8 ∧ x.dfmt = 3) ∧ x.kind ≤ 5
          ∧ (x.mode = 0 → x.kind ≠ 3 → x.base + (x.rows - 1) * x.s1 + x.cols * x.esize ≤ spad)
          ∧ (x.mode = 0 → x.kind = 3 → x.base + (x.cols - 1) * x.s1 + x.rows * x.esize ≤ spad))
    ∧ (∀ (e : PkEnv) (l : Launch) (id : Nat) (b : Block) (m : Mach),
        (l.nxf = 0 → e.prologue l id b m = .ok (b, 0) m)
          ∧ ∀ bytes m', l.nxf ≠ 0 → e.read needR l.xform (64 * l.nxf) 8 m = .ok bytes m' →
              (∃ i < l.nxf, (Xform.parse (bytesAt bytes (64 * i) 64)).ok l.spad e.x.tables = false) → e.prologue l id b m = .error (.err 6) m')
    -- one row, whose source address is the record's, stepped by the block
    ∧ ∀ (e : PkEnv) (x : Xform) (id : Nat) (b : Block) (m m' : Mach) (row : List Byte), x.rows = 1 → x.handle = false → x.kind ≠ 5 →
        e.readRow x b.core (addr64 ((x.src : Int) + (id : Int) * x.bstr)) m = .ok row m' →
          (x.elements e.x.tables row = none → e.runXform x id b m = .error (.err 6) m')
            ∧ ∀ els fl, x.elements e.x.tables row = some (els, fl) → ∃ b', e.runXform x id b m = .ok (b', fl) m' ∧ b'.om = b.om ∧ b'.bars = b.bars
                ∧ (x.kind ≠ 3 → x.mode = 0 →
                    (∀ c v, els[c]? = some v → b'.rdSpad (x.base + c * x.esize) x.esize = natBytes v x.esize)
                      ∧ ∀ a, a < x.base ∨ x.base + els.length * x.esize ≤ a → b'.rdSpad a 1 = b.rdSpad a 1)

/-- R35, R286 to R288: bind records, and the transforms that run before a block. Where the rules leave room, it
follows the model's own readings, log entries 12 and 44. -/
def Obligations.BlockPlacement : Prop := Parts.BlockPlacement ∧ Parts.PrologueTransforms

/-- R32, R33, R288, R290, R305, R306, R330: a wave that forms starts as it is; a block that has drained is pre-empted, and its
image holds its state; a slice ends, and the partition's next function runs; a class is idle when nothing of it is
outstanding. -/
def Parts.PreemptionAndSlices : Prop :=
  (∀ (s : State),
    (∀ core idx,
        (s.m.formingAt core idx = none → exec (.packedWaveStart core idx) s = .next s)
          ∧ ∀ f, s.m.formingAt core idx = some f → exec (.packedWaveStart core idx) s = .next { s with m := startPacked s.mgmt s.m f })
      ∧ (∀ id b x, s.m.block? id = some b → s.m.ctx? b.ctx = some x →
          let q := { s.m.quiesce s.mgmt [id] true with changes := s.m.changes + 1 }
          ((b.state ≠ .running ∨ s.m.running x = false) → exec (.blockPreempt id) s = .next s)
            ∧ (b.state = .running → s.m.running x = true → q.block? id = none → exec (.blockPreempt id) s = .next { s with m := q })
            ∧ (b.state = .running → s.m.running x = true → ∀ b', q.block? id = some b' →
                ((∃ w ∈ q.waves, w.2.block = id ∧ w.2.acc ≠ []) → exec (.blockPreempt id) s = .next { s with m := q })
                ∧ ((∀ w ∈ q.waves, w.2.block = id → w.2.acc = []) → ∃ m, exec (.blockPreempt id) s = .next { s with m }
                    ∧ m.block? id = some { b' with state := .preempted, omTags := [] }
                    ∧ (∀ y ∈ m.slotTab, y.block ≠ some id)
                    ∧ (∀ y ∈ m.l1, ¬ (y.ctx = b.ctx ∧ y.core = b.core))
                    -- the register file keeps its lines, as those of a wave that is not resident
                    ∧ (∀ i w, q.wave? i = some w → w.block = id → ∃ v, m.wave? i = some v ∧ v.v = w.v ∧ v.missing = w.missing ∧ v.pc = w.pc)
                    ∧ ∀ l, q.launch? b'.launch = some l → m.rd b'.image (q.blockBytes id b' l).length = q.blockBytes id b' l)))
      ∧ (∀ part,
          let p := s.m.part part
          let bids := (s.m.blocks.filter fun (b : Nat × Block) => (s.m.ctxsOf part p.running).contains b.2.ctx && b.2.state == .running).map (·.1)
          let q := s.m.quiesce s.mgmt bids false
          (((s.mgmt.entry part).nvf ≤ 1 ∨ p.halted = true) → exec (.timeSliceEnd part) s = .next s)
            ∧ (part < 8 → 1 < (s.mgmt.entry part).nvf → p.halted = false →
                ∃ m, exec (.timeSliceEnd part) s = .next { s with m } ∧ (m.part part).halted = true ∧ (m.part part).running = p.running
                  ∧ m.blocks = q.blocks ∧ m.mem = q.mem
                  ∧ ∀ i w, q.wave? i = some w → m.wave? i = some (if w.block ∈ bids ∧ w.parked = false then { w with hold := w.hold.stopped } else w))
            ∧ ∀ vf, ((p.halted = false ∨ vf ≠ s.m.nextVf s.mgmt part) → exec (.worldSwitch part vf) s = .next s)
              ∧ (part < 8 → p.halted = true → vf = s.m.nextVf s.mgmt part → ∃ m, exec (.worldSwitch part vf) s = .next { s with m }
                  ∧ (m.part part).running = vf ∧ (m.part part).halted = false
                  -- what R306 saves and restores stands as it was
                  ∧ m.waves = s.m.waves ∧ m.blocks = s.m.blocks ∧ m.escrow = s.m.escrow ∧ m.ops = s.m.ops ∧ m.spawnq = s.m.spawnq
                  ∧ m.slotTab = s.m.slotTab ∧ m.forming = s.m.forming ∧ m.ctxs = s.m.ctxs ∧ m.tlb = s.m.tlb ∧ m.hcache = s.m.hcache
                  ∧ (vf ≠ p.running → (∀ l ∈ m.l1, l.ctx ∉ s.m.ctxsOf part p.running) ∧ (∀ l ∈ m.rdc, l.ctx ∉ s.m.ctxsOf part p.running)
                      ∧ (∀ l ∈ m.icache, l.ctx ∉ s.m.ctxsOf part p.running) ∧ (∀ l ∈ m.maps, l.ctx ∉ s.m.ctxsOf part p.running)
                      ∧ (∀ l ∈ m.latch, l.1 ∉ s.mgmt.coresOf part)
                      ∧ (∀ l ∈ s.m.l1, l.ctx ∉ s.m.ctxsOf part p.running → l ∈ m.l1)
                      -- dirty bytes go home: the last of the lines that hold a byte decides it
                      ∧ ∀ l o, l ∈ s.m.l1 → o < 128 → l.dirty.getLsbD o = true → l.ctx ∈ s.m.ctxsOf part p.running →
                          (∀ l' ∈ s.m.l1, l'.line = l.line → l' = l) → (s.m.l1.filter fun l' => l'.line == l.line).length = 1 →
                          mget memDefault m.mem (l.line * 128 + o) = lineByte l.data o)))
      ∧ ∀ part cls, part < 8 → cls < 8 → ∃ m, exec (.qclassIdle part cls) s = .next { s with m }
          ∧ ∀ p, (m.part p).idle = if p = part then (s.m.part p).idle &&& ~~~(1#8 <<< cls) ||| (if s.m.classBusy part cls then 0 else 1#8 <<< cls) else (s.m.part p).idle)
    -- the function that runs next: the first with work, in ascending order round, or the same again
    ∧ (∀ (g : Mgmt) (m : Mach) (part : Nat),
        let now := (m.part part).running
        let n := (g.entry part).nvf
        (∀ i < n, m.hasWork part ((now + 1 + i) % n) = true → (∀ j < i, m.hasWork part ((now + 1 + j) % n) = false) → m.nextVf g part = (now + 1 + i) % n)
          ∧ ((∀ v < n, m.hasWork part v = false) → m.nextVf g part = now))
    -- what a halt does with a wait: a `gwait` is judged again as one that was stopped (R255), the others are issued again
    ∧ (∀ k l st, Hold.stopped (.wait k (.gwait l st)) = .wait k (.gwait l true))
    ∧ (∀ k l, Hold.stopped (.wait k (.bar l)) = .none)
    -- the wave that small tasks fill (R288, R285)
    ∧ ∀ (g : Mgmt) (m m1 : Mach) (f : Forming) (r : SlotRec) (lid : Nat) (l : Launch) (rest : List (Nat × Launch)) (x : Ctx) (b : Block) (fl : Flags),
        m.recAt f.core f.idx = some r → f.tasks.filterMap m.placedLaunch = (lid, l) :: rest → m.ctx? l.ctx = some x →
        (∀ p ∈ f.tasks, p.at_ + p.lanes ≤ l.width.lanes) →
        let lines := (startWave l lid l.ctx 0 0 0 0 0 0).lines
        let room := Mach.room g m f.core l.ctx x l r.br.slots lines = true ∧ m.lineWaiters f.core = []
          ∧ imageFree g m l.ctx x r.br.bimg (l.imageBytes 1) = true
        let fresh : Block := { ctx := l.ctx, launch := lid, core := f.core, idx := f.idx, blockid := 0, serial := m.nextId, image := r.br.bimg
                               debug := m.debugRecord x, packed := rest.map (·.1) }
        (¬ room → startPacked g m f = m)
          ∧ (room → PkEnv.prologue { g, c := l.ctx, x } l 0 fresh m = .ok (b, fl) m1 →
              let t := startPacked g m f
              t.block? m.nextId = some b ∧ (∀ y ∈ t.forming, ¬ (y.core = f.core ∧ y.idx = f.idx ∧ y.ctx = f.ctx))
                ∧ (∀ y ∈ rest, y.1 ≠ lid → ∀ z, m1.launch? y.1 = some z → t.launch? y.1 = some { z with begun := [0], lead := some lid })
                ∧ ∃ w, t.wave? (m.nextId + 1) = some w ∧ w.block = m.nextId ∧ w.core = f.core ∧ w.slots = r.br.slots ∧ w.pc = w64 (l.code + 8 * l.entry)
                  ∧ w.lo.exec = f.lanes ∧ w.lo.ended = ones l.width.lanes &&& ~~~f.lanes
                  ∧ ∀ k p i tcb, f.tasks[k]? = some p → i < p.lanes → (m.placedLaunch p).bind (fun y => m.tcbOf x y.2) = some tcb →
                      (∀ (j : Nat) (p' : Placed), k < j → f.tasks[j]? = some p' → p.at_ + p.lanes ≤ p'.at_) →
                      w.getV false 0 (p.at_ + i) = BitVec.ofNat 32 tcb ∧ w.getV false 1 (p.at_ + i) = BitVec.ofNat 32 (tcb / 2 ^ 32)
                        ∧ w.getV false 2 (p.at_ + i) = BitVec.ofNat 32 i)

/-- R193, R229, R247, R274, R289: which ready wave of an issue partition goes next; a write of a guard word that meets a wait
ends it, whatever the word holds afterwards; `resume_path` goes on for a wave that it holds. Which partition goes first is
the model's choice (notes/assumptions/7.md). -/
def Parts.IssueOrder : Prop :=
  (∀ (l : List (Nat × Wave)) (w : Nat × Wave), pickWave l = some w → w ∈ l ∧
      let turn := fun (w : Nat × Wave) => w.2.yielded = false ∨ ∀ v ∈ l, v.1 = w.1 ∨ v.2.passed < w.2.passed
      ((∃ v ∈ l, turn v) → turn w) ∧ (∀ v ∈ l, turn v → 64 ≤ v.2.passed → 64 ≤ w.2.passed)
        ∧ ∀ v ∈ l, turn v → (64 ≤ v.2.passed ↔ 64 ≤ w.2.passed) → w.2.resident ≤ v.2.resident)
    ∧ (∀ l : List (Nat × Wave), l ≠ [] → ∃ w, pickWave l = some w)
    ∧ (∀ (s : State) (id : Nat) (others : List Nat), s.nextWave = some (id, others) →
        ∃ w, (id, w) ∈ s.m.waves ∧ s.m.resident w = true ∧ s.m.holdOver id w = true ∧ s.m.lacking s.mgmt id w = [] ∧ id ∉ others)
    ∧ (∀ (m : Mach) (id k : Nat) (w : Wave) (l : List (Nat × Nat)) (b : Bool), m.wave? id = some w → w.hold = .wait k (.gwait l b) →
        m.wakeWaiters.wave? id = some { w with hold := .wait k (.gwait (l.filter fun x => decide (m.rdN x.1 8 < x.2)) b) })
    ∧ (∀ (m : Mach) (id k : Nat) (w : Wave) (b : Bool), w.hold = .wait k (.gwait [] b) → m.holdOver id w = true)
    ∧ ∀ (s : State) (id : Nat) (rest : List Action) (w : Wave) (x : Ctx) (b : Block) (k n : Nat), s.agenda = .issue id :: rest →
        let t : State := { s.ticked with agenda := rest }
        t.m.wave? id = some w → t.m.ctx? w.ctx = some x → t.m.block? w.block = some b → t.m.resident w = true → t.m.running x = true →
        t.m.blocked id w x b = none → w.hold = .wait k (.paths n) →
          (∀ v, w.resumePath b n = .path v → ∃ r, step s = .next { t with m := r } ∧ ∃ u, r.wave? id = some u ∧ u.settled = v.settled ∧ u.pc = v.pc)
            ∧ (∀ v j, w.resumePath b n = .hold v j → step s = .next { t with m := t.m.putWave id { v with hold := .wait t.m.changes (.paths j) } })
            ∧ ∀ v, w.resumePath b n = .none v → step s = .next { t with m := t.m.putWave id { v with hold := .none } }

/-- R32, R288 to R290, R305, R306: pre-emption, slices, and the wave that issues next. Where the rules leave room, it
follows the model's own readings, log entries 7, 43 and 59. -/
def Obligations.PreemptionAndSlices : Prop := Parts.PreemptionAndSlices ∧ Parts.IssueOrder

/-! ## The control page, resets and the platform (spec/11_isolation.md R302, R316; spec/13_containment.md; spec/14_system.md) -/

/-- R316, R310 to R315, R298, R309: a request of a control page is done, or waits with STATUS busy, and one that nothing
defines changes nothing but the page. -/
def Parts.ControlRequests : Prop :=
  ∀ (s : State) (part vf : Nat) (a0 a1 a2 a3 op : W64),
    let v := s.m.vf part vf
    let asked := fun (op a0 a1 a2 a3 : W64) => s.m.putVf part vf { v with op, arg0 := a0, arg1 := a1, arg2 := a2, arg3 := a3 }
    let becomes := fun (i : Instr) (m : Mach) => exec i s = .next { s with m }
    let queue := s.m.queues.find? (fun q => q.2.part == part && q.2.vf == vf && q.2.desc == a0.toNat)
    let mine := fun (id : W64) (c : Nat) => id.toNat < 65536 ∧ c = ctxKey part id.toNat ∧ ∃ x, s.m.ctx? c = some x ∧ x.vf = vf
    let six : List Instr := [.ctlTlbinv part vf a0 a1 a2 a3, .ctlQrst part vf a0 a1, .ctlPmctl part vf a0 a2, .registerContext part vf a0,
      .retireContext part vf a0, .setInterruptRecord part vf a0, .ctlResetContext part vf a0, .ctlUndefinedRequest part vf op a3]
    (s.mgmt.hasVf part vf = false → ∀ i ∈ six, exec i s = .next s)
      ∧ (s.mgmt.hasVf part vf = true →
        let bits := a3.toNat / 8 % 4
        let legal := a3 &&& ~~~0x38#64 = 0 ∧ bits ≠ 3 ∧ ¬ (bits = 2 ∧ bit a3 5 = true)
        let request : InvReq := if bits = 0 then .pages (rangeCover a0.toNat a1.toNat) (bit a3 5)
          else if bits = 1 then .pages (some .all) (bit a3 5) else .handles (if a1 = 0 then some (a0.toNat % 2 ^ 20) else none)
        let m1 := asked 1 a0 a1 a2 a3
        let m2 := asked 2 a0 a1 v.arg2 0
        let one := fun (op : W64) => asked op a0 v.arg1 v.arg2 0
        (¬ legal → becomes (.ctlTlbinv part vf a0 a1 a2 a3) (m1.answer part vf 0xFF))
          ∧ (legal → (∀ c, ¬ mine a2 c) → becomes (.ctlTlbinv part vf a0 a1 a2 a3) (m1.answer part vf 1))
          ∧ (legal → (∃ c, mine a2 c) → becomes (.ctlTlbinv part vf a0 a1 a2 a3) (match tlbinv s.mgmt m1 part a2.toNat request with
              | (none, m) => m.busy part vf
              | (some st, m) => m.answer part vf st))
          ∧ (queue = none → becomes (.ctlQrst part vf a0 a1) (m2.answer part vf 1))
          ∧ (∀ id q, queue = some (id, q) →
              becomes (.ctlQrst part vf a0 a1) (if q.started ≠ [] ∨ q.wait ≠ none then m2.busy part vf else (qrstNow s.mgmt m2 id q a1.toNat).answer part vf 0))
          ∧ ((∀ c, ¬ mine a2 c) → becomes (.ctlPmctl part vf a0 a2) ((asked 3 a0 v.arg1 a2 0).answer part vf 1))
          ∧ (∀ c, mine a2 c → becomes (.ctlPmctl part vf a0 a2) (((asked 3 a0 v.arg1 a2 0).updCtx c fun x => x.pmctl a0).answer part vf 0))
          ∧ (∀ st, register s.mgmt (one 4) part vf a0.toNat = (st, none) → becomes (.registerContext part vf a0) ((one 4).answer part vf st))
          ∧ (∀ st x, register s.mgmt (one 4) part vf a0.toNat = (st, some x) → ∃ m, becomes (.registerContext part vf a0) m
              ∧ m.ctx? (ctxKey part x.ctxid) = some x ∧ (m.vf part vf).result = w64 x.ctxid ∧ (m.vf part vf).status = 0)
          ∧ ((∀ c, ¬ mine a0 c) → becomes (.retireContext part vf a0) ((one 5).answer part vf 1) ∧ becomes (.ctlResetContext part vf a0) ((one 7).answer part vf 1))
          ∧ (∀ c, mine a0 c → becomes (.ctlResetContext part vf a0) ((contextReset s.mgmt (one 7) c 0 0).answer part vf 0)
              ∧ ∃ m, becomes (.retireContext part vf a0) m ∧ m.ctx? c = none ∧ (∀ q ∈ m.queues, q.2.ctx ≠ c) ∧ (m.vf part vf).status = 0)
          ∧ (¬ (a0.toNat % 64 = 0 ∧ s.mgmt.ownsRange part a0.toNat 64 = true) → becomes (.setInterruptRecord part vf a0) ((one 6).answer part vf 2))
          ∧ (a0.toNat % 64 = 0 → s.mgmt.ownsRange part a0.toNat 64 = true → ∃ m, becomes (.setInterruptRecord part vf a0) m
              ∧ (m.vf part vf).irq = some a0.toNat ∧ (m.vf part vf).kept = 0 ∧ (m.vf part vf).status = 0
              -- the kept causes go to PEND, and a message follows
              ∧ (v.kept = 0 → m.mem = s.m.mem ∧ m.msis = s.m.msis)
              ∧ (v.kept ≠ 0 → w64 (m.rdN (a0.toNat + 0x10) 8) = w64 (s.m.rdN (a0.toNat + 0x10) 8) ||| v.kept
                  ∧ (∀ b k, b + k ≤ a0.toNat + 0x10 ∨ a0.toNat + 0x18 ≤ b → m.rd b k = s.m.rd b k)
                  ∧ m.msis = s.m.msis ++ if s.m.rdN (a0.toNat + 0x0C) 1 % 2 = 1 then [(s.m.rdN a0.toNat 8, s.m.rdN (a0.toNat + 8) 4)] else []))
          ∧ (undefinedReq op a3 = true → becomes (.ctlUndefinedRequest part vf op a3) ((asked op v.arg0 v.arg1 v.arg2 a3).answer part vf 0xFF)))
      ∧ (undefinedReq op a3 = false → exec (.ctlUndefinedRequest part vf op a3) s = .next s)

/-- R298, R309, R361: which registrations are refused, and what a context is registered as; how an interrupt is delivered, or
kept until there is a record. -/
def Parts.RegistrationAndInterrupts : Prop :=
  (∀ (g : Mgmt) (m : Mach) (part vf desc : Nat),
    let d := m.rd desc 256
    let n := natAt d
    let own := fun (a k : Nat) => g.ownsRange part a k = true
    let logn := m.rdN (n 0x78 8 + 0xC) 1
    let legal := (desc % 256 = 0 ∧ own desc 256)
      ∧ (n 0 8 % 2 ^ 18 = 0 ∧ n 8 8 % 2 ^ 32 = 0 ∧ n 0x10 8 % 2 ^ 34 = 0 ∧ n 0x28 8 % 64 = 0 ∧ n 0x30 8 % 64 = 0 ∧ n 0x50 8 % 128 = 0
        ∧ n 0x60 8 % 32 = 0 ∧ n 0x78 8 % 64 = 0 ∧ n 0x68 4 ≤ 2 ^ 20 ∧ n 0x44 4 ≤ 2 ^ 20 ∧ (n 0x44 4 = 0 ∨ 6 ≤ n 0x40 1 ∧ n 0x40 1 ≤ 12)
        ∧ fld (n 0x82 1) 1 2 ≠ 3)
      ∧ (n 0x86 1 = vf ∧ n 0x87 1 = part ∧ m.ctx? (ctxKey part (n 0x84 2)) = none ∧ 6 ≤ logn ∧ logn ≤ 16)
      ∧ (own (n 0 8) (2 ^ 18) ∧ g.owns part (n 0x18 8) = true ∧ own (n 0x28 8) 64 ∧ own (n 0x60 8) (Max.max 1 (32 * n 0x68 4)) ∧ own (n 0x70 8) 2048
        ∧ own (n 0x78 8) (64 + 32 * 2 ^ logn) ∧ (n 0x88 8 = 0 ∨ own (n 0x88 8) 0x70))
    let set := n 0x88 8
    let h := m.rd set 0x70
    let verified := natAt h 0 4 = 0x53435541 ∧ natAt h 4 1 ≠ 0 ∧ natAt h 5 1 = 9 ∧ own set (Max.max 0x70 (natAt h 8 8))
      ∧ ∃ k ∈ g.keys, Config.ucodeSigned k (m.rd set (natAt h 8 8)) = true
    (¬ legal → register g m part vf desc = (2, none))
      ∧ (legal → set ≠ 0 → ¬ verified → register g m part vf desc = (3, none))
      ∧ (legal → (set = 0 ∨ verified) → ∃ x, register g m part vf desc = (0, some x)
          ∧ x.part = part ∧ x.vf = vf ∧ x.desc = desc ∧ x.ctxid = n 0x84 2 ∧ x.ptroot = n 0 8 ∧ x.spbase = n 8 8 ∧ x.stkbase = n 0x10 8
          ∧ x.imgbase = n 0x18 8 ∧ x.arrbase = n 0x28 8 ∧ x.pbase = n 0x30 8 ∧ x.pguard = n 0x38 8 ∧ x.psize = n 0x40 1 ∧ x.pcount = n 0x44 4
          ∧ x.tcbbase = n 0x48 8 ∧ x.rpbase = n 0x50 8 ∧ x.rpsize = n 0x58 8 ∧ x.htab = n 0x60 8 ∧ x.hcount = n 0x68 4 ∧ x.pinlim = n 0x6C 4
          ∧ x.huff = n 0x70 8 ∧ x.fltring = n 0x78 8 ∧ x.unitdis = BitVec.ofNat 16 (n 0x80 2) ∧ (x.priv = true ↔ n 0x82 1 % 2 = 1)
          ∧ x.debug = fld (n 0x82 1) 1 2 ∧ x.pending = [] ∧ x.stages = [] ∧ x.pmc = [] ∧ x.pmsel = []
          ∧ (∀ i < 2048, mget memDefault x.tables i = mget memDefault m.mem (n 0x70 8 + i))
          ∧ x.ucode = if set = 0 then none else some { id := natAt h 4 1, ops := BitVec.ofNat 16 (natAt h 6 2), image := m.rd set (natAt h 8 8) }))
    ∧ ∀ (m : Mach) (part vf : Nat) (cause : W64), vf < 16 →
        let v := m.vf part vf
        let t := m.interrupt part vf cause
        (v.irq = none → t = m.putVf part vf { v with kept := v.kept ||| cause })
          ∧ ∀ r, v.irq = some r →
              w64 (t.rdN (r + 0x10) 8) = w64 (m.rdN (r + 0x10) 8) ||| cause
                ∧ (∀ b k, b + k ≤ r + 0x10 ∨ r + 0x18 ≤ b → t.rd b k = m.rd b k)
                ∧ t.msis = m.msis ++ (if m.rdN (r + 0x0C) 1 % 2 = 1 then [(m.rdN r 8, m.rdN (r + 8) 4)] else [])
                ∧ t.vfs = m.vfs

/-- R298, R309 to R316, R361: requests of a control page, registration, and interrupts. Where the rules leave room, it
follows the model's own readings, log entries 38, 39, 45 and 46. -/
def Obligations.ControlRequests : Prop := Parts.ControlRequests ∧ Parts.RegistrationAndInterrupts

/-- R342 to R349, R360: what each scope of reset removes, what it writes back, what it keeps, and what it reports.
Where the rules leave room, it follows the model's own readings, log entry 47. -/
def Obligations.ResetScopes : Prop :=
  (∀ (s : State) (c : Nat) (cause : BitVec 16) (addr : W64) (x : Ctx), s.m.ctx? c = some x →
    ∃ m, exec (.contextReset c cause addr) s = .next { s with m }
      ∧ (∀ w ∈ m.waves, w.2.ctx ≠ c) ∧ (∀ b ∈ m.blocks, b.2.ctx ≠ c) ∧ (∀ l ∈ m.launches, l.2.ctx ≠ c) ∧ (∀ o ∈ m.ops, o.2.ctx ≠ c)
      ∧ (∀ t ∈ m.tsets, t.2.ctx ≠ c) ∧ (∀ y ∈ m.escrow, y.ctx ≠ c) ∧ (∀ p ∈ m.pins, p.ctx ≠ c) ∧ (∀ t ∈ m.tlb, t.ctx ≠ c) ∧ (∀ h ∈ m.hcache, h.ctx ≠ c)
      ∧ (∀ y ∈ m.spawnq, y.ctx ≠ c) ∧ (∀ u ∈ m.units, u.ctx ≠ c) ∧ (∀ t ∈ m.tiles, t.ctx ≠ c) ∧ (∀ f ∈ m.forming, f.ctx ≠ c)
      ∧ (∀ l ∈ m.l1, l.ctx ≠ c) ∧ (∀ l ∈ m.rdc, l.ctx ≠ c) ∧ (∀ l ∈ m.icache, l.ctx ≠ c) ∧ (∀ l ∈ m.maps, l.ctx ≠ c)
      ∧ (∀ id, (∃ w, s.m.wave? id = some w ∧ w.ctx ≠ c) → ∃ w, m.wave? id = some w)
      ∧ (∀ y ∈ s.m.escrow, y.ctx ≠ c → y ∈ m.escrow) ∧ (∀ b ∈ s.m.blocks, b.2.ctx ≠ c → ∃ b' ∈ m.blocks, b'.1 = b.1 ∧ b'.2.bars = b.2.bars ∧ b'.2.spad = b.2.spad)
      ∧ ((s.m.queues.map (·.1)).Nodup → ∀ q ∈ m.queues, q.2.ctx = c → q.2.halted = true ∧ q.2.started = [] ∧ q.2.wait = none)
      ∧ (∀ y ∈ s.m.slotTab, y.valid = true → y.br.ctxid = c % 65536 → (∃ i b, y.block = some i ∧ s.m.block? i = some b ∧ b.ctx = c) →
          (∀ f ∈ s.m.forming, f.ctx = c → ¬ (f.core = y.core ∧ f.idx = y.idx)) →
          { y with state := 3, block := none } ∈ m.slotTab)
      ∧ (∃ y, m.ctx? c = some y ∧ y.pending = [] ∧ y.freed = [] ∧ y.fresh = 0 ∧ y.stages = [] ∧ y.pool = [] ∧ y.ptroot = x.ptroot
          ∧ y.desc = x.desc ∧ y.htab = x.htab ∧ y.arrbase = x.arrbase ∧ y.fltring = x.fltring)
      ∧ (let v := m.vf x.part x.vf
         let w := s.m.vf x.part x.vf
         v.rstcnt = w.rstcnt + 1 ∧ v.rstaddr = addr ∧ v.rstinfo = w64 (x.ctxid + cause.toNat * 2 ^ 16)
          -- bit 16 of the interrupt record
          ∧ (w.irq = none → bit v.kept 16 = true) ∧ (∀ r, w.irq = some r → bit (w64 (m.rdN (r + 0x10) 8)) 16 = true))
      -- each queue's descriptor tells error 9, with ERRIDX the units consumed; no other byte is written, when no L1 line is dirty
      ∧ (let word := fun (m : Mach) (q : Queue) (off n v : Nat) => (vwrite s.mgmt m q.ctx (q.desc + off) (natBytes v n)).2
         let told := (s.m.queues.filter fun q => q.2.ctx == c).foldl (fun m q => word (word m q.2 0x20 4 (1 + 9 * 256)) q.2 0x28 8 q.2.ridx) s.m
         (s.m.queues.map (·.1)).Nodup → (∀ y ∈ s.m.colls, c ∉ y.ctxs) → (s.m.vf x.part x.vf).irq = none →
          ((∀ l ∈ s.m.l1, l.ctx = c → l.dirty = 0) → m.mem = told.mem)
            ∧ (∀ id w, s.m.wave? id = some w → w.ctx ≠ c → m.wave? id = some w)
            -- the dirty bytes of its L1 lines go home
            ∧ ∀ l o, l ∈ s.m.l1 → o < 128 → l.dirty.getLsbD o = true → l.ctx = c → (s.m.l1.filter fun l' => l'.line == l.line).length = 1 →
                mget memDefault m.mem (l.line * 128 + o) = lineByte l.data o)
      -- the other participants of its collectives get LINK (R346)
      ∧ ((s.m.ops.map (·.1)).Nodup → ∀ y ∈ s.m.colls, c ∈ y.ctxs → ∀ o ∈ s.m.collHeads y.desc, o.2.ctx ≠ c →
          lookup m.ops o.1 = none
            ∧ ∀ i p q v, o.2.target = .reg i p q → (∀ o' ∈ s.m.ops, o'.2.target = o.2.target → o' = o) → s.m.wave? i = some v → v.ctx ≠ c →
                ∃ v', m.wave? i = some v' ∧ v'.getQ p q = mkRcpt 0 6 3 o.2.seq)
      ∧ (∀ y, s.m.colls.filter (fun y => y.ctxs.contains c) = [y] → isMem (y.desc + 8) = true → s.m.collHeads y.desc ≠ [] → (∀ q ∈ s.m.queues, q.2.ctx ≠ c) →
          (∀ l ∈ s.m.l1, l.ctx = c → l.dirty = 0) → (s.m.vf x.part x.vf).irq = none → (∀ w ∈ s.m.waves, w.2.missing = []) →
          m.rdN (y.desc + 8) 8 = (s.m.rdN (y.desc + 8) 8 + 1) % 2 ^ 64))
    ∧ (∀ (s : State) (c : Nat) (cause : BitVec 16) (addr : W64), s.m.ctx? c = none → ∃ m, exec (.contextReset c cause addr) s = .next { s with m } ∧ m.waves = s.m.waves)
    ∧ (∀ (s : State) (part vf : Nat), s.mgmt.hasVf part vf = true → ∃ m, exec (.vfReset part vf) s = .next { s with m }
        ∧ (∀ c, (m.ctx? c).isSome = (s.m.ctx? c).isSome) ∧ (∀ q ∈ m.queues, q.2.part = part → q.2.vf = vf → q.2.rung = 0)
        ∧ ((s.m.queues.map (·.1)).Nodup → ∀ q ∈ m.queues, q.2.ctx ∈ s.m.ctxsOf part vf → q.2.halted = true)
        ∧ (∀ c y, m.ctx? c = some y → y.part = part → y.vf = vf → y.pmc = [] ∧ y.pmsel = [])
        ∧ (∀ w ∈ m.waves, w.2.ctx ∉ s.m.ctxsOf part vf) ∧ (∀ b ∈ m.blocks, b.2.ctx ∉ s.m.ctxsOf part vf) ∧ (∀ l ∈ m.l1, l.ctx ∉ s.m.ctxsOf part vf)
        ∧ (m.vf part vf).rstcnt = (s.m.vf part vf).rstcnt + 1 ∧ (m.vf part vf).rstinfo = 0x10000FFFF ∧ (m.vf part vf).rstaddr = 0)
    ∧ (∀ (s : State) (part vf : Nat), s.mgmt.hasVf part vf = false → exec (.vfReset part vf) s = .next s)
    ∧ (∀ (s : State) (part : Nat), s.mgmt.hasVf part 0 = true → ∃ m, exec (.partitionReset part) s = .next { s with m }
        ∧ (∀ c ∈ m.ctxs, c.2.part ≠ part) ∧ (m.part part).running = 0 ∧ (m.part part).halted = false
        ∧ (let e := s.mgmt.entry part
           let here := fun (a : Nat) => isMem a = true ∧ e.spans.getLsbD (homeSpan a) = true
           let pend := fun (vf r : Nat) => vf < e.nvf ∧ (s.m.vf part vf).irq = some r
           -- the spans hold zeros, but for the causes that the interrupt records then show
           (∀ a, here a → (∀ vf r, pend vf r → a < r + 0x10 ∨ r + 0x18 ≤ a) → mget memDefault m.mem a = 0)
            ∧ (∀ vf r, pend vf r → (∀ i < 8, here (r + 0x10 + i)) → (∀ v' r', pend v' r' → v' = vf ∨ r' + 8 ≤ r ∨ r + 8 ≤ r') → m.rdN (r + 0x10) 8 = 2 ^ 16)
            ∧ (∀ l ∈ m.poison, ¬ here (128 * l))
            ∧ (∀ core, e.spans.getLsbD (spanOfCore core) = true → (∀ y ∈ m.slotTab, y.core ≠ core) ∧ ∀ y ∈ m.latch, y.1 ≠ core)
            ∧ ∀ vf < e.nvf, (m.vf part vf).rstcnt = (s.m.vf part vf).rstcnt + 1 ∧ (m.vf part vf).rstinfo = 0x20000FFFF
                ∧ ((s.m.vf part vf).irq = none → (m.vf part vf).kept = (s.m.vf part vf).kept ||| w64 (2 ^ 16))))
    ∧ (∀ (s : State) (part : Nat), s.mgmt.hasVf part 0 = false → exec (.partitionReset part) s = .next s)
    ∧ ∀ (s : State),
        let g := s.mgmt
        let whole := g.bankA ||| g.bankB = 7
        let up := fun (i : Instr) => ∃ t, exec i s = .next t ∧ t.m.mem = [] ∧ t.m.waves = [] ∧ t.m.ctxs = [] ∧ t.mgmt.table = resetTable
          ∧ t.mgmt.retmask = g.retmask ∧ t.mgmt.bankA = g.bankA ∧ t.mgmt.bankB = g.bankB ∧ t.mgmt.keys = g.keys
          ∧ (t.mgmt.booted = true ↔ whole) ∧ (t.mgmt.recovery = true ↔ ¬ whole) ∧ t.mgmt.powered = true
          ∧ (∀ p < 8, (t.m.vf p 0).rstcnt = (s.m.vf p 0).rstcnt + 1 ∧ (t.m.vf p 0).rstinfo = 0x30000FFFF ∧ bit (t.m.vf p 0).kept 16 = true)
          ∧ (whole → t.mgmt.alerts.getLast? = some .resetdone) ∧ (¬ whole → t.mgmt.alerts.getLast? = some .bootfail)
        (g.powered = true → up .deviceReset ∧ exec .powerOn s = .next s)
          ∧ (g.powered = false → up .powerOn ∧ exec .deviceReset s = .next s)

/-- R302, R303, R350, R351, R356 to R360: the requests of the management port, link errors, array errors, power and
temperature. A module without power does nothing. Where the rules leave room, it follows the model's own readings, log
entries 2 and 48. -/
def Obligations.ManagementPort : Prop :=
  ∀ (s : State) (t : List PartEntry) (n link core : Nat) (word : W64) (ok : Bool) (site : CountSite) (err : ErrSite) (item : FwItem),
    let g := s.mgmt
    let all : List Instr := [.writePartitionTable t, .writePeerWindow n word, .setErrorThreshold n, .setPowerCap n, .installFirmware item, .flitCrcFail ⟨link, ok⟩,
      .linkdown link, .correctedError site, .uncorrectableError err, .coreRetire core, .thermalThrottle, .thermalTrip]
    (g.powered = false → ∀ i ∈ all, exec i s = .next s)
      ∧ (g.powered = true →
        let sets := fun (i : Instr) (h : Mgmt) => exec i s = .next { s with mgmt := h }
        let bumps := fun (i : Instr) (m : Mach) => exec i s = .next { s with m := { m with changes := m.changes + 1 } }
        let down := g.linkDown.getLsbD link = true
        let moves := legalTable t = true ∧ ∀ p < 8, spansIn g.table p &&& ~~~(spansIn t p) = 0 ∨ ∀ c ∈ s.m.ctxs, c.2.part ≠ p
        let window := word &&& 0x7FFF0000000000FF#64 = 0 ∧ ∃ p < 8, word.extractLsb' 32 16 &&& ~~~(g.entry p).links = 0
        (¬ moves → exec (.writePartitionTable t) s = .next s)
          ∧ (moves → ∃ r, exec (.writePartitionTable t) s = .next r ∧ r.mgmt = { g with table := t } ∧ r.m.ctxs = s.m.ctxs
              ∧ (∀ p < 8, spansIn g.table p = 0 → spansIn t p ≠ 0 → r.m.part p = {})
              ∧ ∀ a, isMem a = true → mget memDefault r.m.mem a =
                  if (List.range 8).any (fun p => (spansIn t p).getLsbD (homeSpan a) && !(spansIn g.table p).getLsbD (homeSpan a)) = true then 0
                  else mget memDefault s.m.mem a)
          ∧ (¬ (n < 16 ∧ window) → exec (.writePeerWindow n word) s = .next s)
          ∧ (n < 16 → window → ∃ r, exec (.writePeerWindow n word) s = .next r ∧ ∀ j, mget 0 r.mgmt.windows j = if j = n then word else mget 0 g.windows j)
          ∧ sets (.setErrorThreshold n) { g with threshold := n }
          ∧ (n ≤ 1900 → sets (.setPowerCap n) { g with powerCap := n }) ∧ (1900 < n → exec (.setPowerCap n) s = .next s)
          -- one image of a bank, and no other
          ∧ (∀ i, i < 3 → ∃ a b, sets (.installFirmware (.bankA i ok)) { g with bankA := a } ∧ sets (.installFirmware (.bankB i ok)) { g with bankB := b }
              ∧ ∀ j < 3, a.getLsbD j = (if j = i then ok else g.bankA.getLsbD j) ∧ b.getLsbD j = if j = i then ok else g.bankB.getLsbD j)
          ∧ (∀ k, ∃ h, sets (.installFirmware (.ucodeKey k)) h ∧ k ∈ h.keys ∧ ∀ y ∈ g.keys, y ∈ h.keys)
          -- a replay that gets through ends a row of failed ones; the eighth in a row takes the link down
          ∧ (link < 16 → ¬ down → ∃ h, sets (.flitCrcFail ⟨link, ok⟩) h ∧ (∀ j, h.failures j = if j = link then (if ok then 0 else g.failures link + 1) else g.failures j)
              ∧ h.linkDown = g.linkDown)
          ∧ ((16 ≤ link ∨ down) → exec (.flitCrcFail ⟨link, ok⟩) s = .next s ∧ exec (.linkdown link) s = .next s)
          ∧ (g.failures link < 8 → exec (.linkdown link) s = .next s)
          ∧ (link < 16 → ¬ down → 8 ≤ g.failures link → ∃ r, exec (.linkdown link) s = .next r
              ∧ r.mgmt = { g with linkDown := g.linkDown ||| (1#16 <<< link), alerts := g.alerts ++ [.linkdown] }
              -- the collectives whose descriptor no link reaches any more end with LINK
              ∧ (let cut := s.m.collDescs.filter fun d => !isMem d && r.mgmt.windowDown d
                 let m := cut.foldl (fun m d => collEnd m d 6 []) s.m
                 r.m.ops = m.ops ∧ r.m.waves = m.waves ∧ r.m.mem = m.mem ∧ r.m.peerOut = m.peerOut
                  ∧ r.m.msis = m.msis ++ [((g.mgmtPage &&& ~~~7#64).toNat, g.mgmtEiid.toNat % 2048)])
              ∧ ((s.m.ops.map (·.1)).Nodup → ∀ o ∈ s.m.ops, (∀ fn t d a n desc sl, o.2.kind = .coll fn t d a n desc sl → isMem desc = true ∨ r.mgmt.windowDown desc = false) → o ∈ r.m.ops))
          ∧ (∃ h, sets (.correctedError site) h ∧ (∀ c, site = .core c → mget 0 h.coreErrs c = mget 0 g.coreErrs c + 1)
              ∧ ∀ p, site = .span p → mget 0 h.spanErrs p = mget 0 g.spanErrs p + 1)
          ∧ (∀ pa, isMem pa = true → lineOf pa ∉ s.m.poison → bumps (.uncorrectableError (.line pa)) { s.m with poison := s.m.poison ++ [lineOf pa] })
          ∧ (∀ k c ln, s.m.l1.any (fun y => y.is k c ln) = true → bumps (.uncorrectableError (.l1 k c ln)) (contextReset g s.m c 0x52 0))
          ∧ (∀ k c, bumps (.uncorrectableError (.ctxOwned k c)) (contextReset g s.m c 0x52 0))
          ∧ (∀ span p, (List.range 8).find? (fun p => g.ownsSpan p span) = some p →
              bumps (.uncorrectableError (.spanOwned span)) (partitionReset g s.m p 0x52))
          ∧ (∃ r, exec (.uncorrectableError .deviceOwned) s = .next r ∧ (r.m.vf 0 0).rstinfo = 0x30052FFFF ∧ r.m.mem = [])
          ∧ ((Config.cores ≤ core ∨ mget 0 g.coreErrs core ≤ g.threshold) → exec (.coreRetire core) s = .next s)
          ∧ (core < Config.cores → g.threshold < mget 0 g.coreErrs core → ∃ r, exec (.coreRetire core) s = .next r
              ∧ r.mgmt.retmask = g.retmask ||| (1#192 <<< core) ∧ r.mgmt.replaceRequest = true
              ∧ r.mgmt.alerts = if g.retmask.getLsbD core then g.alerts else g.alerts ++ [.replaceRequest])
          ∧ (∃ r, exec .thermalThrottle s = .next r ∧ r.mgmt.throttled = true ∧ r.mgmt.clock = max 1200 (g.clock - 100)
              ∧ (r.mgmt.alerts = g.alerts ++ [.powercap] ∨ r.mgmt.alerts = g.alerts ++ [.thermal]))
          ∧ ∃ r, exec .thermalTrip s = .next r ∧ r.mgmt.powered = false ∧ r.mgmt.booted = false ∧ r.mgmt.tripped = true
              ∧ r.m.mem = [] ∧ r.m.waves = [] ∧ r.m.ctxs = [])

/-- R303, R353, R354, R357, R358: an access from outside the cores reads and writes memory at its home, when the module has
booted and the bytes are the requester's; the host's window holds doorbells, control pages, the status block and the peer
windows, and nothing answers between them. Where the rules leave room, it follows the model's own readings, log entry
49. -/
def Obligations.OutsideAccesses : Prop :=
  (∀ (s : State) (part pa : Nat) (i : Instr) (x : ExtOp),
    (i = .hostMemoryAccess ⟨part, pa⟩ x ∧ pa < 2 ^ 51) ∨ i = .pcieDma part pa x ∨ i = .peerAccess part pa x →
      let served := s.mgmt.booted = true ∧ s.mgmt.owns part pa = true ∧ memRange pa (ExtOp.bytes x) = true
      (¬ served → exec i s = .next s)
        ∧ (served → ∃ m, exec i s = .next { s with m } ∧ m.waves = s.m.waves ∧
          match x with
          | .read n => m.mem = s.m.mem ∧ m.outside = s.m.rd pa n
          | .write l => m.rd pa l.length = l ∧ (∀ a n, a + n ≤ pa ∨ pa + l.length ≤ a → m.rd a n = s.m.rd a n)
              -- a write of a whole line clears its poison (R350)
              ∧ ∀ y, y ∈ m.poison ↔ y ∈ s.m.poison ∧ ¬ (pa ≤ 128 * y ∧ 128 * y + 128 ≤ pa + l.length)
          | .atom op t b c =>
            let n := Ty.size t
            if pa % n = 0 then m.outside = natBytes (s.m.rdN pa n) n ∧ m.rd pa n = natBytes (atomFn op t (s.m.rdN pa n) b.toNat c.toNat) n
                ∧ ∀ a k, a + k ≤ pa ∨ pa + n ≤ a → m.rd a k = s.m.rd a k
            else m.mem = s.m.mem))
    ∧ (∀ (s : State) (p part vf n off : Nat) (x : W64), s.mgmt.booted = true → part < 8 → vf < 16 →
        let page := 2 ^ 51 + 8192 * (16 * part + vf)
        let word : ExtOp := .write (natBytes x.toNat 8)
        (n < 512 → exec (.hostMemoryAccess ⟨p, page + 8 * n⟩ word) s = exec (.doorbell part vf n x) s)
          ∧ (s.mgmt.hasVf part vf = true → off + n ≤ 0x58 → exec (.hostMemoryAccess ⟨p, page + 4096 + off⟩ (.read n)) s =
              .next { s with m := { s.m with outside := bytesAt (s.m.vf part vf).page off n } })
          ∧ (s.mgmt.hasVf part vf = true → (s.m.vf part vf).arg3 = 0 → x = 4 →
              exec (.hostMemoryAccess ⟨p, page + 4096⟩ word) s = exec (.registerContext part vf (s.m.vf part vf).arg0) s)
          ∧ (s.mgmt.hasVf part vf = true → ∃ m, exec (.hostMemoryAccess ⟨p, page + 4096 + 8⟩ word) s = .next { s with m } ∧ m.vf part vf = { s.m.vf part vf with arg0 := x })
          ∧ (s.mgmt.hasVf part vf = false → off < 4096 → ∀ y, exec (.hostMemoryAccess ⟨p, page + 4096 + off⟩ y) s = .next s)
          ∧ (off + n ≤ 48 → exec (.hostMemoryAccess ⟨p, 2 ^ 51 + 2 ^ 32 + off⟩ (.read n)) s =
              .next { s with m := { s.m with outside := bytesAt s.mgmt.statusBlock off n } })
          ∧ exec (.hostMemoryAccess ⟨p, 2 ^ 51 + 2 ^ 32 + 0x20⟩ word) s = .next { s with mgmt := { s.mgmt with mgmtPage := x } }
          ∧ exec (.hostMemoryAccess ⟨p, 2 ^ 51 + 2 ^ 32 + 0x28⟩ word) s = .next { s with mgmt := { s.mgmt with mgmtEiid := x } })
    ∧ ∀ (s : State) (part pa : Nat) (x : ExtOp), s.mgmt.booted = true → 2 ^ 51 ≤ pa →
        let o := pa - 2 ^ 51
        let goes := fun (m : Mach) => exec (.hostMemoryAccess ⟨part, pa⟩ x) s = .next { s with m }
        (2 ^ 51 ≤ o ∨ ¬ (o < 2 ^ 20 ∨ 2 ^ 32 ≤ o ∧ o < 2 ^ 32 + 4096 ∨ 2 ^ 48 ≤ o ∧ o < 2 ^ 48 + 2 ^ 44 ∨ 2 ^ 50 ≤ o ∧ o < 2 ^ 50 + 2 ^ 46) → goes s.m)
          ∧ (2 ^ 50 ≤ o → o < 2 ^ 50 + 2 ^ 46 →
              (s.mgmt.frameOk part pa = false ∨ s.mgmt.windowDown pa = true → goes s.m)
                ∧ (s.mgmt.frameOk part pa = true → s.mgmt.windowDown pa = false →
                  match x with
                  | .read n => goes { s.m with outside := s.m.rdAny pa n }
                  | .write l => goes { s.m with peerOut := s.m.peerOut ++ ((List.range l.length).map (· + pa)).zip l }
                  | .atom op t b c =>
                    let n := Ty.size t
                    let old := bytesNat (s.m.rdAny pa n)
                    if pa % n = 0 then goes { s.m with
                      peerOut := s.m.peerOut ++ ((List.range n).map (· + pa)).zip (natBytes (atomFn op t old b.toNat c.toNat) n), outside := natBytes old n }
                    else goes s.m))

/-! ## Where instructions complete -/

/-- R175, R193 to R196, R207, R218 to R222, R227 to R229, R298, R310 to R312, R315: a wave that has no access outstanding and no
store in the escrow log, whose addresses are mapped, aligned and unpoisoned, completes these instructions: it goes on at
the next word, with the result that each has. Conditions beyond that stand beside the instruction. -/
def Obligations.MemoryFormsComplete : Prop :=
  ∀ (s : State) (e : Env), s.env? = some e → e.w.acc = [] → (∀ y ∈ s.m.escrow, y.wave ≠ e.id) →
    ∀ (o : OpM) (ol : OpLdlod) (k : BitVec 4) (n d a b c : BitVec 7) (sc : Scope) (retry : Bool),
    let w := e.w
    let done := fun (i : Instr) (len : Nat) (P : Mach → Wave → Prop) =>
      ∃ m v, exec i s = .next (s.after e m v) ∧ v.hold = .none ∧ v.pc = w.pc + w64 len ∧ (∀ p, (v.half p).exec = (w.half p).exec) ∧ P m v
    let halves := w.groups.filter fun p => (w.half p).exec ≠ 0
    let reg := fun (p : Bool) (r : BitVec 7) => (w.getS p r.toNat).toNat
    let aperture := fun (x : Nat) => (e.x.steer x).1 ≠ .global
    let near := fun (x : Nat) => (e.x.steer x).1 = .global ∧ canonical x = true
    -- the page tables lead to the aligned guard word of each half, and nothing there is poisoned
    let mapped := fun (l : List (Bool × HomeAt)) (m : Mach) => (∀ p ∈ w.passes, near (reg p a) ∧ reg p a % 8 = 0)
      ∧ e.homes s.m needRW (fun p => reg p a) w.passes = (l, m) ∧ ∀ x ∈ l, ∃ pa, x.2 = .at pa ∧ m.poisoned pa 8 = false
    -- in a wave that is no pair, with no dirty line and no counter running, the word that the instruction finds is the one at home
    let plain := fun (pa : Nat) => w.passes = [false] ∧ isMem pa = true ∧ e.x.pmsel = [] ∧ ∀ x ∈ s.m.l1, x.dirty = 0
    done (.pref o) 8 (fun m v => m.waves = s.m.waves ∧ KeepsV e v ∧ KeepsS e v ∧ KeepsK e v)
      ∧ ((∀ p l, (p, l) ∈ w.work o.k.toNat o.uni → let x := e.ea p l o.addr o.off (Ty.size o.ty); aperture x ∨ canonical x = true) →
          done (.l2pinPin k o) 8 (fun m v => KeepsV e v ∧ KeepsS e v ∧ ∀ p l, (p, l) ∈ w.work o.k.toNat o.uni → k ≠ 0 →
              bit (v.getK p k.toNat) l = true → ∃ y ∈ m.pins, y.ctx = w.ctx)
            ∧ done (.l2pinUnpin k o) 8 (fun m v => KeepsV e v ∧ KeepsS e v ∧ ∀ y ∈ m.pins, y ∈ s.m.pins))
      ∧ done .ifence 8 (fun m v => (∀ x ∈ m.icache, ¬ (x.core = w.core ∧ x.ctx = w.ctx)) ∧ KeepsV e v ∧ KeepsS e v)
      ∧ done (.wcntLd n) 8 (fun m v => m = s.m ∧ KeepsV e v ∧ KeepsS e v) ∧ done (.wcntSt n) 8 (fun m v => m = s.m ∧ KeepsV e v ∧ KeepsS e v)
      ∧ done (.gbindBind d a b c) 8 (fun m v => halves = [false] →
          let st := e.x.bindStatus (reg false a) (reg false b) (reg false c)
          v.getS false d.toNat = w64 st ∧ (st = 0 → (m.ctx? w.ctx).map (·.binds) = some (e.x.binds ++ [{ base := reg false a, len := reg false b, guard := reg false c }]))
            ∧ (st ≠ 0 → m = s.m))
      ∧ done (.gbindUnbind d a) 8 (fun m v => halves = [false] →
          if ∃ y ∈ e.x.binds, y.base = reg false a
          then v.getS false d.toNat = 0 ∧ (m.ctx? w.ctx).map (·.binds) = some (e.x.binds.filter fun y => y.base ≠ reg false a)
          else v.getS false d.toNat = 4 ∧ m = s.m)
      ∧ done (.gacqAll sc) 8 (fun m v => m = s.m.invalidateAll w.core w.ctx sc ∧ KeepsV e v ∧ KeepsS e v)
      ∧ done (.grelAll sc) 8 (fun m v => m = s.m.releaseTo w.ctx sc ∧ KeepsV e v ∧ KeepsS e v)
      ∧ (∀ l m0, mapped l m0 →
          done (.grel sc d a) 8 (fun m v => KeepsV e v ∧ ∀ pa, l = [(false, .at pa)] → plain pa →
              m.rdN pa 8 = (s.m.rdN pa 8 + 1) % 2 ^ 64 ∧ v.getS false d.toNat = w64 (s.m.rdN pa 8 + 1))
            ∧ done (.gacq sc d a) 8 (fun _ v => KeepsV e v ∧ ∀ pa, l = [(false, .at pa)] → plain pa → v.getS false d.toNat = w64 (s.m.rdN pa 8))
            ∧ ((∀ x ∈ l, ∀ pa, x.2 = .at pa → reg x.1 b ≤ m0.homeN pa 8) → done (.gwait a b) 8 (fun _ v => KeepsV e v ∧ KeepsS e v)))
      -- a load whose handles stand, every lane of which finds its descriptor and its texel
      ∧ (let q : MacEnv := { g := e.g, core := w.core, c := w.ctx, x := e.x, older := w.acc }
        let live := w.groups.filter fun p => w.active p ol.k.toNat ≠ []
        let entry := fun (p : Bool) => (s.m.checkHandle w.core w.ctx e.x (reg p ol.sh % 2 ^ 32)).1
        let m0 := live.foldl (fun m p => (m.checkHandle w.core w.ctx e.x (reg p ol.sh % 2 ^ 32)).2) s.m
        let found := lodLanes ((w.work ol.k.toNat false).map fun x => (x.1, x.2,
          lodFind q ol ((entry x.1).elim 0 (·.addr)) ((entry x.1).elim false (fun y => y.kind == 2))
            (w.getV x.1 ol.vc.toNat x.2).toNat (w.getV x.1 ol.ve0.toNat x.2).toNat)) m0
        let got := lodLanes (found.1.map fun x => (x.1, x.2.1, match x.2.2 with
          | .ok d => lodRead q (if ol.wide then 8 else 4) d
          | .error st => throw st)) found.2
        e.x.debug ≠ 2 → (∀ p ∈ live, entry p ≠ none) → (∀ x ∈ got.1, ∃ d, x.2.2 = .ok d) →
          done (.ldlod ol) 16 (fun _ v => KeepsS e v ∧ KeepsK e v ∧ ∀ x ∈ got.1, ∀ d, x.2.2 = .ok d →
            ol.d ≠ ol.ve1 → v.getV x.1 ol.d.toNat x.2.1 = BitVec.ofNat 32 d.d))
      ∧ done (.pmrd d) 8 (fun m v => m = s.m ∧ ∀ p ∈ halves, ∀ j < 8, d.toNat + j < 128 → v.getS p (d.toNat + j) = e.x.pmcRead j)
      ∧ done (.pmctl a) 8 (fun m v => KeepsS e v ∧ (halves = [false] → ∃ x, m.ctx? w.ctx = some x ∧ x = e.x.pmctl (w.getS false a.toNat)))
      ∧ (e.x.priv = true → (∀ p ∈ halves, ∀ id q, s.m.queueAt e.x.part w.ctx (reg p a) none = some (id, q) → q.started = [] ∧ q.wait = none) → halves.length ≤ 1 →
          done (.qrst d a b) 8 (fun m v => ∀ p ∈ halves, match s.m.queueAt e.x.part w.ctx (reg p a) none with
            | none => v.getS p d.toNat = 1 ∧ m = s.m
            | some (id, q) => v.getS p d.toNat = 0 ∧ (lookup s.m.queues id = some q → lookup m.queues id = some { q with ridx := reg p b, halted := false })))
      -- invalidations, of the issuing context or with PRIV, while no wave of the part has an access in flight
      ∧ ((∀ y ∈ s.m.waves, y.2.acc = []) → s.m.escrow = [] → (∀ p ∈ halves, e.x.priv = true ∨ (retry = false ∧ reg p c = e.x.ctxid)) →
          w.ctx = ctxKey e.x.part e.x.ctxid → halves.length ≤ 1 →
          let status := fun (p : Bool) (v : Wave) (ok : Prop) => ∃ st, v.getS p d.toNat = w64 st ∧ (reg p c = e.x.ctxid → e.x.ctxid < 65536 → (st = 0 ↔ ok) ∧ (st = 2 ↔ ¬ ok))
          done (.tlbinvRange retry d a b c) 8 (fun _ v => ∀ p ∈ halves, status p v
              (reg p a % 65536 = 0 ∧ canonical (reg p a) = true ∧ 0 < reg p b ∧ reg p b ≤ 2 ^ 32))
            ∧ done (.tlbinvCtx retry d c) 8 (fun m v => ∀ p ∈ halves, status p v True ∧ (reg p c = e.x.ctxid → e.x.ctxid < 65536 → ∀ t ∈ m.tlb, t.ctx ≠ w.ctx))
            ∧ (retry = false → done (.tlbinvHnd d a b c) 8 (fun _ v => ∀ p ∈ halves, status p v True)))

/-- R31, R135 to R138, R140, R188, R189, R203, R210, R214 to R216, R230, R233 to R236, R297: a command whose checks find no
cause, whose queue has room and whose receipt register has none pending is accepted with a pending receipt; then the
engine, the array and the collective engine take the steps that end it. -/
def Obligations.EngineFormsComplete : Prop :=
  (∀ (s : State) (e : Env), s.env? = some e → ∀ (o : OpCp) (g : OpCpg) (cl : OpColl),
    let w := e.w
    let halves := w.groups.filter fun p => (w.half p).exec ≠ 0
    let accepted := fun (i : Instr) (q eng : Nat) (room : Mach → Prop) (mk : Mach → Bool → Cmd × Mach) =>
      let made := halves.foldl (fun (r : List Cmd × Mach) p => (r.1 ++ [(mk r.2 p).1], (mk r.2 p).2)) ([], s.m)
      (∀ p ∈ halves, rPending (w.getQ p q) = false) → (∀ x ∈ made.1, x.causes = []) → room made.2 →
        ∃ m v, exec i s = .next (s.after e m v) ∧ v.hold = .none ∧ v.pc = w.pc + 16 ∧ KeepsV e v ∧ KeepsS e v ∧ KeepsExec e v
          ∧ ∀ p ∈ halves, rPending (v.getQ p q) = true ∧ rEng (v.getQ p q) = eng ∧ ∃ y ∈ m.ops, y.2.target = .reg e.id p q
    let copy := fun (i : Instr) (ks kd : CpSpace) => accepted i o.q.toNat 1 (fun m => (m.queued w.core o.q1).length + halves.length ≤ 32) fun m p => e.copyCmd o ks kd m p
    let coll := fun (i : Instr) (fn : Nat) => (∀ p ∈ halves, e.x.memCauses (w.getS p cl.c.toNat).toNat 64 = [] ∧ ∃ pa leaf lv, (e.collAt s.m cl p).1 = .ok pa leaf lv) →
      accepted i cl.q.toNat 3 (fun _ => True) fun m p => e.collCmd fn cl m p
    (copy (.cpMm o) .m .m ∧ copy (.cpMs o) .m .s ∧ copy (.cpSm o) .s .m ∧ copy (.cpMo o) .m .o ∧ copy (.cpOm o) .o .m
      ∧ copy (.cpSo o) .s .o ∧ copy (.cpOs o) .o .s)
      ∧ accepted (.cpg g) g.q.toNat 2 (fun m => (m.queued w.core g.q1).length + halves.length ≤ 32) (fun m p => e.gatherCmd g m p)
      ∧ coll (.collSum cl) 0 ∧ coll (.collMin cl) 1 ∧ coll (.collMax cl) 2 ∧ coll (.collGather cl) 3 ∧ coll (.collBcast cl) 4)
    -- matrix commands are sent to the array, which ends them
    ∧ (∀ (s : State) (e : Env), s.env? = some e → e.w.inBar = false → ∀ (a : OpWload) (b : OpWmint) (c : OpMmul) (d : OpMseek),
        let w := e.w
        let halves := w.groups.filter fun p => (w.half p).exec ≠ 0
        let sent := fun (i : Instr) (q : BitVec 4) => (∀ p ∈ halves, rPending (w.getQ p q.toNat) = false) → (∀ a ∈ w.acc, a.known = true) → halves ≠ [] →
          ∃ t v, exec i s = .next t ∧ t.m.wave? e.id = some v ∧ v.pc = w.pc ∧ (∃ k, v.hold = .wait k .unit)
            ∧ ∀ p ∈ halves, ∃ y ∈ t.m.array, y.wave = e.id ∧ y.half = p ∧ y.instr = i ∧ y.op = none ∧ y.accepted = false
        sent (.wload a) a.q ∧ sent (.wmint b) b.q ∧ sent (.mmul c) c.q ∧ sent (.mseek d) d.q)
    ∧ (∀ (s : State) (core : Nat) (c : MCmd) (b : Block) (l : Launch) (w : Wave), s.m.arrayNext core = some c → s.m.block? c.block = some b → s.m.launch? b.launch = some l →
        s.m.wave? c.wave = some w → s.m.resident w = true → w.missing = [] → b.ctx = w.ctx → (∃ x, s.m.ctx? w.ctx = some x) →
        (c.accepted = false → b.judge l.oms c.instr = .runs → ∃ t, exec (.matrixStep core) s = .next t ∧ ∃ y ∈ t.m.array, y.wave = c.wave ∧ y.half = c.half ∧ y.op = c.op ∧ y.accepted = true)
          ∧ (c.accepted = true → c.op = none → (∀ y ∈ s.m.array, y.same c = false → y.wave = c.wave → y.op ≠ none) →
            let ends := fun (ok : Nat → Prop) => ∃ t v, exec (.matrixStep core) s = .next t ∧ t.m.wave? c.wave = some v ∧ v.pc = w.pc + 16
              ∧ rEng (v.getQ c.half (mparts c.instr).1) = 4 ∧ ok (rStat (v.getQ c.half (mparts c.instr).1)) ∧ ∀ y ∈ t.m.array, y.same c = false
            (∀ o, c.instr = .wload o → ends (· = 1)) ∧ (∀ o, c.instr = .wmint o → ends fun st => st = 1 ∨ st = 4)
              ∧ (∀ o, c.instr = .mmul o → o.m.toNat ≤ c.count → ends (· = 1)) ∧ ∀ o, c.instr = .mseek o → o.nc.toNat ≤ c.count → ends (· = 1)))
    ∧ (∀ (s : State) (id : Nat) (c : MCmd) (b : Block) (l : Launch), s.m.arrayNext c.core = some c → c.op = some id → c.accepted = false →
        (s.m.array.find? fun y => y.op == some id) = some c → s.m.block? c.block = some b → s.m.launch? b.launch = some l → b.judge l.oms c.instr = .runs →
        ∃ t, exec (.followOnAccept id) s = .next t ∧ ∃ y ∈ t.m.array, y.op = some id ∧ y.accepted = true)
    -- the last chunk of a copy
    ∧ (∀ (s : State) (id : Nat) (o : EngOp) (x : Ctx) (v : Move) (w : Wave) (i q : Nat) (p : Bool) (m : Mach), lookup s.m.ops id = some o → s.m.ctx? o.ctx = some x →
        o.kind.move? = some v → o.copied = false → s.m.mayMove id o x = true → o.cancel = false → s.m.stillGood x v.src = true → s.m.stillGood x v.dst = true →
        moveChunk s.mgmt ((s.m.begin o).askOp o) o v = .moved m → v.ln * v.nrow ≤ 4096 * (o.chunk + 1) → o.fo = none →
        o.target = .reg i p q → lookup m.ops id = some o → m.wave? i = some w →
        ∃ t u, exec (.engineChunk id) s = .next t ∧ lookup t.m.ops id = none ∧ t.m.wave? i = some u ∧ rStat (u.getQ p q) = 1 ∧ rEng (u.getQ p q) = v.eng)
    -- a collective of one participant whose destination is mapped
    ∧ (∀ (s : State) (desc id fn n d a sl : Nat) (t : Ty) (o : EngOp) (x : Ctx) (m : Mach) (data : List Byte),
        s.m.collHeads desc = [(id, o)] → s.m.homeN desc 4 = 1 → o.kind = .coll fn t d a n desc sl → fn < 4 → s.m.ctx? o.ctx = some x → s.m.running x = true →
        o.held = none → s.m.poisonedRun (desc, 64) = false → collSources s.mgmt s.m [(id, o)] = .ready m [{ id, o, dst := d, slot := sl, data }] →
        (∃ ws, (collDest s.mgmt m { id, o, dst := d, slot := sl, data } (collResult fn t n (s.m.homeN (desc + 4) 2) [{ id, o, dst := d, slot := sl, data }]).1).1 = .ok ws) →
        lookup m.ops id = some o → ∃ t, exec (.collInstanceComplete desc) s = .next t ∧ (isMem (desc + 8) = true → ∃ k, t.m.rdN (desc + 8) 8 = (k + 1) % 2 ^ 64)
          ∧ ∀ y ∈ t.m.ops, y.1 ≠ id)
    -- what the part does on its own
    ∧ (∀ (s : State) (id n : Nat) (w : Wave), s.m.wave? id = some w → s.m.resident w = true → n ∈ w.missing → s.m.poisonedRun (w.image + 128 * n, 128) = false →
        ∃ t v, exec (.regfileLineFetch id n) s = .next t ∧ t.m.wave? id = some v ∧ n ∉ v.missing)
    ∧ (∀ (s : State) (core ctx line : Nat) (y : L1Line) (o : Nat), y ∈ s.m.l1 → y.is core ctx line = true → (s.m.l1.filter fun z => z.line == line).length = 1 →
        y.dirty.getLsbD o = true → o < 128 →
        ∃ t, exec (.l1Writeback core ctx line) s = .next t ∧ mget memDefault t.m.mem (128 * line + o) = lineByte y.data o ∧ ∀ z ∈ t.m.l1, z.is core ctx line = false)
    ∧ (∀ (s : State) (line : Nat), (∃ x ∈ s.m.l2, x.line = line) → (∀ p ∈ s.m.pins, p.line ≠ line) →
        ∃ t, exec (.l2Writeback line) s = .next t ∧ t.m.mem = s.m.mem ∧ ∀ x ∈ t.m.l2, x.line ≠ line)
    ∧ (∀ (s : State) (c page : Nat) (x : Ctx) p, s.m.ctx? c = some x → x.pending.find? (fun p => p.page == page) = some p → p.written = false →
        let logn := s.m.rdN (x.fltring + 0xC) 1
        let widx := s.m.rdN x.fltring 4
        6 ≤ logn → logn ≤ 16 → (widx + 2 ^ 32 - s.m.rdN (x.fltring + 4) 4) % 2 ^ 32 < 2 ^ logn → (s.m.vf x.part x.vf).irq = none → x.pmsel = [] →
        ∃ t, exec (.faultRecordWrite c page) s = .next t ∧ t.m.rdN x.fltring 4 = (widx + 1) % 2 ^ 32)
    ∧ ∀ (s : State) (c page frame : Nat) (x : Ctx) (pa : Nat) (leaf : W64) (level : Nat), s.m.ctx? c = some x → walk s.mgmt s.m x (page * 65536) {} = .ok pa leaf level →
        let n := 2 ^ levelShift level
        isMem (pa - pa % n) = true → frame % n = 0 → s.mgmt.owns x.part frame = true → meets (pa - pa % n) n frame n = false →
        ∃ t, exec (.pageMigration c page frame) s = .next t ∧ (Config.migrationAbandoned s.m.tick = true → (c, page) ∈ t.m.abandoned ∧ t.m.mem = s.m.mem)
          ∧ (Config.migrationAbandoned s.m.tick = false → ∀ y ∈ t.m.tlb, ¬ (y.ctx = c ∧ y.vpage = page))

/-! ## The whole machine -/

/-- R54, R318 to R320, R336: a step that the agenda gives to a wave runs the instruction that the words at its PC decode to, when
nothing holds the wave, no debug cause comes first, and the registers and lines that it names are there: that is `exec` of
it, with the wave current, its base word kept, and the issue counted. A word that one of the tests before execution
refuses runs as `emulate`. Where the rules leave room, it follows the model's own readings, log entries 1, 17 and 60. -/
def Obligations.StepRunsTheDecodedInstruction : Prop :=
  (∀ (s : State) (id : Nat) (rest : List Action), s.agenda = .issue id :: rest →
    let s' : State := { s.ticked with agenda := rest }
    ∀ (w : Wave) (x : Ctx) (b : Block) (word ext : W64) (m1 m2 : Mach) (i : Instr),
      s'.m.wave? id = some w → s'.m.ctx? w.ctx = some x → s'.m.block? w.block = some b →
      s'.m.resident w = true → s'.m.running x = true → s'.m.blocked id w x b = none →
      (∀ k n, w.hold ≠ .wait k (.paths n)) → fetchWord s'.mgmt (s'.m.askWave w) w.core w.ctx w.pc.toNat = .word word m1 →
      (if word.getLsbD 54 = true then fetchWord s'.mgmt m1 w.core w.ctx (w.pc + 8).toNat = .word ext m2 else ext = 0 ∧ m2 = m1) →
      let now : Mach := { m2 with cur := some id, word }
      let runs := fun (j : Instr) =>
        (j = .zeroWord ∨ (∃ r, j = .emulate r) ∨ (∃ op, j = .microcodeOp op ∧ ∀ l, now.launch? w.launch = some l → x.provides l.ucode op = false) ∨ debugBefore now x b w j = none ∨ w.hold.early = false) →
        (∀ u ∈ usesOf j, (∀ a ∈ w.acc, a.busy u = false) ∧ now.followBusy id u = false ∧ ∀ l ∈ w.linesFor u, l ∉ w.missing) →
          step s = exec j { s' with m := (now.countIssue w j).putWave id { w with passed := 0, yielded := false } }
      (decode word ext = .ok i → w.boundsOk i = true → (∀ u, unitOf i = some u → x.unitdis.getLsbD u = false) → runs i)
        ∧ (decode word ext = .ok i → w.boundsOk i = true → (∃ u, unitOf i = some u ∧ x.unitdis.getLsbD u = true) → runs (.emulate .unit))
        ∧ (decode word ext = .ok i → w.boundsOk i = false → runs (.emulate .bound))
        ∧ (decode word ext = .error .zeroWord → runs .zeroWord)
        ∧ (∀ r, decode word ext = .error (.undef r) → runs (.emulate r))
        ∧ (∀ op, decode word ext = .error (.microcode op) → runs (.microcodeOp op)))
    -- a step with nothing on the agenda issues the next wave, once nothing else can happen
    ∧ (∀ (s : State) (id : Nat) (others : List Nat), s.agenda = [] → (∀ f ∈ s.ticked.candidates, s.ticked.enabled f = false) →
        s.ticked.nextWave = some (id, others) → step s = issueWave { s.ticked with m := s.ticked.m.passOver others } id)
    ∧ ∀ (s : State) (i : Instr) (rest : List Action), s.agenda = .event i :: rest → isEvent i = true →
        step s = exec i { s.ticked with agenda := rest }

/-- Encodings that the spec writes out (R43 to R50, R105, R111, R112, R245, R251, R271, R152, and the tables of the
chapters) decode to the instructions that they stand for. -/
def Obligations.SpecWordsDecode : Prop :=
  decodeTableWord 64 0x4000050600000101 = some (.cvt .zero false { k := 0, d := .vec 5, a := .vec 6, dst := .ty .i32, src := .f32 })
    ∧ decodeTableWord 64 0x5300090400000308 = some (.redAdd .near false { k := 0, ty := .f32, d := .sca 9, a := .vec 4 })
    ∧ decodeTableWord 64 0x5003020181000040 = some (.shflDown { k := 0, ty := .b32, d := 2, a := 1, b := .con .one })
    ∧ decodeTableWord 64 0x600000FFFFFFFFF8 = some (.br 0xFFFFFFFFF8)
    ∧ decodeTableWord 64 0xB002008080000008 = some (.barSync true (.con .zero) (.con .zero))
    ∧ decodeTableWord 64 0xB200000000000040 = some (.ralloc 64)
    ∧ decodeTableWord 128 0x0200000000000040B141000A0C000000 = some (.spawnL 0 2 10 12 64)
    ∧ decodeTableWord 64 0x7110090200040008 = some (.st (.vec 9) { uni := false, addr := .base 2, off := 64, ty := .b32, k := 0, scope := .device, strm := false })
    ∧ decodeTableWord 128 0x06000000000000027870050803000208 = some (.atomAdd
        { m := { uni := false, addr := .idx 8 3 true, off := 0, ty := .n32, k := 0, scope := .device, strm := false }
          d := some (.vec 5), b := .vec 6, c := none, acq := false, rel := true })
    ∧ decodeTableWord 64 0x7701000000000000 = some (.wcntSt 0)
    ∧ decodeTableWord 64 0x7E01000000000020 = some (.grelAll .device)
    ∧ decodeTableWord 64 0x8400008000000003 = some (.waitb (.con .zero) 3)
    ∧ decodeTableWord 128 0x00150000000000009240001000030000 = some (.wload { q := 0, a := 16, fmt := .bf16, sp := 21, scale := none, cont := false })
    ∧ decodeTableWord 64 0 = none ∧ decode 0 0 = .error .zeroWord

/-- R43 to R53: the decoder reads back every instruction that the encoder writes, with every operand at every value that the
encoding admits; so no two instructions have the same words. Where the rules leave room, it follows the model's own
readings, log entry 41. -/
def Obligations.DecodeUndoesEncode : Prop :=
  (∀ i : Instr, Laws.RoundTrip.Statement i)
    ∧ ∀ (i j : Instr) (e : Sys2Proof.Enc), i.enc = some e → j.enc = some e → i.wf = true → j.wf = true → i = j

/-- R302, R303, R347, R349, R360: the machine right after device reset: nothing is registered, nothing runs, memory reads as zeros,
partition 0 holds every span and link, and function 0 has the report. Memory has its canonical form, and the invariant of
`ManagementStaysLegal` holds. Where the rules leave room, it follows the model's own readings, log entries 1, 2 and
54. -/
def Obligations.ResetState : Prop :=
  let s := State.reset
  s.m.ctxs = [] ∧ s.m.queues = [] ∧ s.m.launches = [] ∧ s.m.blocks = [] ∧ s.m.waves = [] ∧ s.m.ops = [] ∧ s.m.tlb = [] ∧ s.m.l1 = [] ∧ s.m.l2 = []
    ∧ s.agenda = [] ∧ (∀ a n, s.m.rd a n = List.replicate n 0) ∧ Memory.wf s.m.mem = true
    ∧ (s.mgmt.entry 0).spans = 0xFF ∧ (s.mgmt.entry 0).links = 0xFFFF ∧ (s.mgmt.entry 0).fshare = 256
    ∧ (∀ p, 1 ≤ p → p < 8 → (s.mgmt.entry p).spans = 0 ∧ (s.mgmt.entry p).links = 0)
    ∧ (∀ p < 8, (s.mgmt.entry p).nvf = 1 ∧ (s.mgmt.entry p).slice = 10000)
    ∧ s.mgmt.booted = true ∧ s.mgmt.threshold = 64 ∧ s.mgmt.powerCap = 1900
    ∧ (s.m.vf 0 0).rstinfo = 0x30000FFFF ∧ (s.m.vf 0 0).rstaddr = 0
    ∧ s.legal

/-- R302, R351, R357 to R360: from every state in which the partition table, the clock, the cap and the power state are legal, a
step leads to one in which they are, and no core leaves retirement. -/
def Obligations.ManagementStaysLegal : Prop :=
  ∀ s t, s.legal → step s = .next t → t.legal ∧ ∀ core, s.mgmt.retmask.getLsbD core = true → t.mgmt.retmask.getLsbD core = true

/-- R302, R358: no instruction that a wave issues reaches the management plane, or what is asked of the machine from outside. -/
def Obligations.WavesDoNotManage : Prop :=
  ∀ (s t : State) (i : Instr), isEvent i = false → exec i s = .next t → t.mgmt = s.mgmt ∧ t.agenda = s.agenda
end

