-- ==== Sys2Proof/Laws/Floats.lean ====
section
/-!
SUPPORT. What patterns of the four IEEE formats stand for (spec/03_numbers.md R66, R67).
-/

namespace Sys2Proof.Machine

theorem Fmt.val_nan {f : Fmt} {a : Nat} (h : f.isNaN a = true) : f.val a = .nan := by
  simp only [Fmt.isNaN, decide_eq_true_eq] at h; simp [Fmt.val, h]
theorem Fmt.val_inf {f : Fmt} {a : Nat} (h : f.mag a = f.infPat) : f.val a = .inf (f.neg? a) := by
  simp [Fmt.val, h]
theorem Fmt.not_nan {f : Fmt} {a : Nat} (h : f.mag a ≤ f.infPat) : f.isNaN a = false := by simpa [Fmt.isNaN] using h
theorem Fmt.not_snan {f : Fmt} {a : Nat} (h : ¬ f.isNaN a = true) : f.isSNaN a = false := by simp [Fmt.isSNaN, h]

theorem Fmt.infPat_pos {f : Fmt} (hf : f ∈ [Fmt.f32, Fmt.f64, Fmt.f16, Fmt.bf16]) : 0 < f.infPat := by fin_cases hf <;> decide
theorem Fmt.val_zero {f : Fmt} (hf : f ∈ [Fmt.f32, Fmt.f64, Fmt.f16, Fmt.bf16]) {a : Nat} (h : f.mag a = 0) : f.val a = .fin (f.neg? a) 0 f.qmin := by
  have := Fmt.infPat_pos hf
  simp [Fmt.val, h, Nat.ne_of_lt this]
theorem Fmt.val_num {f : Fmt} {a : Nat} (h : f.mag a < f.infPat) (h0 : f.mag a ≠ 0) : ∃ m e, m ≠ 0 ∧ f.val a = .fin (f.neg? a) m e := by
  simp only [Fmt.val, not_lt.2 h.le, if_false, h.ne]
  split
  · rename_i e
    refine ⟨_, _, ?_, rfl⟩
    intro c
    have := Nat.div_add_mod (f.mag a) (2 ^ f.mb)
    rw [e, c] at this; omega
  · refine ⟨_, _, ?_, rfl⟩
    have : 0 < 2 ^ f.mb := by positivity
    omega
theorem Fmt.quieted_eq {f : Fmt} (hf : f ∈ [Fmt.f32, Fmt.f64, Fmt.f16, Fmt.bf16]) {a : Nat} (h : f.isNaN a = true) : f.quieted a = if a / f.quiet % 2 = 1 then a else a + f.quiet := by
  simp only [Fmt.isNaN, decide_eq_true_eq] at h
  unfold Fmt.quieted
  have key : (f.mag a < f.nan) ↔ ¬ (a / f.quiet % 2 = 1) := by
    fin_cases hf <;> simp [Fmt.mag, Fmt.nan, Fmt.infPat, Fmt.quiet, Fmt.signBit, Fmt.f32, Fmt.f64, Fmt.f16, Fmt.bf16] at * <;> omega
  by_cases c : f.mag a < f.nan
  · rw [if_pos c, if_neg (key.1 c)]
  · rw [if_neg c, if_pos (not_not.1 (fun g => c (key.2 g)))]
theorem Fmt.pos_eq {f : Fmt} (hf : f ∈ [Fmt.f32, Fmt.f64, Fmt.f16, Fmt.bf16]) {a : Nat} (ha : a < 2 ^ f.width) (h : f.neg? a = false) : a = f.mag a := by
  fin_cases hf <;> simp [Fmt.mag, Fmt.neg?, Fmt.signBit, Fmt.width, Fmt.f32, Fmt.f64, Fmt.f16, Fmt.bf16] at * <;> omega

end Sys2Proof.Machine
end

