-- ==== Sys2Proof/Laws/Maps.lean ====
section
/-!
SUPPORT. Sparse maps: a read after a write, and that every write keeps the canonical form.
-/

namespace Sys2Proof.Machine

variable {β : Type}

/-- A map is in canonical form just when its keys rise strictly and it lists no default. -/
theorem mwf_cons [DecidableEq β] (d : β) (a : Nat) (x : β) (r : List (Nat × β)) :
    mwf d ((a, x) :: r) = true ↔ x ≠ d ∧ (∀ p ∈ r, a < p.1) ∧ mwf d r = true := by
  simp [mwf, and_assoc]

theorem mwf_filter [DecidableEq β] (d : β) (f : Nat × β → Bool) : ∀ (l : List (Nat × β)), mwf d l = true → mwf d (l.filter f) = true
  | [], _ => rfl
  | (a, x) :: r, h => by
    obtain ⟨h1, h2, h3⟩ := (mwf_cons d a x r).1 h
    simp only [List.filter]
    split
    · exact (mwf_cons _ _ _ _).2 ⟨h1, fun p hp => h2 p (List.mem_filter.1 hp).1, mwf_filter d f r h3⟩
    · exact mwf_filter d f r h3

theorem mins_keys (k n : Nat) (v : β) (hk : n < k) : ∀ (l : List (Nat × β)), (∀ p ∈ l, n < p.1) → ∀ p ∈ mins l k v, n < p.1
  | [], _, p, hp => by simp only [mins, List.mem_singleton] at hp; subst hp; exact hk
  | (a, x) :: r, h, p, hp => by
    have hr : ∀ q ∈ r, n < q.1 := fun q hq => h q (by simp [hq])
    unfold mins at hp
    split at hp
    · rcases List.mem_cons.1 hp with rfl | hp
      · exact hk
      · exact h p hp
    · split at hp
      · rcases List.mem_cons.1 hp with rfl | hp
        · exact hk
        · exact hr p hp
      · rcases List.mem_cons.1 hp with rfl | hp
        · exact h (a, x) (by simp)
        · exact mins_keys k n v hk r hr p hp

theorem mwf_mins [DecidableEq β] (d : β) (k : Nat) (v : β) (hv : v ≠ d) :
    ∀ (l : List (Nat × β)), mwf d l = true → mwf d (mins l k v) = true
  | [], _ => by simp [mins, mwf, hv]
  | (a, x) :: r, h => by
    obtain ⟨h1, h2, h3⟩ := (mwf_cons d a x r).1 h
    unfold mins
    split
    · refine (mwf_cons _ _ _ _).2 ⟨hv, fun p hp => ?_, h⟩
      rcases List.mem_cons.1 hp with rfl | hp
      · assumption
      · exact Nat.lt_trans ‹k < a› (h2 p hp)
    · split
      · subst_vars; exact (mwf_cons _ _ _ _).2 ⟨hv, h2, h3⟩
      · exact (mwf_cons _ _ _ _).2 ⟨h1, mins_keys k a v (by omega) r h2, mwf_mins d k v hv r h3⟩

/-- Every write keeps the canonical form. -/
theorem mwf_mset [DecidableEq β] (d : β) (l : List (Nat × β)) (k : Nat) (v : β) (h : mwf d l = true) : mwf d (mset d l k v) = true := by
  unfold mset
  split
  · exact mwf_filter d _ l h
  · exact mwf_mins d k v ‹_› l h

theorem mget_del (d : β) (k j : Nat) : ∀ (l : List (Nat × β)),
    mget d (l.filter (fun p => p.1 != k)) j = if j = k then d else mget d l j
  | [] => by simp [mget]
  | (a, x) :: r => by
    have ih := mget_del d k j r
    by_cases e : a = k
    · subst e
      simp only [List.filter, bne_self_eq_false, ih]
      by_cases e : j = a
      · subst e; simp
      · have e' : ¬ a = j := fun h => e h.symm
        simp [mget, e, e']
    · have : (a != k) = true := by simp [e]
      simp only [List.filter, this, mget, ih]
      by_cases e' : a = j
      · subst e'; simp [e]
      · simp [e']

theorem mget_mins (d : β) (k j : Nat) (v : β) : ∀ (l : List (Nat × β)),
    mget d (mins l k v) j = if j = k then v else mget d l j
  | [] => by
    simp only [mins, mget]
    by_cases e : j = k
    · simp [e]
    · have e' : ¬ k = j := fun h => e h.symm
      simp [e, e']
  | (a, x) :: r => by
    have ih := mget_mins d k j v r
    unfold mins
    by_cases e : j = k
    · subst e
      split
      · simp [mget]
      · split
        · simp [mget]
        · simp [mget, ih, show ¬ a = j by omega]
    · have e' : ¬ k = j := fun h => e h.symm
      split
      · simp [mget, e, e']
      · split
        · subst_vars; simp [mget, e']
        · simp [mget, ih, e]

/-- A read gives what was last written there, and what it gave before everywhere else. -/
@[simp] theorem mget_mset [DecidableEq β] (d : β) (l : List (Nat × β)) (k : Nat) (v : β) (j : Nat) :
    mget d (mset d l k v) j = if j = k then v else mget d l j := by
  unfold mset
  split
  · subst_vars; exact mget_del v k j l
  · exact mget_mins d k j v l

@[simp] theorem lookup_put : ∀ (l : List (Nat × β)) (k : Nat) (v : β) (j : Nat),
    lookup (put l k v) j = if j = k then some v else lookup l j
  | [], k, v, j => by simp only [put, lookup]; split <;> split <;> simp_all
  | (a, x) :: r, k, v, j => by
    unfold put
    split
    · rename_i ha
      subst ha
      by_cases e : j = a
      · subst e; simp [lookup]
      · have e' : ¬ a = j := fun h => e h.symm
        simp [lookup, e, e']
    · rw [lookup, lookup, lookup_put r k v j]
      by_cases e : a = j
      · subst e; simp [*]
      · simp [e]

@[simp] theorem lookup_upd (f : β → β) : ∀ (l : List (Nat × β)) (k j : Nat),
    lookup (upd l k f) j = if j = k then (lookup l j).map f else lookup l j
  | [], k, j => by simp [upd, lookup]
  | (a, x) :: r, k, j => by
    unfold upd
    split
    · rename_i ha
      subst ha
      by_cases e : j = a
      · subst e; simp [lookup]
      · have e' : ¬ a = j := fun h => e h.symm
        simp [lookup, e, e']
    · rw [lookup, lookup, lookup_upd f r k j]
      by_cases e : a = j
      · subst e; simp [*]
      · simp [e]

theorem lookup_del (l : List (Nat × β)) (k j : Nat) : lookup (del l k) j = if j = k then none else lookup l j := by
  induction l with
  | nil => simp [del, lookup]
  | cons p r ih =>
    obtain ⟨a, x⟩ := p
    unfold del at ih ⊢
    by_cases e : a = k
    · subst e
      simp only [List.filter, bne_self_eq_false, ih]
      by_cases e : j = a
      · subst e; simp
      · have e' : ¬ a = j := fun h => e h.symm
        simp [lookup, e, e']
    · have : (a != k) = true := by simp [e]
      simp only [List.filter, this, lookup, ih]
      by_cases e' : a = j
      · subst e'; simp [e]
      · simp [e']

theorem mwf_msetN [DecidableEq β] (d : β) : ∀ (v : List β) (l : List (Nat × β)) (k : Nat),
    mwf d l = true → mwf d (msetN d l k v) = true
  | [], _, _, h => h
  | x :: r, l, k, h => mwf_msetN d r (mset d l k x) (k + 1) (mwf_mset d l k x h)

/-- Consecutive writes: a key in the run reads as its element, and every other key as before. -/
theorem mget_msetN [DecidableEq β] (d : β) : ∀ (v : List β) (l : List (Nat × β)) (k j : Nat),
    mget d (msetN d l k v) j = if k ≤ j ∧ j < k + v.length then v.getD (j - k) d else mget d l j
  | [], l, k, j => (if_neg fun h => absurd h.2 (Nat.not_lt.mpr h.1)).symm
  | x :: r, l, k, j => by
    rw [msetN, mget_msetN d r, mget_mset]
    by_cases e : j = k
    · subst e; simp [show ¬ (j + 1 ≤ j) by omega]
    · by_cases g : k + 1 ≤ j ∧ j < k + 1 + r.length
      · rw [if_pos g, if_pos ⟨by omega, by simp; omega⟩]
        obtain ⟨n, hn⟩ : ∃ n, j - k = n + 1 := ⟨j - k - 1, by omega⟩
        rw [hn, show j - (k + 1) = n by omega]
        simp
      · rw [if_neg g, if_neg e, if_neg (by simp; omega)]

theorem mgetN_length (d : β) : ∀ (n : Nat) (l : List (Nat × β)) (k : Nat), (mgetN d l k n).length = n
  | 0, _, _ => rfl
  | n + 1, l, k => by simp [mgetN, mgetN_length d n]

theorem mgetN_getD [DecidableEq β] (d : β) : ∀ (n : Nat) (l : List (Nat × β)) (k i : Nat), i < n → (mgetN d l k n).getD i d = mget d l (k + i)
  | 0, _, _, _, h => by omega
  | n + 1, l, k, 0, _ => by simp [mgetN]
  | n + 1, l, k, i + 1, h => by
    have := mgetN_getD d n l (k + 1) i (by omega)
    simp only [mgetN, List.getD_cons_succ, this]
    congr 1; omega

/-- What was written reads back. -/
theorem mgetN_msetN [DecidableEq β] (d : β) (v : List β) (l : List (Nat × β)) (k : Nat) :
    mgetN d (msetN d l k v) k v.length = v := by
  apply List.ext_getElem
  · exact mgetN_length _ _ _ _
  · intro i h1 h2
    have a := mgetN_getD d v.length (msetN d l k v) k i h2
    rw [mget_msetN, if_pos ⟨by omega, by omega⟩] at a
    rw [← List.getElem_eq_getD (h := h1) d, show k + i - k = i by omega, ← List.getElem_eq_getD (h := h2) d] at a
    exact a

/-- Elsewhere every byte reads as before. -/
theorem mgetN_msetN_other [DecidableEq β] (d : β) (v : List β) (l : List (Nat × β)) (k j n : Nat)
    (g : j + n ≤ k ∨ k + v.length ≤ j) : mgetN d (msetN d l k v) j n = mgetN d l j n := by
  apply List.ext_getElem
  · rw [mgetN_length, mgetN_length]
  · intro i h1 h2
    have hn : i < n := by rw [mgetN_length] at h1; exact h1
    have a := mgetN_getD d n (msetN d l k v) j i hn
    have b := mgetN_getD d n l j i hn
    rw [mget_msetN, if_neg (by omega)] at a
    rw [← List.getElem_eq_getD (h := h1) d] at a
    rw [← List.getElem_eq_getD (h := h2) d] at b
    rw [a, b]

end Sys2Proof.Machine
end

