-- ==== Sys2Proof/Laws/State.lean ====
section
/-!
SUPPORT. What each single update of the state leaves as it was, one lemma per field, so that no later proof
unfolds a record update.
-/

namespace Sys2Proof.Machine

/-! ### `Mach.putWave` -/

@[simp] theorem Mach.putWave_mem (m : Mach) (w : Nat) (x : Wave) : (m.putWave w x).mem = m.mem := rfl
@[simp] theorem Mach.putWave_poison (m : Mach) (w : Nat) (x : Wave) : (m.putWave w x).poison = m.poison := rfl
@[simp] theorem Mach.putWave_eaten (m : Mach) (w : Nat) (x : Wave) : (m.putWave w x).eaten = m.eaten := rfl
@[simp] theorem Mach.putWave_ctags (m : Mach) (w : Nat) (x : Wave) : (m.putWave w x).ctags = m.ctags := rfl
@[simp] theorem Mach.putWave_coded (m : Mach) (w : Nat) (x : Wave) : (m.putWave w x).coded = m.coded := rfl
@[simp] theorem Mach.putWave_attrs (m : Mach) (w : Nat) (x : Wave) : (m.putWave w x).attrs = m.attrs := rfl
@[simp] theorem Mach.putWave_l1 (m : Mach) (w : Nat) (x : Wave) : (m.putWave w x).l1 = m.l1 := rfl
@[simp] theorem Mach.putWave_rdc (m : Mach) (w : Nat) (x : Wave) : (m.putWave w x).rdc = m.rdc := rfl
@[simp] theorem Mach.putWave_icache (m : Mach) (w : Nat) (x : Wave) : (m.putWave w x).icache = m.icache := rfl
@[simp] theorem Mach.putWave_l2 (m : Mach) (w : Nat) (x : Wave) : (m.putWave w x).l2 = m.l2 := rfl
@[simp] theorem Mach.putWave_pins (m : Mach) (w : Nat) (x : Wave) : (m.putWave w x).pins = m.pins := rfl
@[simp] theorem Mach.putWave_tlb (m : Mach) (w : Nat) (x : Wave) : (m.putWave w x).tlb = m.tlb := rfl
@[simp] theorem Mach.putWave_hcache (m : Mach) (w : Nat) (x : Wave) : (m.putWave w x).hcache = m.hcache := rfl
@[simp] theorem Mach.putWave_maps (m : Mach) (w : Nat) (x : Wave) : (m.putWave w x).maps = m.maps := rfl
@[simp] theorem Mach.putWave_recent (m : Mach) (w : Nat) (x : Wave) : (m.putWave w x).recent = m.recent := rfl
@[simp] theorem Mach.putWave_ctxs (m : Mach) (w : Nat) (x : Wave) : (m.putWave w x).ctxs = m.ctxs := rfl
@[simp] theorem Mach.putWave_vfs (m : Mach) (w : Nat) (x : Wave) : (m.putWave w x).vfs = m.vfs := rfl
@[simp] theorem Mach.putWave_parts (m : Mach) (w : Nat) (x : Wave) : (m.putWave w x).parts = m.parts := rfl
@[simp] theorem Mach.putWave_queues (m : Mach) (w : Nat) (x : Wave) : (m.putWave w x).queues = m.queues := rfl
@[simp] theorem Mach.putWave_launches (m : Mach) (w : Nat) (x : Wave) : (m.putWave w x).launches = m.launches := rfl
@[simp] theorem Mach.putWave_tsets (m : Mach) (w : Nat) (x : Wave) : (m.putWave w x).tsets = m.tsets := rfl
@[simp] theorem Mach.putWave_tiles (m : Mach) (w : Nat) (x : Wave) : (m.putWave w x).tiles = m.tiles := rfl
@[simp] theorem Mach.putWave_slotTab (m : Mach) (w : Nat) (x : Wave) : (m.putWave w x).slotTab = m.slotTab := rfl
@[simp] theorem Mach.putWave_forming (m : Mach) (w : Nat) (x : Wave) : (m.putWave w x).forming = m.forming := rfl
@[simp] theorem Mach.putWave_blocks (m : Mach) (w : Nat) (x : Wave) : (m.putWave w x).blocks = m.blocks := rfl
@[simp] theorem Mach.putWave_waves (m : Mach) (w : Nat) (x : Wave) : (m.putWave w x).waves = put m.waves w x := rfl
@[simp] theorem Mach.putWave_ops (m : Mach) (w : Nat) (x : Wave) : (m.putWave w x).ops = m.ops := rfl
@[simp] theorem Mach.putWave_colls (m : Mach) (w : Nat) (x : Wave) : (m.putWave w x).colls = m.colls := rfl
@[simp] theorem Mach.putWave_array (m : Mach) (w : Nat) (x : Wave) : (m.putWave w x).array = m.array := rfl
@[simp] theorem Mach.putWave_latch (m : Mach) (w : Nat) (x : Wave) : (m.putWave w x).latch = m.latch := rfl
@[simp] theorem Mach.putWave_units (m : Mach) (w : Nat) (x : Wave) : (m.putWave w x).units = m.units := rfl
@[simp] theorem Mach.putWave_spawnq (m : Mach) (w : Nat) (x : Wave) : (m.putWave w x).spawnq = m.spawnq := rfl
@[simp] theorem Mach.putWave_escrow (m : Mach) (w : Nat) (x : Wave) : (m.putWave w x).escrow = m.escrow := rfl
@[simp] theorem Mach.putWave_peerOut (m : Mach) (w : Nat) (x : Wave) : (m.putWave w x).peerOut = m.peerOut := rfl
@[simp] theorem Mach.putWave_outside (m : Mach) (w : Nat) (x : Wave) : (m.putWave w x).outside = m.outside := rfl
@[simp] theorem Mach.putWave_abandoned (m : Mach) (w : Nat) (x : Wave) : (m.putWave w x).abandoned = m.abandoned := rfl
@[simp] theorem Mach.putWave_msis (m : Mach) (w : Nat) (x : Wave) : (m.putWave w x).msis = m.msis := rfl
@[simp] theorem Mach.putWave_asker (m : Mach) (w : Nat) (x : Wave) : (m.putWave w x).asker = m.asker := rfl
@[simp] theorem Mach.putWave_cur (m : Mach) (w : Nat) (x : Wave) : (m.putWave w x).cur = m.cur := rfl
@[simp] theorem Mach.putWave_word (m : Mach) (w : Nat) (x : Wave) : (m.putWave w x).word = m.word := rfl
@[simp] theorem Mach.putWave_nextId (m : Mach) (w : Nat) (x : Wave) : (m.putWave w x).nextId = m.nextId := rfl
@[simp] theorem Mach.putWave_changes (m : Mach) (w : Nat) (x : Wave) : (m.putWave w x).changes = m.changes := rfl
@[simp] theorem Mach.putWave_tick (m : Mach) (w : Nat) (x : Wave) : (m.putWave w x).tick = m.tick := rfl
@[simp] theorem Mach.putWave_free (m : Mach) (w : Nat) (x : Wave) : (m.putWave w x).free = m.free := rfl
@[simp] theorem Mach.putWave_boot (m : Mach) (w : Nat) (x : Wave) : (m.putWave w x).boot = m.boot := rfl

/-! ### `Mach.updCtx` -/

@[simp] theorem Mach.updCtx_mem (m : Mach) (c : Nat) (f : Ctx → Ctx) : (m.updCtx c f).mem = m.mem := rfl
@[simp] theorem Mach.updCtx_poison (m : Mach) (c : Nat) (f : Ctx → Ctx) : (m.updCtx c f).poison = m.poison := rfl
@[simp] theorem Mach.updCtx_eaten (m : Mach) (c : Nat) (f : Ctx → Ctx) : (m.updCtx c f).eaten = m.eaten := rfl
@[simp] theorem Mach.updCtx_ctags (m : Mach) (c : Nat) (f : Ctx → Ctx) : (m.updCtx c f).ctags = m.ctags := rfl
@[simp] theorem Mach.updCtx_coded (m : Mach) (c : Nat) (f : Ctx → Ctx) : (m.updCtx c f).coded = m.coded := rfl
@[simp] theorem Mach.updCtx_attrs (m : Mach) (c : Nat) (f : Ctx → Ctx) : (m.updCtx c f).attrs = m.attrs := rfl
@[simp] theorem Mach.updCtx_l1 (m : Mach) (c : Nat) (f : Ctx → Ctx) : (m.updCtx c f).l1 = m.l1 := rfl
@[simp] theorem Mach.updCtx_rdc (m : Mach) (c : Nat) (f : Ctx → Ctx) : (m.updCtx c f).rdc = m.rdc := rfl
@[simp] theorem Mach.updCtx_icache (m : Mach) (c : Nat) (f : Ctx → Ctx) : (m.updCtx c f).icache = m.icache := rfl
@[simp] theorem Mach.updCtx_l2 (m : Mach) (c : Nat) (f : Ctx → Ctx) : (m.updCtx c f).l2 = m.l2 := rfl
@[simp] theorem Mach.updCtx_pins (m : Mach) (c : Nat) (f : Ctx → Ctx) : (m.updCtx c f).pins = m.pins := rfl
@[simp] theorem Mach.updCtx_tlb (m : Mach) (c : Nat) (f : Ctx → Ctx) : (m.updCtx c f).tlb = m.tlb := rfl
@[simp] theorem Mach.updCtx_hcache (m : Mach) (c : Nat) (f : Ctx → Ctx) : (m.updCtx c f).hcache = m.hcache := rfl
@[simp] theorem Mach.updCtx_maps (m : Mach) (c : Nat) (f : Ctx → Ctx) : (m.updCtx c f).maps = m.maps := rfl
@[simp] theorem Mach.updCtx_recent (m : Mach) (c : Nat) (f : Ctx → Ctx) : (m.updCtx c f).recent = m.recent := rfl
@[simp] theorem Mach.updCtx_ctxs (m : Mach) (c : Nat) (f : Ctx → Ctx) : (m.updCtx c f).ctxs = upd m.ctxs c f := rfl
@[simp] theorem Mach.updCtx_vfs (m : Mach) (c : Nat) (f : Ctx → Ctx) : (m.updCtx c f).vfs = m.vfs := rfl
@[simp] theorem Mach.updCtx_parts (m : Mach) (c : Nat) (f : Ctx → Ctx) : (m.updCtx c f).parts = m.parts := rfl
@[simp] theorem Mach.updCtx_queues (m : Mach) (c : Nat) (f : Ctx → Ctx) : (m.updCtx c f).queues = m.queues := rfl
@[simp] theorem Mach.updCtx_launches (m : Mach) (c : Nat) (f : Ctx → Ctx) : (m.updCtx c f).launches = m.launches := rfl
@[simp] theorem Mach.updCtx_tsets (m : Mach) (c : Nat) (f : Ctx → Ctx) : (m.updCtx c f).tsets = m.tsets := rfl
@[simp] theorem Mach.updCtx_tiles (m : Mach) (c : Nat) (f : Ctx → Ctx) : (m.updCtx c f).tiles = m.tiles := rfl
@[simp] theorem Mach.updCtx_slotTab (m : Mach) (c : Nat) (f : Ctx → Ctx) : (m.updCtx c f).slotTab = m.slotTab := rfl
@[simp] theorem Mach.updCtx_forming (m : Mach) (c : Nat) (f : Ctx → Ctx) : (m.updCtx c f).forming = m.forming := rfl
@[simp] theorem Mach.updCtx_blocks (m : Mach) (c : Nat) (f : Ctx → Ctx) : (m.updCtx c f).blocks = m.blocks := rfl
@[simp] theorem Mach.updCtx_waves (m : Mach) (c : Nat) (f : Ctx → Ctx) : (m.updCtx c f).waves = m.waves := rfl
@[simp] theorem Mach.updCtx_ops (m : Mach) (c : Nat) (f : Ctx → Ctx) : (m.updCtx c f).ops = m.ops := rfl
@[simp] theorem Mach.updCtx_colls (m : Mach) (c : Nat) (f : Ctx → Ctx) : (m.updCtx c f).colls = m.colls := rfl
@[simp] theorem Mach.updCtx_array (m : Mach) (c : Nat) (f : Ctx → Ctx) : (m.updCtx c f).array = m.array := rfl
@[simp] theorem Mach.updCtx_latch (m : Mach) (c : Nat) (f : Ctx → Ctx) : (m.updCtx c f).latch = m.latch := rfl
@[simp] theorem Mach.updCtx_units (m : Mach) (c : Nat) (f : Ctx → Ctx) : (m.updCtx c f).units = m.units := rfl
@[simp] theorem Mach.updCtx_spawnq (m : Mach) (c : Nat) (f : Ctx → Ctx) : (m.updCtx c f).spawnq = m.spawnq := rfl
@[simp] theorem Mach.updCtx_escrow (m : Mach) (c : Nat) (f : Ctx → Ctx) : (m.updCtx c f).escrow = m.escrow := rfl
@[simp] theorem Mach.updCtx_peerOut (m : Mach) (c : Nat) (f : Ctx → Ctx) : (m.updCtx c f).peerOut = m.peerOut := rfl
@[simp] theorem Mach.updCtx_outside (m : Mach) (c : Nat) (f : Ctx → Ctx) : (m.updCtx c f).outside = m.outside := rfl
@[simp] theorem Mach.updCtx_abandoned (m : Mach) (c : Nat) (f : Ctx → Ctx) : (m.updCtx c f).abandoned = m.abandoned := rfl
@[simp] theorem Mach.updCtx_msis (m : Mach) (c : Nat) (f : Ctx → Ctx) : (m.updCtx c f).msis = m.msis := rfl
@[simp] theorem Mach.updCtx_asker (m : Mach) (c : Nat) (f : Ctx → Ctx) : (m.updCtx c f).asker = m.asker := rfl
@[simp] theorem Mach.updCtx_cur (m : Mach) (c : Nat) (f : Ctx → Ctx) : (m.updCtx c f).cur = m.cur := rfl
@[simp] theorem Mach.updCtx_word (m : Mach) (c : Nat) (f : Ctx → Ctx) : (m.updCtx c f).word = m.word := rfl
@[simp] theorem Mach.updCtx_nextId (m : Mach) (c : Nat) (f : Ctx → Ctx) : (m.updCtx c f).nextId = m.nextId := rfl
@[simp] theorem Mach.updCtx_changes (m : Mach) (c : Nat) (f : Ctx → Ctx) : (m.updCtx c f).changes = m.changes := rfl
@[simp] theorem Mach.updCtx_tick (m : Mach) (c : Nat) (f : Ctx → Ctx) : (m.updCtx c f).tick = m.tick := rfl
@[simp] theorem Mach.updCtx_free (m : Mach) (c : Nat) (f : Ctx → Ctx) : (m.updCtx c f).free = m.free := rfl
@[simp] theorem Mach.updCtx_boot (m : Mach) (c : Nat) (f : Ctx → Ctx) : (m.updCtx c f).boot = m.boot := rfl

/-! ### `Mach.updBlock` -/

@[simp] theorem Mach.updBlock_mem (m : Mach) (b : Nat) (f : Block → Block) : (m.updBlock b f).mem = m.mem := rfl
@[simp] theorem Mach.updBlock_poison (m : Mach) (b : Nat) (f : Block → Block) : (m.updBlock b f).poison = m.poison := rfl
@[simp] theorem Mach.updBlock_eaten (m : Mach) (b : Nat) (f : Block → Block) : (m.updBlock b f).eaten = m.eaten := rfl
@[simp] theorem Mach.updBlock_ctags (m : Mach) (b : Nat) (f : Block → Block) : (m.updBlock b f).ctags = m.ctags := rfl
@[simp] theorem Mach.updBlock_coded (m : Mach) (b : Nat) (f : Block → Block) : (m.updBlock b f).coded = m.coded := rfl
@[simp] theorem Mach.updBlock_attrs (m : Mach) (b : Nat) (f : Block → Block) : (m.updBlock b f).attrs = m.attrs := rfl
@[simp] theorem Mach.updBlock_l1 (m : Mach) (b : Nat) (f : Block → Block) : (m.updBlock b f).l1 = m.l1 := rfl
@[simp] theorem Mach.updBlock_rdc (m : Mach) (b : Nat) (f : Block → Block) : (m.updBlock b f).rdc = m.rdc := rfl
@[simp] theorem Mach.updBlock_icache (m : Mach) (b : Nat) (f : Block → Block) : (m.updBlock b f).icache = m.icache := rfl
@[simp] theorem Mach.updBlock_l2 (m : Mach) (b : Nat) (f : Block → Block) : (m.updBlock b f).l2 = m.l2 := rfl
@[simp] theorem Mach.updBlock_pins (m : Mach) (b : Nat) (f : Block → Block) : (m.updBlock b f).pins = m.pins := rfl
@[simp] theorem Mach.updBlock_tlb (m : Mach) (b : Nat) (f : Block → Block) : (m.updBlock b f).tlb = m.tlb := rfl
@[simp] theorem Mach.updBlock_hcache (m : Mach) (b : Nat) (f : Block → Block) : (m.updBlock b f).hcache = m.hcache := rfl
@[simp] theorem Mach.updBlock_maps (m : Mach) (b : Nat) (f : Block → Block) : (m.updBlock b f).maps = m.maps := rfl
@[simp] theorem Mach.updBlock_recent (m : Mach) (b : Nat) (f : Block → Block) : (m.updBlock b f).recent = m.recent := rfl
@[simp] theorem Mach.updBlock_ctxs (m : Mach) (b : Nat) (f : Block → Block) : (m.updBlock b f).ctxs = m.ctxs := rfl
@[simp] theorem Mach.updBlock_vfs (m : Mach) (b : Nat) (f : Block → Block) : (m.updBlock b f).vfs = m.vfs := rfl
@[simp] theorem Mach.updBlock_parts (m : Mach) (b : Nat) (f : Block → Block) : (m.updBlock b f).parts = m.parts := rfl
@[simp] theorem Mach.updBlock_queues (m : Mach) (b : Nat) (f : Block → Block) : (m.updBlock b f).queues = m.queues := rfl
@[simp] theorem Mach.updBlock_launches (m : Mach) (b : Nat) (f : Block → Block) : (m.updBlock b f).launches = m.launches := rfl
@[simp] theorem Mach.updBlock_tsets (m : Mach) (b : Nat) (f : Block → Block) : (m.updBlock b f).tsets = m.tsets := rfl
@[simp] theorem Mach.updBlock_tiles (m : Mach) (b : Nat) (f : Block → Block) : (m.updBlock b f).tiles = m.tiles := rfl
@[simp] theorem Mach.updBlock_slotTab (m : Mach) (b : Nat) (f : Block → Block) : (m.updBlock b f).slotTab = m.slotTab := rfl
@[simp] theorem Mach.updBlock_forming (m : Mach) (b : Nat) (f : Block → Block) : (m.updBlock b f).forming = m.forming := rfl
@[simp] theorem Mach.updBlock_blocks (m : Mach) (b : Nat) (f : Block → Block) : (m.updBlock b f).blocks = upd m.blocks b f := rfl
@[simp] theorem Mach.updBlock_waves (m : Mach) (b : Nat) (f : Block → Block) : (m.updBlock b f).waves = m.waves := rfl
@[simp] theorem Mach.updBlock_ops (m : Mach) (b : Nat) (f : Block → Block) : (m.updBlock b f).ops = m.ops := rfl
@[simp] theorem Mach.updBlock_colls (m : Mach) (b : Nat) (f : Block → Block) : (m.updBlock b f).colls = m.colls := rfl
@[simp] theorem Mach.updBlock_array (m : Mach) (b : Nat) (f : Block → Block) : (m.updBlock b f).array = m.array := rfl
@[simp] theorem Mach.updBlock_latch (m : Mach) (b : Nat) (f : Block → Block) : (m.updBlock b f).latch = m.latch := rfl
@[simp] theorem Mach.updBlock_units (m : Mach) (b : Nat) (f : Block → Block) : (m.updBlock b f).units = m.units := rfl
@[simp] theorem Mach.updBlock_spawnq (m : Mach) (b : Nat) (f : Block → Block) : (m.updBlock b f).spawnq = m.spawnq := rfl
@[simp] theorem Mach.updBlock_escrow (m : Mach) (b : Nat) (f : Block → Block) : (m.updBlock b f).escrow = m.escrow := rfl
@[simp] theorem Mach.updBlock_peerOut (m : Mach) (b : Nat) (f : Block → Block) : (m.updBlock b f).peerOut = m.peerOut := rfl
@[simp] theorem Mach.updBlock_outside (m : Mach) (b : Nat) (f : Block → Block) : (m.updBlock b f).outside = m.outside := rfl
@[simp] theorem Mach.updBlock_abandoned (m : Mach) (b : Nat) (f : Block → Block) : (m.updBlock b f).abandoned = m.abandoned := rfl
@[simp] theorem Mach.updBlock_msis (m : Mach) (b : Nat) (f : Block → Block) : (m.updBlock b f).msis = m.msis := rfl
@[simp] theorem Mach.updBlock_asker (m : Mach) (b : Nat) (f : Block → Block) : (m.updBlock b f).asker = m.asker := rfl
@[simp] theorem Mach.updBlock_cur (m : Mach) (b : Nat) (f : Block → Block) : (m.updBlock b f).cur = m.cur := rfl
@[simp] theorem Mach.updBlock_word (m : Mach) (b : Nat) (f : Block → Block) : (m.updBlock b f).word = m.word := rfl
@[simp] theorem Mach.updBlock_nextId (m : Mach) (b : Nat) (f : Block → Block) : (m.updBlock b f).nextId = m.nextId := rfl
@[simp] theorem Mach.updBlock_changes (m : Mach) (b : Nat) (f : Block → Block) : (m.updBlock b f).changes = m.changes := rfl
@[simp] theorem Mach.updBlock_tick (m : Mach) (b : Nat) (f : Block → Block) : (m.updBlock b f).tick = m.tick := rfl
@[simp] theorem Mach.updBlock_free (m : Mach) (b : Nat) (f : Block → Block) : (m.updBlock b f).free = m.free := rfl
@[simp] theorem Mach.updBlock_boot (m : Mach) (b : Nat) (f : Block → Block) : (m.updBlock b f).boot = m.boot := rfl

/-! ### `Mach.updLaunch` -/

@[simp] theorem Mach.updLaunch_mem (m : Mach) (l : Nat) (f : Launch → Launch) : (m.updLaunch l f).mem = m.mem := rfl
@[simp] theorem Mach.updLaunch_poison (m : Mach) (l : Nat) (f : Launch → Launch) : (m.updLaunch l f).poison = m.poison := rfl
@[simp] theorem Mach.updLaunch_eaten (m : Mach) (l : Nat) (f : Launch → Launch) : (m.updLaunch l f).eaten = m.eaten := rfl
@[simp] theorem Mach.updLaunch_ctags (m : Mach) (l : Nat) (f : Launch → Launch) : (m.updLaunch l f).ctags = m.ctags := rfl
@[simp] theorem Mach.updLaunch_coded (m : Mach) (l : Nat) (f : Launch → Launch) : (m.updLaunch l f).coded = m.coded := rfl
@[simp] theorem Mach.updLaunch_attrs (m : Mach) (l : Nat) (f : Launch → Launch) : (m.updLaunch l f).attrs = m.attrs := rfl
@[simp] theorem Mach.updLaunch_l1 (m : Mach) (l : Nat) (f : Launch → Launch) : (m.updLaunch l f).l1 = m.l1 := rfl
@[simp] theorem Mach.updLaunch_rdc (m : Mach) (l : Nat) (f : Launch → Launch) : (m.updLaunch l f).rdc = m.rdc := rfl
@[simp] theorem Mach.updLaunch_icache (m : Mach) (l : Nat) (f : Launch → Launch) : (m.updLaunch l f).icache = m.icache := rfl
@[simp] theorem Mach.updLaunch_l2 (m : Mach) (l : Nat) (f : Launch → Launch) : (m.updLaunch l f).l2 = m.l2 := rfl
@[simp] theorem Mach.updLaunch_pins (m : Mach) (l : Nat) (f : Launch → Launch) : (m.updLaunch l f).pins = m.pins := rfl
@[simp] theorem Mach.updLaunch_tlb (m : Mach) (l : Nat) (f : Launch → Launch) : (m.updLaunch l f).tlb = m.tlb := rfl
@[simp] theorem Mach.updLaunch_hcache (m : Mach) (l : Nat) (f : Launch → Launch) : (m.updLaunch l f).hcache = m.hcache := rfl
@[simp] theorem Mach.updLaunch_maps (m : Mach) (l : Nat) (f : Launch → Launch) : (m.updLaunch l f).maps = m.maps := rfl
@[simp] theorem Mach.updLaunch_recent (m : Mach) (l : Nat) (f : Launch → Launch) : (m.updLaunch l f).recent = m.recent := rfl
@[simp] theorem Mach.updLaunch_ctxs (m : Mach) (l : Nat) (f : Launch → Launch) : (m.updLaunch l f).ctxs = m.ctxs := rfl
@[simp] theorem Mach.updLaunch_vfs (m : Mach) (l : Nat) (f : Launch → Launch) : (m.updLaunch l f).vfs = m.vfs := rfl
@[simp] theorem Mach.updLaunch_parts (m : Mach) (l : Nat) (f : Launch → Launch) : (m.updLaunch l f).parts = m.parts := rfl
@[simp] theorem Mach.updLaunch_queues (m : Mach) (l : Nat) (f : Launch → Launch) : (m.updLaunch l f).queues = m.queues := rfl
@[simp] theorem Mach.updLaunch_launches (m : Mach) (l : Nat) (f : Launch → Launch) : (m.updLaunch l f).launches = upd m.launches l f := rfl
@[simp] theorem Mach.updLaunch_tsets (m : Mach) (l : Nat) (f : Launch → Launch) : (m.updLaunch l f).tsets = m.tsets := rfl
@[simp] theorem Mach.updLaunch_tiles (m : Mach) (l : Nat) (f : Launch → Launch) : (m.updLaunch l f).tiles = m.tiles := rfl
@[simp] theorem Mach.updLaunch_slotTab (m : Mach) (l : Nat) (f : Launch → Launch) : (m.updLaunch l f).slotTab = m.slotTab := rfl
@[simp] theorem Mach.updLaunch_forming (m : Mach) (l : Nat) (f : Launch → Launch) : (m.updLaunch l f).forming = m.forming := rfl
@[simp] theorem Mach.updLaunch_blocks (m : Mach) (l : Nat) (f : Launch → Launch) : (m.updLaunch l f).blocks = m.blocks := rfl
@[simp] theorem Mach.updLaunch_waves (m : Mach) (l : Nat) (f : Launch → Launch) : (m.updLaunch l f).waves = m.waves := rfl
@[simp] theorem Mach.updLaunch_ops (m : Mach) (l : Nat) (f : Launch → Launch) : (m.updLaunch l f).ops = m.ops := rfl
@[simp] theorem Mach.updLaunch_colls (m : Mach) (l : Nat) (f : Launch → Launch) : (m.updLaunch l f).colls = m.colls := rfl
@[simp] theorem Mach.updLaunch_array (m : Mach) (l : Nat) (f : Launch → Launch) : (m.updLaunch l f).array = m.array := rfl
@[simp] theorem Mach.updLaunch_latch (m : Mach) (l : Nat) (f : Launch → Launch) : (m.updLaunch l f).latch = m.latch := rfl
@[simp] theorem Mach.updLaunch_units (m : Mach) (l : Nat) (f : Launch → Launch) : (m.updLaunch l f).units = m.units := rfl
@[simp] theorem Mach.updLaunch_spawnq (m : Mach) (l : Nat) (f : Launch → Launch) : (m.updLaunch l f).spawnq = m.spawnq := rfl
@[simp] theorem Mach.updLaunch_escrow (m : Mach) (l : Nat) (f : Launch → Launch) : (m.updLaunch l f).escrow = m.escrow := rfl
@[simp] theorem Mach.updLaunch_peerOut (m : Mach) (l : Nat) (f : Launch → Launch) : (m.updLaunch l f).peerOut = m.peerOut := rfl
@[simp] theorem Mach.updLaunch_outside (m : Mach) (l : Nat) (f : Launch → Launch) : (m.updLaunch l f).outside = m.outside := rfl
@[simp] theorem Mach.updLaunch_abandoned (m : Mach) (l : Nat) (f : Launch → Launch) : (m.updLaunch l f).abandoned = m.abandoned := rfl
@[simp] theorem Mach.updLaunch_msis (m : Mach) (l : Nat) (f : Launch → Launch) : (m.updLaunch l f).msis = m.msis := rfl
@[simp] theorem Mach.updLaunch_asker (m : Mach) (l : Nat) (f : Launch → Launch) : (m.updLaunch l f).asker = m.asker := rfl
@[simp] theorem Mach.updLaunch_cur (m : Mach) (l : Nat) (f : Launch → Launch) : (m.updLaunch l f).cur = m.cur := rfl
@[simp] theorem Mach.updLaunch_word (m : Mach) (l : Nat) (f : Launch → Launch) : (m.updLaunch l f).word = m.word := rfl
@[simp] theorem Mach.updLaunch_nextId (m : Mach) (l : Nat) (f : Launch → Launch) : (m.updLaunch l f).nextId = m.nextId := rfl
@[simp] theorem Mach.updLaunch_changes (m : Mach) (l : Nat) (f : Launch → Launch) : (m.updLaunch l f).changes = m.changes := rfl
@[simp] theorem Mach.updLaunch_tick (m : Mach) (l : Nat) (f : Launch → Launch) : (m.updLaunch l f).tick = m.tick := rfl
@[simp] theorem Mach.updLaunch_free (m : Mach) (l : Nat) (f : Launch → Launch) : (m.updLaunch l f).free = m.free := rfl
@[simp] theorem Mach.updLaunch_boot (m : Mach) (l : Nat) (f : Launch → Launch) : (m.updLaunch l f).boot = m.boot := rfl

/-! ### `Mach.updOp` -/

@[simp] theorem Mach.updOp_mem (m : Mach) (n : Nat) (f : EngOp → EngOp) : (m.updOp n f).mem = m.mem := rfl
@[simp] theorem Mach.updOp_poison (m : Mach) (n : Nat) (f : EngOp → EngOp) : (m.updOp n f).poison = m.poison := rfl
@[simp] theorem Mach.updOp_eaten (m : Mach) (n : Nat) (f : EngOp → EngOp) : (m.updOp n f).eaten = m.eaten := rfl
@[simp] theorem Mach.updOp_ctags (m : Mach) (n : Nat) (f : EngOp → EngOp) : (m.updOp n f).ctags = m.ctags := rfl
@[simp] theorem Mach.updOp_coded (m : Mach) (n : Nat) (f : EngOp → EngOp) : (m.updOp n f).coded = m.coded := rfl
@[simp] theorem Mach.updOp_attrs (m : Mach) (n : Nat) (f : EngOp → EngOp) : (m.updOp n f).attrs = m.attrs := rfl
@[simp] theorem Mach.updOp_l1 (m : Mach) (n : Nat) (f : EngOp → EngOp) : (m.updOp n f).l1 = m.l1 := rfl
@[simp] theorem Mach.updOp_rdc (m : Mach) (n : Nat) (f : EngOp → EngOp) : (m.updOp n f).rdc = m.rdc := rfl
@[simp] theorem Mach.updOp_icache (m : Mach) (n : Nat) (f : EngOp → EngOp) : (m.updOp n f).icache = m.icache := rfl
@[simp] theorem Mach.updOp_l2 (m : Mach) (n : Nat) (f : EngOp → EngOp) : (m.updOp n f).l2 = m.l2 := rfl
@[simp] theorem Mach.updOp_pins (m : Mach) (n : Nat) (f : EngOp → EngOp) : (m.updOp n f).pins = m.pins := rfl
@[simp] theorem Mach.updOp_tlb (m : Mach) (n : Nat) (f : EngOp → EngOp) : (m.updOp n f).tlb = m.tlb := rfl
@[simp] theorem Mach.updOp_hcache (m : Mach) (n : Nat) (f : EngOp → EngOp) : (m.updOp n f).hcache = m.hcache := rfl
@[simp] theorem Mach.updOp_maps (m : Mach) (n : Nat) (f : EngOp → EngOp) : (m.updOp n f).maps = m.maps := rfl
@[simp] theorem Mach.updOp_recent (m : Mach) (n : Nat) (f : EngOp → EngOp) : (m.updOp n f).recent = m.recent := rfl
@[simp] theorem Mach.updOp_ctxs (m : Mach) (n : Nat) (f : EngOp → EngOp) : (m.updOp n f).ctxs = m.ctxs := rfl
@[simp] theorem Mach.updOp_vfs (m : Mach) (n : Nat) (f : EngOp → EngOp) : (m.updOp n f).vfs = m.vfs := rfl
@[simp] theorem Mach.updOp_parts (m : Mach) (n : Nat) (f : EngOp → EngOp) : (m.updOp n f).parts = m.parts := rfl
@[simp] theorem Mach.updOp_queues (m : Mach) (n : Nat) (f : EngOp → EngOp) : (m.updOp n f).queues = m.queues := rfl
@[simp] theorem Mach.updOp_launches (m : Mach) (n : Nat) (f : EngOp → EngOp) : (m.updOp n f).launches = m.launches := rfl
@[simp] theorem Mach.updOp_tsets (m : Mach) (n : Nat) (f : EngOp → EngOp) : (m.updOp n f).tsets = m.tsets := rfl
@[simp] theorem Mach.updOp_tiles (m : Mach) (n : Nat) (f : EngOp → EngOp) : (m.updOp n f).tiles = m.tiles := rfl
@[simp] theorem Mach.updOp_slotTab (m : Mach) (n : Nat) (f : EngOp → EngOp) : (m.updOp n f).slotTab = m.slotTab := rfl
@[simp] theorem Mach.updOp_forming (m : Mach) (n : Nat) (f : EngOp → EngOp) : (m.updOp n f).forming = m.forming := rfl
@[simp] theorem Mach.updOp_blocks (m : Mach) (n : Nat) (f : EngOp → EngOp) : (m.updOp n f).blocks = m.blocks := rfl
@[simp] theorem Mach.updOp_waves (m : Mach) (n : Nat) (f : EngOp → EngOp) : (m.updOp n f).waves = m.waves := rfl
@[simp] theorem Mach.updOp_ops (m : Mach) (n : Nat) (f : EngOp → EngOp) : (m.updOp n f).ops = upd m.ops n f := rfl
@[simp] theorem Mach.updOp_colls (m : Mach) (n : Nat) (f : EngOp → EngOp) : (m.updOp n f).colls = m.colls := rfl
@[simp] theorem Mach.updOp_array (m : Mach) (n : Nat) (f : EngOp → EngOp) : (m.updOp n f).array = m.array := rfl
@[simp] theorem Mach.updOp_latch (m : Mach) (n : Nat) (f : EngOp → EngOp) : (m.updOp n f).latch = m.latch := rfl
@[simp] theorem Mach.updOp_units (m : Mach) (n : Nat) (f : EngOp → EngOp) : (m.updOp n f).units = m.units := rfl
@[simp] theorem Mach.updOp_spawnq (m : Mach) (n : Nat) (f : EngOp → EngOp) : (m.updOp n f).spawnq = m.spawnq := rfl
@[simp] theorem Mach.updOp_escrow (m : Mach) (n : Nat) (f : EngOp → EngOp) : (m.updOp n f).escrow = m.escrow := rfl
@[simp] theorem Mach.updOp_peerOut (m : Mach) (n : Nat) (f : EngOp → EngOp) : (m.updOp n f).peerOut = m.peerOut := rfl
@[simp] theorem Mach.updOp_outside (m : Mach) (n : Nat) (f : EngOp → EngOp) : (m.updOp n f).outside = m.outside := rfl
@[simp] theorem Mach.updOp_abandoned (m : Mach) (n : Nat) (f : EngOp → EngOp) : (m.updOp n f).abandoned = m.abandoned := rfl
@[simp] theorem Mach.updOp_msis (m : Mach) (n : Nat) (f : EngOp → EngOp) : (m.updOp n f).msis = m.msis := rfl
@[simp] theorem Mach.updOp_asker (m : Mach) (n : Nat) (f : EngOp → EngOp) : (m.updOp n f).asker = m.asker := rfl
@[simp] theorem Mach.updOp_cur (m : Mach) (n : Nat) (f : EngOp → EngOp) : (m.updOp n f).cur = m.cur := rfl
@[simp] theorem Mach.updOp_word (m : Mach) (n : Nat) (f : EngOp → EngOp) : (m.updOp n f).word = m.word := rfl
@[simp] theorem Mach.updOp_nextId (m : Mach) (n : Nat) (f : EngOp → EngOp) : (m.updOp n f).nextId = m.nextId := rfl
@[simp] theorem Mach.updOp_changes (m : Mach) (n : Nat) (f : EngOp → EngOp) : (m.updOp n f).changes = m.changes := rfl
@[simp] theorem Mach.updOp_tick (m : Mach) (n : Nat) (f : EngOp → EngOp) : (m.updOp n f).tick = m.tick := rfl
@[simp] theorem Mach.updOp_free (m : Mach) (n : Nat) (f : EngOp → EngOp) : (m.updOp n f).free = m.free := rfl
@[simp] theorem Mach.updOp_boot (m : Mach) (n : Nat) (f : EngOp → EngOp) : (m.updOp n f).boot = m.boot := rfl

/-! ### `Mach.putVf` -/

@[simp] theorem Mach.putVf_mem (m : Mach) (p v : Nat) (x : Vf) : (m.putVf p v x).mem = m.mem := rfl
@[simp] theorem Mach.putVf_poison (m : Mach) (p v : Nat) (x : Vf) : (m.putVf p v x).poison = m.poison := rfl
@[simp] theorem Mach.putVf_eaten (m : Mach) (p v : Nat) (x : Vf) : (m.putVf p v x).eaten = m.eaten := rfl
@[simp] theorem Mach.putVf_ctags (m : Mach) (p v : Nat) (x : Vf) : (m.putVf p v x).ctags = m.ctags := rfl
@[simp] theorem Mach.putVf_coded (m : Mach) (p v : Nat) (x : Vf) : (m.putVf p v x).coded = m.coded := rfl
@[simp] theorem Mach.putVf_attrs (m : Mach) (p v : Nat) (x : Vf) : (m.putVf p v x).attrs = m.attrs := rfl
@[simp] theorem Mach.putVf_l1 (m : Mach) (p v : Nat) (x : Vf) : (m.putVf p v x).l1 = m.l1 := rfl
@[simp] theorem Mach.putVf_rdc (m : Mach) (p v : Nat) (x : Vf) : (m.putVf p v x).rdc = m.rdc := rfl
@[simp] theorem Mach.putVf_icache (m : Mach) (p v : Nat) (x : Vf) : (m.putVf p v x).icache = m.icache := rfl
@[simp] theorem Mach.putVf_l2 (m : Mach) (p v : Nat) (x : Vf) : (m.putVf p v x).l2 = m.l2 := rfl
@[simp] theorem Mach.putVf_pins (m : Mach) (p v : Nat) (x : Vf) : (m.putVf p v x).pins = m.pins := rfl
@[simp] theorem Mach.putVf_tlb (m : Mach) (p v : Nat) (x : Vf) : (m.putVf p v x).tlb = m.tlb := rfl
@[simp] theorem Mach.putVf_hcache (m : Mach) (p v : Nat) (x : Vf) : (m.putVf p v x).hcache = m.hcache := rfl
@[simp] theorem Mach.putVf_maps (m : Mach) (p v : Nat) (x : Vf) : (m.putVf p v x).maps = m.maps := rfl
@[simp] theorem Mach.putVf_recent (m : Mach) (p v : Nat) (x : Vf) : (m.putVf p v x).recent = m.recent := rfl
@[simp] theorem Mach.putVf_ctxs (m : Mach) (p v : Nat) (x : Vf) : (m.putVf p v x).ctxs = m.ctxs := rfl
@[simp] theorem Mach.putVf_vfs (m : Mach) (p v : Nat) (x : Vf) : (m.putVf p v x).vfs = put m.vfs (vfKey p v) x := rfl
@[simp] theorem Mach.putVf_parts (m : Mach) (p v : Nat) (x : Vf) : (m.putVf p v x).parts = m.parts := rfl
@[simp] theorem Mach.putVf_queues (m : Mach) (p v : Nat) (x : Vf) : (m.putVf p v x).queues = m.queues := rfl
@[simp] theorem Mach.putVf_launches (m : Mach) (p v : Nat) (x : Vf) : (m.putVf p v x).launches = m.launches := rfl
@[simp] theorem Mach.putVf_tsets (m : Mach) (p v : Nat) (x : Vf) : (m.putVf p v x).tsets = m.tsets := rfl
@[simp] theorem Mach.putVf_tiles (m : Mach) (p v : Nat) (x : Vf) : (m.putVf p v x).tiles = m.tiles := rfl
@[simp] theorem Mach.putVf_slotTab (m : Mach) (p v : Nat) (x : Vf) : (m.putVf p v x).slotTab = m.slotTab := rfl
@[simp] theorem Mach.putVf_forming (m : Mach) (p v : Nat) (x : Vf) : (m.putVf p v x).forming = m.forming := rfl
@[simp] theorem Mach.putVf_blocks (m : Mach) (p v : Nat) (x : Vf) : (m.putVf p v x).blocks = m.blocks := rfl
@[simp] theorem Mach.putVf_waves (m : Mach) (p v : Nat) (x : Vf) : (m.putVf p v x).waves = m.waves := rfl
@[simp] theorem Mach.putVf_ops (m : Mach) (p v : Nat) (x : Vf) : (m.putVf p v x).ops = m.ops := rfl
@[simp] theorem Mach.putVf_colls (m : Mach) (p v : Nat) (x : Vf) : (m.putVf p v x).colls = m.colls := rfl
@[simp] theorem Mach.putVf_array (m : Mach) (p v : Nat) (x : Vf) : (m.putVf p v x).array = m.array := rfl
@[simp] theorem Mach.putVf_latch (m : Mach) (p v : Nat) (x : Vf) : (m.putVf p v x).latch = m.latch := rfl
@[simp] theorem Mach.putVf_units (m : Mach) (p v : Nat) (x : Vf) : (m.putVf p v x).units = m.units := rfl
@[simp] theorem Mach.putVf_spawnq (m : Mach) (p v : Nat) (x : Vf) : (m.putVf p v x).spawnq = m.spawnq := rfl
@[simp] theorem Mach.putVf_escrow (m : Mach) (p v : Nat) (x : Vf) : (m.putVf p v x).escrow = m.escrow := rfl
@[simp] theorem Mach.putVf_peerOut (m : Mach) (p v : Nat) (x : Vf) : (m.putVf p v x).peerOut = m.peerOut := rfl
@[simp] theorem Mach.putVf_outside (m : Mach) (p v : Nat) (x : Vf) : (m.putVf p v x).outside = m.outside := rfl
@[simp] theorem Mach.putVf_abandoned (m : Mach) (p v : Nat) (x : Vf) : (m.putVf p v x).abandoned = m.abandoned := rfl
@[simp] theorem Mach.putVf_msis (m : Mach) (p v : Nat) (x : Vf) : (m.putVf p v x).msis = m.msis := rfl
@[simp] theorem Mach.putVf_asker (m : Mach) (p v : Nat) (x : Vf) : (m.putVf p v x).asker = m.asker := rfl
@[simp] theorem Mach.putVf_cur (m : Mach) (p v : Nat) (x : Vf) : (m.putVf p v x).cur = m.cur := rfl
@[simp] theorem Mach.putVf_word (m : Mach) (p v : Nat) (x : Vf) : (m.putVf p v x).word = m.word := rfl
@[simp] theorem Mach.putVf_nextId (m : Mach) (p v : Nat) (x : Vf) : (m.putVf p v x).nextId = m.nextId := rfl
@[simp] theorem Mach.putVf_changes (m : Mach) (p v : Nat) (x : Vf) : (m.putVf p v x).changes = m.changes := rfl
@[simp] theorem Mach.putVf_tick (m : Mach) (p v : Nat) (x : Vf) : (m.putVf p v x).tick = m.tick := rfl
@[simp] theorem Mach.putVf_free (m : Mach) (p v : Nat) (x : Vf) : (m.putVf p v x).free = m.free := rfl
@[simp] theorem Mach.putVf_boot (m : Mach) (p v : Nat) (x : Vf) : (m.putVf p v x).boot = m.boot := rfl

/-! ### `Mach.putPart` -/

@[simp] theorem Mach.putPart_mem (m : Mach) (p : Nat) (x : Part) : (m.putPart p x).mem = m.mem := rfl
@[simp] theorem Mach.putPart_poison (m : Mach) (p : Nat) (x : Part) : (m.putPart p x).poison = m.poison := rfl
@[simp] theorem Mach.putPart_eaten (m : Mach) (p : Nat) (x : Part) : (m.putPart p x).eaten = m.eaten := rfl
@[simp] theorem Mach.putPart_ctags (m : Mach) (p : Nat) (x : Part) : (m.putPart p x).ctags = m.ctags := rfl
@[simp] theorem Mach.putPart_coded (m : Mach) (p : Nat) (x : Part) : (m.putPart p x).coded = m.coded := rfl
@[simp] theorem Mach.putPart_attrs (m : Mach) (p : Nat) (x : Part) : (m.putPart p x).attrs = m.attrs := rfl
@[simp] theorem Mach.putPart_l1 (m : Mach) (p : Nat) (x : Part) : (m.putPart p x).l1 = m.l1 := rfl
@[simp] theorem Mach.putPart_rdc (m : Mach) (p : Nat) (x : Part) : (m.putPart p x).rdc = m.rdc := rfl
@[simp] theorem Mach.putPart_icache (m : Mach) (p : Nat) (x : Part) : (m.putPart p x).icache = m.icache := rfl
@[simp] theorem Mach.putPart_l2 (m : Mach) (p : Nat) (x : Part) : (m.putPart p x).l2 = m.l2 := rfl
@[simp] theorem Mach.putPart_pins (m : Mach) (p : Nat) (x : Part) : (m.putPart p x).pins = m.pins := rfl
@[simp] theorem Mach.putPart_tlb (m : Mach) (p : Nat) (x : Part) : (m.putPart p x).tlb = m.tlb := rfl
@[simp] theorem Mach.putPart_hcache (m : Mach) (p : Nat) (x : Part) : (m.putPart p x).hcache = m.hcache := rfl
@[simp] theorem Mach.putPart_maps (m : Mach) (p : Nat) (x : Part) : (m.putPart p x).maps = m.maps := rfl
@[simp] theorem Mach.putPart_recent (m : Mach) (p : Nat) (x : Part) : (m.putPart p x).recent = m.recent := rfl
@[simp] theorem Mach.putPart_ctxs (m : Mach) (p : Nat) (x : Part) : (m.putPart p x).ctxs = m.ctxs := rfl
@[simp] theorem Mach.putPart_vfs (m : Mach) (p : Nat) (x : Part) : (m.putPart p x).vfs = m.vfs := rfl
@[simp] theorem Mach.putPart_parts (m : Mach) (p : Nat) (x : Part) : (m.putPart p x).parts = put m.parts p x := rfl
@[simp] theorem Mach.putPart_queues (m : Mach) (p : Nat) (x : Part) : (m.putPart p x).queues = m.queues := rfl
@[simp] theorem Mach.putPart_launches (m : Mach) (p : Nat) (x : Part) : (m.putPart p x).launches = m.launches := rfl
@[simp] theorem Mach.putPart_tsets (m : Mach) (p : Nat) (x : Part) : (m.putPart p x).tsets = m.tsets := rfl
@[simp] theorem Mach.putPart_tiles (m : Mach) (p : Nat) (x : Part) : (m.putPart p x).tiles = m.tiles := rfl
@[simp] theorem Mach.putPart_slotTab (m : Mach) (p : Nat) (x : Part) : (m.putPart p x).slotTab = m.slotTab := rfl
@[simp] theorem Mach.putPart_forming (m : Mach) (p : Nat) (x : Part) : (m.putPart p x).forming = m.forming := rfl
@[simp] theorem Mach.putPart_blocks (m : Mach) (p : Nat) (x : Part) : (m.putPart p x).blocks = m.blocks := rfl
@[simp] theorem Mach.putPart_waves (m : Mach) (p : Nat) (x : Part) : (m.putPart p x).waves = m.waves := rfl
@[simp] theorem Mach.putPart_ops (m : Mach) (p : Nat) (x : Part) : (m.putPart p x).ops = m.ops := rfl
@[simp] theorem Mach.putPart_colls (m : Mach) (p : Nat) (x : Part) : (m.putPart p x).colls = m.colls := rfl
@[simp] theorem Mach.putPart_array (m : Mach) (p : Nat) (x : Part) : (m.putPart p x).array = m.array := rfl
@[simp] theorem Mach.putPart_latch (m : Mach) (p : Nat) (x : Part) : (m.putPart p x).latch = m.latch := rfl
@[simp] theorem Mach.putPart_units (m : Mach) (p : Nat) (x : Part) : (m.putPart p x).units = m.units := rfl
@[simp] theorem Mach.putPart_spawnq (m : Mach) (p : Nat) (x : Part) : (m.putPart p x).spawnq = m.spawnq := rfl
@[simp] theorem Mach.putPart_escrow (m : Mach) (p : Nat) (x : Part) : (m.putPart p x).escrow = m.escrow := rfl
@[simp] theorem Mach.putPart_peerOut (m : Mach) (p : Nat) (x : Part) : (m.putPart p x).peerOut = m.peerOut := rfl
@[simp] theorem Mach.putPart_outside (m : Mach) (p : Nat) (x : Part) : (m.putPart p x).outside = m.outside := rfl
@[simp] theorem Mach.putPart_abandoned (m : Mach) (p : Nat) (x : Part) : (m.putPart p x).abandoned = m.abandoned := rfl
@[simp] theorem Mach.putPart_msis (m : Mach) (p : Nat) (x : Part) : (m.putPart p x).msis = m.msis := rfl
@[simp] theorem Mach.putPart_asker (m : Mach) (p : Nat) (x : Part) : (m.putPart p x).asker = m.asker := rfl
@[simp] theorem Mach.putPart_cur (m : Mach) (p : Nat) (x : Part) : (m.putPart p x).cur = m.cur := rfl
@[simp] theorem Mach.putPart_word (m : Mach) (p : Nat) (x : Part) : (m.putPart p x).word = m.word := rfl
@[simp] theorem Mach.putPart_nextId (m : Mach) (p : Nat) (x : Part) : (m.putPart p x).nextId = m.nextId := rfl
@[simp] theorem Mach.putPart_changes (m : Mach) (p : Nat) (x : Part) : (m.putPart p x).changes = m.changes := rfl
@[simp] theorem Mach.putPart_tick (m : Mach) (p : Nat) (x : Part) : (m.putPart p x).tick = m.tick := rfl
@[simp] theorem Mach.putPart_free (m : Mach) (p : Nat) (x : Part) : (m.putPart p x).free = m.free := rfl
@[simp] theorem Mach.putPart_boot (m : Mach) (p : Nat) (x : Part) : (m.putPart p x).boot = m.boot := rfl

/-! ### `Wave.setV` -/

@[simp] theorem Wave.setV_ctx (w : Wave) (p : Bool) (r l : Nat) (x : W32) : (w.setV p r l x).ctx = w.ctx := rfl
@[simp] theorem Wave.setV_launch (w : Wave) (p : Bool) (r l : Nat) (x : W32) : (w.setV p r l x).launch = w.launch := rfl
@[simp] theorem Wave.setV_block (w : Wave) (p : Bool) (r l : Nat) (x : W32) : (w.setV p r l x).block = w.block := rfl
@[simp] theorem Wave.setV_core (w : Wave) (p : Bool) (r l : Nat) (x : W32) : (w.setV p r l x).core = w.core := rfl
@[simp] theorem Wave.setV_slots (w : Wave) (p : Bool) (r l : Nat) (x : W32) : (w.setV p r l x).slots = w.slots := rfl
@[simp] theorem Wave.setV_width (w : Wave) (p : Bool) (r l : Nat) (x : W32) : (w.setV p r l x).width = w.width := rfl
@[simp] theorem Wave.setV_allow (w : Wave) (p : Bool) (r l : Nat) (x : W32) : (w.setV p r l x).allow = w.allow := rfl
@[simp] theorem Wave.setV_sregs (w : Wave) (p : Bool) (r l : Nat) (x : W32) : (w.setV p r l x).sregs = w.sregs := rfl
@[simp] theorem Wave.setV_pc (w : Wave) (p : Bool) (r l : Nat) (x : W32) : (w.setV p r l x).pc = w.pc := rfl
@[simp] theorem Wave.setV_v (w : Wave) (p : Bool) (r l : Nat) (x : W32) : (w.setV p r l x).v = mset 0 w.v (64 * r + w.hw p l) x := rfl
@[simp] theorem Wave.setV_lo (w : Wave) (p : Bool) (r l : Nat) (x : W32) : (w.setV p r l x).lo = w.lo := rfl
@[simp] theorem Wave.setV_hi (w : Wave) (p : Bool) (r l : Nat) (x : W32) : (w.setV p r l x).hi = w.hi := rfl
@[simp] theorem Wave.setV_stack (w : Wave) (p : Bool) (r l : Nat) (x : W32) : (w.setV p r l x).stack = w.stack := rfl
@[simp] theorem Wave.setV_acc (w : Wave) (p : Bool) (r l : Nat) (x : W32) : (w.setV p r l x).acc = w.acc := rfl
@[simp] theorem Wave.setV_hold (w : Wave) (p : Bool) (r l : Nat) (x : W32) : (w.setV p r l x).hold = w.hold := rfl
@[simp] theorem Wave.setV_parked (w : Wave) (p : Bool) (r l : Nat) (x : W32) : (w.setV p r l x).parked = w.parked := rfl
@[simp] theorem Wave.setV_image (w : Wave) (p : Bool) (r l : Nat) (x : W32) : (w.setV p r l x).image = w.image := rfl
@[simp] theorem Wave.setV_missing (w : Wave) (p : Bool) (r l : Nat) (x : W32) : (w.setV p r l x).missing = w.missing := rfl
@[simp] theorem Wave.setV_saved (w : Wave) (p : Bool) (r l : Nat) (x : W32) : (w.setV p r l x).saved = w.saved := rfl
@[simp] theorem Wave.setV_left (w : Wave) (p : Bool) (r l : Nat) (x : W32) : (w.setV p r l x).left = w.left := rfl
@[simp] theorem Wave.setV_born (w : Wave) (p : Bool) (r l : Nat) (x : W32) : (w.setV p r l x).born = w.born := rfl
@[simp] theorem Wave.setV_resident (w : Wave) (p : Bool) (r l : Nat) (x : W32) : (w.setV p r l x).resident = w.resident := rfl
@[simp] theorem Wave.setV_passed (w : Wave) (p : Bool) (r l : Nat) (x : W32) : (w.setV p r l x).passed = w.passed := rfl
@[simp] theorem Wave.setV_yielded (w : Wave) (p : Bool) (r l : Nat) (x : W32) : (w.setV p r l x).yielded = w.yielded := rfl
@[simp] theorem Wave.setV_quiet (w : Wave) (p : Bool) (r l : Nat) (x : W32) : (w.setV p r l x).quiet = w.quiet := rfl
@[simp] theorem Wave.setV_heldLoad (w : Wave) (p : Bool) (r l : Nat) (x : W32) : (w.setV p r l x).heldLoad = w.heldLoad := rfl
@[simp] theorem Wave.setV_inFlight (w : Wave) (p : Bool) (r l : Nat) (x : W32) : (w.setV p r l x).inFlight = w.inFlight := rfl
@[simp] theorem Wave.setV_inBar (w : Wave) (p : Bool) (r l : Nat) (x : W32) : (w.setV p r l x).inBar = w.inBar := rfl

/-! ### `Wave.updHalf` -/

@[simp] theorem Wave.updHalf_ctx (w : Wave) (p : Bool) (f : Half → Half) : (w.updHalf p f).ctx = w.ctx := by cases p <;> rfl
@[simp] theorem Wave.updHalf_launch (w : Wave) (p : Bool) (f : Half → Half) : (w.updHalf p f).launch = w.launch := by cases p <;> rfl
@[simp] theorem Wave.updHalf_block (w : Wave) (p : Bool) (f : Half → Half) : (w.updHalf p f).block = w.block := by cases p <;> rfl
@[simp] theorem Wave.updHalf_core (w : Wave) (p : Bool) (f : Half → Half) : (w.updHalf p f).core = w.core := by cases p <;> rfl
@[simp] theorem Wave.updHalf_slots (w : Wave) (p : Bool) (f : Half → Half) : (w.updHalf p f).slots = w.slots := by cases p <;> rfl
@[simp] theorem Wave.updHalf_width (w : Wave) (p : Bool) (f : Half → Half) : (w.updHalf p f).width = w.width := by cases p <;> rfl
@[simp] theorem Wave.updHalf_allow (w : Wave) (p : Bool) (f : Half → Half) : (w.updHalf p f).allow = w.allow := by cases p <;> rfl
@[simp] theorem Wave.updHalf_sregs (w : Wave) (p : Bool) (f : Half → Half) : (w.updHalf p f).sregs = w.sregs := by cases p <;> rfl
@[simp] theorem Wave.updHalf_pc (w : Wave) (p : Bool) (f : Half → Half) : (w.updHalf p f).pc = w.pc := by cases p <;> rfl
@[simp] theorem Wave.updHalf_v (w : Wave) (p : Bool) (f : Half → Half) : (w.updHalf p f).v = w.v := by cases p <;> rfl
@[simp] theorem Wave.updHalf_stack (w : Wave) (p : Bool) (f : Half → Half) : (w.updHalf p f).stack = w.stack := by cases p <;> rfl
@[simp] theorem Wave.updHalf_acc (w : Wave) (p : Bool) (f : Half → Half) : (w.updHalf p f).acc = w.acc := by cases p <;> rfl
@[simp] theorem Wave.updHalf_hold (w : Wave) (p : Bool) (f : Half → Half) : (w.updHalf p f).hold = w.hold := by cases p <;> rfl
@[simp] theorem Wave.updHalf_parked (w : Wave) (p : Bool) (f : Half → Half) : (w.updHalf p f).parked = w.parked := by cases p <;> rfl
@[simp] theorem Wave.updHalf_image (w : Wave) (p : Bool) (f : Half → Half) : (w.updHalf p f).image = w.image := by cases p <;> rfl
@[simp] theorem Wave.updHalf_missing (w : Wave) (p : Bool) (f : Half → Half) : (w.updHalf p f).missing = w.missing := by cases p <;> rfl
@[simp] theorem Wave.updHalf_saved (w : Wave) (p : Bool) (f : Half → Half) : (w.updHalf p f).saved = w.saved := by cases p <;> rfl
@[simp] theorem Wave.updHalf_left (w : Wave) (p : Bool) (f : Half → Half) : (w.updHalf p f).left = w.left := by cases p <;> rfl
@[simp] theorem Wave.updHalf_born (w : Wave) (p : Bool) (f : Half → Half) : (w.updHalf p f).born = w.born := by cases p <;> rfl
@[simp] theorem Wave.updHalf_resident (w : Wave) (p : Bool) (f : Half → Half) : (w.updHalf p f).resident = w.resident := by cases p <;> rfl
@[simp] theorem Wave.updHalf_passed (w : Wave) (p : Bool) (f : Half → Half) : (w.updHalf p f).passed = w.passed := by cases p <;> rfl
@[simp] theorem Wave.updHalf_yielded (w : Wave) (p : Bool) (f : Half → Half) : (w.updHalf p f).yielded = w.yielded := by cases p <;> rfl
@[simp] theorem Wave.updHalf_quiet (w : Wave) (p : Bool) (f : Half → Half) : (w.updHalf p f).quiet = w.quiet := by cases p <;> rfl
@[simp] theorem Wave.updHalf_heldLoad (w : Wave) (p : Bool) (f : Half → Half) : (w.updHalf p f).heldLoad = w.heldLoad := by cases p <;> rfl
@[simp] theorem Wave.updHalf_inFlight (w : Wave) (p : Bool) (f : Half → Half) : (w.updHalf p f).inFlight = w.inFlight := by cases p <;> rfl
@[simp] theorem Wave.updHalf_inBar (w : Wave) (p : Bool) (f : Half → Half) : (w.updHalf p f).inBar = w.inBar := by cases p <;> rfl

/-! ### `Wave.setS` -/

@[simp] theorem Wave.setS_ctx (w : Wave) (p : Bool) (n : Nat) (x : W64) : (w.setS p n x).ctx = w.ctx := Wave.updHalf_ctx w p _
@[simp] theorem Wave.setS_launch (w : Wave) (p : Bool) (n : Nat) (x : W64) : (w.setS p n x).launch = w.launch := Wave.updHalf_launch w p _
@[simp] theorem Wave.setS_block (w : Wave) (p : Bool) (n : Nat) (x : W64) : (w.setS p n x).block = w.block := Wave.updHalf_block w p _
@[simp] theorem Wave.setS_core (w : Wave) (p : Bool) (n : Nat) (x : W64) : (w.setS p n x).core = w.core := Wave.updHalf_core w p _
@[simp] theorem Wave.setS_slots (w : Wave) (p : Bool) (n : Nat) (x : W64) : (w.setS p n x).slots = w.slots := Wave.updHalf_slots w p _
@[simp] theorem Wave.setS_width (w : Wave) (p : Bool) (n : Nat) (x : W64) : (w.setS p n x).width = w.width := Wave.updHalf_width w p _
@[simp] theorem Wave.setS_allow (w : Wave) (p : Bool) (n : Nat) (x : W64) : (w.setS p n x).allow = w.allow := Wave.updHalf_allow w p _
@[simp] theorem Wave.setS_sregs (w : Wave) (p : Bool) (n : Nat) (x : W64) : (w.setS p n x).sregs = w.sregs := Wave.updHalf_sregs w p _
@[simp] theorem Wave.setS_pc (w : Wave) (p : Bool) (n : Nat) (x : W64) : (w.setS p n x).pc = w.pc := Wave.updHalf_pc w p _
@[simp] theorem Wave.setS_v (w : Wave) (p : Bool) (n : Nat) (x : W64) : (w.setS p n x).v = w.v := Wave.updHalf_v w p _
@[simp] theorem Wave.setS_stack (w : Wave) (p : Bool) (n : Nat) (x : W64) : (w.setS p n x).stack = w.stack := Wave.updHalf_stack w p _
@[simp] theorem Wave.setS_acc (w : Wave) (p : Bool) (n : Nat) (x : W64) : (w.setS p n x).acc = w.acc := Wave.updHalf_acc w p _
@[simp] theorem Wave.setS_hold (w : Wave) (p : Bool) (n : Nat) (x : W64) : (w.setS p n x).hold = w.hold := Wave.updHalf_hold w p _
@[simp] theorem Wave.setS_parked (w : Wave) (p : Bool) (n : Nat) (x : W64) : (w.setS p n x).parked = w.parked := Wave.updHalf_parked w p _
@[simp] theorem Wave.setS_image (w : Wave) (p : Bool) (n : Nat) (x : W64) : (w.setS p n x).image = w.image := Wave.updHalf_image w p _
@[simp] theorem Wave.setS_missing (w : Wave) (p : Bool) (n : Nat) (x : W64) : (w.setS p n x).missing = w.missing := Wave.updHalf_missing w p _
@[simp] theorem Wave.setS_saved (w : Wave) (p : Bool) (n : Nat) (x : W64) : (w.setS p n x).saved = w.saved := Wave.updHalf_saved w p _
@[simp] theorem Wave.setS_left (w : Wave) (p : Bool) (n : Nat) (x : W64) : (w.setS p n x).left = w.left := Wave.updHalf_left w p _
@[simp] theorem Wave.setS_born (w : Wave) (p : Bool) (n : Nat) (x : W64) : (w.setS p n x).born = w.born := Wave.updHalf_born w p _
@[simp] theorem Wave.setS_resident (w : Wave) (p : Bool) (n : Nat) (x : W64) : (w.setS p n x).resident = w.resident := Wave.updHalf_resident w p _
@[simp] theorem Wave.setS_passed (w : Wave) (p : Bool) (n : Nat) (x : W64) : (w.setS p n x).passed = w.passed := Wave.updHalf_passed w p _
@[simp] theorem Wave.setS_yielded (w : Wave) (p : Bool) (n : Nat) (x : W64) : (w.setS p n x).yielded = w.yielded := Wave.updHalf_yielded w p _
@[simp] theorem Wave.setS_quiet (w : Wave) (p : Bool) (n : Nat) (x : W64) : (w.setS p n x).quiet = w.quiet := Wave.updHalf_quiet w p _
@[simp] theorem Wave.setS_heldLoad (w : Wave) (p : Bool) (n : Nat) (x : W64) : (w.setS p n x).heldLoad = w.heldLoad := Wave.updHalf_heldLoad w p _
@[simp] theorem Wave.setS_inFlight (w : Wave) (p : Bool) (n : Nat) (x : W64) : (w.setS p n x).inFlight = w.inFlight := Wave.updHalf_inFlight w p _
@[simp] theorem Wave.setS_inBar (w : Wave) (p : Bool) (n : Nat) (x : W64) : (w.setS p n x).inBar = w.inBar := Wave.updHalf_inBar w p _

/-! ### `Wave.setExec` -/

@[simp] theorem Wave.setExec_ctx (w : Wave) (p : Bool) (x : W64) : (w.setExec p x).ctx = w.ctx := Wave.updHalf_ctx w p _
@[simp] theorem Wave.setExec_launch (w : Wave) (p : Bool) (x : W64) : (w.setExec p x).launch = w.launch := Wave.updHalf_launch w p _
@[simp] theorem Wave.setExec_block (w : Wave) (p : Bool) (x : W64) : (w.setExec p x).block = w.block := Wave.updHalf_block w p _
@[simp] theorem Wave.setExec_core (w : Wave) (p : Bool) (x : W64) : (w.setExec p x).core = w.core := Wave.updHalf_core w p _
@[simp] theorem Wave.setExec_slots (w : Wave) (p : Bool) (x : W64) : (w.setExec p x).slots = w.slots := Wave.updHalf_slots w p _
@[simp] theorem Wave.setExec_width (w : Wave) (p : Bool) (x : W64) : (w.setExec p x).width = w.width := Wave.updHalf_width w p _
@[simp] theorem Wave.setExec_allow (w : Wave) (p : Bool) (x : W64) : (w.setExec p x).allow = w.allow := Wave.updHalf_allow w p _
@[simp] theorem Wave.setExec_sregs (w : Wave) (p : Bool) (x : W64) : (w.setExec p x).sregs = w.sregs := Wave.updHalf_sregs w p _
@[simp] theorem Wave.setExec_pc (w : Wave) (p : Bool) (x : W64) : (w.setExec p x).pc = w.pc := Wave.updHalf_pc w p _
@[simp] theorem Wave.setExec_v (w : Wave) (p : Bool) (x : W64) : (w.setExec p x).v = w.v := Wave.updHalf_v w p _
@[simp] theorem Wave.setExec_stack (w : Wave) (p : Bool) (x : W64) : (w.setExec p x).stack = w.stack := Wave.updHalf_stack w p _
@[simp] theorem Wave.setExec_acc (w : Wave) (p : Bool) (x : W64) : (w.setExec p x).acc = w.acc := Wave.updHalf_acc w p _
@[simp] theorem Wave.setExec_hold (w : Wave) (p : Bool) (x : W64) : (w.setExec p x).hold = w.hold := Wave.updHalf_hold w p _
@[simp] theorem Wave.setExec_parked (w : Wave) (p : Bool) (x : W64) : (w.setExec p x).parked = w.parked := Wave.updHalf_parked w p _
@[simp] theorem Wave.setExec_image (w : Wave) (p : Bool) (x : W64) : (w.setExec p x).image = w.image := Wave.updHalf_image w p _
@[simp] theorem Wave.setExec_missing (w : Wave) (p : Bool) (x : W64) : (w.setExec p x).missing = w.missing := Wave.updHalf_missing w p _
@[simp] theorem Wave.setExec_saved (w : Wave) (p : Bool) (x : W64) : (w.setExec p x).saved = w.saved := Wave.updHalf_saved w p _
@[simp] theorem Wave.setExec_left (w : Wave) (p : Bool) (x : W64) : (w.setExec p x).left = w.left := Wave.updHalf_left w p _
@[simp] theorem Wave.setExec_born (w : Wave) (p : Bool) (x : W64) : (w.setExec p x).born = w.born := Wave.updHalf_born w p _
@[simp] theorem Wave.setExec_resident (w : Wave) (p : Bool) (x : W64) : (w.setExec p x).resident = w.resident := Wave.updHalf_resident w p _
@[simp] theorem Wave.setExec_passed (w : Wave) (p : Bool) (x : W64) : (w.setExec p x).passed = w.passed := Wave.updHalf_passed w p _
@[simp] theorem Wave.setExec_yielded (w : Wave) (p : Bool) (x : W64) : (w.setExec p x).yielded = w.yielded := Wave.updHalf_yielded w p _
@[simp] theorem Wave.setExec_quiet (w : Wave) (p : Bool) (x : W64) : (w.setExec p x).quiet = w.quiet := Wave.updHalf_quiet w p _
@[simp] theorem Wave.setExec_heldLoad (w : Wave) (p : Bool) (x : W64) : (w.setExec p x).heldLoad = w.heldLoad := Wave.updHalf_heldLoad w p _
@[simp] theorem Wave.setExec_inFlight (w : Wave) (p : Bool) (x : W64) : (w.setExec p x).inFlight = w.inFlight := Wave.updHalf_inFlight w p _
@[simp] theorem Wave.setExec_inBar (w : Wave) (p : Bool) (x : W64) : (w.setExec p x).inBar = w.inBar := Wave.updHalf_inBar w p _

/-! ### `Wave.setK` -/

@[simp] theorem Wave.setK_ctx (w : Wave) (p : Bool) (n : Nat) (x : W64) : (w.setK p n x).ctx = w.ctx := by unfold Wave.setK; split <;> simp
@[simp] theorem Wave.setK_launch (w : Wave) (p : Bool) (n : Nat) (x : W64) : (w.setK p n x).launch = w.launch := by unfold Wave.setK; split <;> simp
@[simp] theorem Wave.setK_block (w : Wave) (p : Bool) (n : Nat) (x : W64) : (w.setK p n x).block = w.block := by unfold Wave.setK; split <;> simp
@[simp] theorem Wave.setK_core (w : Wave) (p : Bool) (n : Nat) (x : W64) : (w.setK p n x).core = w.core := by unfold Wave.setK; split <;> simp
@[simp] theorem Wave.setK_slots (w : Wave) (p : Bool) (n : Nat) (x : W64) : (w.setK p n x).slots = w.slots := by unfold Wave.setK; split <;> simp
@[simp] theorem Wave.setK_width (w : Wave) (p : Bool) (n : Nat) (x : W64) : (w.setK p n x).width = w.width := by unfold Wave.setK; split <;> simp
@[simp] theorem Wave.setK_allow (w : Wave) (p : Bool) (n : Nat) (x : W64) : (w.setK p n x).allow = w.allow := by unfold Wave.setK; split <;> simp
@[simp] theorem Wave.setK_sregs (w : Wave) (p : Bool) (n : Nat) (x : W64) : (w.setK p n x).sregs = w.sregs := by unfold Wave.setK; split <;> simp
@[simp] theorem Wave.setK_pc (w : Wave) (p : Bool) (n : Nat) (x : W64) : (w.setK p n x).pc = w.pc := by unfold Wave.setK; split <;> simp
@[simp] theorem Wave.setK_v (w : Wave) (p : Bool) (n : Nat) (x : W64) : (w.setK p n x).v = w.v := by unfold Wave.setK; split <;> simp
@[simp] theorem Wave.setK_stack (w : Wave) (p : Bool) (n : Nat) (x : W64) : (w.setK p n x).stack = w.stack := by unfold Wave.setK; split <;> simp
@[simp] theorem Wave.setK_acc (w : Wave) (p : Bool) (n : Nat) (x : W64) : (w.setK p n x).acc = w.acc := by unfold Wave.setK; split <;> simp
@[simp] theorem Wave.setK_hold (w : Wave) (p : Bool) (n : Nat) (x : W64) : (w.setK p n x).hold = w.hold := by unfold Wave.setK; split <;> simp
@[simp] theorem Wave.setK_parked (w : Wave) (p : Bool) (n : Nat) (x : W64) : (w.setK p n x).parked = w.parked := by unfold Wave.setK; split <;> simp
@[simp] theorem Wave.setK_image (w : Wave) (p : Bool) (n : Nat) (x : W64) : (w.setK p n x).image = w.image := by unfold Wave.setK; split <;> simp
@[simp] theorem Wave.setK_missing (w : Wave) (p : Bool) (n : Nat) (x : W64) : (w.setK p n x).missing = w.missing := by unfold Wave.setK; split <;> simp
@[simp] theorem Wave.setK_saved (w : Wave) (p : Bool) (n : Nat) (x : W64) : (w.setK p n x).saved = w.saved := by unfold Wave.setK; split <;> simp
@[simp] theorem Wave.setK_left (w : Wave) (p : Bool) (n : Nat) (x : W64) : (w.setK p n x).left = w.left := by unfold Wave.setK; split <;> simp
@[simp] theorem Wave.setK_born (w : Wave) (p : Bool) (n : Nat) (x : W64) : (w.setK p n x).born = w.born := by unfold Wave.setK; split <;> simp
@[simp] theorem Wave.setK_resident (w : Wave) (p : Bool) (n : Nat) (x : W64) : (w.setK p n x).resident = w.resident := by unfold Wave.setK; split <;> simp
@[simp] theorem Wave.setK_passed (w : Wave) (p : Bool) (n : Nat) (x : W64) : (w.setK p n x).passed = w.passed := by unfold Wave.setK; split <;> simp
@[simp] theorem Wave.setK_yielded (w : Wave) (p : Bool) (n : Nat) (x : W64) : (w.setK p n x).yielded = w.yielded := by unfold Wave.setK; split <;> simp
@[simp] theorem Wave.setK_quiet (w : Wave) (p : Bool) (n : Nat) (x : W64) : (w.setK p n x).quiet = w.quiet := by unfold Wave.setK; split <;> simp
@[simp] theorem Wave.setK_heldLoad (w : Wave) (p : Bool) (n : Nat) (x : W64) : (w.setK p n x).heldLoad = w.heldLoad := by unfold Wave.setK; split <;> simp
@[simp] theorem Wave.setK_inFlight (w : Wave) (p : Bool) (n : Nat) (x : W64) : (w.setK p n x).inFlight = w.inFlight := by unfold Wave.setK; split <;> simp
@[simp] theorem Wave.setK_inBar (w : Wave) (p : Bool) (n : Nat) (x : W64) : (w.setK p n x).inBar = w.inBar := by unfold Wave.setK; split <;> simp

/-! ### Halves -/

@[simp] theorem Wave.half_updHalf_same (w : Wave) (p : Bool) (f : Half → Half) : (w.updHalf p f).half p = f (w.half p) := by
  cases p <;> rfl
@[simp] theorem Wave.half_updHalf_not (w : Wave) (p : Bool) (f : Half → Half) : (w.updHalf p f).half (!p) = w.half (!p) := by
  cases p <;> rfl
theorem Wave.half_updHalf (w : Wave) (p q : Bool) (f : Half → Half) :
    (w.updHalf p f).half q = if q = p then f (w.half q) else w.half q := by
  cases p <;> cases q <;> rfl
@[simp] theorem Wave.half_setV (w : Wave) (p q : Bool) (r l : Nat) (x : W32) : (w.setV p r l x).half q = w.half q := by
  cases q <;> rfl

@[simp] theorem Half.setS_k (h : Half) (n : Nat) (x : W64) : (h.setS n x).k = h.k := rfl
@[simp] theorem Half.setS_exec (h : Half) (n : Nat) (x : W64) : (h.setS n x).exec = h.exec := rfl
@[simp] theorem Half.setS_q (h : Half) (n : Nat) (x : W64) : (h.setS n x).q = h.q := rfl
@[simp] theorem Half.setS_qflags (h : Half) (n : Nat) (x : W64) : (h.setS n x).qflags = h.qflags := rfl
@[simp] theorem Half.setS_ended (h : Half) (n : Nat) (x : W64) : (h.setS n x).ended = h.ended := rfl
@[simp] theorem Half.setS_present (h : Half) (n : Nat) (x : W64) : (h.setS n x).present = h.present := rfl
@[simp] theorem Half.setS_waveid (h : Half) (n : Nat) (x : W64) : (h.setS n x).waveid = h.waveid := rfl
@[simp] theorem Half.setS_fpctl (h : Half) (n : Nat) (x : W64) : (h.setS n x).fpctl = h.fpctl := rfl
@[simp] theorem Half.setS_fpflag (h : Half) (n : Nat) (x : W64) : (h.setS n x).fpflag = h.fpflag := rfl
@[simp] theorem Half.setS_trapcause (h : Half) (n : Nat) (x : W64) : (h.setS n x).trapcause = h.trapcause := rfl
@[simp] theorem Half.setS_trapaddr (h : Half) (n : Nat) (x : W64) : (h.setS n x).trapaddr = h.trapaddr := rfl
@[simp] theorem Half.setS_skid (h : Half) (n : Nat) (x : W64) : (h.setS n x).skid = h.skid := rfl
@[simp] theorem Half.setS_laneflt (h : Half) (n : Nat) (x : W64) : (h.setS n x).laneflt = h.laneflt := rfl
@[simp] theorem Half.setS_emudepth (h : Half) (n : Nat) (x : W64) : (h.setS n x).emudepth = h.emudepth := rfl
@[simp] theorem Half.setS_agelim (h : Half) (n : Nat) (x : W64) : (h.setS n x).agelim = h.agelim := rfl
@[simp] theorem Half.setS_batch (h : Half) (n : Nat) (x : W64) : (h.setS n x).batch = h.batch := rfl
@[simp] theorem Half.setS_parent (h : Half) (n : Nat) (x : W64) : (h.setS n x).parent = h.parent := rfl
@[simp] theorem Half.setS_mflags (h : Half) (n : Nat) (x : W64) : (h.setS n x).mflags = h.mflags := rfl
@[simp] theorem Half.setS_s (h : Half) (n : Nat) (x : W64) : (h.setS n x).s = mset 0 h.s n x := rfl

@[simp] theorem Env.finish_mgmt (e : Env) (s : State) (o : WOut) : (e.finish s o).mgmt = s.mgmt := rfl
@[simp] theorem Env.finish_agenda (e : Env) (s : State) (o : WOut) : (e.finish s o).agenda = s.agenda := rfl

/-- The end of an instruction that is complete: the wave goes on as it was left. -/
theorem Env.finish_next (e : Env) (s : State) (m : Mach) (w : Wave) :
    e.finish s (.next m w)
      = { s with m := { m.putWave e.id { w.retired with quiet := w.quiet && !e.w.quiet } with changes := m.changes + 1 } } := rfl

/-- A meaning of the issuing wave ends as its body says. -/
theorem withCur_eq {f : Env → WOut} {s : State} {e : Env} (h : s.env? = some e) : withCur f s = .next (e.finish s (f e)) := by
  have hc : ∃ id, s.m.cur = some id := by
    unfold State.env? at h
    split at h
    · cases h
    · exact ⟨_, ‹_›⟩
  obtain ⟨id, hc⟩ := hc
  simp [withCur, hc, h]

/-- What the environment of the issuing wave is made of. -/
theorem State.env?_m {s : State} {e : Env} (h : s.env? = some e) :
    e.g = s.mgmt ∧ e.m = s.m ∧ s.m.cur = some e.id ∧ s.m.wave? e.id = some e.w ∧ s.m.ctx? e.w.ctx = some e.x
      ∧ s.m.block? e.w.block = some e.b ∧ s.m.launch? e.w.launch = some e.l := by
  unfold State.env? at h
  split at h
  · cases h
  · split at h
    · cases h
    · split at h
      · cases h; exact ⟨rfl, rfl, ‹_›, ‹_›, ‹_›, ‹_›, ‹_›⟩
      · cases h

/-- No meaning of a wave's instruction touches the management plane or the agenda. -/
theorem withCur_keeps {f : Env → WOut} {s t : State} (h : withCur f s = .next t) : t.mgmt = s.mgmt ∧ t.agenda = s.agenda := by
  unfold withCur at h
  split at h
  · cases h
  · split at h
    · cases h
    · cases h; exact ⟨rfl, rfl⟩

end Sys2Proof.Machine
end

