-- ==== Sys2Proof/Laws/Lanes.lean ====
section
/-!
SUPPORT. What writing one result per active lane does to the wave (spec/04_vector_isa.md R90, R92), once for every
instruction of that shape.
-/

namespace Sys2Proof.Machine

/-! ## Single writes -/

@[simp] theorem Wave.setV_W (w : Wave) (p : Bool) (r l : Nat) (x : W32) : (w.setV p r l x).W = w.W := rfl
@[simp] theorem Wave.setV_hw (w : Wave) (p q : Bool) (r l j : Nat) (x : W32) : (w.setV p r l x).hw q j = w.hw q j := rfl

theorem Wave.hw_lt (w : Wave) (p : Bool) (l : Nat) (_ : p ∈ w.groups) (hl : l < w.W) : w.hw p l < 64 := by
  unfold Wave.hw Wave.W Wave.groups at *
  cases h : w.width <;> simp_all [Width.lanes] <;> (try split) <;> omega

theorem Wave.hw_inj (w : Wave) {p q : Bool} {l j : Nat} (hp : p ∈ w.groups) (hl : l < w.W) (hq : q ∈ w.groups) (hj : j < w.W)
    (h : w.hw p l = w.hw q j) : p = q ∧ l = j := by
  unfold Wave.hw Wave.W Wave.groups at *
  cases hw : w.width <;> simp_all [Width.lanes]
  cases p <;> cases q <;> simp_all <;> omega

/-- A write to one lane of one register, read anywhere. -/
theorem Wave.getV_setV (w : Wave) {p q : Bool} {r j l i : Nat} (x : W32) (hp : p ∈ w.groups) (hl : l < w.W) (hq : q ∈ w.groups)
    (hi : i < w.W) : (w.setV p r l x).getV q j i = if q = p ∧ i = l ∧ j = r then x else w.getV q j i := by
  have a := w.hw_lt p l hp hl
  have b := w.hw_lt q i hq hi
  show mget 0 (mset 0 w.v (64 * r + w.hw p l) x) (64 * j + w.hw q i) = _
  rw [mget_mset]
  by_cases h : q = p ∧ i = l ∧ j = r
  · obtain ⟨rfl, rfl, rfl⟩ := h; simp
  · rw [if_neg h, if_neg]
    · rfl
    · intro e
      have e1 : j = r := by omega
      have e2 : w.hw q i = w.hw p l := by omega
      obtain ⟨rfl, rfl⟩ := w.hw_inj hq hi hp hl e2
      exact h ⟨rfl, rfl, e1⟩

theorem Wave.getS_setS (w : Wave) (p q : Bool) (r j : Nat) (x : W64) :
    (w.setS p r x).getS q j = if q = p ∧ j = r then x else w.getS q j := by
  unfold Wave.getS Wave.setS
  rw [Wave.half_updHalf]
  by_cases h : q = p
  · subst h
    simp only [if_pos, Half.getS, Half.setS, mget_mset, true_and]
  · simp [h]

@[simp] theorem Wave.getS_setV (w : Wave) (p q : Bool) (r l j : Nat) (x : W32) : (w.setV p r l x).getS q j = w.getS q j := by
  simp [Wave.getS]
@[simp] theorem Wave.getK_setV (w : Wave) (p q : Bool) (r l j : Nat) (x : W32) : (w.setV p r l x).getK q j = w.getK q j := by
  simp [Wave.getK]
@[simp] theorem Wave.getV_setS (w : Wave) (p q : Bool) (r l j : Nat) (x : W64) : (w.setS p r x).getV q l j = w.getV q l j := by
  simp [Wave.getV, Wave.hw]
theorem Wave.half_setS (w : Wave) (p q : Bool) (r : Nat) (x : W64) :
    (w.setS p r x).half q = { w.half q with s := if q = p then mset 0 (w.half q).s r x else (w.half q).s } := by
  unfold Wave.setS
  rw [Wave.half_updHalf]
  split <;> rfl
@[simp] theorem Wave.getK_setS (w : Wave) (p q : Bool) (r j : Nat) (x : W64) : (w.setS p r x).getK q j = w.getK q j := by
  simp [Wave.getK, Wave.half_setS, Wave.W]
@[simp] theorem Wave.exec_setS (w : Wave) (p q : Bool) (r : Nat) (x : W64) : ((w.setS p r x).half q).exec = (w.half q).exec := by
  simp [Wave.half_setS]
@[simp] theorem Wave.fpflag_setS (w : Wave) (p q : Bool) (r : Nat) (x : W64) : ((w.setS p r x).half q).fpflag = (w.half q).fpflag := by
  simp [Wave.half_setS]

@[simp] theorem Wave.bare_setV (w : Wave) (p : Bool) (r l : Nat) (x : W32) : (w.setV p r l x).bare = w.bare := rfl
@[simp] theorem Wave.bare_setS (w : Wave) (p : Bool) (r : Nat) (x : W64) : (w.setS p r x).bare = w.bare := by
  cases p <;> rfl
@[simp] theorem Wave.groups_setV (w : Wave) (p : Bool) (r l : Nat) (x : W32) : (w.setV p r l x).groups = w.groups := rfl
@[simp] theorem Wave.groups_setS (w : Wave) (p : Bool) (r : Nat) (x : W64) : (w.setS p r x).groups = w.groups := by
  simp [Wave.groups]
@[simp] theorem Wave.W_setS (w : Wave) (p : Bool) (r : Nat) (x : W64) : (w.setS p r x).W = w.W := by
  simp [Wave.W]

/-! ## `k0`, masks and flags -/

theorem bit_and (a b : W64) (n : Nat) : bit (a &&& b) n = (bit a n && bit b n) := by simp [bit]
theorem bit_or (a b : W64) (n : Nat) : bit (a ||| b) n = (bit a n || bit b n) := by simp [bit]

theorem bit_ones (n l : Nat) (h : n ≤ 64) : bit (ones n) l = decide (l < n) := by
  unfold bit ones w64
  rw [BitVec.getLsbD_ofNat, Nat.testBit_two_pow_sub_one]
  by_cases h1 : l < n
  · simp [h1]; omega
  · simp [h1]

theorem Wave.W_le (w : Wave) : w.W ≤ 64 := by unfold Wave.W; cases w.width <;> decide

theorem bit_setBit (x : W64) (n l : Nat) (b : Bool) (h : n < 64) : bit (setBit x n b) l = if l = n then b else bit x l := by
  unfold setBit bit
  cases b
  · simp only [Bool.false_eq_true, ite_false, BitVec.getLsbD_and, BitVec.getLsbD_not, BitVec.getLsbD_shiftLeft]
    by_cases e : l = n
    · subst e; simp [h]
    · by_cases g : l < 64
      · by_cases f : l < n
        · simp [g, f, e]
        · simp [g, f, e, show ¬ (l - n) = 0 by omega]
      · simp [e, BitVec.getLsbD_of_ge x l (by omega)]
  · simp only [ite_true, BitVec.getLsbD_or, BitVec.getLsbD_shiftLeft]
    by_cases e : l = n
    · subst e; simp [h]
    · by_cases f : l < n
      · simp [f, e]
      · simp [f, e, show ¬ (l - n) = 0 by omega]

/-- `k0` reads as ones whatever is written (R13, R17). -/
theorem Wave.getK_zero (w : Wave) (p : Bool) : w.getK p 0 = ones w.W := by simp [Wave.getK]

@[simp] theorem Wave.W_setK (w : Wave) (p : Bool) (n : Nat) (x : W64) : (w.setK p n x).W = w.W := by simp [Wave.W]

theorem Wave.half_setK (w : Wave) (p q : Bool) (n : Nat) (x : W64) :
    (w.setK p n x).half q = { w.half q with k := if q = p ∧ n ≠ 0 then mset 0 (w.half q).k n (x &&& ones w.W) else (w.half q).k } := by
  unfold Wave.setK
  split
  · simp [*]
  · rw [Wave.half_updHalf]
    split
    · subst_vars; simp [*]
    · simp [*]

theorem Wave.getK_setK (w : Wave) (p q : Bool) (n j : Nat) (x : W64) :
    (w.setK p n x).getK q j = if q = p ∧ j = n ∧ n ≠ 0 then x &&& ones w.W else w.getK q j := by
  unfold Wave.getK
  simp only [Wave.half_setK, Wave.W_setK]
  by_cases hj : j = 0
  · subst hj
    rw [if_pos rfl, if_pos rfl, if_neg (by omega)]
  · rw [if_neg hj, if_neg hj]
    by_cases h : q = p ∧ n ≠ 0
    · rw [if_pos h, mget_mset]
      by_cases g : j = n
      · simp [g, h, BitVec.and_assoc]
      · simp [g]
    · rw [if_neg h, if_neg (fun c => h ⟨c.1, c.2.2⟩)]

@[simp] theorem Wave.getV_setK (w : Wave) (p q : Bool) (n r l : Nat) (x : W64) : (w.setK p n x).getV q r l = w.getV q r l := by
  simp [Wave.getV, Wave.hw]
@[simp] theorem Wave.getS_setK (w : Wave) (p q : Bool) (n j : Nat) (x : W64) : (w.setK p n x).getS q j = w.getS q j := by
  simp [Wave.getS, Wave.half_setK, Half.getS]
@[simp] theorem Wave.exec_setK (w : Wave) (p q : Bool) (n : Nat) (x : W64) : ((w.setK p n x).half q).exec = (w.half q).exec := by
  simp [Wave.half_setK]
@[simp] theorem Wave.fpflag_setK (w : Wave) (p q : Bool) (n : Nat) (x : W64) : ((w.setK p n x).half q).fpflag = (w.half q).fpflag := by
  simp [Wave.half_setK]
@[simp] theorem Wave.bare_setK (w : Wave) (p : Bool) (n : Nat) (x : W64) : (w.setK p n x).bare = w.bare := by
  unfold Wave.setK
  split
  · rfl
  · cases p <;> rfl

/-! ## Lanes -/

theorem Wave.mem_active (w : Wave) (p : Bool) (k l : Nat) (h : l ∈ w.active p k) : l < w.W := by
  simp only [Wave.active, bitsOf, List.mem_filter, List.mem_range] at h
  exact h.1

theorem Wave.mem_work (w : Wave) (k : Nat) (p : Bool) (l : Nat) :
    (p, l) ∈ w.work k false ↔ p ∈ w.groups ∧ l ∈ w.active p k := by
  simp only [Wave.work, Bool.false_eq_true, ite_false, List.mem_flatMap, List.mem_map, Prod.mk.injEq]
  constructor
  · rintro ⟨q, hq, a, ha, rfl, rfl⟩; exact ⟨hq, ha⟩
  · rintro ⟨hq, ha⟩; exact ⟨p, hq, l, ha, rfl, rfl⟩

theorem Wave.work_ok (w : Wave) (k : Nat) (uni : Bool) : ∀ x ∈ w.work k uni, x.1 ∈ w.groups ∧ x.2 < w.W := by
  intro x hx
  simp only [Wave.work, List.mem_flatMap, List.mem_map] at hx
  obtain ⟨q, hq, a, ha, rfl⟩ := hx
  refine ⟨hq, ?_⟩
  split at ha
  · exact w.mem_active q k a (List.mem_of_mem_take ha)
  · exact w.mem_active q k a ha

/-- The fold that writes a vector register, one lane after another. -/
theorem foldPutVec (t : Ty) (r : Nat) (val : Bool → Nat → Nat) : ∀ (ls : List (Bool × Nat)) (w : Wave),
    (∀ x ∈ ls, x.1 ∈ w.groups ∧ x.2 < w.W) → ∀ p ∈ w.groups, ∀ l < w.W, ∀ j,
    (ls.foldl (fun (w : Wave) x => w.putVec x.1 x.2 t r (val x.1 x.2)) w).getV p j l =
      if (p, l) ∈ ls then
        if Ty.wide t = true ∧ j = r + 1 then BitVec.ofNat 32 (val p l / 2 ^ 32)
        else if j = r then BitVec.ofNat 32 (if Ty.wide t then val p l else vecFill t (val p l))
        else w.getV p j l
      else w.getV p j l
  | [], w, _, p, _, l, _, j => by simp
  | x :: ls, w, h, p, hp, l, hl, j => by
    obtain ⟨q, i⟩ := x
    have h0 := h (q, i) (by simp)
    have g : (w.putVec q i t r (val q i)).groups = w.groups := by unfold Wave.putVec; split <;> rfl
    have gW : (w.putVec q i t r (val q i)).W = w.W := by unfold Wave.putVec; split <;> rfl
    have one : (w.putVec q i t r (val q i)).getV p j l =
        if p = q ∧ l = i then
          if Ty.wide t = true ∧ j = r + 1 then BitVec.ofNat 32 (val p l / 2 ^ 32)
          else if j = r then BitVec.ofNat 32 (if Ty.wide t then val p l else vecFill t (val p l))
          else w.getV p j l
        else w.getV p j l := by
      unfold Wave.putVec
      split
      · rw [Wave.getV_setV _ _ (by simpa using h0.1) (by simpa using h0.2) (by simpa using hp) (by simpa using hl),
          Wave.getV_setV _ _ h0.1 h0.2 hp hl]
        by_cases e : p = q ∧ l = i
        · obtain ⟨rfl, rfl⟩ := e
          simp [*]
        · rw [if_neg (fun c => e ⟨c.1, c.2.1⟩), if_neg (fun c => e ⟨c.1, c.2.1⟩), if_neg e]
      · rw [Wave.getV_setV _ _ h0.1 h0.2 hp hl]
        by_cases e : p = q ∧ l = i
        · obtain ⟨rfl, rfl⟩ := e
          simp [*]
        · rw [if_neg (fun c => e ⟨c.1, c.2.1⟩), if_neg e]
    rw [List.foldl_cons, foldPutVec t r val ls _ (by rw [g, gW]; exact fun x hx => h x (by simp [hx])) p (by rw [g]; exact hp) l
      (by rw [gW]; exact hl) j, one]
    by_cases e : p = q ∧ l = i
    · obtain ⟨rfl, rfl⟩ := e
      by_cases m : (p, l) ∈ ls
      · simp only [m, if_true, List.mem_cons, or_true, and_self]
        split
        · rfl
        · split <;> simp_all
      · simp [m]
    · have : (p, l) ≠ (q, i) := fun c => e (by simpa using c)
      simp [e, this]

theorem foldPutVec_keeps (t : Ty) (r : Nat) (val : Bool → Nat → Nat) : ∀ (ls : List (Bool × Nat)) (w : Wave),
    let v := ls.foldl (fun (w : Wave) x => w.putVec x.1 x.2 t r (val x.1 x.2)) w
    v.bare = w.bare ∧ v.lo = w.lo ∧ v.hi = w.hi ∧ v.pc = w.pc ∧ v.width = w.width
  | [], w => by simp
  | x :: ls, w => by
    have h := foldPutVec_keeps t r val ls (w.putVec x.1 x.2 t r (val x.1 x.2))
    have e : (w.putVec x.1 x.2 t r (val x.1 x.2)).bare = w.bare ∧ (w.putVec x.1 x.2 t r (val x.1 x.2)).lo = w.lo
        ∧ (w.putVec x.1 x.2 t r (val x.1 x.2)).hi = w.hi ∧ (w.putVec x.1 x.2 t r (val x.1 x.2)).pc = w.pc
        ∧ (w.putVec x.1 x.2 t r (val x.1 x.2)).width = w.width := by
      unfold Wave.putVec; split <;> exact ⟨rfl, rfl, rfl, rfl, rfl⟩
    simp only [List.foldl_cons] at h ⊢
    obtain ⟨a, b, c, d, f⟩ := h
    obtain ⟨a', b', c', d', f'⟩ := e
    exact ⟨a.trans a', b.trans b', c.trans c', d.trans d', f.trans f'⟩

theorem foldPutSca_keeps (t : Ty) (r : Nat) (val : Bool → Nat → Nat) : ∀ (ls : List (Bool × Nat)) (w : Wave),
    let v := ls.foldl (fun (w : Wave) x => w.putSca x.1 t r (val x.1 x.2)) w
    v.bare = w.bare ∧ v.v = w.v ∧ v.pc = w.pc ∧ v.width = w.width
      ∧ (∀ p n, v.getK p n = w.getK p n) ∧ (∀ p, (v.half p).exec = (w.half p).exec ∧ (v.half p).fpflag = (w.half p).fpflag)
      ∧ ∀ p j, j ≠ r → v.getS p j = w.getS p j
  | [], w => by simp
  | x :: ls, w => by
    have h := foldPutSca_keeps t r val ls (w.putSca x.1 t r (val x.1 x.2))
    simp only [List.foldl_cons] at h ⊢
    obtain ⟨a, b, c, d, f, g, i⟩ := h
    unfold Wave.putSca at *
    refine ⟨by simpa using a, by simpa using b, by simpa using c, by simpa using d, fun p n => by simpa using f p n,
      fun p => by simpa using g p, fun p j hj => ?_⟩
    rw [i p j hj, Wave.getS_setS, if_neg (fun c => hj c.2)]

/-! ## Going on -/

@[simp] theorem Wave.bare_retired (w : Wave) : w.retired.bare = w.bare := by
  simp only [Wave.retired, Wave.bare, List.map_map]
  congr 1
  apply List.map_congr_left
  intro a _
  simp only [Function.comp]
  split <;> rfl

/-- What the issuing wave is once the instruction that left it `w` is complete. -/
def Env.gone (e : Env) (w : Wave) (n : Nat) : Wave :=
  { ({ w with pc := w.pc + w64 n } : Wave).retired with quiet := w.quiet && !e.w.quiet }

theorem Env.finish_ok {e : Env} {s : State} (h : s.env? = some e) (w : Wave) (n : Nat) :
    e.finish s (e.ok w n) = s.after e s.m (e.gone w n) := by
  obtain ⟨_, hm, _⟩ := State.env?_m h
  simp only [Env.ok, Env.finish_next, State.after, Env.gone, hm]

@[simp] theorem Env.gone_pc (e : Env) (w : Wave) (n : Nat) : (e.gone w n).pc = w.pc + w64 n := rfl
@[simp] theorem Env.gone_v (e : Env) (w : Wave) (n : Nat) : (e.gone w n).v = w.v := rfl
@[simp] theorem Env.gone_half (e : Env) (w : Wave) (n : Nat) (p : Bool) : (e.gone w n).half p = w.half p := by cases p <;> rfl
@[simp] theorem Env.gone_width (e : Env) (w : Wave) (n : Nat) : (e.gone w n).width = w.width := rfl
@[simp] theorem Env.gone_stack (e : Env) (w : Wave) (n : Nat) : (e.gone w n).stack = w.stack := rfl
@[simp] theorem Env.gone_getV (e : Env) (w : Wave) (n : Nat) (p : Bool) (r l : Nat) : (e.gone w n).getV p r l = w.getV p r l := rfl
@[simp] theorem Env.gone_getS (e : Env) (w : Wave) (n : Nat) (p : Bool) (r : Nat) : (e.gone w n).getS p r = w.getS p r := by
  simp [Wave.getS]
@[simp] theorem Env.gone_getK (e : Env) (w : Wave) (n : Nat) (p : Bool) (r : Nat) : (e.gone w n).getK p r = w.getK p r := by
  simp [Wave.getK, Wave.W]
@[simp] theorem Env.gone_bare (e : Env) (w : Wave) (n : Nat) : (e.gone w n).bare = w.bare := by
  have h : (e.gone w n).bare = ({ w with pc := w.pc + w64 n } : Wave).retired.bare := rfl
  rw [h, Wave.bare_retired]; rfl

/-! ## One result for each lane -/

theorem Env.each_map (e : Env) (k : Nat) (uni : Bool) (f : Bool → Nat → Nat × Flags) :
    e.each k uni f = (e.w.work k uni).map (fun x => { half := x.1, lane := x.2, val := (f x.1 x.2).1, flags := (f x.1 x.2).2 }) := rfl

theorem Wave.putAll_each (e : Env) (w : Wave) (t : Ty) (d : Dst) (k : Nat) (uni : Bool) (f : Bool → Nat → Nat × Flags) :
    w.putAll t d (e.each k uni f) = (e.w.work k uni).foldl (fun (w : Wave) x => w.put x.1 x.2 t d (f x.1 x.2).1) w := by
  simp only [Wave.putAll, Env.each_map, List.foldl_map]

/-- The wave after one result of each active lane is written: the destination and nothing else. -/
theorem putAll_writes (e : Env) (t : Ty) (d : Dst) (k : Nat) (f : Bool → Nat → Nat × Flags) :
    let v := e.w.putAll t d (e.each k (Dst.uni d) f)
    WritesDst e v k t d (fun p l => (f p l).1) ∧ v.bare = e.w.bare ∧ v.pc = e.w.pc ∧ v.width = e.w.width
      ∧ KeepsK e v ∧ KeepsExec e v ∧ KeepsFlags e v := by
  simp only [Wave.putAll_each]
  cases d with
  | vec r =>
    have hu : Dst.uni (.vec r) = false := rfl
    have hp : ∀ (w : Wave) (x : Bool × Nat), w.put x.1 x.2 t (.vec r) (f x.1 x.2).1 = w.putVec x.1 x.2 t r.toNat (f x.1 x.2).1 := fun _ _ => rfl
    simp only [hu, hp]
    obtain ⟨a, b, c, d, g⟩ := foldPutVec_keeps t r.toNat (fun p l => (f p l).1) (e.w.work k false) e.w
    have hh : ∀ p, (((e.w.work k false).foldl (fun (w : Wave) x => w.putVec x.1 x.2 t r.toNat (f x.1 x.2).1) e.w).half p) = e.w.half p := by
      intro p; cases p
      · exact b
      · exact c
    refine ⟨⟨?_, ?_⟩, a, d, g, ?_, ?_, ?_⟩
    · intro p hp l hl j
      rw [foldPutVec t r.toNat (fun p l => (f p l).1) (e.w.work k false) e.w (e.w.work_ok k false) p hp l hl j]
      simp only [Wave.mem_work, hp, true_and, Wave.isActive, decide_eq_true_eq]
    · intro p j; simp only [Wave.getS, hh]
    · intro p n; simp only [Wave.getK, hh, Wave.W, g]
    · intro p; rw [hh]
    · intro p; rw [hh]
  | sca r =>
    have hu : Dst.uni (.sca r) = true := rfl
    have hp : ∀ (w : Wave) (x : Bool × Nat), w.put x.1 x.2 t (.sca r) (f x.1 x.2).1 = w.putSca x.1 t r.toNat (f x.1 x.2).1 := fun _ _ => rfl
    simp only [hu, hp]
    obtain ⟨a, b, c, d, g, i, j⟩ := foldPutSca_keeps t r.toNat (fun p l => (f p l).1) (e.w.work k true) e.w
    refine ⟨⟨?_, ?_⟩, a, c, d, g, fun p => (i p).1, fun p => (i p).2⟩
    · intro p n
      by_cases hn : n = r.toNat
      · subst hn
        simp only [if_true]
        unfold Wave.work Wave.groups
        cases hw : e.w.width <;> cases p <;> simp only [List.flatMap_cons, List.flatMap_nil, List.append_nil, if_true, List.mem_cons,
          List.not_mem_nil, or_false, reduceCtorEq, if_false, or_true, List.foldl_append] <;>
          (rcases e.w.active false k with _ | ⟨x, xs⟩ <;> rcases e.w.active true k with _ | ⟨y, ys⟩ <;>
            simp [Wave.putSca, Wave.getS_setS])
      · rw [j p n hn]
        split <;> simp [hn]
    · intro p n l; simp only [Wave.getV, b, Wave.hw, d]

/-- An instruction that writes one result per lane and raises no flag. -/
theorem Env.lanes_done {e : Env} {s : State} (h : s.env? = some e) (k : BitVec 4) (t : Ty) (d : Dst) (f : Bool → Nat → Nat) (n : Nat) :
    ∃ v, e.finish s (e.lanes k t d f n) = s.after e s.m v ∧ LaneResult e k t d n f v := by
  obtain ⟨a, b, c, w, g, i, j⟩ := putAll_writes e t d k.toNat (fun p l => (f p l, 0))
  refine ⟨_, Env.finish_ok h _ _, ?_⟩
  generalize e.w.putAll t d (e.each k.toNat (Dst.uni d) (fun p l => (f p l, 0))) = u at a b c w g i j ⊢
  refine ⟨⟨by simp [c], by simp [b]⟩, ?_, fun p n => by simpa using g p n, fun p => by simpa using i p, fun p => by simpa using j p⟩
  cases d with
  | vec r => exact ⟨fun p hp l hl j => by simpa using a.1 p hp l hl j, fun p j => by simpa using a.2 p j⟩
  | sca r => exact ⟨fun p j => by simpa using a.1 p j, fun p r l => by simpa using a.2 p r l⟩

/-! ## One mask bit for each lane -/

theorem foldPutBits (d : Nat) (val : Bool → Nat → Bool) : ∀ (ls : List (Bool × Nat)) (w : Wave), (∀ x ∈ ls, x.2 < w.W) →
    ∀ p j l, bit ((ls.foldl (fun (w : Wave) x => w.setK x.1 d (setBit (w.getK x.1 d) x.2 (val x.1 x.2))) w).getK p j) l =
      if j = d ∧ d ≠ 0 ∧ (p, l) ∈ ls then val p l else bit (w.getK p j) l
  | [], w, _, p, j, l => by simp
  | x :: ls, w, h, p, j, l => by
    obtain ⟨q, i⟩ := x
    have hi : i < w.W := h (q, i) (by simp)
    have hW := w.W_le
    have one : bit ((w.setK q d (setBit (w.getK q d) i (val q i))).getK p j) l =
        if j = d ∧ d ≠ 0 ∧ p = q ∧ l = i then val p l else bit (w.getK p j) l := by
      rw [Wave.getK_setK]
      by_cases e : p = q ∧ j = d ∧ d ≠ 0
      · obtain ⟨rfl, rfl, hd⟩ := e
        rw [if_pos ⟨rfl, rfl, hd⟩, bit_and, bit_setBit _ _ _ _ (by omega), bit_ones _ _ hW]
        by_cases g : l = i
        · subst g; simp [hd, hi]
        · rw [if_neg g, if_neg (fun c => g c.2.2.2)]
          simp only [Wave.getK, if_neg hd, bit_and, bit_ones _ _ hW, Bool.and_assoc, Bool.and_self]
      · rw [if_neg e, if_neg (fun c => e ⟨c.2.2.1, c.1, c.2.1⟩)]
    rw [List.foldl_cons, foldPutBits d val ls _ (fun x hx => by simpa using h x (by simp [hx])) p j l, one]
    by_cases e : p = q ∧ l = i
    · obtain ⟨rfl, rfl⟩ := e
      by_cases m : j = d ∧ d ≠ 0
      · simp [m]
      · simp only [List.mem_cons, true_or, and_true]
        rw [if_neg (fun c => m ⟨c.1, c.2.1⟩)]
    · have : (p, l) ≠ (q, i) := fun c => e (by simpa using c)
      simp only [List.mem_cons, this, false_or]
      by_cases m : j = d ∧ d ≠ 0 ∧ (p, l) ∈ ls
      · simp [m]
      · rw [if_neg m, if_neg (fun c => e c.2.2), if_neg m]

theorem foldPutBits_keeps (d : Nat) (val : Bool → Nat → Bool) : ∀ (ls : List (Bool × Nat)) (w : Wave),
    let v := ls.foldl (fun (w : Wave) x => w.setK x.1 d (setBit (w.getK x.1 d) x.2 (val x.1 x.2))) w
    v.bare = w.bare ∧ v.v = w.v ∧ v.pc = w.pc ∧ v.width = w.width
      ∧ (∀ p r, v.getS p r = w.getS p r) ∧ ∀ p, (v.half p).exec = (w.half p).exec ∧ (v.half p).fpflag = (w.half p).fpflag
  | [], w => by simp
  | x :: ls, w => by
    have h := foldPutBits_keeps d val ls (w.setK x.1 d (setBit (w.getK x.1 d) x.2 (val x.1 x.2)))
    simp only [List.foldl_cons] at h ⊢
    obtain ⟨a, b, c, d, f, g⟩ := h
    exact ⟨by simpa using a, by simpa using b, by simpa using c, by simpa using d, fun p r => by simpa using f p r,
      fun p => by simpa using g p⟩

/-- The wave after one mask bit of each active lane is written. -/
theorem putBits_writes (e : Env) (k d : Nat) (f : Bool → Nat → Nat × Flags) :
    let v := e.w.putBits d (e.each k false f)
    WritesBits e v k d (fun p l => (f p l).1 != 0) ∧ v.bare = e.w.bare ∧ v.pc = e.w.pc ∧ v.width = e.w.width
      ∧ KeepsV e v ∧ KeepsS e v ∧ KeepsExec e v ∧ KeepsFlags e v := by
  have hv : e.w.putBits d (e.each k false f) = (e.w.work k false).foldl
      (fun (w : Wave) x => w.setK x.1 d (setBit (w.getK x.1 d) x.2 ((f x.1 x.2).1 != 0))) e.w := by
    simp only [Wave.putBits, Env.each_map, List.foldl_map]
  simp only [hv]
  obtain ⟨a, b, c, g, i, j⟩ := foldPutBits_keeps d (fun p l => (f p l).1 != 0) (e.w.work k false) e.w
  refine ⟨?_, a, c, g, ?_, i, fun p => (j p).1, fun p => (j p).2⟩
  · intro p n l
    rw [foldPutBits d (fun p l => (f p l).1 != 0) (e.w.work k false) e.w (fun x hx => (e.w.work_ok k false x hx).2)]
    simp only [Wave.mem_work, Wave.isActive, decide_eq_true_eq]
  · intro p r l; simp only [Wave.getV, b, Wave.hw, g]

/-- An instruction that writes one mask bit per active lane and raises no flag. -/
theorem Env.bits_done {e : Env} {s : State} (h : s.env? = some e) (k d : Nat) (f : Bool → Nat → Nat × Flags) :
    ∃ v, e.finish s (e.ok (e.w.putBits d (e.each k false f))) = s.after e s.m v ∧ MaskResult e k d (fun p l => (f p l).1 != 0) v := by
  obtain ⟨a, b, c, w, g, i, j, l⟩ := putBits_writes e k d f
  refine ⟨_, Env.finish_ok h _ _, ?_⟩
  generalize e.w.putBits d (e.each k false f) = u at a b c w g i j l ⊢
  exact ⟨⟨by simp [c], by simp [b]⟩, fun p n l => by simpa using a p n l, fun p r l => by simpa using g p r l,
    fun p r => by simpa using i p r, fun p => by simpa using j p, fun p => by simpa using l p⟩

/-! ## Sticky flags (R71) -/

theorem sticky_fold (ls : List (Bool × Nat)) (fl : Bool → Nat → Flags) : ∀ (w : Wave),
    let v := ls.foldl (fun (w : Wave) x => w.updHalf x.1 (fun h => { h with fpflag := h.fpflag ||| (fl x.1 x.2).setWidth 64 })) w
    v.bare = w.bare ∧ v.v = w.v ∧ v.pc = w.pc ∧ v.width = w.width ∧ (∀ p r, v.getS p r = w.getS p r) ∧ (∀ p n, v.getK p n = w.getK p n)
      ∧ (∀ p, (v.half p).exec = (w.half p).exec) ∧ (∀ p, (v.half p).fpctl = (w.half p).fpctl)
      ∧ ∀ p, (v.half p).fpflag = (w.half p).fpflag
          ||| (ls.foldl (fun (a : Flags) x => if x.1 = p then a ||| fl x.1 x.2 else a) 0).setWidth 64 := by
  have hor : ∀ (ls : List (Bool × Nat)) (p : Bool) (a : Flags), ls.foldl (fun (a : Flags) x => if x.1 = p then a ||| fl x.1 x.2 else a) a
      = a ||| ls.foldl (fun (a : Flags) x => if x.1 = p then a ||| fl x.1 x.2 else a) 0 := by
    intro ls p
    induction ls with
    | nil => intro a; simp
    | cons x ls ih =>
      intro a
      simp only [List.foldl_cons]
      split
      · rw [ih, ih (0 ||| _)]; simp [BitVec.or_assoc]
      · exact ih a
  induction ls with
  | nil => intro w; simp
  | cons x ls ih =>
    intro w
    obtain ⟨a, b, c, d, f, g, i, j, k⟩ := ih (w.updHalf x.1 (fun h => { h with fpflag := h.fpflag ||| (fl x.1 x.2).setWidth 64 }))
    simp only [List.foldl_cons]
    refine ⟨?_, ?_, ?_, ?_, ?_, ?_, ?_, ?_, ?_⟩
    · rw [a]; cases x.1 <;> rfl
    · rw [b]; simp
    · rw [c]; simp
    · rw [d]; simp
    · intro p r; rw [f]; simp only [Wave.getS, Wave.half_updHalf]; split <;> rfl
    · intro p n; rw [g]; simp only [Wave.getK, Wave.half_updHalf, Wave.W, Wave.updHalf_width]; split <;> simp <;> split <;> rfl
    · intro p; rw [i]; simp only [Wave.half_updHalf]; split <;> rfl
    · intro p; rw [j]; simp only [Wave.half_updHalf]; split <;> rfl
    · intro p
      rw [k, Wave.half_updHalf]
      by_cases e : p = x.1
      · subst e
        simp only [if_true, BitVec.ofNat_eq_ofNat, BitVec.zero_or] at hor ⊢
        rw [hor ls x.1 (fl x.1 x.2), BitVec.setWidth_or, BitVec.or_assoc]
      · have e' : ¬ x.1 = p := fun h => e h.symm
        simp [e, e']

/-- A flag is raised in a half exactly when one of its lanes raises it. -/
theorem raised_bit (e : Env) (k : Nat) (uni : Bool) (fl : Bool → Nat → Flags) (p : Bool) (n : Nat) :
    (raised e k uni fl p).getLsbD n = (e.w.work k uni).any (fun x => x.1 == p && (fl x.1 x.2).getLsbD n) := by
  have : ∀ (ls : List (Bool × Nat)) (a : Flags), (ls.foldl (fun (a : Flags) x => if x.1 = p then a ||| fl x.1 x.2 else a) a).getLsbD n
      = (a.getLsbD n || ls.any (fun x => x.1 == p && (fl x.1 x.2).getLsbD n)) := by
    intro ls
    induction ls with
    | nil => intro a; simp
    | cons x ls ih =>
      intro a
      rw [List.foldl_cons, ih]
      by_cases h : x.1 = p
      · simp [h, BitVec.getLsbD_or, Bool.or_assoc]
      · have h' : (x.1 == p) = false := by simpa using h
        simp [h, h']
  rw [raised, this]; simp

/-- No lane is marked for an exception that no lane of the half raises. -/
theorem Wave.marked_calm (e : Env) (w : Wave) (k : Nat) (uni : Bool) (f : Bool → Nat → Nat × Flags) (p : Bool) (n : Nat)
    (h : bit (w.half p).fpctl n = true → (raised e k uni (fun p l => (f p l).2) p).getLsbD n = false) :
    w.marked (e.each k uni f) p n = 0 := by
  unfold Wave.marked
  split
  · rename_i g
    have hr := h g
    rw [raised_bit, List.any_eq_false] at hr
    rw [Env.each_map, List.filter_map, List.filter_eq_nil_iff.2]
    · rfl
    · intro x hx
      simpa using hr x hx
  · rfl

/-- An instruction that raises no enabled exception is complete. -/
theorem Env.flagged_done {e : Env} {s : State} (h : s.env? = some e) (w : Wave) (k : Nat) (uni : Bool) (f : Bool → Nat → Nat × Flags) (n : Nat)
    (h0 : ∀ p n, n < 5 → bit (w.half p).fpctl n = true → (raised e k uni (fun p l => (f p l).2) p).getLsbD n = false) :
    ∃ v : Wave, e.finish s (e.flagged w (e.each k uni f) n) = s.after e s.m v ∧ v.pc = w.pc + w64 n ∧ v.bare = w.bare ∧ v.v = w.v ∧ v.width = w.width
      ∧ (∀ p r, v.getS p r = w.getS p r) ∧ (∀ p n, v.getK p n = w.getK p n) ∧ (∀ p, (v.half p).exec = (w.half p).exec)
      ∧ ∀ p, (v.half p).fpflag = (w.half p).fpflag ||| (raised e k uni (fun p l => (f p l).2) p).setWidth 64 := by
  have hs : w.sticky (e.each k uni f) = (e.w.work k uni).foldl
      (fun (w : Wave) x => w.updHalf x.1 (fun h => { h with fpflag := h.fpflag ||| ((f x.1 x.2).2).setWidth 64 })) w := by
    simp only [Wave.sticky, Env.each_map, List.foldl_map]
  obtain ⟨a, b, c, d, g, i, j, l, m⟩ := sticky_fold (e.w.work k uni) (fun p l => (f p l).2) w
  have none_ : (w.sticky (e.each k uni f)).ieee (e.each k uni f) = none := by
    simp only [Wave.ieee, List.findSome?_eq_none_iff, List.mem_range]
    intro n hn
    have z : ∀ p, (w.sticky (e.each k uni f)).marked (e.each k uni f) p n = 0 := by
      intro p
      apply Wave.marked_calm
      rw [hs, l p]
      exact h0 p n hn
    simp [z]
  refine ⟨e.gone (w.sticky (e.each k uni f)) n, ?_, ?_, ?_, ?_, ?_, ?_, ?_, ?_, ?_⟩
  · rw [Env.flagged, none_]; exact Env.finish_ok h _ _
  · rw [Env.gone_pc, hs, c]
  · rw [Env.gone_bare, hs, a]
  · rw [Env.gone_v, hs, b]
  · rw [Env.gone_width, hs, d]
  · intro p r; rw [Env.gone_getS, hs, g]
  · intro p r; rw [Env.gone_getK, hs, i]
  · intro p; rw [Env.gone_half, hs, j]
  · intro p; rw [Env.gone_half, hs, m]; rfl

/-- `putAll` leaves the control of exceptions. -/
theorem putAll_fpctl (e : Env) (t : Ty) (d : Dst) (k : Nat) (uni : Bool) (f : Bool → Nat → Nat × Flags) (w : Wave) :
    (w.putAll t d (e.each k uni f)).lo.fpctl = w.lo.fpctl ∧ (w.putAll t d (e.each k uni f)).hi.fpctl = w.hi.fpctl := by
  have : ∀ (l : List LaneRes) (w : Wave), (w.putAll t d l).lo.fpctl = w.lo.fpctl ∧ (w.putAll t d l).hi.fpctl = w.hi.fpctl := by
    intro l
    induction l with
    | nil => intro w; exact ⟨rfl, rfl⟩
    | cons x l ih =>
      intro w
      have h := ih (w.put x.half x.lane t d x.val)
      have g : (w.put x.half x.lane t d x.val).lo.fpctl = w.lo.fpctl ∧ (w.put x.half x.lane t d x.val).hi.fpctl = w.hi.fpctl := by
        cases d with
        | vec r => simp only [Wave.put, Wave.putVec]; split <;> exact ⟨rfl, rfl⟩
        | sca r => simp only [Wave.put, Wave.putSca, Wave.setS, Wave.updHalf]; cases x.half <;> exact ⟨rfl, rfl⟩
      exact ⟨h.1.trans g.1, h.2.trans g.2⟩
  exact this _ _

/-- An instruction that writes one result per lane and raises flags, with no trap to be taken. -/
theorem Env.flanes_done {e : Env} {s : State} (h : s.env? = some e) (k : BitVec 4) (t : Ty) (d : Dst)
    (f : Bool → Nat → Nat × Flags) (h0 : e.calm k.toNat (Dst.uni d) (fun p l => (f p l).2)) :
    ∃ v, e.finish s (e.flanes k t d f) = s.after e s.m v ∧ FloatResult e k t d f v := by
  obtain ⟨a, b, c, w, g, i, j⟩ := putAll_writes e t d k.toNat f
  obtain ⟨x, y⟩ := putAll_fpctl e t d k.toNat (Dst.uni d) f e.w
  have h1 : ∀ p n, n < 5 → bit ((e.w.putAll t d (e.each k.toNat (Dst.uni d) f)).half p).fpctl n = true →
      (raised e k.toNat (Dst.uni d) (fun p l => (f p l).2) p).getLsbD n = false := by
    intro p n hn hb
    have hp : ((e.w.putAll t d (e.each k.toNat (Dst.uni d) f)).half p).fpctl = (e.w.half p).fpctl := by
      cases p
      · exact x
      · exact y
    rw [hp] at hb
    exact h0 p n hn hb
  obtain ⟨v, hv, v1, v2, v3, v4, v5, v6, v7, v8⟩ := Env.flagged_done h _ k.toNat (Dst.uni d) f 8 h1
  refine ⟨v, hv, ?_⟩
  generalize e.w.putAll t d (e.each k.toNat (Dst.uni d) f) = u at a b c w g i j v1 v2 v3 v4 v5 v6 v7 v8
  have gv : ∀ p r l, v.getV p r l = u.getV p r l := fun p r l => by simp only [Wave.getV, v3, Wave.hw, v4]
  refine ⟨⟨by rw [v1, c], by rw [v2, b]⟩, ?_, fun p n => by rw [v6, g], fun p => by rw [v7, i], fun p => by rw [v8, j]⟩
  cases d with
  | vec r => exact ⟨fun p hp l hl j => by rw [gv]; exact a.1 p hp l hl j, fun p j => by rw [v5]; exact a.2 p j⟩
  | sca r => exact ⟨fun p j => by rw [v5]; exact a.1 p j, fun p r l => by rw [gv]; exact a.2 p r l⟩


/-! ## Traps of floating instructions (R71, R324) -/

theorem bit_maskOf (ls : List Nat) (j : Nat) (h : ∀ l ∈ ls, l < 64) : bit (maskOf ls) j = decide (j ∈ ls) := by
  have : ∀ (ls : List Nat) (w : W64), (∀ l ∈ ls, l < 64) → bit (ls.foldl (fun w n => setBit w n true) w) j = (bit w j || decide (j ∈ ls)) := by
    intro ls
    induction ls with
    | nil => intro w _; simp
    | cons x ls ih =>
      intro w h
      rw [List.foldl_cons, ih _ (fun l hl => h l (by simp [hl])), bit_setBit _ _ _ _ (h x (by simp))]
      by_cases c : j = x
      · simp [c]
      · simp [c]
  rw [maskOf, this ls 0 h]
  simp [bit]

theorem Wave.bit_marked (e : Env) (w : Wave) (k : Nat) (uni : Bool) (f : Bool → Nat → Nat × Flags) (p : Bool) (n l : Nat) :
    bit (w.marked (e.each k uni f) p n) l =
      (bit (w.half p).fpctl n && decide ((p, l) ∈ e.w.work k uni) && (f p l).2.getLsbD n) := by
  unfold Wave.marked
  split
  · rename_i g
    rw [bit_maskOf]
    · rw [g, Bool.true_and, Bool.eq_iff_iff, decide_eq_true_eq, Bool.and_eq_true, decide_eq_true_eq]
      simp only [Env.each_map, List.mem_map, List.mem_filter, Bool.and_eq_true, beq_iff_eq]
      constructor
      · rintro ⟨r, ⟨⟨x, hx, rfl⟩, rfl, hb⟩, rfl⟩; exact ⟨hx, hb⟩
      · rintro ⟨hx, hb⟩; exact ⟨_, ⟨⟨(p, l), hx, rfl⟩, rfl, hb⟩, rfl⟩
    · intro j hj
      simp only [Env.each_map, List.mem_map, List.mem_filter] at hj
      obtain ⟨r, ⟨⟨x, hx, rfl⟩, -⟩, rfl⟩ := hj
      exact Nat.lt_of_lt_of_le (e.w.work_ok k uni x hx).2 e.w.W_le
  · rename_i g
    simp only [Bool.not_eq_true] at g
    rw [g]; simp [bit]

/-- An instruction whose results raise an enabled exception writes them and traps. -/
theorem Env.flanes_trap {e : Env} {s : State} (h : s.env? = some e) (k : BitVec 4) (t : Ty) (d : Dst)
    (f : Bool → Nat → Nat × Flags) (h0 : ¬ e.calm k.toNat (Dst.uni d) (fun p l => (f p l).2)) :
    ∃ (n : Nat) (w : Wave) (x : Req),
      e.finish s (e.flanes k t d f) = { s with m := { takeTrap e.g s.m e.id w e.x x with changes := s.m.changes + 1 } }
        ∧ n < 5 ∧ (∃ p, bit (e.w.half p).fpctl n = true ∧ (raised e k.toNat (Dst.uni d) (fun p l => (f p l).2) p).getLsbD n = true)
        ∧ (∀ j < n, ∀ p, bit (e.w.half p).fpctl j = true → (raised e k.toNat (Dst.uni d) (fun p l => (f p l).2) p).getLsbD j = false)
        ∧ x.code = 0x10 + n ∧ x.rpc = e.w.pc + 8 ∧ x.addr = e.w.pc ∧ x.addr1 = e.w.pc ∧ x.skid = 0
        ∧ (∀ p, ∀ l < 64, bit (if p then x.lanes1 else x.lanes0) l =
            (bit (e.w.half p).fpctl n && decide ((p, l) ∈ e.w.work k.toNat (Dst.uni d)) && (f p l).2.getLsbD n))
        ∧ FloatResult e k t d f w := by
  obtain ⟨a, b, c, w, g, i, j⟩ := putAll_writes e t d k.toNat f
  obtain ⟨x, y⟩ := putAll_fpctl e t d k.toNat (Dst.uni d) f e.w
  let u := e.w.putAll t d (e.each k.toNat (Dst.uni d) f)
  have hu : e.w.putAll t d (e.each k.toNat (Dst.uni d) f) = u := rfl
  simp only [hu] at a b c w g i j x y
  have hs : u.sticky (e.each k.toNat (Dst.uni d) f) = (e.w.work k.toNat (Dst.uni d)).foldl
      (fun (w : Wave) x => w.updHalf x.1 (fun h => { h with fpflag := h.fpflag ||| ((f x.1 x.2).2).setWidth 64 })) u := by
    simp only [Wave.sticky, Env.each_map, List.foldl_map]
  obtain ⟨a', b', c', d', g', i', j', l', m'⟩ := sticky_fold (e.w.work k.toNat (Dst.uni d)) (fun p l => (f p l).2) u
  rw [← hs] at a' b' c' d' g' i' j' l' m'
  let z := u.sticky (e.each k.toNat (Dst.uni d) f)
  have hz : u.sticky (e.each k.toNat (Dst.uni d) f) = z := rfl
  rw [hz] at a' b' c' d' g' i' j' l' m'
  have ctl : ∀ p, (z.half p).fpctl = (e.w.half p).fpctl := by
    intro p
    rw [l' p]
    cases p
    · exact x
    · exact y
  have mk : ∀ p n, z.marked (e.each k.toNat (Dst.uni d) f) p n = 0 ↔
      ¬ (bit (e.w.half p).fpctl n = true ∧ (raised e k.toNat (Dst.uni d) (fun p l => (f p l).2) p).getLsbD n = true) := by
    intro p n
    constructor
    · rintro hm ⟨h1, h2⟩
      rw [raised_bit, List.any_eq_true] at h2
      obtain ⟨⟨q, l⟩, hx, hb⟩ := h2
      simp only [Bool.and_eq_true, beq_iff_eq] at hb
      obtain ⟨rfl, hb⟩ := hb
      have := Wave.bit_marked e z k.toNat (Dst.uni d) f q n l
      rw [hm, ctl, h1, hb] at this
      simp [hx, bit] at this
    · intro hm
      apply Wave.marked_calm
      intro h1
      rw [ctl] at h1
      simpa using fun h2 => hm ⟨h1, h2⟩
  have some_ : ∃ n < 5, ∃ p, bit (e.w.half p).fpctl n = true ∧ (raised e k.toNat (Dst.uni d) (fun p l => (f p l).2) p).getLsbD n = true := by
    simp only [Env.calm] at h0
    by_cases hex : ∃ n < 5, ∃ p, bit (e.w.half p).fpctl n = true ∧ (raised e k.toNat (Dst.uni d) (fun p l => (f p l).2) p).getLsbD n = true
    · exact hex
    · exact absurd (fun p n hn hb => by
        by_cases hr : (raised e k.toNat (Dst.uni d) (fun p l => (f p l).2) p).getLsbD n = true
        · exact absurd ⟨n, hn, p, hb, hr⟩ hex
        · simpa using hr) h0
  have body : ∀ n, (if z.marked (e.each k.toNat (Dst.uni d) f) false n = 0 && z.marked (e.each k.toNat (Dst.uni d) f) true n = 0 then none
      else some (n, z.marked (e.each k.toNat (Dst.uni d) f) false n, z.marked (e.each k.toNat (Dst.uni d) f) true n)) = none ↔
      ∀ p, ¬ (bit (e.w.half p).fpctl n = true ∧ (raised e k.toNat (Dst.uni d) (fun p l => (f p l).2) p).getLsbD n = true) := by
    intro n
    rw [ite_eq_left_iff]
    simp only [Bool.and_eq_true, decide_eq_true_eq, mk, reduceCtorEq, imp_false, Bool.forall_bool, Decidable.not_not]
  cases hi : z.ieee (e.each k.toNat (Dst.uni d) f) with
  | none =>
    simp only [Wave.ieee, List.findSome?_eq_none_iff, List.mem_range] at hi
    obtain ⟨n, hn, p, hp⟩ := some_
    exact absurd hp ((body n).1 (hi n hn) p)
  | some r =>
    have hi' := hi
    simp only [Wave.ieee] at hi'
    rw [List.findSome?_eq_some_iff] at hi'
    obtain ⟨l1, n, l2, hl, hn, hbefore⟩ := hi'
    have n5 : n < 5 := by
      have : n ∈ List.range 5 := by rw [hl]; simp
      simpa using this
    have hlt : ∀ j < n, j ∈ l1 := by
      intro j hj
      have hlen : l1.length = n := by
        have := congrArg (fun l : List Nat => l[l1.length]?) hl
        simp only [List.getElem?_append_right (Nat.le_refl _), Nat.sub_self, List.getElem?_cons_zero] at this
        rw [List.getElem?_range] at this
        · simpa using this
        · have := congrArg List.length hl; simp at this; omega
      have := congrArg (fun l : List Nat => l[j]?) hl
      simp only [List.getElem?_append_left (show j < l1.length by omega)] at this
      rw [List.getElem?_range (by omega)] at this
      exact List.mem_of_getElem? this.symm
    split at hn
    · exact absurd hn (by simp)
    · rename_i hne
      have hr := Option.some.inj hn
      subst hr
      have hn' : ¬ ∀ p, ¬ (bit (e.w.half p).fpctl n = true ∧ (raised e k.toNat (Dst.uni d) (fun p l => (f p l).2) p).getLsbD n = true) := by
        rw [← body n, if_neg hne]; simp
      refine ⟨n, { z with pc := z.pc + w64 8 }.retired,
        { code := 0x10 + n, rpc := e.w.pc + w64 8, addr := e.w.pc, addr1 := e.w.pc, lanes0 := z.marked (e.each k.toNat (Dst.uni d) f) false n,
          lanes1 := z.marked (e.each k.toNat (Dst.uni d) f) true n }, ?_, n5, ?_, ?_, rfl, rfl, rfl, rfl, rfl, ?_, ?_⟩
      · simp only [Env.flanes, hu, Env.flagged, hz, hi]
        simp only [Env.after, Env.finish, (State.env?_m h).2.1]
      · by_cases hex : ∃ p, bit (e.w.half p).fpctl n = true ∧ (raised e k.toNat (Dst.uni d) (fun p l => (f p l).2) p).getLsbD n = true
        · exact hex
        · exact absurd (fun p hp => hex ⟨p, hp⟩) hn'
      · intro j hj p hb
        have := (body j).1 (hbefore j (hlt j hj)) p
        simpa [hb] using this
      · intro p l _
        have := Wave.bit_marked e z k.toNat (Dst.uni d) f p n l
        rw [ctl] at this
        rw [← this]; cases p <;> rfl
      · have hv : ∀ p r l, z.getV p r l = u.getV p r l := fun p r l => by simp only [Wave.getV, b', Wave.hw, d']
        have rv : ∀ p r l, ({ z with pc := z.pc + w64 8 } : Wave).retired.getV p r l = z.getV p r l := fun _ _ _ => rfl
        have rs : ∀ p r, ({ z with pc := z.pc + w64 8 } : Wave).retired.getS p r = z.getS p r := fun _ _ => rfl
        have rh : ∀ p, ({ z with pc := z.pc + w64 8 } : Wave).retired.half p = z.half p := fun _ => rfl
        have rk : ∀ p n, ({ z with pc := z.pc + w64 8 } : Wave).retired.getK p n = z.getK p n := fun _ _ => rfl
        refine ⟨⟨?_, ?_⟩, ?_, fun p n => by rw [rk, i' p n, g p n], fun p => by rw [rh, j' p, i p], fun p => by rw [rh, m' p, j p]; rfl⟩
        · show z.pc + w64 8 = _
          rw [c', c]
        · have := Env.gone_bare e z 8
          simp only [Env.gone] at this
          rw [← b, ← a', ← this]; rfl
        · cases d with
          | vec r => exact ⟨fun p hp l hl j => by rw [rv, hv]; exact a.1 p hp l hl j, fun p j => by rw [rs, g']; exact a.2 p j⟩
          | sca r => exact ⟨fun p j => by rw [rs, g']; exact a.1 p j, fun p r l => by rw [rv, hv]; exact a.2 p r l⟩


/-- One mask bit per lane, with flags: an instruction that raises no enabled exception is complete. -/
theorem Env.fbits_done {e : Env} {s : State} (h : s.env? = some e) (k d : Nat) (f : Bool → Nat → Nat × Flags)
    (h0 : e.calm k false (fun p l => (f p l).2)) :
    ∃ v, e.finish s (e.flagged (e.w.putBits d (e.each k false f)) (e.each k false f)) = s.after e s.m v
      ∧ FloatMaskResult e k d (fun p l => ((f p l).1 != 0, (f p l).2)) v := by
  obtain ⟨a, b, c, w, g, i, j, l⟩ := putBits_writes e k d f
  have ctl : ∀ p, ((e.w.putBits d (e.each k false f)).half p).fpctl = (e.w.half p).fpctl := by
    have : ∀ (ls : List LaneRes) (w : Wave), ∀ p, ((w.putBits d ls).half p).fpctl = (w.half p).fpctl := by
      intro ls
      induction ls with
      | nil => intro w p; rfl
      | cons x ls ih =>
        intro w p
        have := ih (w.setK x.half d (setBit (w.getK x.half d) x.lane (x.val != 0))) p
        simp only [Wave.putBits, List.foldl_cons] at this ⊢
        rw [this, Wave.half_setK]
    exact this _ _
  obtain ⟨v, hv, v1, v2, v3, v4, v5, v6, v7, v8⟩ := Env.flagged_done h (e.w.putBits d (e.each k false f)) k false f 8
    (fun p n hn hb => h0 p n hn (by rw [← ctl p]; exact hb))
  refine ⟨v, hv, ?_⟩
  generalize e.w.putBits d (e.each k false f) = u at a b c w g i j l v1 v2 v3 v4 v5 v6 v7 v8
  have gv : ∀ p r l, v.getV p r l = u.getV p r l := fun p r l => by simp only [Wave.getV, v3, Wave.hw, v4]
  exact ⟨⟨by rw [v1, c], by rw [v2, b]⟩, fun p n l => by rw [v6]; exact a p n l, fun p r l => by rw [gv]; exact g p r l,
    fun p r => by rw [v5]; exact i p r, fun p => by rw [v7]; exact j p, fun p => by rw [v8, l p]⟩

/-! ## Masks and scalars written once for each half (R119 to R121) -/

theorem Wave.mem_passes (w : Wave) (p : Bool) : p ∈ w.passes ↔ w.runs p := by
  unfold Wave.passes Wave.runs Wave.groups
  cases w.width <;> simp [List.mem_filter, Wave.execs]

theorem Wave.passes_nodup (w : Wave) : w.passes.Nodup := by
  unfold Wave.passes
  cases w.width <;> simp
  exact List.Pairwise.filter _ (by decide)

@[simp] theorem Wave.W_setExec (w : Wave) (p : Bool) (x : W64) : (w.setExec p x).W = w.W := by simp [Wave.setExec, Wave.W]
theorem Wave.half_setExec (w : Wave) (p q : Bool) (x : W64) :
    (w.setExec p x).half q = { w.half q with exec := if q = p then x &&& ones w.W &&& ~~~(w.half q).ended else (w.half q).exec } := by
  unfold Wave.setExec
  rw [Wave.half_updHalf]
  split <;> simp_all
@[simp] theorem Wave.bare_setExec (w : Wave) (p : Bool) (x : W64) : (w.setExec p x).bare = w.bare := by cases p <;> rfl

theorem foldSetK (n : Nat) (f : Bool → W64) : ∀ (ps : List Bool) (w : Wave), ps.Nodup → ∀ p j,
    (ps.foldl (fun w p => w.setK p n (f p)) w).getK p j = if p ∈ ps ∧ j = n ∧ n ≠ 0 then f p &&& ones w.W else w.getK p j
  | [], w, _, p, j => by simp
  | q :: ps, w, h, p, j => by
    rw [List.foldl_cons, foldSetK n f ps _ (List.nodup_cons.1 h).2, Wave.getK_setK, Wave.W_setK]
    by_cases c : p = q
    · subst c
      simp [(List.nodup_cons.1 h).1]
    · simp [c]

theorem foldSetK_keeps (n : Nat) (f : Bool → W64) : ∀ (ps : List Bool) (w : Wave),
    let v := ps.foldl (fun w p => w.setK p n (f p)) w
    v.bare = w.bare ∧ v.v = w.v ∧ v.pc = w.pc ∧ v.width = w.width ∧ (∀ p r, v.getS p r = w.getS p r)
      ∧ ∀ p, (v.half p).exec = (w.half p).exec ∧ (v.half p).fpflag = (w.half p).fpflag
  | [], w => by simp
  | q :: ps, w => by
    have h := foldSetK_keeps n f ps (w.setK q n (f q))
    simp only [List.foldl_cons] at h ⊢
    obtain ⟨a, b, c, d, g, i⟩ := h
    exact ⟨by simpa using a, by simpa using b, by simpa using c, by simpa using d, fun p r => by simpa using g p r, fun p => by simpa using i p⟩

theorem foldSetExec (f : Bool → W64) : ∀ (ps : List Bool) (w : Wave), ps.Nodup → ∀ p,
    ((ps.foldl (fun w p => w.setExec p (f p)) w).half p) =
      { w.half p with exec := if p ∈ ps then f p &&& ones w.W &&& ~~~(w.half p).ended else (w.half p).exec }
  | [], w, _, p => by simp
  | q :: ps, w, h, p => by
    rw [List.foldl_cons, foldSetExec f ps _ (List.nodup_cons.1 h).2, Wave.half_setExec, Wave.W_setExec]
    by_cases c : p = q
    · subst c
      simp [(List.nodup_cons.1 h).1]
    · simp [c]

theorem foldSetExec_keeps (f : Bool → W64) : ∀ (ps : List Bool) (w : Wave),
    let v := ps.foldl (fun w p => w.setExec p (f p)) w
    v.bare = w.bare ∧ v.v = w.v ∧ v.pc = w.pc ∧ v.width = w.width
  | [], w => by simp
  | q :: ps, w => by
    have h := foldSetExec_keeps f ps (w.setExec q (f q))
    simp only [List.foldl_cons] at h ⊢
    obtain ⟨a, b, c, d⟩ := h
    exact ⟨by simpa using a, by simpa [Wave.setExec] using b, by simpa [Wave.setExec] using c, by simpa [Wave.setExec] using d⟩

/-- An instruction that writes a mask once for each half that runs. -/
theorem Env.maskWrite_done {e : Env} {s : State} (h : s.env? = some e) (d : MX) (f : Bool → W64) :
    ∃ v, e.finish s (e.maskWrite d f) = s.after e s.m v ∧ MaskWritten e d (fun p l => bit (f p) l) v := by
  refine ⟨_, Env.finish_ok h _ _, ?_⟩
  have bw : ∀ l, bit (ones e.w.W) l = decide (l < e.w.W) := fun l => bit_ones _ _ e.w.W_le
  cases d with
  | k n =>
    have hs : ∀ (w : Wave), e.w.passes.foldl (fun w p => w.setMX p (.k n) (f p)) w = e.w.passes.foldl (fun w p => w.setK p n.toNat (f p)) w := fun _ => rfl
    rw [hs]
    obtain ⟨a, b, c, w, g, i⟩ := foldSetK_keeps n.toNat f e.w.passes e.w
    have k := foldSetK n.toNat f e.w.passes e.w e.w.passes_nodup
    have hn : n.toNat ≠ 0 ↔ n ≠ 0 := by rw [ne_eq, ne_eq, ← BitVec.toNat_inj]; simp
    generalize e.w.passes.foldl (fun w p => w.setK p n.toNat (f p)) e.w = u at a b c w g i k
    refine ⟨⟨by simp [c], by simp [a]⟩, fun p r l => by simp [Wave.getV, b, Wave.hw, w], fun p r => by simp [g],
      fun p => by simp [(i p).2], fun p => by simp [(i p).1], fun p j l => ?_⟩
    rw [Env.gone_getK, k p j]
    simp only [Wave.mem_passes, hn]
    split
    · rw [bit_and, bw, Bool.and_comm]
    · rfl
  | exec =>
    have hs : ∀ (w : Wave), e.w.passes.foldl (fun w p => w.setMX p .exec (f p)) w = e.w.passes.foldl (fun w p => w.setExec p (f p)) w := fun _ => rfl
    rw [hs]
    obtain ⟨a, b, c, w⟩ := foldSetExec_keeps f e.w.passes e.w
    have k := foldSetExec f e.w.passes e.w e.w.passes_nodup
    generalize e.w.passes.foldl (fun w p => w.setExec p (f p)) e.w = u at a b c w k
    refine ⟨⟨by simp [c], by simp [a]⟩, fun p r l => by simp [Wave.getV, b, Wave.hw, w], fun p r => by simp [Wave.getS, k, Half.getS],
      fun p => by simp [k], fun p n => by simp [Wave.getK, k, Wave.W, w], fun p l => ?_⟩
    rw [Env.gone_half, k p]
    simp only [Wave.mem_passes]
    split
    · rename_i hr
      have lt : decide (l < e.w.W) = true → l < 64 := fun c => Nat.lt_of_lt_of_le (by simpa using c) e.w.W_le
      rw [bit_and, bit_and, bw, Bool.and_comm (bit (f p) l)]
      by_cases c : l < e.w.W
      · have := lt (by simpa using c)
        simp [bit, this]
      · simp [c]
    · rfl

theorem foldSetS (n : Nat) (f : Bool → W64) : ∀ (ps : List Bool) (w : Wave), ps.Nodup → ∀ p j,
    (ps.foldl (fun w p => w.setS p n (f p)) w).getS p j = if p ∈ ps ∧ j = n then f p else w.getS p j
  | [], w, _, p, j => by simp
  | q :: ps, w, h, p, j => by
    rw [List.foldl_cons, foldSetS n f ps _ (List.nodup_cons.1 h).2, Wave.getS_setS]
    by_cases c : p = q
    · subst c
      simp [(List.nodup_cons.1 h).1]
    · simp [c]

theorem foldSetS_keeps (n : Nat) (f : Bool → W64) : ∀ (ps : List Bool) (w : Wave),
    let v := ps.foldl (fun w p => w.setS p n (f p)) w
    v.bare = w.bare ∧ v.v = w.v ∧ v.pc = w.pc ∧ v.width = w.width ∧ (∀ p n, v.getK p n = w.getK p n)
      ∧ ∀ p, (v.half p).exec = (w.half p).exec ∧ (v.half p).fpflag = (w.half p).fpflag
  | [], w => by simp
  | q :: ps, w => by
    have h := foldSetS_keeps n f ps (w.setS q n (f q))
    simp only [List.foldl_cons] at h ⊢
    obtain ⟨a, b, c, d, g, i⟩ := h
    exact ⟨by simpa using a, by simpa using b, by simpa using c, by simpa using d, fun p r => by simpa using g p r, fun p => by simpa using i p⟩

/-- An instruction that writes a scalar once for each half that runs. -/
theorem Env.maskScalar_done {e : Env} {s : State} (h : s.env? = some e) (d : BitVec 7) (f : Bool → W64) :
    ∃ v, e.finish s (e.maskScalar d f) = s.after e s.m v ∧ ScalarWritten e d f v := by
  refine ⟨_, Env.finish_ok h _ _, ?_⟩
  obtain ⟨a, b, c, w, g, i⟩ := foldSetS_keeps d.toNat f e.w.passes e.w
  have k := foldSetS d.toNat f e.w.passes e.w e.w.passes_nodup
  generalize e.w.passes.foldl (fun w p => w.setS p d.toNat (f p)) e.w = u at a b c w g i k
  refine ⟨⟨by simp [c], by simp [a]⟩, fun p r l => by simp [Wave.getV, b, Wave.hw, w], fun p n => by simp [g],
    fun p => by simp [(i p).1], fun p => by simp [(i p).2], fun p j => ?_⟩
  rw [Env.gone_getS, k p j]
  simp only [Wave.mem_passes]

/-! ## For the statements -/

/-- An instruction whose meaning is `f` completes if its end is a next wave. -/
theorem Completes.of {s e i P} (h : s.env? = some e) {f : Env → WOut} (hi : exec i s = withCur f s)
    (hf : ∃ v, e.finish s (f e) = s.after e s.m v ∧ P v) : Completes s e i P := by
  obtain ⟨v, a, b⟩ := hf
  exact ⟨v, by rw [hi, withCur_eq h, a], b⟩

/-- A statement may write the result in other words. -/
theorem LaneResult.congr {e k t d n f g v} (h : LaneResult e k t d n f v) (hfg : f = g) : LaneResult e k t d n g v := hfg ▸ h

/-- The sums or differences with carry (R104). -/
theorem Env.carried_done {e : Env} {s : State} (h : s.env? = some e) (kc : Nat) (o : Op2) (x : Bool → Nat → Int) (out : Int → Bool) :
    ∃ v, e.finish s (e.carried kc o x out) = s.after e s.m v ∧ GoesOn e 8 v
      ∧ WritesDst e v o.k.toNat o.ty o.d (fun p l => Ty.wrap o.ty (x p l)) ∧ KeepsExec e v ∧ KeepsFlags e v
      ∧ ∀ p j l, bit (v.getK p j) l =
          if j = kc ∧ kc ≠ 0 ∧ (p, l) ∈ e.w.work o.k.toNat (Dst.uni o.d) then out (x p l) else bit (e.w.getK p j) l := by
  obtain ⟨a, b, c, w, g, i, j⟩ := putAll_writes e o.ty o.d o.k.toNat (fun p l => (Ty.wrap o.ty (x p l), 0))
  let u := e.w.putAll o.ty o.d (e.each o.k.toNat (Dst.uni o.d) (fun p l => (Ty.wrap o.ty (x p l), 0)))
  have hu : e.w.putAll o.ty o.d (e.each o.k.toNat (Dst.uni o.d) (fun p l => (Ty.wrap o.ty (x p l), 0))) = u := rfl
  simp only [hu] at a b c w g i j
  let f := fun (p : Bool) (l : Nat) => out (x p l)
  have hv : u.putBits kc (e.each o.k.toNat (Dst.uni o.d) (fun p l => (if out (x p l) then 1 else 0, 0))) = (e.w.work o.k.toNat (Dst.uni o.d)).foldl
      (fun (w : Wave) x => w.setK x.1 kc (setBit (w.getK x.1 kc) x.2 (f x.1 x.2))) u := by
    simp only [Wave.putBits, Env.each_map, List.foldl_map]
    congr 1; funext w y; congr 2; simp only [f]; split <;> simp_all
  obtain ⟨a', b', c', g', i', j'⟩ := foldPutBits_keeps kc f (e.w.work o.k.toNat (Dst.uni o.d)) u
  have k' := foldPutBits kc f (e.w.work o.k.toNat (Dst.uni o.d)) u (fun y hy => by
    have := (e.w.work_ok _ _ y hy).2; simpa [Wave.W, w] using this)
  rw [← hv] at a' b' c' g' i' j' k'
  have all : ∀ z : Wave, z.bare = u.bare → z.v = u.v → z.pc = u.pc → z.width = u.width → (∀ p r, z.getS p r = u.getS p r) →
      (∀ p, (z.half p).exec = (u.half p).exec ∧ (z.half p).fpflag = (u.half p).fpflag) →
      GoesOn e 8 (e.gone z 8) ∧ WritesDst e (e.gone z 8) o.k.toNat o.ty o.d (fun p l => Ty.wrap o.ty (x p l)) ∧ KeepsExec e (e.gone z 8) ∧ KeepsFlags e (e.gone z 8) := by
    intro z z1 z2 z3 z4 z5 z6
    refine ⟨⟨by simp [z3, c], by simp [z1, b]⟩, ?_, fun p => by simp [(z6 p).1, i p], fun p => by simp [(z6 p).2, j p]⟩
    have gv : ∀ p r l, z.getV p r l = u.getV p r l := fun p r l => by simp only [Wave.getV, z2, Wave.hw, z4]
    cases hd : o.d with
    | vec r => rw [hd] at a; exact ⟨fun p hp l hl j => by simpa [gv] using a.1 p hp l hl j, fun p j => by simpa [z5] using a.2 p j⟩
    | sca r => rw [hd] at a; exact ⟨fun p j => by simpa [z5] using a.1 p j, fun p r l => by simpa [gv] using a.2 p r l⟩
  by_cases hk : kc = 0
  · obtain ⟨x1, x2, x3, x4⟩ := all u rfl rfl rfl rfl (fun _ _ => rfl) (fun _ => ⟨rfl, rfl⟩)
    refine ⟨e.gone u 8, ?_, x1, x2, x3, x4, ?_⟩
    · simp only [Env.carried, hk, if_true, hu]; exact Env.finish_ok h _ _
    · intro p j l; simp [hk, g p j]
  · obtain ⟨x1, x2, x3, x4⟩ := all _ a' b' c' g' i' j'
    refine ⟨e.gone _ 8, ?_, x1, x2, x3, x4, ?_⟩
    · simp only [Env.carried, hk, if_false, hu]; exact Env.finish_ok h _ _
    · intro p j l
      rw [Env.gone_getK, k' p j l, g p j]

/-- A floating result whose lanes raise nothing leaves the flags as they are. -/
theorem LaneResult.ofFloat {e : Env} {k : BitVec 4} {t : Ty} {d : Dst} {f : Bool → Nat → Nat × Flags} {v : Wave} (h : FloatResult e k t d f v) (h0 : ∀ p l, (f p l).2 = 0) : LaneResult e k t d 8 (fun p l => (f p l).1) v := by
  obtain ⟨a, b, c, x, g⟩ := h
  refine ⟨a, b, c, x, fun p => ?_⟩
  rw [g p]
  have : raised e k.toNat (Dst.uni d) (fun p l => (f p l).2) p = 0 := by
    apply BitVec.eq_of_getLsbD_eq
    intro n hn
    rw [raised_bit]; simp [h0, List.any_eq_false]
  rw [this]; simp

/-- An instruction that raises no flag does not trap. -/
theorem Env.calm_zero {e : Env} {k : Nat} {u : Bool} {f : Bool → Nat → Flags} (h0 : ∀ p l, f p l = 0) : e.calm k u f := by
  intro p n _ _
  rw [raised_bit]; simp [h0, List.any_eq_false]

end Sys2Proof.Machine
end

