-- ==== Sys2Proof/Laws/Memory.lean ====
section
/-!
SUPPORT. Every operation that writes memory keeps its canonical form: writes at home, a page that moves, a line that goes
home from a core, spans that are zeroed, and an operation that is undone.
-/

namespace Sys2Proof.Machine

theorem Memory.wf_reset : Memory.wf State.reset.m.mem = true := rfl

theorem Memory.wf_set (l : List Host.Cell) (a : Nat) (x : Byte) (h : Memory.wf l = true) : Memory.wf (mset memDefault l a x) = true :=
  mwf_mset _ _ _ _ h

theorem Memory.wf_filter (l : List Host.Cell) (f : Host.Cell → Bool) (h : Memory.wf l = true) : Memory.wf (l.filter f) = true :=
  mwf_filter _ _ _ h

theorem Memory.wf_fold {β : Type} (f : List Host.Cell → β → List Host.Cell) (hf : ∀ l x, Memory.wf l = true → Memory.wf (f l x) = true) :
    ∀ (xs : List β) (l : List Host.Cell), Memory.wf l = true → Memory.wf (xs.foldl f l) = true
  | [], _, h => h
  | x :: r, l, h => Memory.wf_fold f hf r (f l x) (hf l x h)

theorem Mach.wr_wf (m : Mach) (pa : Nat) (l : List Byte) (h : Memory.wf m.mem = true) : Memory.wf (m.wr pa l).mem = true :=
  mwf_msetN _ _ _ _ h

theorem Mach.wrN_wf (m : Mach) (pa n x : Nat) (h : Memory.wf m.mem = true) : Memory.wf (m.wrN pa n x).mem = true :=
  m.wr_wf pa _ h

theorem Mach.wrAny_wf (m : Mach) (pa : Nat) (l : List Byte) (h : Memory.wf m.mem = true) : Memory.wf (m.wrAny pa l).mem = true := by
  unfold Mach.wrAny
  split
  · exact m.wr_wf pa l h
  · exact h

theorem Mach.moveBytes_wf (m : Mach) (old new n : Nat) (h : Memory.wf m.mem = true) : Memory.wf (m.moveBytes old new n).mem = true :=
  Memory.wf_fold _ (fun l _ hl => Memory.wf_set l _ _ hl) _ _ (Memory.wf_filter _ _ h)

theorem Mach.recode_mem (m : Mach) (line c ef tab : Nat) : (m.recode line c ef tab).mem = m.mem := by
  unfold Mach.recode
  dsimp only
  split <;> rfl

theorem Mach.l2WriteBack_mem (m : Mach) (x : L2Line) : (m.l2WriteBack x).mem = m.mem := by
  unfold Mach.l2WriteBack
  repeat' split
  all_goals first | rfl | exact m.recode_mem _ _ _ _

theorem Mach.l2Room_mem (m : Mach) (line : Nat) (ways : List Nat) : (m.l2Room line ways).2.mem = m.mem := by
  unfold Mach.l2Room
  dsimp only
  repeat' split
  all_goals first | rfl | exact m.l2WriteBack_mem _

theorem Mach.l2Touch_mem (m : Mach) (o line : Nat) (d : Bool) (c : Option (Nat × Nat × Nat)) : (m.l2Touch o line d c).mem = m.mem := by
  unfold Mach.l2Touch
  split
  · rfl
  · dsimp only
    repeat' split
    all_goals first | rfl | exact m.l2Room_mem _ _

theorem Mach.l1Flush_wf (m : Mach) (x : L1Line) (h : Memory.wf m.mem = true) : Memory.wf (m.l1Flush x).mem = true := by
  unfold Mach.l1Flush
  split
  · exact h
  · simp only [Mach.l2Touch_mem]
    refine Memory.wf_fold _ (fun l o hl => ?_) _ _ h
    split
    · exact Memory.wf_set l _ _ hl
    · exact hl

theorem Mach.l1FlushAll_wf (m : Mach) (p : L1Line → Bool) (h : Memory.wf m.mem = true) : Memory.wf (m.l1FlushAll p).mem = true := by
  unfold Mach.l1FlushAll
  induction m.l1.filter p generalizing m with
  | nil => exact h
  | cons x r ih => exact ih (m.l1Flush x) (m.l1Flush_wf x h)

theorem Mach.l1Drop_wf (m : Mach) (p : L1Line → Bool) (h : Memory.wf m.mem = true) : Memory.wf (m.l1Drop p).mem = true :=
  m.l1FlushAll_wf p h

theorem Mach.zeroSpans_wf (m : Mach) (k : BitVec 8) (h : Memory.wf m.mem = true) : Memory.wf (m.zeroSpans k).mem = true :=
  Memory.wf_filter _ _ h

theorem Mach.undo_wf (m old : Mach) (h : Memory.wf old.mem = true) : Memory.wf (m.undo old).mem = true := h

end Sys2Proof.Machine
end

