-- ==== Sys2Proof/Laws/Paths.lean ====
section
/-!
SUPPORT. The ends an instruction can come to, as the statements speak of them, and the reconvergence stack
(spec/09_progress.md R246 to R253).
-/

namespace Sys2Proof.Machine

theorem indexFrom_some (p : Entry → Bool) (lo : Nat) : ∀ (l : List Entry) (i n : Nat), indexFrom p l lo i = some n →
    ∃ j x, n = i + j ∧ l[j]? = some x ∧ lo ≤ n ∧ p x = true ∧ ∀ k y, k < j → l[k]? = some y → ¬ (lo ≤ i + k ∧ p y = true)
  | [], i, n, h => by simp [indexFrom] at h
  | x :: l, i, n, h => by
    simp only [indexFrom] at h
    split at h
    · rename_i c
      simp only [Bool.and_eq_true, decide_eq_true_eq] at c
      simp only [Option.some.injEq] at h
      exact ⟨0, x, by omega, rfl, by omega, c.2, fun k y hk => by omega⟩
    · rename_i c
      obtain ⟨j, y, hn, hy, hlo, hp, hf⟩ := indexFrom_some p lo l (i + 1) n h
      refine ⟨j + 1, y, by omega, by simpa using hy, hlo, hp, ?_⟩
      intro k z hk hz
      cases k with
      | zero =>
        simp at hz; subst hz
        simpa using c
      | succ k => have := hf k z (by omega) (by simpa using hz); rw [show i + (k + 1) = i + 1 + k by omega]; exact this

theorem indexFrom_none (p : Entry → Bool) (lo : Nat) : ∀ (l : List Entry) (i : Nat), indexFrom p l lo i = none →
    ∀ k y, l[k]? = some y → ¬ (lo ≤ i + k ∧ p y = true)
  | [], i, h => by simp
  | x :: l, i, h => by
    simp only [indexFrom] at h
    split at h
    · simp at h
    · rename_i c
      have hf := indexFrom_none p lo l (i + 1) h
      intro k z hz
      cases k with
      | zero =>
        simp at hz; subst hz
        simpa using c
      | succ k => have := hf k z (by simpa using hz); rw [show i + (k + 1) = i + 1 + k by omega]; exact this

/-- The first entry from an index on that satisfies p. -/
theorem indexFrom_eq (p : Entry → Bool) (l : List Entry) (lo j : Nat) (x : Entry) (hx : l[j]? = some x) (hlo : lo ≤ j) (hp : p x = true)
    (hf : ∀ k y, k < j → l[k]? = some y → ¬ (lo ≤ k ∧ p y = true)) : indexFrom p l lo 0 = some j := by
  cases h : indexFrom p l lo 0 with
  | none => exact absurd ⟨by omega, hp⟩ (indexFrom_none p lo l 0 h j x hx)
  | some n =>
    obtain ⟨i, y, hn, hy, hl, hq, hg⟩ := indexFrom_some p lo l 0 n h
    have : i = j := by
      rcases Nat.lt_trichotomy i j with c | c | c
      · exact absurd ⟨by omega, hq⟩ (hf i y c hy)
      · exact c
      · exact absurd ⟨by omega, hp⟩ (hg j x c hx)
    congr 1; omega

theorem indexFrom_eq_none (p : Entry → Bool) (l : List Entry) (lo : Nat) (hf : ∀ k y, l[k]? = some y → ¬ (lo ≤ k ∧ p y = true)) : indexFrom p l lo 0 = none := by
  cases h : indexFrom p l lo 0 with
  | none => rfl
  | some n =>
    obtain ⟨i, y, hn, hy, hl, hq, -⟩ := indexFrom_some p lo l 0 n h
    exact absurd ⟨by omega, hq⟩ (hf i y hy)

/-- A J-form target (R48). -/
theorem w64_target (pc : W64) (off : BitVec 40) : pc + w64 (wrapI (8 * sext off.toNat 40) 64) = pc + off.signExtend 64 * 8 := by
  congr 1
  have h8 : sext off.toNat 40 = off.toInt := by
    unfold sext
    have := off.isLt
    rw [BitVec.toInt_eq_toNat_cond]
    simp only [Nat.mod_eq_of_lt this]
    split <;> split <;> simp at * <;> omega
  rw [h8, w64, wrapI]
  apply BitVec.eq_of_toInt_eq
  rw [BitVec.toInt_mul, BitVec.toInt_signExtend_of_le (by decide)]
  rw [← BitVec.ofInt_natCast, BitVec.toInt_ofInt, Int.toNat_of_nonneg (Int.emod_nonneg _ (by norm_num))]
  have : ((2 ^ 64 : Nat) : Int) = ((18446744073709551616 : Nat) : Int) := rfl
  rw [this, Int.emod_bmod, mul_comm]; rfl

theorem Wave.settled_retired (w : Wave) (q : Bool) : ({ w.retired with quiet := q } : Wave).settled = w.settled := by
  simp only [Wave.settled, Wave.retired, List.map_map]
  congr 1
  apply List.map_congr_left
  intro a _
  simp only [Function.comp]
  split <;> rfl

/-- The meaning ends in the next wave `v`. -/
theorem CompletesAs.of {s : State} {e : Env} (h : s.env? = some e) {i : Instr} {f : Env → WOut} (hi : exec i s = withCur f s) {w v : Wave}
    (hf : f e = .next e.m v) (hv : v.settled = w.settled) : CompletesAs s e i w := by
  refine ⟨{ v.retired with quiet := v.quiet && !e.w.quiet }, (hi.trans (withCur_eq h)).trans (congrArg _ ?_), ?_⟩
  · rw [hf, Env.finish_next]; simp only [State.after, (State.env?_m h).2.1]
  · exact (Wave.settled_retired v _).trans hv

/-- The meaning ends in the machine `m` and the next wave `v`. -/
theorem CompletesWith.of {s : State} {e : Env} (h : s.env? = some e) {i : Instr} {f : Env → WOut} (hi : exec i s = withCur f s) {m : Mach} {w v : Wave}
    (hf : f e = .next m v) (hv : v.settled = w.settled) : CompletesWith s e i m w := by
  refine ⟨m, { v.retired with quiet := v.quiet && !e.w.quiet }, (hi.trans (withCur_eq h)).trans (congrArg _ ?_), rfl, ?_⟩
  · rw [hf, Env.finish_next]; simp only [State.after]
  · exact (Wave.settled_retired v _).trans hv

/-- The meaning waits, having left `m` and `w`. -/
theorem HoldsWith.of {s : State} {e : Env} (h : s.env? = some e) {i : Instr} {f : Env → WOut} (hi : exec i s = withCur f s) {m : Mach} {w : Wave} {why : Why}
    (hf : f e = .hold m w why) : HoldsWith s e i m w why := by
  refine (hi.trans (withCur_eq h)).trans (congrArg _ ?_)
  rw [hf]; simp only [Env.finish]

/-- The meaning raises a cause before it. -/
theorem FaultsBefore.of {s : State} {e : Env} (h : s.env? = some e) {i : Instr} {f : Env → WOut} (hi : exec i s = withCur f s) {c : Nat} {lanes : Bool → W64}
    (hf : f e = e.before c (lanes false) (lanes true)) : FaultsBefore s e i c lanes := by
  refine (hi.trans (withCur_eq h)).trans (congrArg _ ?_)
  rw [hf]; simp only [Env.finish, Env.before, (State.env?_m h).2.1]

/-- The meaning resets its context. -/
theorem Resets.of {s : State} {e : Env} (h : s.env? = some e) {i : Instr} {f : Env → WOut} (hi : exec i s = withCur f s) {c : Nat} {a : W64}
    (hf : f e = .fatal e.m e.w c a) : Resets s e i c a := by
  refine (hi.trans (withCur_eq h)).trans (congrArg _ ?_)
  rw [hf]; simp only [Env.finish, (State.env?_m h).2.1]

/-- The meaning waits. -/
theorem Waits.of {s : State} {e : Env} (h : s.env? = some e) {i : Instr} {f : Env → WOut} (hi : exec i s = withCur f s) {why : Why}
    (hf : f e = e.halt why) : Waits s e i why := by
  refine (hi.trans (withCur_eq h)).trans (congrArg _ ?_)
  rw [hf]; simp only [Env.finish, Env.halt, (State.env?_m h).2.1]

/-- The oldest eligible entry. -/
theorem Wave.oldest_spec (w : Wave) (b : Block) :
    (w.oldest b = none → ∀ x ∈ frameOf w.stack, b.eligible w x = false)
    ∧ ∀ n x, w.oldest b = some (n, x) → (frameOf w.stack)[n]? = some x ∧ b.eligible w x = true
      ∧ ∀ j y, (frameOf w.stack)[j]? = some y → b.eligible w y = true → y.age.toNat < x.age.toNat ∨ y.age = x.age ∧ j ≤ n := by
  let f := fun (best : Option (Nat × Entry)) (p : Nat × Entry) =>
      if !b.eligible w p.2 then best else
      match best with
      | some q => if q.2.age.toNat ≤ p.2.age.toNat then some p else best
      | none => some p
  have main : ∀ (l : List Entry) (i : Nat) (best : Option (Nat × Entry)),
      let r := ((List.range' i l.length).zip l).foldl f best
      (r = none → best = none ∧ ∀ x ∈ l, b.eligible w x = false)
      ∧ ∀ n x, r = some (n, x) → ((best = some (n, x) ∨ ∃ j, n = i + j ∧ l[j]? = some x ∧ b.eligible w x = true)
        ∧ (∀ q, best = some q → q.2.age.toNat < x.age.toNat ∨ q.2.age.toNat ≤ x.age.toNat ∧ (q = (n, x) ∨ i ≤ n))
        ∧ ∀ j y, l[j]? = some y → b.eligible w y = true → y.age.toNat < x.age.toNat ∨ y.age = x.age ∧ i + j ≤ n) := by
    intro l
    induction l with
    | nil => exact fun i best => ⟨fun h => ⟨h, by simp⟩, fun n x h => ⟨.inl h, fun q hq => by
        have : best = some (n, x) := h
        rw [hq] at this; simp only [Option.some.injEq] at this; subst this; exact .inr ⟨Nat.le_refl _, .inl rfl⟩, by simp⟩⟩
    | cons z l ih =>
      intro i best
      simp only [List.length_cons, List.range'_succ, List.zip_cons_cons, List.foldl_cons]
      obtain ⟨h1, h2⟩ := ih (i + 1) (f best (i, z))
      by_cases hz : b.eligible w z = true
      · have hfs : ∃ q, f best (i, z) = some q ∧ (q = (i, z) ∧ (∀ p, best = some p → p.2.age.toNat ≤ z.age.toNat) ∨ best = some q ∧ z.age.toNat < q.2.age.toNat) := by
          simp only [f, hz, Bool.not_true, Bool.false_eq_true, if_false]
          cases best with
          | none => exact ⟨_, rfl, .inl ⟨rfl, by simp⟩⟩
          | some q =>
            simp only
            split
            · rename_i c; exact ⟨_, rfl, .inl ⟨rfl, by simpa using c⟩⟩
            · rename_i c; exact ⟨_, rfl, .inr ⟨rfl, by omega⟩⟩
        obtain ⟨q, hq, hq2⟩ := hfs
        refine ⟨fun hr => ?_, fun n x hr => ?_⟩
        · have := (h1 hr).1; rw [hq] at this; simp at this
        · obtain ⟨a, c, d⟩ := h2 n x hr
          have c' := c q hq
          refine ⟨?_, ?_, ?_⟩
          · rcases a with a | ⟨j, hn, hj, he⟩
            · rw [hq] at a; simp only [Option.some.injEq] at a; subst a
              rcases hq2 with ⟨g, -⟩ | ⟨g, -⟩
              · simp only [Prod.mk.injEq] at g; obtain ⟨rfl, rfl⟩ := g
                exact .inr ⟨0, by omega, rfl, hz⟩
              · exact .inl g
            · exact .inr ⟨j + 1, by omega, by simpa using hj, he⟩
          · intro p hp
            rcases hq2 with ⟨rfl, g⟩ | ⟨g, -⟩
            · have := g p hp
              rcases c' with c' | ⟨c1, c2⟩
              · left; simp only at c'; omega
              · simp only at c1
                rcases c2 with c2 | c2
                · simp only [Prod.mk.injEq] at c2; right; exact ⟨by omega, .inr (by omega)⟩
                · right; exact ⟨by omega, .inr (by omega)⟩
            · rw [hp] at g; simp only [Option.some.injEq] at g; subst g
              rcases c' with c' | ⟨c1, c2⟩
              · exact .inl c'
              · right; refine ⟨c1, ?_⟩; rcases c2 with c2 | c2
                · exact .inl c2
                · exact .inr (by omega)
          · intro j y hj hy
            cases j with
            | zero =>
              simp at hj; subst hj
              rcases hq2 with ⟨rfl, -⟩ | ⟨-, g⟩
              · rcases c' with c' | ⟨c1, c2⟩
                · exact .inl c'
                · simp only at c1
                  rcases Nat.lt_or_eq_of_le c1 with c3 | c3
                  · exact .inl c3
                  · refine .inr ⟨BitVec.eq_of_toNat_eq c3, ?_⟩
                    rcases c2 with c2 | c2
                    · simp only [Prod.mk.injEq] at c2; omega
                    · omega
              · rcases c' with c' | ⟨c1, -⟩ <;> left <;> omega
            | succ j =>
              have := d j y (by simpa using hj) hy
              rcases this with g | ⟨g1, g2⟩
              · exact .inl g
              · exact .inr ⟨g1, by omega⟩
      · have hf : f best (i, z) = best := by simp [f, hz]
        rw [hf] at h1 h2 ⊢
        refine ⟨fun hr => ?_, fun n x hr => ?_⟩
        · obtain ⟨a, c⟩ := h1 hr; exact ⟨a, fun x hx => by rcases List.mem_cons.1 hx with g | g; subst g; simpa using hz; exact c x g⟩
        · obtain ⟨a, c, d⟩ := h2 n x hr
          refine ⟨?_, ?_, ?_⟩
          · rcases a with a | ⟨j, hn, hj, he⟩
            · exact .inl a
            · exact .inr ⟨j + 1, by omega, by simpa using hj, he⟩
          · intro p hp
            rcases c p hp with c' | ⟨c1, c2⟩
            · exact .inl c'
            · right; refine ⟨c1, ?_⟩; rcases c2 with c2 | c2
              · exact .inl c2
              · exact .inr (by omega)
          · intro j y hj hy
            cases j with
            | zero => simp at hj; subst hj; exact absurd hy hz
            | succ j =>
              rcases d j y (by simpa using hj) hy with g | ⟨g1, g2⟩
              · exact .inl g
              · exact .inr ⟨g1, by omega⟩
  have e : w.oldest b = ((List.range' 0 (frameOf w.stack).length).zip (frameOf w.stack)).foldl f none := by
    rw [← List.range_eq_range']; rfl
  obtain ⟨h1, h2⟩ := main (frameOf w.stack) 0 none
  rw [e]
  refine ⟨fun h => (h1 h).2, fun n x h => ?_⟩
  obtain ⟨a, -, c⟩ := h2 n x h
  rcases a with a | ⟨j, hn, hj, he⟩
  · simp at a
  · refine ⟨by rw [hn, Nat.zero_add]; exact hj, he, fun j y hj hy => ?_⟩
    have := c j y hj hy; simpa using this

/-- A meaning that ends in `goto` makes the transfer of R249 and R253. -/
theorem TransfersTo.of {s : State} {e : Env} (h : s.env? = some e) {i : Instr} {f : Env → WOut} (hi : exec i s = withCur f s) {t : W64}
    (hf : f e = e.goto e.w t) : TransfersTo s e i t := by
  simp only [TransfersTo]
  have path : (frameOf e.w.stack).any Entry.isPath = false ↔ ∀ x ∈ frameOf e.w.stack, x.kind ≠ .path := by
    simp only [List.any_eq_false, Entry.isPath, beq_iff_eq]
  by_cases c1 : e.w.pc.toNat < t.toNat ∨ ∀ x ∈ frameOf e.w.stack, x.kind ≠ .path
  · rw [if_pos c1]
    refine CompletesAs.of h hi (v := { e.w with pc := t }) ?_ rfl
    rw [hf, Env.goto]
    by_cases g : e.w.pc.toNat < t.toNat
    · rw [if_pos g]
    · have := path.2 (c1.resolve_left g)
      simp only [if_neg g, this, Bool.not_false, if_true]
  · rw [if_neg c1]
    rw [not_or] at c1
    have hp : (frameOf e.w.stack).any Entry.isPath = true := by
      by_contra g; exact c1.2 (path.1 (by simpa using g))
    have ha : (frameOf e.w.stack).any (fun x => e.b.eligible e.w x && decide (e.w.ageLimit ≤ x.age.toNat)) = true ↔
        ∃ x ∈ frameOf e.w.stack, e.b.eligible e.w x = true ∧ e.w.ageLimit ≤ x.age.toNat := by
      simp [List.any_eq_true]
    by_cases c2 : ∃ x ∈ frameOf e.w.stack, e.b.eligible e.w x = true ∧ e.w.ageLimit ≤ x.age.toNat
    · rw [if_pos c2]
      intro hl
      obtain ⟨o1, o2⟩ := Wave.oldest_spec e.w e.b
      cases ho : e.w.oldest e.b with
      | none => obtain ⟨x, hx, he, -⟩ := c2; have := o1 ho x hx; rw [he] at this; simp at this
      | some r =>
        obtain ⟨n, x⟩ := r
        obtain ⟨a, b, c⟩ := o2 n x ho
        refine ⟨n, x, a, b, c, CompletesAs.of h hi (v := ({ e.w with stack := { rpc := t, mask := e.w.hwMask } :: e.w.stack } : Wave).runEntry (n + 1) x) ?_ rfl⟩
        rw [hf, Env.goto]
        simp only [if_neg c1.1, hp, Bool.not_true, Bool.false_eq_true, if_false, ha.2 c2, if_true, ho, Wave.push, show ¬ 256 ≤ e.w.stack.length by omega]
    · rw [if_neg c2]
      have ha' : (frameOf e.w.stack).any (fun x => e.b.eligible e.w x && decide (e.w.ageLimit ≤ x.age.toNat)) = false := by
        by_contra g; exact c2 (ha.1 (by simpa using g))
      refine CompletesAs.of h hi (v := { e.w with pc := t, stack := (frameOf e.w.stack).map Entry.aged ++ belowFrame e.w.stack }) ?_ ?_
      · rw [hf, Env.goto]
        simp only [if_neg c1.1, hp, Bool.not_true, Bool.false_eq_true, if_false, ha']
      · have key : ∀ l l' : List Entry, l = l' → ({ e.w with pc := t, stack := l } : Wave).settled = ({ e.w with pc := t, stack := l' } : Wave).settled := fun l l' h => by rw [h]
        apply key
        congr 1
        apply List.map_congr_left
        intro x _
        simp only [Entry.aged, Entry.isPath, beq_iff_eq]
        split
        · have : (if x.age = 255 then (255 : BitVec 8) else x.age + 1) = BitVec.ofNat 8 (min (x.age.toNat + 1) 255) := by
            split
            · rename_i g; rw [g]; rfl
            · rename_i g
              have lt := x.age.isLt
              have : x.age.toNat ≠ 255 := fun k => g (BitVec.eq_of_toNat_eq k)
              apply BitVec.eq_of_toNat_eq
              rw [BitVec.toNat_add, BitVec.toNat_ofNat, Nat.min_eq_left (by omega)]; rfl
          rw [this]
        · rfl

/-- The meaning ends in `resume_path`. -/
theorem ResumesFrom.of {s : State} {e : Env} (h : s.env? = some e) {i : Instr} {f : Env → WOut} {w : Wave} {n : Nat} (hi : exec i s = withCur f s)
    (hf : f e = (w.resumePath e.b n).out e.m (fun w => e.ok w)) : ResumesFrom s e i w n := by
  unfold ResumesFrom
  cases hr : w.resumePath e.b n with
  | path v => exact CompletesAs.of h hi (v := v) (by rw [hf, hr]; rfl) rfl
  | hold v => exact (hi.trans (withCur_eq h)).trans (by rw [hf, hr]; simp only [Resumed.out, Env.finish, (State.env?_m h).2.1])
  | none v => exact CompletesAs.of h hi (v := { v with pc := v.pc + w64 8 }) (by rw [hf, hr]; rfl) rfl

end Sys2Proof.Machine
end

