-- ==== Sys2Proof/Laws/Values.lean ====
section
/-!
SUPPORT. The values that integer instructions compute (spec/00_scope.md R7; spec/04_vector_isa.md R90, R97 to R100):
the range of a pattern's value, and the bits of shifts and fields.
-/

namespace Sys2Proof.Machine

/-! ## Patterns and their values -/

theorem wrapI_lt (x : Int) (n : Nat) : wrapI x n < 2 ^ n := by
  have h : (0 : Int) < ((2 ^ n : Nat) : Int) := by positivity
  have a := Int.emod_lt_of_pos x h
  have b := Int.emod_nonneg x h.ne'
  unfold wrapI; omega

theorem wrapI_cast (x : Int) (n : Nat) : (wrapI x n : Int) = x % (2 ^ n : Nat) := by
  have h : (0 : Int) < ((2 ^ n : Nat) : Int) := by positivity
  have b := Int.emod_nonneg x h.ne'
  unfold wrapI; omega

theorem wrapI_dvd (x : Int) (n : Nat) : (2 ^ n : Int) ∣ wrapI x n - x := by
  rw [wrapI_cast]
  have := Int.emod_add_mul_ediv x (2 ^ n : Nat)
  refine ⟨-(x / (2 ^ n : Nat)), ?_⟩
  push_cast at *; linarith

theorem Ty.bits_pos (t : Ty) : 0 < Ty.bits t := by cases t <;> decide
theorem Ty.bits_le (t : Ty) : Ty.bits t ≤ 64 := by cases t <;> decide

theorem two_pow_pred {n : Nat} (h : 0 < n) : 2 ^ n = 2 * 2 ^ (n - 1) := by
  conv_lhs => rw [← Nat.sub_add_cancel h, pow_succ, mul_comm]

theorem sext_range {n : Nat} (h : 0 < n) (x : Nat) : -2 ^ (n - 1) ≤ sext x n ∧ sext x n ≤ 2 ^ (n - 1) - 1 ∧ (2 ^ n : Int) ∣ sext x n - x := by
  have e := two_pow_pred h
  have l := Nat.mod_lt x (show 0 < 2 ^ n by positivity)
  have d : (2 ^ n : Int) ∣ ((x % 2 ^ n : Nat) : Int) - x := by
    have := Nat.mod_add_div x (2 ^ n)
    refine ⟨-(x / 2 ^ n : Nat), ?_⟩
    have h : ((x % 2 ^ n + 2 ^ n * (x / 2 ^ n) : Nat) : Int) = x := by rw [this]
    push_cast at *; linarith
  unfold sext
  simp only [show n ≠ 0 by omega, if_false]
  have c : ((2 ^ (n - 1) : Nat) : Int) = 2 ^ (n - 1) := by push_cast; rfl
  have c2 : (2 ^ n : Int) = 2 * 2 ^ (n - 1) := by exact_mod_cast e
  generalize x % 2 ^ n = y at *
  split
  · refine ⟨?_, ?_, ?_⟩
    · omega
    · omega
    · obtain ⟨k, hk⟩ := d
      exact ⟨k - 1, by rw [mul_sub]; linarith⟩
  · exact ⟨by omega, by omega, d⟩

theorem Ty.int_range (t : Ty) (a : Nat) :
    (if Ty.sgn t then -2 ^ (Ty.bits t - 1) else 0 : Int) ≤ Ty.int t a
      ∧ Ty.int t a ≤ (if Ty.sgn t then 2 ^ (Ty.bits t - 1) - 1 else 2 ^ Ty.bits t - 1) ∧ (2 ^ Ty.bits t : Int) ∣ Ty.int t a - a := by
  unfold Ty.int
  split
  · exact sext_range (Ty.bits_pos t) a
  · have l := Nat.mod_lt a (show 0 < 2 ^ Ty.bits t by positivity)
    refine ⟨by omega, ?_, ?_⟩
    · have : ((a % 2 ^ Ty.bits t : Nat) : Int) < ((2 ^ Ty.bits t : Nat) : Int) := by exact_mod_cast l
      push_cast at *; linarith
    · have := Nat.mod_add_div a (2 ^ Ty.bits t)
      refine ⟨-(a / 2 ^ Ty.bits t : Nat), ?_⟩
      have h : ((a % 2 ^ Ty.bits t + 2 ^ Ty.bits t * (a / 2 ^ Ty.bits t) : Nat) : Int) = a := by rw [this]
      push_cast at *; linarith

/-- A pattern is determined by the value it is congruent to. -/
theorem Ty.int_unique (t : Ty) (a : Nat) (x : Int)
    (lo : (if Ty.sgn t then -2 ^ (Ty.bits t - 1) else 0 : Int) ≤ x)
    (hi : x ≤ (if Ty.sgn t then 2 ^ (Ty.bits t - 1) - 1 else 2 ^ Ty.bits t - 1)) (d : (2 ^ Ty.bits t : Int) ∣ a - x) : Ty.int t a = x := by
  obtain ⟨p, q, r⟩ := Ty.int_range t a
  have e := two_pow_pred (Ty.bits_pos t)
  have e' : (2 ^ Ty.bits t : Int) = 2 * 2 ^ (Ty.bits t - 1) := by exact_mod_cast e
  have dd : (2 ^ Ty.bits t : Int) ∣ Ty.int t a - x := by have := dvd_add r d; simpa using this
  have pos : (0 : Int) < 2 ^ Ty.bits t := by positivity
  have : Ty.int t a - x = 0 := by
    apply Int.eq_zero_of_abs_lt_dvd dd
    rw [abs_lt]
    split at lo <;> simp_all <;> constructor <;> linarith
  linarith

theorem Ty.int_wrap (t : Ty) (x : Int)
    (lo : (if Ty.sgn t then -2 ^ (Ty.bits t - 1) else 0 : Int) ≤ x)
    (hi : x ≤ (if Ty.sgn t then 2 ^ (Ty.bits t - 1) - 1 else 2 ^ Ty.bits t - 1)) : Ty.int t (Ty.wrap t x) = x :=
  Ty.int_unique t _ x lo hi (wrapI_dvd x _)

theorem Ty.int_sat (t : Ty) (x : Int) :
    let lo : Int := if Ty.sgn t then -2 ^ (Ty.bits t - 1) else 0
    let hi : Int := if Ty.sgn t then 2 ^ (Ty.bits t - 1) - 1 else 2 ^ Ty.bits t - 1
    Ty.int t (Ty.sat t x) = (if x < lo then lo else if hi < x then hi else x) := by
  intro lo hi
  have hlo : (if Ty.sgn t then -((2 ^ (Ty.bits t - 1) : Nat) : Int) else 0 : Int) = lo := by simp [lo]
  have hhi : (if Ty.sgn t then ((2 ^ (Ty.bits t - 1) : Nat) : Int) - 1 else ((2 ^ Ty.bits t : Nat) : Int) - 1 : Int) = hi := by simp [hi]
  have le : lo ≤ hi := by
    have a : (1 : Int) ≤ 2 ^ (Ty.bits t - 1) := one_le_pow₀ (by norm_num)
    have b : (1 : Int) ≤ 2 ^ (Ty.bits t) := one_le_pow₀ (by norm_num)
    simp only [lo, hi]; split <;> linarith
  have : Ty.sat t x = Ty.wrap t (max lo (min hi x)) := by
    simp only [Ty.sat, Ty.wrap, hlo, hhi]
  rw [this, Ty.int_wrap t _ (by exact le_max_left _ _) (by simp only [max_le_iff]; exact ⟨le, min_le_left _ _⟩)]
  split_ifs <;> omega

theorem fmt_const_lt (t : Ty) (c : Const) (q : Int) (f : Fmt) (h : constQuarters c = some q) (hf : Ty.fmt? t = some f) :
    (f.rndI .near false q (-2)).1 < 2 ^ Ty.bits t := by
  cases t <;> simp_all [Ty.fmt?] <;> subst hf <;> cases c <;> simp [constQuarters] at h <;> subst h <;> decide
theorem nfmt_const_lt (t : Ty) (c : Const) (q : Int) (f : NFmt) (h : constQuarters c = some q) (hf : Ty.nfmt? t = some f) :
    (f.rnd .near (.fin (decide (q < 0)) q.natAbs (-2))).1 < 2 ^ Ty.bits t := by
  cases t <;> simp_all [Ty.nfmt?] <;> subst hf <;> cases c <;> simp [constQuarters] at h <;> subst h <;> decide
theorem constPattern_lt (t : Ty) (c : Const) : constPattern t c < 2 ^ Ty.bits t := by
  cases t <;> cases c <;> decide

theorem Env.src_lt (e : Env) (p : Bool) (l : Nat) (t : Ty) (r : Src) : e.src p l t r < 2 ^ Ty.bits t := by
  cases r with
  | vec r =>
    simp only [Env.src, Wave.vec]
    split
    · rename_i h
      have : Ty.bits t = 64 := by cases t <;> first | rfl | (exact absurd h (by decide))
      rw [this]
      have := (e.w.getV p r.toNat l).isLt
      have := (e.w.getV p (r.toNat + 1) l).isLt
      omega
    · exact Nat.mod_lt _ (by positivity)
  | sca r => exact Nat.mod_lt _ (by positivity)
  | con c =>
    simp only [Env.src, Env.const]
    split
    · rename_i q hq
      cases hf : Ty.fmt? t with
      | some f => exact fmt_const_lt t c q f hq hf
      | none =>
        cases hg : Ty.nfmt? t with
        | some f => exact nfmt_const_lt t c q f hq hg
        | none => exact wrapI_lt _ _
    · split
      · exact constPattern_lt t c
      · exact wrapI_lt _ _

/-! ## Bits -/

theorem testBit_high {a n j : Nat} (h : a < 2 ^ n) (hj : n ≤ j) : a.testBit j = false :=
  Nat.testBit_lt_two_pow (lt_of_lt_of_le h (Nat.pow_le_pow_right (by norm_num) hj))

theorem testBit_mask (a n j : Nat) : (a % 2 ^ n).testBit j = (decide (j < n) && a.testBit j) := Nat.testBit_mod_two_pow a n j
theorem testBit_down (a n j : Nat) : (a / 2 ^ n).testBit j = a.testBit (n + j) := by
  rw [Nat.testBit_div_two_pow]; congr 1; omega
theorem testBit_up (a n j : Nat) : (a * 2 ^ n).testBit j = (decide (n ≤ j) && a.testBit (j - n)) := by
  rw [mul_comm, Nat.testBit_two_pow_mul]

theorem testBit_not {a n : Nat} (h : a < 2 ^ n) (j : Nat) : (2 ^ n - 1 - a).testBit j = (decide (j < n) && !a.testBit j) := by
  rw [show 2 ^ n - 1 - a = 2 ^ n - (a + 1) by omega, Nat.testBit_two_pow_sub_succ h]

/-- Two numbers one of which lies below a power of two that divides the other. -/
theorem testBit_join (a b n j : Nat) (h : b < 2 ^ n) : (a * 2 ^ n + b).testBit j = if j < n then b.testBit j else a.testBit (j - n) := by
  rw [mul_comm, Nat.testBit_two_pow_mul_add _ h]

theorem shiftLeft_testBit {t : Ty} {a : Nat} (b j : Nat) :
    (shiftLeft t a b).testBit j = (decide (j < Ty.bits t) && (decide (b ≤ j) && a.testBit (j - b))) := by
  unfold shiftLeft
  split
  · by_cases h : j < Ty.bits t
    · simp [show ¬ b ≤ j by omega]
    · simp [h]
  · rw [testBit_mask, testBit_up]


theorem wrapI_ofNat (a n : Nat) : wrapI a n = a % 2 ^ n := by
  unfold wrapI; omega

theorem testBit_ones (n j : Nat) : (2 ^ n - 1).testBit j = decide (j < n) := Nat.testBit_two_pow_sub_one n j

theorem testBit_top {a n : Nat} (h : 0 < n) (ha : a < 2 ^ n) : a.testBit (n - 1) = decide (2 ^ (n - 1) ≤ a) := by
  have e : 2 ^ n = 2 * 2 ^ (n - 1) := by conv_lhs => rw [← Nat.sub_add_cancel h, pow_succ, mul_comm]
  have d : a / 2 ^ (n - 1) < 2 := Nat.div_lt_of_lt_mul (by rw [mul_comm]; omega)
  rw [Nat.testBit_eq_decide_div_mod_eq, Nat.mod_eq_of_lt d]
  by_cases g : 2 ^ (n - 1) ≤ a
  · have := Nat.div_pos g (by positivity); simp [g]; omega
  · simp [g, Nat.div_eq_of_lt (lt_of_not_ge g)]

/-- The bits of a pattern sign-extended from n to w bits. -/
theorem testBit_sext {f n w : Nat} (h : 0 < n) (hw : n ≤ w) (hf : f < 2 ^ n) (j : Nat) :
    (wrapI (sext f n) w).testBit j = (decide (j < w) && if j < n then f.testBit j else f.testBit (n - 1)) := by
  have pw : 2 ^ w = 2 ^ (w - n) * 2 ^ n := by rw [← pow_add]; congr 1; omega
  unfold sext
  rw [Nat.mod_eq_of_lt hf, testBit_top h hf]
  simp only [show n ≠ 0 by omega, if_false]
  split
  · rename_i g
    have one : 1 ≤ 2 ^ (w - n) := Nat.one_le_two_pow
    have : wrapI ((f : Int) - 2 ^ n) w = (2 ^ (w - n) - 1) * 2 ^ n + f := by
      have e : ((f : Int) - 2 ^ n) = (((2 ^ (w - n) - 1) * 2 ^ n + f : Nat) : Int) - (2 ^ w : Nat) := by
        rw [pw, Nat.sub_mul]; push_cast [Nat.cast_sub (show 1 * 2 ^ n ≤ 2 ^ (w - n) * 2 ^ n from Nat.mul_le_mul_right _ one)]; ring
      unfold wrapI
      rw [e, Int.sub_emod_right, ← Int.natCast_mod, Int.toNat_natCast, Nat.mod_eq_of_lt]
      rw [pw, Nat.sub_mul]; have : 2 ^ n ≤ 2 ^ (w - n) * 2 ^ n := Nat.le_mul_of_pos_left _ (by positivity)
      omega
    rw [this, testBit_join _ _ _ _ hf, testBit_ones]
    by_cases k : j < n
    · simp [k, show j < w by omega]
    · simp only [k, if_false, g, decide_true, Bool.and_true]; congr 1; simp; omega
  · rename_i g
    rw [wrapI_ofNat, testBit_mask]
    by_cases k : j < n
    · simp [k]
    · simp [k, g, testBit_high hf (show n ≤ j by omega)]

theorem shiftRight_testBit {t : Ty} {a : Nat} (ha : a < 2 ^ Ty.bits t) (b j : Nat) :
    (shiftRight t a b).testBit j = (decide (j < Ty.bits t) && if b + j < Ty.bits t then a.testBit (b + j) else Ty.sgn t && a.testBit (Ty.bits t - 1)) := by
  have hp : 0 < Ty.bits t := by cases t <;> decide
  unfold shiftRight
  by_cases g : Ty.sgn t = true
  · simp only [g, if_true, Bool.true_and]
    -- an arithmetic shift is a sign-extended field
    set m := min b (Ty.bits t - 1) with hm
    have e : Ty.int t a / ((2 ^ m : Nat) : Int) = sext (a / 2 ^ m) (Ty.bits t - m) := by
      unfold Ty.int
      simp only [g, if_true]
      have pw : 2 ^ Ty.bits t = 2 ^ (Ty.bits t - m) * 2 ^ m := by rw [← pow_add]; congr 1; omega
      have pw1 : 2 ^ (Ty.bits t - 1) = 2 ^ (Ty.bits t - m - 1) * 2 ^ m := by rw [← pow_add]; congr 1; omega
      have hl : a / 2 ^ m < 2 ^ (Ty.bits t - m) := Nat.div_lt_of_lt_mul (by rw [mul_comm, ← pw]; exact ha)
      unfold sext
      rw [Nat.mod_eq_of_lt ha, Nat.mod_eq_of_lt hl]
      simp only [show Ty.bits t ≠ 0 by omega, show Ty.bits t - m ≠ 0 by omega, if_false]
      have iff : 2 ^ (Ty.bits t - m - 1) ≤ a / 2 ^ m ↔ 2 ^ (Ty.bits t - 1) ≤ a := by
        rw [Nat.le_div_iff_mul_le (by positivity), pw1]
      by_cases c : 2 ^ (Ty.bits t - 1) ≤ a
      · rw [if_pos c, if_pos (iff.2 c)]
        have : (2 ^ Ty.bits t : Int) = 2 ^ (Ty.bits t - m) * ((2 ^ m : Nat) : Int) := by exact_mod_cast pw
        rw [this, sub_eq_add_neg, ← neg_mul, Int.add_mul_ediv_right _ _ (by positivity)]
        push_cast; ring
      · rw [if_neg c, if_neg (fun h => c (iff.1 h))]; push_cast; rfl
    have hl : a / 2 ^ m < 2 ^ (Ty.bits t - m) := by
      have pw : 2 ^ Ty.bits t = 2 ^ (Ty.bits t - m) * 2 ^ m := by rw [← pow_add]; congr 1; omega
      exact Nat.div_lt_of_lt_mul (by rw [mul_comm, ← pw]; exact ha)
    rw [e, Ty.wrap, testBit_sext (by omega) (by omega) hl, testBit_down, testBit_down]
    by_cases c : b + j < Ty.bits t
    · have : m = b ∨ (m = Ty.bits t - 1 ∧ b = Ty.bits t - 1) := by omega
      have h2 : m = b := by omega
      simp only [h2, c, if_true, show j < Ty.bits t - b by omega]
    · simp only [c, if_false]
      by_cases k : j < Ty.bits t - m
      · have : m = Ty.bits t - 1 := by omega
        simp only [k, if_true]
        rw [show m + j = Ty.bits t - 1 by omega]
      · simp only [k, if_false]
        rw [show m + (Ty.bits t - m - 1) = Ty.bits t - 1 by omega]
  · have g' : Ty.sgn t = false := by simpa using g
    simp only [g', Bool.false_eq_true, if_false, Bool.false_and]
    by_cases c : Ty.bits t ≤ b
    · simp [c, show ¬ b + j < Ty.bits t by omega]
    · simp only [c, if_false, testBit_down]
      by_cases k : b + j < Ty.bits t
      · simp [k, show j < Ty.bits t by omega]
      · simp [k, testBit_high ha (show Ty.bits t ≤ b + j by omega)]

theorem rotateLeft_testBit {t : Ty} {a : Nat} (ha : a < 2 ^ Ty.bits t) (b j : Nat) :
    (rotateLeft t a b).testBit j = (decide (j < Ty.bits t) && a.testBit ((j + (Ty.bits t - b % Ty.bits t)) % Ty.bits t)) := by
  have hp : 0 < Ty.bits t := by cases t <;> decide
  unfold rotateLeft
  simp only
  generalize Ty.bits t = w at *
  have hr := Nat.mod_lt b hp
  set r := b % w
  have pw : 2 ^ w = 2 ^ (w - r) * 2 ^ r := by rw [← pow_add]; congr 1; omega
  have e : a * 2 ^ r % 2 ^ w = a % 2 ^ (w - r) * 2 ^ r := by rw [pw, Nat.mul_mod_mul_right]
  have hl : a / 2 ^ (w - r) < 2 ^ r := Nat.div_lt_of_lt_mul (by rw [← pw]; exact ha)
  rw [e, testBit_join _ _ _ _ hl, testBit_mask, testBit_down]
  by_cases c : j < r
  · rw [if_pos c, Nat.mod_eq_of_lt (show j + (w - r) < w by omega)]
    simp [show j < w by omega, add_comm]
  · rw [if_neg c]
    by_cases k : j < w
    · rw [show j + (w - r) = j - r + w by omega, Nat.add_mod_right, Nat.mod_eq_of_lt (show j - r < w by omega)]
      simp [k]; omega
    · simp [k]; intro; omega

theorem reverseBits_testBit (a w j : Nat) : (reverseBits a w).testBit j = (decide (j < w) && a.testBit (w - 1 - j)) := by
  have main : ∀ n ≤ w, ∃ x, x < 2 ^ n ∧
      (List.range n).foldl (fun r i => if a.testBit i then r + 2 ^ (w - 1 - i) else r) 0 = x * 2 ^ (w - n)
      ∧ ∀ j < n, x.testBit j = a.testBit (n - 1 - j) := by
    intro n
    induction n with
    | zero => intro _; exact ⟨0, by simp, by simp, by simp⟩
    | succ n ih =>
      intro h
      obtain ⟨x, hx, e, b⟩ := ih (by omega)
      have pw : 2 ^ (w - n) = 2 * 2 ^ (w - (n + 1)) := by rw [show w - n = w - (n + 1) + 1 by omega, pow_succ, mul_comm]
      refine ⟨2 * x + (if a.testBit n then 1 else 0), ?_, ?_, ?_⟩
      · rw [pow_succ]; split <;> omega
      · rw [List.range_succ, List.foldl_append, e]
        simp only [List.foldl_cons, List.foldl_nil]
        rw [show w - 1 - n = w - (n + 1) by omega]
        split <;> rw [pw] <;> ring
      · intro j hj
        cases j with
        | zero => simp [Nat.testBit_zero]; split <;> simp_all
        | succ j =>
          rw [Nat.testBit_succ, show (2 * x + (if a.testBit n then 1 else 0)) / 2 = x by split <;> omega, b j (by omega)]
          congr 1; omega
  obtain ⟨x, hx, e, b⟩ := main w (le_refl _)
  have e' : reverseBits a w = x := by unfold reverseBits; rw [e]; simp
  rw [e']
  by_cases h : j < w
  · simp [h, b j h]
  · simp [h, testBit_high hx (show w ≤ j by omega)]

theorem fieldLen_le (w b : Nat) : fieldLen w b ≤ w := by unfold fieldLen; split <;> omega
theorem fieldLen_eq (w b : Nat) : fieldLen w b = if w ≤ b % 256 then 0 else min (b / 256 % 256) (w - b % 256) := by
  unfold fieldLen fld; simp [Nat.shiftRight_eq_div_pow]

theorem bitExtract_testBit (t : Ty) (a b j : Nat) :
    (bitExtract t a b).testBit j = (decide (j < Ty.bits t) && decide (fieldLen (Ty.bits t) b ≠ 0) &&
      if j < fieldLen (Ty.bits t) b then a.testBit (b % 256 + j) else Ty.sgn t && a.testBit (b % 256 + fieldLen (Ty.bits t) b - 1)) := by
  have hl := fieldLen_le (Ty.bits t) b
  have pos : fld b 0 8 = b % 256 := by simp [fld]
  unfold bitExtract
  simp only [pos]
  generalize fieldLen (Ty.bits t) b = n at *
  have hf : a / 2 ^ (b % 256) % 2 ^ n < 2 ^ n := Nat.mod_lt _ (by positivity)
  by_cases hn : n = 0
  · subst hn; simp [Nat.mod_one, sext, Ty.wrap, wrapI]
  · split
    · rename_i g
      rw [Ty.wrap, testBit_sext (by omega) hl hf, testBit_mask, testBit_mask, testBit_down, testBit_down]
      by_cases k : j < n
      · simp [k, hn]
      · simp [k, hn, g, show n - 1 < n by omega, show b % 256 + n - 1 = b % 256 + (n - 1) by omega]
    · rename_i g
      have g' : Ty.sgn t = false := by simpa using g
      rw [testBit_mask, testBit_down]
      by_cases k : j < n
      · simp [k, hn, show j < Ty.bits t by omega]
      · simp [k, g']

/-- A field of n bits at p replaced. -/
theorem testBit_insert (n p a c j : Nat) :
    (c % 2 ^ p + a % 2 ^ n * 2 ^ p + c / 2 ^ (p + n) * 2 ^ (p + n)).testBit j
      = if p ≤ j ∧ j < p + n then a.testBit (j - p) else c.testBit j := by
  have e : c % 2 ^ p + a % 2 ^ n * 2 ^ p + c / 2 ^ (p + n) * 2 ^ (p + n)
      = c / 2 ^ (p + n) * 2 ^ (p + n) + (a % 2 ^ n * 2 ^ p + c % 2 ^ p) := by ring
  have l1 : c % 2 ^ p < 2 ^ p := Nat.mod_lt _ (by positivity)
  have l2 : a % 2 ^ n < 2 ^ n := Nat.mod_lt _ (by positivity)
  have l3 : a % 2 ^ n * 2 ^ p + c % 2 ^ p < 2 ^ (p + n) := by
    rw [pow_add, mul_comm (2 ^ p)]
    calc _ < a % 2 ^ n * 2 ^ p + 2 ^ p := by omega
      _ = (a % 2 ^ n + 1) * 2 ^ p := by ring
      _ ≤ _ := Nat.mul_le_mul_right _ l2
  rw [e, testBit_join _ _ _ _ l3, testBit_join _ _ _ _ l1, testBit_mask, testBit_mask, testBit_down]
  by_cases h1 : j < p
  · simp [h1, show j < p + n by omega, show ¬ p ≤ j by omega]
  · by_cases h2 : j < p + n
    · simp [h1, h2, show p ≤ j by omega]; intro; omega
    · simp [h2]; congr 1; omega

theorem bitInsert_testBit (t : Ty) (a b c j : Nat) :
    (bitInsert t a b c).testBit j = if b % 256 ≤ j ∧ j < b % 256 + fieldLen (Ty.bits t) b then a.testBit (j - b % 256) else c.testBit j := by
  have pos : fld b 0 8 = b % 256 := by simp [fld]
  unfold bitInsert
  simp only [pos]
  generalize fieldLen (Ty.bits t) b = n
  generalize b % 256 = p
  by_cases hn : n = 0
  · subst hn; simp
  · rw [if_neg hn]; exact testBit_insert n p a c j

theorem clz_spec {a w : Nat} (ha : a < 2 ^ w) :
    w - bitLen a ≤ w ∧ a < 2 ^ (w - (w - bitLen a)) ∧ (w - bitLen a < w → 2 ^ (w - (w - bitLen a) - 1) ≤ a) := by
  unfold bitLen
  by_cases h : a = 0
  · subst h; simp
  · have h1 := Nat.log2_self_le h
    have h2 := Nat.lt_log2_self (n := a)
    have h3 : a.log2 < w := (Nat.log2_lt h).2 ha
    simp only [h, if_false]
    rw [show w - (w - (a.log2 + 1)) = a.log2 + 1 by omega]
    exact ⟨by omega, h2, fun _ => by simpa using h1⟩

theorem ones?_eq (a n : Nat) : ones? a n = (List.range n).countP (fun i => a.testBit i) := by
  unfold ones?; rw [List.countP_eq_length_filter]


/-! ## Division -/

theorem tdiv_range (t : Ty) (a b : Nat) (hb : Ty.int t b ≠ 0)
    (h : ¬(Ty.sgn t = true ∧ Ty.int t a = -2 ^ (Ty.bits t - 1) ∧ Ty.int t b = -1)) :
    Ty.int t (Ty.wrap t ((Ty.int t a).tdiv (Ty.int t b))) = (Ty.int t a).tdiv (Ty.int t b) := by
  obtain ⟨l1, l2, -⟩ := Ty.int_range t a
  obtain ⟨m1, m2, -⟩ := Ty.int_range t b
  generalize Ty.int t a = A at *
  generalize Ty.int t b = B at *
  have e := Int.mul_tdiv_add_tmod A B
  have na : (A.tdiv B).natAbs ≤ A.natAbs := by rw [Int.natAbs_tdiv]; exact Nat.div_le_self _ _
  apply Ty.int_wrap
  · split
    · rename_i g; simp only [g, if_true] at l1 l2; omega
    · rename_i g; simp only [g] at l1 m1; exact Int.tdiv_nonneg (by simpa using l1) (by simpa using m1)
  · split
    · rename_i g
      simp only [g, if_true, true_and] at l1 l2 m1 m2 h
      by_contra c
      have c1 : A.tdiv B = 2 ^ (Ty.bits t - 1) := by omega
      have c2 : A = -2 ^ (Ty.bits t - 1) := by omega
      have one : (1 : Int) ≤ 2 ^ (Ty.bits t - 1) := one_le_pow₀ (by norm_num)
      generalize (2 : Int) ^ (Ty.bits t - 1) = P at *
      have nb : B.natAbs = 1 := by
        have k : (A.tdiv B).natAbs = A.natAbs / B.natAbs := Int.natAbs_tdiv A B
        have k1 : A.natAbs / B.natAbs = A.natAbs := by rw [← k, c1, c2]; omega
        have k2 : A.natAbs ≠ 0 := by omega
        rcases Nat.lt_or_ge B.natAbs 2 with x | x
        · omega
        · have := Nat.div_lt_self (Nat.pos_of_ne_zero k2) x; omega
      rcases Int.natAbs_eq B with x | x
      · rw [nb] at x; subst x; simp at c1; omega
      · rw [nb] at x; exact h ⟨c2, by simpa using x⟩
    · rename_i g
      simp only [g] at l1 l2 m1
      have : A.tdiv B ≤ A := by
        have := Int.tdiv_nonneg (show 0 ≤ A by simpa using l1) (show 0 ≤ B by simpa using m1); simp at l1; omega
      simp at l2; simp; omega

theorem divQuotient_lt (t : Ty) (a b : Nat) : divQuotient t a b < 2 ^ Ty.bits t := by
  unfold divQuotient
  split
  · have := Nat.one_le_two_pow (n := Ty.bits t); omega
  · exact wrapI_lt _ _

theorem divQuotient_overflow (t : Ty) (a b : Nat) (g : Ty.sgn t = true) (ha : Ty.int t a = -2 ^ (Ty.bits t - 1)) (hb : Ty.int t b = -1) :
    Ty.int t (divQuotient t a b) = -2 ^ (Ty.bits t - 1) := by
  have one : (1 : Int) ≤ 2 ^ (Ty.bits t - 1) := one_le_pow₀ (by norm_num)
  have e : (2 ^ Ty.bits t : Int) = 2 * 2 ^ (Ty.bits t - 1) := by exact_mod_cast two_pow_pred (Ty.bits_pos t)
  unfold divQuotient
  simp only [ha, hb, show (-1 : Int) ≠ 0 by decide, if_false]
  apply Ty.int_unique
  · simp [g]
  · simp only [g, if_true]; omega
  · have := wrapI_dvd ((-2 ^ (Ty.bits t - 1) : Int).tdiv (-1)) (Ty.bits t)
    have k : ((-2 ^ (Ty.bits t - 1) : Int).tdiv (-1)) = 2 ^ (Ty.bits t - 1) := by simp
    rw [k] at this
    obtain ⟨c, hc⟩ := this
    refine ⟨c + 1, ?_⟩
    rw [Ty.wrap, k, mul_add, mul_one, ← hc]; linarith

theorem divRemainder_spec (t : Ty) (a b : Nat) (hb : Ty.int t b ≠ 0) :
    divRemainder t a b < 2 ^ Ty.bits t
      ∧ Ty.int t (divRemainder t a b) = Ty.int t a - Ty.int t b * (Ty.int t a).tdiv (Ty.int t b) := by
  obtain ⟨l1, l2, -⟩ := Ty.int_range t a
  unfold divRemainder
  simp only [hb, if_false]
  refine ⟨wrapI_lt _ _, ?_⟩
  have e := Int.mul_tdiv_add_tmod (Ty.int t a) (Ty.int t b)
  have r : (Ty.int t a).tmod (Ty.int t b) = Ty.int t a - Ty.int t b * (Ty.int t a).tdiv (Ty.int t b) := by linarith
  rw [← r]
  have na : ((Ty.int t a).tmod (Ty.int t b)).natAbs ≤ (Ty.int t a).natAbs := by
    rw [Int.natAbs_tmod]; exact Nat.mod_le _ _
  have sg : 0 ≤ Ty.int t a → 0 ≤ (Ty.int t a).tmod (Ty.int t b) := fun h => Int.tmod_nonneg _ h
  have sn : Ty.int t a ≤ 0 → (Ty.int t a).tmod (Ty.int t b) ≤ 0 := fun h => by
    have := Int.tmod_nonneg (Ty.int t b) (show 0 ≤ -Ty.int t a by omega)
    rw [Int.neg_tmod] at this; omega
  apply Ty.int_wrap
  · split
    · rename_i g; simp only [g, if_true] at l1; rcases le_total 0 (Ty.int t a) with x | x
      · have := sg x; have : (0 : Int) ≤ 2 ^ (Ty.bits t - 1) := by positivity
        omega
      · omega
    · rename_i g; simp only [g] at l1; exact sg (by simpa using l1)
  · rcases le_total 0 (Ty.int t a) with x | x
    · have := sg x; omega
    · have a1 := sn x
      have : (1 : Int) ≤ 2 ^ (Ty.bits t - 1) := one_le_pow₀ (by norm_num)
      have : (1 : Int) ≤ 2 ^ (Ty.bits t) := one_le_pow₀ (by norm_num)
      split <;> omega

end Sys2Proof.Machine
end

