-- ==== Sys2Proof/Laws/Trees.lean ====
section
/-!
SUPPORT. The trees of spec/03_numbers.md R84 and R85 under an associative operation that raises no flag: they combine
the lanes that are there in order.
-/

namespace Sys2Proof.Machine

/-- The combination of a list in order; absent when it is empty. -/
def foldAll (f : Nat → Nat → Nat) : List Nat → Option (Nat × Flags)
  | [] => none
  | a :: l => some (l.foldl f a, 0)

/-- Two parts, either of which may be absent. -/
def both (f : Nat → Nat → Nat) : Option (Nat × Flags) → Option (Nat × Flags) → Option (Nat × Flags)
  | none, b => b
  | a, none => a
  | some a, some b => some (f a.1 b.1, a.2 ||| b.2)

theorem both_none (f : Nat → Nat → Nat) (a : Option (Nat × Flags)) : both f a none = a := by cases a <;> rfl

theorem both_assoc {f : Nat → Nat → Nat} (assoc : ∀ a b c, f (f a b) c = f a (f b c)) (a b c : Option (Nat × Flags)) :
    both f (both f a b) c = both f a (both f b c) := by
  cases a <;> cases b <;> cases c <;> simp [both, assoc, BitVec.or_assoc]

theorem foldAll_append {f : Nat → Nat → Nat} (assoc : ∀ a b c, f (f a b) c = f a (f b c)) (l m : List Nat) :
    foldAll f (l ++ m) = both f (foldAll f l) (foldAll f m) := by
  have pull : ∀ (m : List Nat) (x b : Nat), m.foldl f (f x b) = f x (m.foldl f b) := by
    intro m
    induction m with
    | nil => intro x b; rfl
    | cons c m ih => intro x b; rw [List.foldl_cons, List.foldl_cons, assoc, ih]
  cases l with
  | nil => cases m <;> rfl
  | cons a l =>
    cases m with
    | nil => simp [foldAll, both]
    | cons b m => simp [foldAll, both, List.foldl_append, pull]

/-- A tree of an associative operation that raises no flag combines its positions in order (R84). -/
theorem tree_fold {f : Nat → Nat → Nat} {op : Nat → Nat → Nat × Flags} (hop : ∀ a b, op a b = (f a b, 0)) (assoc : ∀ a b c, f (f a b) c = f a (f b c))
    (x : Nat → Option Nat) : ∀ i lo, treeOp op x lo i = foldAll f ((List.range' lo (2 ^ i)).filterMap x)
  | 0, lo => by
    cases h : x lo <;> simp [treeOp, foldAll, h]
  | i + 1, lo => by
    have e : List.range' lo (2 ^ (i + 1)) = List.range' lo (2 ^ i) ++ List.range' (lo + 2 ^ i) (2 ^ i) := by
      rw [List.range'_append_1, pow_succ, mul_two]
    rw [e, List.filterMap_append, foldAll_append assoc, ← tree_fold hop assoc x i, ← tree_fold hop assoc x i]
    simp only [treeOp, hop]
    cases treeOp op x lo i <;> cases treeOp op x (lo + 2 ^ i) i <;> simp [both]

/-- A prefix combines the positions up to its own (R85). -/
theorem prefix_fold {f : Nat → Nat → Nat} {op : Nat → Nat → Nat × Flags} (hop : ∀ a b, op a b = (f a b, 0)) (assoc : ∀ a b c, f (f a b) c = f a (f b c))
    (x : Nat → Option Nat) (l : Nat) : ∀ i base acc, prefixOp op x l i acc base =
      both f acc (foldAll f ((List.range' base ((l + 1) % 2 ^ i)).filterMap x))
  | 0, base, acc => by
    simp only [prefixOp, pow_zero, Nat.mod_one, List.range'_zero, List.filterMap_nil, foldAll, both_none]
  | i + 1, base, acc => by
    have hm : (l + 1) % 2 ^ (i + 1) = (if (l + 1).testBit i then 2 ^ i else 0) + (l + 1) % 2 ^ i := by
      rw [Nat.testBit_eq_decide_div_mod_eq, pow_succ, Nat.mod_mul]
      rcases Nat.mod_two_eq_zero_or_one ((l + 1) / 2 ^ i) with h | h <;> simp [h]; omega
    simp only [prefixOp]
    split
    · rename_i c
      rw [prefix_fold hop assoc x l i, tree_fold hop assoc, hm, if_pos c, ← List.range'_append_1, List.filterMap_append, foldAll_append assoc, ← both_assoc assoc]
      congr 1
      generalize foldAll f _ = t
      cases acc <;> cases t <;> simp [both, hop]
    · rename_i c
      rw [prefix_fold hop assoc x l i, hm, if_neg c, Nat.zero_add]

/-- The active lanes' values in order. -/
theorem contrib_list (e : Env) (k : Nat) (t : Ty) (a : Src) (p : Bool) (n : Nat) :
    (List.range' 0 n).filterMap (e.contrib k t a p) = ((e.w.active p k).filter (· < n)).map (fun j => e.src p j t a) := by
  have h2 : (List.range' 0 n).filterMap (e.contrib k t a p)
      = ((List.range n).filter (fun l => decide (l ∈ e.w.active p k))).map (fun j => e.src p j t a) := by
    rw [List.range_eq_range']
    generalize List.range' 0 n = ls
    induction ls with
    | nil => rfl
    | cons x ls ih =>
      rw [List.filterMap_cons, List.filter_cons]
      by_cases c : x ∈ e.w.active p k
      · simp [Env.contrib, c, ih]
      · simp [Env.contrib, c, ih]
  rw [h2]
  congr 1
  unfold Wave.active bitsOf
  generalize (if k = 0 then _ else _ : W64) = m
  have hW : e.w.W ≤ 64 := e.w.W_le
  apply List.Perm.eq_of_pairwise (le := (· < ·))
  · intro a b _ _ h1 h2; omega
  · exact List.Pairwise.filter _ List.pairwise_lt_range
  · exact List.Pairwise.filter _ (List.Pairwise.filter _ List.pairwise_lt_range)
  · rw [List.perm_ext_iff_of_nodup]
    · intro a; simp [List.mem_filter]; tauto
    · exact List.Nodup.filter _ (List.nodup_range)
    · exact List.Nodup.filter _ (List.Nodup.filter _ List.nodup_range)

/-- log2 W. -/
theorem lt_log (e : Env) : 2 ^ e.w.width.log = e.w.W := by unfold Wave.W; cases e.w.width <;> rfl

/-- A scan of an associative operation, lane by lane. -/
theorem scan_value (e : Env) (k : Nat) (t : Ty) (a : Src) (p : Bool) (l : Nat) (hl : l < e.w.W) {f : Nat → Nat → Nat} {op : Nat → Nat → Nat × Flags}
    (hop : ∀ a b, op a b = (f a b, 0)) (assoc : ∀ a b c, f (f a b) c = f a (f b c)) :
    prefixOp op (e.contrib k t a p) l (e.w.width.log + 1) none 0
      = foldAll f (((e.w.active p k).filter (· ≤ l)).map (fun j => e.src p j t a)) := by
  rw [prefix_fold hop assoc, both, Nat.mod_eq_of_lt, contrib_list]
  · congr 2
    apply List.filter_congr
    intro x _; rw [decide_eq_decide]; omega
  · have := lt_log e; rw [pow_succ]; omega

/-- A reduction of an associative operation. -/
theorem red_value (e : Env) (k : Nat) (t : Ty) (a : Src) (p : Bool) {f : Nat → Nat → Nat} {op : Nat → Nat → Nat × Flags}
    (hop : ∀ a b, op a b = (f a b, 0)) (assoc : ∀ a b c, f (f a b) c = f a (f b c)) :
    treeOp op (e.contrib k t a p) 0 e.w.width.log = foldAll f ((e.w.active p k).map (fun j => e.src p j t a)) := by
  rw [tree_fold hop assoc, contrib_list]
  congr 2
  rw [List.filter_eq_self]
  intro x hx
  have := e.w.mem_active p k x hx
  rw [lt_log]; simpa using this

theorem foldAll_flags (f : Nat → Nat → Nat) (l : List Nat) : ((foldAll f l).getD (0, 0)).2 = 0 := by cases l <;> rfl

theorem wrapI_congr {x y : Int} {n : Nat} (h : (2 ^ n : Int) ∣ x - y) : wrapI x n = wrapI y n := by
  unfold wrapI
  congr 1
  apply (Int.modEq_iff_dvd.2 _)
  rw [← dvd_neg]; push_cast; simpa using h

/-! ### Sums -/

def addWrap (t : Ty) (a b : Nat) : Nat := Ty.wrap t (Ty.int t a + Ty.int t b)

theorem dvd_int_wrap (t : Ty) (x : Int) : (2 ^ Ty.bits t : Int) ∣ Ty.int t (Ty.wrap t x) - x := by
  have h1 := (Ty.int_range t (Ty.wrap t x)).2.2
  have h2 := wrapI_dvd x (Ty.bits t)
  have := dvd_add h1 h2
  simpa [Ty.wrap] using this

theorem addWrap_assoc (t : Ty) (a b c : Nat) : addWrap t (addWrap t a b) c = addWrap t a (addWrap t b c) := by
  unfold addWrap
  apply wrapI_congr
  have h1 := dvd_int_wrap t (Ty.int t a + Ty.int t b)
  have h2 := dvd_int_wrap t (Ty.int t b + Ty.int t c)
  have := dvd_sub h1 h2
  refine this.trans (dvd_of_eq ?_)
  ring

theorem Ty.wrap_int (t : Ty) {a : Nat} (h : a < 2 ^ Ty.bits t) : Ty.wrap t (Ty.int t a) = a := by
  have := (Ty.int_range t a).2.2
  rw [Ty.wrap, wrapI_congr this, wrapI_ofNat, Nat.mod_eq_of_lt h]

theorem foldAll_sum (t : Ty) (l : List Nat) (h : ∀ x ∈ l, x < 2 ^ Ty.bits t) (hl : l ≠ []) :
    ((foldAll (addWrap t) l).getD (0, 0)).1 = Ty.wrap t (l.foldl (fun (n : Int) a => n + Ty.int t a) 0) := by
  have main : ∀ (l : List Nat) (a : Nat) (n : Int), a = Ty.wrap t n → l.foldl (addWrap t) a = Ty.wrap t (l.foldl (fun (n : Int) a => n + Ty.int t a) n) := by
    intro l
    induction l with
    | nil => intro a n h; exact h
    | cons x l ih =>
      intro a n h
      rw [List.foldl_cons, List.foldl_cons]
      apply ih
      rw [h, addWrap]
      apply wrapI_congr
      have := dvd_int_wrap t n
      refine this.trans (dvd_of_eq (by ring))
  cases l with
  | nil => exact absurd rfl hl
  | cons a l =>
    simp only [foldAll, Option.getD_some, List.foldl_cons]
    apply main
    rw [Int.zero_add, Ty.wrap_int t (h a (by simp))]

/-! ### The least and the greatest -/

theorem intMin_assoc (t : Ty) (a b c : Nat) : intMin t (intMin t a b) c = intMin t a (intMin t b c) := by
  unfold intMin; split_ifs <;> first | rfl | omega
theorem intMax_assoc (t : Ty) (a b c : Nat) : intMax t (intMax t a b) c = intMax t a (intMax t b c) := by
  unfold intMax; split_ifs <;> first | rfl | omega

theorem foldAll_pick (f : Nat → Nat → Nat) (le : Nat → Nat → Prop) (hp : ∀ a b, f a b = a ∨ f a b = b) (h1 : ∀ a b, le (f a b) a) (h2 : ∀ a b, le (f a b) b)
    (rf : ∀ a, le a a) (tr : ∀ a b c, le a b → le b c → le a c) (l : List Nat) (hl : l ≠ []) :
    ((foldAll f l).getD (0, 0)).1 ∈ l ∧ ∀ y ∈ l, le ((foldAll f l).getD (0, 0)).1 y := by
  have main : ∀ (l : List Nat) (a : Nat), (l.foldl f a = a ∨ l.foldl f a ∈ l) ∧ le (l.foldl f a) a ∧ ∀ y ∈ l, le (l.foldl f a) y := by
    intro l
    induction l with
    | nil => intro a; exact ⟨.inl rfl, rf a, by simp⟩
    | cons x l ih =>
      intro a
      obtain ⟨p, q, r⟩ := ih (f a x)
      rw [List.foldl_cons]
      refine ⟨?_, tr _ _ _ q (h1 a x), ?_⟩
      · rcases p with p | p
        · rw [p]; rcases hp a x with g | g
          · exact .inl g
          · exact .inr (by rw [g]; simp)
        · exact .inr (by simp [p])
      · intro y hy
        rcases List.mem_cons.1 hy with g | g
        · subst g; exact tr _ _ _ q (h2 a _)
        · exact r y g
  cases l with
  | nil => exact absurd rfl hl
  | cons a l =>
    obtain ⟨p, q, r⟩ := main l a
    simp only [foldAll, Option.getD_some]
    refine ⟨by rcases p with p | p <;> simp [p], ?_⟩
    intro y hy
    rcases List.mem_cons.1 hy with g | g
    · subst g; exact q
    · exact r y g

/-! ### Bitwise -/

theorem foldAll_bits (f : Nat → Nat → Nat) (g : Bool → Bool → Bool) (hf : ∀ a b j, (f a b).testBit j = g (a.testBit j) (b.testBit j)) (l : List Nat) (a j : Nat) :
    (l.foldl f a).testBit j = (l.map (·.testBit j)).foldl g (a.testBit j) := by
  induction l generalizing a with
  | nil => rfl
  | cons x l ih => rw [List.foldl_cons, ih, List.map_cons, List.foldl_cons, hf]

end Sys2Proof.Machine
end

