-- ==== Sys2Proof/Tests/Slice0.lean ====
section
/-!
SUPPORT. Tests, and witnesses of the hypotheses of the statements. Expected values are written out from the spec's encoding
tables and worked examples, or computed by hand from its rules.
-/

namespace Sys2Proof.Tests

open Sys2Proof Sys2Proof.Machine

set_option maxRecDepth 4000
set_option Elab.async false

/-! ## Words (spec/02_encoding.md R43 to R57) -/

/-- OP 0x01 to 0x1E: integer arithmetic, logic and shifts. The first two words of `add` and the word of `shl` stand in the spec. -/
theorem test_words_integer :
    decodeTotal 0x0100_0000_0000_0000 0 = .nop
    ∧ decodeTotal 0x1000_0301_0200_2100 0 = .add false { k := 2, ty := .i32, d := .vec 3, a := .vec 1, b := .vec 2 }
    ∧ decodeTotal 0x1080_0505_8100_0100 0 = .add false { k := 0, ty := .i32, d := .sca 5, a := .sca 5, b := .con .one }
    ∧ decodeTotal 0x1100_0405_0600_0284 0 = .sub true { k := 0, ty := .n32, d := .vec 4, a := .sca 5, b := .vec 6 }
    ∧ decodeTotal 0x1200_0204_0600_0400 0 = .mul false { k := 0, ty := .i64, d := .vec 2, a := .vec 4, b := .vec 6 }
    ∧ decodeTotal 0x1300_0204_0600_F500 0 = .mulh { k := 15, ty := .n64, d := .vec 2, a := .vec 4, b := .vec 6 }
    ∧ decodeTotal 0x1400_0102_0304_0104 0 = .mad true { k := 0, ty := .i32, d := .vec 1, a := .vec 2, b := .vec 3, c := .vec 4 }
    ∧ decodeTotal 0x1500_0708_0900_0240 0 = .min { k := 0, ty := .n32, d := .vec 7, a := .vec 8, b := .sca 9 }
    ∧ decodeTotal 0x1680_0102_8600_0100 0 = .max { k := 0, ty := .i32, d := .sca 1, a := .sca 2, b := .con .m1 }
    ∧ decodeTotal 0x1700_0204_0000_0404 0 = .abs true { k := 0, ty := .i64, d := .vec 2, a := .vec 4 }
    ∧ decodeTotal 0x1800_0102_0300_0000 0 = .and { k := 0, ty := .b32, d := .vec 1, a := .vec 2, b := .vec 3 }
    ∧ decodeTotal 0x1900_FF02_0300_1000 0 = .or { k := 1, ty := .b32, d := .vec 255, a := .vec 2, b := .vec 3 }
    ∧ decodeTotal 0x1A00_0406_0800_0500 0 = .xor { k := 0, ty := .n64, d := .vec 4, a := .vec 6, b := .vec 8 }
    ∧ decodeTotal 0x1B00_0102_0300_0100 0 = .andn { k := 0, ty := .i32, d := .vec 1, a := .vec 2, b := .vec 3 }
    ∧ decodeTotal 0x1C00_0A81_0100_0080 0 = .shl { k := 0, ty := .b32, d := .vec 10, a := .con .one, b := .vec 1 }
    ∧ decodeTotal 0x1D00_0102_0300_0140 0 = .shr { k := 0, ty := .i32, d := .vec 1, a := .vec 2, b := .sca 3 }
    ∧ decodeTotal 0x1E00_0102_8400_0240 0 = .rot { k := 0, ty := .n32, d := .vec 1, a := .vec 2, b := .con .eight } := by
  exact ⟨rfl, rfl, rfl, rfl, rfl, rfl, rfl, rfl, rfl, rfl, rfl, rfl, rfl, rfl, rfl, rfl, rfl⟩

/-- OP 0x1F to 0x2C: division, bit fields, selection, comparison, moves, carry. `bfe`, `cmp.lt`, `cmp.ge` and `movx.uni` stand in
the spec. -/
theorem test_words_fields_and_moves :
    decodeTotal 0x1F00_0102_0300_0100 0 = .divQuo { k := 0, ty := .i32, d := .vec 1, a := .vec 2, b := .vec 3 }
    ∧ decodeTotal 0x1F01_0204_0600_0500 0 = .divRem { k := 0, ty := .n64, d := .vec 2, a := .vec 4, b := .vec 6 }
    ∧ decodeTotal 0x2000_0104_0000_0400 0 = .clz { k := 0, ty := .i64, d := .vec 1, a := .vec 4 }
    ∧ decodeTotal 0x2100_0102_0000_0000 0 = .popc { k := 0, ty := .b32, d := .vec 1, a := .vec 2 }
    ∧ decodeTotal 0x2280_0102_0000_0500 0 = .brev { k := 0, ty := .n64, d := .sca 1, a := .sca 2 }
    ∧ decodeTotal 0x2300_0604_0E00_0240 0 = .bfe { k := 0, ty := .n32, d := .vec 6, a := .vec 4, b := .sca 14 }
    ∧ decodeTotal 0x2400_0102_0304_0000 0 = .bfi { k := 0, ty := .b32, d := .vec 1, a := .vec 2, b := .vec 3, c := .vec 4 }
    ∧ decodeTotal 0x2500_0102_8103_0340 0 = .sel 3 { k := 0, ty := .f32, d := .vec 1, a := .vec 2, b := .con .one }
    ∧ decodeTotal 0x2600_0102_0300_0000 0 = .cmpEq { k := 0, ty := .b32, d := 1, a := .vec 2, b := .vec 3 }
    ∧ decodeTotal 0x2601_0204_0600_0400 0 = .cmpNe { k := 0, ty := .i64, d := 2, a := .vec 4, b := .vec 6 }
    ∧ decodeTotal 0x2602_020D_1700_0140 0 = .cmpLt { k := 0, ty := .i32, d := 2, a := .vec 13, b := .sca 23 }
    ∧ decodeTotal 0x2603_0301_0200_4200 0 = .cmpLe { k := 4, ty := .n32, d := 3, a := .vec 1, b := .vec 2 }
    ∧ decodeTotal 0x2604_0102_0300_0100 0 = .cmpGt { k := 0, ty := .i32, d := 1, a := .vec 2, b := .vec 3 }
    ∧ decodeTotal 0x2605_0203_1100_0140 0 = .cmpGe { k := 0, ty := .i32, d := 2, a := .vec 3, b := .sca 17 }
    ∧ decodeTotal 0x2700_0204_0000_0680 0 = .mov { k := 0, ty := .f64, d := .vec 2, a := .sca 4 }
    ∧ decodeTotal 0x2800_0100_0000_0005 0 = .movi (.vec 1) false false 5
    ∧ decodeTotal 0x2801_0201_FFFF_FFFF 0 = .movi (.vec 2) true true 0xFFFFFFFF
    ∧ decodeTotal 0x2881_0300_8000_0000 0 = .movi (.sca 3) false true 0x80000000
    ∧ decodeTotal 0x29C0_0700_0000_0500 0x1_8000_0000 = .movx 0 .n64 (.sca 7) 0x180000000
    ∧ decodeTotal 0x2940_0200_0000_1600 1 = .movx 1 .f64 (.vec 2) 1
    ∧ decodeTotal 0x2A00_0204_0703_0400 0 = .lea 3 { k := 0, ty := .i64, d := .vec 2, a := .vec 4, b := .vec 7 }
    ∧ decodeTotal 0x2B00_0102_0305_0200 0 = .addc 5 { k := 0, ty := .n32, d := .vec 1, a := .vec 2, b := .vec 3 }
    ∧ decodeTotal 0x2C00_0204_0600_0400 0 = .subb 0 { k := 0, ty := .i64, d := .vec 2, a := .vec 4, b := .vec 6 } := by
  exact ⟨rfl, rfl, rfl, rfl, rfl, rfl, rfl, rfl, rfl, rfl, rfl, rfl, rfl, rfl, rfl, rfl, rfl, rfl, rfl, rfl, rfl, rfl, rfl⟩

/-- OP 0x30 to 0x44: floating point, conversion and packing. `fma`, `fex2`, `cvt` and `pack` stand in the spec. -/
theorem test_words_float :
    decodeTotal 0x3000_0102_0300_0300 0 = .fadd .near false { k := 0, ty := .f32, d := .vec 1, a := .vec 2, b := .vec 3 }
    ∧ decodeTotal 0x3100_0204_0600_0607 0 = .fsub .down true { k := 0, ty := .f64, d := .vec 2, a := .vec 4, b := .vec 6 }
    ∧ decodeTotal 0x3200_0102_0300_0702 0 = .fmul .up false { k := 0, ty := .f16, d := .vec 1, a := .vec 2, b := .vec 3 }
    ∧ decodeTotal 0x3300_0809_040A_0341 0 = .fma .zero false { k := 0, ty := .f32, d := .vec 8, a := .vec 9, b := .sca 4, c := .vec 10 }
    ∧ decodeTotal 0x3400_0102_0300_0800 0 = .fmin { k := 0, ty := .bf16, d := .vec 1, a := .vec 2, b := .vec 3 }
    ∧ decodeTotal 0x3500_0102_0300_0380 0 = .fmax { k := 0, ty := .f32, d := .vec 1, a := .sca 2, b := .vec 3 }
    ∧ decodeTotal 0x3600_0102_0300_0300 0 = .fcmpEq { k := 0, ty := .f32, d := 1, a := .vec 2, b := .vec 3 }
    ∧ decodeTotal 0x3601_0102_0300_0300 0 = .fcmpNe { k := 0, ty := .f32, d := 1, a := .vec 2, b := .vec 3 }
    ∧ decodeTotal 0x3602_0102_0300_0300 0 = .fcmpLt { k := 0, ty := .f32, d := 1, a := .vec 2, b := .vec 3 }
    ∧ decodeTotal 0x3603_0102_0300_0300 0 = .fcmpLe { k := 0, ty := .f32, d := 1, a := .vec 2, b := .vec 3 }
    ∧ decodeTotal 0x3604_0102_0300_0300 0 = .fcmpGt { k := 0, ty := .f32, d := 1, a := .vec 2, b := .vec 3 }
    ∧ decodeTotal 0x3605_0102_0300_0300 0 = .fcmpGe { k := 0, ty := .f32, d := 1, a := .vec 2, b := .vec 3 }
    ∧ decodeTotal 0x3606_0102_0300_0300 0 = .fcmpOrd { k := 0, ty := .f32, d := 1, a := .vec 2, b := .vec 3 }
    ∧ decodeTotal 0x3607_0102_0300_0300 0 = .fcmpUno { k := 0, ty := .f32, d := 1, a := .vec 2, b := .vec 3 }
    ∧ decodeTotal 0x3700_0102_0000_0600 0 = .fcls { k := 0, ty := .f64, d := .vec 1, a := .vec 2 }
    ∧ decodeTotal 0x3800_0102_0000_0301 0 = .frnd .zero { k := 0, ty := .f32, d := .vec 1, a := .vec 2 }
    ∧ decodeTotal 0x3900_0102_0300_0304 0 = .fdiv .near true { k := 0, ty := .f32, d := .vec 1, a := .vec 2, b := .vec 3 }
    ∧ decodeTotal 0x3A00_0204_0000_0600 0 = .fsqrt .near { k := 0, ty := .f64, d := .vec 2, a := .vec 4 }
    ∧ decodeTotal 0x3B80_0102_0000_0300 0 = .frcp .near { k := 0, ty := .f32, d := .sca 1, a := .sca 2 }
    ∧ decodeTotal 0x3C00_0102_0000_0700 0 = .frsq .near { k := 0, ty := .f16, d := .vec 1, a := .vec 2 }
    ∧ decodeTotal 0x3D00_0C0D_0000_4300 0 = .fex2 .near { k := 4, ty := .f32, d := .vec 12, a := .vec 13 }
    ∧ decodeTotal 0x3E00_0102_0000_0300 0 = .flg2 .near { k := 0, ty := .f32, d := .vec 1, a := .vec 2 }
    ∧ decodeTotal 0x3F00_0102_0000_0300 0 = .ftrigSin .near { k := 0, ty := .f32, d := .vec 1, a := .vec 2 }
    ∧ decodeTotal 0x3F01_0102_0000_0300 0 = .ftrigCos .near { k := 0, ty := .f32, d := .vec 1, a := .vec 2 }
    ∧ decodeTotal 0x4000_0506_0001_0308 0 = .cvt .near false { k := 0, d := .vec 5, a := .vec 6, dst := .ty .f32, src := .int .i32 }
    ∧ decodeTotal 0x4000_0102_0000_0D10 0 = .cvt .near false { k := 0, d := .vec 1, a := .vec 2, dst := .h6, src := .f32 }
    ∧ decodeTotal 0x4000_0102_0001_0B0C 0 = .cvt .near true { k := 0, d := .vec 1, a := .vec 2, dst := .ty .i8, src := .int .i32 }
    ∧ decodeTotal 0x4100_0602_0100_0C00 0 = .pack 1 { k := 0, ty := .n8, d := .vec 6, a := .vec 2 }
    ∧ decodeTotal 0x4200_0102_0100_0700 0 = .unpack 1 { k := 0, ty := .f16, d := .vec 1, a := .vec 2 }
    ∧ decodeTotal 0x4300_0102_0300_0340 0 = .fscale .near false { k := 0, ty := .f32, d := .vec 1, a := .vec 2, b := .sca 3 }
    ∧ decodeTotal 0x4400_0102_0000_0300 0 = .fexp { k := 0, ty := .f32, d := .vec 1, a := .vec 2 } := by
  exact ⟨rfl, rfl, rfl, rfl, rfl, rfl, rfl, rfl, rfl, rfl, rfl, rfl, rfl, rfl, rfl, rfl, rfl, rfl, rfl, rfl, rfl, rfl, rfl, rfl, rfl, rfl, rfl,
    rfl, rfl, rfl, rfl⟩

/-- OP 0x50 to 0x5F: lanes and masks. `scan.add` and `match` stand in the spec. -/
theorem test_words_lanes_and_masks :
    decodeTotal 0x5000_0102_0300_0000 0 = .shflIdx { k := 0, ty := .b32, d := 1, a := 2, b := .vec 3 }
    ∧ decodeTotal 0x5001_0204_8500_0440 0 = .shflXor { k := 0, ty := .i64, d := 2, a := 4, b := .con .sixteen }
    ∧ decodeTotal 0x5002_0102_0300_0000 0 = .shflUp { k := 0, ty := .b32, d := 1, a := 2, b := .vec 3 }
    ∧ decodeTotal 0x5003_1436_8400_0040 0 = .shflDown { k := 0, ty := .b32, d := 20, a := 54, b := .con .eight }
    ∧ decodeTotal 0x5100_0102_1F00_0000 0 = .bcast { k := 0, ty := .b32, d := .vec 1, a := 2, n := .lit 31 }
    ∧ decodeTotal 0x5100_0304_0500_0518 0 = .bcast { k := 0, ty := .n64, d := .sca 3, a := 4, n := .sca 5 }
    ∧ decodeTotal 0x5200_1312_0000_0100 0 = .scanAdd .near false { k := 0, ty := .i32, d := 19, a := .vec 18 }
    ∧ decodeTotal 0x5201_0204_0000_0600 0 = .scanMin { k := 0, ty := .f64, d := 2, a := .vec 4 }
    ∧ decodeTotal 0x5202_0102_0000_0200 0 = .scanMax { k := 0, ty := .n32, d := 1, a := .vec 2 }
    ∧ decodeTotal 0x5203_0102_0000_0000 0 = .scanAnd { k := 0, ty := .b32, d := 1, a := .vec 2 }
    ∧ decodeTotal 0x5204_0102_0000_0000 0 = .scanOr { k := 0, ty := .b32, d := 1, a := .vec 2 }
    ∧ decodeTotal 0x5205_0102_0000_0000 0 = .scanXor { k := 0, ty := .b32, d := 1, a := .vec 2 }
    ∧ decodeTotal 0x5301_0102_0000_0100 0 = .redMin { k := 0, ty := .i32, d := .vec 1, a := .vec 2 }
    ∧ decodeTotal 0x5302_0102_0000_0108 0 = .redMax { k := 0, ty := .i32, d := .sca 1, a := .vec 2 }
    ∧ decodeTotal 0x5303_0102_0000_0000 0 = .redAnd { k := 0, ty := .b32, d := .vec 1, a := .vec 2 }
    ∧ decodeTotal 0x5304_0102_0000_0000 0 = .redOr { k := 0, ty := .b32, d := .vec 1, a := .vec 2 }
    ∧ decodeTotal 0x5305_0102_0000_0000 0 = .redXor { k := 0, ty := .b32, d := .vec 1, a := .vec 2 }
    ∧ decodeTotal 0x5400_0806_0000_0000 0 = .matchEq 0 false 8 6
    ∧ decodeTotal 0x5500_0102_0000_0500 0 = .lanes 0 true 1 2
    ∧ decodeTotal 0x5600_0102_1000_0000 0 = .kand (.k 1) (.k 2) .exec
    ∧ decodeTotal 0x5700_1001_0200_0000 0 = .kor .exec (.k 1) (.k 2)
    ∧ decodeTotal 0x5800_0102_0300_0000 0 = .kxor (.k 1) (.k 2) (.k 3)
    ∧ decodeTotal 0x5900_0102_0300_0000 0 = .kandn (.k 1) (.k 2) (.k 3)
    ∧ decodeTotal 0x5A00_0110_0000_0000 0 = .knot (.k 1) .exec
    ∧ decodeTotal 0x5B00_0102_0000_0000 0 = .kmov (.mm (.k 1) (.k 2))
    ∧ decodeTotal 0x5B00_0503_0000_0008 0 = .kmov (.ms 5 (.k 3))
    ∧ decodeTotal 0x5B00_0304_0000_0010 0 = .kmov (.sm (.k 3) 4)
    ∧ decodeTotal 0x5C00_0503_0000_0000 0 = .kpop 5 (.k 3)
    ∧ decodeTotal 0x5D00_0110_0000_0000 0 = .kfind 1 .exec
    ∧ decodeTotal 0x5E00_0803_0000_0200 0 = .krank 0 8 (.k 3)
    ∧ decodeTotal 0x5F00_1000_4000_0000 0 = .kset .exec 0 64 := by
  exact ⟨rfl, rfl, rfl, rfl, rfl, rfl, rfl, rfl, rfl, rfl, rfl, rfl, rfl, rfl, rfl, rfl, rfl, rfl, rfl, rfl, rfl, rfl, rfl, rfl, rfl, rfl, rfl,
    rfl, rfl, rfl, rfl⟩

/-- OP 0x60 to 0x6A and 0xB0 to 0xB4: flow, barriers, spawning. `bany`, `calli` and two of `bar` stand in the spec. -/
theorem test_words_flow :
    decodeTotal 0x6000_0000_0000_0001 0 = .br 1
    ∧ decodeTotal 0x6100_40FF_FFFF_FFFC 0 = .bany 4 0xFFFFFFFFFC
    ∧ decodeTotal 0x6200_1000_0000_0002 0 = .ball 1 2
    ∧ decodeTotal 0x6300_0000_0000_0001 0 = .bnone 0 1
    ∧ decodeTotal 0x6400_0000_0000_0004 0 = .split 4
    ∧ decodeTotal 0x6500_0000_0000_0000 0 = .join
    ∧ decodeTotal 0x6600_0000_0000_0005 0 = .call 5
    ∧ decodeTotal 0x6700_0014_0000_0000 0 = .calli 20
    ∧ decodeTotal 0x6800_0000_0000_0000 0 = .ret
    ∧ decodeTotal 0x6900_0000_0000_0000 0 = .exit
    ∧ decodeTotal 0x6A00_0009_0000_0000 0 = .brx 9
    ∧ decodeTotal 0xB000_0083_0C00_0000 0 = .barArrive false (.con .four) (.sca 12)
    ∧ decodeTotal 0xB001_0082_0000_0000 0 = .barWait (.con .two)
    ∧ decodeTotal 0xB002_0081_0C00_0000 0 = .barSync false (.con .one) (.sca 12)
    ∧ decodeTotal 0xB140_0002_0300_0000 0x0100_0000_0000_0007 = .spawn 1 2 (.sca 3) 7
    ∧ decodeTotal 0xB200_0000_0000_0008 0 = .ralloc 8
    ∧ decodeTotal 0xB300_0000_0000_00F8 0 = .rfree 248
    ∧ decodeTotal 0xB400_0000_0000_0000 0 = .yield := by
  exact ⟨rfl, rfl, rfl, rfl, rfl, rfl, rfl, rfl, rfl, rfl, rfl, rfl, rfl, rfl, rfl, rfl, rfl, rfl⟩

/-- OP 0x70 to 0x7F: memory, atomics, coffers, guards. The first `ld`, the first `st`, `ldlod`, `wcnt.ld`, `cfadd` and `gacq` stand
in the spec. -/
theorem test_words_memory :
    let m : OpM := { uni := false, addr := .base 8, off := 0, ty := .n32, k := 0, scope := .wave, strm := false }
    let o : OpAtom := { m, d := some (.vec 5), b := .vec 6, c := none, acq := false, rel := false }
    decodeTotal 0x7030_0406_0200_8330 0 = .ld (.vec 4) { uni := false, addr := .idx 6 2 true, off := 8, ty := .f32, k := 3, scope := .wave, strm := false }
    ∧ decodeTotal 0x7000_0102_0000_0000 0 = .ld (.vec 1) { uni := false, addr := .pair 2, off := 0, ty := .b32, k := 0, scope := .wave, strm := false }
    ∧ decodeTotal 0x70A0_0102_0300_1500 0 = .ld (.sca 1) { uni := true, addr := .uidx 2 3 false, off := 1, ty := .n64, k := 0, scope := .wave, strm := false }
    ∧ decodeTotal 0x7130_0C12_0700_0010 0 = .st (.vec 12) { uni := false, addr := .idx 18 7 true, off := 0, ty := .b32, k := 1, scope := .wave, strm := false }
    ∧ decodeTotal 0x7110_0102_00FF_F00A 0 = .st (.vec 1) { uni := false, addr := .base 2, off := 0xFFF, ty := .b32, k := 0, scope := .system, strm := false }
    ∧ decodeTotal 0x7250_1404_0600_0000 0x0708_0000_0000_0000 =
        .ldlod { k := 0, wide := false, strm := false, d := 20, sh := 4, vc := 6, ve0 := 7, ve1 := 8, au := false, av := false }
    ∧ decodeTotal 0x7310_0002_0000_0015 0 = .pref { uni := false, addr := .base 2, off := 0, ty := .b32, k := 1, scope := .cell, strm := true }
    ∧ decodeTotal 0x7410_0108_0000_0200 0 = .l2pinPin 1 m
    ∧ decodeTotal 0x7411_0108_0000_0200 0 = .l2pinUnpin 1 m
    ∧ decodeTotal 0x7600_0000_0000_0000 0 = .ifence
    ∧ decodeTotal 0x7700_0000_0000_0040 0 = .wcntLd 64
    ∧ decodeTotal 0x7850_0508_0000_0200 0x0600_0000_0000_0001 = .atomAdd { o with acq := true }
    ∧ decodeTotal 0x7851_0008_0000_0600 0x0600_0000_0000_0004 = .atomFadd { o with m := { m with ty := .f64 }, d := none }
    ∧ decodeTotal 0x7852_0508_0000_0200 0x0600_0000_0000_0000 = .atomMin o
    ∧ decodeTotal 0x7853_0508_0000_0200 0x0600_0000_0000_0000 = .atomMax o
    ∧ decodeTotal 0x7854_0508_0000_0200 0x0600_0000_0000_0000 = .atomAnd o
    ∧ decodeTotal 0x7855_0508_0000_0200 0x0600_0000_0000_0000 = .atomOr o
    ∧ decodeTotal 0x7856_0508_0000_0200 0x0600_0000_0000_0000 = .atomXor o
    ∧ decodeTotal 0x7857_0508_0000_0200 0x0600_0000_0000_0000 = .atomXchg o
    ∧ decodeTotal 0x7858_0508_0000_0200 0x0607_0000_0000_0000 = .atomCas { o with c := some (.vec 7) }
    ∧ decodeTotal 0x7859_0508_0000_0200 0x0600_0000_0000_0000 = .atomInc o
    ∧ decodeTotal 0x7940_0405_0203_0300 0 = .cfadd { k := 0, wide := false, d := 4, a := 5, b := .vec 2, c := 3, rel := false, scope := .wave }
    ∧ decodeTotal 0x7A40_0102_0000_0600 0x0300_0000_0000_0041 = .cfread { wide := true, d := 1, a := 2, e := 3, acq := true, scope := .device }
    ∧ decodeTotal 0x7C00_0102_0304_0000 0 = .gbindBind 1 2 3 4
    ∧ decodeTotal 0x7C01_0102_0000_0000 0 = .gbindUnbind 1 2
    ∧ decodeTotal 0x7D00_0703_0000_0020 0 = .gacq .device 7 3
    ∧ decodeTotal 0x7D01_0000_0000_0010 0 = .gacqAll .cell
    ∧ decodeTotal 0x7E00_0703_0000_0028 0 = .grel .system 7 3
    ∧ decodeTotal 0x7F00_0001_0200_0000 0 = .gwait 1 2 := by
  exact ⟨rfl, rfl, rfl, rfl, rfl, rfl, rfl, rfl, rfl, rfl, rfl, rfl, rfl, rfl, rfl, rfl, rfl, rfl, rfl, rfl, rfl, rfl, rfl, rfl, rfl, rfl, rfl, rfl,
    rfl⟩

/-- OP 0x80 to 0x8A and 0xC6: engines, batches and receipts. `cp.ms`, `cp.mo.fo`, the second `waitb` and `qmov.st` stand in the
spec. -/
theorem test_words_engines :
    let o : OpCp := { q := 2, d := 10, a := 11, b := 12, e3 := none, lay := false, fo := none, q1 := false, hs := false, hd := false }
    let c : OpColl := { q := 1, d := 10, a := 11, b := 12, c := 13, e2 := 14, ty := .f32 }
    decodeTotal 0x8040_0A0B_0C00_0008 0x0200_0009_0000_0004 = .cpMm { o with e3 := some 9, hs := true }
    ∧ decodeTotal 0x8041_0A0B_0C00_0000 0x0200_0000_0000_0000 = .cpMs o
    ∧ decodeTotal 0x8042_0A0B_0C00_0000 0x0200_0000_0000_0008 = .cpSm { o with hd := true }
    ∧ decodeTotal 0x8043_0A0B_0C00_0020 0x0114_0E00_0000_0000 = .cpMo { o with q := 1, fo := some (20, 14) }
    ∧ decodeTotal 0x8044_0A0B_0C00_0000 0x0200_0000_0000_0000 = .cpOm o
    ∧ decodeTotal 0x8045_0A0B_0C00_0010 0x0200_0000_0000_0000 = .cpSo { o with lay := true }
    ∧ decodeTotal 0x8046_0A0B_0C00_0000 0x0200_0000_0000_0001 = .cpOs { o with q1 := true }
    ∧ decodeTotal 0x8140_0A0B_0C0D_0008 0x0100_000E_0000_0000 =
        .cpg { q := 1, d := 10, a := 11, b := 12, c := 13, e3 := 14, o := true, q1 := false, hs := false, hd := false }
    ∧ decodeTotal 0x8240_0A0B_0C0D_0300 0x0100_0E00_0000_0000 = .collSum c
    ∧ decodeTotal 0x8241_0A0B_0C0D_0300 0x0100_0E00_0000_0000 = .collMin c
    ∧ decodeTotal 0x8242_0A0B_0C0D_0300 0x0100_0E00_0000_0000 = .collMax c
    ∧ decodeTotal 0x8243_0A0B_0C0D_0B00 0x0100_0E00_0000_0000 = .collGather { c with ty := .i8 }
    ∧ decodeTotal 0x8244_0A0B_0C0D_0000 0x0100_0E00_0000_0000 = .collBcast { c with ty := .b32 }
    ∧ decodeTotal 0x8300_0000_0000_0000 0 = .seal none
    ∧ decodeTotal 0x8300_0300_0000_0008 0 = .seal (some 3)
    ∧ decodeTotal 0x8400_0008_0000_0002 0 = .waitb (.sca 8) 2
    ∧ decodeTotal 0x8500_0003_0000_0000 0 = .qwait none 3
    ∧ decodeTotal 0x8500_0103_0000_0008 0 = .qwait (some 1) 3
    ∧ decodeTotal 0x8600_0103_0000_0000 0 = .qtest 1 3
    ∧ decodeTotal 0x8700_0003_0000_0000 0 = .qcan 3
    ∧ decodeTotal 0x8800_0103_0000_0000 0 = .qdue 1 3
    ∧ decodeTotal 0x8900_0003_0000_0000 0 = .sleep 3
    ∧ decodeTotal 0x8A00_0610_0000_0000 0 = .qmovSt 16 6
    ∧ decodeTotal 0x8A01_0610_0000_0000 0 = .qmovLd 6 16
    ∧ decodeTotal 0xC600_0000_0000_0000 0 = .rmsync := by
  exact ⟨rfl, rfl, rfl, rfl, rfl, rfl, rfl, rfl, rfl, rfl, rfl, rfl, rfl, rfl, rfl, rfl, rfl, rfl, rfl, rfl, rfl, rfl, rfl, rfl, rfl⟩

/-- OP 0x90 to 0x99: the matrix array. `mmul` and `omld` stand in the spec. -/
theorem test_words_matrix :
    decodeTotal 0x9000_0502_0100_0000 0 = .omclaim 5 2 1
    ∧ decodeTotal 0x9100_0002_0100_0000 0 = .omrel 2 1
    ∧ decodeTotal 0x9800_0000_3000_0000 0 = .omzero 0 48
    ∧ decodeTotal 0x9540_0A00_0900_0300 0 = .omld { k := 0, ty := .f32, d := 10, a := 0, b := 9, off := 0 }
    ∧ decodeTotal 0x9640_0201_0400_1500 0x10 = .omst { k := 1, ty := .n64, d := 2, a := 1, b := 4, off := 16 }
    ∧ decodeTotal 0x9240_0003_0504_0030 0x0104_0000_0000_0002 =
        .wload { q := 1, a := 3, fmt := .h8, sp := 4, scale := some { slot := 5, soff := 2 }, cont := true }
    ∧ decodeTotal 0x9340_0003_0000_0000 0x0104_0000_0000_0080 = .wmint { q := 1, a := 3, off := 2, sp := 4, cont := false }
    ∧ decodeTotal 0x9440_0800_0003_0008 0x0114_0000_0000_003F =
        .mmul { q := 1, d := 8, a := 0, fmt := .bf16, m := 63, sp := 20, scale := none, cont := false, z := true }
    ∧ decodeTotal 0x9740_0203_0404_0020 0x0109_0A06_0040_2386 =
        .mseek { q := 1, d := 2, a := 3, b := 4, nc := 4, sp := 9, sb := 10, j := 6, kd := 6, nd := 7, roff := 1, boff := 2, cont := true }
    ∧ decodeTotal 0x9940_0003_0000_0000 1 = .vqtab 3 1
    ∧ decodeTotal 0x9940_0000_0000_0008 0 = .vqtabClr := by
  exact ⟨rfl, rfl, rfl, rfl, rfl, rfl, rfl, rfl, rfl, rfl, rfl⟩

/-- OP 0xA0 to 0xAA: macros and queues. `rast`, `oblend`, `filt`, `trav.any`, `psalloc` and `sqpush` stand in the spec. -/
theorem test_words_macros_and_queues :
    let o : OpMac := { w := 40, sp := 20, sr := 21, cont := false }
    let t : OpTrav := { m := { w := 64, sp := 30, sr := 31, cont := false }, a := 8, k := 2 }
    decodeTotal 0xA040_0000_0000_0000 0x2814_1500_0000_0000 = .rast o
    ∧ decodeTotal 0xA040_0000_0000_0020 0x2814_1500_0000_0000 = .rast { o with cont := true }
    ∧ decodeTotal 0xA140_0000_0000_0000 0x100C_0D00_0000_0000 = .oblend { w := 16, sp := 12, sr := 13, cont := false }
    ∧ decodeTotal 0xA240_0004_0000_1000 0x500A_0B00_0000_0012 =
        .filt { m := { w := 80, sp := 10, sr := 11, cont := false }, a := 4, k := 1, filt := .trilinear, amax := 0, au := true, av := false }
    ∧ decodeTotal 0xA340_0008_0000_2000 0x401E_1F00_0000_0000 = .travClosest t
    ∧ decodeTotal 0xA341_0008_0000_2000 0x401E_1F00_0000_0000 = .travAny t
    ∧ decodeTotal 0xA342_0008_0000_2000 0x401E_1F00_0000_0000 = .travBox t
    ∧ decodeTotal 0xA343_0008_0000_2000 0x401E_1F00_0000_0000 = .travSphere t
    ∧ decodeTotal 0xA440_0003_0000_0000 0x0804_0500_0000_0000 = .bvrefit { m := { w := 8, sp := 4, sr := 5, cont := false }, a := 3 }
    ∧ decodeTotal 0xA500_0102_0304_0010 0 = .gqpushOpen 1 2 3 4
    ∧ decodeTotal 0xA500_0402_0309_1000 0 = .gqpushVtx 1 4 2 3 9
    ∧ decodeTotal 0xA500_0402_0309_1008 0 = .gqpushPrim 1 4 2 3 9
    ∧ decodeTotal 0xA500_0002_0300_0018 0 = .gqpushClose 2 3
    ∧ decodeTotal 0xA600_0102_0000_0000 0 = .gqpopTake 1 2
    ∧ decodeTotal 0xA600_0402_0009_1008 0 = .gqpopRec 1 4 2 9
    ∧ decodeTotal 0xA600_0002_0300_0010 0 = .gqpopFree 2 3
    ∧ decodeTotal 0xA700_0A00_0003_0200 0 = .psalloc 0 10 3
    ∧ decodeTotal 0xA800_000A_0003_0200 0 = .psfree 0 10 3
    ∧ decodeTotal 0xA900_000C_0302_0200 0 = .sqpush 0 12 3 2
    ∧ decodeTotal 0xAA00_0C00_0302_0200 0 = .sqpop 0 12 3 2 := by
  exact ⟨rfl, rfl, rfl, rfl, rfl, rfl, rfl, rfl, rfl, rfl, rfl, rfl, rfl, rfl, rfl, rfl, rfl, rfl, rfl, rfl⟩

/-- OP 0xC0 to 0xC9: traps and the system. All but `brk`, `rdsr` of `LANEID`, `wrsr.ws`, `tlbinv.ctx` and `tlbinv.hnd` stand in the
spec. -/
theorem test_words_system :
    decodeTotal 0xC000_0000_0000_0005 0 = .trap 5
    ∧ decodeTotal 0xC000_0000_8000_0001 0 = .trapFatal 1
    ∧ decodeTotal 0xC300_0000_0000_0007 0 = .brk 7
    ∧ decodeTotal 0xC400_0000_0000_0010 0 = .svc 16
    ∧ decodeTotal 0xC100_0508_0000_0000 0 = .rdsr (.sca 5) .trapcause
    ∧ decodeTotal 0xC100_0501_0000_0000 0 = .rdsr (.vec 5) .laneid
    ∧ decodeTotal 0xC100_0D04_0000_0020 0 = .rdsrWindow (.ei0 13)
    ∧ decodeTotal 0xC100_0600_0000_0010 0 = .rdsrWindow (.wv 0 6 .wa 0)
    ∧ decodeTotal 0xC200_0003_0600_F010 0 = .wrsrWindow (.wv 15 .wd 6 0)
    ∧ decodeTotal 0xC200_0001_0602_0020 0 = .wrsrWindow (.ws .wb 6 2)
    ∧ decodeTotal 0xC200_000D_0900_0000 0 = .wrsr .agelim (.sca 9)
    ∧ decodeTotal 0xC500_040A_0B0C_0020 0 = .tlbinvRange true 4 10 11 12
    ∧ decodeTotal 0xC500_0400_000C_0008 0 = .tlbinvCtx false 4 12
    ∧ decodeTotal 0xC500_040A_0B0C_0010 0 = .tlbinvHnd 4 10 11 12
    ∧ decodeTotal 0xC700_2800_0000_0000 0 = .pmrd 40
    ∧ decodeTotal 0xC800_0005_0000_0000 0 = .pmctl 5
    ∧ decodeTotal 0xC900_0206_0700_0000 0 = .qrst 2 6 7 := by
  exact ⟨rfl, rfl, rfl, rfl, rfl, rfl, rfl, rfl, rfl, rfl, rfl, rfl, rfl, rfl, rfl, rfl, rfl⟩

/-- The fates of the words that the spec works out, and of the microcode space. -/
theorem test_words_undefined :
    decodeTotal 0 0 = .zeroWord
    ∧ decodeTotal 0x0000_0000_0000_0100 0 = .emulate .notOp
    ∧ decodeTotal 0xD300_0302_0100_0000 0 = .emulate .notOp
    ∧ decodeTotal 0x9400_0000_0000_0000 0 = .emulate .xBit
    ∧ decodeTotal 0x1F02_0302_0100_0100 0 = .emulate .field
    ∧ decodeTotal 0xE300_0000_0000_0000 0 = .microcodeOp 3 := by
  exact ⟨rfl, rfl, rfl, rfl, rfl, rfl⟩

/-! ## Well-formedness and the checks of R54 -/

/-! Operands of the terms that `Instr.wf` refuses. -/

def illU : Op1 := { k := 0, ty := .f64, d := .vec 1, a := .vec 2 }
def illO : Op2 := { k := 0, ty := .f32, d := .vec 1, a := .vec 2, b := .vec 3 }
def illI : Op2 := { illO with ty := .i32 }
def illQ : Op3 := { k := 0, ty := .f32, d := .vec 1, a := .vec 2, b := .vec 3, c := .vec 4 }
def illC : OpC := { k := 0, ty := .f32, d := 1, a := .vec 2, b := .vec 3 }
def illV : OpCvt := { k := 0, d := .vec 1, a := .vec 2, dst := .ty .i32, src := .int .i32 }
def illN : OpScan := { k := 0, ty := .f16, d := 1, a := .vec 2 }
def illR : OpRed := { k := 0, ty := .f16, d := .vec 1, a := .vec 2 }
def illL : OpShfl := { k := 0, ty := .f16, d := 1, a := 2, b := .con .one }
def illM : OpM := { uni := true, addr := .pair 2, off := 0, ty := .b32, k := 0, scope := .wave, strm := false }
def illG : OpM := { illM with uni := false, addr := .base 2 }
def illA (t : Ty) : OpAtom := { m := { illG with ty := t }, d := none, b := .vec 1, c := none, acq := false, rel := false }
def illP : OpCp := { q := 1, d := 126, a := 126, b := 2, e3 := none, lay := true, fo := none, q1 := false, hs := false, hd := false }
def illT : OpColl := { q := 1, d := 1, a := 2, b := 3, c := 4, e2 := 5, ty := .b32 }
def illOm : OpOm := { k := 0, ty := .b32, d := 1, a := 48, b := 2, off := 0 }
def illS : ScaleOp := { slot := 48, soff := 0 }
def illW : OpWload := { q := 0, a := 47, fmt := .f16, sp := 1, scale := some illS, cont := false }
def illX : OpMmul := { q := 0, d := 47, a := 47, fmt := .q4, m := 0, sp := 1, scale := none, cont := false, z := false }
def illY : OpMseek := { q := 0, d := 47, a := 47, b := 47, nc := 0, sp := 1, sb := 2, j := 17, kd := 0, nd := 0, roff := 0, boff := 0, cont := false }
def illInt2 : List (Op2 → Instr) := [.add false, .sub false, .mul false, .mulh, .min, .max, .divQuo, .divRem, .and, .or, .xor, .andn, .shl, .shr, .rot,
  .bfe, .lea 0, .addc 0, .subb 0]
def illFlt2 : List (Op2 → Instr) := [.fadd .near false, .fsub .near false, .fmul .near false, .fdiv .near false, .fmin, .fmax, .fscale .near false]
def illOne : List (Op1 → Instr) := [.abs false, .clz, .popc, .brev]
def illCmp : List (OpC → Instr) := [.cmpEq, .cmpNe, .cmpLt, .cmpLe, .cmpGt, .cmpGe]
def illFcmp : List (OpC → Instr) := [.fcmpEq, .fcmpNe, .fcmpLt, .fcmpLe, .fcmpGt, .fcmpGe, .fcmpOrd, .fcmpUno]
def illFlt1 : List (Op1 → Instr) := [.fcls, .fexp, .frnd .near, .fsqrt .near, .frcp .near, .frsq .near, .fex2 .near, .flg2 .near, .ftrigSin .near, .ftrigCos .near]
def illAtoms : List (OpAtom → Instr) := [.atomAdd, .atomMin, .atomMax, .atomAnd, .atomOr, .atomXor, .atomInc]

/-- Checks of `Instr.wf`: terms that they refuse. -/
theorem test_ill_formed_operations :
    List.all (illInt2.map (· illO) ++ illFlt2.map (· illI) ++ illOne.map (· illU) ++ illCmp.map (· illC) ++ illFcmp.map (· { illC with ty := .i32 }) ++ illFlt1.map (· { illU with ty := .i32 })) (fun (i : Instr) => !i.wf) = true := by decide

/-- Checks of `Instr.wf`: terms that they refuse. -/
theorem test_ill_formed_wide_operations :
    List.all ([.mad false illQ, .bfi illQ, .fma .near false { illQ with ty := .i32 }, .add false { illI with d := .sca 1 }, .add false { illI with b := .con .pi }, .mad false { illQ with ty := .i32, c := .sca 1 },
      .sel 0 { illI with d := .sca 1 }, .mov { illU with d := .sca 1 }, .movi (.vec 1) false true 0, .movi (.sca 1) true false 0, .movx 0 .i32 (.vec 1) 0]) (fun (i : Instr) => !i.wf) = true := by decide

/-- Checks of `Instr.wf`: terms that they refuse. -/
theorem test_ill_formed_conversions :
    List.all ([.cvt .up false illV, .cvt .near false { illV with dst := .ty .b32 }, .cvt .near true { illV with src := .f32 }, .cvt .near false { illV with src := .int .b32 }, .pack 0 illU, .pack 2 { illU with ty := .f16 },
      .unpack 2 { illU with ty := .i16 }, .shflIdx illL, .shflXor illL, .shflUp { illL with ty := .b32, b := .con .pi }, .shflDown illL, .bcast { k := 0, ty := .f16, d := .vec 1, a := 2, n := .lit 0 }]) (fun (i : Instr) => !i.wf) = true := by decide

/-- Checks of `Instr.wf`: terms that they refuse. -/
theorem test_ill_formed_reductions :
    List.all ([.scanAdd .near false illN, .scanAdd .near true { illN with ty := .f32 }, .redAdd .up false { illR with ty := .i32 }, .redAdd .near false illR, .scanMin illN, .scanMax illN, .redMin illR, .redMax illR,
      .scanAnd illN, .scanOr illN, .scanXor illN, .redAnd illR, .redOr illR, .redXor illR]) (fun (i : Instr) => !i.wf) = true := by decide

/-- Checks of `Instr.wf`: terms that they refuse. -/
theorem test_ill_formed_masks_barriers_and_spawns :
    List.all ([.kset (.k 1) 65 0, .kset (.k 1) 0 65, .barArrive true (.con .pi) (.con .zero), .barSync true (.con .zero) (.con .pi), .barWait (.con .pi), .spawn 0 1 (.con .one) 0,
      .spawnL 0 0 1 2 0, .ralloc 0, .ralloc 4, .rfree 255]) (fun (i : Instr) => !i.wf) = true := by decide

/-- Checks of `Instr.wf`: terms that they refuse. -/
theorem test_ill_formed_accesses :
    List.all ([.ld (.sca 1) illM, .ld (.sca 1) illG, .st (.sca 1) illG, .pref illM, .l2pinPin 1 { illG with scope := .block }, .l2pinUnpin 1 { illG with strm := true }, .wcntLd 65, .wcntSt 65]) (fun (i : Instr) => !i.wf) = true := by decide

/-- Checks of `Instr.wf`: terms that they refuse. -/
theorem test_ill_formed_atomics :
    List.all (illAtoms.map (· (illA .f32)) ++ [.atomFadd (illA .i32), .atomXchg (illA .f16), .atomCas (illA .b32), .atomAdd { illA .i32 with b := .sca 1 }, .atomAdd { illA .i32 with c := some (.vec 1) },
      .atomAdd { illA .i32 with d := some (.sca 1) }, .atomAdd { illA .i32 with m := { illG with ty := .i32, strm := true } }]) (fun (i : Instr) => !i.wf) = true := by decide

/-- Checks of `Instr.wf`: terms that they refuse. -/
theorem test_ill_formed_copies_and_collectives :
    List.all ([.cfadd { k := 0, wide := false, d := 1, a := 2, b := .con .pi, c := 3, rel := false, scope := .wave }, .cpMs illP, .cpOs illP, .cpSm illP, .cpSo illP,
      .cpMm { illP with lay := false, fo := some (1, 127) }, .cpMo { illP with lay := false, fo := some (1, 127) }, .cpOm { illP with lay := false, fo := some (1, 127) },
      .collSum illT, .collMin illT, .collMax illT, .waitb (.con .pi) 0]) (fun (i : Instr) => !i.wf) = true := by decide

/-- Checks of `Instr.wf`: terms that they refuse. -/
theorem test_ill_formed_matrix_and_special :
    List.all ([.omclaim 1 0 0, .omrel 47 2, .omzero 48 1, .omld illOm, .omst { illOm with a := 0, off := 786432 }, .wload illW, .wload { illW with fmt := .q4, scale := some { illS with slot := 0 } },
      .wmint { q := 0, a := 48, off := 0, sp := 1, cont := false }, .wmint { q := 0, a := 0, off := 254, sp := 1, cont := false }, .mmul illX, .mmul { illX with fmt := .f16, scale := some illS },
      .mseek illY, .mseek { illY with j := 0 }, .mseek { illY with j := 1, roff := 254 }, .vqtab 48 0, .rdsr (.sca 1) .laneid, .rdsr (.vec 1) .ccyc, .wrsr .ccyc (.sca 1), .wrsr .fpctl (.con .pi)]) (fun (i : Instr) => !i.wf) = true := by decide

/-- Test 5 of R54: a vector register at a wave's allowance, one below it, and a pair that ends beyond it. -/
theorem test_bounds :
    let w := { startWave loadLaunch 1 loadCtx 2 0 1 0 3 0 with allow := 8 }
    let x : Ctx := { part := 0, vf := 0, ctxid := 0xFFFF, desc := 0xA0000 }
    let f := fun (b : W64) => judged x w (decodeTotal b 0)
    f 0x1000_0801_0200_0100 = .emulate .bound ∧ f 0x1000_0701_0200_0100 = .add false { k := 0, ty := .i32, d := .vec 7, a := .vec 1, b := .vec 2 }
    ∧ f 0x1000_0701_0200_0400 = .emulate .bound ∧ judged x w (.ralloc 248) = .ralloc 248 ∧ judged x { w with allow := 16 } (.ralloc 248) = .emulate .bound
    ∧ judged x w (.rfree 8) = .emulate .bound ∧ judged { x with unitdis := 0xFFFF } w (.rast { w := 0, sp := 1, sr := 2, cont := false }) = .emulate .bound
    ∧ judged { x with unitdis := 0xFFFF } { w with allow := 256 } (.rast { w := 0, sp := 1, sr := 2, cont := false }) = .emulate .unit := by decide +kernel
/-! ## Small states -/

/-- The machine after reset with one wave of 32 lanes, named 3, that issues: `f` says how the wave stands. -/
def demo (f : Wave → Wave) : State :=
  let m := State.reset.m.loadWords 0
  { State.reset with m := { m with cur := some 3, waves := m.waves.map fun x => (x.1, f x.2) } }

/-- Lane 0 runs, with `a` in `s1`, `b` in `s2` and `c` in its `v3`. -/
def oneLane (a b : W64) (c : W32) (w : Wave) : Wave :=
  Wave.setExec (Wave.setV (Wave.setS (Wave.setS w false 1 a) false 2 b) false 3 0 c) false 1

/-- What an instruction leaves of the wave. -/
def wave? (i : Instr) (s : State) : Option Wave := match exec i s with
  | .next t => t.m.wave? 3
  | _ => none

/-- `v1` of lane 0 and `FPFLAG` after an instruction over the sources `s1`, `s2` and `v3`. -/
def result (i : Instr) (a b : W64) (c : W32 := 0) : Option (W32 × W64) :=
  (wave? i (demo (oneLane a b c))).map fun w => (w.getV false 1 0, w.lo.fpflag)

def two (t : Ty) : Op2 := { k := 0, ty := t, d := .vec 1, a := .sca 1, b := .sca 2 }
def one (t : Ty) : Op1 := { k := 0, ty := t, d := .vec 1, a := .sca 1 }
def conv (d : CvtDst) (s : CvtSrc) : OpCvt := { k := 0, d := .vec 1, a := .sca 1, dst := d, src := s }
/-! ## Worked results of the spec -/

/-- The worked integer results after R104. -/
theorem test_integer_results :
    result (.add false (two .i32)) 0x7FFFFFF0 0x20 = some (0x80000010, 0)
    ∧ result (.add true (two .i32)) 0x7FFFFFF0 0x20 = some (0x7FFFFFFF, 0)
    ∧ result (.sub true (two .n32)) 5 9 = some (0, 0)
    ∧ result (.abs false (one .i32)) 0x80000000 0 = some (0x80000000, 0)
    ∧ result (.abs true (one .i32)) 0x80000000 0 = some (0x7FFFFFFF, 0)
    ∧ result (.mulh (two .i32)) 0xFFFFFFFD 0x40000000 = some (0xFFFFFFFF, 0)
    ∧ result (.mulh (two .n32)) 0xFFFFFFFD 0x40000000 = some (0x3FFFFFFF, 0)
    ∧ result (.shr (two .i32)) 0x80000010 40 = some (0xFFFFFFFF, 0)
    ∧ result (.divQuo (two .i32)) 7 0 = some (0xFFFFFFFF, 0)
    ∧ result (.divRem (two .i32)) 0xFFFFFFF9 2 = some (0xFFFFFFFF, 0)
    ∧ result (.divQuo (two .i32)) 0x80000000 0xFFFFFFFF = some (0x80000000, 0) := by decide

/-- The worked conversions of R112. -/
theorem test_conversions :
    result (.cvt .zero false (conv (.ty .i32) .f32)) 0xC0200000 0 = some (0xFFFFFFFE, 16)
    ∧ result (.cvt .near false (conv (.ty .i32) .f32)) 0xC0200000 0 = some (0xFFFFFFFE, 16)
    ∧ result (.cvt .down false (conv (.ty .i32) .f32)) 0xC0200000 0 = some (0xFFFFFFFD, 16)
    ∧ result (.cvt .near false (conv (.ty .i32) .f32)) 0x4F000000 0 = some (0x7FFFFFFF, 1)
    ∧ result (.cvt .near false (conv (.ty .n32) .f32)) 0x7FC00000 0 = some (0, 1)
    ∧ result (.cvt .near false (conv (.ty .f32) (.int .n32))) 0xFFFFFFFF 0 = some (0x4F800000, 16)
    ∧ result (.cvt .zero false (conv (.ty .f32) (.int .n32))) 0xFFFFFFFF 0 = some (0x4F7FFFFF, 16)
    ∧ result (.cvt .near false (conv (.ty .bf16) .f32)) 0x3F808000 0 = some (0x3F80, 16)
    ∧ result (.cvt .up false (conv (.ty .bf16) .f32)) 0x3F808000 0 = some (0x3F81, 16)
    ∧ result (.cvt .near true (conv (.ty .i8) (.int .i32))) 300 0 = some (0x7F, 0)
    ∧ result (.cvt .near false (conv (.ty .i8) (.int .i32))) 300 0 = some (0x2C, 0)
    ∧ result (.cvt .near false (conv (.ty .f32) .h4)) 0xB 0 = some (0xBFC00000, 32) := by decide

/-- R100: the worked extractions; R108 and R109: −0.4 rounds to −0.0, the least subnormal has exponent −149. -/
theorem test_fields_and_exponents :
    result (.bfe (two .i32)) 0xF0A0 0x0808 = some (0xFFFFFFF0, 0) ∧ result (.bfe (two .n32)) 0xF0A0 0x0808 = some (0xF0, 0)
    ∧ result (.frnd .near (one .f32)) 0xBECCCCCD 0 = some (0x80000000, 0)
    ∧ result (.fexp (one .f32)) 1 0 = some (0xFFFFFF6B, 0) := by decide

/-- R67 and R110: a signalling NaN propagates quieted; 2^−150 is a tie that goes to zero; division by zero. -/
theorem test_float_results :
    result (.fadd .near false (two .f32)) 0x7F800001 0xFFC12345 = some (0x7FC00001, 1)
    ∧ result (.fex2 .near (one .f32)) 0xC3160000 0 = some (0, 0x18)
    ∧ result (.fex2 .near (one .f32)) 0x40400000 0 = some (0x41000000, 0)
    ∧ result (.flg2 .near (one .f32)) 0x3F800000 0 = some (0, 0)
    ∧ result (.frcp .near (one .f32)) 0x80000000 0 = some (0xFF800000, 2)
    ∧ result (.fsqrt .near (one .f32)) 0xBF800000 0 = some (0x7FC00000, 1)
    ∧ result (.fma .near false { k := 0, ty := .f32, d := .vec 1, a := .sca 1, b := .sca 2, c := .vec 3 }) 0x7F800000 0 0x3F800000
        = some (0x7FC00000, 1) := by decide

/-- The worked conversions to h8 after R75, and widening from it. -/
theorem test_narrow_conversions :
    let h8 := fun (rm : Rm) (x : W64) => result (.cvt rm false (conv (.ty .h8) .f32)) x 0
    let f32 := fun (x : W64) => result (.cvt .near false (conv (.ty .f32) .h8)) x 0
    h8 .near 0x3F800000 = some (0x38, 0) ∧ h8 .near 0x43960000 = some (0x79, 16) ∧ h8 .up 0x43960000 = some (0x7A, 16)
    ∧ h8 .near 0x43F50000 = some (0x7F, 16) ∧ h8 .near 0x43F80000 = some (0x7F, 0x14) ∧ h8 .near 0x7F800000 = some (0x7F, 4)
    ∧ h8 .near 0xFFC00000 = some (0x7F, 1) ∧ h8 .near 0x80000000 = some (0, 0) ∧ h8 .near 0xBC000000 = some (0x80, 0)
    ∧ h8 .near 0x3C000000 = some (1, 0x18) ∧ h8 .near 0x3B800000 = some (0, 0x18) ∧ h8 .up 0x3B800000 = some (1, 0x18)
    ∧ h8 .near 0xBB800000 = some (0, 0x18) ∧ h8 .down 0xBB800000 = some (0x80, 0x18)
    ∧ f32 1 = some (0x3C100000, 0) ∧ f32 0x80 = some (0xBC000000, 0) ∧ f32 0x7F = some (0x43F00000, 0) ∧ f32 0xFF = some (0xC3F00000, 0) := by
  decide

/-- R76, R78 to R80, R83: h6 and h4 widened, q4 and vq2 weights, and the signs of a minted basis. -/
theorem test_weights :
    widenH4 0xB = 0xBC ∧ widenH6 0x1F = 0x5E ∧ q4Weight 0x3E00 3 8 = (0xBF20, 0) ∧ q4Weight 0x3F81 7 0 = (0x40E2, 16)
    ∧ (List.range 8).map (vq2Twice 0x85E1 0x2A13) = [-3, 1, 5, -7, 3, 3, 1, 5] ∧ vq2Twice 0x85E1 0x2A03 7 = -5
    ∧ mintStart 1 0 = 0x1B ∧ mintStart 0 0 = 0x1B
    ∧ mintBasis 1 0 2 32 = List.replicate 59 false ++ [true, true, false, true, true] := by decide

/-- R85: lanes 0 to 3 hold 2^24, 1, 1 and −2^24; the fixed tree gives 1.0. -/
theorem test_reduction_tree :
    (wave? (.redAdd .near false { k := 0, ty := .f32, d := .sca 9, a := .vec 4 }) (demo fun w => Wave.setExec
      (Wave.setV (Wave.setV (Wave.setV (Wave.setV w false 4 0 0x4B800000) false 4 1 0x3F800000) false 4 2 0x3F800000) false 4 3 0xCB800000) false 15)).map
        (fun w => (w.getS false 9, w.lo.fpflag)) = some (0x3F800000, 16) := by decide

/-- R118: a pair's halves are groups of their own. -/
theorem test_pair_lanes :
    let s := demo fun w => { w with
      width := .w16, lo := { w.lo with exec := 0xFFFF }, hi := { w.lo with exec := 0xFFFF }
      v := ((List.range 32).map fun l => (64 + l, BitVec.ofNat 32 (if l < 16 then l else 84 + l))).filter (·.2 != 0) }
    let got := fun (i : Instr) (r : Nat) => (wave? i s).map fun w => [w.getV false r 0, w.getV false r 15, w.getV true r 0, w.getV true r 15]
    got (.shflDown { k := 0, ty := .b32, d := 2, a := 1, b := .con .one }) 2 = some [1, 0, 101, 100]
    ∧ got (.shflXor { k := 0, ty := .b32, d := 3, a := 1, b := .con .sixteen }) 3 = some [0, 15, 100, 115]
    ∧ got (.redAdd .near false { k := 0, ty := .i32, d := .vec 4, a := .vec 1 }) 4 = some [120, 120, 1720, 1720] := by decide

/-- The stable scatter after R123. -/
theorem test_match_and_rank :
    let s := demo fun w => Wave.setExec (Wave.setK { w with
      v := [(128, 3), (129, 1), (130, 3), (131, 3), (132, 1), (134, 7), (135, 3)] } false 3 0x8D) false 0xFF
    let lanes := fun (i : Instr) (r : Nat) => (wave? i s).map fun w => (List.range 9).map (w.getV false r)
    lanes (.matchEq 0 false 6 2) 6 = some [0x8D, 0x12, 0x8D, 0x8D, 0x12, 0x20, 0x40, 0x8D, 0]
    ∧ lanes (.matchEq 0 false 6 2) 7 = some [0, 0, 0, 0, 0, 0, 0, 0, 0]
    ∧ lanes (.krank 0 8 (.k 3)) 8 = some [0, 1, 1, 2, 3, 3, 3, 3, 0]
    ∧ (wave? (.kpop 5 (.k 3)) s).map (·.getS false 5) = some 4 := by decide

/-- R159 to R161: two triangles that share an edge, and the samples of row 0 beside it. R165: one blended sample. -/
theorem test_raster :
    let t1 := (rawSetup [0, 2048, 0] [0, 0, 2048]).orient
    let t2 := (rawSetup [2048, 2048, 0] [0, 2048, 2048]).orient
    let at_ := fun (s : RastSetup) (c : Nat) => (RastTile.sample { ox := 0, oy := 0, vb := 0, pid := 7, ctl := 0x24, z := [0x3E800000, 0x3E800000, 0x3E800000], s }
      0 { b := Block.wrSpad default (16 * c + 8) (natBytes 0x3F800000 4) } c 0).zpass
    (t1.a, t1.b, t1.c, t1.tl, t1.area) = ([-2048, 2048, 0], [-2048, 0, 2048], [0x400000, 0, 0], 6, 0x400000)
    ∧ (t2.a, t2.b, t2.c, t2.tl, t2.area) = ([0, 2048, -2048], [-2048, 2048, 0], [0x400000, -0x400000, 0x400000], 2, 0x400000)
    ∧ at_ t1 6 = 0x1000000 ∧ at_ t1 7 = 0 ∧ at_ t2 6 = 0 ∧ at_ t2 7 = 0x10000000
    ∧ blendPixel 0x1A 0 0x801E140A 0xFF0064C8 = 0xBF0F3C69 := by decide

/-- The state after an instruction. -/
def after (i : Instr) (s : State) : State := match exec i s with
  | .next t => t
  | _ => s

/-- Four lanes that are about to call g, f, g and f through `v20`. -/
def calling : State := demo fun w => Wave.setExec (Wave.setV (Wave.setV (Wave.setV (Wave.setV w
  false 20 0 0x100) false 20 1 0x200) false 20 2 0x100) false 20 3 0x200) false 15

/-- The stack, the lanes and the PC of the wave. -/
def flow (s : State) : Option (List (W64 × W64 × EKind) × W64 × W64) :=
  (s.m.wave? 3).map fun w => (w.stack.map fun x => (x.rpc, x.mask, x.kind), w.lo.exec, w.pc)

/-- The case after R261: `calli` makes a group for each target, and `ret` keeps the lanes that a path above holds waiting. -/
theorem test_calls :
    let s := after (.calli 20) calling
    [flow s, flow (after .ret s), flow (after .ret (after .ret s))] = [
      some ([(0x200, 0xA, .path), (0x10008, 0xF, .call)], 5, 0x100),
      some ([(0x10008, 0xA, .call), (0x10008, 5, .path)], 0xA, 0x200),
      some ([], 0xF, 0x10008)] := by rfl

/-- R131: `WSRC` after the worked `wload`. -/
theorem test_latch_word : wsLoaded 0 1 3 16 0 none = 0xA003400000000000 := by decide

/-! ## Witnesses: the hypotheses of the statements, met together -/

/-- The context, block, launch and wave of `demo`, as the issuing wave finds them. -/
def demoEnv (f : Wave → Wave) : Env where
  g := State.reset.mgmt
  m := (demo f).m
  id := 3
  w := f (startWave loadLaunch 1 loadCtx 2 0 1 0 3 0)
  x := { part := 0, vf := 0, ctxid := 0xFFFF, desc := 0xA0000 }
  b := { ctx := loadCtx, launch := 1, core := 0, idx := 0, blockid := 0, serial := 2 }
  l := loadLaunch

/-- A wave issues: what a statement about an instruction asks of the state when it asks nothing of the operands. -/
theorem witness_issuing_wave : (demo id).env? = some (demoEnv id) ∧ (demoEnv id).w.active false 0 = List.range 32 := ⟨rfl, by decide⟩

/-- A wave with no trap enabled is calm whatever its lanes raise: `FloatArithmetic`, `FloatComparison`, `ConversionAndPacking` and
`ScansAndReductions`. -/
theorem witness_calm (k : Nat) (uni : Bool) (fl : Bool → Nat → Flags) : (demo id).env? = some (demoEnv id) ∧ (demoEnv id).calm k uni fl :=
  ⟨rfl, fun p n _ h => by
    have : ∀ p, ((demoEnv id).w.half p).fpctl = 0 := by decide
    rw [this p] at h; simp [bit] at h⟩

/-- `FloatTrapsAndSpecialInputs`: the least and the greatest exception that can be enabled, raised by a lane. -/
theorem witness_float_trap :
    let on := fun (x : W64) (w : Wave) => { w with lo := { w.lo with fpctl := x } }
    let zero := fun (e : Env) (p : Bool) (l : Nat) => (Fmt.f32.div .near false (e.src p l .f32 (.con .zero)) (e.src p l .f32 (.con .zero))).2
    let third := fun (e : Env) (p : Bool) (l : Nat) => (Fmt.f32.div .near false (e.src p l .f32 (.con .one)) (e.src p l .f32 (.con .pi))).2
    (demo (on 1)).env? = some (demoEnv (on 1)) ∧ ¬ (demoEnv (on 1)).calm 0 false (zero (demoEnv (on 1)))
    ∧ (demo (on 16)).env? = some (demoEnv (on 16)) ∧ ¬ (demoEnv (on 16)).calm 0 false (third (demoEnv (on 16))) :=
  ⟨rfl, fun h => absurd (h false 0 (by decide) (by decide)) (by decide), rfl, fun h => absurd (h false 4 (by decide) (by decide)) (by decide)⟩

/-- `FloatTrapsAndSpecialInputs`: codes of f32 that meet each clause about special inputs: the least and the greatest quiet and
signalling NaN, both infinities, both zeros, and the least and the greatest finite magnitudes. -/
theorem witness_special_inputs :
    (∀ x ∈ [0x7F800001, 0x7FBFFFFF, 0x7FC00000, 0xFFFFFFFF], x < 2 ^ Fmt.f32.width ∧ Fmt.f32.isNaN x = true)
    ∧ [0x7F800001, 0x7FBFFFFF, 0x7FC00000, 0xFFFFFFFF].map Fmt.f32.isSNaN = [true, true, false, false]
    ∧ (∀ x ∈ [0x7F800000, 0xFF800000], Fmt.f32.mag x = Fmt.f32.infPat ∧ Fmt.f32.isNaN x = false)
    ∧ Fmt.f32.neg? 0xFF800000 = true ∧ Fmt.f32.neg? 0x7F800000 = false
    ∧ (∀ x ∈ [0, 0x80000000], Fmt.f32.mag x = 0)
    ∧ (∀ x ∈ [1, 0x7F7FFFFF, 0x80000001, 0xFF7FFFFF], Fmt.f32.mag x < Fmt.f32.infPat ∧ Fmt.f32.mag x ≠ 0) := by decide

/-- `BitFields`, `IntegerDivision` and `AddressAndCarry`: fields that end at the top bit, one that starts beyond it, an empty one;
the division corners of i64; and a carry into and out of the top bit. -/
theorem test_boundaries :
    result (.bfe (two .n32)) 0x80000001 0x011F = some (1, 0) ∧ result (.bfe (two .n32)) 0x80000001 0x0120 = some (0, 0)
    ∧ result (.bfe (two .i32)) 0x80000001 0xFF1F = some (0xFFFFFFFF, 0) ∧ result (.bfe (two .i32)) 0x80000001 0 = some (0, 0)
    ∧ result (.clz (one .i64)) 0 0 = some (64, 0) ∧ result (.clz (one .b32)) 0x80000000 0 = some (0, 0)
    ∧ result (.divRem (two .i32)) 0x80000000 0xFFFFFFFF = some (0, 0) ∧ result (.divRem (two .n32)) 7 0 = some (7, 0)
    ∧ result (.shl (two .b32)) 1 32 = some (0, 0) ∧ result (.shl (two .b32)) 1 31 = some (0x80000000, 0)
    ∧ result (.rot (two .b32)) 0x80000001 33 = some (3, 0)
    ∧ result (.sub false (two .n32)) 0 1 = some (0xFFFFFFFF, 0) ∧ result (.subb 0 (two .n32)) 0 1 = some (0xFFFFFFFF, 0) := by decide

/-- `AddressAndCarry`: the carry is read before it is written, and a borrow sets it. `Comparison` and `MaskInstructions`: a write to
`k0` is ignored. -/
theorem test_carry_and_k0 :
    let w := fun (i : Instr) (a b : W64) => (wave? i (demo fun w => Wave.setK (oneLane a b 0 w) false 5 1)).map fun w =>
      (w.getV false 1 0, w.getK false 5, w.getK false 0)
    w (.addc 5 (two .n32)) 0xFFFFFFFE 1 = some (0, 1, 0xFFFFFFFF) ∧ w (.addc 5 (two .n32)) 0xFFFFFFFE 0 = some (0xFFFFFFFF, 0, 0xFFFFFFFF)
    ∧ w (.subb 5 (two .n32)) 0 0 = some (0xFFFFFFFF, 1, 0xFFFFFFFF)
    ∧ w (.cmpNe { k := 0, ty := .i32, d := 0, a := .sca 1, b := .sca 1 }) 0 0 = some (0, 1, 0xFFFFFFFF)
    ∧ w (.kset (.k 5) 31 64) 0 0 = some (0, 0x80000000, 0xFFFFFFFF) ∧ w (.kset (.k 5) 32 64) 0 0 = some (0, 0, 0xFFFFFFFF) := by decide

/-- A wave with these lanes; a pair with these lanes in its halves; a stack of `n` deferred paths. -/
def lanes (x : W64) (w : Wave) : Wave := w.setExec false x
def pair (x y : W64) (w : Wave) : Wave :=
  { w with width := .w16, lo := { w.lo with exec := x }, hi := { w.lo with exec := y, waveid := 1 } }
def deep (n : Nat) (w : Wave) : Wave := { w with stack := List.replicate n { rpc := 0x100, mask := 1 } }
def onTop (x : Entry) (w : Wave) : Wave := { w with stack := x :: w.stack }

/-- R247: the wave of `demo` with these entries goes on at this address, `none` when it holds; barrier 1 has the wave's bit. -/
def resumed (l : List Entry) (n : Nat) : Option W64 :=
  match ({ (demoEnv id).w with stack := l } : Wave).resumePath { (demoEnv id).b with bars := [(1, { bitmap := 1 })] } n with
  | .path w => some w.pc
  | _ => none

/-- `ReturnAndResumption`: each kind of entry that R247 takes, with one that it passes over above it; and a frame that holds. -/
theorem witness_resume_path :
    resumed [{ rpc := 8, mask := 1 }, { rpc := 16, mask := 0 }, { rpc := 24, mask := 2, jpc := 16 }, { rpc := 32, mask := 4 }] 1 = some 32
    ∧ resumed [{ rpc := 8, mask := 1 }, { rpc := 24, mask := 2, jpc := 16 }] 1 = some 24
    ∧ resumed [{ rpc := 8, mask := 1 }, { rpc := 24, mask := 2, jpc := 16, bar := 2, bw := true }] 1 = some 24
    ∧ resumed [{ rpc := 8, mask := 1 }, { rpc := 24, mask := 2, jpc := 16, bar := 1, bw := true }] 1 = some 8
    ∧ resumed [{ rpc := 24, mask := 2, jpc := 16, bar := 1, bw := true }] 0 = none
    ∧ resumed [{ rpc := 8, mask := 1, kind := .trap }, { rpc := 8, mask := 1 }] 0 = none := by decide

/-- `Branches`: a pair whose halves disagree about `k1`, with room for one entry more; scalar targets that are equal, different and
misaligned. -/
theorem witness_branches :
    let d := fun (w : Wave) => deep 255 (Wave.setK (pair 1 2 w) false 1 1)
    let t := fun (x y : W64) (w : Wave) => Wave.setS (Wave.setS (pair 1 2 w) false 4 x) true 4 y
    (demo d).env? = some (demoEnv d) ∧ (demoEnv d).w.stack.length < 256
    ∧ (demoEnv d).w.lo.exec &&& (demoEnv d).w.getK false 1 ≠ 0 ∧ ¬ (demoEnv d).w.hi.exec &&& (demoEnv d).w.getK true 1 ≠ 0
    ∧ (demo (t 8 8)).env? = some (demoEnv (t 8 8)) ∧ (demoEnv (t 8 8)).w.getS false 4 = (demoEnv (t 8 8)).w.getS true 4
    ∧ (demo (t 8 16)).env? = some (demoEnv (t 8 16)) ∧ (demoEnv (t 8 16)).w.getS false 4 ≠ (demoEnv (t 8 16)).w.getS true 4
    ∧ (demo (t 8 15)).env? = some (demoEnv (t 8 15)) ∧ ((demoEnv (t 8 15)).w.getS true 4).toNat % 8 ≠ 0 :=
  ⟨rfl, by decide, by decide, by decide, rfl, by decide, rfl, by decide, rfl, by decide⟩

/-- `Branches`: backward transfers with no pending path, with one below the limit, and with one at it. -/
theorem witness_backward :
    let w := fun (a : BitVec 8) => onTop { rpc := 0x100, mask := 2, age := a }
    (∀ x ∈ frameOf (demoEnv id).w.stack, x.kind ≠ .path)
    ∧ (demo (w 63)).env? = some (demoEnv (w 63)) ∧ ¬ (∃ x ∈ frameOf (demoEnv (w 63)).w.stack, (demoEnv (w 63)).w.ageLimit ≤ x.age.toNat)
    ∧ (demo (w 64)).env? = some (demoEnv (w 64)) ∧ ∃ x ∈ frameOf (demoEnv (w 64)).w.stack, (demoEnv (w 64)).b.eligible (demoEnv (w 64)).w x = true
      ∧ (demoEnv (w 64)).w.ageLimit ≤ x.age.toNat := by decide

/-- `SplitsAndCalls` and `ReturnAndResumption`: no lanes; the last free entry and none; each sort of entry on top. -/
theorem witness_stack :
    let call : Entry := { rpc := 8, mask := 1, kind := .call }
    let trap : Entry := { rpc := 8, mask := 1, kind := .trap, cause := 1 }
    let here : Entry := { rpc := 0x10008, mask := 2, jpc := 0x10000 }
    let other : Entry := { rpc := 0x10008, mask := 2 }
    let e := fun (x : Entry) => demoEnv (onTop x)
    (demo (lanes 0)).env? = some (demoEnv (lanes 0)) ∧ (demoEnv (lanes 0)).w.hwMask = 0
    ∧ (demo (deep 255)).env? = some (demoEnv (deep 255)) ∧ (demoEnv (deep 255)).w.hwMask ≠ 0 ∧ (demoEnv (deep 255)).w.stack.length < 256
    ∧ (demo (deep 256)).env? = some (demoEnv (deep 256)) ∧ 256 ≤ (demoEnv (deep 256)).w.stack.length
    ∧ (demo (onTop call)).env? = some (e call) ∧ (e call).w.stack = [call]
    ∧ (demo (onTop trap)).env? = some (e trap) ∧ isDebug trap.cause.toNat = false
    ∧ (demo (onTop here)).env? = some (e here) ∧ here.jpc = (e here).w.pc ∧ here.rpc = (e here).w.pc + 8
    ∧ (demo (onTop other)).env? = some (e other) ∧ other.jpc ≠ (e other).w.pc :=
  ⟨rfl, by decide, rfl, by decide, by decide, rfl, by decide, rfl, rfl, rfl, by decide, rfl, by decide, by decide, rfl, by decide⟩

/-- `ReturnAndResumption`: calls all of whose lanes come back and some of whose lanes a path above holds, with a waiter below and
without; and a frame without a call. -/
theorem witness_return :
    let call : Entry := { rpc := 8, mask := 3, kind := .call }
    let path : Entry := { rpc := 16, mask := 2 }
    let waiter : Entry := { rpc := 8, mask := 4, jpc := 8 }
    let w := fun (l : List Entry) (w : Wave) => { w with stack := l }
    (demo (w [call])).env? = some (demoEnv (w [call])) ∧ (demo (w [call, waiter])).env? = some (demoEnv (w [call, waiter]))
    ∧ (demo (w [path, call])).env? = some (demoEnv (w [path, call])) ∧ call.mask &&& path.mask ≠ 0
    ∧ (demo (w [path, call, waiter])).env? = some (demoEnv (w [path, call, waiter])) ∧ waiter.jpc = waiter.rpc ∧ waiter.rpc = call.rpc
    ∧ ∀ x ∈ frameOf (demoEnv (w [path])).w.stack, x.kind ≠ .call :=
  ⟨rfl, rfl, rfl, by decide, rfl, by decide, by decide, by decide⟩

/-- `SplitsAndCalls`: lanes with aligned targets, one with a misaligned target, and no lanes. -/
theorem witness_indirect_call :
    let f := fun (x : W32) (w : Wave) => lanes 3 (Wave.setV w false 21 1 0 |> fun w => Wave.setV w false 20 1 x)
    let target := fun (w : Wave) (l : Nat) => (w.getV false 20 l).toNat + (w.getV false 21 l).toNat * 2 ^ 32
    (demo (f 8)).env? = some (demoEnv (f 8)) ∧ (∀ l < 32, bit (demoEnv (f 8)).w.lo.exec l = true → target (demoEnv (f 8)).w l % 8 = 0)
    ∧ (demo (f 9)).env? = some (demoEnv (f 9)) ∧ bit (demoEnv (f 9)).w.lo.exec 1 = true ∧ target (demoEnv (f 9)).w 1 % 8 ≠ 0
    ∧ ∀ l, ¬ bit (demoEnv (lanes 0)).w.lo.exec l = true := by
  refine ⟨rfl, by decide, rfl, by decide, by decide, fun l => ?_⟩
  have : (demoEnv (lanes 0)).w.lo.exec = 0 := by decide
  rw [this]; simp [bit]

/-- `ExitAndYield`: an access that is outstanding, and none; a path to go on with, one that is held, and none. -/
theorem witness_exit :
    let a : Access := { kind := .store, ty := .b32, scope := .wave, lanes := [] }
    let busy := fun (w : Wave) => { w with acc := [a] }
    let u := fun (l : List Entry) => ({ (demoEnv id).w with stack := l, lo := { (demoEnv id).w.lo with exec := 0 } } : Wave)
    (demo busy).env? = some (demoEnv busy) ∧ (demoEnv busy).w.acc ≠ [] ∧ (demoEnv id).w.acc = [] ∧ (demoEnv id).w.hwMask ≠ 0
    ∧ (demoEnv id).w.lo.parent = none ∧ (demoEnv id).w.hi.parent = none
    ∧ (match (u [{ rpc := 8, mask := 1 }]).resumePath (demoEnv id).b 0 with | .path _ => true | _ => false) = true
    ∧ (match (u []).resumePath (demoEnv id).b 0 with | .none _ => true | _ => false) = true
    ∧ (demoEnv id).w.oldest (demoEnv id).b = none
    ∧ (demoEnv (deep 255)).w.oldest (demoEnv (deep 255)).b = some (254, { rpc := 0x100, mask := 1 }) :=
  ⟨rfl, by decide, by decide, by decide, by decide, by decide, by decide, by decide, by decide, by decide⟩

/-- `demo` with the machine, the context, the block and the launch changed too. -/
def world (fm : Mach → Mach) (fx : Ctx → Ctx) (fb : Block → Block) (fl : Launch → Launch) (fw : Wave → Wave) : State :=
  let s := demo fw
  { s with m := fm { s.m with
      ctxs := s.m.ctxs.map fun x => (x.1, fx x.2), blocks := s.m.blocks.map fun x => (x.1, fb x.2)
      launches := s.m.launches.map fun x => (x.1, fl x.2) } }

/-- The state's issuing wave suits a condition on the state and the operands. -/
def suits (s : State) (P : Env → Prop) [DecidablePred P] : Bool := match s.env? with
  | some e => decide (P e)
  | none => false

theorem suits_env (s : State) (P : Env → Prop) [DecidablePred P] (h : suits s P = true) : ∃ e, s.env? = some e ∧ P e := by
  unfold suits at h; split at h
  · exact ⟨_, ‹_›, of_decide_eq_true h⟩
  · cases h

/-- An event takes place: it leads to another state. -/
def moves (i : Instr) (s : State) : Bool := match exec i s with
  | .next t => decide (t ≠ s)
  | _ => false

/-- `NamedBarriers`: the last barrier and the first number beyond it, 65535 participants and 65536; a barrier whose last
arrival is the launch's last live lane; a half that waits and one that does not; both waiting, with another path and
without; an unsealed and a sealed copy outstanding. -/
theorem witness_barriers :
    let bars := fun (l : Launch) => { l with bars := 2 }
    let num := fun (n b : W64) (w : Wave) => Wave.setS (Wave.setS w false 1 n) false 2 b
    let N := fun (e : Env) => (e.sc false .n32 (.sca 1), e.sc false .n32 (.sca 2))
    let held := fun (x : BitVec 128) (b : Block) => { b with bars := [(1, { bitmap := x })] }
    let waits := fun (e : Env) (p : Bool) => (e.b.bar 1).bitmap.getLsbD (e.w.half p).waveid
    let op : EngOp := { ctx := loadCtx, block := 2, wave := 3, half := false, core := 0, queue := false, kind := .copy (.spad 0) (.spad 8) 1 1 0 0, target := .reg 3 false 0, seq := 0, due := 0, batch := some 1 }
    let sealed := world (fun m => { m with ops := [(9, op)] }) id id bars id
    suits (world id id id bars (num 1 65535)) (fun e => (∃ p, e.w.runs p) ∧ (N e).1 < e.l.bars ∧ (N e).2 ≤ 65535)
    ∧ suits (world id id id bars (num 2 65535)) (fun e => e.l.bars ≤ (N e).1)
    ∧ suits (world id id id bars (num 1 65536)) (fun e => 65535 < (N e).2 ∧ e.w.inBar = false)
    ∧ suits (world id id id bars (num 1 0)) (fun e => (world id id id bars (num 1 0)).m.liveLanes e.w.block = 32)
    ∧ suits (world id id id bars (num 1 33)) (fun e => ∀ p, e.w.runs p → ¬ waits e p)
    ∧ suits (world id id (held 1) bars (pair 1 1)) (fun e => e.w.runs false ∧ e.w.runs true ∧ waits e false ∧ ¬ waits e true ∧ e.w.stack.length < 256)
    ∧ suits (world id id (held 3) bars (pair 1 1)) (fun e => waits e false ∧ waits e true ∧ ¬ ∃ x ∈ frameOf e.w.stack, e.b.eligible e.w x = true)
    ∧ suits (world id id (held 3) bars fun w => deep 254 (pair 1 1 w)) (fun e => waits e false ∧ waits e true
        ∧ (∃ x ∈ frameOf e.w.stack, e.b.eligible e.w x = true) ∧ e.w.stack.length + 2 ≤ 256)
    ∧ suits (world id id (held 1) bars fun w => { w with inBar := true }) (fun e => e.w.inBar = true)
    ∧ suits sealed (fun e => ∃ o ∈ sealed.m.ops, o.2.wave = e.id ∧ o.2.half = false ∧ o.2.copied = false ∧ o.2.batch ≠ none) := by decide

/-- `OperationsAndReceipts`: the greatest engine and status, and an operation whose wave is resident. -/
theorem witness_operation :
    let op : EngOp := { ctx := loadCtx, block := 2, wave := 3, half := false, core := 0, queue := false, kind := .copy (.spad 0) (.spad 8) 1 1 0 0, target := .reg 3 false 15, seq := 7, due := 9 }
    let s := world (fun m => { m with ops := [(9, op)] }) id id id id
    s.m.ctx? loadCtx ≠ none ∧ lookup s.m.ops 9 = some op ∧ op.target = .reg op.wave op.half 15
    ∧ ((s.m.wave? 3).map fun v => (s.m.resident v, v.missing)) = some (true, [])
    ∧ rEng (mkRcpt 1 15 15 7) = 15 ∧ rStat (mkRcpt 1 15 15 7) = 15 := by decide

/-- `Spawning`: 1 lane and W lanes, which spawn, 0 and W + 1, which do not; a receipt of the register's own spawn, one of
another engine, and none; a child at the head of the queue; a parked parent. -/
theorem witness_spawn :
    let kids := fun (n : W64) (w : Wave) => Wave.setS w false 2 n
    let n := fun (e : Env) => e.sc false .n32 (.sca 2)
    let own : EngOp := { ctx := loadCtx, block := 2, wave := 3, half := false, core := 0, queue := false, kind := .spawn 1, target := .reg 3 false 1, seq := 7, due := 0 }
    let rcpt := fun (w : Wave) => w.updHalf false fun h => h.setQ 1 (mkRcpt 0 0 5 7) 0
    let mine := world (fun m => { m with ops := [(9, own)] }) id id id rcpt
    let child : Child := { ctx := loadCtx, block := 2, op := 9, entry := 0x10000, lanes0 := 32, arg0 := 5 }
    let parked : Child := { child with parent := some 3 }
    let spawned := world (fun m => { m with spawnq := [child] }) id id (fun l => { l with waves := 2, vregs := 16 }) fun w => { w with allow := 16 }
    let back := world (fun m => { m with spawnq := [parked] }) id id (fun l => { l with waves := 2 }) fun w => { w with parked := true }
    suits (demo (kids 1)) (fun e => 1 ≤ n e ∧ n e ≤ e.w.W) ∧ suits (demo (kids 32)) (fun e => 1 ≤ n e ∧ n e = e.w.W)
    ∧ suits (demo (kids 0)) (fun e => n e < 1) ∧ suits (demo (kids 33)) (fun e => e.w.W < n e)
    ∧ suits (demo id) (fun e => rPending (e.w.getQ false 1) = false)
    ∧ suits mine (fun e => rPending (e.w.getQ false 1) = true ∧ mine.m.spawnIn e.id e.w false 1 = some 9)
    ∧ suits (demo rcpt) (fun e => rPending (e.w.getQ false 1) = true ∧ (demo rcpt).m.spawnIn e.id e.w false 1 = none ∧ e.w.width ≠ .w16)
    ∧ spawned.m.spawnq = [] ++ child :: [] ∧ spawned.m.freeIndices 2 ≠ []
    ∧ moves (.childAdmit loadCtx) spawned
    ∧ back.m.spawnq = [] ++ parked :: [] ∧ parked.parent = some 3 ∧ moves (.parkedParentReturn 3) back := by decide

/-- A page of data at 0x20000, in frame 0xB0000, which may be read and written; the apertures out of its way. -/
def data (m : Mach) : Mach := m.wrN 0x81020 8 0xB000F
def away (x : Ctx) : Ctx := { x with spbase := 2 ^ 40, stkbase := 2 ^ 41 }
def room (l : Launch) : Launch := { l with spad := 1024, stk := 4, bars := 16, oms := 48 }
def base (n : Nat) (w : Wave) : Wave := lanes 1 (Wave.setS w false 1 (w64 n))
def at1 : OpM := { uni := false, addr := .base 1, off := 0, ty := .b32, k := 0, scope := .device, strm := false }
def site (n : Nat) : State := world data away id room (base n)

/-- `RegisterAllowance`: a request that takes the last of the 4096 lines, one that asks for a line more, a waiting request
that fits, and a parked wave whose lines fit. -/
theorem witness_allowance :
    let fits := fun (s : State) (n : Nat) (e : Env) => s.m.firstInLine e.w.core e.id e.w.born = true ∧ s.m.usedLines e.w.core + e.w.width.g * n ≤ 4096
    let small := fun (w : Wave) => { w with allow := 8 }
    let used := (demo small).m.usedLines 0
    let other := fun (n : Nat) (m : Mach) => { m with waves := m.waves ++ [(4, { (startWave loadLaunch 1 loadCtx 2 0 2 1 4 0) with allow := n })] }
    let full := fun (n : Nat) => world (other n) id id id small
    let asks := demo fun w => { small w with hold := .wait 0 (.ralloc 8) }
    let parked := demo fun w => { small w with parked := true }
    used = 23 ∧ (full 4025).m.usedLines 0 = 4063
    ∧ suits (full 4025) (fits (full 4025) 33) ∧ suits (full 4025) (fun e => ¬ fits (full 4025) 34 e)
    ∧ (match asks.m.wave? 3 with | some w => w.hold == .wait 0 (.ralloc 8) && asks.m.resident w && asks.m.grantable 3 w 8 | none => false) = true
    ∧ moves (.rallocGrant 3) asks = true
    ∧ (parked.m.lineWaiters 0).map (·.1) = [3] ∧ moves (.parkedWaveReturn 3) parked = true := by decide +kernel

/-- `AddressCauses`, `AccessesIssue`: the last word of the scratchpad, of the stack and of the low half of global memory, and
the first address beyond each; a misaligned address; an atomic on the stack. -/
theorem witness_addresses :
    let a := fun (n : Nat) (P : Space × Nat → Env → Bool) => suits (site n) fun e => e.x.debug ≠ 2 ∧ P (e.x.steer (e.ea false 0 at1.addr at1.off 4)) e = true
    a (2 ^ 40 + 1020) (fun x e => x == (.spad, 1020) && x.2 + 4 == e.l.spad) ∧ a (2 ^ 40 + 1024) (fun x e => x.1 == .spad && decide (e.l.spad < x.2 + 4))
    ∧ a (2 ^ 41 + 60) (fun x e => x == (.stack, 60) && x.2 + 4 == 16 * e.l.stk) ∧ a (2 ^ 41 + 64) (fun x e => x.1 == .stack && decide (16 * e.l.stk < x.2 + 4))
    ∧ a (2 ^ 56 - 4) (fun x _ => x.1 == .global && canonical x.2) ∧ a (2 ^ 56) (fun x _ => x.1 == .global && !canonical x.2)
    ∧ a (2 ^ 64 - 4) (fun x _ => x.1 == .global && canonical x.2)
    ∧ a 0x20002 (fun x _ => x.1 == .global && x.2 % 4 != 0) := by decide

/-- `AccessesIssue` and `PrefetchAndPins`: 63 outstanding loads leave room for one more, 64 do not; and `wcnt` waits for 63 of 64. -/
theorem witness_counts :
    let a : Access := { kind := .load (.vec 9), ty := .b32, scope := .wave, lanes := [] }
    let s := fun (n : Nat) => world data away id room fun w => { base 0x20000 w with acc := List.replicate n a }
    let n := fun (e : Env) (load : Bool) => (e.w.acc.filter fun a => a.kind.isLoad == load).length
    suits (s 63) (fun e => n e true < 64 ∧ n e false < 64) ∧ suits (s 64) (fun e => ¬ n e true < 64 ∧ (63#7).toNat < n e true) := by decide

/-- `AccessesPerformed`: a lane's load that hits in L1, its store at a scope within the core and at a wider one, and its
atomic, each performed. -/
theorem witness_performed :
    let y : LaneAcc := { half := false, lane := 0, space := .global, va := 0x20004, pa := 0xB0004, b := 5 }
    let a := fun (k : AccKind) (sc : Scope) => ({ kind := k, ty := .b32, scope := sc, lanes := [y], known := true } : Access)
    let s := fun (k : AccKind) (sc : Scope) => world data away id room fun w => { lanes 1 w with acc := [a k sc] }
    let line : L1Line := { core := 0, ctx := loadCtx, line := 0xB0004 / 128, vpages := [2], data := 7, valid := BitVec.allOnes 128, dirty := 0 }
    let hit := world (fun m => { data m with l1 := [line] }) away id room fun w => { lanes 1 w with acc := [a (.load (.vec 1)) .wave] }
    let ok := fun (s : State) => s.m.wave? 3 ≠ none ∧ s.m.ctx? loadCtx ≠ none ∧ (s.m.wave? 3).map s.m.resident = some true ∧ (s.m.ctx? loadCtx).map s.m.running = some true
      ∧ isMem y.pa = true ∧ moves (.memoryAccessPerformed 3 0 1) s
    ok hit ∧ (hit.m.l1Hit 0 loadCtx (0xB0004 / 128) 4 4).isSome = true ∧ ok (s .store .wave) ∧ ok (s .store .device)
    ∧ ok (s (.atom .add (some (.vec 1))) .device) ∧ (s .store .wave).m.poisoned 0xB0004 4 = false ∧ (s .store .wave).m.l1 = [] := by decide +kernel

/-- `PrefetchAndPins`: a lane beyond global memory, and one that pins its line; the context's last pin, and a ninth line of a set. -/
theorem witness_pins :
    let x := fun (n : Nat) => { ({ part := 0, vf := 0, ctxid := 0xFFFF, desc := 0xA0000 } : Ctx) with pinlim := n }
    let m := site 0x20000 |>.m
    let full := { m with pins := (List.range 8).map fun i => { ctx := loadCtx, line := 0x1600 + 4096 * i, vpage := 2 } }
    suits (site (2 ^ 56)) (fun e => (e.x.steer (e.ea false 0 at1.addr at1.off 4)).1 = .global ∧ canonical (e.ea false 0 at1.addr at1.off 4) = false)
    ∧ (m.pin loadCtx (x 1) 0x1600 2).1 = true ∧ (m.pin loadCtx (x 0) 0x1600 2).1 = false
    ∧ (full.pin loadCtx (x 9) 0x1600 2).1 = true ∧ (full.pin loadCtx (x 8) 0x9600 2).1 = false ∧ (full.pin 5 (x 1) 0x1600 2).1 = true := by decide

/-- `BindingsAndGuards`: each status of `gbind.bind`, at the last and the first value beyond; a version that is reached, one
that is not, with another path and without; a store of the wave that a release waits for. -/
theorem witness_guards :
    let x : Ctx := away { part := 0, vf := 0, ctxid := 0xFFFF, desc := 0xA0000 }
    let full := fun (n : Nat) => { x with binds := (List.range n).map fun i => { base := 0x40000 + 128 * i, len := 128, guard := 0x30000 } }
    let wait := fun (v : W64) (f : Wave → Wave) => world data away id room fun w => f (Wave.setS (base 0x20000 w) false 2 v)
    let found := fun (s : State) (e : Env) => (e.homes s.m needRW (fun p => (e.w.getS p 1).toNat) e.w.passes).1 = [(false, .at 0xB0000)]
    let st : Access := { kind := .store, ty := .b32, scope := .wave, lanes := [{ half := false, lane := 0, space := .global, va := 0x20000 }] }
    let busy := world data away id room fun w => { base 0x20000 w with acc := [st] }
    x.bindStatus 0x20000 128 0x30000 = 0 ∧ x.bindStatus (2 ^ 44) (2 ^ 40) 0x20000 = 0 ∧ x.bindStatus (2 ^ 44) (2 ^ 40 + 128) 0x20000 = 3 ∧ x.bindStatus 0x20000 0 0x30000 = 3
    ∧ x.bindStatus 0x20000 128 0x20078 = 3 ∧ x.bindStatus 0x20000 128 0x20080 = 0
    ∧ (full 255).bindStatus 0x20000 128 0x30000 = 0 ∧ (full 256).bindStatus 0x20000 128 0x30000 = 1 ∧ (full 1).bindStatus 0x40000 128 0x30000 = 2
    ∧ suits (wait 0 id) (fun e => found (wait 0 id) e ∧ (e.w.getS false 2).toNat ≤ (wait 0 id).m.homeN 0xB0000 8)
    ∧ suits (wait 1 id) (fun e => found (wait 1 id) e ∧ (wait 1 id).m.homeN 0xB0000 8 < (e.w.getS false 2).toNat ∧ e.w.oldest e.b = none)
    ∧ suits (wait 1 (deep 255)) (fun e => e.w.hwMask ≠ 0 ∧ (∃ x ∈ frameOf e.w.stack, e.b.eligible e.w x = true) ∧ e.w.stack.length < 256)
    ∧ suits (site 0x20000) (fun e => e.released none .device false (fun _ _ => true) = true)
    ∧ suits busy (fun e => e.released none .device false (fun _ _ => true) = false) := by decide

/-- The machine that an instruction or event leaves. -/
def leaves (i : Instr) (s : State) : Option State := match exec i s with
  | .next t => some t
  | _ => none

/-- `Coffers` (R224 to R226): a coffer of two entries receives 1.0 and 2.0, lane 2 names an entry beyond it, and the root is
3.0; what `cfread` reads of it; a base that is misaligned. -/
theorem test_coffer :
    let lane := fun (w : Wave) (l : Nat) (x : W32) => Wave.setV (Wave.setV w false 3 l x) false 2 l (BitVec.ofNat 32 l)
    let s := world (fun m => (data m).wrN 0xB0000 8 0x100) away id room fun w =>
      lanes 7 (lane (lane (lane (base 0x20000 w) 0 0x3F800000) 1 0x40000000) 2 0)
    let add : OpCfadd := { k := 0, wide := false, d := 4, a := 1, b := .vec 2, c := 3, rel := false, scope := .device }
    let read : OpCfread := { wide := false, d := 5, a := 1, e := 6, acq := false, scope := .device }
    let t := leaves (.cfadd add) s
    t.map (fun t => (t.m.rdN 0xB0010 4, t.m.rdN 0xB0008 8, (t.m.wave? 3).map fun w => w.getK false 4)) = some (0x40400000, 0x10080000000, some 4)
    ∧ (t.bind (leaves (.cfread read))).map (fun t => (t.m.wave? 3).map fun w => (w.getS false 5, w.getS false 6)) = some (some (0x40400000, 0x10080000000))
    ∧ suits s (fun e => e.x.debug ≠ 2 ∧ (e.w.getS false 1).toNat % 32 = 0 ∧ canonical (e.w.getS false 1).toNat = true)
    ∧ suits (site 0x20010) (fun e => (e.w.getS false 1).toNat % 32 ≠ 0) := by decide +kernel

def copy : OpCp := { q := 1, d := 4, a := 1, b := 2, e3 := none, lay := false, fo := none, q1 := false, hs := false, hd := false }
/-- A copy of `n` bytes from 0x20000 to scratchpad offset 1000. -/
def copies (n : W64) (f : Wave → Wave) : State :=
  world data away id room fun w => f (Wave.setS (Wave.setS (base 0x20000 w) false 2 n) false 4 1000)
def engine (k : EngKind) : EngOp :=
  { ctx := loadCtx, block := 2, wave := 3, half := false, core := 0, queue := false, kind := k, target := .reg 3 false 1, seq := 7, due := 0 }

/-- `EngineCommands`: a shape of 1 byte, of 0 bytes, and a reserved bit; a copy that ends with the scratchpad's last byte
and one beyond it; a pending receipt; a full queue; and a chunk between the block's own memories, which is done. -/
theorem witness_copies :
    let causes := fun (n : W64) (e : Env) => (e.copyCmd copy .m .s (copies n id).m false).1.causes
    let queued := fun (n : Nat) => world (fun m => { data m with ops := (List.range n).map fun i => (10 + i, engine (.copy (.mem 0x20000) (.spad 0) 1 1 0 0)) }) away id room
      fun w => Wave.setS (Wave.setS (base 0x20000 w) false 2 1) false 4 0
    let chunk := world (fun m => { data m with ops := [(9, engine (.copy (.spad 8) (.om 16) 4 1 0 0))] }) away
      (fun b => { (b.wrSpad 8 [1, 2, 3, 4]) with claimed := 1 }) room fun w => w
    suits (copies 24 id) (fun e => causes 24 e = []) ∧ suits (copies 25 id) (fun e => causes 25 e = [0x22])
    ∧ suits (copies 0 id) (fun e => causes 0 e = [0x71]) ∧ suits (copies (2 ^ 48 + 1) id) (fun e => causes (2 ^ 48 + 1) e = [0x71])
    ∧ suits (copies (2 ^ 32 + 1) id) (fun e => causes (2 ^ 32 + 1) e = [0x71])
    ∧ suits (copies 24 fun w => w.updHalf false fun h => h.setQ 1 (mkRcpt 0 0 1 7) 0) (fun e => rPending (e.w.getQ false 1) = true)
    ∧ ((queued 31).m.queued 0 false).length + 1 = 32 ∧ 32 < ((queued 32).m.queued 0 false).length + 1
    ∧ (leaves (.engineChunk 9) chunk).map (fun t => (t.m.ops, (t.m.block? 2).map fun b => b.rdOm 16 4)) = some ([], some [1, 2, 3, 4]) := by decide +kernel

/-- `CollectiveOperations`: a descriptor of one participant and one of 4096; no participant and 4097; a complete instance, whose sum is
written and whose DONE is 1; and one that lacks a participant. -/
theorem witness_collectives :
    let bad := fun (npart : Nat) => npart = 0 ∨ 4096 < npart
    let coll := fun (npart : Nat) => world (fun m => { ((data m).wrN 0xB0000 4 npart).wrN 0xB1000 4 7 with
      ops := [(9, engine (.coll 0 .n32 0x22000 0x21000 1 0xB0000 0))], colls := [{ desc := 0xB0000, ctxs := [loadCtx] }] }) away id room id
    let dst := fun (s : State) => { s with m := s.m.wrN 0x81010 8 0x90013 }
    ¬ bad 1 ∧ ¬ bad 4096 ∧ bad 0 ∧ bad 4097
    ∧ (coll 1).m.collHeads 0xB0000 = [(9, engine (.coll 0 .n32 0x22000 0x21000 1 0xB0000 0))] ∧ (coll 1).m.homeN 0xB0000 4 = 1
    ∧ (leaves (.collInstanceComplete 0xB0000) (dst (coll 1))).map (fun t => (t.m.rdN 0xB2000 4, t.m.rdN 0xB0008 8, t.m.ops)) = some (7, 1, [])
    ∧ ((coll 2).m.collHeads 0xB0000).length < (coll 2).m.homeN 0xB0000 4 := by decide +kernel

/-- `ReceiptsAndBatches`: sealed copies up to the target and beyond it; receipts that are pending, complete and empty; a time that
is near and one that is past; an operation that can still be cancelled; and a sleeping wave whose receipt is late. -/
theorem witness_receipts :
    let op := fun (n : W32) => { engine (.copy (.spad 0) (.spad 8) 1 1 0 0) with batch := some n }
    let batch := world (fun m => { m with ops := [(9, op 5)] }) id id id fun w => { w with lo := { w.lo with batch := 5 } }
    let owed := fun (t : W32) (s : State) => ∃ o ∈ s.m.ops, o.2.wave = 3 ∧ o.2.copied = false ∧ o.2.batch.any fun n => decide (0 ≤ (t - n).toInt)
    let rcpt := fun (x : W64) (w : Wave) => w.updHalf false fun h => h.setQ 1 x 0
    let cancel := world (fun m => { m with ops := [(9, engine (.copy (.spad 0) (.spad 8) 1 1 0 0))] }) id id id id
    owed 5 batch ∧ owed 0x80000004 batch ∧ ¬ owed 4 batch ∧ ¬ owed 0x80000005 batch
    ∧ suits (demo (rcpt (mkRcpt 0 0 1 7))) (fun e => e.w.runs false ∧ rPending (e.w.getQ false 1) = true ∧ e.w.hold = .none)
    ∧ suits (demo (rcpt (mkRcpt 0 1 1 7))) (fun e => rPending (e.w.getQ false 1) = false ∧ rStat (e.w.getQ false 1) ≠ 0)
    ∧ suits (demo id) (fun e => rPending (e.w.getQ false 1) = false ∧ rEng (e.w.getQ false 1) = 0)
    ∧ (cancel.m.ops.find? fun o => o.2.target == .reg 3 false 1).map (·.1) = some 9
    ∧ (cancel.m.cancelOp 3 false 1).ops = [] := by decide +kernel

/-- `ReceiptsAndBatches`: a promise that is due now, one long past, one that is as far ahead as can be told, and the next cycle's. -/
theorem witness_promises (now : BitVec 24) :
    let late := fun (due : BitVec 24) => (now - due).toNat < 2 ^ 23
    late now ∧ late (now - 0x7FFFFF) ∧ ¬ late (now - 0x800000) ∧ ¬ late (now - 0xFFFFFF) := by
  refine ⟨?_, ?_, ?_, ?_⟩ <;> bv_omega

/-- `DetachedOperations`: the last place among the 64, and none; the last eight bytes of the scratchpad, beyond them, misaligned. -/
theorem witness_detached :
    let d : Detached := { tok := mkRcpt 0 0 1 9, rcpt := mkRcpt 0 1 1 9 }
    let off := fun (x : W64) (n : Nat) => world id away (fun b => { b with detached := List.replicate n d }) room fun w =>
      Wave.setS ((lanes 1 w).updHalf false fun h => h.setQ 1 (mkRcpt 0 1 1 7) 0) false 1 x
    let fine := fun (e : Env) => (e.w.getS false 1).toNat % 8 = 0 ∧ (e.w.getS false 1).toNat + 8 ≤ e.l.spad
    suits (off 1016 63) (fun e => e.w.passes = [false] ∧ fine e ∧ rPending (e.w.getQ false 1) = false ∧ rStat (e.w.getQ false 1) ≠ 15 ∧ e.b.detached.length + 1 ≤ 64)
    ∧ suits (off 1016 64) (fun e => fine e ∧ e.b.detached.length = 64)
    ∧ suits (off 1024 0) (fun e => e.w.runs false ∧ ¬ fine e) ∧ suits (off 1012 0) (fun e => (e.w.getS false 1).toNat % 8 ≠ 0) := by decide +kernel

/-- `OperandMemory`: a claim of all 48 slots, one past the quota, and one that a claimed slot refuses; an element at the end
of a claimed slot, one that runs into a slot that is not claimed, one beyond the last slot, and a misaligned one. -/
theorem witness_operand_memory :
    let b : Block := { ctx := loadCtx, launch := 1, core := 0, idx := 0, blockid := 0, serial := 2, claimed := 1#48 <<< 47 }
    let om : OpOm := { k := 0, ty := .b32, d := 1, a := 47, b := 2, off := 0 }
    let s := fun (x : W32) => world id away (fun b => { b with claimed := 1#48 <<< 47 }) room fun w => Wave.setV (lanes 1 w) false 2 0 x
    let at_ := fun (e : Env) => 16384 * om.a.toNat + (e.w.vec false 0 .n32 om.b.toNat + om.off.toNat)
    (({ b with claimed := 0 } : Block).claim 48 0 48).1 = 0 ∧ (b.claim 48 47 1).1 = 1 ∧ (b.claim 48 46 1).1 = 0 ∧ (b.claim 47 46 2).1 = 2
    ∧ suits (s 16380) (fun e => e.w.work 0 false = [(false, 0)] ∧ at_ e + 4 = 48 * 16384 ∧ e.b.claimed.getLsbD 47 = true)
    ∧ suits (s 16384) (fun e => 48 * 16384 < at_ e + 4) ∧ suits (s 2) (fun e => (e.w.vec false 0 .n32 2) % 4 ≠ 0)
    ∧ suits (world id away id room fun w => lanes 1 w) (fun e => e.b.claimed.getLsbD 47 = false)
    ∧ (leaves (.omst om) (s 16380)).isSome = true := by decide +kernel

/-- `MatrixCommands` and `MatrixSteps`: every verdict on `mmul`, the last row that a slot holds and the first that it does not; a
half with lanes and none; an address of the wave that is unknown; a command that the array accepts. -/
theorem witness_matrix :
    let o : OpMmul := { q := 0, d := 47, a := 0, fmt := .f16, m := 63, sp := 9, scale := none, cont := false, z := true }
    let b : Block := { ctx := loadCtx, launch := 1, core := 0, idx := 0, blockid := 0, serial := 2, claimed := BitVec.allOnes 48,
                       wsrc := wsLoaded 0 1 MFmt.f16.code.toNat 1 0 none }
    let i8 := { b with wsrc := wsLoaded 0 1 MFmt.i8.code.toNat 1 0 none }
    let y : ScaleOp := { slot := 2, soff := 0 }
    let acc : Access := { kind := .load (.vec 9), ty := .b32, scope := .wave, lanes := [] }
    let sent := world (fun m => { m with array := [{ core := 0, wave := 3, half := false, block := 2, instr := .mmul o }] }) id
      (fun _ => b) room id
    b.judge 48 (.mmul o) = .runs ∧ b.judge 48 (.mmul { o with m := 64 }) = .fault 0x61 ∧ b.judge 47 (.mmul o) = .fault 0x60
    ∧ ({ b with wsrc := 0 }).judge 48 (.mmul o) = .ends 2 ∧ i8.judge 48 (.mmul { o with fmt := .i8, scale := some y }) = .ends 3
    ∧ i8.judge 48 (.mmul { o with fmt := .i8 }) = .runs ∧ b.judge 48 (.mmul { o with d := 0, scale := some { y with soff := 31 } }) = .runs
    ∧ suits (demo id) (fun e => (e.w.half false).exec ≠ 0 ∧ rPending (e.w.getQ false 0) = false ∧ ∀ a ∈ e.w.acc, a.known = true)
    ∧ suits (demo (lanes 0)) (fun e => (e.w.half false).exec = 0)
    ∧ suits (demo fun w => { w with acc := [acc] }) (fun e => ∃ a ∈ e.w.acc, a.known = false)
    ∧ (sent.m.arrayNext 0).isSome = true ∧ moves (.matrixStep 0) sent = true
    ∧ suits (world id id (fun b => { b with claimed := 1#48 <<< 47 }) room id) (fun e => 47 < e.l.oms ∧ e.b.claimed.getLsbD 47 = true)
    ∧ suits (world id id (fun b => { b with claimed := 1#48 <<< 47 }) room id) (fun e => e.b.claimed.getLsbD 46 = false ∧ e.l.oms ≤ 48) := by decide +kernel

/-- `MacroCommands`: control words that are the greatest legal one, and illegal; a tile that fills the scratchpad and one that
is a sample too many; a handle that is good and one beyond the table; a unit with 15 commands and with 16. -/
theorem witness_macros :
    let word := fun (r l : Nat) (x : W32) (w : Wave) => Wave.setV w false r l x
    let ctl := fun (e : Env) => e.w.word false 8 0 14
    let legal := fun (x : Nat) => x < 256 ∧ x % 4 ≠ 3 ∧ x / 64 ≠ 3
    let need := fun (e : Env) => e.w.word false 8 0 11 / 16 * 16 + 1024 * 2 ^ (ctl e % 4)
    let u : UnitOp := { wave := 9, half := false, core := 0, ctx := loadCtx, instr := .rast { w := 8, sp := 1, sr := 2, cont := false } }
    let full := fun (n : Nat) => world (fun m => { m with units := List.replicate n u }) id id room id
    legal 190 ∧ ¬ legal 191 ∧ ¬ legal 192 ∧ ¬ legal 256
    ∧ suits (world id id id room fun w => word 8 14 0 w) (fun e => legal (ctl e) ∧ need e = e.l.spad)
    ∧ suits (world id id id room fun w => word 8 11 16 w) (fun e => legal (ctl e) ∧ e.l.spad < need e)
    ∧ suits (world id id id room fun w => word 8 14 1 w) (fun e => legal (ctl e) ∧ e.l.spad < need e)
    ∧ suits (world id id id (fun l => { l with spad := 5440 }) id) (fun e => (e.w.word false 8 4 9 / 64 * 64) + 5184 + 256 ≤ e.l.spad)
    ∧ suits (world id id id room fun w => word 12 9 1024 w) (fun e => e.l.spad < e.w.word false 8 4 9 / 64 * 64 + 64)
    ∧ suits (full 15) (fun e => e.w.work 0 false ≠ [] ∧ (full 15).m.unitFull e.w.core .raster = false)
    ∧ suits (full 16) (fun e => (full 16).m.unitFull e.w.core .raster = true) := by decide +kernel

/-- A handle table of one entry at 0xB8000: a buffer of 256 bytes at 0x20000. -/
def handles : State :=
  world (fun m => ((data m).wrN 0xB8000 8 0x20000).wrN 0xB8008 16 0x30100000000000000000100) (fun x => { away x with htab := 0xB8000, hcount := 1 }) id room (lanes 1)

/-- `MacroCommands`, `ResidentTextureLoads` and `EngineCommands`: the last handle of the table, one beyond it, one of another
generation; `ldlod` of a handle that names no texture gives its lanes the status for it, and one that is stale stops. -/
theorem witness_handles :
    let o : OpLdlod := { k := 0, wide := false, strm := false, d := 9, sh := 5, vc := 6, ve0 := 7, ve1 := 8, au := false, av := false }
    let x := (handles.m.ctx? loadCtx).getD { part := 0, vf := 0, ctxid := 0, desc := 0 }
    let stale := world id id id room fun w => Wave.setS (lanes 1 w) false 5 1
    (handles.m.checkHandle 0 loadCtx x 0).1.isSome = true ∧ (handles.m.checkHandle 0 loadCtx x 1).1 = none ∧ (handles.m.checkHandle 0 loadCtx x 0x100000).1 = none
    ∧ (wave? (.ldlod o) handles).map (fun w => (w.getV false 8 0, w.getV false 9 0, w.pc)) = some (0x80000000, 0, 0x10010)
    ∧ suits stale (fun e => e.w.active false 0 ≠ [] ∧ (stale.m.checkHandle e.w.core e.w.ctx e.x 1).1 = none) := by decide +kernel

/-- `MacroSteps`: a step of a macro is at work. -/
theorem witness_macro_step :
    let u : UnitOp := { wave := 3, half := false, core := 0, ctx := loadCtx, instr := .rast { w := 8, sp := 1, sr := 2, cont := false } }
    let s := world (fun m => { m with units := [u] }) id id room fun w => { w with hold := .wait 0 .unit }
    s.m.units.find? (fun y => y.wave == 3) = some u ∧ (macFields u.instr).isSome = true ∧ moves (.macroStep 3) s = true
    ∧ (s.m.wave? 3).map s.m.resident = some true ∧ ctlSpp 2 < 3 ∧ ¬ ctlSpp 3 < 3 := by decide +kernel

/-- `PurseAndGeometryQueues`: the last slot of the purse, and none; slots that cannot be given back; a stage that is full and one
that is empty; and at a queue with room for four records, a batch of three vertices is opened and one of four is not. -/
theorem witness_queues :
    let x : Ctx := { part := 0, vf := 0, ctxid := 0xFFFF, desc := 0xA0000, pcount := 4, psize := 7, pbase := 0x20000, pguard := 0x20008 }
    let full := { x with fresh := 4, stages := [(1, [0, 1, 2, 3])] }
    let queue := fun (n : W64) => world (fun m => ((data m).wrN 0xB0000 8 0x20080).wrN 0xB0008 8 4) (fun x => { away x with pbase := 0x20000, pcount := 4, psize := 7, pguard := 0x20400 }) id room
      fun w => Wave.setS (base 0x20000 w) false 2 n
    let opened := fun (n : W64) => (leaves (.gqpushOpen 4 1 2 3) (queue n)).map fun t => ((t.m.wave? 3).map fun w => w.getS false 4, t.m.rdN 0xB000C 4, t.m.rdN 0xB0080 4)
    ({ x with fresh := 3 } : Ctx).takeSlot.map (·.1) = some 3 ∧ full.takeSlot = none ∧ full.giveSlot 4 = none ∧ ({ x with fresh := 3 } : Ctx).giveSlot 3 = none
    ∧ (full.giveSlot 3).isSome = true ∧ ({ full with freed := [3] } : Ctx).giveSlot 3 = none ∧ full.pushStage 1 3 = none ∧ (full.pushStage 0 3).isSome = true
    ∧ full.pushStage 0 4 = none ∧ full.popStage 0 = none ∧ (full.popStage 1).map (·.1) = some 0
    ∧ opened 3 = some (some 0, 4, 3) ∧ opened 4 = some (some 0xFFFFFFFFFFFFFFFF, 0, 0)
    ∧ (wave? (.psalloc 0 9 4) (queue 0)).map (fun w => (w.getV false 9 0, w.getK false 4)) = some (0, 1)
    ∧ suits (queue 0) (fun e => (e.x.steer e.x.pbase).1 = .global ∧ canonical e.x.pbase = true) := by decide +kernel

/-- A page with a trap handler: EMUENTRY of the context's descriptor names the code page. -/
def handler (m : Mach) : Mach := m.wrN 0xA0020 8 0x10040

/-- `TrapsAndUndefinedWords` and `TakingATrap`: lanes and none; a context with a handler, without, and with one on a page that may not be
executed; the last place on the stack, and none; a second `emulate()` and a third. -/
theorem witness_traps :
    let x : Ctx := { part := 0, vf := 0, ctxid := 0xFFFF, desc := 0xA0000 }
    let s := world handler id id id id
    let ok := fun (m : Mach) => match (xlate State.reset.mgmt m loadCtx (m.emuentry x) needX).1 with | .ok .. => true | _ => false
    let bad := (data s.m).wrN 0xA0020 8 0x20000
    let depth := fun (n : W64) (w : Wave) => { w with lo := { w.lo with emudepth := n } }
    suits s (fun e => e.w.hwMask ≠ 0) ∧ suits (demo (lanes 0)) (fun e => e.w.hwMask = 0)
    ∧ s.m.emuentry x = 0x10040 ∧ ok s.m = true ∧ (demo id).m.emuentry x = 0
    ∧ (match (xlate State.reset.mgmt bad loadCtx (bad.emuentry x) needX).1 with | .perm _ => true | _ => false) = true
    ∧ suits (world handler id id id (deep 255)) (fun e => e.w.stack.length < 256) ∧ suits (world handler id id id (deep 256)) (fun e => 256 ≤ e.w.stack.length)
    ∧ suits (world handler id id id (depth 1)) (fun e => ¬ 2 ≤ (e.w.half false).emudepth.toNat) ∧ suits (world handler id id id (depth 2)) (fun e => 2 ≤ (e.w.half false).emudepth.toNat)
    ∧ suits s (fun e => e.x.provides e.l.ucode 0 = false)
    ∧ suits (world id (fun x => { x with ucode := some { id := 1, ops := 0xFFFF, image := [] } }) id (fun l => { l with ucode := 1 }) id) (fun e => e.x.provides e.l.ucode 15 = true) := by
  decide +kernel

/-- R324: a half with lanes 0 to 7 takes `trap 2`: the cause of the trap entry, what it returns to, and the state of the wave. -/
theorem test_trap_entry :
    let v := wave? (.trap 2) (world handler id id id (lanes 0xFF))
    v.elim [] (fun w => [w.pc, w.lo.exec, w.getK false 15, w.lo.trapcause, w.lo.trapaddr, w.lo.laneflt])
      = [0x10040, 0xFFFFFFFF, 0xFF, 0x1002, 0x10000, 0xFF]
    ∧ v.elim [] (·.stack) = [{ rpc := 0x10008, mask := 0xFF, cause := 0x1002, kind := .trap }] := by decide +kernel

/-- `SpecialRegistersAndWindows`: the widest values written, with the bits that are reserved; and the window of the emulated word at
the last register of each file. -/
theorem test_special_registers :
    let s := world id id id id fun w => Wave.setS w false 1 0xFFFFFFFFFFFFFFFF
    let w := fun (r : SReg) (b : SC) (f : Half → W64) => (wave? (.wrsr r b) s).elim 0 fun w => f w.lo
    [w .fpctl (.sca 1) (·.fpctl), w .fpflag (.sca 1) (·.fpflag), w .trapcause (.sca 1) (·.trapcause), w .agelim (.sca 1) (·.agelim),
      w .agelim (.sca 2) (·.agelim)] = [0x1F, 0x3F, 0xFFFF, 0xFF, 1]
    ∧ ((leaves (.wrsr (.pmsel 7) (.sca 1)) s).bind fun t => t.m.ctx? loadCtx).elim (0 : W64) (fun x => mget 0 x.pmsel 7) = 0xC00000000000FFFF
    ∧ (wave? (.rdsr (.sca 2) .wdecl) (demo (pair 1 1))).elim [] (fun w => [w.getS false 2, w.getS true 2]) = [1, 5] := by decide +kernel

/-- The window registers of a wave that handles a word whose fields name `v255`, `s127` and `k15`, one after the other. -/
theorem test_windows :
    let s := demo fun w => Wave.setK (Wave.setS (Wave.setV (lanes 1 { w with lo := { w.lo with trapaddr := 0x10000 } }) false 255 0 9) false 127 7) false 15 5
    let at_ := fun (n : Nat) => { s with m := s.m.wrN 0x90000 8 (n * 2 ^ 40) }
    (wave? (.rdsrWindow (.wv 0 1 .wd 0)) (at_ 255)).map (fun w => w.getV false 1 0) = some 9
    ∧ (wave? (.rdsrWindow (.wv 0 1 .wd 1)) (at_ 255)).map (fun w => w.getV false 1 0) = some 0
    ∧ (wave? (.rdsrWindow (.ws 1 .wd 0)) (at_ 127)).map (fun w => w.getS false 1) = some 7
    ∧ (wave? (.rdsrWindow (.ws 1 .wd 1)) (at_ 127)).map (fun w => w.getS false 1) = some 0
    ∧ (wave? (.rdsrWindow (.wk (.k 3) .wd 0)) (at_ 15)).map (fun w => w.getK false 3) = some 5
    ∧ (wave? (.rdsrWindow (.wk (.k 3) .wd 1)) (at_ 15)).map (fun w => w.getK false 3) = some 1
    ∧ (wave? (.rdsrWindow (.wk (.k 3) .wd 2)) (at_ 15)).map (fun w => w.getK false 3) = some 0
    ∧ (wave? (.rdsrWindow (.ei0 1)) (at_ 15)).map (fun w => w.getS false 1) = some 0xF0000000000 := by decide +kernel

/-- `CountersAndInvalidations`: a context with PRIV and one without; a queue with a packet started, one that waits, and one that has
neither; the longest range, one beyond it, an empty one and a misaligned one; an access begun under an entry. -/
theorem witness_invalidations :
    let q : Queue := { part := 0, vf := 0, q := 0, ctx := loadCtx, desc := 0xB4000 }
    let s := fun (q : Queue) => world (fun m => { m with queues := [(20, q)] }) (fun x => { x with priv := true }) id id fun w => Wave.setS w false 1 0xB4000
    let at_ := fun (q : Queue) => ((s q).m.queueAt 0 loadCtx 0xB4000 none).map (·.1)
    let a : Access := { kind := .store, ty := .b32, scope := .wave, known := true, lanes := [{ half := false, lane := 0, space := .global, va := 0x20000 }] }
    let busy := world id id id id fun w => { w with acc := [a] }
    suits (s q) (fun e => e.x.priv = true ∧ (e.w.half false).exec ≠ 0) ∧ suits (demo id) (fun e => e.x.priv = false)
    ∧ at_ q = some 20 ∧ at_ { q with started := [{ idx := 0, kind := .copy 9, doneg := 0 }] } = some 20 ∧ at_ { q with wait := some (0x20000, 1) } = some 20
    ∧ rangeCover 0x10000 (2 ^ 32) = some (.run 1 (2 ^ 32)) ∧ rangeCover 0x10000 (2 ^ 32 + 1) = none ∧ rangeCover 0x10000 0 = none ∧ rangeCover 0x10001 1 = none
    ∧ rangeCover (2 ^ 56) 1 = none
    ∧ busy.m.begun loadCtx (.run 2 1) = true ∧ busy.m.begun loadCtx (.run 3 1) = false ∧ busy.m.ctx? loadCtx ≠ none := by decide +kernel

/-- `HiddenTransitions`: a wave whose lines are missing, a line in a core's cache, a dirty line at home and a page that can move. -/
theorem witness_hidden :
    let line : L1Line := { core := 0, ctx := loadCtx, line := 0x1600, vpages := [2], data := 7, valid := BitVec.allOnes 128, dirty := 1 }
    let s := world (fun m => { data m with l1 := [line], l2 := [{ line := 0x1700, dirty := true, owner := 0 }] }) away id room fun w => { w with missing := [4], image := 0xC0000 }
    (s.m.wave? 3).map (fun w => (s.m.resident w, w.missing)) = some (true, [4]) ∧ moves (.regfileLineFetch 3 4) s = true ∧ moves (.regfileLineFetch 3 5) s = false
    ∧ moves (.l1Writeback 0 loadCtx 0x1600) s = true ∧ moves (.l1Writeback 1 loadCtx 0x1600) s = false
    ∧ moves (.l2Writeback 0x1700) s = true ∧ moves (.l2Writeback 0x1600) s = false
    ∧ (match (s.m.ctx? loadCtx).map fun x => walk s.mgmt s.m x (2 * 65536) {} with | some (.ok pa _ lv) => pa == 0xB0000 && lv == 3 | _ => false) = true
    ∧ s.mgmt.owns 0 0xD0000 = true ∧ moves (.pageMigration loadCtx 2 0xB0000) s = false := by decide +kernel

/-- A queue whose descriptor stands at 0x20000 and whose ring, of 64 units, at 0x21000; `pk` is its packet. -/
def queued (pk : Nat) (q : Queue → Queue) : State :=
  let record := 0x24000 + 2 ^ 64 * 1 + 2 ^ 128 + 2 ^ 160 + 2 ^ 192 + 2 ^ 224
  world (fun m => { (((((data m).wrN 0xB0000 8 0x21000).wrN 0xB0008 8 12).wrN 0xB1000 128 pk).wrN 0xB2000 64 record).wrN 0xB4000 8 0x0800000000000040 with
    queues := [(20, q { part := 0, vf := 0, q := 0, ctx := loadCtx, desc := 0x20000, rung := 2 })] }) away id room id

/-- `PacketsAndCompletions`: each type of packet, at the start of its ring, is accepted; a length of 1 byte and of 2^40; a queue
that has seen its doorbell, and one that has not; and a guard at its value. -/
theorem witness_packets :
    let ridx := fun (i : Instr) (s : State) => (leaves i s).elim 99 fun t => (lookup t.m.queues 20).elim 98 fun q => if q.halted then 97 else q.ridx
    let fill := fun (t : Nat) (body : Nat) => 0x10000 + t + 2 ^ 64 * body
    let copy := fun (n : Nat) => fill 3 (0x22000 + 2 ^ 64 * 0x23000 + 2 ^ 128 * n)
    let tasks := 0x20002 + 2 ^ 64 * 1 + 2 ^ 128 * 0x25000 + 2 ^ 192 * 1 + 2 ^ 512 * 0x22000
    let surf := fun (s : State) => { s with m := (s.m.wrN 0xB5000 8 0x28000).wrN 0xB5008 8 0x8000010001 }
    let q := queued 0x10000 id
    [ridx (.pad 20) q, ridx (.launch 20) (queued (fill 1 0x22000) id), ridx (.copy 20) (queued (copy 1) id), ridx (.copy 20) (queued (copy (2 ^ 40)) id),
      ridx (.copy 20) (queued (copy 0) id), ridx (.copy 20) (queued (copy (2 ^ 40 + 1)) id),
      ridx (.waitguard 20) (queued (fill 4 (0x20800 + 2 ^ 64 * 5)) id), ridx (.signal 20) (queued (fill 5 0x20800) id), ridx (.taskset 20) (surf (queued tasks id))]
      = [1, 1, 1, 1, 97, 97, 1, 1, 2]
    ∧ ridx (.pad 20) (queued 0x10000 fun q => { q with rung := 0 }) = 0
    ∧ moves (.doorbell 0 0 0 3) q = true ∧ moves (.doorbell 0 0 0 2) q = false ∧ moves (.doorbell 0 0 0 3) (queued 0x10000 fun q => { q with halted := true }) = true
    ∧ (moves (.waitguardRelease 20) (queued 0x10000 fun q => { q with wait := some (0x20800, 0) })) = true
    ∧ (moves (.waitguardRelease 20) (queued 0x10000 fun q => { q with wait := some (0x20800, 1) })) = false
    ∧ moves (.launchComplete 1) (world id id id (fun l => { l with ended := 1 }) id) = true ∧ moves (.launchComplete 1) (demo id) = false := by decide +kernel

/-- `Tasksets`: a task that waits, one that is admitted, one that runs, and the last one that retires; with the last free entry of a
table, and none. -/
theorem witness_tasks :
    let k : Task := { lrec := 0x22000, proto := loadLaunch, rects := List.replicate 6 { surf := 0, x0 := 0, y0 := 0, x1 := 0, y1 := 0 }, pack := false, lanes := 0 }
    let y := fun (l : List Task) => ({ ctx := loadCtx, queue := 20, pkt := 0, span := 0, surfs := [], tasks := l } : TaskSet)
    let s := fun (f : Ctx → Ctx) (l : List (Nat × TaskSet)) => world (fun m => { data m with tsets := l }) (fun x => f { away x with tcbbase := 0x26000 }) id id id
    let full := fun (n : Nat) => (s id [(31, y ((List.range n).map fun i => { k with state := .started, entry := i }))]).m.entries 0
    moves (.taskAdmit 30) (s id [(30, y [k])]) = true ∧ moves (.taskStart 30 0) (s id [(30, y [{ k with state := .admitted }])]) = true
    ∧ moves (.taskStart 30 0) (s id [(30, y [{ k with state := .admitted, preds := [(30, 1)] }, k])]) = false
    ∧ moves (.taskRetire 30 0) (s id [(30, y [{ k with state := .started }, k])]) = true ∧ moves (.taskRetire 30 0) (s id [(30, y [{ k with state := .started }])]) = true
    ∧ firstFree (full 3) 4 = some 3 ∧ firstFree (full 4) 4 = none := by decide +kernel

/-- `BlockPlacement`: a record that starts block 0 of a launch, one that names no launch, one with more slots than the block has waves, and
one that resumes what is not there. -/
theorem witness_placement :
    let r : BindRec := { lrec := 0, blockid := 0, ctxid := 0xFFFF, waves := 1, resume := false, task := false, cls := 0, bimg := 0x200000, slots := 2 }
    let s := world id id id (fun l => { l with begun := [], vregs := 8 }) fun w => { w with allow := 8 }
    let state := fun (r : BindRec) => (leaves (.bindRecordValid 0 5 r) s).elim 9 fun t => (t.m.recAt 0 5).elim 8 fun y => y.state.toNat
    s.mgmt.partOf 0 = some 0 ∧ s.m.ctx? (ctxKey 0 r.ctxid) ≠ none ∧ (s.m.launchFor loadCtx r).map (·.1) = some 1 ∧ s.m.placeFree 0 5 = true
    ∧ s.m.launchFor loadCtx { r with blockid := 1 } = none ∧ s.m.launchFor loadCtx { r with waves := 2 } = none
    ∧ slotMasks 2 .w32 = some [2] ∧ slotMasks 2 .w64 = none ∧ slotMasks 0xC .w64 = some [0xC] ∧ (slotMasks 6 .w32).map (·.length) = some 2
    ∧ state r = 1 ∧ state { r with blockid := 1 } = 3 ∧ state { r with slots := 6 } = 3 ∧ state { r with resume := true } = 3 := by decide +kernel

/-- `PreemptionAndSlices`: a block that has drained, one whose store takes the last place of the escrow log, and one that finds none; a partition of two functions whose slice ends, and that switches. -/
theorem witness_preemption :
    let a : Access := { kind := .store, ty := .b32, scope := .wave, known := true, lanes := [{ half := false, lane := 0, space := .global, va := 0x20000 }] }
    let state := fun (s : State) => (leaves (.blockPreempt 2) s).bind fun t => (t.m.block? 2).map (·.state)
    let two := { demo id with mgmt := { State.reset.mgmt with table := State.reset.mgmt.table.modify 0 fun y => { y with nvf := 2 } } }
    let halted := { two with m := two.m.putPart 0 { two.m.part 0 with halted := true } }
    let e : Escrow := { core := 0, ctx := loadCtx, wave := 3, half := false, launch := 1, vline := 0x40000, seq := 0, scope := .wave, kind := .store [] }
    let log := fun (n : Nat) => world (fun m => { m with escrow := List.replicate n e }) away id id fun w => { w with acc := [{ a with known := false }] }
    state (demo id) = some .preempted ∧ state (log 63) = some .preempted ∧ state (log 64) = some .running
    ∧ (two.mgmt.entry 0).nvf = 2 ∧ moves (.timeSliceEnd 0) two = true ∧ moves (.timeSliceEnd 0) (demo id) = false
    ∧ halted.m.nextVf halted.mgmt 0 < 2 ∧ moves (.worldSwitch 0 (halted.m.nextVf halted.mgmt 0)) halted = true := by decide +kernel

/-- `ControlRequests`: a function and one beyond the partition's; every request that is legal, one that nothing defines, and a registration. -/
theorem witness_control :
    let s := queued 0x10000 id
    let desc := fun (s : State) => { s with m := ((s.m.wrN 0x100084 2 1).wrN 0x100078 8 0x180000).wrN 0x18000C 1 6 }
    let status := fun (i : Instr) (s : State) => (leaves i s).elim 99 fun t => (t.m.vf 0 0).status.toNat
    s.mgmt.hasVf 0 0 = true ∧ s.mgmt.hasVf 0 1 = false
    ∧ [status (.ctlTlbinv 0 0 0 0 0xFFFF 8) s, status (.ctlTlbinv 0 0 0 0 0xFFFF 0x18) s, status (.ctlTlbinv 0 0 0 0 7 8) s, status (.ctlQrst 0 0 0x20000 0) s,
        status (.ctlQrst 0 0 0x20001 0) s, status (.ctlPmctl 0 0 0 0xFFFF) s, status (.registerContext 0 0 0x100000) (desc s), status (.registerContext 0 0 0x100001) (desc s),
        status (.retireContext 0 0 0xFFFF) s, status (.setInterruptRecord 0 0 0x100040) s, status (.setInterruptRecord 0 0 0x100020) s, status (.ctlResetContext 0 0 0xFFFF) s]
      = [0, 0xFF, 1, 0, 1, 0, 0, 2, 0, 0, 2, 0]
    ∧ undefinedReq 0 0 = true ∧ undefinedReq 8 0 = true ∧ undefinedReq 7 0 = false ∧ undefinedReq 4 1 = true ∧ undefinedReq 1 0x30 = true ∧ undefinedReq 1 0x20 = false := by
  decide +kernel

/-- `ResetScopes`, `ManagementPort`: a module that has power and one that has none; the values at the ends of each range; every request that
acts, and each that does nothing. -/
theorem witness_management :
    let s := demo id
    let off := { s with mgmt := { s.mgmt with powered := false } }
    let failed := fun (n : Nat) => { s with mgmt := { s.mgmt with replays := [(3, n)] } }
    let core := fun (n : Nat) => { s with mgmt := { s.mgmt with coreErrs := [(5, n)] } }
    s.mgmt.powered = true ∧ moves .deviceReset off = false ∧ moves .powerOn off = true ∧ moves .powerOn s = false ∧ moves .deviceReset s = true
    ∧ [moves (.contextReset loadCtx 0 0) s, moves (.vfReset 0 0) s, moves (.vfReset 0 1) s, moves (.partitionReset 0) s, moves (.partitionReset 8) s] = [true, true, false, true, false]
    ∧ [moves (.setPowerCap 1800) s, moves (.setPowerCap 1901) s, moves (.writePeerWindow 15 0x8000000000000000) s, moves (.writePeerWindow 16 0x8000000000000000) s,
        moves (.writePeerWindow 15 0x80) s] = [true, false, true, false, false]
    ∧ [moves (.flitCrcFail ⟨15, false⟩) s, moves (.flitCrcFail ⟨16, false⟩) s, moves (.linkdown 3) (failed 8), moves (.linkdown 3) (failed 7)] = [true, false, true, false]
    ∧ [moves (.coreRetire 5) (core 65), moves (.coreRetire 5) (core 64), moves (.coreRetire 192) s] = [true, false, false]
    ∧ legalTable s.mgmt.table = true := by decide +kernel

/-- `OutsideAccesses`: the last bytes of memory and the first beyond it; the first and the last page of doorbells; a control page. -/
theorem witness_outside :
    let s := queued 0x10000 id
    let pa := 0xB0000
    memRange pa 8 = true ∧ s.mgmt.booted = true ∧ s.mgmt.owns 0 pa = true ∧ s.mgmt.owns 1 pa = false
    ∧ ((leaves (.hostMemoryAccess ⟨0, pa⟩ (.read 4)) s).elim [] fun t => t.m.outside) = [0, 0x10, 2, 0]
    ∧ ((leaves (.hostMemoryAccess ⟨0, pa⟩ (.write [1, 2])) s).elim [] fun t => t.m.rd pa 4) = [1, 2, 2, 0]
    ∧ ((leaves (.pcieDma 0 pa (.atom .add .n32 1 0)) s).elim 0 fun t => t.m.rdN pa 4) = 0x21001
    ∧ moves (.pcieDma 1 pa (.write [1])) s = false ∧ moves (.hostMemoryAccess ⟨0, 2 ^ 51⟩ (.write [3, 0, 0, 0, 0, 0, 0, 0])) s = true := by decide +kernel

/-- `StepRunsTheDecodedInstruction`: the step after reset with a word placed issues the wave, and runs it: an addition, an undefined word,
a word whose registers lie beyond the wave's allowance, and the zero word. -/
theorem witness_step :
    let s := State.reset.withFetchWord 64 0x0100000000000000
    (match step s with | .next t => (t.m.wave? 3).map fun w => w.pc | _ => none) = some 0x10008
    ∧ s.agenda = [.issue 3] ∧ ((s.m.wave? 3).map fun w => (s.m.resident w, w.missing, w.hold == .none)) = some (true, [], true) := by decide +kernel

/-- `ManagementStaysLegal` and `WavesDoNotManage`: the machine after reset is legal, and an instruction that a wave issues leads on from it. -/
theorem witness_legal : State.reset.legal ∧ isEvent .nop = false ∧ moves .nop (demo id) = true :=
  ⟨by unfold State.legal; decide, by decide, by decide +kernel⟩

/-! ## Values, lines and pages -/

/-- `FloatRounding`: the least and the greatest finite codes of each type, both zeros, and a sum that is zero; operands of whole steps. -/
theorem witness_rounding :
    (∀ f ∈ [Fmt.f32, Fmt.f64, Fmt.f16, Fmt.bf16], ∀ x ∈ [0, 1, f.infPat - 1], x < 2 ^ f.width ∧ f.mag x < f.infPat ∧ f.neg? x = false)
    ∧ [0, 1, 0x7F7FFFFF].map (fun x => (Fmt.f32.parts (Fmt.f32.mag x)).1) = [0, 1, 0xFFFFFF]
    ∧ Fmt.f32.add .near false 0x3F800000 0xBF800000 = (0, 0) ∧ Fmt.f32.add .down false 0x3F800000 0xBF800000 = (0x80000000, 0)
    ∧ Fmt.f32.mag 0x3FC00000 < Fmt.f32.infPat ∧ Fmt.f32.round .near 0x3FC00000 = (0x40000000, 0) := by decide +kernel

/-- `L1Lines` and `WritesToMemory`: a store of the last bytes of a line, over a line that is held and over none; two lines with a dirty
byte, of which one is chosen; a scope within a core and one beyond. -/
theorem witness_lines :
    let line : L1Line := { core := 0, ctx := loadCtx, line := 0x1600, vpages := [2], data := 7, valid := BitVec.allOnes 128, dirty := 1 }
    let m := { (data (demo id).m) with l1 := [line, { line with line := 0x1601, data := 9 }] }
    let held := fun (m : Mach) => (m.l1.find? fun y => y.is 0 loadCtx 0x1600).map fun y => (y.dirty.getLsbD 0, y.dirty.getLsbD 127, lineByte y.data 127)
    126 + [(5 : Byte), 6].length ≤ 128 ∧ held m = some (true, false, 0) ∧ held (m.l1Store 0 loadCtx 0x1600 2 126 none [5, 6]) = some (true, true, 6)
    ∧ held ((demo id).m.l1Store 0 loadCtx 0x1600 2 126 none [5, 6]) = some (false, true, 6)
    ∧ (let n := m.l1FlushAll fun y => y.line == 0x1600; (n.rdN 0xB0000 1, n.rdN 0xB0080 1) = (7, 0))
    ∧ scopeWide .wave = false ∧ scopeWide .block = false ∧ scopeWide .device = true ∧ (m.releaseTo loadCtx .device).rdN 0xB0080 1 = 9 := by decide +kernel

/-- `AccessResults`: a load of two halves of a pair, of a wide type and of a narrow one; an atomic into a scalar register. -/
theorem witness_results :
    let y := fun (p : Bool) (l : Nat) (x : W64) => ({ half := p, lane := l, space := .global, va := 0, val := x } : LaneAcc)
    let a := fun (k : AccKind) (t : Ty) => ({ kind := k, ty := t, scope := .wave, lanes := [y false 15 0x80000000000000F5, y true 0 7] } : Access)
    let w := (demoEnv (pair 0x8000 1)).w
    let v := fun (k : AccKind) (t : Ty) => w.writeBack (a k t)
    (∀ x ∈ (a .store .b32).lanes, x.half ∈ w.groups ∧ x.lane < w.W)
    ∧ ((a .store .b32).lanes.map fun x => (x.half, x.lane)) = [(false, 15), (true, 0)]
    ∧ ((v (.load (.vec 9)) .i64).getV false 9 15, (v (.load (.vec 9)) .i64).getV false 10 15, (v (.load (.vec 9)) .i64).getV true 9 0) = (0xF5, 0x80000000, 7)
    ∧ (v (.load (.vec 9)) .i8).getV false 9 15 = 0xFFFFFFF5 ∧ (v (.atom .add (some (.sca 9))) .n32).getS true 9 = 7 := by decide +kernel

/-- Pages of several sorts: 2 is data; 3 may be read only; the entry of 4 is malformed, 5 is foreign, 7 and every
other is absent. -/
def pages : State :=
  world (fun m => (data m).wrN 0x81030 8 0xC0007 |>.wrN 0x81040 8 0xD0027 |>.wrN 0x81050 8 0x4000000000007) away id room (base 0x20000)

/-- `Translation`: each outcome of a walk; a pointer of each level; a page whose leaf is cached, and one whose pointers are. -/
theorem witness_translation :
    let m := pages.m
    let at_ := fun (p : Nat) (need : Need) => match (xlate pages.mgmt m loadCtx (65536 * p + 4) need).1 with
      | .ok pa _ lv => (pa, lv)
      | .absent lv => (1, lv)
      | .perm c => (2, if c then 1 else 0)
    (m.ctx? loadCtx).isSome = true ∧ at_ 2 needRW = (0xB0004, 3) ∧ at_ 3 needR = (0xC0004, 3) ∧ at_ 3 needRW = (2, 1) ∧ at_ 4 needR = (2, 1) ∧ at_ 5 needR = (2, 1)
    ∧ at_ 7 needR = (1, 3) ∧ at_ 0x20 needR = (1, 2) ∧ at_ 0x2000 needR = (1, 1) ∧ at_ 0x8000000 needR = (1, 0)
    ∧ m.cachedLeaf loadCtx 2 = none ∧ m.cachedPtr loadCtx 2 = none
    ∧ (let n := (xlate pages.mgmt (m.askWave (demoEnv id).w) loadCtx 0x20004 needR).2
       ((n.askWave (demoEnv id).w).cachedLeaf loadCtx 2).isSome = true ∧ ((n.askWave (demoEnv id).w).cachedPtr loadCtx 3).map (·.level) = some 2)
    ∧ (((xlate pages.mgmt m loadCtx 0x30004 needRW).2).part 0).errcnt = (m.part 0).errcnt + 1 := by decide +kernel

/-- `FaultRecords`: the first absence of a page, a second one, and the table's last entry taken; a ring of 64 records with room for one
more, and without. -/
theorem witness_records :
    let pend := fun (n : Nat) => (List.range n).map fun i => ({ page := 100 + i, level := 3, kinds := 1, waiting := 1 } : Pend)
    let s := fun (n : Nat) (widx : Nat) => world (fun m => (m.wrN 0x9F000 8 widx).wrN 0x9F00C 1 6) (fun x => { x with fltring := 0x9F000, pending := pend n }) id id id
    let absent := fun (s : State) (p : Nat) => (((s.m.absent loadCtx (65536 * p) 3 2).ctx? loadCtx).map fun x => (x.pending.length, (x.pending.getLast?).map (·.waiting))).getD (0, none)
    let room := fun (s : State) => decide ((s.m.rdN 0x9F000 4 + 2 ^ 32 - s.m.rdN 0x9F004 4) % 2 ^ 32 < 2 ^ s.m.rdN 0x9F00C 1)
    let x := fun (s : State) => (s.m.ctx? loadCtx).map fun x => ((x.pending.find? fun p => p.page == 100).map (·.written), x.pmsel, (s.m.vf x.part x.vf).irq)
    absent (s 1 0) 100 = (1, some 2) ∧ absent (s 1 0) 7 = (2, some 1) ∧ absent (s 255 0) 7 = (256, some 1) ∧ absent (s 256 0) 7 = (256, some 1)
    ∧ room (s 1 63) = true ∧ room (s 1 64) = false ∧ x (s 1 63) = some (some false, [], none)
    ∧ moves (.faultRecordWrite loadCtx 100) (s 1 63) = true ∧ moves (.faultRecordWrite loadCtx 100) (s 1 64) = false
    ∧ (let n := (s 1 63).m.faultWrite loadCtx 100; (n.rdN (0x9F040 + 32 * 63) 8, n.rdN 0x9F000 4)) = (0x640000, 64) := by decide +kernel

/-- `AbsentAndForbiddenPages`: a load and a store of an absent page, with room in the escrow log for one more and without; a store of a page
that may be read only; a load that is held. -/
theorem witness_absent :
    let a := fun (k : AccKind) (va : Nat) (held : Bool) =>
      ({ kind := k, ty := .b32, scope := .wave, held, lanes := [{ half := false, lane := 0, space := .global, va }] } : Access)
    let e : Escrow := { core := 0, ctx := loadCtx, wave := 9, half := false, launch := 1, vline := 0x40000, seq := 0, scope := .wave, kind := .store [] }
    let s := fun (n : Nat) (a : Access) => { pages with m := { pages.m with escrow := List.replicate n e, waves := pages.m.waves.map fun x => (x.1, { x.2 with acc := [a] }) } }
    let t := fun (s : State) => ((leaves (.memoryAccessPerformed 3 0 1) s).bind fun t => (t.m.wave? 3).map fun w => (t.m.escrow.length, w.acc.map (·.held), w.lo.trapcause))
    t (s 0 (a (.load (.vec 9)) 0x70000 false)) = some (0, [true], 0)
    ∧ t (s 63 (a .store 0x70000 false)) = some (64, [], 0) ∧ t (s 64 (a .store 0x70000 false)) = some (64, [true], 0)
    ∧ t (s 0 (a (.atom .add none) 0x70000 false)) = some (1, [], 0) ∧ t (s 0 (a (.atom .add (some (.vec 9))) 0x70000 false)) = some (0, [true], 0)
    ∧ moves (.memoryAccessPerformed 3 0 1) (s 0 (a (.load (.vec 9)) 0x70000 true)) = false
    ∧ moves (.memoryAccessPerformed 3 0 1) (s 0 (a .store 0x30000 false)) = true
    ∧ ((s 0 (a .store 0x30000 false)).m.wave? 3).map (s 0 (a .store 0x30000 false)).m.resident = some true := by decide +kernel

/-- `MatrixResults`: a group with a NaN product, one where infinity meets zero, one with both infinities, one with one of them, and finite
groups whose sums are zero and not; each kind of latch; a load that ends, a record that stands and one that does not. -/
theorem witness_groups :
    let y := fun (x : Nat) => MElt.ieee .f32 x
    let sum := fun (l : List (Nat × Nat)) => (l.foldl (fun (s : GSum) x => s.addProduct (y x.1) (y x.2) 0) ({} : GSum)).round.1
    let one := 0x3F800000
    let inf := 0x7F800000
    let b : Block := { ctx := loadCtx, launch := 1, core := 0, idx := 0, blockid := 0, serial := 2, claimed := BitVec.allOnes 48 }
    let cmd := fun (i : Instr) => ({ core := 0, wave := 3, half := false, block := 2, instr := i, accepted := true } : MCmd)
    let load : Instr := .wload { q := 0, a := 5, fmt := .q4, sp := 9, scale := some { slot := 7, soff := 3 }, cont := false }
    let mint := fun (o : BitVec 8) => Instr.wmint { q := 0, a := 5, off := o, sp := 9, cont := false }
    let m := fun (i : Instr) => (world (fun m => { m with array := [cmd i] }) id (fun _ => b.wrOm (16384 * 5 + 8) [1, 0, 1, 0, 1, 0]) room id).m
    let src := fun (i : Instr) => ((m i).block? 2).bind fun b => ((stepCmd (m i) (cmd i) b).block? 2).map fun b =>
      (if wsV b.wsrc then 1 else 0) :: [wsFmt b.wsrc, wsWsl b.wsrc, wsWoff b.wsrc, wsSsl b.wsrc, wsSoff b.wsrc]
    [sum [(one, 0x7FC00001)], sum [(inf, 0)], sum [(inf, one), (inf, 0xBF800000)], sum [(inf, 0xBF800000)], sum [(one, one), (one, 0xBF800000)], sum [(one, one), (one, one)]]
      = [0x7FC00001, Fmt.f32.nan, Fmt.f32.nan, 0xFF800000, 0, 0x40000000]
    ∧ b.judge 48 load = .runs ∧ (mintRec (b.wrOm (16384 * 5 + 8) [1, 0, 1, 0, 1, 0]).om (16384 * 5)).ok = true ∧ (mintRec b.om (16384 * 5)).ok = false
    ∧ src load = some [1, 8, 5, 0, 7, 3] ∧ src (mint 0) = some [1, 0xC, 5, 0, 0, 0] ∧ src (mint 1) = some [0, 0, 0, 0, 0, 0] := by decide +kernel

/-- `MatrixResults`: the first candidate of a search of two, over a tile of one element; and its last. -/
theorem witness_search :
    let o : OpMseek := { q := 0, d := 2, a := 0, b := 1, nc := 1, sp := 9, sb := 10, j := 1, kd := 0, nd := 0, roff := 0, boff := 0, cont := false }
    let b := (({ ctx := loadCtx, launch := 1, core := 0, idx := 0, blockid := 0, serial := 2, claimed := BitVec.allOnes 48 } : Block).wrOm 0 [0x80, 0x3F]).wrOm 16384 [1]
    let c := fun (n : Nat) => ({ core := 0, wave := 3, half := false, block := 2, instr := .mseek o, accepted := true, count := n } : MCmd)
    let m := fun (n : Nat) => (world (fun m => { m with array := [c n] }) id (fun _ => b) room id).m
    let p := fun (n : Nat) => ((stepCmd (m n) (c n) b).wave? 3).map fun w => w.getS false 9
    (0 < o.nc.toNat + 1 ∧ 1 < o.nc.toNat + 1 ∧ o.sb ≠ o.sp) ∧ ((m 0).wave? 3).map (·.missing) = some []
    ∧ p 0 = some (progress true 1) ∧ p 1 = some (progress false 2) := by decide +kernel

/-- `PrologueTransforms`: a copy of a row that ends with the scratchpad's last byte, one that goes beyond it, a block of q4 weights, and a
conversion; a row from memory. -/
theorem witness_transforms :
    let x : Xform := { kind := 0, sfmt := 4, dfmt := 4, handle := false, tab := 0, src := 0x20000, base := 1008, s1 := 0, mode := 0, rows := 1, cols := 16, sstr := 0
                       bstr := 16, idx := 0, plain := true }
    let e : PkEnv := { g := State.reset.mgmt, c := loadCtx, x := (demoEnv id).x }
    let m := (data (demo id).m).wrN 0xB0010 4 0x07060504
    let run := fun (x : Xform) => match e.runXform x 1 (demoEnv id).b m with
      | .ok (b, _) _ => b.rdSpad 1008 4
      | .error .. => []
    x.ok 1024 [] = true ∧ x.ok 1023 [] = false ∧ ({ x with rows := 0 } : Xform).ok 1024 [] = false ∧ ({ x with base := 992, kind := 2, sfmt := 8, dfmt := 3 } : Xform).ok 1024 [] = true
    ∧ ({ x with kind := 3 } : Xform).ok 1024 [] = true ∧ ({ x with kind := 1, sfmt := 0, dfmt := 4, cols := 1 } : Xform).elements [] [0, 0, 0x80, 0x3F] = some ([0x38], 0)
    ∧ ({ x with kind := 1, sfmt := 0, dfmt := 0, cols := 1 } : Xform).elements [] [0, 0, 0x80, 0x3F] = some ([0x3F800000], 0)
    ∧ run x = [4, 5, 6, 7] := by decide +kernel

/-- `PreemptionAndSlices` and `BlockPlacement`: a small task that is placed, alone in its record's wave, and that starts there. -/
theorem witness_small_tasks :
    let r : BindRec := { lrec := 0, blockid := 0, ctxid := 0xFFFF, waves := 1, resume := false, task := true, cls := 0, bimg := 0x200000, slots := 2 }
    let k : Task := { lrec := 0, proto := loadLaunch, rects := [], pack := true, lanes := 5, state := .started, launch := some 1 }
    let y : TaskSet := { ctx := loadCtx, queue := 20, pkt := 0, span := 0, surfs := [], tasks := [k] }
    let s := fun (f : List Forming) => world (fun m => { m with tsets := [(30, y)], forming := f, slotTab := f.map fun f =>
      { core := f.core, idx := f.idx, part := 0, vf := 0, br := r, valid := true, state := 0, block := none } })
      (fun x => { x with tcbbase := 0x26000 }) id (fun l => { l with begun := [], task := some (30, 0), vregs := 8 }) fun w => { w with allow := 8 }
    let f : Forming := { core := 0, idx := 5, ctx := loadCtx, tasks := [{ ts := 30, t := 0, at_ := 0, lanes := 5 }] }
    let small := fun (s : State) => (s.m.launchFor loadCtx r).bind fun y => s.m.smallTask y.2
    let wave := (leaves (.packedWaveStart 0 5) (s [f])).bind fun t => t.m.wave? ((s [f]).m.nextId + 1)
    small (s []) = some (30, 0, 5) ∧ (slotMasks r.slots .w32).map List.length = some 1
    ∧ (s []).m.joinAt { core := 0, idx := 5, ctx := loadCtx, tasks := [] } loadLaunch 5 = some 0
    ∧ ((leaves (.bindRecordValid 0 5 r) (s [])).map fun t => t.m.formingAt 0 5) = some (some f)
    ∧ (s [f]).m.joinAt f { loadLaunch with begun := [], task := some (30, 0), vregs := 8 } 5 = some 8
    ∧ wave.map (fun w => (w.lo.exec, w.getV false 0 4, w.getV false 2 4)) = some (0x1F, 0x26000, 4) := by decide +kernel

/-- `BlockPlacement`: a block that was pre-empted, which its record resumes; a record whose block has ended is no longer valid. -/
theorem witness_resume :
    let r : BindRec := { lrec := 0, blockid := 0, ctxid := 0xFFFF, waves := 1, resume := true, task := false, cls := 0, bimg := 0x200000, slots := 2 }
    let s := world (fun m => m.wrN 0x200018 8 5) id (fun b => { b with state := .preempted, image := 0x200000 }) (fun l => { l with vregs := 8 }) fun w => { w with allow := 8 }
    let ended := { s with m := { s.m with slotTab := [{ core := 0, idx := 5, part := 0, vf := 0, br := r, valid := true, state := 2, block := none }] } }
    s.m.placeFree 0 5 = true ∧ ((leaves (.bindRecordValid 0 5 r) s).bind fun t => (t.m.block? 2).map fun b => (b.state, b.claimed.toNat, b.idx)) = some (.running, 5, 5)
    ∧ ((leaves (.bindRecordValid 0 5 r) s).bind fun t => (t.m.wave? 3).map fun w => (w.slots, w.missing.length)) = some (2, 0)
    ∧ ((leaves (.bindRecordValid 0 5 { r with blockid := 1 }) s).bind fun t => t.m.recAt 0 5).map (·.state) = some 3
    ∧ ((ended.m.clearRec 0 5).recAt 0 5).map (·.valid) = some false := by decide +kernel

/-- `IssueOrder`: two ready waves, one of which has yielded, has been passed over 64 times, or became resident first; a wait whose word
reaches its target, and is overwritten before the wave looks. -/
theorem witness_issue_order :
    let w := (demoEnv id).w
    let pick := fun (a b : Wave) => (pickWave [(3, a), (4, b)]).map (·.1)
    let wait := world data away id room fun w => { w with hold := .wait 0 (.gwait [(0xB0000, 5)] false) }
    let hold := fun (n : Nat) => ({ wait.m with mem := (wait.m.wrN 0xB0000 8 n).mem } : Mach).wakeWaiters.wave? 3 |>.map (·.hold)
    pick { w with resident := 9 } w = some 4 ∧ pick { w with resident := 9, passed := 64 } w = some 3 ∧ pick { w with yielded := true } { w with resident := 9 } = some 4
    ∧ pick { w with yielded := true } { w with yielded := true } = some 3 ∧ (demo id).nextWave.map (·.1) = some 3
    ∧ hold 4 = some (.wait 0 (.gwait [(0xB0000, 5)] false)) ∧ hold 5 = some (.wait 0 (.gwait [] false))
    ∧ wait.m.holdOver 3 { w with hold := .wait 0 (.gwait [] false) } = true ∧ wait.m.holdOver 3 { w with hold := .wait 0 (.gwait [(0xB0000, 5)] false) } = false := by decide +kernel

/-- `RegistrationAndInterrupts`: a legal descriptor, without a microcode set; one whose ring is too small, or whose function is another;
and a function with an interrupt record. -/
theorem witness_registration :
    let s := (demo id).m
    let m := (((s.wrN 0x100084 2 1).wrN 0x100078 8 0x180000).wrN 0x18000C 1 6)
    let st := fun (m : Mach) (vf desc : Nat) => (register State.reset.mgmt m 0 vf desc).1
    let rec_ := fun (on : Nat) => ((s.wrN 0x180000 8 0x7000).wrN 0x180008 8 (9 + on * 2 ^ 32)).putVf 0 0 { (s.vf 0 0) with irq := some 0x180000 }
    st m 0 0x100000 = 0 ∧ st m 1 0x100000 = 2 ∧ st (m.wrN 0x18000C 1 5) 0 0x100000 = 2 ∧ st (m.wrN 0x18000C 1 17) 0 0x100000 = 2 ∧ st (m.wrN 0x100068 4 (2 ^ 20 + 1)) 0 0x100000 = 2
    ∧ st (m.wrN 0x100088 8 0x1C0000) 0 0x100000 = 3 ∧ st (m.wrN 0x100084 2 0xFFFF) 0 0x100000 = 2
    ∧ ((rec_ 1).interrupt 0 0 4).msis = s.msis ++ [(0x7000, 9)] ∧ ((rec_ 1).interrupt 0 0 4).rdN 0x180010 8 = 4 ∧ ((rec_ 0).interrupt 0 0 4).msis = s.msis
    ∧ ((s.interrupt 0 0 4).vf 0 0).kept = (s.vf 0 0).kept ||| 4 := by decide +kernel

/-- A handle of a texture of one texel, its descriptor at the base of page 2, where its level lies too. -/
def texture : State :=
  { handles with m := (((handles.m.wrN 0xB8012 1 2).wrN 0xB0000 8 0x20000).wrN 0xB0008 8 0x20800).wrN 0xB0010 9 0x010000000100000001
                    |>.wrN 0xB0800 8 1 }

/-- `MemoryFormsComplete`: a wave of one lane, whose guard word is mapped, completes each form: where it goes on, and the result it leaves. -/
theorem witness_memory_forms :
    let s := world data (fun x => { away x with priv := true, pinlim := 1 }) id room fun w => Wave.setS (Wave.setS (base 0x20000 w) false 2 0x40000) false 3 0xFFFF |> fun w => Wave.setS w false 6 128
    let run := fun (i : Instr) => (wave? i s).elim [] fun w => [w.pc, w.getS false 5]
    let none_ := fun (w : Wave) => decide (w.hold = .none)
    let o := { at1 with k := 2 }
    let ol : OpLdlod := { k := 0, wide := false, strm := false, d := 9, sh := 5, vc := 6, ve0 := 7, ve1 := 8, au := false, av := false }
    suits s (fun e => e.w.acc = [] ∧ e.w.passes = [false] ∧ (e.homes s.m needRW (fun p => (e.w.getS p 1).toNat) e.w.passes).1 = [(false, .at 0xB0000)]
      ∧ (e.w.getS false 4).toNat ≤ s.m.homeN 0xB0000 8 ∧ e.w.ctx = ctxKey e.x.part e.x.ctxid ∧ e.x.priv = true)
    ∧ s.m.escrow = [] ∧ s.m.poisoned 0xB0000 8 = false ∧ s.m.l1 = []
    ∧ [Instr.pref at1, .l2pinPin 2 o, .l2pinUnpin 2 o, .ifence, .wcntLd 0, .wcntSt 0, .gacqAll .device, .grelAll .device, .gwait 1 4].map run = List.replicate 9 [0x10008, 0]
    ∧ [Instr.gbindBind 5 2 6 1, .gbindUnbind 5 1, .grel .device 5 1, .gacq .device 5 1, .qrst 5 1 2, .tlbinvRange false 5 1 2 3, .tlbinvCtx false 5 3,
        .tlbinvHnd 5 1 2 3].map run = ([0, 4, 1, 0, 1, 0, 0, 0] : List W64).map (fun x => [0x10008, x])
    ∧ [run (.pmrd 5), run (.pmctl 1)] = [[0x10008, 0], [0x10008, 0]]
    ∧ [Instr.ifence, .gwait 1 4, .tlbinvCtx false 5 3].map (fun i => (wave? i s).elim false none_) = [true, true, true]
    ∧ (wave? (.ldlod ol) texture).map (fun w => (w.getV false 9 0, w.getV false 8 0, w.pc)) = some (0x20000, 0, 0x10010) := by decide +kernel

/-- `EngineFormsComplete`: every copy, a gather and every collective are accepted; so are the commands of the matrix array, which it ends. -/
theorem witness_engine_forms :
    let s := world (fun m => (data m).wrN 0xB0000 4 1) away (fun b => { b with claimed := 1 }) room fun w => Wave.setS (Wave.setS (base 0x20000 w) false 2 1) false 3 8
    let sent := fun (i : Instr) => (leaves i s).elim none fun t => (t.m.wave? 3).map fun w => (w.pc, t.m.ops.length)
    let o : OpCp := { copy with d := 1, a := 1, b := 2 }
    let sp : OpCp := { copy with d := 3, a := 3, b := 2 }
    let cl : OpColl := { q := 1, d := 1, a := 1, b := 2, c := 1, e2 := 4, ty := .n32 }
    let wl : Instr := .wload { q := 0, a := 0, fmt := .h8, sp := 9, scale := none, cont := false }
    let mm : Instr := .mmul { q := 0, d := 1, a := 0, fmt := .f16, m := 0, sp := 9, scale := none, cont := false, z := true }
    let array := fun (i : Instr) (acc : Bool) (n : Nat) => world (fun m => { m with array := [{ core := 0, wave := 3, half := false, block := 2, instr := i, accepted := acc, count := n }] }) id
      (fun b => { b with claimed := BitVec.allOnes 48, wsrc := wsLoaded 0 1 MFmt.f16.code.toNat 0 0 none }) room id
    let step := fun (s : State) => (leaves (.matrixStep 0) s).bind fun t => (t.m.wave? 3).map fun w => (w.pc, t.m.array.length)
    [sent (.cpMm o), sent (.cpMs { o with d := 3 }), sent (.cpSm { o with a := 3 }), sent (.cpSo { sp with d := 4 }), sent (.cpOs { sp with a := 4 }),
      sent (.cpMo { o with d := 4 }), sent (.cpOm { o with a := 4 })] = List.replicate 7 (some (0x10010, 1))
    ∧ [Instr.collSum cl, .collMin cl, .collMax cl, .collGather cl, .collBcast cl].map sent = List.replicate 5 (some (0x10010, 1))
    ∧ [wl, mm].map (fun i => (leaves i (world id id id room id)).elim 0 fun t => t.m.array.length) = [1, 1]
    ∧ [step (array wl false 0), step (array wl true 0), step (array mm false 0), step (array mm true 0)] = [some (0x10000, 1), some (0x10010, 0), some (0x10000, 1), some (0x10010, 0)] := by decide +kernel

/-- `ResetScopes`: a reset of a context with a halted queue, a dirty line, and a collective in which another context waits; and of a function
that has an interrupt record. -/
theorem witness_resets :
    let q : Queue := { part := 0, vf := 0, q := 0, ctx := loadCtx, desc := 0x20000, rung := 2, ridx := 1 }
    let line : L1Line := { core := 0, ctx := loadCtx, line := 0x1601, vpages := [2], data := 7, valid := BitVec.allOnes 128, dirty := 1 }
    let s := world (fun m => { data m with queues := [(20, q)], l1 := [line] }) away id room id
    let other := { engine (.coll 0 .n32 0x22000 0x21000 1 0xB0000 0) with ctx := 5, wave := 4, target := .reg 4 false 1 }
    let waits := world (fun m => { data m with ops := [(9, other)], colls := [{ desc := 0xB0000, ctxs := [5, loadCtx] }]
                                               waves := m.waves ++ [(4, { (demoEnv id).w with ctx := 5 })] }) away id room id
    let reset := fun (s : State) => leaves (.contextReset loadCtx 0x52 0) s
    let record := { s with m := s.m.putVf 0 0 { (s.m.vf 0 0) with irq := some 0x180000 } }
    (reset s).map (fun t => (t.m.rdN 0xB0020 4, t.m.rdN 0xB0028 8, t.m.rdN 0xB0080 1)) = some (0x901, 1, 7)
    ∧ (reset s).map (fun t => ((lookup t.m.queues 20).map (·.halted), t.m.waves.length, ((t.m.vf 0 0).rstcnt - (s.m.vf 0 0).rstcnt))) = some (some true, 0, 1)
    ∧ waits.m.collHeads 0xB0000 = [(9, other)] ∧ (reset waits).map (fun t => (t.m.ops.length, t.m.rdN 0xB0008 8, (t.m.wave? 4).map (·.getQ false 1)))
        = some (0, 1, some (mkRcpt 0 6 3 7))
    ∧ (reset record).map (fun t => t.m.rdN 0x180010 8) = some 0x10000 := by decide +kernel

/-- `OutsideAccesses`, `ManagementPort`, `Translation`: a hole of the window for inputs and outputs; a peer window that is closed, open, and
whose links are down; a replay that gets through; a bank of which one image is bad. -/
theorem witness_windows :
    let s := demo id
    let peer := 2 ^ 51 + 2 ^ 50
    let opened := { s with mgmt := { s.mgmt with windows := [(0, 0x8000000100000000)], table := s.mgmt.table.modify 0 fun y => { y with links := 1 } } }
    let cut := { opened with mgmt := { opened.mgmt with linkDown := 1 } }
    let out := fun (s : State) (pa : Nat) => (leaves (.hostMemoryAccess ⟨0, pa⟩ (.write [3])) s).map fun t => t.m.peerOut
    let failed := { s with mgmt := { s.mgmt with replays := [(3, 7)] } }
    let after := fun (ok : Bool) => (leaves (.flitCrcFail ⟨3, ok⟩) failed).map fun t => t.mgmt.failures 3
    let boots := fun (a b : BitVec 3) => (leaves .deviceReset { s with mgmt := { s.mgmt with bankA := a, bankB := b } }).map fun t => (t.mgmt.booted, t.mgmt.recovery)
    out s (2 ^ 51 + 2 ^ 20) = some [] ∧ out s peer = some [] ∧ out opened peer = some [(peer, 3)] ∧ out cut peer = some [] ∧ out opened (peer + 2 ^ 46) = some []
    ∧ s.mgmt.frameOk 0 peer = false ∧ opened.mgmt.frameOk 0 peer = true ∧ opened.mgmt.windowDown peer = false ∧ cut.mgmt.windowDown peer = true
    ∧ after true = some 0 ∧ after false = some 8 ∧ boots 6 1 = some (true, false) ∧ boots 6 6 = some (false, true) := by decide +kernel

/-- `EngineFormsComplete`: a follow-on that the array accepts next, the last chunk of a copy, and a page that moves. -/
theorem witness_follow_on :
    let mm : Instr := .mmul { q := 0, d := 1, a := 0, fmt := .f16, m := 0, sp := 9, scale := none, cont := false, z := true }
    let c : MCmd := { core := 0, wave := 3, half := false, block := 2, instr := mm, op := some 9 }
    let s := world (fun m => { m with array := [c] }) id (fun b => { b with claimed := BitVec.allOnes 48, wsrc := wsLoaded 0 1 MFmt.f16.code.toNat 0 0 none }) room id
    let page := world (fun m => (data m).wrN 0x81020 8 0xB001F) away id room id
    s.m.arrayNext 0 = some c ∧ (s.m.array.find? fun y => y.op == some 9) = some c
    ∧ ((s.m.block? 2).map fun b => b.judge 48 mm) = some .runs ∧ ((leaves (.followOnAccept 9) s).map fun t => t.m.array.map (·.accepted)) = some [true]
    ∧ (match (page.m.ctx? loadCtx).map fun x => walk page.mgmt page.m x 0x20000 {} with | some (.ok pa _ lv) => decide (pa = 0xB0000 ∧ lv = 3) | _ => false) = true
    ∧ page.mgmt.owns 0 0xE0000 = true ∧ meets 0xB0000 65536 0xE0000 65536 = false := by decide +kernel

end Sys2Proof.Tests
end

section
/-!
SUPPORT. Spans of a word that are zero and the fields in them (spec/02_encoding.md R44, R54), and what the decoder makes of the
fields of `nop`, `kpop`, `kfind` and `krank` (spec/04_vector_isa.md R96, R121, R122).
-/

namespace Sys2Proof

/-! ## Spans of a word -/

/-- A span of a word is two spans, the upper one first. -/
theorem extractLsb'_eq_append_iff {w m n : Nat} (x : BitVec w) (s : Nat) (hi : BitVec m) (lo : BitVec n) :
    x.extractLsb' s (m + n) = hi ++ lo ↔ x.extractLsb' (s + n) m = hi ∧ x.extractLsb' s n = lo := by
  rw [← BitVec.extractLsb'_append_extractLsb'_eq_extractLsb' rfl]
  constructor
  · intro h
    have upper := congrArg (BitVec.extractLsb' n m) h
    have lower := congrArg (BitVec.extractLsb' 0 n) h
    rw [BitVec.extractLsb'_append_eq_left, BitVec.extractLsb'_append_eq_left] at upper
    rw [BitVec.extractLsb'_append_eq_right, BitVec.extractLsb'_append_eq_right] at lower
    exact ⟨upper, lower⟩
  · rintro ⟨rfl, rfl⟩; rfl

/-- A span is zero when both parts of it are. -/
theorem extractLsb'_add_eq_zero_iff {w : Nat} (x : BitVec w) (s m n : Nat) :
    x.extractLsb' s (m + n) = 0 ↔ x.extractLsb' (s + n) m = 0 ∧ x.extractLsb' s n = 0 := by
  rw [← extractLsb'_eq_append_iff, show (0 : BitVec m) ++ (0 : BitVec n) = 0 from BitVec.zero_append_zero]

/-- A span is zero when each of its bits is. -/
theorem extractLsb'_eq_zero_iff {w : Nat} (x : BitVec w) (s n : Nat) :
    x.extractLsb' s n = 0 ↔ ∀ i < n, x.getLsbD (s + i) = false := by
  constructor
  · intro h i hi
    simpa [hi] using congrArg (BitVec.getLsbD · i) h
  · intro h
    apply BitVec.eq_of_getLsbD_eq
    intro i hi
    simp [hi, h i hi]

/-! ## The fields of a word that are zero (R44) -/

/-- FN, U and X are bits 55:48. -/
theorem Fld.fnu_of_iff (b : W64) : b.extractLsb' 48 8 = 0 ↔ (Fld.of b).fnu = true ∧ (Fld.of b).x = false := by
  rw [show b.extractLsb' 48 8 = 0 ↔ _ from extractLsb'_add_eq_zero_iff b 48 2 6, extractLsb'_eq_zero_iff]
  simp only [Nat.forall_lt_succ_right, Nat.not_lt_zero, false_implies, implies_true, true_and, Fld.fnu, Fld.of, Bool.and_eq_true,
    beq_iff_eq, Bool.not_eq_true']
  tauto

/-- MOD is bits 7:0. -/
theorem Fld.mod0_of_iff (b : W64) : b.extractLsb' 0 8 = 0 ↔ (Fld.of b).mod0 = true := by
  rw [extractLsb'_eq_zero_iff]
  simp only [Nat.forall_lt_succ_right, Nat.not_lt_zero, false_implies, implies_true, true_and, Fld.mod0, Fld.mod50, Fld.of,
    Bool.and_eq_true, Bool.not_eq_true']
  tauto

/-- TY and MOD are bits 11:0. -/
theorem Fld.ty_mod0_of_iff (b : W64) (t : BitVec 4) :
    b.extractLsb' 0 12 = t ++ (0 : BitVec 8) ↔ (Fld.of b).ty = t ∧ (Fld.of b).mod0 = true := by
  rw [← Fld.mod0_of_iff]
  exact extractLsb'_eq_append_iff b 0 t (0 : BitVec 8)

/-- K, TY and MOD are bits 15:0. -/
theorem Fld.low0_of_iff (b : W64) : b.extractLsb' 0 16 = 0 ↔ (Fld.of b).low0 = true := by
  rw [show b.extractLsb' 0 16 = 0 ↔ _ from extractLsb'_add_eq_zero_iff b 0 4 12,
    show b.extractLsb' 0 12 = 0 ↔ _ from Fld.ty_mod0_of_iff b 0]
  simp only [Fld.low0, Bool.and_eq_true, beq_iff_eq, and_assoc]
  rfl

/-- B and C are bits 31:16. -/
theorem Fld.bc_of_iff (b : W64) : b.extractLsb' 16 16 = 0 ↔ (Fld.of b).b = 0 ∧ (Fld.of b).c = 0 :=
  extractLsb'_add_eq_zero_iff b 16 8 8

/-- B, C, K, TY and MOD are bits 31:0. -/
theorem Fld.bc_low0_of_iff (b : W64) :
    b.extractLsb' 0 32 = 0 ↔ (Fld.of b).b = 0 ∧ (Fld.of b).c = 0 ∧ (Fld.of b).low0 = true := by
  rw [← and_assoc, ← Fld.bc_of_iff, ← Fld.low0_of_iff]
  exact extractLsb'_add_eq_zero_iff b 0 16 16

/-- D and A are bits 47:32. -/
theorem Fld.da_of_iff (b : W64) : b.extractLsb' 32 16 = 0 ↔ (Fld.of b).d = 0 ∧ (Fld.of b).a = 0 :=
  extractLsb'_add_eq_zero_iff b 32 8 8

/-- All fields but FN, U, X and OP are bits 47:0. -/
theorem Fld.bare_of_iff (b : W64) : b.extractLsb' 0 48 = 0 ↔ (Fld.of b).bare = true := by
  rw [show b.extractLsb' 0 48 = 0 ↔ _ from extractLsb'_add_eq_zero_iff b 0 16 32, Fld.da_of_iff, Fld.bc_low0_of_iff]
  simp only [Fld.bare, Bool.and_eq_true, beq_iff_eq, and_assoc]

/-- A word with no field but its OP. -/
theorem Fld.eq_op_iff (b : W64) (op : BitVec 8) : b = op ++ (0 : BitVec 56) ↔
    (Fld.of b).op = op ∧ ((Fld.of b).fnu = true ∧ (Fld.of b).x = false) ∧ (Fld.of b).bare = true := by
  rw [← Fld.fnu_of_iff, ← Fld.bare_of_iff, ← show b.extractLsb' 0 56 = 0 ↔ _ from extractLsb'_add_eq_zero_iff b 0 8 48]
  have parts := extractLsb'_eq_append_iff b 0 op (0 : BitVec 56)
  rwa [show b.extractLsb' 0 (8 + 56) = b from BitVec.extractLsb'_eq_self] at parts

/-! ## Words of one opcode -/

/-- The words of a base-form opcode are one instruction exactly where `P` holds, and undefined elsewhere (R54). -/
theorem decodeTotal_of_ite {b x : W64} {i : Instr} {P : Prop} [Decidable P] (hop : opX (Fld.of b).op = some false)
    (hP : P → (Fld.of b).x = false)
    (hd : (Fld.of b).x = false → decodeFields (Fld.of b) (Ext.of x) x = if P then some i else none) :
    (P → decodeTotal b x = i) ∧ (¬ P → ∃ why, decodeTotal b x = .emulate why) := by
  have hb : b ≠ 0 := by rintro rfl; revert hop; decide
  unfold decodeTotal decode
  rw [if_neg hb]
  constructor
  · intro h
    simp [hop, hP h, hd (hP h), h]
  · intro h
    cases hX : (Fld.of b).x with
    | true => simp [hop, hX]
    | false => simp [hop, hX, hd hX, h]

/-! ## Mask and scalar fields (R45) -/

/-- The mask that a field of mask kind names: `exec` by 16, and `k0` to `k15` by 0 to 15. -/
def MX.ofField (a : BitVec 8) : MX := if a = 16 then .exec else .k (a.setWidth 4)

theorem mxOf_eq (a : BitVec 8) : mxOf a = if a ≤ 16 then some (MX.ofField a) else none := by
  have eq16 : a = 16 ↔ a.toNat = 16 := BitVec.toNat_inj.symm
  have le16 : a ≤ 16 ↔ a.toNat ≤ 16 := Iff.rfl
  simp only [mxOf, MX.ofField, eq16, le16]
  rcases lt_trichotomy a.toNat 16 with h | h | h
  · simp [h, h.le, h.ne]
  · simp [h]
  · simp [h.not_gt, h.not_ge, h.ne']

theorem reg7_eq (d : BitVec 8) : reg7 d = if d < 128 then some (d.setWidth 7) else none := rfl

/-! ## The decoder at OP 0x01 and 0x5C to 0x5E -/

/-- A test that fails ends the decoding (R54). -/
theorem bind_ite_none {α β : Type} (P : Prop) [Decidable P] (a : α) (f : α → Option β) :
    (if P then some a else none).bind f = if P then f a else none := by
  split_ifs <;> rfl

theorem decodeFields_nop {f : Fld} (e : Ext) (x : W64) (hop : f.op = 0x01) :
    decodeFields f e x = if f.fnu = true ∧ f.bare = true then some .nop else none := by
  have tests : decodeFields f e x = (need (f.fnu && f.bare)).bind fun _ => some .nop := by simp [decodeFields, dInt, hop]
  rw [tests, need, bind_ite_none]
  exact if_congr (by simp) rfl rfl

/-- `kpop` and `kfind` have one form. -/
theorem decodeFields_maskScalar {f : Fld} {g : BitVec 7 → MX → Instr} (e : Ext) (x : W64)
    (hop : f.op = 0x5C ∧ g = .kpop ∨ f.op = 0x5D ∧ g = .kfind) :
    decodeFields f e x =
      if (f.fnu = true ∧ f.a ≤ 16) ∧ f.d < 128 ∧ f.b = 0 ∧ f.c = 0 ∧ f.low0 = true then some (g (f.d.setWidth 7) (MX.ofField f.a))
      else none := by
  have tests : decodeFields f e x = (need (f.fnu && f.c == 0 && f.low0)).bind fun _ => (need (f.b == 0)).bind fun _ =>
      (reg7 f.d).bind fun d => (mxOf f.a).bind fun a => some (g d a) := by
    rcases hop with ⟨hop, rfl⟩ | ⟨hop, rfl⟩
    · simp [decodeFields, dLane, hop]
    · simp [decodeFields, dLane, hop]
  rw [tests, reg7_eq, mxOf_eq]
  simp only [need, bind_ite_none, ← ite_and, Bool.and_eq_true, beq_iff_eq]
  exact if_congr (by tauto) rfl rfl

theorem decodeFields_krank {f : Fld} (e : Ext) (x : W64) (hop : f.op = 0x5E) :
    decodeFields f e x =
      if (f.fnu = true ∧ f.a ≤ 16) ∧ (f.b = 0 ∧ f.c = 0) ∧ f.ty = 2 ∧ f.mod0 = true then some (.krank f.k f.d (MX.ofField f.a))
      else none := by
  have tests : decodeFields f e x = (need (f.fnu && f.b == 0 && f.c == 0 && f.ty == 2 && f.mod0)).bind fun _ =>
      (mxOf f.a).bind fun a => some (.krank f.k f.d a) := by simp [decodeFields, dLane, hop]
  rw [tests, mxOf_eq]
  simp only [need, bind_ite_none, ← ite_and, Bool.and_eq_true, beq_iff_eq]
  exact if_congr (by tauto) rfl rfl

end Sys2Proof
end

section
/-!
SUPPORT and PROOFS. The ones of a mask, and what `nop`, `kpop`, `kfind` and `krank` do (spec/04_vector_isa.md R96, R121, R122).
-/

namespace Sys2Proof.Machine

/-! ## The ones of a word -/

theorem length_bitsOf (x : W64) (n : Nat) : (bitsOf x n).length = (List.range n).countP (bit x) :=
  List.countP_eq_length_filter.symm

theorem bitsOf_eq_nil {x : W64} {n : Nat} (h : ∀ l < n, bit x l = false) : bitsOf x n = [] := by
  simpa [bitsOf, bit] using h

/-- The least position of a one heads the list of them. -/
theorem bitsOf_eq_cons {x : W64} {n l : Nat} (hl : l < n) (one : bit x l = true) (least : ∀ j < l, bit x j = false) :
    ∃ r, bitsOf x n = l :: r := by
  have found : (bitsOf x n).head? = some l := by
    rw [bitsOf, List.head?_filter, List.find?_range_eq_some]
    exact ⟨one, List.mem_range.2 hl, fun j hj => by simpa [bit] using least j hj⟩
  exact List.head?_eq_some_iff.1 found

/-! ## Completion -/

theorem Env.settled_gone (e : Env) (w : Wave) (n : Nat) : (e.gone w n).settled = ({ w with pc := w.pc + w64 n } : Wave).settled := by
  simp only [Env.gone, Wave.retired, Wave.settled, List.map_map]
  congr 1
  apply List.map_congr_left
  intro a _
  simp only [Function.comp]
  split <;> rfl

theorem nop_completes {s : State} {e : Env} (h : s.env? = some e) : CompletesAs s e .nop { e.w with pc := e.w.pc + 8 } :=
  Completes.of h rfl ⟨_, Env.finish_ok h e.w 8, e.settled_gone e.w 8⟩

theorem kpop_completes {s : State} {e : Env} (h : s.env? = some e) (r : BitVec 7) (a : MX) :
    Completes s e (.kpop r a) (ScalarWritten e r fun p => w64 ((List.range e.w.W).countP (bit (e.w.getMX p a)))) := by
  simp only [← length_bitsOf]
  exact Completes.of h rfl (Env.maskScalar_done h r _)

theorem kfind_completes {s : State} {e : Env} (h : s.env? = some e) (r : BitVec 7) (a : MX) :
    Completes s e (.kfind r a) (fun v => ∃ f, ScalarWritten e r f v ∧ ∀ p,
      ((∀ l < e.w.W, bit (e.w.getMX p a) l = false) → f p = 0xFFFFFFFFFFFFFFFF)
        ∧ ∀ l < e.w.W, bit (e.w.getMX p a) l = true → (∀ j < l, bit (e.w.getMX p a) j = false) → f p = w64 l) := by
  refine Completes.of h rfl ((Env.maskScalar_done h r _).imp fun v hv => ⟨hv.1, _, hv.2, fun p => ⟨fun zero => ?_, ?_⟩⟩)
  · rw [bitsOf_eq_nil zero]; rfl
  · intro l hl one least
    obtain ⟨rest, hr⟩ := bitsOf_eq_cons hl one least
    rw [hr]

theorem krank_completes {s : State} {e : Env} (h : s.env? = some e) (k : BitVec 4) (d : BitVec 8) (a : MX) :
    Completes s e (.krank k d a) (LaneResult e k .n32 (.vec d) 8 fun p l => (List.range l).countP (bit (e.w.getMX p a))) := by
  simp only [← length_bitsOf]
  exact Completes.of h rfl (Env.lanes_done h k .n32 (.vec d) (fun p l => (bitsOf (e.w.getMX p a) l).length) 8)

/-! ## Words -/

theorem nop_words (b x : W64) (hop : b.extractLsb' 56 8 = 1) :
    (b = 0x0100000000000000 → decodeTotal b x = .nop) ∧ (b ≠ 0x0100000000000000 → ∃ why, decodeTotal b x = .emulate why) := by
  have hop : (Fld.of b).op = 0x01 := hop
  have fields := Fld.eq_op_iff b 1
  rw [show (1 : BitVec 8) ++ (0 : BitVec 56) = 0x0100000000000000 from rfl] at fields
  refine decodeTotal_of_ite (by rw [hop]; decide) (fun hb => (fields.1 hb).2.1.2) fun hX => ?_
  rw [decodeFields_nop _ _ hop]
  simp only [fields, hop, hX, and_true, true_and]

/-- `kpop` and `kfind` have one form. -/
theorem maskScalar_words (b x : W64) (g : BitVec 7 → MX → Instr)
    (hop : b.extractLsb' 56 8 = 0x5C ∧ g = .kpop ∨ b.extractLsb' 56 8 = 0x5D ∧ g = .kfind) :
    let d := b.extractLsb' 40 8
    let n := b.extractLsb' 32 8
    let scalar := (b.extractLsb' 48 8 = 0 ∧ n ≤ 16) ∧ d < 128 ∧ b.extractLsb' 0 32 = 0
    (scalar → decodeTotal b x = g (d.setWidth 7) (MX.ofField n)) ∧ (¬ scalar → ∃ why, decodeTotal b x = .emulate why) := by
  intro d n scalar
  have hop : (Fld.of b).op = 0x5C ∧ g = .kpop ∨ (Fld.of b).op = 0x5D ∧ g = .kfind := hop
  have base : opX (Fld.of b).op = some false := by rcases hop with ⟨hop, _⟩ | ⟨hop, _⟩ <;> rw [hop] <;> decide
  refine decodeTotal_of_ite base (fun hs => ((Fld.fnu_of_iff b).1 hs.1.1).2) fun hX => ?_
  rw [decodeFields_maskScalar _ _ hop]
  simp only [scalar, Fld.fnu_of_iff, Fld.bc_low0_of_iff, hX, and_true]
  rfl

theorem krank_words (b x : W64) (hop : b.extractLsb' 56 8 = 0x5E) :
    let d := b.extractLsb' 40 8
    let n := b.extractLsb' 32 8
    let vector := (b.extractLsb' 48 8 = 0 ∧ n ≤ 16) ∧ b.extractLsb' 16 16 = 0 ∧ b.extractLsb' 0 12 = 0x200
    (vector → decodeTotal b x = .krank (b.extractLsb' 12 4) d (MX.ofField n))
      ∧ (¬ vector → ∃ why, decodeTotal b x = .emulate why) := by
  intro d n vector
  have hop : (Fld.of b).op = 0x5E := hop
  have low := Fld.ty_mod0_of_iff b 2
  rw [show (2 : BitVec 4) ++ (0 : BitVec 8) = 0x200 from rfl] at low
  refine decodeTotal_of_ite (by rw [hop]; decide) (fun hv => ((Fld.fnu_of_iff b).1 hv.1.1).2) fun hX => ?_
  rw [decodeFields_krank _ _ hop]
  simp only [vector, Fld.fnu_of_iff, Fld.bc_of_iff, low, hX, and_true]
  rfl

/-! ## The statements -/

/-- Settles O16: it completes as it stands, and its one word is read from the fields of a word. -/
theorem nopDoesNothing : Obligations.NopDoesNothing :=
  ⟨fun _ _ h => nop_completes h, fun x => (nop_words _ x (by decide)).1 rfl, fun b x hop hb => (nop_words b x hop).2 hb⟩

/-- Settles O12: what each writes in the halves that run or the active lanes, and its words field by field. -/
theorem maskCounts : Obligations.MaskCounts :=
  ⟨fun _ _ h a k r d => ⟨kpop_completes h r a, kfind_completes h r a, krank_completes h k d a⟩,
    fun b x => ⟨fun hop => maskScalar_words b x .kpop (.inl ⟨hop, rfl⟩), fun hop => maskScalar_words b x .kfind (.inr ⟨hop, rfl⟩),
      krank_words b x⟩⟩

end Sys2Proof.Machine
end
